-- ==== Sys2Proof/Word.lean ====
section
/-! DEFINITION. The word types of the machine: bytes, halves, words and dwords of R2. -/

namespace Sys2Proof

/-- A byte, 8 bits (R2). -/
abbrev Byte := BitVec 8
/-- A half, 16 bits (R2). -/
abbrev Half := BitVec 16
/-- A word, 32 bits (R2). -/
abbrev Word := BitVec 32
/-- A dword, 64 bits (R2). -/
abbrev Dword := BitVec 64

end Sys2Proof
end

