-- ==== Sys2Proof/Syntax.lean ====
section
/-! DEFINITION. The syntax of Fuell: the operand codes of R51 and one constructor of `Instr` for each row of
the opcode table. A word row carries its encoded fields in the order of the table; an event row (no encoding)
carries the names of the things it happens to, as the log's entry 1 says. -/

namespace Sys2Proof

/-- The 128 operand codes of R51, one name each. -/
inductive Opd where
  /-- `v0` to `v95`, codes 0x00 to 0x5F -/
  | v (n : Fin 96)
  /-- `s0` to `s23`, codes 0x60 to 0x77 -/
  | s (n : Fin 24)
  | zero | exec | lane | slice
  /-- `bc0` to `bc2`, codes 0x7C to 0x7E -/
  | bc (n : Fin 3)
  | role
  deriving DecidableEq, Repr

/-- One constructor per row of the opcode table. -/
inductive Instr where
  /-- R67: A clause header is checked whole and its WAIT flags must read zero before the clause's first word issues. -/
  | clause (w : BitVec 12) (a : BitVec 4) (b : BitVec 4) (l : BitVec 3) (h : BitVec 4)
  /-- R193: Per-lane wrapping 32-bit add. -/
  | iadd (d : Opd) (a : Opd) (b : Opd)
  /-- R193: Per-lane wrapping 32-bit subtract. -/
  | isub (d : Opd) (a : Opd) (b : Opd)
  /-- R193: Per-lane low 32 bits of the product. -/
  | imul (d : Opd) (a : Opd) (b : Opd)
  /-- R193: Per-lane high word of the signed product. -/
  | imulhi (d : Opd) (a : Opd) (b : Opd)
  /-- R193: Per-lane high word of the unsigned product. -/
  | nmulhi (d : Opd) (a : Opd) (b : Opd)
  /-- R193: Per-lane signed minimum. -/
  | imin (d : Opd) (a : Opd) (b : Opd)
  /-- R193: Per-lane signed maximum. -/
  | imax (d : Opd) (a : Opd) (b : Opd)
  /-- R193: Per-lane unsigned minimum. -/
  | nmin (d : Opd) (a : Opd) (b : Opd)
  /-- R193: Per-lane unsigned maximum. -/
  | nmax (d : Opd) (a : Opd) (b : Opd)
  /-- R193: Per-lane bitwise AND. -/
  | andV (d : Opd) (a : Opd) (b : Opd)
  /-- R193: Per-lane bitwise OR. -/
  | orV (d : Opd) (a : Opd) (b : Opd)
  /-- R193: Per-lane bitwise XOR. -/
  | xorV (d : Opd) (a : Opd) (b : Opd)
  /-- R193: Per-lane shift left by b[4:0]. -/
  | shlV (d : Opd) (a : Opd) (b : Opd)
  /-- R193: Per-lane logical shift right by b[4:0]. -/
  | shrV (d : Opd) (a : Opd) (b : Opd)
  /-- R193: Per-lane arithmetic shift right by b[4:0]. -/
  | sarV (d : Opd) (a : Opd) (b : Opd)
  /-- R193: Per-lane D plus the absolute signed difference of A and B. -/
  | isad (d : Opd) (a : Opd) (b : Opd)
  /-- R195: Per-lane population count. -/
  | popc (d : Opd) (a : Opd)
  /-- R195: Per-lane count of leading zeros. -/
  | clz (d : Opd) (a : Opd)
  /-- R195: Per-lane count of trailing zeros. -/
  | ctz (d : Opd) (a : Opd)
  /-- R195: Per-lane bit reversal. -/
  | brev (d : Opd) (a : Opd)
  /-- R196: Per-lane bit-field extract with optional sign extension. -/
  | bfe (d : Opd) (a : Opd) (b : Opd)
  /-- R196: Per-lane bit-field insert into D. -/
  | bfi (d : Opd) (a : Opd) (b : Opd)
  /-- R195: Per-lane funnel shift left of D:A. -/
  | fshl (d : Opd) (a : Opd) (b : Opd)
  /-- R195: Per-lane funnel shift right of A:D. -/
  | fshr (d : Opd) (a : Opd) (b : Opd)
  /-- R195: Per-lane rotate left. -/
  | rotl (d : Opd) (a : Opd) (b : Opd)
  /-- R195: Per-lane absolute value modulo 2^32. -/
  | iabs (d : Opd) (a : Opd)
  /-- R195: Per-lane negation. -/
  | ineg (d : Opd) (a : Opd)
  /-- R195: Per-lane A times B plus D, wrapping. -/
  | imad (d : Opd) (a : Opd) (b : Opd)
  /-- R200: Per-lane binary32 add rounded under FPC. -/
  | faddF32 (d : Opd) (a : Opd) (b : Opd)
  /-- R200: Per-lane binary32 subtract. -/
  | fsubF32 (d : Opd) (a : Opd) (b : Opd)
  /-- R200: Per-lane binary32 multiply. -/
  | fmulF32 (d : Opd) (a : Opd) (b : Opd)
  /-- R200: Per-lane fused A times B plus D. -/
  | fmaF32 (d : Opd) (a : Opd) (b : Opd)
  /-- R200: Per-lane fused A times B minus D. -/
  | fmsF32 (d : Opd) (a : Opd) (b : Opd)
  /-- R200: Per-lane fused minus A times B plus D. -/
  | fnmaF32 (d : Opd) (a : Opd) (b : Opd)
  /-- R201: Per-lane binary32 minimum with NaN rules. -/
  | fminF32 (d : Opd) (a : Opd) (b : Opd)
  /-- R201: Per-lane binary32 maximum with NaN rules. -/
  | fmaxF32 (d : Opd) (a : Opd) (b : Opd)
  /-- R200: Per-lane absolute value. -/
  | fabsF32 (d : Opd) (a : Opd)
  /-- R200: Per-lane negation. -/
  | fnegF32 (d : Opd) (a : Opd)
  /-- R200: Per-lane magnitude of A with the sign of B. -/
  | fcpsF32 (d : Opd) (a : Opd) (b : Opd)
  /-- R202: Per-lane round toward minus infinity to an integral value. -/
  | ffloorF32 (d : Opd) (a : Opd)
  /-- R202: Per-lane round toward plus infinity to an integral value. -/
  | fceilF32 (d : Opd) (a : Opd)
  /-- R202: Per-lane round toward zero to an integral value. -/
  | ftruncF32 (d : Opd) (a : Opd)
  /-- R202: Per-lane round to an integral value under FPC.RM. -/
  | frintF32 (d : Opd) (a : Opd)
  /-- R203: Per-lane class number of A. -/
  | fclassF32 (d : Opd) (a : Opd)
  /-- R204: Packed bfloat16 add. -/
  | haddBf16 (d : Opd) (a : Opd) (b : Opd)
  /-- R204: Packed bfloat16 subtract. -/
  | hsubBf16 (d : Opd) (a : Opd) (b : Opd)
  /-- R204: Packed bfloat16 multiply. -/
  | hmulBf16 (d : Opd) (a : Opd) (b : Opd)
  /-- R204: Packed bfloat16 fused multiply-add. -/
  | hfmaBf16 (d : Opd) (a : Opd) (b : Opd)
  /-- R204: Packed bfloat16 minimum. -/
  | hminBf16 (d : Opd) (a : Opd) (b : Opd)
  /-- R204: Packed bfloat16 maximum. -/
  | hmaxBf16 (d : Opd) (a : Opd) (b : Opd)
  /-- R205: Two-term bfloat16 dot product added to a binary32 addend. -/
  | hdot2Bf16 (d : Opd) (a : Opd) (b : Opd)
  /-- R204: Packed binary16 add. -/
  | haddF16 (d : Opd) (a : Opd) (b : Opd)
  /-- R204: Packed binary16 subtract. -/
  | hsubF16 (d : Opd) (a : Opd) (b : Opd)
  /-- R204: Packed binary16 multiply. -/
  | hmulF16 (d : Opd) (a : Opd) (b : Opd)
  /-- R204: Packed binary16 fused multiply-add. -/
  | hfmaF16 (d : Opd) (a : Opd) (b : Opd)
  /-- R204: Packed binary16 minimum. -/
  | hminF16 (d : Opd) (a : Opd) (b : Opd)
  /-- R204: Packed binary16 maximum. -/
  | hmaxF16 (d : Opd) (a : Opd) (b : Opd)
  /-- R205: Two-term binary16 dot product added to a binary32 addend. -/
  | hdot2F16 (d : Opd) (a : Opd) (b : Opd)
  /-- R94: Per-lane binary32 to signed integer conversion. -/
  | cvtI32F32 (d : Opd) (a : Opd)
  /-- R94: Per-lane binary32 to unsigned integer conversion. -/
  | cvtN32F32 (d : Opd) (a : Opd)
  /-- R206: Per-lane signed integer to binary32 conversion. -/
  | cvtF32I32 (d : Opd) (a : Opd)
  /-- R206: Per-lane unsigned integer to binary32 conversion. -/
  | cvtF32N32 (d : Opd) (a : Opd)
  /-- R207: Narrow binary32 to bfloat16 into the low half of D. -/
  | cvtBf16F32Lo (d : Opd) (a : Opd)
  /-- R207: Narrow binary32 to bfloat16 into the high half of D. -/
  | cvtBf16F32Hi (d : Opd) (a : Opd)
  /-- R207: Widen the low bfloat16 half to binary32. -/
  | cvtF32Bf16Lo (d : Opd) (a : Opd)
  /-- R207: Widen the high bfloat16 half to binary32. -/
  | cvtF32Bf16Hi (d : Opd) (a : Opd)
  /-- R207: Narrow binary32 to binary16 into the low half of D. -/
  | cvtF16F32Lo (d : Opd) (a : Opd)
  /-- R207: Narrow binary32 to binary16 into the high half of D. -/
  | cvtF16F32Hi (d : Opd) (a : Opd)
  /-- R207: Widen the low binary16 half to binary32. -/
  | cvtF32F16Lo (d : Opd) (a : Opd)
  /-- R207: Widen the high binary16 half to binary32. -/
  | cvtF32F16Hi (d : Opd) (a : Opd)
  /-- R110: Quantise binary32 to an L6 code under a quarter-scale. -/
  | cvtL6F32 (d : Opd) (a : Opd) (b : Opd)
  /-- R109: Decode an L6 code under a quarter-scale to binary32. -/
  | cvtF32L6 (d : Opd) (a : Opd) (b : Opd)
  /-- R111: Decode an L6 code to a Q31.32 fixed-point pair. -/
  | cvtQL6 (d : Opd) (a : Opd) (b : Opd)
  /-- R163: Compare lanes for binary32 equality into a mask. -/
  | feq (d : Opd) (a : Opd) (b : Opd)
  /-- R163: Compare lanes for binary32 inequality into a mask. -/
  | fne (d : Opd) (a : Opd) (b : Opd)
  /-- R163: Compare lanes for binary32 less-than into a mask. -/
  | flt (d : Opd) (a : Opd) (b : Opd)
  /-- R163: Compare lanes for binary32 less-or-equal into a mask. -/
  | fle (d : Opd) (a : Opd) (b : Opd)
  /-- R163: Compare lanes for binary32 greater-than into a mask. -/
  | fgt (d : Opd) (a : Opd) (b : Opd)
  /-- R163: Compare lanes for binary32 greater-or-equal into a mask. -/
  | fge (d : Opd) (a : Opd) (b : Opd)
  /-- R163: Mark lanes where neither input is NaN. -/
  | ford (d : Opd) (a : Opd) (b : Opd)
  /-- R163: Mark lanes where either input is NaN. -/
  | funo (d : Opd) (a : Opd) (b : Opd)
  /-- R163: Compare lanes for integer equality into a mask. -/
  | ieq (d : Opd) (a : Opd) (b : Opd)
  /-- R163: Compare lanes for integer inequality into a mask. -/
  | ine (d : Opd) (a : Opd) (b : Opd)
  /-- R163: Compare lanes for signed less-than into a mask. -/
  | ilt (d : Opd) (a : Opd) (b : Opd)
  /-- R163: Compare lanes for signed less-or-equal into a mask. -/
  | ile (d : Opd) (a : Opd) (b : Opd)
  /-- R163: Compare lanes for unsigned less-than into a mask. -/
  | nlt (d : Opd) (a : Opd) (b : Opd)
  /-- R163: Compare lanes for unsigned less-or-equal into a mask. -/
  | nle (d : Opd) (a : Opd) (b : Opd)
  /-- R164: Mark lanes whose binary32 class is in the class set B. -/
  | fcls (d : Opd) (a : Opd) (b : Opd)
  /-- R209: Per-lane reciprocal within 1 ulp. -/
  | rcp (d : Opd) (a : Opd)
  /-- R209: Per-lane reciprocal square root. -/
  | rsq (d : Opd) (a : Opd)
  /-- R209: Per-lane correctly rounded square root. -/
  | sqrt (d : Opd) (a : Opd)
  /-- R209: Per-lane base-2 exponential. -/
  | exp2 (d : Opd) (a : Opd)
  /-- R209: Per-lane base-2 logarithm. -/
  | log2 (d : Opd) (a : Opd)
  /-- R209: Per-lane sine of pi times x. -/
  | sinpi (d : Opd) (a : Opd)
  /-- R209: Per-lane cosine of pi times x. -/
  | cospi (d : Opd) (a : Opd)
  /-- R209: Per-lane hyperbolic tangent. -/
  | tanh (d : Opd) (a : Opd)
  /-- R213: Crew-scope shuffle from a per-lane source index after a level-0 join. -/
  | shfl (d : Opd) (a : Opd) (b : Opd)
  /-- R213: Crew-scope XOR shuffle. -/
  | shfx (d : Opd) (a : Opd) (b : Opd)
  /-- R213: Crew-scope shuffle up by a distance. -/
  | shfu (d : Opd) (a : Opd) (b : Opd)
  /-- R213: Crew-scope shuffle down by a distance. -/
  | shfd (d : Opd) (a : Opd) (b : Opd)
  /-- R213: Crew-scope broadcast from a uniform source lane. -/
  | bcast (d : Opd) (a : Opd) (b : Opd)
  /-- R215: Crew-scope mask of present lanes with nonzero A, written with SCC. -/
  | ballot (d : Opd) (a : Opd)
  /-- R215: Crew-scope test whether any present lane has nonzero A. -/
  | vany (d : Opd) (a : Opd)
  /-- R215: Crew-scope test whether every present lane has nonzero A. -/
  | vall (d : Opd) (a : Opd)
  /-- R214: Crew-scope wrapping integer sum over present lanes. -/
  | redi (d : Opd) (a : Opd)
  /-- R116: Crew-scope binary32 pairwise-tree sum over present lanes. -/
  | redf (d : Opd) (a : Opd)
  /-- R214: Crew-scope min, max or logic reduction chosen by a selector. -/
  | redmx (d : Opd) (a : Opd) (b : Opd)
  /-- R216: Crew-scope inclusive or exclusive integer prefix sum. -/
  | scani (d : Opd) (a : Opd) (b : Opd)
  /-- R217: Slice-scope shuffle from a per-lane source index. -/
  | sshf (d : Opd) (a : Opd) (b : Opd)
  /-- R217: Slice-scope XOR shuffle. -/
  | sshx (d : Opd) (a : Opd) (b : Opd)
  /-- R217: Slice-scope broadcast from one lane. -/
  | sbc (d : Opd) (a : Opd) (b : Opd)
  /-- R159: Scalar add with carry into SCC. -/
  | sadd (d : Opd) (a : Opd) (b : Opd)
  /-- R159: Scalar subtract with borrow into SCC. -/
  | ssub (d : Opd) (a : Opd) (b : Opd)
  /-- R159: Scalar multiply with signed overflow into SCC. -/
  | smul (d : Opd) (a : Opd) (b : Opd)
  /-- R159: Scalar AND, SCC set when nonzero. -/
  | sand (d : Opd) (a : Opd) (b : Opd)
  /-- R159: Scalar OR, SCC set when nonzero. -/
  | sor (d : Opd) (a : Opd) (b : Opd)
  /-- R159: Scalar XOR, SCC set when nonzero. -/
  | sxor (d : Opd) (a : Opd) (b : Opd)
  /-- R159: Scalar shift left. -/
  | sshl (d : Opd) (a : Opd) (b : Opd)
  /-- R159: Scalar logical shift right. -/
  | sshr (d : Opd) (a : Opd) (b : Opd)
  /-- R159: Scalar arithmetic shift right. -/
  | ssar (d : Opd) (a : Opd) (b : Opd)
  /-- R159: Scalar signed minimum. -/
  | smin (d : Opd) (a : Opd) (b : Opd)
  /-- R159: Scalar signed maximum. -/
  | smax (d : Opd) (a : Opd) (b : Opd)
  /-- R159: Scalar unsigned minimum. -/
  | snmin (d : Opd) (a : Opd) (b : Opd)
  /-- R159: Scalar unsigned maximum. -/
  | snmax (d : Opd) (a : Opd) (b : Opd)
  /-- R159: Scalar equality test into D and SCC. -/
  | scmpeq (d : Opd) (a : Opd) (b : Opd)
  /-- R159: Scalar signed less-than test. -/
  | scmplt (d : Opd) (a : Opd) (b : Opd)
  /-- R159: Scalar unsigned less-than test. -/
  | scmpnlt (d : Opd) (a : Opd) (b : Opd)
  /-- R160: Scalar add of a signed immediate, SCC set when nonzero. -/
  | saddi (d : Opd) (a : Opd) (i : BitVec 11)
  /-- R161: Write a sign-extended 18-bit immediate to a vector, scalar or EXEC. -/
  | movi (d : Opd) (i : BitVec 18)
  /-- R161: Write an immediate above the low 14 bits of D. -/
  | movhi (d : Opd) (i : BitVec 18)
  /-- R194: Per-lane add of a signed immediate. -/
  | vaddi (d : Opd) (a : Opd) (i : BitVec 11)
  /-- R223: Load 1 to 8 words per lane, long-latency. -/
  | ld (w : BitVec 2) (d : Opd) (a : Opd) (i : BitVec 11)
  /-- R223: Posted store of 1 to 8 words per lane. -/
  | st (w : BitVec 2) (d : Opd) (a : Opd) (i : BitVec 11)
  /-- R225: Sign-extending byte load. -/
  | ldS8 (d : Opd) (a : Opd) (b : Opd)
  /-- R225: Zero-extending byte load. -/
  | ldZ8 (d : Opd) (a : Opd) (b : Opd)
  /-- R225: Sign-extending half load. -/
  | ldS16 (d : Opd) (a : Opd) (b : Opd)
  /-- R225: Zero-extending half load. -/
  | ldZ16 (d : Opd) (a : Opd) (b : Opd)
  /-- R225: Posted byte store. -/
  | st8 (d : Opd) (a : Opd) (b : Opd)
  /-- R225: Posted half store. -/
  | st16 (d : Opd) (a : Opd) (b : Opd)
  /-- R226: Load from the team's scratchpad allocation by offset. -/
  | ldl (w : BitVec 2) (d : Opd) (a : Opd) (b : Opd)
  /-- R226: Store to the team's scratchpad allocation by offset. -/
  | stl (w : BitVec 2) (d : Opd) (a : Opd) (b : Opd)
  /-- R227: Ordered word load. -/
  | ald (d : Opd) (a : Opd) (b : Opd)
  /-- R227: Unpaired word load exempt from most ordering. -/
  | aldUnp (d : Opd) (a : Opd) (b : Opd)
  /-- R145: Quantum load returning a value from the last 256 ticks. -/
  | aldQnt (d : Opd) (a : Opd) (b : Opd)
  /-- R146: Speculative load bounded by neighbouring ordering events. -/
  | aldSpec (d : Opd) (a : Opd) (b : Opd)
  /-- R227: Ordered word store. -/
  | ast (d : Opd) (a : Opd) (b : Opd)
  /-- R227: Unpaired word store. -/
  | astUnp (d : Opd) (a : Opd) (b : Opd)
  /-- R228: Indexed gather load from a uniform scalar base. -/
  | ldi (w : BitVec 2) (d : Opd) (a : Opd) (b : Opd)
  /-- R230: 32-bit atomic add with the declared use in W. -/
  | atomAdd (w : BitVec 2) (d : Opd) (a : Opd) (b : Opd)
  /-- R230: 32-bit atomic subtract. -/
  | atomSub (w : BitVec 2) (d : Opd) (a : Opd) (b : Opd)
  /-- R230: 32-bit atomic signed minimum. -/
  | atomMin (w : BitVec 2) (d : Opd) (a : Opd) (b : Opd)
  /-- R230: 32-bit atomic signed maximum. -/
  | atomMax (w : BitVec 2) (d : Opd) (a : Opd) (b : Opd)
  /-- R230: 32-bit atomic unsigned minimum. -/
  | atomNmin (w : BitVec 2) (d : Opd) (a : Opd) (b : Opd)
  /-- R230: 32-bit atomic unsigned maximum. -/
  | atomNmax (w : BitVec 2) (d : Opd) (a : Opd) (b : Opd)
  /-- R230: 32-bit atomic AND. -/
  | atomAnd (w : BitVec 2) (d : Opd) (a : Opd) (b : Opd)
  /-- R230: 32-bit atomic OR. -/
  | atomOr (w : BitVec 2) (d : Opd) (a : Opd) (b : Opd)
  /-- R230: 32-bit atomic XOR. -/
  | atomXor (w : BitVec 2) (d : Opd) (a : Opd) (b : Opd)
  /-- R230: 32-bit atomic exchange. -/
  | atomXchg (w : BitVec 2) (d : Opd) (a : Opd) (b : Opd)
  /-- R230: 32-bit atomic compare-and-swap with a B pair. -/
  | atomCas (w : BitVec 2) (d : Opd) (a : Opd) (b : Opd)
  /-- R230: 32-bit atomic wrapping increment bounded by B. -/
  | atomInc (w : BitVec 2) (d : Opd) (a : Opd) (b : Opd)
  /-- R230: 32-bit atomic wrapping decrement bounded by B. -/
  | atomDec (w : BitVec 2) (d : Opd) (a : Opd) (b : Opd)
  /-- R230: 32-bit atomic binary32 add rounded RNE. -/
  | atomFadd (w : BitVec 2) (d : Opd) (a : Opd) (b : Opd)
  /-- R230: 32-bit atomic binary32 minimum. -/
  | atomFmin (w : BitVec 2) (d : Opd) (a : Opd) (b : Opd)
  /-- R230: 32-bit atomic binary32 maximum. -/
  | atomFmax (w : BitVec 2) (d : Opd) (a : Opd) (b : Opd)
  /-- R230: 64-bit atomic add. -/
  | atom64Add (w : BitVec 2) (d : Opd) (a : Opd) (b : Opd)
  /-- R230: 64-bit atomic subtract. -/
  | atom64Sub (w : BitVec 2) (d : Opd) (a : Opd) (b : Opd)
  /-- R230: 64-bit atomic signed minimum. -/
  | atom64Min (w : BitVec 2) (d : Opd) (a : Opd) (b : Opd)
  /-- R230: 64-bit atomic signed maximum. -/
  | atom64Max (w : BitVec 2) (d : Opd) (a : Opd) (b : Opd)
  /-- R230: 64-bit atomic unsigned minimum. -/
  | atom64Nmin (w : BitVec 2) (d : Opd) (a : Opd) (b : Opd)
  /-- R230: 64-bit atomic unsigned maximum. -/
  | atom64Nmax (w : BitVec 2) (d : Opd) (a : Opd) (b : Opd)
  /-- R230: 64-bit atomic AND. -/
  | atom64And (w : BitVec 2) (d : Opd) (a : Opd) (b : Opd)
  /-- R230: 64-bit atomic OR. -/
  | atom64Or (w : BitVec 2) (d : Opd) (a : Opd) (b : Opd)
  /-- R230: 64-bit atomic XOR. -/
  | atom64Xor (w : BitVec 2) (d : Opd) (a : Opd) (b : Opd)
  /-- R230: 64-bit atomic exchange. -/
  | atom64Xchg (w : BitVec 2) (d : Opd) (a : Opd) (b : Opd)
  /-- R242: Engine copy of COUNT bytes from SOURCE to DEST. -/
  | copy (d : Opd) (a : Opd)
  /-- R244: Engine 2-D box copy between a tensor and a packed buffer. -/
  | copyT2 (d : Opd) (a : Opd)
  /-- R244: Engine 3-D box copy between a tensor and a packed buffer. -/
  | copyT3 (d : Opd) (a : Opd)
  /-- R246: Engine gather of convolution patches into matrix rows. -/
  | copyConv (d : Opd) (a : Opd)
  /-- R247: Engine quantisation of binary32 rows into self-describing blocks. -/
  | qcopy (d : Opd) (a : Opd)
  /-- R249: Catch read of listed items, each burst run through a handler thread. -/
  | catchL (d : Opd) (a : Opd)
  /-- R249: Catch read of the rows of a 2-D tile through handler threads. -/
  | catchT2 (d : Opd) (a : Opd)
  /-- R248: Prefetch of a range into L1 or the chip-level slice. -/
  | pref (d : Opd) (a : Opd)
  /-- R263: Load B into a macro group of the matrix engine. -/
  | mload (d : Opd) (a : Opd)
  /-- R271: Accumulate STEPS matrix products into accumulator tiles. -/
  | mloop (d : Opd) (a : Opd)
  /-- R281: Matrix steps with a skip decision per row-tile of a step region. -/
  | mloops (d : Opd) (a : Opd)
  /-- R276: Convert and write accumulator blocks to memory or registers. -/
  | mdrain (d : Opd) (a : Opd)
  /-- R282: Write the outputs of computed row-tiles of a region only. -/
  | mdrains (d : Opd) (a : Opd)
  /-- R274: Set the masked accumulator blocks to +0. -/
  | mzero (d : Opd) (a : Opd)
  /-- R283: Compute and store row-tile signatures without decisions. -/
  | msig (d : Opd) (a : Opd)
  /-- R284: Read, write or release live skip bits of a region. -/
  | mskip (d : Opd) (a : Opd)
  /-- R285: Sample matrix engine state without entering the queue. -/
  | mstat (d : Opd) (a : Opd)
  /-- R154: Release and acquire fence towards every external agent. -/
  | fenceSys
  /-- R154: Release and acquire fence towards host agents and DEV accesses. -/
  | fenceHost
  /-- R234: Write back and drop cached copies of a range. -/
  | inval (a : Opd) (b : Opd)
  /-- R234: Write back dirty copies of a range, leaving them clean. -/
  | flush (a : Opd) (b : Opd)
  /-- R235: Block until every listed flag reads zero. -/
  | waitf (a : BitVec 6) (b : BitVec 6)
  /-- R198: Per-bit three-input Boolean function from an 8-bit table. -/
  | lop3 (t : BitVec 8) (d : BitVec 6) (a : BitVec 6) (b : BitVec 6)
  /-- R197: Funnel shift left of a vector pair by an immediate. -/
  | fshiL (d : Opd) (a : Opd) (k : BitVec 5)
  /-- R197: Funnel shift right of a vector pair by an immediate. -/
  | fshiR (d : Opd) (a : Opd) (k : BitVec 5)
  /-- R167: Unconditional relative branch to a clause header. -/
  | br (o : BitVec 24)
  /-- R167: Branch when the effective mask is zero. -/
  | brExecz (o : BitVec 24)
  /-- R167: Branch when the effective mask is nonzero. -/
  | brExecnz (o : BitVec 24)
  /-- R167: Branch when SCC is 1. -/
  | brScc1 (o : BitVec 24)
  /-- R167: Branch when SCC is 0. -/
  | brScc0 (o : BitVec 24)
  /-- R168: Relative call linking the next clause address into s[22:23]. -/
  | callW (o : BitVec 24)
  /-- R169: Jump to the address in s[22:23]. -/
  | retW
  /-- R169: Jump to the address in a scalar pair. -/
  | jmpi (a : Opd)
  /-- R22: Arrive at a join level and wait for the expected slices to re-gang. -/
  | join (l : BitVec 7)
  /-- R173: Move the register window base within the allocation. -/
  | wnd (a : Opd) (b : BitVec 6)
  /-- R174: End the slice or handler thread once its flags and posted atomics drain. -/
  | endW
  /-- R175: Service call that batches lanes by service word and awaits replies. -/
  | svc (w : BitVec 1) (d : Opd) (a : Opd) (b : Opd)
  /-- R176: Raise the software trap with a code. -/
  | trap (n : BitVec 7)
  /-- R177: No effect. -/
  | nop
  /-- R178: Read a special index into D. -/
  | movs (d : Opd) (i : BitVec 7)
  /-- R179: Write a special index from A. -/
  | movt (a : Opd) (i : BitVec 7)
  /-- R183: Return from a user-interrupt handler. -/
  | uiret
  /-- R176: Raise the breakpoint trap with a code. -/
  | brk (n : BitVec 7)
  /-- R177: Give up the fetch entry and go to the back of the priority class. -/
  | yield
  /-- R293: Team gather then one request to the cox for a unit of work. -/
  | take (d : Opd)
  /-- R298: Create a continuation record with a join count. -/
  | spawn (d : Opd) (a : Opd)
  /-- R299: Decrement the join count of a continuation record. -/
  | joinc (a : Opd)
  /-- R304: Arrive at a team barrier and wait for its generation. -/
  | barSync (b : BitVec 7)
  /-- R304: Counted arrival at a team barrier without waiting. -/
  | barArr (d : Opd) (a : Opd) (b : BitVec 7)
  /-- R306: Counted arrival at a memory barrier word in a co-resident launch. -/
  | barArrG (d : Opd) (a : Opd) (b : Opd)
  /-- R304: Wait until a named barrier generation has completed. -/
  | barWait (a : Opd) (b : BitVec 7)
  /-- R306: Wait on the generation of a memory barrier word. -/
  | barWaitG (a : Opd) (b : Opd)
  /-- R308: Return the top register blocks to the team's loan pool. -/
  | give (n : BitVec 7)
  /-- R309: Request register blocks and block until served. -/
  | claim (n : BitVec 7)
  /-- R312: Drain flags then move the slice to another role's entry. -/
  | roleW (a : Opd)
  /-- R300: Cancel a record, launch, graph, phase or job of the issuing job. -/
  | cancel (a : Opd) (l : BitVec 7)
  /-- R301: Read a 64-bit completion counter of a work level. -/
  | ctr (d : Opd) (l : BitVec 7)
  /-- R344: Replay or discard lane fault records and return to user mode. -/
  | fret (a : Opd) (b : Opd)
  /-- R343: Map one page with a wiped frame from the partition pool. -/
  | pmap (d : Opd) (a : Opd) (b : Opd)
  /-- R363: Invalidate translations of the ASID over a range. -/
  | tlbi (d : Opd) (a : Opd) (b : Opd)
  /-- R364: Retire an ASID's translations by advancing its epoch. -/
  | asidr (d : Opd) (a : Opd)
  /-- R409: Save a skip slot image to memory. -/
  | sksave (d : Opd) (a : Opd) (b : Opd)
  /-- R409: Load a skip slot image from memory. -/
  | skload (d : Opd) (a : Opd) (b : Opd)
  /-- R444: Read the team's energy counter into a scalar pair. -/
  | ecnt (d : Opd)
  /-- R345: Send a user interrupt to a slice or team of the launch. -/
  | uintr (a : Opd) (b : Opd)
  /-- R342: Read a supervisor state index. -/
  | pstat (d : Opd) (a : Opd) (i : BitVec 7)
  /-- R342: Swap a value into a supervisor state index. -/
  | pstatW (d : Opd) (a : Opd) (i : BitVec 7)
  /-- R346: Log a supervisor halt and raise a team hold. -/
  | halt (a : Opd)
  /-- R18: A waiting sub-crew receives a free fetch entry in queue order. -/
  | fetchEntryGrant (core : Nat)
  /-- R19: A sub-crew that held an entry 1,024 cc while another waits gives it up. -/
  | fetchEntryRotation (team first : Nat)
  /-- R50: A slice that waited 4,096 cc moves up one priority class. -/
  | priorityAgeing (team slice : Nat)
  /-- R12: A slice's end takes effect once its flags and posted atomics drain. -/
  | sliceEnd (team slice : Nat)
  /-- R32: The home cox serves a team's request from record, range, orphan, steal or none. -/
  | takeRequest (team : Nat)
  /-- R306: A waiting slice rereads a changed barrier word and passes if its generation completed. -/
  | barrierWordRecheck (team slice : Nat)
  /-- R220: A long-latency load's data is written and its flag decremented. -/
  | loadComplete (op : Nat)
  /-- R222: A posted store or atomic is performed at its point of coherence. -/
  | postedWritePerformed (op : Nat)
  /-- R361: A page walk ends with a translation or a fault for its sharing lanes. -/
  | pageWalkComplete (cluster asid page : Nat)
  /-- R340: The slice vectors to the supervisor handler at a convergence point or trap. -/
  | faultVector (team slice : Nat)
  /-- R181: A pending user interrupt diverts the slice to its handler. -/
  | userInterruptDelivery (team slice : Nat)
  /-- R238: A copy-family command finishes, writes status and decrements its flag. -/
  | engineCommandComplete (team cmd : Nat)
  /-- R250: A whole burst arrives and starts a handler thread in a free catch slot. -/
  | catchBurstArrival (team cmd burst : Nat)
  /-- R268: The sequencer begins the next queued matrix command. -/
  | matrixQueueDispatch (core : Nat)
  /-- R351: A batch record enters the die's service ring once a slot frees. -/
  | serviceBatchEnqueue (batch : Nat)
  /-- R351: A server writes STATUS and the device writes replies and decrements flags. -/
  | serviceStatus (batch : Nat) (status : BitVec 32) (replies : List (BitVec 64))
  /-- R333: A team is stopped and saved as held with fault-log entries. -/
  | teamHold (team : Nat)
  /-- R423: A queue doorbell write tells the front end of new packets. -/
  | tail (part queue : Nat) (value : BitVec 32)
  /-- R423: A doorbell write sends a user interrupt to a named team. -/
  | userDoorbell (part : Nat) (value : BitVec 64)
  /-- R423: A write of 0 clears the lost-entry count; nonzero writes are ignored. -/
  | loglost (part : Nat) (value : BitVec 32)
  /-- R423: A host write to a partition page field without behaviour of its own. -/
  | partitionPageWrite (part offset : Nat) (value : BitVec 64)
  /-- R380: A NOP packet completes at once. -/
  | nopPacket (part queue : Nat)
  /-- R380: A LAUNCH packet enters the interval table and its teams become placeable. -/
  | launch (part queue : Nat)
  /-- R448: A CANCEL packet applies cancellation to the named unit. -/
  | cancelPacket (part queue : Nat)
  /-- R380: A SIGNAL packet stores VALUE with release meaning after earlier packets. -/
  | signal (part queue : Nat)
  /-- R380: A PREEMPT packet pre-empts every resident team of the unit. -/
  | preempt (part queue : Nat)
  /-- R408: A RESUME packet restores saved or held teams or a committed checkpoint. -/
  | resume (part queue : Nat)
  /-- R385: A team starts on a core once dependencies and resources allow. -/
  | teamStart (launch core : Nat)
  /-- R389: Every slice and engine of a team stops at its restart point. -/
  | preemptionHalt (team granules : Nat)
  /-- R391: Draining ends and the context record is complete. -/
  | contextStop (team : Nat)
  /-- R398: A complete record is restored onto a free core. -/
  | contextRestore (record core : Nat)
  /-- R386: A die with an uncorrectable error or lapsed reports is fenced and its teams lost. -/
  | dieFence (die : Nat)
  /-- R386: Each distributor reports to the front end every 10 µs. -/
  | distributorReport (die : Nat)
  /-- R388: Firmware moves a hot team to a cooler core. -/
  | thermalMigration (team : Nat)
  /-- R401: The front end closes an interval at the ceiling and sends ARM. -/
  | checkpointIntervalClose (part job : Nat)
  /-- R402: A core takes a quiet point, writes snapshots and raises its ceiling. -/
  | arm (part job core : Nat)
  /-- R401: Every 100 µs the job's ceilings rise by 2^20. -/
  | ceilingRaise (part job : Nat)
  /-- R404: The interval stream ends and its commit record is performed. -/
  | checkpointCommit (part job : Nat)
  /-- R406: A save-cost record is written every 10 µs per tracked job. -/
  | saveCostRecord (part job : Nat)
  /-- R415: Each 1 µs tick charges static energy to resident and draining teams. -/
  | staticEnergyTick
  /-- R367: A host ATS reply supplies a translation or starts PRI. -/
  | atsTranslationCompletion (die asid page : Nat) (granted : Bool) (hpa logSize : Nat) (r w : Bool)
  /-- R369: A PRI Page Response repeats the translation or faults the lanes. -/
  | pageResponse (die asid page : Nat) (success : Bool)
  /-- R369: A page request unanswered for 50 ms faults its lanes. -/
  | priTimeout (die asid page : Nat)
  /-- R370: A host invalidate removes ATS entries and drains their accesses. -/
  | atsInvalidateRequest (pasid va len : Nat)
  /-- R370: The completion is sent once accesses through removed entries are performed. -/
  | invalidateCompletion (inval : Nat)
  /-- R376: A peer request is checked at ingress and performed or refused. -/
  | ridgeRequest (source exportIdx key offset size : Nat) (kind : BitVec 2) (fn : BitVec 4) (data : List (BitVec 8))
  /-- R376: An error completion faults the requesting lane or fails the command. -/
  | ridgeErrorCompletion (op lane : Nat)
  /-- R152: An external agent's access to package memory enters S at its home. -/
  | ingressAccess (pa : Nat) (write : Bool) (size : Nat) (data : List (BitVec 8))
  /-- R433: Each 1 µs window sets a tier port's credit limit from DevLoad. -/
  | tierCreditUpdate (port : Nat) (devload : BitVec 2)
  /-- R442: Firmware pauses an island clock to change clock, voltage or calibration. -/
  | islandPause (island : Nat)
  /-- R445: The scrubber corrects soft errors and marks uncorrectable data poisoned. -/
  | patrolScrub (pa : Nat) (uncorrectable : Bool)
  /-- R429: A function-level reset resets the partition. -/
  | flr (part : Nat)
  /-- R446: The package runs its bring-up sequence to READY. -/
  | powerGood (bootOk : Bool) (failedDies : BitVec 4)
  /-- R426: Give wiped clusters, pools and ASIDs to an unassigned partition. -/
  | partAssign
  /-- R426: Write a firmware-owned field of a partition page. -/
  | partSet
  /-- R429: Stop, discard and wipe a partition, keeping its resources. -/
  | partReset
  /-- R426: Reset a partition and return its resources unowned. -/
  | partFree
  /-- R426: Set a partition's context pool. -/
  | ctxpool
  /-- R374: Write an egress slot. -/
  | egress
  /-- R375: Write an import-table entry. -/
  | importE
  /-- R437: Request a Ridge ingress quiesce. -/
  | quiesce
  /-- R437: Firmware acknowledges once earlier requests at the port are performed. -/
  | quiesceAck (port : Nat)
  /-- R431: Place a memory-tier extent at a window. -/
  | extentAdd
  /-- R432: Revoke an extent; reads poison and writes drop from then on. -/
  | extentRevoke
  /-- R432: The extent is released when drained or after 50 ms and a record written. -/
  | extentRelease (extent : Nat)
  /-- R439: Copy a signed firmware image into the staging area. -/
  | fwStage
  /-- R439: Check and install a staged image live, core by core. -/
  | fwUpdate
  /-- R430: Change the life-cycle state on an authenticated command and wipe. -/
  | lifecycle
  /-- R441: Replace a fenced core or cluster with a wiped spare. -/
  | spare
  /-- R407: Set a job's checkpoint region and status area. -/
  | ckptRegion
  /-- R407: Take a job's full base image as interval 0. -/
  | ckptBase
  /-- R71: A word with a reserved OP, FN, CC or W value reaches issue and raises the illegal-instruction trap. -/
  | illegalInstruction
  /-- R271: A running mload or MTX command finishes a step or the whole command, writes its status to D and decrements the issuing slices' flags. -/
  | matrixCommandComplete (core : Nat)
  /-- R403: The streamer writes a dirty item or captured pre-image of an interval to the tier and frees capture-buffer space. -/
  | streamerWrite (part job : Nat)
  /-- R38: A core is removed from an elastic launch, and its team's next take is answered none, released. -/
  | coreRelease (launch team : Nat)
  /-- R437: A Ridge flit that fails its CRC is retried on the link and never reaches the import check. -/
  | ridgeFlitRetry (port : Nat)
  /-- R431: A tier device's directory back-invalidates a shared-extent sector held in the package's caches. -/
  | backInvalidation (pa : Nat)
  /-- R426: A write of GO = 1 in the management page starts the named call, giving NOCALL for an unknown CODE and being ignored while a call runs. -/
  | go (offset : Nat) (value : BitVec 64)
  deriving DecidableEq, Repr

end Sys2Proof
end

