-- ==== Sys2Proof/WellFormed.lean ====
section
/-! DEFINITION. Which operand codes each instruction admits (R53, R74, R75 and the tables of each class). A word
whose fields fail these checks is an illegal encoding and takes the illegal-instruction trap (R76, item 1). -/

namespace Sys2Proof

/-- The class *vector destination* of R74: `v0` to `v95` and `zero`. -/
def Opd.vdst : Opd → Bool
  | .v _ | .zero => true
  | .s _ | .exec | .lane | .slice | .bc _ | .role => false

/-- A scalar, `exec` or `zero` destination (R74, R158). -/
def Opd.sdst : Opd → Bool
  | .s _ | .zero | .exec => true
  | .v _ | .lane | .slice | .bc _ | .role => false

/-- A scalar or `zero` destination. -/
def Opd.szero : Opd → Bool
  | .s _ | .zero => true
  | .v _ | .exec | .lane | .slice | .bc _ | .role => false

/-- The class *scalar-readable* of R74. -/
def Opd.sread : Opd → Bool
  | .s _ | .zero | .exec | .slice | .bc _ | .role => true
  | .v _ | .lane => false

/-- An aligned group of `k` vector registers (R53). -/
def Opd.vGroup (k : Nat) : Opd → Bool
  | .v n => n.val % k == 0 && decide (n.val + k ≤ 96)
  | .s _ | .zero | .exec | .lane | .slice | .bc _ | .role => false

/-- An aligned group of `k` scalars (R53). -/
def Opd.sGroup (k : Nat) : Opd → Bool
  | .s n => n.val % k == 0 && decide (n.val + k ≤ 24)
  | .v _ | .zero | .exec | .lane | .slice | .bc _ | .role => false

/-- An aligned pair, scalar or vector: a memory base (R223, R225) or a pair of data. -/
def Opd.addrPair (o : Opd) : Bool := o.sGroup 2 || o.vGroup 2

/-- A vector destination of width `k`; `zero` only when `k` is 1 (R223). -/
def Opd.vdstN (k : Nat) (o : Opd) : Bool := o.vGroup k || (k == 1 && o == .zero)

/-- Store data of width `k`: a vector group, a scalar group, or `zero` when `k` is 1 (R223). -/
def Opd.dataN (k : Nat) (o : Opd) : Bool := o.vGroup k || o.sGroup k || (k == 1 && o == .zero)

/-- Whether every operand of the instruction stands in its classes. An event has no encoding and is always
well formed. -/
def Instr.wf : Instr → Bool
  | .iadd d _ _ | .isub d _ _ | .imul d _ _ | .imulhi d _ _ | .nmulhi d _ _ | .imin d _ _ | .imax d _ _
  | .nmin d _ _ | .nmax d _ _ | .andV d _ _ | .orV d _ _ | .xorV d _ _ | .shlV d _ _ | .shrV d _ _
  | .sarV d _ _ | .isad d _ _ | .popc d _ | .clz d _ | .ctz d _ | .brev d _ | .bfe d _ _ | .bfi d _ _
  | .fshl d _ _ | .fshr d _ _ | .rotl d _ _ | .iabs d _ | .ineg d _ | .imad d _ _ | .faddF32 d _ _
  | .fsubF32 d _ _ | .fmulF32 d _ _ | .fmaF32 d _ _ | .fmsF32 d _ _ | .fnmaF32 d _ _ | .fminF32 d _ _
  | .fmaxF32 d _ _ | .fabsF32 d _ | .fnegF32 d _ | .fcpsF32 d _ _ | .ffloorF32 d _ | .fceilF32 d _
  | .ftruncF32 d _ | .frintF32 d _ | .fclassF32 d _ | .haddBf16 d _ _ | .hsubBf16 d _ _ | .hmulBf16 d _ _
  | .hfmaBf16 d _ _ | .hminBf16 d _ _ | .hmaxBf16 d _ _ | .hdot2Bf16 d _ _ | .haddF16 d _ _ | .hsubF16 d _ _
  | .hmulF16 d _ _ | .hfmaF16 d _ _ | .hminF16 d _ _ | .hmaxF16 d _ _ | .hdot2F16 d _ _ | .cvtI32F32 d _
  | .cvtN32F32 d _ | .cvtF32I32 d _ | .cvtF32N32 d _ | .cvtBf16F32Lo d _ | .cvtBf16F32Hi d _
  | .cvtF32Bf16Lo d _ | .cvtF32Bf16Hi d _ | .cvtF16F32Lo d _ | .cvtF16F32Hi d _ | .cvtF32F16Lo d _
  | .cvtF32F16Hi d _ | .cvtL6F32 d _ _ | .cvtF32L6 d _ _ | .rcp d _ | .rsq d _ | .sqrt d _ | .exp2 d _
  | .log2 d _ | .sinpi d _ | .cospi d _ | .tanh d _ | .shfl d _ _ | .shfx d _ _ | .shfu d _ _ | .shfd d _ _
  | .bcast d _ _ | .redi d _ | .redf d _ | .redmx d _ _ | .scani d _ _ | .sshf d _ _ | .sshx d _ _
  | .sbc d _ _ | .vaddi d _ _ => d.vdst
  | .cvtQL6 d _ _ => d.vGroup 2
  | .feq d _ _ | .fne d _ _ | .flt d _ _ | .fle d _ _ | .fgt d _ _ | .fge d _ _ | .ford d _ _ | .funo d _ _
  | .ieq d _ _ | .ine d _ _ | .ilt d _ _ | .ile d _ _ | .nlt d _ _ | .nle d _ _ | .fcls d _ _ | .ballot d _
  | .vany d _ | .vall d _ | .movs d _ => d.sdst
  | .sadd d a b | .ssub d a b | .smul d a b | .sand d a b | .sor d a b | .sxor d a b | .sshl d a b
  | .sshr d a b | .ssar d a b | .smin d a b | .smax d a b | .snmin d a b | .snmax d a b | .scmpeq d a b
  | .scmplt d a b | .scmpnlt d a b => d.sdst && a.sread && b.sread
  | .saddi d a _ => d.sdst && a.sread
  | .movi d _ | .movhi d _ => d.vdst || d.sdst
  | .ld w d a _ => d.vdstN (2 ^ w.toNat) && a.addrPair
  | .st w d a _ => d.dataN (2 ^ w.toNat) && a.addrPair
  | .ldS8 d a _ | .ldZ8 d a _ | .ldS16 d a _ | .ldZ16 d a _ | .ald d a _ | .aldUnp d a _ | .aldQnt d a _
  | .aldSpec d a _ => d.vdst && a.addrPair
  | .st8 _ a _ | .st16 _ a _ | .ast _ a _ | .astUnp _ a _ => a.addrPair
  | .ldl w d _ _ => d.vdstN (2 ^ w.toNat)
  | .stl w d _ _ => d.dataN (2 ^ w.toNat)
  | .ldi w d a _ => d.vdstN (2 ^ w.toNat) && a.sGroup 2
  | .atomAdd w d a _ | .atomSub w d a _ | .atomMin w d a _ | .atomMax w d a _ | .atomNmin w d a _
  | .atomNmax w d a _ | .atomAnd w d a _ | .atomOr w d a _ | .atomXor w d a _ | .atomFadd w d a _
  | .atomFmin w d a _ | .atomFmax w d a _ => (if w = 1 then d == .zero else d.vdst) && a.addrPair
  | .atomXchg w d a _ | .atomInc w d a _ | .atomDec w d a _ => w != 1 && d.vdst && a.addrPair
  | .atomCas w d a b => w != 1 && d.vdst && a.addrPair && b.addrPair
  | .atom64Add w d a b | .atom64Sub w d a b | .atom64Min w d a b | .atom64Max w d a b | .atom64Nmin w d a b
  | .atom64Nmax w d a b | .atom64And w d a b | .atom64Or w d a b | .atom64Xor w d a b => (d == .zero || (w != 1 && d.vGroup 2)) && a.addrPair && b.addrPair
  | .atom64Xchg w d a b => w != 1 && (d == .zero || d.vGroup 2) && a.addrPair && b.addrPair
  | .copy d a | .copyT2 d a | .copyT3 d a | .copyConv d a | .qcopy d a | .catchL d a | .catchT2 d a
  | .pref d a | .mload d a | .mloop d a | .mloops d a | .mdrain d a | .mdrains d a | .msig d a | .mskip d a => d.szero && a.sGroup 8
  | .mzero d a | .mstat d a | .barArr d a _ | .asidr d a | .pstat d a _ | .pstatW d a _ => d.szero && a.sread
  | .inval a b | .flush a b | .barWaitG a b => a.sGroup 2 && b.sread
  | .fshiL d a _ | .fshiR d a _ => d.vdst && a.vGroup 2
  | .jmpi a => a.sGroup 2
  | .wnd a _ | .movt a _ | .joinc a | .barWait a _ | .roleW a | .halt a => a.sread
  | .svc w d a b => (if w = 1 then d == .zero || d.vGroup 2 else d.vdst) && a.sread && (w == 0 || b.addrPair)
  | .take d => d.sGroup 8
  | .spawn d a => d.szero && a.sGroup 4
  | .barArrG d a b | .pmap d a b | .tlbi d a b | .sksave d a b | .skload d a b => d.szero && a.sGroup 2 && b.sread
  | .give n | .claim n => decide (1 <= n.toNat) && decide (n.toNat <= 63)
  | .cancel a l => a.sread && decide (l.toNat <= 4)
  | .ctr d l => d.sGroup 2 && decide (l.toNat <= 4)
  | .fret a b | .uintr a b => a.sread && b.sread
  | .ecnt d => d.sGroup 2
  | .clause _ _ _ _ _ | .fenceSys | .fenceHost | .waitf _ _ | .lop3 _ _ _ _ | .br _ | .brExecz _
  | .brExecnz _ | .brScc1 _ | .brScc0 _ | .callW _ | .retW | .join _ | .endW | .trap _ | .nop | .uiret
  | .brk _ | .yield | .barSync _ | .fetchEntryGrant _ | .fetchEntryRotation _ _ | .priorityAgeing _ _
  | .sliceEnd _ _ | .takeRequest _ | .barrierWordRecheck _ _ | .loadComplete _ | .postedWritePerformed _
  | .pageWalkComplete _ _ _ | .faultVector _ _ | .userInterruptDelivery _ _ | .engineCommandComplete _ _
  | .catchBurstArrival _ _ _ | .matrixQueueDispatch _ | .serviceBatchEnqueue _ | .serviceStatus _ _ _
  | .teamHold _ | .tail _ _ _ | .userDoorbell _ _ | .loglost _ _ | .partitionPageWrite _ _ _
  | .nopPacket _ _ | .launch _ _ | .cancelPacket _ _ | .signal _ _ | .preempt _ _ | .resume _ _
  | .teamStart _ _ | .preemptionHalt _ _ | .contextStop _ | .contextRestore _ _ | .dieFence _
  | .distributorReport _ | .thermalMigration _ | .checkpointIntervalClose _ _ | .arm _ _ _
  | .ceilingRaise _ _ | .checkpointCommit _ _ | .saveCostRecord _ _ | .staticEnergyTick
  | .atsTranslationCompletion _ _ _ _ _ _ _ _ | .pageResponse _ _ _ _ | .priTimeout _ _ _
  | .atsInvalidateRequest _ _ _ | .invalidateCompletion _ | .ridgeRequest _ _ _ _ _ _ _ _
  | .ridgeErrorCompletion _ _ | .ingressAccess _ _ _ _ | .tierCreditUpdate _ _ | .islandPause _
  | .patrolScrub _ _ | .flr _ | .powerGood _ _ | .partAssign | .partSet | .partReset | .partFree | .ctxpool
  | .egress | .importE | .quiesce | .quiesceAck _ | .extentAdd | .extentRevoke | .extentRelease _ | .fwStage
  | .fwUpdate | .lifecycle | .spare | .ckptRegion | .ckptBase | .illegalInstruction
  | .matrixCommandComplete _ | .streamerWrite _ _ | .coreRelease _ _ | .ridgeFlitRetry _
  | .backInvalidation _ | .go _ _ => true

/-- The well-formed instructions. -/
abbrev Instr.WellFormed (i : Instr) : Prop := i.wf = true

end Sys2Proof
end

