-- ==== Sys2Proof/Decode.lean ====
section
/-! DEFINITION. The decoder and the encoder of the instruction words, both written from the formats of R58 and
the opcode map of R71 to R73. The decoder is total on words and on byte lists; it rejects by name (R76, item 1). -/

namespace Sys2Proof

/-- Why a word is not an instruction: each is the illegal-instruction trap of R71, R73, R75 or R76. -/
inductive Reject where
  /-- a reserved OP value (R71) -/
  | reservedOp
  /-- a reserved FN value (R72) -/
  | reservedFn
  /-- a W value that the class does not give (R75) -/
  | reservedW
  /-- a reserved CC value (R73) -/
  | reservedCc
  /-- a nonzero reserved bit or unused field (R61) -/
  | reservedBits
  /-- fewer than four bytes -/
  | short
  deriving DecidableEq, Repr

/-- The operand that a 7-bit code names (R51). -/
def Opd.ofCode (c : BitVec 7) : Opd :=
  if h : c.toNat < 96 then .v ⟨c.toNat, h⟩
  else if h : c.toNat - 96 < 24 then .s ⟨c.toNat - 96, h⟩
  else match c.toNat with
    | 120 => .zero
    | 121 => .exec
    | 122 => .lane
    | 123 => .slice
    | 124 => .bc 0
    | 125 => .bc 1
    | 126 => .bc 2
    | _ => .role

/-- The 7-bit code of an operand (R51). -/
def Opd.code : Opd → BitVec 7
  | .v n => BitVec.ofNat 7 n.val
  | .s n => BitVec.ofNat 7 (96 + n.val)
  | .zero => 0x78#7
  | .exec => 0x79#7
  | .lane => 0x7A#7
  | .slice => 0x7B#7
  | .bc n => BitVec.ofNat 7 (124 + n.val)
  | .role => 0x7F#7

/-- OP, bits 31 to 27 of every format (R58). -/
def wordOp (w : Word) : BitVec 5 := w.extractLsb' 27 5
/-- W, bits 26 and 25 of the R, I and L formats (R58). -/
def wordW (w : Word) : BitVec 2 := w.extractLsb' 25 2
/-- D, bits 24 to 18 (R58). -/
def wordD (w : Word) : BitVec 7 := w.extractLsb' 18 7
/-- A, bits 17 to 11 (R58). -/
def wordA (w : Word) : BitVec 7 := w.extractLsb' 11 7
/-- B, bits 10 to 4 of the R format (R58). -/
def wordB (w : Word) : BitVec 7 := w.extractLsb' 4 7
/-- FN, bits 3 to 0 of the R format (R58). -/
def wordFn (w : Word) : BitVec 4 := w.extractLsb' 0 4

/-- The instruction `i` when the fields it does not use are zero (R61). -/
def ifZero (unused : Bool) (i : Instr) : Except Reject Instr :=
  if unused then .ok i else .error .reservedBits

/-- The R format (R58). -/
def encR (op : BitVec 5) (w : BitVec 2) (d a b : BitVec 7) (fn : BitVec 4) : Word :=
  op ++ w ++ d ++ a ++ b ++ fn
/-- The I format (R58). -/
def encI (op : BitVec 5) (w : BitVec 2) (d a : BitVec 7) (i : BitVec 11) : Word := op ++ w ++ d ++ a ++ i
/-- The L format (R58). -/
def encL (op : BitVec 5) (w : BitVec 2) (d : BitVec 7) (i : BitVec 18) : Word := op ++ w ++ d ++ i
/-- The J format (R58). -/
def encJ (op : BitVec 5) (cc : BitVec 3) (off : BitVec 24) : Word := op ++ cc ++ off
/-- The T format (R58, R60). -/
def encT (t : BitVec 8) (d a b : BitVec 6) : Word := (0x16#5) ++ t ++ d ++ a ++ b ++ (0#1)
/-- The H format, a clause header (R58, R62). -/
def encH (wait : BitVec 12) (seta setb : BitVec 4) (len : BitVec 3) (hint : BitVec 4) : Word :=
  (0x1F#5) ++ wait ++ seta ++ setb ++ len ++ hint

/-- Class IALU, OP 0x01: the instruction that W, D, A, B and FN give (R72, R75). -/
def decodeIalu (w : BitVec 2) (d a b : BitVec 7) (fn : BitVec 4) : Except Reject Instr :=
  match fn.toNat with
  | 0 => if w = 0 then .ok (.iadd (.ofCode d) (.ofCode a) (.ofCode b)) else .error .reservedW
  | 1 => if w = 0 then .ok (.isub (.ofCode d) (.ofCode a) (.ofCode b)) else .error .reservedW
  | 2 => if w = 0 then .ok (.imul (.ofCode d) (.ofCode a) (.ofCode b)) else .error .reservedW
  | 3 => if w = 0 then .ok (.imulhi (.ofCode d) (.ofCode a) (.ofCode b)) else .error .reservedW
  | 4 => if w = 0 then .ok (.nmulhi (.ofCode d) (.ofCode a) (.ofCode b)) else .error .reservedW
  | 5 => if w = 0 then .ok (.imin (.ofCode d) (.ofCode a) (.ofCode b)) else .error .reservedW
  | 6 => if w = 0 then .ok (.imax (.ofCode d) (.ofCode a) (.ofCode b)) else .error .reservedW
  | 7 => if w = 0 then .ok (.nmin (.ofCode d) (.ofCode a) (.ofCode b)) else .error .reservedW
  | 8 => if w = 0 then .ok (.nmax (.ofCode d) (.ofCode a) (.ofCode b)) else .error .reservedW
  | 9 => if w = 0 then .ok (.andV (.ofCode d) (.ofCode a) (.ofCode b)) else .error .reservedW
  | 10 => if w = 0 then .ok (.orV (.ofCode d) (.ofCode a) (.ofCode b)) else .error .reservedW
  | 11 => if w = 0 then .ok (.xorV (.ofCode d) (.ofCode a) (.ofCode b)) else .error .reservedW
  | 12 => if w = 0 then .ok (.shlV (.ofCode d) (.ofCode a) (.ofCode b)) else .error .reservedW
  | 13 => if w = 0 then .ok (.shrV (.ofCode d) (.ofCode a) (.ofCode b)) else .error .reservedW
  | 14 => if w = 0 then .ok (.sarV (.ofCode d) (.ofCode a) (.ofCode b)) else .error .reservedW
  | _ => if w = 0 then .ok (.isad (.ofCode d) (.ofCode a) (.ofCode b)) else .error .reservedW

/-- Class IBIT, OP 0x02: the instruction that W, D, A, B and FN give (R72, R75). -/
def decodeIbit (w : BitVec 2) (d a b : BitVec 7) (fn : BitVec 4) : Except Reject Instr :=
  match fn.toNat with
  | 0 => if w = 0 then ifZero (b == 0) (.popc (.ofCode d) (.ofCode a)) else .error .reservedW
  | 1 => if w = 0 then ifZero (b == 0) (.clz (.ofCode d) (.ofCode a)) else .error .reservedW
  | 2 => if w = 0 then ifZero (b == 0) (.ctz (.ofCode d) (.ofCode a)) else .error .reservedW
  | 3 => if w = 0 then ifZero (b == 0) (.brev (.ofCode d) (.ofCode a)) else .error .reservedW
  | 4 => if w = 0 then .ok (.bfe (.ofCode d) (.ofCode a) (.ofCode b)) else .error .reservedW
  | 5 => if w = 0 then .ok (.bfi (.ofCode d) (.ofCode a) (.ofCode b)) else .error .reservedW
  | 6 => if w = 0 then .ok (.fshl (.ofCode d) (.ofCode a) (.ofCode b)) else .error .reservedW
  | 7 => if w = 0 then .ok (.fshr (.ofCode d) (.ofCode a) (.ofCode b)) else .error .reservedW
  | 8 => if w = 0 then .ok (.rotl (.ofCode d) (.ofCode a) (.ofCode b)) else .error .reservedW
  | 9 => if w = 0 then ifZero (b == 0) (.iabs (.ofCode d) (.ofCode a)) else .error .reservedW
  | 10 => if w = 0 then ifZero (b == 0) (.ineg (.ofCode d) (.ofCode a)) else .error .reservedW
  | 11 => if w = 0 then .ok (.imad (.ofCode d) (.ofCode a) (.ofCode b)) else .error .reservedW
  | _ => .error .reservedFn

/-- Class FALU, OP 0x03: the instruction that W, D, A, B and FN give (R72, R75). -/
def decodeFalu (w : BitVec 2) (d a b : BitVec 7) (fn : BitVec 4) : Except Reject Instr :=
  match fn.toNat with
  | 0 => if w = 0 then .ok (.faddF32 (.ofCode d) (.ofCode a) (.ofCode b)) else .error .reservedW
  | 1 => if w = 0 then .ok (.fsubF32 (.ofCode d) (.ofCode a) (.ofCode b)) else .error .reservedW
  | 2 => if w = 0 then .ok (.fmulF32 (.ofCode d) (.ofCode a) (.ofCode b)) else .error .reservedW
  | 3 => if w = 0 then .ok (.fmaF32 (.ofCode d) (.ofCode a) (.ofCode b)) else .error .reservedW
  | 4 => if w = 0 then .ok (.fmsF32 (.ofCode d) (.ofCode a) (.ofCode b)) else .error .reservedW
  | 5 => if w = 0 then .ok (.fnmaF32 (.ofCode d) (.ofCode a) (.ofCode b)) else .error .reservedW
  | 6 => if w = 0 then .ok (.fminF32 (.ofCode d) (.ofCode a) (.ofCode b)) else .error .reservedW
  | 7 => if w = 0 then .ok (.fmaxF32 (.ofCode d) (.ofCode a) (.ofCode b)) else .error .reservedW
  | 8 => if w = 0 then ifZero (b == 0) (.fabsF32 (.ofCode d) (.ofCode a)) else .error .reservedW
  | 9 => if w = 0 then ifZero (b == 0) (.fnegF32 (.ofCode d) (.ofCode a)) else .error .reservedW
  | 10 => if w = 0 then .ok (.fcpsF32 (.ofCode d) (.ofCode a) (.ofCode b)) else .error .reservedW
  | 11 => if w = 0 then ifZero (b == 0) (.ffloorF32 (.ofCode d) (.ofCode a)) else .error .reservedW
  | 12 => if w = 0 then ifZero (b == 0) (.fceilF32 (.ofCode d) (.ofCode a)) else .error .reservedW
  | 13 => if w = 0 then ifZero (b == 0) (.ftruncF32 (.ofCode d) (.ofCode a)) else .error .reservedW
  | 14 => if w = 0 then ifZero (b == 0) (.frintF32 (.ofCode d) (.ofCode a)) else .error .reservedW
  | _ => if w = 0 then ifZero (b == 0) (.fclassF32 (.ofCode d) (.ofCode a)) else .error .reservedW

/-- Class HALU, OP 0x04: the instruction that W, D, A, B and FN give (R72, R75). -/
def decodeHalu (w : BitVec 2) (d a b : BitVec 7) (fn : BitVec 4) : Except Reject Instr :=
  match fn.toNat with
  | 0 => if w = 0 then .ok (.haddBf16 (.ofCode d) (.ofCode a) (.ofCode b)) else .error .reservedW
  | 1 => if w = 0 then .ok (.hsubBf16 (.ofCode d) (.ofCode a) (.ofCode b)) else .error .reservedW
  | 2 => if w = 0 then .ok (.hmulBf16 (.ofCode d) (.ofCode a) (.ofCode b)) else .error .reservedW
  | 3 => if w = 0 then .ok (.hfmaBf16 (.ofCode d) (.ofCode a) (.ofCode b)) else .error .reservedW
  | 4 => if w = 0 then .ok (.hminBf16 (.ofCode d) (.ofCode a) (.ofCode b)) else .error .reservedW
  | 5 => if w = 0 then .ok (.hmaxBf16 (.ofCode d) (.ofCode a) (.ofCode b)) else .error .reservedW
  | 6 => if w = 0 then .ok (.hdot2Bf16 (.ofCode d) (.ofCode a) (.ofCode b)) else .error .reservedW
  | 8 => if w = 0 then .ok (.haddF16 (.ofCode d) (.ofCode a) (.ofCode b)) else .error .reservedW
  | 9 => if w = 0 then .ok (.hsubF16 (.ofCode d) (.ofCode a) (.ofCode b)) else .error .reservedW
  | 10 => if w = 0 then .ok (.hmulF16 (.ofCode d) (.ofCode a) (.ofCode b)) else .error .reservedW
  | 11 => if w = 0 then .ok (.hfmaF16 (.ofCode d) (.ofCode a) (.ofCode b)) else .error .reservedW
  | 12 => if w = 0 then .ok (.hminF16 (.ofCode d) (.ofCode a) (.ofCode b)) else .error .reservedW
  | 13 => if w = 0 then .ok (.hmaxF16 (.ofCode d) (.ofCode a) (.ofCode b)) else .error .reservedW
  | 14 => if w = 0 then .ok (.hdot2F16 (.ofCode d) (.ofCode a) (.ofCode b)) else .error .reservedW
  | _ => .error .reservedFn

/-- Class CVT, OP 0x05: the instruction that W, D, A, B and FN give (R72, R75). -/
def decodeCvt (w : BitVec 2) (d a b : BitVec 7) (fn : BitVec 4) : Except Reject Instr :=
  match fn.toNat with
  | 0 => if w = 0 then ifZero (b == 0) (.cvtI32F32 (.ofCode d) (.ofCode a)) else .error .reservedW
  | 1 => if w = 0 then ifZero (b == 0) (.cvtN32F32 (.ofCode d) (.ofCode a)) else .error .reservedW
  | 2 => if w = 0 then ifZero (b == 0) (.cvtF32I32 (.ofCode d) (.ofCode a)) else .error .reservedW
  | 3 => if w = 0 then ifZero (b == 0) (.cvtF32N32 (.ofCode d) (.ofCode a)) else .error .reservedW
  | 4 => if w = 0 then ifZero (b == 0) (.cvtBf16F32Lo (.ofCode d) (.ofCode a)) else .error .reservedW
  | 5 => if w = 0 then ifZero (b == 0) (.cvtBf16F32Hi (.ofCode d) (.ofCode a)) else .error .reservedW
  | 6 => if w = 0 then ifZero (b == 0) (.cvtF32Bf16Lo (.ofCode d) (.ofCode a)) else .error .reservedW
  | 7 => if w = 0 then ifZero (b == 0) (.cvtF32Bf16Hi (.ofCode d) (.ofCode a)) else .error .reservedW
  | 8 => if w = 0 then ifZero (b == 0) (.cvtF16F32Lo (.ofCode d) (.ofCode a)) else .error .reservedW
  | 9 => if w = 0 then ifZero (b == 0) (.cvtF16F32Hi (.ofCode d) (.ofCode a)) else .error .reservedW
  | 10 => if w = 0 then ifZero (b == 0) (.cvtF32F16Lo (.ofCode d) (.ofCode a)) else .error .reservedW
  | 11 => if w = 0 then ifZero (b == 0) (.cvtF32F16Hi (.ofCode d) (.ofCode a)) else .error .reservedW
  | 12 => if w = 0 then .ok (.cvtL6F32 (.ofCode d) (.ofCode a) (.ofCode b)) else .error .reservedW
  | 13 => if w = 0 then .ok (.cvtF32L6 (.ofCode d) (.ofCode a) (.ofCode b)) else .error .reservedW
  | 14 => if w = 1 then .ok (.cvtQL6 (.ofCode d) (.ofCode a) (.ofCode b)) else .error .reservedW
  | _ => .error .reservedFn

/-- Class CMP, OP 0x06: the instruction that W, D, A, B and FN give (R72, R75). -/
def decodeCmp (w : BitVec 2) (d a b : BitVec 7) (fn : BitVec 4) : Except Reject Instr :=
  match fn.toNat with
  | 0 => if w = 0 then .ok (.feq (.ofCode d) (.ofCode a) (.ofCode b)) else .error .reservedW
  | 1 => if w = 0 then .ok (.fne (.ofCode d) (.ofCode a) (.ofCode b)) else .error .reservedW
  | 2 => if w = 0 then .ok (.flt (.ofCode d) (.ofCode a) (.ofCode b)) else .error .reservedW
  | 3 => if w = 0 then .ok (.fle (.ofCode d) (.ofCode a) (.ofCode b)) else .error .reservedW
  | 4 => if w = 0 then .ok (.fgt (.ofCode d) (.ofCode a) (.ofCode b)) else .error .reservedW
  | 5 => if w = 0 then .ok (.fge (.ofCode d) (.ofCode a) (.ofCode b)) else .error .reservedW
  | 6 => if w = 0 then .ok (.ford (.ofCode d) (.ofCode a) (.ofCode b)) else .error .reservedW
  | 7 => if w = 0 then .ok (.funo (.ofCode d) (.ofCode a) (.ofCode b)) else .error .reservedW
  | 8 => if w = 0 then .ok (.ieq (.ofCode d) (.ofCode a) (.ofCode b)) else .error .reservedW
  | 9 => if w = 0 then .ok (.ine (.ofCode d) (.ofCode a) (.ofCode b)) else .error .reservedW
  | 10 => if w = 0 then .ok (.ilt (.ofCode d) (.ofCode a) (.ofCode b)) else .error .reservedW
  | 11 => if w = 0 then .ok (.ile (.ofCode d) (.ofCode a) (.ofCode b)) else .error .reservedW
  | 12 => if w = 0 then .ok (.nlt (.ofCode d) (.ofCode a) (.ofCode b)) else .error .reservedW
  | 13 => if w = 0 then .ok (.nle (.ofCode d) (.ofCode a) (.ofCode b)) else .error .reservedW
  | 14 => if w = 0 then .ok (.fcls (.ofCode d) (.ofCode a) (.ofCode b)) else .error .reservedW
  | _ => .error .reservedFn

/-- Class TRN, OP 0x07: the instruction that W, D, A, B and FN give (R72, R75). -/
def decodeTrn (w : BitVec 2) (d a b : BitVec 7) (fn : BitVec 4) : Except Reject Instr :=
  match fn.toNat with
  | 0 => if w = 0 then ifZero (b == 0) (.rcp (.ofCode d) (.ofCode a)) else .error .reservedW
  | 1 => if w = 0 then ifZero (b == 0) (.rsq (.ofCode d) (.ofCode a)) else .error .reservedW
  | 2 => if w = 0 then ifZero (b == 0) (.sqrt (.ofCode d) (.ofCode a)) else .error .reservedW
  | 3 => if w = 0 then ifZero (b == 0) (.exp2 (.ofCode d) (.ofCode a)) else .error .reservedW
  | 4 => if w = 0 then ifZero (b == 0) (.log2 (.ofCode d) (.ofCode a)) else .error .reservedW
  | 5 => if w = 0 then ifZero (b == 0) (.sinpi (.ofCode d) (.ofCode a)) else .error .reservedW
  | 6 => if w = 0 then ifZero (b == 0) (.cospi (.ofCode d) (.ofCode a)) else .error .reservedW
  | 7 => if w = 0 then ifZero (b == 0) (.tanh (.ofCode d) (.ofCode a)) else .error .reservedW
  | _ => .error .reservedFn

/-- Class XLANE, OP 0x08: the instruction that W, D, A, B and FN give (R72, R75). -/
def decodeXlane (w : BitVec 2) (d a b : BitVec 7) (fn : BitVec 4) : Except Reject Instr :=
  match fn.toNat with
  | 0 => if w = 0 then .ok (.shfl (.ofCode d) (.ofCode a) (.ofCode b)) else .error .reservedW
  | 1 => if w = 0 then .ok (.shfx (.ofCode d) (.ofCode a) (.ofCode b)) else .error .reservedW
  | 2 => if w = 0 then .ok (.shfu (.ofCode d) (.ofCode a) (.ofCode b)) else .error .reservedW
  | 3 => if w = 0 then .ok (.shfd (.ofCode d) (.ofCode a) (.ofCode b)) else .error .reservedW
  | 4 => if w = 0 then .ok (.bcast (.ofCode d) (.ofCode a) (.ofCode b)) else .error .reservedW
  | 5 => if w = 0 then ifZero (b == 0) (.ballot (.ofCode d) (.ofCode a)) else .error .reservedW
  | 6 => if w = 0 then ifZero (b == 0) (.vany (.ofCode d) (.ofCode a)) else .error .reservedW
  | 7 => if w = 0 then ifZero (b == 0) (.vall (.ofCode d) (.ofCode a)) else .error .reservedW
  | 8 => if w = 0 then ifZero (b == 0) (.redi (.ofCode d) (.ofCode a)) else .error .reservedW
  | 9 => if w = 0 then ifZero (b == 0) (.redf (.ofCode d) (.ofCode a)) else .error .reservedW
  | 10 => if w = 0 then .ok (.redmx (.ofCode d) (.ofCode a) (.ofCode b)) else .error .reservedW
  | 11 => if w = 0 then .ok (.scani (.ofCode d) (.ofCode a) (.ofCode b)) else .error .reservedW
  | 12 => if w = 0 then .ok (.sshf (.ofCode d) (.ofCode a) (.ofCode b)) else .error .reservedW
  | 13 => if w = 0 then .ok (.sshx (.ofCode d) (.ofCode a) (.ofCode b)) else .error .reservedW
  | 14 => if w = 0 then .ok (.sbc (.ofCode d) (.ofCode a) (.ofCode b)) else .error .reservedW
  | _ => .error .reservedFn

/-- Class SALU, OP 0x09: the instruction that W, D, A, B and FN give (R72, R75). -/
def decodeSalu (w : BitVec 2) (d a b : BitVec 7) (fn : BitVec 4) : Except Reject Instr :=
  match fn.toNat with
  | 0 => if w = 0 then .ok (.sadd (.ofCode d) (.ofCode a) (.ofCode b)) else .error .reservedW
  | 1 => if w = 0 then .ok (.ssub (.ofCode d) (.ofCode a) (.ofCode b)) else .error .reservedW
  | 2 => if w = 0 then .ok (.smul (.ofCode d) (.ofCode a) (.ofCode b)) else .error .reservedW
  | 3 => if w = 0 then .ok (.sand (.ofCode d) (.ofCode a) (.ofCode b)) else .error .reservedW
  | 4 => if w = 0 then .ok (.sor (.ofCode d) (.ofCode a) (.ofCode b)) else .error .reservedW
  | 5 => if w = 0 then .ok (.sxor (.ofCode d) (.ofCode a) (.ofCode b)) else .error .reservedW
  | 6 => if w = 0 then .ok (.sshl (.ofCode d) (.ofCode a) (.ofCode b)) else .error .reservedW
  | 7 => if w = 0 then .ok (.sshr (.ofCode d) (.ofCode a) (.ofCode b)) else .error .reservedW
  | 8 => if w = 0 then .ok (.ssar (.ofCode d) (.ofCode a) (.ofCode b)) else .error .reservedW
  | 9 => if w = 0 then .ok (.smin (.ofCode d) (.ofCode a) (.ofCode b)) else .error .reservedW
  | 10 => if w = 0 then .ok (.smax (.ofCode d) (.ofCode a) (.ofCode b)) else .error .reservedW
  | 11 => if w = 0 then .ok (.snmin (.ofCode d) (.ofCode a) (.ofCode b)) else .error .reservedW
  | 12 => if w = 0 then .ok (.snmax (.ofCode d) (.ofCode a) (.ofCode b)) else .error .reservedW
  | 13 => if w = 0 then .ok (.scmpeq (.ofCode d) (.ofCode a) (.ofCode b)) else .error .reservedW
  | 14 => if w = 0 then .ok (.scmplt (.ofCode d) (.ofCode a) (.ofCode b)) else .error .reservedW
  | _ => if w = 0 then .ok (.scmpnlt (.ofCode d) (.ofCode a) (.ofCode b)) else .error .reservedW

/-- Class LDX, OP 0x10: the instruction that W, D, A, B and FN give (R72, R75). -/
def decodeLdx (w : BitVec 2) (d a b : BitVec 7) (fn : BitVec 4) : Except Reject Instr :=
  match fn.toNat with
  | 0 => if w = 0 then .ok (.ldS8 (.ofCode d) (.ofCode a) (.ofCode b)) else .error .reservedW
  | 1 => if w = 0 then .ok (.ldZ8 (.ofCode d) (.ofCode a) (.ofCode b)) else .error .reservedW
  | 2 => if w = 0 then .ok (.ldS16 (.ofCode d) (.ofCode a) (.ofCode b)) else .error .reservedW
  | 3 => if w = 0 then .ok (.ldZ16 (.ofCode d) (.ofCode a) (.ofCode b)) else .error .reservedW
  | 4 => if w = 0 then .ok (.st8 (.ofCode d) (.ofCode a) (.ofCode b)) else .error .reservedW
  | 5 => if w = 0 then .ok (.st16 (.ofCode d) (.ofCode a) (.ofCode b)) else .error .reservedW
  | 6 => .ok (.ldl w (.ofCode d) (.ofCode a) (.ofCode b))
  | 7 => .ok (.stl w (.ofCode d) (.ofCode a) (.ofCode b))
  | 8 => if w = 0 then .ok (.ald (.ofCode d) (.ofCode a) (.ofCode b)) else .error .reservedW
  | 9 => if w = 0 then .ok (.aldUnp (.ofCode d) (.ofCode a) (.ofCode b)) else .error .reservedW
  | 10 => if w = 0 then .ok (.aldQnt (.ofCode d) (.ofCode a) (.ofCode b)) else .error .reservedW
  | 11 => if w = 0 then .ok (.aldSpec (.ofCode d) (.ofCode a) (.ofCode b)) else .error .reservedW
  | 12 => if w = 0 then .ok (.ast (.ofCode d) (.ofCode a) (.ofCode b)) else .error .reservedW
  | 13 => if w = 0 then .ok (.astUnp (.ofCode d) (.ofCode a) (.ofCode b)) else .error .reservedW
  | 14 => .ok (.ldi w (.ofCode d) (.ofCode a) (.ofCode b))
  | _ => .error .reservedFn

/-- Class ATOM, OP 0x11: the instruction that W, D, A, B and FN give (R72, R75). -/
def decodeAtom (w : BitVec 2) (d a b : BitVec 7) (fn : BitVec 4) : Except Reject Instr :=
  match fn.toNat with
  | 0 => .ok (.atomAdd w (.ofCode d) (.ofCode a) (.ofCode b))
  | 1 => .ok (.atomSub w (.ofCode d) (.ofCode a) (.ofCode b))
  | 2 => .ok (.atomMin w (.ofCode d) (.ofCode a) (.ofCode b))
  | 3 => .ok (.atomMax w (.ofCode d) (.ofCode a) (.ofCode b))
  | 4 => .ok (.atomNmin w (.ofCode d) (.ofCode a) (.ofCode b))
  | 5 => .ok (.atomNmax w (.ofCode d) (.ofCode a) (.ofCode b))
  | 6 => .ok (.atomAnd w (.ofCode d) (.ofCode a) (.ofCode b))
  | 7 => .ok (.atomOr w (.ofCode d) (.ofCode a) (.ofCode b))
  | 8 => .ok (.atomXor w (.ofCode d) (.ofCode a) (.ofCode b))
  | 9 => .ok (.atomXchg w (.ofCode d) (.ofCode a) (.ofCode b))
  | 10 => .ok (.atomCas w (.ofCode d) (.ofCode a) (.ofCode b))
  | 11 => .ok (.atomInc w (.ofCode d) (.ofCode a) (.ofCode b))
  | 12 => .ok (.atomDec w (.ofCode d) (.ofCode a) (.ofCode b))
  | 13 => .ok (.atomFadd w (.ofCode d) (.ofCode a) (.ofCode b))
  | 14 => .ok (.atomFmin w (.ofCode d) (.ofCode a) (.ofCode b))
  | _ => .ok (.atomFmax w (.ofCode d) (.ofCode a) (.ofCode b))

/-- Class ATOM64, OP 0x12: the instruction that W, D, A, B and FN give (R72, R75). -/
def decodeAtom64 (w : BitVec 2) (d a b : BitVec 7) (fn : BitVec 4) : Except Reject Instr :=
  match fn.toNat with
  | 0 => .ok (.atom64Add w (.ofCode d) (.ofCode a) (.ofCode b))
  | 1 => .ok (.atom64Sub w (.ofCode d) (.ofCode a) (.ofCode b))
  | 2 => .ok (.atom64Min w (.ofCode d) (.ofCode a) (.ofCode b))
  | 3 => .ok (.atom64Max w (.ofCode d) (.ofCode a) (.ofCode b))
  | 4 => .ok (.atom64Nmin w (.ofCode d) (.ofCode a) (.ofCode b))
  | 5 => .ok (.atom64Nmax w (.ofCode d) (.ofCode a) (.ofCode b))
  | 6 => .ok (.atom64And w (.ofCode d) (.ofCode a) (.ofCode b))
  | 7 => .ok (.atom64Or w (.ofCode d) (.ofCode a) (.ofCode b))
  | 8 => .ok (.atom64Xor w (.ofCode d) (.ofCode a) (.ofCode b))
  | 9 => .ok (.atom64Xchg w (.ofCode d) (.ofCode a) (.ofCode b))
  | _ => .error .reservedFn

/-- Class ENG, OP 0x13: the instruction that W, D, A, B and FN give (R72, R75). -/
def decodeEng (w : BitVec 2) (d a b : BitVec 7) (fn : BitVec 4) : Except Reject Instr :=
  match fn.toNat with
  | 0 => if w = 3 then ifZero (b == 0) (.copy (.ofCode d) (.ofCode a)) else .error .reservedW
  | 1 => if w = 3 then ifZero (b == 0) (.copyT2 (.ofCode d) (.ofCode a)) else .error .reservedW
  | 2 => if w = 3 then ifZero (b == 0) (.copyT3 (.ofCode d) (.ofCode a)) else .error .reservedW
  | 3 => if w = 3 then ifZero (b == 0) (.copyConv (.ofCode d) (.ofCode a)) else .error .reservedW
  | 4 => if w = 3 then ifZero (b == 0) (.qcopy (.ofCode d) (.ofCode a)) else .error .reservedW
  | 5 => if w = 3 then ifZero (b == 0) (.catchL (.ofCode d) (.ofCode a)) else .error .reservedW
  | 6 => if w = 3 then ifZero (b == 0) (.catchT2 (.ofCode d) (.ofCode a)) else .error .reservedW
  | 7 => if w = 3 then ifZero (b == 0) (.pref (.ofCode d) (.ofCode a)) else .error .reservedW
  | 8 => if w = 3 then ifZero (b == 0) (.mload (.ofCode d) (.ofCode a)) else .error .reservedW
  | _ => .error .reservedFn

/-- Class MTX, OP 0x14: the instruction that W, D, A, B and FN give (R72, R75). -/
def decodeMtx (w : BitVec 2) (d a b : BitVec 7) (fn : BitVec 4) : Except Reject Instr :=
  match fn.toNat with
  | 0 => if w = 3 then ifZero (b == 0) (.mloop (.ofCode d) (.ofCode a)) else .error .reservedW
  | 1 => if w = 3 then ifZero (b == 0) (.mloops (.ofCode d) (.ofCode a)) else .error .reservedW
  | 2 => if w = 3 then ifZero (b == 0) (.mdrain (.ofCode d) (.ofCode a)) else .error .reservedW
  | 3 => if w = 3 then ifZero (b == 0) (.mdrains (.ofCode d) (.ofCode a)) else .error .reservedW
  | 4 => if w = 0 then ifZero (b == 0) (.mzero (.ofCode d) (.ofCode a)) else .error .reservedW
  | 5 => if w = 3 then ifZero (b == 0) (.msig (.ofCode d) (.ofCode a)) else .error .reservedW
  | 6 => if w = 3 then ifZero (b == 0) (.mskip (.ofCode d) (.ofCode a)) else .error .reservedW
  | 7 => if w = 0 then ifZero (b == 0) (.mstat (.ofCode d) (.ofCode a)) else .error .reservedW
  | _ => .error .reservedFn

/-- Class MCTL, OP 0x15: the instruction that W, D, A, B and FN give (R72, R75). -/
def decodeMctl (w : BitVec 2) (d a b : BitVec 7) (fn : BitVec 4) : Except Reject Instr :=
  match fn.toNat with
  | 0 => if w = 0 then ifZero (d == 0 && a == 0 && b == 0) (.fenceSys) else .error .reservedW
  | 1 => if w = 0 then ifZero (d == 0 && a == 0 && b == 0) (.fenceHost) else .error .reservedW
  | 2 => if w = 0 then ifZero (d == 0) (.inval (.ofCode a) (.ofCode b)) else .error .reservedW
  | 3 => if w = 0 then ifZero (d == 0) (.flush (.ofCode a) (.ofCode b)) else .error .reservedW
  | 4 => if w = 0 then ifZero (d == 0 && decide (a.toNat < 64) && decide (b.toNat < 64)) (.waitf (a.setWidth 6) (b.setWidth 6)) else .error .reservedW
  | _ => .error .reservedFn

/-- Class CTL, OP 0x1A: the instruction that W, D, A, B and FN give (R72, R75). -/
def decodeCtl (w : BitVec 2) (d a b : BitVec 7) (fn : BitVec 4) : Except Reject Instr :=
  match fn.toNat with
  | 0 => if w = 0 then ifZero (d == 0 && a == 0 && b == 0) (.retW) else .error .reservedW
  | 1 => if w = 1 then ifZero (d == 0 && b == 0) (.jmpi (.ofCode a)) else .error .reservedW
  | 2 => if w = 0 then ifZero (d == 0 && a == 0) (.join b) else .error .reservedW
  | 3 => if w = 0 then ifZero (d == 0 && decide (b.toNat < 64)) (.wnd (.ofCode a) (b.setWidth 6)) else .error .reservedW
  | 4 => if w = 0 then ifZero (d == 0 && a == 0 && b == 0) (.endW) else .error .reservedW
  | 5 => if w.toNat < 2 then .ok (.svc (w.setWidth 1) (.ofCode d) (.ofCode a) (.ofCode b)) else .error .reservedW
  | 6 => if w = 0 then ifZero (d == 0 && a == 0) (.trap b) else .error .reservedW
  | 7 => if w = 0 then ifZero (d == 0 && a == 0 && b == 0) (.nop) else .error .reservedW
  | 8 => if w = 0 then ifZero (a == 0) (.movs (.ofCode d) b) else .error .reservedW
  | 9 => if w = 0 then ifZero (d == 0) (.movt (.ofCode a) b) else .error .reservedW
  | 10 => if w = 0 then ifZero (d == 0 && a == 0 && b == 0) (.uiret) else .error .reservedW
  | 11 => if w = 0 then ifZero (d == 0 && a == 0) (.brk b) else .error .reservedW
  | 12 => if w = 0 then ifZero (d == 0 && a == 0 && b == 0) (.yield) else .error .reservedW
  | _ => .error .reservedFn

/-- Class TASK, OP 0x1B: the instruction that W, D, A, B and FN give (R72, R75). -/
def decodeTask (w : BitVec 2) (d a b : BitVec 7) (fn : BitVec 4) : Except Reject Instr :=
  match fn.toNat with
  | 0 => if w = 3 then ifZero (a == 0 && b == 0) (.take (.ofCode d)) else .error .reservedW
  | 1 => if w = 2 then ifZero (b == 0) (.spawn (.ofCode d) (.ofCode a)) else .error .reservedW
  | 2 => if w = 0 then ifZero (d == 0 && b == 0) (.joinc (.ofCode a)) else .error .reservedW
  | 3 => if w = 0 then ifZero (d == 0 && a == 0) (.barSync b) else .error .reservedW
  | 4 => if w = 0 then .ok (.barArr (.ofCode d) (.ofCode a) b) else if w = 1 then .ok (.barArrG (.ofCode d) (.ofCode a) (.ofCode b)) else .error .reservedW
  | 5 => if w = 0 then ifZero (d == 0) (.barWait (.ofCode a) b) else if w = 1 then ifZero (d == 0) (.barWaitG (.ofCode a) (.ofCode b)) else .error .reservedW
  | 6 => if w = 0 then ifZero (d == 0 && a == 0) (.give b) else .error .reservedW
  | 7 => if w = 0 then ifZero (d == 0 && a == 0) (.claim b) else .error .reservedW
  | 8 => if w = 0 then ifZero (d == 0 && b == 0) (.roleW (.ofCode a)) else .error .reservedW
  | 9 => if w = 0 then ifZero (d == 0) (.cancel (.ofCode a) b) else .error .reservedW
  | 10 => if w = 1 then ifZero (a == 0) (.ctr (.ofCode d) b) else .error .reservedW
  | _ => .error .reservedFn

/-- Class SYS, OP 0x1C: the instruction that W, D, A, B and FN give (R72, R75). -/
def decodeSys (w : BitVec 2) (d a b : BitVec 7) (fn : BitVec 4) : Except Reject Instr :=
  match fn.toNat with
  | 0 => if w = 0 then ifZero (d == 0) (.fret (.ofCode a) (.ofCode b)) else .error .reservedW
  | 1 => if w = 1 then .ok (.pmap (.ofCode d) (.ofCode a) (.ofCode b)) else .error .reservedW
  | 2 => if w = 1 then .ok (.tlbi (.ofCode d) (.ofCode a) (.ofCode b)) else .error .reservedW
  | 3 => if w = 0 then ifZero (b == 0) (.asidr (.ofCode d) (.ofCode a)) else .error .reservedW
  | 4 => if w = 1 then .ok (.sksave (.ofCode d) (.ofCode a) (.ofCode b)) else .error .reservedW
  | 5 => if w = 1 then .ok (.skload (.ofCode d) (.ofCode a) (.ofCode b)) else .error .reservedW
  | 6 => if w = 1 then ifZero (a == 0 && b == 0) (.ecnt (.ofCode d)) else .error .reservedW
  | 7 => if w = 0 then ifZero (d == 0) (.uintr (.ofCode a) (.ofCode b)) else .error .reservedW
  | 8 => if w = 0 then .ok (.pstat (.ofCode d) (.ofCode a) b) else if w = 1 then .ok (.pstatW (.ofCode d) (.ofCode a) b) else .error .reservedW
  | 9 => if w = 0 then ifZero (d == 0 && b == 0) (.halt (.ofCode a)) else .error .reservedW
  | _ => .error .reservedFn

/-- The LD, ST, SADDI, VADDI and FSHI words (I format, R59, R75). -/
def decodeI (op : BitVec 5) (w : BitVec 2) (d a : BitVec 7) (i : BitVec 11) : Except Reject Instr :=
  match op.toNat with
  | 0x0A => if w = 0 then .ok (.saddi (.ofCode d) (.ofCode a) i) else .error .reservedW
  | 0x0D => if w = 0 then .ok (.vaddi (.ofCode d) (.ofCode a) i) else .error .reservedW
  | 0x0E => .ok (.ld w (.ofCode d) (.ofCode a) i)
  | 0x0F => .ok (.st w (.ofCode d) (.ofCode a) i)
  | _ =>
    if w = 1 then
      ifZero (i.extractLsb' 5 5 == 0)
        (if i.getLsbD 10 then .fshiR (.ofCode d) (.ofCode a) (i.setWidth 5)
          else .fshiL (.ofCode d) (.ofCode a) (i.setWidth 5))
    else .error .reservedW

/-- The MOVI and MOVHI words (L format, R59, R75). -/
def decodeL (op : BitVec 5) (w : BitVec 2) (d : BitVec 7) (i : BitVec 18) : Except Reject Instr :=
  if w = 0 then
    if op = 0x0B then .ok (.movi (.ofCode d) i) else .ok (.movhi (.ofCode d) i)
  else .error .reservedW

/-- The BR and CALL words (J format, R73). -/
def decodeJ (op : BitVec 5) (cc : BitVec 3) (o : BitVec 24) : Except Reject Instr :=
  if op = 0x18 then
    match cc.toNat with
    | 0 => .ok (.br o)
    | 1 => .ok (.brExecz o)
    | 2 => .ok (.brExecnz o)
    | 3 => .ok (.brScc1 o)
    | 4 => .ok (.brScc0 o)
    | _ => .error .reservedCc
  else if cc = 0 then .ok (.callW o) else .error .reservedCc

/-- The instruction a word is, or why it is none (R71). The operand codes are checked at issue (R76). -/
def decode (x : Word) : Except Reject Instr :=
  match (wordOp x).toNat with
  | 0x01 => decodeIalu (wordW x) (wordD x) (wordA x) (wordB x) (wordFn x)
  | 0x02 => decodeIbit (wordW x) (wordD x) (wordA x) (wordB x) (wordFn x)
  | 0x03 => decodeFalu (wordW x) (wordD x) (wordA x) (wordB x) (wordFn x)
  | 0x04 => decodeHalu (wordW x) (wordD x) (wordA x) (wordB x) (wordFn x)
  | 0x05 => decodeCvt (wordW x) (wordD x) (wordA x) (wordB x) (wordFn x)
  | 0x06 => decodeCmp (wordW x) (wordD x) (wordA x) (wordB x) (wordFn x)
  | 0x07 => decodeTrn (wordW x) (wordD x) (wordA x) (wordB x) (wordFn x)
  | 0x08 => decodeXlane (wordW x) (wordD x) (wordA x) (wordB x) (wordFn x)
  | 0x09 => decodeSalu (wordW x) (wordD x) (wordA x) (wordB x) (wordFn x)
  | 0x10 => decodeLdx (wordW x) (wordD x) (wordA x) (wordB x) (wordFn x)
  | 0x11 => decodeAtom (wordW x) (wordD x) (wordA x) (wordB x) (wordFn x)
  | 0x12 => decodeAtom64 (wordW x) (wordD x) (wordA x) (wordB x) (wordFn x)
  | 0x13 => decodeEng (wordW x) (wordD x) (wordA x) (wordB x) (wordFn x)
  | 0x14 => decodeMtx (wordW x) (wordD x) (wordA x) (wordB x) (wordFn x)
  | 0x15 => decodeMctl (wordW x) (wordD x) (wordA x) (wordB x) (wordFn x)
  | 0x1A => decodeCtl (wordW x) (wordD x) (wordA x) (wordB x) (wordFn x)
  | 0x1B => decodeTask (wordW x) (wordD x) (wordA x) (wordB x) (wordFn x)
  | 0x1C => decodeSys (wordW x) (wordD x) (wordA x) (wordB x) (wordFn x)
  | 0x0A => decodeI (wordOp x) (wordW x) (wordD x) (wordA x) (x.extractLsb' 0 11)
  | 0x0D => decodeI (wordOp x) (wordW x) (wordD x) (wordA x) (x.extractLsb' 0 11)
  | 0x0E => decodeI (wordOp x) (wordW x) (wordD x) (wordA x) (x.extractLsb' 0 11)
  | 0x0F => decodeI (wordOp x) (wordW x) (wordD x) (wordA x) (x.extractLsb' 0 11)
  | 0x17 => decodeI (wordOp x) (wordW x) (wordD x) (wordA x) (x.extractLsb' 0 11)
  | 0x0B => decodeL (wordOp x) (wordW x) (wordD x) (x.extractLsb' 0 18)
  | 0x0C => decodeL (wordOp x) (wordW x) (wordD x) (x.extractLsb' 0 18)
  | 0x18 => decodeJ (wordOp x) (x.extractLsb' 24 3) (x.extractLsb' 0 24)
  | 0x19 => decodeJ (wordOp x) (x.extractLsb' 24 3) (x.extractLsb' 0 24)
  | 0x16 =>
    ifZero (x.getLsbD 0 == false)
      (.lop3 (x.extractLsb' 19 8) (x.extractLsb' 13 6) (x.extractLsb' 7 6) (x.extractLsb' 1 6))
  | 0x1F =>
    .ok (.clause (x.extractLsb' 15 12) (x.extractLsb' 11 4) (x.extractLsb' 7 4) (x.extractLsb' 4 3)
      (x.extractLsb' 0 4))
  | _ => .error .reservedOp

/-- The word that four little-endian bytes make (R2, R58). -/
def wordOfBytes (b0 b1 b2 b3 : Byte) : Word := b3 ++ b2 ++ b1 ++ b0

/-- The first instruction of a byte list, with the bytes after it. -/
def decodeBytes : List Byte → Except Reject (Instr × List Byte)
  | b0 :: b1 :: b2 :: b3 :: rest =>
    match decode (wordOfBytes b0 b1 b2 b3) with
    | .ok i => .ok (i, rest)
    | .error e => .error e
  | _ => .error .short

/-- The four bytes of an instruction numbered as the opcode table numbers its bits, the bits above `nbits` zero. -/
def tableBytes (nbits w : Nat) : List Byte :=
  let x : Word := BitVec.ofNat 32 (w % 2 ^ nbits)
  [x.extractLsb' 0 8, x.extractLsb' 8 8, x.extractLsb' 16 8, x.extractLsb' 24 8]

/-- What the decoder reads from an instruction of the opcode table. -/
def decodeTableWord (nbits w : Nat) : Option Instr :=
  if nbits = 0 then none
  else match decodeBytes (tableBytes nbits w) with
    | .ok (i, _) => some i
    | .error _ => none

/-- The word of an instruction; `none` for an event, which has no encoding. -/
def encode : Instr → Option Word
  | .clause w a b l h => some (encH w a b l h)
  | .lop3 t d a b => some (encT t d a b)
  | .saddi d a i => some (encI 0x0A#5 0 d.code a.code i)
  | .vaddi d a i => some (encI 0x0D#5 0 d.code a.code i)
  | .ld w d a i => some (encI 0x0E#5 w d.code a.code i)
  | .st w d a i => some (encI 0x0F#5 w d.code a.code i)
  | .fshiL d a k => some (encI 0x17#5 1 d.code a.code (0#6 ++ k))
  | .fshiR d a k => some (encI 0x17#5 1 d.code a.code (0x20#6 ++ k))
  | .movi d i => some (encL 0x0B#5 0 d.code i)
  | .movhi d i => some (encL 0x0C#5 0 d.code i)
  | .br o => some (encJ 0x18#5 0 o)
  | .brExecz o => some (encJ 0x18#5 1 o)
  | .brExecnz o => some (encJ 0x18#5 2 o)
  | .brScc1 o => some (encJ 0x18#5 3 o)
  | .brScc0 o => some (encJ 0x18#5 4 o)
  | .callW o => some (encJ 0x19#5 0 o)
  | .iadd d a b => some (encR 0x01#5 0#2 d.code a.code b.code 0#4)
  | .isub d a b => some (encR 0x01#5 0#2 d.code a.code b.code 1#4)
  | .imul d a b => some (encR 0x01#5 0#2 d.code a.code b.code 2#4)
  | .imulhi d a b => some (encR 0x01#5 0#2 d.code a.code b.code 3#4)
  | .nmulhi d a b => some (encR 0x01#5 0#2 d.code a.code b.code 4#4)
  | .imin d a b => some (encR 0x01#5 0#2 d.code a.code b.code 5#4)
  | .imax d a b => some (encR 0x01#5 0#2 d.code a.code b.code 6#4)
  | .nmin d a b => some (encR 0x01#5 0#2 d.code a.code b.code 7#4)
  | .nmax d a b => some (encR 0x01#5 0#2 d.code a.code b.code 8#4)
  | .andV d a b => some (encR 0x01#5 0#2 d.code a.code b.code 9#4)
  | .orV d a b => some (encR 0x01#5 0#2 d.code a.code b.code 10#4)
  | .xorV d a b => some (encR 0x01#5 0#2 d.code a.code b.code 11#4)
  | .shlV d a b => some (encR 0x01#5 0#2 d.code a.code b.code 12#4)
  | .shrV d a b => some (encR 0x01#5 0#2 d.code a.code b.code 13#4)
  | .sarV d a b => some (encR 0x01#5 0#2 d.code a.code b.code 14#4)
  | .isad d a b => some (encR 0x01#5 0#2 d.code a.code b.code 15#4)
  | .popc d a => some (encR 0x02#5 0#2 d.code a.code 0 0#4)
  | .clz d a => some (encR 0x02#5 0#2 d.code a.code 0 1#4)
  | .ctz d a => some (encR 0x02#5 0#2 d.code a.code 0 2#4)
  | .brev d a => some (encR 0x02#5 0#2 d.code a.code 0 3#4)
  | .bfe d a b => some (encR 0x02#5 0#2 d.code a.code b.code 4#4)
  | .bfi d a b => some (encR 0x02#5 0#2 d.code a.code b.code 5#4)
  | .fshl d a b => some (encR 0x02#5 0#2 d.code a.code b.code 6#4)
  | .fshr d a b => some (encR 0x02#5 0#2 d.code a.code b.code 7#4)
  | .rotl d a b => some (encR 0x02#5 0#2 d.code a.code b.code 8#4)
  | .iabs d a => some (encR 0x02#5 0#2 d.code a.code 0 9#4)
  | .ineg d a => some (encR 0x02#5 0#2 d.code a.code 0 10#4)
  | .imad d a b => some (encR 0x02#5 0#2 d.code a.code b.code 11#4)
  | .faddF32 d a b => some (encR 0x03#5 0#2 d.code a.code b.code 0#4)
  | .fsubF32 d a b => some (encR 0x03#5 0#2 d.code a.code b.code 1#4)
  | .fmulF32 d a b => some (encR 0x03#5 0#2 d.code a.code b.code 2#4)
  | .fmaF32 d a b => some (encR 0x03#5 0#2 d.code a.code b.code 3#4)
  | .fmsF32 d a b => some (encR 0x03#5 0#2 d.code a.code b.code 4#4)
  | .fnmaF32 d a b => some (encR 0x03#5 0#2 d.code a.code b.code 5#4)
  | .fminF32 d a b => some (encR 0x03#5 0#2 d.code a.code b.code 6#4)
  | .fmaxF32 d a b => some (encR 0x03#5 0#2 d.code a.code b.code 7#4)
  | .fabsF32 d a => some (encR 0x03#5 0#2 d.code a.code 0 8#4)
  | .fnegF32 d a => some (encR 0x03#5 0#2 d.code a.code 0 9#4)
  | .fcpsF32 d a b => some (encR 0x03#5 0#2 d.code a.code b.code 10#4)
  | .ffloorF32 d a => some (encR 0x03#5 0#2 d.code a.code 0 11#4)
  | .fceilF32 d a => some (encR 0x03#5 0#2 d.code a.code 0 12#4)
  | .ftruncF32 d a => some (encR 0x03#5 0#2 d.code a.code 0 13#4)
  | .frintF32 d a => some (encR 0x03#5 0#2 d.code a.code 0 14#4)
  | .fclassF32 d a => some (encR 0x03#5 0#2 d.code a.code 0 15#4)
  | .haddBf16 d a b => some (encR 0x04#5 0#2 d.code a.code b.code 0#4)
  | .hsubBf16 d a b => some (encR 0x04#5 0#2 d.code a.code b.code 1#4)
  | .hmulBf16 d a b => some (encR 0x04#5 0#2 d.code a.code b.code 2#4)
  | .hfmaBf16 d a b => some (encR 0x04#5 0#2 d.code a.code b.code 3#4)
  | .hminBf16 d a b => some (encR 0x04#5 0#2 d.code a.code b.code 4#4)
  | .hmaxBf16 d a b => some (encR 0x04#5 0#2 d.code a.code b.code 5#4)
  | .hdot2Bf16 d a b => some (encR 0x04#5 0#2 d.code a.code b.code 6#4)
  | .haddF16 d a b => some (encR 0x04#5 0#2 d.code a.code b.code 8#4)
  | .hsubF16 d a b => some (encR 0x04#5 0#2 d.code a.code b.code 9#4)
  | .hmulF16 d a b => some (encR 0x04#5 0#2 d.code a.code b.code 10#4)
  | .hfmaF16 d a b => some (encR 0x04#5 0#2 d.code a.code b.code 11#4)
  | .hminF16 d a b => some (encR 0x04#5 0#2 d.code a.code b.code 12#4)
  | .hmaxF16 d a b => some (encR 0x04#5 0#2 d.code a.code b.code 13#4)
  | .hdot2F16 d a b => some (encR 0x04#5 0#2 d.code a.code b.code 14#4)
  | .cvtI32F32 d a => some (encR 0x05#5 0#2 d.code a.code 0 0#4)
  | .cvtN32F32 d a => some (encR 0x05#5 0#2 d.code a.code 0 1#4)
  | .cvtF32I32 d a => some (encR 0x05#5 0#2 d.code a.code 0 2#4)
  | .cvtF32N32 d a => some (encR 0x05#5 0#2 d.code a.code 0 3#4)
  | .cvtBf16F32Lo d a => some (encR 0x05#5 0#2 d.code a.code 0 4#4)
  | .cvtBf16F32Hi d a => some (encR 0x05#5 0#2 d.code a.code 0 5#4)
  | .cvtF32Bf16Lo d a => some (encR 0x05#5 0#2 d.code a.code 0 6#4)
  | .cvtF32Bf16Hi d a => some (encR 0x05#5 0#2 d.code a.code 0 7#4)
  | .cvtF16F32Lo d a => some (encR 0x05#5 0#2 d.code a.code 0 8#4)
  | .cvtF16F32Hi d a => some (encR 0x05#5 0#2 d.code a.code 0 9#4)
  | .cvtF32F16Lo d a => some (encR 0x05#5 0#2 d.code a.code 0 10#4)
  | .cvtF32F16Hi d a => some (encR 0x05#5 0#2 d.code a.code 0 11#4)
  | .cvtL6F32 d a b => some (encR 0x05#5 0#2 d.code a.code b.code 12#4)
  | .cvtF32L6 d a b => some (encR 0x05#5 0#2 d.code a.code b.code 13#4)
  | .cvtQL6 d a b => some (encR 0x05#5 1#2 d.code a.code b.code 14#4)
  | .feq d a b => some (encR 0x06#5 0#2 d.code a.code b.code 0#4)
  | .fne d a b => some (encR 0x06#5 0#2 d.code a.code b.code 1#4)
  | .flt d a b => some (encR 0x06#5 0#2 d.code a.code b.code 2#4)
  | .fle d a b => some (encR 0x06#5 0#2 d.code a.code b.code 3#4)
  | .fgt d a b => some (encR 0x06#5 0#2 d.code a.code b.code 4#4)
  | .fge d a b => some (encR 0x06#5 0#2 d.code a.code b.code 5#4)
  | .ford d a b => some (encR 0x06#5 0#2 d.code a.code b.code 6#4)
  | .funo d a b => some (encR 0x06#5 0#2 d.code a.code b.code 7#4)
  | .ieq d a b => some (encR 0x06#5 0#2 d.code a.code b.code 8#4)
  | .ine d a b => some (encR 0x06#5 0#2 d.code a.code b.code 9#4)
  | .ilt d a b => some (encR 0x06#5 0#2 d.code a.code b.code 10#4)
  | .ile d a b => some (encR 0x06#5 0#2 d.code a.code b.code 11#4)
  | .nlt d a b => some (encR 0x06#5 0#2 d.code a.code b.code 12#4)
  | .nle d a b => some (encR 0x06#5 0#2 d.code a.code b.code 13#4)
  | .fcls d a b => some (encR 0x06#5 0#2 d.code a.code b.code 14#4)
  | .rcp d a => some (encR 0x07#5 0#2 d.code a.code 0 0#4)
  | .rsq d a => some (encR 0x07#5 0#2 d.code a.code 0 1#4)
  | .sqrt d a => some (encR 0x07#5 0#2 d.code a.code 0 2#4)
  | .exp2 d a => some (encR 0x07#5 0#2 d.code a.code 0 3#4)
  | .log2 d a => some (encR 0x07#5 0#2 d.code a.code 0 4#4)
  | .sinpi d a => some (encR 0x07#5 0#2 d.code a.code 0 5#4)
  | .cospi d a => some (encR 0x07#5 0#2 d.code a.code 0 6#4)
  | .tanh d a => some (encR 0x07#5 0#2 d.code a.code 0 7#4)
  | .shfl d a b => some (encR 0x08#5 0#2 d.code a.code b.code 0#4)
  | .shfx d a b => some (encR 0x08#5 0#2 d.code a.code b.code 1#4)
  | .shfu d a b => some (encR 0x08#5 0#2 d.code a.code b.code 2#4)
  | .shfd d a b => some (encR 0x08#5 0#2 d.code a.code b.code 3#4)
  | .bcast d a b => some (encR 0x08#5 0#2 d.code a.code b.code 4#4)
  | .ballot d a => some (encR 0x08#5 0#2 d.code a.code 0 5#4)
  | .vany d a => some (encR 0x08#5 0#2 d.code a.code 0 6#4)
  | .vall d a => some (encR 0x08#5 0#2 d.code a.code 0 7#4)
  | .redi d a => some (encR 0x08#5 0#2 d.code a.code 0 8#4)
  | .redf d a => some (encR 0x08#5 0#2 d.code a.code 0 9#4)
  | .redmx d a b => some (encR 0x08#5 0#2 d.code a.code b.code 10#4)
  | .scani d a b => some (encR 0x08#5 0#2 d.code a.code b.code 11#4)
  | .sshf d a b => some (encR 0x08#5 0#2 d.code a.code b.code 12#4)
  | .sshx d a b => some (encR 0x08#5 0#2 d.code a.code b.code 13#4)
  | .sbc d a b => some (encR 0x08#5 0#2 d.code a.code b.code 14#4)
  | .sadd d a b => some (encR 0x09#5 0#2 d.code a.code b.code 0#4)
  | .ssub d a b => some (encR 0x09#5 0#2 d.code a.code b.code 1#4)
  | .smul d a b => some (encR 0x09#5 0#2 d.code a.code b.code 2#4)
  | .sand d a b => some (encR 0x09#5 0#2 d.code a.code b.code 3#4)
  | .sor d a b => some (encR 0x09#5 0#2 d.code a.code b.code 4#4)
  | .sxor d a b => some (encR 0x09#5 0#2 d.code a.code b.code 5#4)
  | .sshl d a b => some (encR 0x09#5 0#2 d.code a.code b.code 6#4)
  | .sshr d a b => some (encR 0x09#5 0#2 d.code a.code b.code 7#4)
  | .ssar d a b => some (encR 0x09#5 0#2 d.code a.code b.code 8#4)
  | .smin d a b => some (encR 0x09#5 0#2 d.code a.code b.code 9#4)
  | .smax d a b => some (encR 0x09#5 0#2 d.code a.code b.code 10#4)
  | .snmin d a b => some (encR 0x09#5 0#2 d.code a.code b.code 11#4)
  | .snmax d a b => some (encR 0x09#5 0#2 d.code a.code b.code 12#4)
  | .scmpeq d a b => some (encR 0x09#5 0#2 d.code a.code b.code 13#4)
  | .scmplt d a b => some (encR 0x09#5 0#2 d.code a.code b.code 14#4)
  | .scmpnlt d a b => some (encR 0x09#5 0#2 d.code a.code b.code 15#4)
  | .ldS8 d a b => some (encR 0x10#5 0#2 d.code a.code b.code 0#4)
  | .ldZ8 d a b => some (encR 0x10#5 0#2 d.code a.code b.code 1#4)
  | .ldS16 d a b => some (encR 0x10#5 0#2 d.code a.code b.code 2#4)
  | .ldZ16 d a b => some (encR 0x10#5 0#2 d.code a.code b.code 3#4)
  | .st8 d a b => some (encR 0x10#5 0#2 d.code a.code b.code 4#4)
  | .st16 d a b => some (encR 0x10#5 0#2 d.code a.code b.code 5#4)
  | .ldl w d a b => some (encR 0x10#5 w d.code a.code b.code 6#4)
  | .stl w d a b => some (encR 0x10#5 w d.code a.code b.code 7#4)
  | .ald d a b => some (encR 0x10#5 0#2 d.code a.code b.code 8#4)
  | .aldUnp d a b => some (encR 0x10#5 0#2 d.code a.code b.code 9#4)
  | .aldQnt d a b => some (encR 0x10#5 0#2 d.code a.code b.code 10#4)
  | .aldSpec d a b => some (encR 0x10#5 0#2 d.code a.code b.code 11#4)
  | .ast d a b => some (encR 0x10#5 0#2 d.code a.code b.code 12#4)
  | .astUnp d a b => some (encR 0x10#5 0#2 d.code a.code b.code 13#4)
  | .ldi w d a b => some (encR 0x10#5 w d.code a.code b.code 14#4)
  | .atomAdd w d a b => some (encR 0x11#5 w d.code a.code b.code 0#4)
  | .atomSub w d a b => some (encR 0x11#5 w d.code a.code b.code 1#4)
  | .atomMin w d a b => some (encR 0x11#5 w d.code a.code b.code 2#4)
  | .atomMax w d a b => some (encR 0x11#5 w d.code a.code b.code 3#4)
  | .atomNmin w d a b => some (encR 0x11#5 w d.code a.code b.code 4#4)
  | .atomNmax w d a b => some (encR 0x11#5 w d.code a.code b.code 5#4)
  | .atomAnd w d a b => some (encR 0x11#5 w d.code a.code b.code 6#4)
  | .atomOr w d a b => some (encR 0x11#5 w d.code a.code b.code 7#4)
  | .atomXor w d a b => some (encR 0x11#5 w d.code a.code b.code 8#4)
  | .atomXchg w d a b => some (encR 0x11#5 w d.code a.code b.code 9#4)
  | .atomCas w d a b => some (encR 0x11#5 w d.code a.code b.code 10#4)
  | .atomInc w d a b => some (encR 0x11#5 w d.code a.code b.code 11#4)
  | .atomDec w d a b => some (encR 0x11#5 w d.code a.code b.code 12#4)
  | .atomFadd w d a b => some (encR 0x11#5 w d.code a.code b.code 13#4)
  | .atomFmin w d a b => some (encR 0x11#5 w d.code a.code b.code 14#4)
  | .atomFmax w d a b => some (encR 0x11#5 w d.code a.code b.code 15#4)
  | .atom64Add w d a b => some (encR 0x12#5 w d.code a.code b.code 0#4)
  | .atom64Sub w d a b => some (encR 0x12#5 w d.code a.code b.code 1#4)
  | .atom64Min w d a b => some (encR 0x12#5 w d.code a.code b.code 2#4)
  | .atom64Max w d a b => some (encR 0x12#5 w d.code a.code b.code 3#4)
  | .atom64Nmin w d a b => some (encR 0x12#5 w d.code a.code b.code 4#4)
  | .atom64Nmax w d a b => some (encR 0x12#5 w d.code a.code b.code 5#4)
  | .atom64And w d a b => some (encR 0x12#5 w d.code a.code b.code 6#4)
  | .atom64Or w d a b => some (encR 0x12#5 w d.code a.code b.code 7#4)
  | .atom64Xor w d a b => some (encR 0x12#5 w d.code a.code b.code 8#4)
  | .atom64Xchg w d a b => some (encR 0x12#5 w d.code a.code b.code 9#4)
  | .copy d a => some (encR 0x13#5 3#2 d.code a.code 0 0#4)
  | .copyT2 d a => some (encR 0x13#5 3#2 d.code a.code 0 1#4)
  | .copyT3 d a => some (encR 0x13#5 3#2 d.code a.code 0 2#4)
  | .copyConv d a => some (encR 0x13#5 3#2 d.code a.code 0 3#4)
  | .qcopy d a => some (encR 0x13#5 3#2 d.code a.code 0 4#4)
  | .catchL d a => some (encR 0x13#5 3#2 d.code a.code 0 5#4)
  | .catchT2 d a => some (encR 0x13#5 3#2 d.code a.code 0 6#4)
  | .pref d a => some (encR 0x13#5 3#2 d.code a.code 0 7#4)
  | .mload d a => some (encR 0x13#5 3#2 d.code a.code 0 8#4)
  | .mloop d a => some (encR 0x14#5 3#2 d.code a.code 0 0#4)
  | .mloops d a => some (encR 0x14#5 3#2 d.code a.code 0 1#4)
  | .mdrain d a => some (encR 0x14#5 3#2 d.code a.code 0 2#4)
  | .mdrains d a => some (encR 0x14#5 3#2 d.code a.code 0 3#4)
  | .mzero d a => some (encR 0x14#5 0#2 d.code a.code 0 4#4)
  | .msig d a => some (encR 0x14#5 3#2 d.code a.code 0 5#4)
  | .mskip d a => some (encR 0x14#5 3#2 d.code a.code 0 6#4)
  | .mstat d a => some (encR 0x14#5 0#2 d.code a.code 0 7#4)
  | .fenceSys => some (encR 0x15#5 0#2 0 0 0 0#4)
  | .fenceHost => some (encR 0x15#5 0#2 0 0 0 1#4)
  | .inval a b => some (encR 0x15#5 0#2 0 a.code b.code 2#4)
  | .flush a b => some (encR 0x15#5 0#2 0 a.code b.code 3#4)
  | .waitf a b => some (encR 0x15#5 0#2 0 (a.setWidth 7) (b.setWidth 7) 4#4)
  | .retW => some (encR 0x1A#5 0#2 0 0 0 0#4)
  | .jmpi a => some (encR 0x1A#5 1#2 0 a.code 0 1#4)
  | .join l => some (encR 0x1A#5 0#2 0 0 l 2#4)
  | .wnd a b => some (encR 0x1A#5 0#2 0 a.code (b.setWidth 7) 3#4)
  | .endW => some (encR 0x1A#5 0#2 0 0 0 4#4)
  | .svc w d a b => some (encR 0x1A#5 (w.setWidth 2) d.code a.code b.code 5#4)
  | .trap n => some (encR 0x1A#5 0#2 0 0 n 6#4)
  | .nop => some (encR 0x1A#5 0#2 0 0 0 7#4)
  | .movs d i => some (encR 0x1A#5 0#2 d.code 0 i 8#4)
  | .movt a i => some (encR 0x1A#5 0#2 0 a.code i 9#4)
  | .uiret => some (encR 0x1A#5 0#2 0 0 0 10#4)
  | .brk n => some (encR 0x1A#5 0#2 0 0 n 11#4)
  | .yield => some (encR 0x1A#5 0#2 0 0 0 12#4)
  | .take d => some (encR 0x1B#5 3#2 d.code 0 0 0#4)
  | .spawn d a => some (encR 0x1B#5 2#2 d.code a.code 0 1#4)
  | .joinc a => some (encR 0x1B#5 0#2 0 a.code 0 2#4)
  | .barSync b => some (encR 0x1B#5 0#2 0 0 b 3#4)
  | .barArr d a b => some (encR 0x1B#5 0#2 d.code a.code b 4#4)
  | .barArrG d a b => some (encR 0x1B#5 1#2 d.code a.code b.code 4#4)
  | .barWait a b => some (encR 0x1B#5 0#2 0 a.code b 5#4)
  | .barWaitG a b => some (encR 0x1B#5 1#2 0 a.code b.code 5#4)
  | .give n => some (encR 0x1B#5 0#2 0 0 n 6#4)
  | .claim n => some (encR 0x1B#5 0#2 0 0 n 7#4)
  | .roleW a => some (encR 0x1B#5 0#2 0 a.code 0 8#4)
  | .cancel a l => some (encR 0x1B#5 0#2 0 a.code l 9#4)
  | .ctr d l => some (encR 0x1B#5 1#2 d.code 0 l 10#4)
  | .fret a b => some (encR 0x1C#5 0#2 0 a.code b.code 0#4)
  | .pmap d a b => some (encR 0x1C#5 1#2 d.code a.code b.code 1#4)
  | .tlbi d a b => some (encR 0x1C#5 1#2 d.code a.code b.code 2#4)
  | .asidr d a => some (encR 0x1C#5 0#2 d.code a.code 0 3#4)
  | .sksave d a b => some (encR 0x1C#5 1#2 d.code a.code b.code 4#4)
  | .skload d a b => some (encR 0x1C#5 1#2 d.code a.code b.code 5#4)
  | .ecnt d => some (encR 0x1C#5 1#2 d.code 0 0 6#4)
  | .uintr a b => some (encR 0x1C#5 0#2 0 a.code b.code 7#4)
  | .pstat d a i => some (encR 0x1C#5 0#2 d.code a.code i 8#4)
  | .pstatW d a i => some (encR 0x1C#5 1#2 d.code a.code i 8#4)
  | .halt a => some (encR 0x1C#5 0#2 0 a.code 0 9#4)
  | .fetchEntryGrant _ | .fetchEntryRotation _ _ | .priorityAgeing _ _ | .sliceEnd _ _ | .takeRequest _
  | .barrierWordRecheck _ _ | .loadComplete _ | .postedWritePerformed _ | .pageWalkComplete _ _ _
  | .faultVector _ _ | .userInterruptDelivery _ _ | .engineCommandComplete _ _ | .catchBurstArrival _ _ _
  | .matrixQueueDispatch _ | .serviceBatchEnqueue _ | .serviceStatus _ _ _ | .teamHold _ | .tail _ _ _
  | .userDoorbell _ _ | .loglost _ _ | .partitionPageWrite _ _ _ | .nopPacket _ _ | .launch _ _
  | .cancelPacket _ _ | .signal _ _ | .preempt _ _ | .resume _ _ | .teamStart _ _ | .preemptionHalt _ _
  | .contextStop _ | .contextRestore _ _ | .dieFence _ | .distributorReport _ | .thermalMigration _
  | .checkpointIntervalClose _ _ | .arm _ _ _ | .ceilingRaise _ _ | .checkpointCommit _ _
  | .saveCostRecord _ _ | .staticEnergyTick | .atsTranslationCompletion _ _ _ _ _ _ _ _
  | .pageResponse _ _ _ _ | .priTimeout _ _ _ | .atsInvalidateRequest _ _ _ | .invalidateCompletion _
  | .ridgeRequest _ _ _ _ _ _ _ _ | .ridgeErrorCompletion _ _ | .ingressAccess _ _ _ _
  | .tierCreditUpdate _ _ | .islandPause _ | .patrolScrub _ _ | .flr _ | .powerGood _ _ | .partAssign
  | .partSet | .partReset | .partFree | .ctxpool | .egress | .importE | .quiesce | .quiesceAck _
  | .extentAdd | .extentRevoke | .extentRelease _ | .fwStage | .fwUpdate | .lifecycle | .spare
  | .ckptRegion | .ckptBase | .illegalInstruction | .matrixCommandComplete _ | .streamerWrite _ _
  | .coreRelease _ _ | .ridgeFlitRetry _ | .backInvalidation _ | .go _ _ => none

end Sys2Proof
end

