-- ==== Sys2Proof/Config.lean ====
section
/-! DEFINITION. What an implementation fixes and the free values: constants with no body, about which nothing can
be proved. Each is named in a log entry. -/

namespace Sys2Proof

/-- A free choice among the outcomes a rule lists; the argument is the fresh counter of the state (log 2). -/
opaque Config.choice : Nat → Nat

/-- A free byte, for data the spec gives no value: device reads, peer reads (log 2). -/
opaque Config.freeByte : Nat → Byte

/-- Which of the results within the bound of R118 a TRN function returns; the same for the same input (R119).
The first argument is FN, the second the input (log 10). -/
opaque Config.trn : Nat → Word → Nat

/-- The static charge of a core, in 1/64 nJ per µs, a firmware constant of its island (R443; log 4). -/
opaque Config.stat : Nat → BitVec 16

/-- The package id, fused (R425; log 4). -/
opaque Config.pkgId : BitVec 16

/-- The life-cycle state, fused (R425; log 4). -/
opaque Config.lifeCycle : BitVec 2

/-- Whether RV32E 0 accepts an image's signature (R439; log 4). -/
opaque Config.signatureOk : List Byte → Bool

/-- The version an image carries (R439; log 4). -/
opaque Config.imageVersion : List Byte → Dword

/-- The errata mask an image brings (R440; log 4). -/
opaque Config.imageErrata : List Byte → Dword

/-- The version of the boot image (R425, R446; log 4). -/
opaque Config.bootVersion : Dword

/-- The errata mask that the boot image brings (R425, R440; log 4). -/
opaque Config.bootErrata : Dword

/-- Whether a life-cycle command is authenticated by the signing key (R430; log 4). -/
opaque Config.commandOk : List Byte → BitVec 2 → Bool

/-- Where firmware keeps the service ring of a die, in bytes from the start of the die's HBM (R351; log 67). -/
opaque Config.serviceRing : Nat → Nat

end Sys2Proof
end

