-- ==== Sys2Proof/Machine/State.lean ====
section
/-! DEFINITION. The state of one Valruone package as plain data, the reasons a step can stop, and the state after
reset. Every piece of state is listed with its rule in INVENTORY.md. -/

namespace Sys2Proof.Machine

/-- A finite map from keys to words, sparse and canonical: keys strictly rising, no entry equal to 0. -/
abbrev NMap (w : Nat) := List (Nat × BitVec w)

/-- Memory: the bytes that differ from 0, by physical address (R354). -/
abbrev Memory := List Host.Cell

/-! ## Pages and accesses -/

/-- SHARE of a page (R123). -/
inductive Share where | priv | rdsh | coh | dev
  deriving DecidableEq, Repr

/-- HOME of a page (R123). -/
inductive Home where | cached | spad | slice | nocache
  deriving DecidableEq, Repr

/-- A leaf in use: the page it covers, its frame, its permissions and policy (R357, R367). -/
structure Leaf where
  va : Nat
  pa : Nat
  log : Nat
  share : Share
  home : Home
  u : Bool
  x : Bool
  w : Bool
  r : Bool
  ats : Bool
  deriving DecidableEq, Repr

/-- What an access needs of a page (R358). -/
inductive Need where | load | store | atomic | fetch
  deriving DecidableEq, Repr

/-- What an access does to memory, with how a load extends (R223, R225, R230, R306). -/
inductive AccKind where
  | load (signed : Bool)
  | store
  | atom (fn : Nat)
  | barWord
  deriving DecidableEq, Repr

/-- The place an access takes in S (R139, R231). -/
inductive Order where | ord | com | nord | unp | qnt | spec
  deriving DecidableEq, Repr

/-- One access of a lane, or of the slice when uniform, with everything captured at issue (R219, R221, R337). -/
structure Acc where
  kind : AccKind
  order : Order
  /-- the lanes it serves: one, or every lane of the effective mask when uniform (R221) -/
  lanes : List Nat
  uniform : Bool
  /-- effective address, or scratchpad offset when `loc` -/
  ea : Nat
  size : Nat
  align : Nat
  loc : Bool
  /-- store data or the atomic's operand, little-endian -/
  data : Nat
  /-- physical destination registers; none when the value is discarded -/
  dst : List Nat
  hdr : Nat
  ix : Nat
  flag : Option Nat
  /-- issued in supervisor mode (R358) -/
  sup : Bool
  /-- its operand has been combined with another's in the fabric (R142, R143) -/
  comb : Bool
  deriving DecidableEq, Repr

/-- A piece of an access within one sector: virtual address, physical address, size and leaf (R133). -/
structure Piece where
  va : Nat
  pa : Nat
  size : Nat
  leaf : Leaf
  deriving DecidableEq, Repr

/-- A lane's fault record (R336, R337). -/
structure FaultRec where
  lane : Nat
  cause : Nat
  va : Nat
  acc : Acc
  deriving DecidableEq, Repr

/-- Where one access of an outstanding operation stands (R220, R337, R367, R369). -/
inductive AccSt where
  /-- waiting for a page walk -/
  | walk
  /-- waiting for the host: an ATS reply or a Page Response (R367, R369) -/
  | ats
  /-- its time would pass the checkpoint ceiling, or an earlier event of its lane waits so (R135, R137, R401) -/
  | ceil
  /-- its checks have passed and its event is still to come (R134, R139) -/
  | late (ps : List Piece)
  /-- sent to a peer package whose ingress has not answered (R376) -/
  | peer (ps : List Piece)
  /-- performed; the words of a load or atomic's value but for those of `given`, each a lane and a word, are still to
  be written (R190, R220) -/
  | got (value : Nat) (given : List (Nat × Nat))
  /-- performed; the write is not yet acknowledged -/
  | written
  /-- parked, or ended without data -/
  | dropped
  deriving DecidableEq, Repr

/-- An outstanding load, atomic or store of a slice (R64, R220, R222). -/
structure PendOp where
  id : Nat
  team : Nat
  slice : Nat
  /-- its instruction makes several accesses, whose events come in any order (R134) -/
  lag : Bool
  accs : List (Acc × AccSt)
  deriving DecidableEq, Repr

/-! ## Launch records -/

/-- The launch record (R84). -/
structure LRec where
  codebase : Nat
  entry : Nat
  catchSlots : Nat
  regblk : Nat
  nroles : Nat
  crewlog : Nat
  slices : Nat
  roletab : Nat
  bars : Nat
  copyq : Nat
  scratch : Nat
  grain : Nat
  lo : Nat
  hi : Nat
  args : Nat
  track : Bool
  elastic : Bool
  coresid : Bool
  phase : Nat
  graph : Nat
  job : Nat
  deriving DecidableEq, Repr

/-- A role-table entry (R85). -/
structure RoleEnt where
  entry : Nat
  cls : Nat
  wbblk : Nat
  count : Nat
  first : Nat
  deriving DecidableEq, Repr

/-! ## Slices and teams -/

/-- User or supervisor mode (R330). -/
inductive Mode where | user | supervisor
  deriving DecidableEq, Repr

/-- The blocked states of R20, as R395 numbers them. -/
inductive Block where
  | none
  | flags (mask : BitVec 12)
  | barrier (b : Nat) (gen : BitVec 16)
  | barWord (va : Nat) (gen : Word) (seen : Word)
  | claim
  | join (level : Nat)
  /-- a further `take` waits for the earlier reply (R296) -/
  | takeAgain
  /-- done with a collective word, waiting for the other slices of its sub-crew; at a team barrier, which one and the
  generation it waited for (R15, R292) -/
  | passed (bar : Option (Nat × BitVec 16))
  | ending
  | roleDrain
  deriving DecidableEq, Repr

/-- What a catch handler thread is running (R251, R252). -/
structure Thread where
  cmd : Nat
  burst : Nat
  bc0 : Word
  bc1 : Word
  bc2 : Word
  owner : Nat
  /-- words issued (R252) -/
  words : Nat
  /-- the code it failed with, once it has stopped (R253) -/
  fail : Option Nat
  deriving DecidableEq, Repr

/-- What a slice's register file is marked with: the 128-byte blocks written since the last quiet point (R400); the
poisoned words, each 4 × register + lane (R445); and the words that an outstanding operation will write, each with whether an
instruction has written it since (R190). -/
structure RegMarks where
  dirty : List Nat
  marred : List Nat
  due : List (Nat × Bool)
  deriving DecidableEq, Repr

/-- A slice of a team, or a catch handler thread (index 64 and up) with `thread` set (R11, R87). -/
structure Slice where
  idx : Nat
  hdr : Nat
  ix : Nat
  opened : Bool
  /-- the header word of the open clause, and which of its words are long-latency (R62, R65) -/
  hw : Word
  longs : BitVec 8
  /-- the words of the open clause as its fetch left them; none after a return into a clause, until it is fetched
  (R68, R151) -/
  code : List Word
  /-- the next boundary is a convergence point whatever the next word is (R338) -/
  conv : Bool
  sregs : NMap 32
  /-- the poisoned scalars: user scalar n at n, supervisor scalar n at n + 8 (R331, R445) -/
  smarred : List Nat
  exec : BitVec 4
  park : BitVec 4
  scc : Bool
  wb : Nat
  alloc : Nat
  vregs : NMap 32
  marks : RegMarks
  flags : NMap 6
  role : Nat
  cls : Nat
  roleCls : Nat
  waitLevel : Option Nat
  fpc : BitVec 4
  fps : BitVec 5
  uiv : Word
  uisv : Word
  uiPend : Bool
  mode : Mode
  bank : NMap 32
  bankScc : Bool
  sepc : Word
  scause : Word
  sfpc : Word
  recs : List FaultRec
  block : Block
  ended : Bool
  thread : Option Thread
  deriving DecidableEq, Repr

/-- A word whose operation its arbiter has accepted, and on which the slices are still stalled: it runs on, and completes
while the team drains (R390). -/
inductive Accepted where
  /-- `inval` or `flush` (R19, R234) -/
  | lines
  /-- `tlbi`, over these ranges of its ASID: first byte and length (R363) -/
  | pages (ranges : List (Nat × Nat))
  /-- `sksave` or `skload`, at its wait for the queue (R409) -/
  | image
  /-- `cancel` or `uintr` in the hardware FIFO of a firmware update, which its arbiter has still to see (R439): not yet
  accepted, and abandoned at a halt -/
  | queued
  deriving DecidableEq, Repr

/-- A sub-crew: the slices that share a PC, and whether it holds a fetch entry (R14, R18). -/
structure SubCrew where
  members : List Nat
  entry : Bool
  stalled : Bool
  /-- the implicit join of the crew-scope word at its PC has completed (R24) -/
  joined : Bool
  /-- the place in the waiting order: lower has waited longer (R47) -/
  seq : Nat
  /-- the host translation that it waits for: its 4 KiB page, and what is needed of it; and those that failed while it
  waited for them (R369) -/
  wants : Option (Nat × Need)
  bad : List (Nat × Need)
  /-- the operation of the word it is stalled on, once accepted (R390) -/
  accepted : Option Accepted
  deriving DecidableEq, Repr

/-- A pending join entry (R21). -/
structure JoinEnt where
  crew : Nat
  level : Nat
  /-- an implicit join: the crew-scope word then executes (R24) -/
  xlane : Bool
  sup : Bool
  hdr : Nat
  ix : Nat
  expected : List Nat
  arrived : List Nat
  deriving DecidableEq, Repr

/-- A team barrier (R302). -/
structure Barrier where
  isOpen : Bool
  counted : Bool
  expected : BitVec 12
  arrived : BitVec 12
  comp : BitVec 16
  /-- the slices that arrived in the open generation (R303) -/
  came : List Nat
  deriving DecidableEq, Repr

/-- A request of the claim queue: its place in arbiter order, the slices and the blocks each asks for (R309, R310). -/
structure Claim where
  seq : Nat
  members : List Nat
  n : Nat
  deriving DecidableEq, Repr

/-- A unit of work (R32, R294). -/
inductive Work where
  | none (reason : Nat)
  | range (lo hi : Nat)
  | cont (handle : Nat)
  deriving DecidableEq, Repr

/-- One slice's arrival in a `take` gather: its octet and flag (R293). -/
structure Arrival where
  slice : Nat
  octet : Nat
  flag : Option Nat
  deriving DecidableEq, Repr

/-- Where the bytes of a run come from: zeros, consecutive bytes, 64 elements to quantise, or
bytes already formed (R242 to R247). -/
inductive Src where
  | zero
  | mem (va : Nat)
  | block (w : Nat) (elems : List Nat)
  | data (b : List Byte)
  deriving DecidableEq, Repr

/-- Consecutive bytes of a destination with their source (R241). -/
structure Run where
  dst : Nat
  len : Nat
  src : Src
  deriving DecidableEq, Repr

/-- A burst that has arrived and waits in the engine with its data: its number, item, place in the item, list entry and
128 bytes (R250). -/
structure Burst where
  burst : Nat
  item : Nat
  part : Nat
  entry : Nat
  data : Nat
  deriving DecidableEq, Repr

/-- A command of the copy or catch engine (R236 to R254). -/
structure Cmd where
  id : Nat
  slice : Nat
  fn : Nat
  octet : List Word
  dst : Opd
  flag : Option Nat
  cls : Nat
  /-- granules completed (R241) -/
  progress : Nat
  /-- bursts whose handlers have ended or that failed (R241, R254) -/
  finished : List Nat
  failed : Nat
  code : Nat
  /-- the list entries read: item, code of a failed read or 0, entry (R249) -/
  items : List (Nat × Nat × Nat)
  /-- the command word, as a log entry names it (R347) -/
  pc : Word
  /-- the host translations that it waits for, each a 4 KiB page and what is needed of it; and those that failed while it
  waited for them (R369) -/
  wants : List (Nat × Need)
  bad : List (Nat × Need)
  /-- the transfers of a copy command whose checks have passed, and the translations it has taken into use (R240) -/
  plan : Option (List Run)
  held : List Leaf
  /-- the bursts that wait for a catch slot (R250) -/
  arrived : List Burst
  deriving DecidableEq, Repr

/-- Where a team stands (R389, R391). -/
inductive TeamSt where | running | draining
  deriving DecidableEq, Repr

/-- Why a team's halt was asked for: saved by pre-emption, held, or moved (R333, R388, R389, R402). -/
inductive HaltReason where
  | preempt
  /-- the cause, and the slices whose log entry the cause wrote -/
  | hold (cause : Nat) (logged : List Nat)
  /-- moved off a core that has grown hot -/
  | migrate (hot : Nat)
  | quiet
  deriving DecidableEq, Repr

/-- A resident or draining team (R8, R27, R395). -/
structure Team where
  uid : Nat
  launch : Nat
  part : Nat
  asid : Nat
  /-- the launch record, the role table and the team count of `s3` (R84, R85, R87) -/
  record : LRec
  roles : List RoleEnt
  no : Nat
  core : Nat
  st : TeamSt
  halt : Option HaltReason
  /-- a hold that is due after the pre-emption it met at one boundary: its cause, and the slices whose entry the cause
  wrote (R334) -/
  owed : Option (Nat × List Nat)
  slices : List Slice
  subs : List SubCrew
  joins : List JoinEnt
  bars : List Barrier
  pool : Nat
  claims : List Claim
  gather : List Arrival
  /-- the arrivals whose request is at the cox (R293) -/
  asked : List Arrival
  answer : Option Work
  work : Option Work
  lo : Nat
  hi : Nat
  cmds : List Cmd
  energy : BitVec 48
  esat : Bool
  scratch : Nat
  /-- scratchpad lines written since the last quiet point, by their place in the allocation (R400) -/
  lines : List Nat
  /-- µs of residency since the last start or restore (R388, R394) -/
  resid : Nat
  /-- the core's clock at the halt (R394) -/
  haltAt : Nat
  deriving DecidableEq, Repr

/-! ## The matrix engine -/

/-- A macro group; a cell is an element's code or value and its effective scale (R260, R261). -/
structure Group where
  mbase : Nat
  k : Nat
  n : Nat
  bf16 : Bool
  octet : List Word
  cells : List (List (BitVec 16 × Int))
  deriving DecidableEq, Repr

/-- A queued or running matrix command (R267, R268). -/
structure MCmd where
  id : Nat
  /-- 8 is `mload`; 0 to 6 are the MTX functions -/
  fn : Nat
  octet : List Word
  /-- slice, D, flag, WB at issue -/
  slices : List (Nat × Opd × Option Nat × Nat)
  started : Bool
  /-- the step-region descriptor as it was read (R277) -/
  desc : Option Nat
  step : Nat
  count : Nat
  /-- 128-byte granules written, of the row-tile reached (R288) -/
  progress : Nat
  /-- the translations the command holds, once its checks have passed (R240) -/
  held : Option (List Leaf)
  /-- what a register drain has read and not yet written: slice, register, lane, value (R190, R276) -/
  lanes : Option (List (Nat × Nat × Nat × Word))
  /-- the command word, as a log entry names it (R347) -/
  pc : Word
  /-- the host translation that it waits for: its 4 KiB page, and what is needed of it; and those that failed while it
  waited for them (R369) -/
  wants : Option (Nat × Need)
  bad : List (Nat × Need)
  deriving DecidableEq, Repr

/-- A bound skip slot (R278). -/
structure Skip where
  region : Nat
  phase : BitVec 24
  bits : BitVec 4096
  deriving DecidableEq, Repr

/-- A core's matrix engine (R257). Accumulator (block, row, column) is at key 1024 block + 64 row + column. -/
structure Engine where
  holder : Option Nat
  groups : List (Nat × Group)
  accs : NMap 32
  queue : List MCmd
  skips : List (Nat × Skip)
  /-- accumulator blocks written and skip slots changed since the last quiet point (R400) -/
  accMarks : List Nat
  skipMarks : List Nat
  deriving DecidableEq, Repr

/-- A core (R18, R137, R257). `waiting` is the entry queue, each a team and the first slice of a sub-crew; `issued` says that
a word has issued since the core's stalled sub-crews last tried (R20). -/
structure Core where
  id : Nat
  clock : Nat
  waiting : List (Nat × Nat)
  engine : Engine
  issued : Bool
  deriving DecidableEq, Repr

/-! ## Launches -/

/-- STATE of a continuation record (R297). -/
inductive ContSt where | pending | ready | taken | cancelled
  deriving DecidableEq, Repr

/-- A continuation record (R297), and the team that took it. -/
structure Cont where
  frame : Nat
  codeoff : Nat
  count : Nat
  handle : Nat
  st : ContSt
  readyseq : Nat
  takenBy : Nat
  /-- the events that precede the record's task lie at this time or before it (R141, R295) -/
  time : Nat
  deriving DecidableEq, Repr

/-- Where a launch stands (R380, R383). -/
inductive LaunchSt where | waiting | running | done | cancelled
  deriving DecidableEq, Repr

/-- A launch, its queue and its packet (R30 to R37, R379, R383). -/
structure Launch where
  uid : Nat
  part : Nat
  asid : Nat
  queue : Nat
  index : Nat
  /-- restored from a commit record: it has no LAUNCH packet (R380) -/
  restored : Bool
  record : LRec
  roles : List RoleEnt
  st : LaunchSt
  first : Nat
  count : Nat
  any : Bool
  mtx : Bool
  reads : List (Nat × Nat)
  writes : List (Nat × Nat)
  deps : List Nat
  pass : Nat
  /-- numbers of the numbers of the teams still to start (R30, R385) -/
  toStart : List Nat
  /-- cores that have been given a team of the launch (R30) -/
  started : List Nat
  /-- `s3` of its teams (R87) -/
  nteams : Nat
  nextNo : Nat
  /-- team 0's range until team 0 starts (R31) -/
  seed : Option (Nat × Nat)
  /-- teams whose core is being removed: released at their next `take` (R38) -/
  releasing : List Nat
  /-- teams blocked in `take`, in the order their requests reached the cox (R35, R293) -/
  waiters : List Nat
  orphans : List (Nat × Nat)
  conts : List Cont
  /-- handles issued so far (R297) -/
  handles : List Nat
  opno : Nat
  tasks : Dword
  /-- the launch counter has counted it (R44) -/
  counted : Bool
  lost : Bool
  /-- the cluster of the home cox; none until a core of the launch is chosen (R34) -/
  home : Option Nat
  /-- the home's die is fenced, and the master has named no new home: the launch's operations wait (R34) -/
  moving : Bool
  /-- it has been found exhausted: every later `take` of it returns *none* (R35) -/
  exhausted : Bool
  /-- its LAUNCH packet is the last read at its ring position (R423, R448) -/
  named : Bool
  /-- a team of it was lost with its die: it is not complete while work it held is undone (R387) -/
  stranded : Bool
  deriving DecidableEq, Repr

/-- A cancelled unit of levels 2 to 4, in its partition and address space (R45, R448). -/
structure Cancel where
  part : Nat
  asid : Nat
  job : Nat
  level : Nat
  id : Nat
  deriving DecidableEq, Repr

/-- A completion counter of R44: level 1 to 4 within its enclosing unit. -/
structure Counter where
  part : Nat
  level : Nat
  job : Nat
  graph : Nat
  phase : Nat
  value : Dword
  deriving DecidableEq, Repr

/-- A graph pass (R44). -/
structure Pass where
  uid : Nat
  part : Nat
  job : Nat
  graph : Nat
  phase : Nat
  closed : Bool
  lastj : Bool
  counted : Bool
  launches : Nat
  ended : Nat
  deriving DecidableEq, Repr

/-! ## Partitions, platform -/

/-- A host queue of a partition (R378, R423). -/
structure Queue where
  qbase : Dword
  cbase : Dword
  en : Bool
  vec : BitVec 7
  log2n : BitVec 4
  tail : Word
  head : Word
  deriving DecidableEq, Repr

/-- A packet that has been read and not completed: queue, index, kind of completion (R380, R382). -/
inductive Await where
  /-- a PREEMPT: the teams whose records are awaited and the count written -/
  | saves (teams : List Nat) (written : Nat)
  /-- a RESUME of saved teams: the records awaited -/
  | restores (records : List Nat)
  /-- a RESUME of a commit record: the launches awaited -/
  | launches (uids : List Nat)
  /-- a LAUNCH -/
  | launch (uid : Nat)
  deriving DecidableEq, Repr

/-- A packet awaiting completion, with the core set of a RESUME (R380). -/
structure Packet where
  part : Nat
  queue : Nat
  index : Nat
  await : Await
  asid : Nat
  first : Nat
  count : Nat
  any : Bool
  /-- the cores chosen so far for a RESUME with ANY = 1 (R385) -/
  chosen : List Nat
  deriving DecidableEq, Repr

/-- A partition: its page (R423), its resources (R427) and its context pool (R397). -/
structure Part where
  assigned : Bool
  clusters : BitVec 8
  /-- the frames of its pool, as (first frame address, frames), and those of them that are free and wiped -/
  frames : List (Nat × Nat)
  pool : List (Nat × Nat)
  ctxbase : Dword
  scode : Dword
  asidn : BitVec 16
  asid0 : BitVec 16
  logbase : Dword
  logn : BitVec 5
  /-- SEQ of the last fault-log entry; LOGHEAD shows its low 32 bits -/
  loghead : Dword
  logtail : Word
  loglost : Word
  svcmask : BitVec 256
  ewgt : BitVec 256
  elogbase : Dword
  elogn : BitVec 5
  eloghead : Dword
  elogtail : Word
  queues : List Queue
  ctxpool : Option (Nat × Nat)
  /-- reservations in the pool: (team or record key, base, bytes) -/
  resv : List (Nat × Nat × Nat)
  peerErrors : Nat
  deriving DecidableEq, Repr

/-- The management page of PF0 (R425). -/
structure Mgmt where
  step : BitVec 8
  st : BitVec 8
  fenced : BitVec 4
  fwver : Dword
  errata : Dword
  pkgid : BitVec 16
  lcs : BitVec 2
  go : Bool
  code : BitVec 8
  result : BitVec 8
  args : List Dword
  outs : List Dword
  deriving DecidableEq, Repr

/-- A translation held by a cluster TLB (place 0 to 7) or a die TLB (place 8 to 11) (R355, R360). -/
structure TlbEnt where
  place : Nat
  asid : Nat
  epoch : BitVec 8
  leaf : Leaf
  deriving DecidableEq, Repr

/-- A non-leaf entry held by a cluster's walk cache (R360). -/
structure WalkEnt where
  cluster : Nat
  asid : Nat
  epoch : BitVec 8
  level : Nat
  prefix_ : Nat
  entry : Dword
  deriving DecidableEq, Repr

/-- A host translation held by a die's ATS cache (R368). -/
structure AtsEnt where
  die : Nat
  asid : Nat
  epoch : BitVec 8
  leaf : Leaf
  /-- the host's own permissions, which R369 asks for beside the entry's -/
  hostR : Bool
  hostW : Bool
  deriving DecidableEq, Repr

/-- An ATS request that the host has not settled: the 4 KiB page, and whether it is a repeat after a Page
Response or waits for one (R367, R369). -/
structure AtsReq where
  die : Nat
  asid : Nat
  page : Nat
  write : Bool
  /-- the ATS entry as it was walked when the request was made (R359, R367) -/
  entry : Leaf
  again : Bool
  pri : Bool
  deriving DecidableEq, Repr

/-- A physical sector held in an L1 of a cluster (place 0 to 7; R129, R362) or in a die's chip-level slice (place 8
to 11; R128). `core` is the core whose L1 holds it (R1). -/
structure RmapEnt where
  place : Nat
  core : Nat
  sector : Nat
  vtag : Nat
  asid : Nat
  epoch : BitVec 8
  share : Share
  home : Home
  dirty : Bool
  /-- the lease of a coherent copy (R138), and the bytes of a copy that may fall behind memory: a COH or RDSH sector in
  an L1; none otherwise (R126, R138) -/
  lease : Nat
  /-- the write time of what the copy holds (R137, R138) -/
  wt : Nat
  copy : List Byte
  deriving DecidableEq, Repr

/-- A line sector that an instruction cache holds: the L1 of core `place`, or at place 512 + c the level of cluster c
(R151). `vtag`, `asid` and `epoch` are the tag of the L1 (R1, R355, R363). -/
structure ILine where
  place : Nat
  sector : Nat
  vtag : Nat
  asid : Nat
  epoch : BitVec 8
  bytes : List Byte
  deriving DecidableEq, Repr

/-- The home's record of a page's policy (R130). -/
structure Policy where
  page : Nat
  log : Nat
  share : Share
  home : Home
  deriving DecidableEq, Repr

/-- The owner of a PRIV page (R125). -/
structure Owner where
  page : Nat
  log : Nat
  core : Nat
  asid : Nat
  deriving DecidableEq, Repr

/-- A service batch (R350, R351). `lanes` gives crew lanes with their slice, lane and argument. -/
structure Batch where
  id : Nat
  team : Nat
  word : Word
  pc : Word
  wide : Bool
  dst : Opd
  crew : Nat
  /-- crew lane, slice, lane, argument, physical destination (none when discarded) -/
  lanes : List (Nat × Nat × Nat × Dword × Option Nat)
  flags : List (Nat × Option Nat)
  slot : Option Nat
  /-- the replies, once its server has written STATUS 1; they are written lane by lane before the flags fall (R190,
  R351) -/
  answer : Option (List Dword)
  /-- the words of the replies already written: place in `lanes`, word -/
  given : List (Nat × Nat)
  deriving DecidableEq, Repr

/-- An event of S (R131): when, who, where, and the bytes it replaced when it wrote. -/
structure Ev where
  time : Nat
  team : Nat
  slice : Nat
  lane : Nat
  pa : Nat
  size : Nat
  wrote : Bool
  old : Nat
  /-- a load, atomic, ordering point or fence bounds a speculative load (R146) -/
  bounds : Bool
  deriving DecidableEq, Repr

/-- STATE of a context record (R394). -/
inductive CtxSt where | draining | complete | held | restored | lost
  deriving DecidableEq, Repr

/-- A context record, kept as the team it holds (R394 to R396). -/
structure Ctx where
  id : Nat
  st : CtxSt
  snap : Bool
  part : Nat
  asid : Nat
  ltime : Nat
  team : Team
  engine : Option Engine
  pend : List PendOp
  /-- where its bytes stand in the context pool -/
  pa : Option Nat
  /-- scratchpad bytes of the allocation (R396, section 3) -/
  scratch : Memory
  deriving DecidableEq, Repr

/-- A memory-tier extent (R431, R432). -/
structure Extent where
  index : Nat
  port : Nat
  base : Nat
  bytes : Nat
  shared : Bool
  mask : BitVec 16
  revoked : Bool
  dropped : Nat
  firstDrop : Nat
  deriving DecidableEq, Repr

/-- An item of a checkpoint stream (R404). A sector is named by its physical address. -/
inductive Item where
  | sector (pa : Nat)
  /-- a register block, a scratchpad line, an accumulator block or a skip slot of a record of the cut: record, and for a
  register block the slice (R400) -/
  | regBlock (record slice block : Nat)
  | line (record n : Nat)
  | accBlock (record n : Nat)
  | skipSlot (record n : Nat)
  | snapshot (record : Nat)
  | queueStore (launch : Nat)
  | mapping (va : Nat)
  deriving DecidableEq, Repr

/-- What an interval holds beside its bytes (R404, R408): the job's records, launches, passes, counters and leaves at
the closing time, and the sectors streamed, each under its lowest virtual address. -/
structure Commit where
  pa : Nat
  part : Nat
  job : Nat
  k : Nat
  prev : Nat
  records : List Ctx
  launches : List Launch
  passes : List Pass
  counters : List Counter
  /-- the cancelled units of the job (R45) -/
  cancels : List Cancel
  leaves : List Leaf
  sectors : List (Nat × List Byte)
  deriving DecidableEq, Repr

/-- A closed interval being streamed (R401 to R404). -/
structure Stream where
  k : Nat
  tk : Nat
  /-- tier address of the header, and the commit record it builds on -/
  base : Nat
  prev : Nat
  full : Bool
  bytes : List Byte
  items : Nat
  /-- cores whose quiet point is not over, and those of them whose ARM has come (R402) -/
  toArm : List Nat
  arming : List Nat
  snaps : List Nat
  /-- the cut, once the quiet points are over, what of it is still to be streamed, and its dirty marks -/
  cut : Option Commit
  todo : List Item
  marks : List Nat
  /-- pre-images in the capture buffer: sector and its value at T_k, none of one that was poisoned (R403, R445) -/
  captured : List (Nat × List Byte)
  deriving DecidableEq, Repr

/-- The checkpoint state of a tracked job (R400 to R407). -/
structure Job where
  part : Nat
  id : Nat
  asid : Nat
  region : Nat
  bytes : Nat
  used : Nat
  status : Nat
  ceiling : Nat
  /-- the closing time of the last interval closed (R401) -/
  closed : Nat
  based : Bool
  nextK : Nat
  lastK : Nat
  lastCommit : Nat
  aborted : Bool
  full : Bool
  fullNext : Bool
  dirty : List Nat
  stream : Option Stream
  deriving DecidableEq, Repr

/-- An ATS invalidation whose completion is owed (R370). -/
structure Inval where
  id : Nat
  pasid : Nat
  /-- outstanding operations that translated through a removed entry -/
  ops : List Nat
  /-- engine commands that hold a translation of a removed entry (R240) -/
  cmds : List Nat
  deriving DecidableEq, Repr

/-- What the package has sent out on a link: DEV, host, tier or peer transactions, and MSI-X messages. -/
inductive Sent where
  | write (pa : Nat) (bytes : List Byte)
  | read (pa size : Nat)
  | msix (function vector : Nat)
  | atsRequest (die pasid page : Nat) (write : Bool)
  | pageRequest (die pasid page : Nat) (write : Bool)
  /-- a request to a peer: its source and target packages, the import-table index, the key, the offset, the bytes, the
  kind (0 a read, 1 a write, 2 an atomic), the atomic's function and the operand or data (R376) -/
  | ridgeRequest (source target exportIdx key offset size kind fn : Nat) (data : List Byte)
  | invalidateCompletion (pasid : Nat)
  | ridgeError (source : Nat)
  | ridgeReply (source : Nat) (bytes : List Byte)
  | ingressData (pa : Nat) (bytes : List Byte)
  /-- a read of a peer, or of another external agent, that met poison (R339, R445) -/
  | ridgePoison (source : Nat)
  | ingressPoison (pa : Nat)
  | backInvalidate (pa : Nat)
  | flitRetry (port : Nat)
  | extentReleased (index : Nat)
  deriving DecidableEq, Repr

/-- What waits in the hardware FIFOs of a firmware update, in order of arrival: a doorbell, or a `cancel` or `uintr` of a
sub-crew (R439). -/
inductive Waiting where
  | tail (part queue : Nat) (value : Word)
  | user (part : Nat) (value : Dword)
  | word (team slice : Nat)
  deriving DecidableEq, Repr

/-- An entry of a partition's translated-image cache: the clause's physical address, the write time of its sector, and the
errata bits it depends on (R440). -/
structure Image where
  part : Nat
  pa : Nat
  time : Nat
  mask : Dword
  deriving DecidableEq, Repr

/-- The caches whose entries the device may replace at any time (R129, R151, R360, R362, R368). -/
inductive Cache where | tlb | walks | ats | sectors | lines
  deriving DecidableEq, Repr

/-- What happens next: an event, or an issue by a core (R46, R335; log 1). -/
inductive Act where
  | event (i : Instr)
  | issue (core : Nat)
  /-- one access of an operation takes its event, or tries again what no longer waits (R134, R139, R220) -/
  | perform (op access : Nat)
  /-- one word of a lane's loaded data is written before the flag falls (R190) -/
  | deliver (op access lane word : Nat)
  /-- the operands of two `.com` additions are combined in the fabric (R142, R143) -/
  | combine (op access op' access' : Nat)
  /-- an engine command carries out some of its granules (R148, R241) -/
  | engineStep (team cmd granules : Nat)
  /-- a running drain writes some of its granules, or one word of its registers (R148, R190, R288) -/
  | drainStep (core n : Nat)
  /-- a sector of external memory becomes visible outside the package as it stands (R153) -/
  | reveal (sector : Nat)
  /-- one word of a service reply is written before the flag falls: batch, place in its lanes, word (R190, R351) -/
  | replyWord (batch place word : Nat)
  /-- an uncorrectable error in a word of a register file (R445) -/
  | regError (team slice reg lane : Nat)
  /-- an uncorrectable error in a scalar register (R445) -/
  | scalarError (team slice key : Nat)
  /-- a tier device marks a sector poisoned (R420) -/
  | poisonTier (pa : Nat)
  /-- firmware puts a rewritten clause into the translated-image cache (R440) -/
  | rewrite (part pa : Nat) (mask : Dword)
  /-- the device replaces an entry of a cache, by its place in the list of the state (R360, R362) -/
  | replace (cache : Cache) (entry : Nat)
  /-- another package commits an interval in an extent of the memory tier that both hold: its stream, where that stands,
  and its commit record, with what the stream's items say (R404, R408) -/
  | tierCommit (c : Commit) (base : Nat) (stream record : List Byte)
  deriving DecidableEq, Repr

/-- The sub-crew or thread that is issuing: its team and its slices (log 1). -/
structure Cur where
  team : Nat
  members : List Nat
  /-- the host translations that failed while it waited for them (R369) -/
  bad : List (Nat × Need)
  deriving DecidableEq, Repr

/-- The package. -/
structure State where
  mem : Memory
  poison : List Nat
  hist : List Ev
  nonce : Nat
  agenda : List Act
  cur : Option Cur
  /-- the host translation that the act under way has come to wait for (R367) -/
  want : Option (Nat × Need)
  mgmt : Mgmt
  staged : Option (List Byte)
  parts : List Part
  cores : List Core
  teams : List Team
  saved : List Ctx
  launches : List Launch
  counters : List Counter
  passes : List Pass
  /-- cancelled units that are not complete (R45) -/
  cancels : List Cancel
  packets : List Packet
  pend : List PendOp
  batches : List Batch
  tlb : List TlbEnt
  wcache : List WalkEnt
  atsc : List AtsEnt
  atsq : List AtsReq
  /-- host pages the front end may not read: ASID and 4 KiB page (R369, R381) -/
  feBad : List (Nat × Nat × Need)
  epochs : NMap 8
  rmap : List RmapEnt
  ilines : List ILine
  /-- sectors of external memory whose last writes external agents may not see yet, as they see them (R153) -/
  hidden : List (Nat × List Byte)
  policy : List Policy
  owners : List Owner
  wts : NMap 64
  rts : NMap 64
  /-- the place in each die's service ring that follows the batch last placed (R351) -/
  svcRing : NMap 16
  /-- the logical clocks of the agents that are no core: the front end and its like, and the ingress agent of each link
  (R137, R152) -/
  agents : NMap 64
  egress : NMap 128
  imports : NMap 256
  extents : List Extent
  ports : List Nat
  jobs : List Job
  /-- what the committed intervals in the memory tier hold (R404) -/
  commits : List Commit
  invals : List Inval
  quiesce : List Nat
  retired : List (Nat × Nat)
  reports : NMap 64
  /-- the die whose distributor is the master; none until the next is named (R386) -/
  master : Option Nat
  /-- teams lost with their die whose reissue the master has still to perform (R387) -/
  lostTeams : List Team
  /-- the partition the front end serves next, and the next queue of each (R378) -/
  turn : Nat
  turns : NMap 8
  fifo : List Waiting
  images : List Image
  /-- soft errors corrected so far (R445) -/
  corrected : Nat
  sent : List Sent
  /-- the next name of a launch, team, record, operation, command or batch -/
  fresh : Nat
  deriving DecidableEq, Repr

/-- Why the machine stops. -/
inductive Fault where
  /-- raised by a step of a package whose boot check failed: STATE = FAIL, the package halts (R446). Safe: the
  spec gives such a package no further action. -/
  | packageHalted
  deriving DecidableEq, Repr

/-- Why an instruction has no meaning. -/
inductive Refusal where
  /-- raised by no meaning of this model: an arm of `exec` not yet written. Safe. -/
  | notModelled (mnemonic : String)
  deriving DecidableEq, Repr

/-! ## Reset -/

/-- A queue after reset (R423). -/
def Queue.reset : Queue where
  qbase := 0
  cbase := 0
  en := false
  vec := 0
  log2n := 0
  tail := 0
  head := 0

/-- An unassigned partition: every field of its page at its reset value (R423, R446 step 7). -/
def Part.reset : Part where
  assigned := false
  clusters := 0
  frames := []
  pool := []
  ctxbase := 0
  scode := 0
  asidn := 0
  asid0 := 0
  logbase := 0
  logn := 0
  loghead := 0
  logtail := 0
  loglost := 0
  svcmask := 0
  ewgt := 0
  elogbase := 0
  elogn := 0
  eloghead := 0
  elogtail := 0
  queues := List.replicate 16 Queue.reset
  ctxpool := none
  resv := []
  peerErrors := 0

/-- The management page at reset (R425): every field 0 but the fused ones (log 4). -/
def Mgmt.reset : Mgmt where
  step := 0
  st := 0
  fenced := 0
  fwver := 0
  errata := 0
  pkgid := Config.pkgId
  lcs := Config.lifeCycle
  go := false
  code := 0
  result := 0
  args := List.replicate 8 0
  outs := List.replicate 4 0

/-- A wiped matrix engine (R259). -/
def Engine.wiped : Engine where
  holder := none
  groups := []
  accs := []
  queue := []
  skips := []
  accMarks := []
  skipMarks := []

/-- A core that has held no team. -/
def Core.idle (id : Nat) : Core where
  id := id
  clock := 0
  waiting := []
  issued := false
  engine := Engine.wiped

/-- The package after reset: nothing resident, memory wiped (R428), the boot not yet run (R446). -/
def State.reset : State where
  mem := []
  poison := []
  hist := []
  nonce := 0
  agenda := []
  cur := none
  want := none
  mgmt := Mgmt.reset
  staged := none
  parts := List.replicate 16 Part.reset
  cores := []
  teams := []
  saved := []
  launches := []
  counters := []
  passes := []
  cancels := []
  packets := []
  pend := []
  batches := []
  tlb := []
  wcache := []
  atsc := []
  atsq := []
  feBad := []
  epochs := []
  rmap := []
  ilines := []
  hidden := []
  policy := []
  owners := []
  wts := []
  rts := []
  svcRing := []
  agents := []
  egress := []
  imports := []
  extents := []
  ports := List.replicate 4 512
  jobs := []
  commits := []
  invals := []
  quiesce := []
  retired := []
  reports := []
  master := none
  lostTeams := []
  turn := 0
  turns := []
  fifo := []
  images := []
  corrected := 0
  sent := []
  fresh := 1

end Sys2Proof.Machine
end

