-- ==== Sys2Proof/Machine/Map.lean ====
section
/-! DEFINITION. Sparse maps and memory bytes: reading, writing in canonical form, and words made of bytes in the one
byte order of R2. -/

namespace Sys2Proof.Machine

/-! ## Sparse maps -/

/-- The word at a key; an unlisted key holds 0. -/
def nget {w : Nat} : NMap w → Nat → BitVec w
  | [], _ => 0
  | (k, v) :: r, a => if k = a then v else nget r a

/-- A map without the entry at a key. -/
def nerase {w : Nat} : NMap w → Nat → NMap w
  | [], _ => []
  | (k, v) :: r, a => if k = a then nerase r a else (k, v) :: nerase r a

/-- A map with an entry before the first of a higher key. -/
def ninsert {w : Nat} : NMap w → Nat → BitVec w → NMap w
  | [], a, v => [(a, v)]
  | (k, x) :: r, a, v => if a < k then (a, v) :: (k, x) :: r else (k, x) :: ninsert r a v

/-- A map after the word at a key is written, in canonical form. -/
def nset {w : Nat} (m : NMap w) (a : Nat) (v : BitVec w) : NMap w :=
  if v = 0 then nerase m a else ninsert (nerase m a) a v

/-- The canonical form: keys strictly rising, no entry equal to 0. -/
def nwf {w : Nat} : NMap w → Bool
  | [] => true
  | [(_, v)] => v != 0
  | (k, v) :: (k', v') :: r => decide (k < k') && v != 0 && nwf ((k', v') :: r)

/-- The entries of a map whose keys lie outside `[lo, hi)`. -/
def ndrop {w : Nat} (m : NMap w) (lo hi : Nat) : NMap w := m.filter (fun e => e.1 < lo || hi ≤ e.1)

/-! ## Memory -/

/-- The canonical form of memory: addresses strictly rising, no byte equal to 0. -/
abbrev Memory.wf (m : Memory) : Bool := nwf (w := 8) m

/-- One byte of memory; an unlisted byte reads 0 (R428; log 3). -/
def Memory.byte (m : Memory) (a : Nat) : Byte := nget (w := 8) m a

/-- Memory after one byte is written. -/
def Memory.setByte (m : Memory) (a : Nat) (b : Byte) : Memory := nset (w := 8) m a b

/-- `n` bytes from `a` upward. -/
def Memory.bytes (m : Memory) (a : Nat) : Nat → List Byte
  | 0 => []
  | n + 1 => m.byte a :: m.bytes (a + 1) n

/-- Memory after a list of bytes is written from `a` upward. -/
def Memory.setBytes (m : Memory) (a : Nat) : List Byte → Memory
  | [] => m
  | b :: r => (m.setByte a b).setBytes (a + 1) r

/-- The number whose little-endian bytes are these (R2). -/
def natOfBytes : List Byte → Nat
  | [] => 0
  | b :: r => b.toNat + 256 * natOfBytes r

/-- The `n` low bytes of a number, little-endian (R2). -/
def bytesOfNat : Nat → Nat → List Byte
  | 0, _ => []
  | n + 1, x => BitVec.ofNat 8 x :: bytesOfNat n (x / 256)

/-- The little-endian number in `n` bytes from `a`. -/
def Memory.nat (m : Memory) (a n : Nat) : Nat := natOfBytes (m.bytes a n)

/-- Memory after a little-endian number is written in `n` bytes from `a`. -/
def Memory.setNat (m : Memory) (a n x : Nat) : Memory := m.setBytes a (bytesOfNat n x)

/-- Memory with every byte of `[a, a + n)` equal to 0. -/
def Memory.wipe (m : Memory) (a n : Nat) : Memory := ndrop (w := 8) m a (a + n)

/-! ## Fields of numbers -/

/-- Bits `[hi:lo]` of a number. -/
def bits (x hi lo : Nat) : Nat := (x >>> lo) % 2 ^ (hi + 1 - lo)

/-- Bit `i` of a number. -/
def bit (x i : Nat) : Bool := x.testBit i

/-- A number as a signed integer of `w` bits. -/
def sint (w x : Nat) : Int := (BitVec.ofNat w x).toInt

/-- The first `n` that satisfies a test, among `0` to `k - 1`. -/
def findBelow (k : Nat) (p : Nat → Bool) : Option Nat := (List.range k).find? p

/-- The number with bit `i` set for each member. -/
def maskOf (l : List Nat) : Nat := l.foldl (fun m i => m ||| 1 <<< i) 0

/-- A list with a number inserted in rising order, without repeats. -/
def insertNat (a : Nat) : List Nat → List Nat
  | [] => [a]
  | b :: r => if a = b then b :: r else if a < b then a :: b :: r else b :: insertNat a r

/-- The numbers of a list in rising order, without repeats. -/
def sortNat (l : List Nat) : List Nat := l.foldl (fun r a => insertNat a r) []

/-- An element inserted before the first that is not smaller by a key. -/
def insertBy {α : Type} (key : α → Nat) (a : α) : List α → List α
  | [] => [a]
  | b :: r => if key a < key b then a :: b :: r else b :: insertBy key a r

/-- A list in rising order of a key; equals keep their order. -/
def sortBy {α : Type} (key : α → Nat) (l : List α) : List α := l.foldl (fun r a => insertBy key a r) []

/-- The element with the least key, the first of equals. -/
def minBy {α : Type} (key : α → Nat) : List α → Option α
  | [] => none
  | a :: r =>
    match minBy key r with
    | none => some a
    | some b => if key b < key a then some b else some a

/-- A list without its repeats, first occurrences kept. -/
def dedup {α : Type} [DecidableEq α] (l : List α) : List α :=
  l.foldl (fun r a => if a ∈ r then r else r ++ [a]) []

/-- The pieces of `[a, a + n)` that lie in single aligned blocks of `g` bytes, as (address, size). -/
def pieces (g a n : Nat) : List (Nat × Nat) :=
  let first := a / g
  let last := (a + n - 1) / g
  if n = 0 then [] else
    (List.range (last + 1 - first)).map (fun k =>
      let lo := max a ((first + k) * g)
      let hi := min (a + n) ((first + k + 1) * g)
      (lo, hi - lo))

/-- `⌈a / b⌉`. -/
def ceilDiv (a b : Nat) : Nat := (a + b - 1) / b

/-- A virtual address is canonical when bits [63:57] equal bit 56 (R1). -/
def canonical (a : Nat) : Bool := bits a 63 57 == (if bit a 56 then 127 else 0)

/-- Every byte of `[a, a + n)` exists and is canonical (R219 check 1). -/
def canonicalRange (a n : Nat) : Bool :=
  decide (a + n ≤ 2 ^ 64) && canonical a && canonical (a + (n - 1)) && (n == 0 || (bits a 63 56 == bits (a + (n - 1)) 63 56))

end Sys2Proof.Machine
end

