-- ==== Sys2Proof/Machine/Number.lean ====
section
/-! DEFINITION. Numbers: the IEEE formats, exact dyadic values, rounding and its flags, the L formats and
quantisation (R89 to R113). -/

namespace Sys2Proof.Machine

/-! ## Formats and values -/

/-- An IEEE interchange format by its exponent and fraction widths (R90). -/
structure Fmt where
  eb : Nat
  fb : Nat
  deriving DecidableEq, Repr

/-- binary32 (R90). -/
def f32 : Fmt := { eb := 8, fb := 23 }
/-- binary16 (R90). -/
def f16 : Fmt := { eb := 5, fb := 10 }
/-- bfloat16 (R90). -/
def bf16 : Fmt := { eb := 8, fb := 7 }

/-- Rounding modes (R56). -/
inductive Rm where | rne | rtz | rup | rdn
  deriving DecidableEq, Repr

/-- FPC.RM by its code (R56). -/
def rmOf (fpc : BitVec 4) : Rm :=
  match (fpc.setWidth 2).toNat with
  | 0 => .rne
  | 1 => .rtz
  | 2 => .rup
  | _ => .rdn

/-- A value of a format: a NaN, an infinity, or `± m × 2^e`. -/
inductive Fp where
  | nan (signalling : Bool)
  | inf (neg : Bool)
  | num (neg : Bool) (m : Nat) (e : Int)
  deriving DecidableEq, Repr

/-- The flags of FPS (R56). -/
def flagNV : BitVec 5 := 1
/-- DZ (R56). -/
def flagDZ : BitVec 5 := 2
/-- OF (R56). -/
def flagOF : BitVec 5 := 4
/-- UF (R56). -/
def flagUF : BitVec 5 := 8
/-- NX (R56). -/
def flagNX : BitVec 5 := 16

/-- The bias of a format (R90). -/
def Fmt.bias (f : Fmt) : Nat := 2 ^ (f.eb - 1) - 1

/-- The exponent of the smallest normal (R90). -/
def Fmt.emin (f : Fmt) : Int := 1 - (f.bias : Int)

/-- The code of +∞. -/
def Fmt.infCode (f : Fmt) : Nat := (2 ^ f.eb - 1) <<< f.fb

/-- The default NaN (R92). -/
def Fmt.nanCode (f : Fmt) : Nat := f.infCode + 2 ^ (f.fb - 1)

/-- The sign bit as a number. -/
def Fmt.signCode (f : Fmt) (neg : Bool) : Nat := if neg then 2 ^ (f.eb + f.fb) else 0

/-- The value a code stands for (R90). -/
def Fmt.decode (f : Fmt) (x : Nat) : Fp :=
  let neg := bit x (f.eb + f.fb)
  let ex := bits x (f.eb + f.fb - 1) f.fb
  let fr := x % 2 ^ f.fb
  if ex = 2 ^ f.eb - 1 then
    if fr = 0 then .inf neg else .nan (!bit fr (f.fb - 1))
  else if ex = 0 then .num neg fr (f.emin - f.fb)
  else .num neg (fr + 2 ^ f.fb) ((ex : Int) - f.bias - f.fb)

/-- Whether a rounding goes up by one unit, from the discarded part and half a unit. -/
def roundsUp (rm : Rm) (neg : Bool) (r rem half : Nat) : Bool :=
  match rm with
  | .rne => decide (half < rem) || (rem == half && r % 2 == 1)
  | .rtz => false
  | .rup => !neg && rem != 0
  | .rdn => neg && rem != 0

/-- `m × 2^k` rounded to an integer, and whether it was exact. -/
def roundInt (rm : Rm) (neg : Bool) (m : Nat) (k : Int) : Nat × Bool :=
  match k with
  | .ofNat k => (m <<< k, true)
  | .negSucc d =>
    let d := d + 1
    let r := m >>> d
    let rem := m - r <<< d
    if roundsUp rm neg r (2 * rem) (1 <<< d) then (r + 1, rem == 0) else (r, rem == 0)

/-- The exact nonzero value `± m × 2^e` rounded into a format, with OF, UF and NX (R93, R95). -/
def Fmt.roundNum (f : Fmt) (rm : Rm) (neg : Bool) (m : Nat) (e : Int) : Nat × BitVec 5 :=
  if m = 0 then (f.signCode neg, 0)
  else
    -- a value far below the least subnormal rounds like any other such value
    let small := (m.log2 : Int) + e < f.emin - f.fb - 2
    let m := if small then 1 else m
    let e := if small then f.emin - f.fb - 3 else e
    let ex := (m.log2 : Int) + e
    let sub := ex < f.emin
    let r := roundInt rm neg m (e - (max ex f.emin - f.fb))
    let code := if sub then r.1 else ((ex + f.bias).toNat <<< f.fb) + (r.1 - 2 ^ f.fb)
    let free := roundInt rm neg m (e - (ex - f.fb))
    let tiny := sub && !(ex + 1 == f.emin && free.1 == 2 ^ (f.fb + 1))
    if f.infCode ≤ code then
      let away := match rm with
        | .rne => true
        | .rtz => false
        | .rup => !neg
        | .rdn => neg
      (f.signCode neg + (if away then f.infCode else f.infCode - 1), flagOF ||| flagNX)
    else (f.signCode neg + code, if r.2 then 0 else if tiny then flagUF ||| flagNX else flagNX)

/-- A value written in a format (R92, R93). -/
def Fmt.round (f : Fmt) (rm : Rm) : Fp → Nat × BitVec 5
  | .nan s => (f.nanCode, if s then flagNV else 0)
  | .inf n => (f.signCode n + f.infCode, 0)
  | .num n m e => f.roundNum rm n m e

/-! ## Exact arithmetic -/

/-- `± m × 2^e` as an integer over `2^c`, for `c ≤ e`. -/
def scaled (neg : Bool) (m : Nat) (e c : Int) : Int :=
  let v : Int := (m <<< (e - c).toNat : Nat)
  if neg then -v else v

/-- The exact sum of two finite values; an exact zero takes the sign of R199. -/
def addNum (rm : Rm) (n1 : Bool) (m1 : Nat) (e1 : Int) (n2 : Bool) (m2 : Nat) (e2 : Int) : Fp :=
  if m1 = 0 && m2 = 0 then .num (if n1 == n2 then n1 else rm == .rdn) 0 0
  else if m1 = 0 then .num n2 m2 e2
  else if m2 = 0 then .num n1 m1 e1
  else
    let c := min e1 e2
    let v := scaled n1 m1 e1 c + scaled n2 m2 e2 c
    if v = 0 then .num (rm == .rdn) 0 0 else .num (decide (v < 0)) v.natAbs c

/-- Whether an input is a NaN. -/
def Fp.isNan : Fp → Bool
  | .nan _ => true
  | .inf _ | .num _ _ _ => false

/-- Whether an input is a signalling NaN. -/
def Fp.isSnan : Fp → Bool
  | .nan s => s
  | .inf _ | .num _ _ _ => false

/-- NV when some input is a signalling NaN (R92). -/
def snanFlag (l : List Fp) : BitVec 5 := if l.any Fp.isSnan then flagNV else 0

/-- A value with its sign changed. -/
def Fp.neg : Fp → Fp
  | .nan s => .nan s
  | .inf n => .inf (!n)
  | .num n m e => .num (!n) m e

/-- The exact sum of two values that are no NaN; `none` when it is invalid (R200). -/
def addFp (rm : Rm) : Fp → Fp → Option Fp
  | .inf a, .inf b => if a = b then some (.inf a) else none
  | .inf a, _ => some (.inf a)
  | _, .inf b => some (.inf b)
  | .num n1 m1 e1, .num n2 m2 e2 => some (addNum rm n1 m1 e1 n2 m2 e2)
  | .nan _, _ | _, .nan _ => none

/-- The exact product of two values that are no NaN; `none` when it is invalid (R200). -/
def mulFp : Fp → Fp → Option Fp
  | .inf a, .inf b => some (.inf (a != b))
  | .inf a, .num b m _ => if m = 0 then none else some (.inf (a != b))
  | .num b m _, .inf a => if m = 0 then none else some (.inf (a != b))
  | .num n1 m1 e1, .num n2 m2 e2 => some (.num (n1 != n2) (m1 * m2) (e1 + e2))
  | .nan _, _ | _, .nan _ => none

/-- The default NaN with NV. -/
def Fmt.invalid (f : Fmt) : Nat × BitVec 5 := (f.nanCode, flagNV)

/-- `a + b` in a format (R200). -/
def Fmt.add (f : Fmt) (rm : Rm) (a b : Fp) : Nat × BitVec 5 :=
  if a.isNan || b.isNan then (f.nanCode, snanFlag [a, b])
  else match addFp rm a b with
    | some v => f.round rm v
    | none => f.invalid

/-- `a × b` in a format (R200). -/
def Fmt.mul (f : Fmt) (rm : Rm) (a b : Fp) : Nat × BitVec 5 :=
  if a.isNan || b.isNan then (f.nanCode, snanFlag [a, b])
  else match mulFp a b with
    | some v => f.round rm v
    | none => f.invalid

/-- `a × b + d` in a format, rounded once; ∞ × 0 is invalid even beside a quiet NaN addend (R200). -/
def Fmt.fma (f : Fmt) (rm : Rm) (a b d : Fp) : Nat × BitVec 5 :=
  if a.isNan || b.isNan then (f.nanCode, snanFlag [a, b, d])
  else match mulFp a b with
    | none => f.invalid
    | some p =>
      if d.isNan then (f.nanCode, snanFlag [d])
      else match addFp rm p d with
        | some v => f.round rm v
        | none => f.invalid

/-- Whether `a < b`, for two values that are no NaN; −0 and +0 are equal. -/
def Fp.lt : Fp → Fp → Bool
  | .inf a, .inf b => a && !b
  | .inf a, _ => a
  | _, .inf b => !b
  | .num n1 m1 e1, .num n2 m2 e2 =>
    let c := min e1 e2
    decide (scaled n1 m1 e1 c < scaled n2 m2 e2 c)
  | .nan _, _ | _, .nan _ => false

/-- Whether `a = b`, for two values that are no NaN; −0 and +0 are equal. -/
def Fp.eqv (a b : Fp) : Bool := !a.isNan && !b.isNan && !a.lt b && !b.lt a

/-- The sign of a value that is no NaN. -/
def Fp.isNeg : Fp → Bool
  | .nan _ => false
  | .inf n => n
  | .num n _ _ => n

/-- The lesser or greater of two codes, −0 below +0 (R201). -/
def Fmt.minmax (f : Fmt) (wantMax : Bool) (x y : Nat) : Nat × BitVec 5 :=
  let a := f.decode x
  let b := f.decode y
  let fl := snanFlag [a, b]
  if a.isNan && b.isNan then (f.nanCode, fl)
  else if a.isNan then (y, fl)
  else if b.isNan then (x, fl)
  else
    let aLess := a.lt b || (a.eqv b && a.isNeg && !b.isNeg)
    (if aLess == wantMax then y else x, fl)

/-- The class number of R164. -/
def Fmt.classOf (f : Fmt) (x : Nat) : Nat :=
  match f.decode x with
  | .nan s => if s then 8 else 9
  | .inf n => if n then 0 else 7
  | .num n m _ =>
    let ex := bits x (f.eb + f.fb - 1) f.fb
    if m = 0 then (if n then 3 else 4)
    else if ex = 0 then (if n then 2 else 5)
    else (if n then 1 else 6)

/-- A subnormal input read as a zero of its sign when the flush bit is set (R91). -/
def Fmt.flushIn (f : Fmt) (on : Bool) (x : Nat) : Nat :=
  if on && bits x (f.eb + f.fb - 1) f.fb == 0 then f.signCode (bit x (f.eb + f.fb)) else x

/-- A subnormal result written as a zero of its sign, with UF and NX, when the flush bit is set (R91). -/
def Fmt.flushOut (f : Fmt) (on : Bool) (r : Nat × BitVec 5) : Nat × BitVec 5 :=
  if on && bits r.1 (f.eb + f.fb - 1) f.fb == 0 && r.1 % 2 ^ f.fb != 0 then
    (f.signCode (bit r.1 (f.eb + f.fb)), r.2 ||| flagUF ||| flagNX)
  else r

/-! ## The L formats -/

/-- The linear table T (R96). -/
def gridT : Nat → Nat
  | 0 => 65536
  | 1 => 77935
  | 2 => 92682
  | _ => 110217

/-- g(n) as a mantissa and an exponent (R96). -/
def grid (n : Int) : Nat × Int := (gridT (n.emod 4).toNat, n.ediv 4 - 16)

/-- A code of an L format as an L6 code, `w` bits wide (R97, R98). -/
def toL6 (w c : Nat) : Nat :=
  let s := bit c (w - 1)
  let e := c % 2 ^ (w - 1)
  let f := if e = 0 then 0 else if w = 6 then e else if w = 5 then 2 * e else 2 * e + 8
  (if s then 32 else 0) + f

/-- The value of an L6 code under an effective quarter-scale (R99); a NaR is a quiet NaN here. -/
def lValue (c : Nat) (sc : Int) : Fp :=
  let e := c % 32
  let s := bit c 5
  if e = 0 then (if s then .nan false else .num false 0 0)
  else
    let g := grid ((e : Int) - 16 + sc)
    .num s g.1 g.2

/-- Whether `m1 × 2^e1 ≤ m2 × 2^e2`, decided by the leading bits first so that no large power is formed. -/
def magLe (m1 : Nat) (e1 : Int) (m2 : Nat) (e2 : Int) : Bool :=
  if m1 = 0 then true
  else if m2 = 0 then false
  else
    let t1 := (m1.log2 : Int) + e1
    let t2 := (m2.log2 : Int) + e2
    if t1 < t2 then true
    else if t2 < t1 then false
    else
      let c := min e1 e2
      decide (m1 <<< (e1 - c).toNat ≤ m2 <<< (e2 - c).toNat)

/-- The rungs of R106: the L6 log fields of the nonzero codes of a format `w` bits wide. -/
def ladder (w : Nat) : List Nat :=
  if w = 6 then (List.range 31).map (· + 1)
  else if w = 5 then (List.range 15).map (fun k => 2 * k + 2)
  else (List.range 7).map (fun k => 2 * k + 10)

/-- The log field of a rung in its own format (R106). -/
def ownField (w e : Nat) : Nat := if w = 6 then e else if w = 5 then e / 2 else (e - 8) / 2

/-- lo(E) of R106 for a rung and the rung before it. -/
def rungLo (sc : Int) (prev : Option Nat) (e : Nat) : Nat × Int :=
  let g := grid ((e : Int) - 16 + sc)
  match prev with
  | none => g
  | some p =>
    let h := grid ((p : Int) - 16 + sc)
    let c := min g.2 h.2
    ((g.1 <<< (g.2 - c).toNat) + (h.1 <<< (h.2 - c).toNat), c - 1)

/-- The largest rung with lo(E) ≤ m, ties to the even own field (R106). -/
def rungOf (w : Nat) (sc : Int) (m : Nat) (e : Int) : Option Nat → List Nat → Option Nat
  | prev, [] => prev
  | prev, r :: rest =>
    let lo := rungLo sc prev r
    if magLe lo.1 lo.2 m e then
      if prev.isSome && magLe m e lo.1 lo.2 && ownField w r % 2 == 1 then prev
      else rungOf w sc m e (some r) rest
    else prev

/-- `l_quant`: a binary32 value as a code of an L format `w` bits wide (R106). -/
def lQuant (w : Nat) (x : Nat) (sc : Int) : Nat :=
  let top := (ladder w).getLastD 0
  let code := fun (s : Bool) (e : Nat) => (if s then 2 ^ (w - 1) else 0) + ownField w e
  match f32.decode x with
  | .nan _ => 2 ^ (w - 1)
  | .inf n => code n top
  | .num n m e =>
    match rungOf w sc m e none (ladder w) with
    | none => 0
    | some r => code n r

/-- The block scale σ of R105: the least with every finite source element within g(N_F + σ). -/
def blockScale (w : Nat) (xs : List Nat) : Int :=
  let nf : Int := if w = 6 then 15 else if w = 5 then 14 else 6
  let mags := xs.filterMap (fun x => match f32.decode x with
    | .num _ m e => if m = 0 then none else some (m, e)
    | .nan _ | .inf _ => none)
  if mags.isEmpty then 0
  else
    let fits := fun (k : Nat) =>
      let g := grid (nf + (k : Int) - 128)
      mags.all (fun p => magLe p.1 p.2 g.1 g.2)
    match findBelow 256 fits with
    | some k => (k : Int) - 128
    | none => 127

/-- The bits of a list of codes, each `w` wide, as one little-endian string (R101). -/
def packCodes (w : Nat) : List Nat → Nat
  | [] => 0
  | c :: r => c + 2 ^ w * packCodes w r

/-- The 64-byte block `qcopy` writes for 64 elements (R105 to R108). -/
def quantBlock (w : Nat) (xs : List Nat) : List Byte :=
  let sc := blockScale w xs
  let codes := xs.map (fun x => lQuant w x sc)
  if codes.all (· == 0) then List.replicate 64 0
  else
    let body := bytesOfNat (8 * w) (packCodes w codes)
    [BitVec.ofNat 8 (0x10 + w), BitVec.ofInt 8 sc] ++ body ++ List.replicate (62 - 8 * w) 0

/-- A block decoded: the 64 L6 codes with their effective scales; none on a format fault (R100 to R103). -/
def decodeBlock (b : List Byte) : Option (List (Nat × Int)) :=
  let fmt := (b.headD 0).toNat
  if fmt = 0 then some (List.replicate 64 (0, 0))
  else if fmt = 0x14 || fmt = 0x15 || fmt = 0x16 then
    let w := fmt - 0x10
    let n := natOfBytes (b.drop 2)
    let sc := ((b.drop 1).headD 0).toInt
    let subs := b.drop (2 + 8 * w)
    some ((List.range 64).map (fun i =>
      (toL6 w ((n >>> (w * i)) % 2 ^ w), sc + ((subs.drop (i / 16)).headD 0).toInt)))
  else none

/-- `cvt.f32.l6` (R109). -/
def cvtF32L6 (c : Nat) (sc : Int) : Nat × BitVec 5 :=
  match lValue (c % 64) sc with
  | .nan _ => (f32.nanCode, flagNV)
  | .inf n => (f32.signCode n + f32.infCode, 0)
  | .num n m e => f32.roundNum .rne n m e

/-- `cvt.l6.f32` (R110). -/
def cvtL6F32 (x : Nat) (sc : Int) : Nat × BitVec 5 :=
  let c := lQuant 6 x sc
  match f32.decode x with
  | .nan s => (c, if s then flagNV else 0)
  | .inf _ => (c, flagNX)
  | .num _ m e =>
    let top := grid (15 + sc)
    if m = 0 then (c, 0)
    else if !magLe m e top.1 top.2 then (c, flagOF ||| flagNX)
    else if c = 0 then (c, flagUF ||| flagNX)
    else
      let g := grid ((c % 32 : Nat) - 16 + sc)
      (c, if magLe m e g.1 g.2 && magLe g.1 g.2 m e then 0 else flagNX)

/-- `cvt.q.l6`: Q31.32 (R111). -/
def cvtQL6 (c : Nat) (sc : Int) : Nat × BitVec 5 :=
  match lValue (c % 64) sc with
  | .nan _ | .inf _ => (2 ^ 63, flagNV)
  | .num n m e =>
    if m = 0 then (0, 0)
    else if 64 < (m.log2 : Int) + e + 32 then ((if n then 2 ^ 63 + 1 else 2 ^ 63 - 1), flagNV)
    else if (m.log2 : Int) + e + 32 < -2 then (0, flagNX)
    else
      let r := roundInt .rne n m (e + 32)
      if 2 ^ 63 - 1 < r.1 then ((if n then 2 ^ 63 + 1 else 2 ^ 63 - 1), flagNV)
      else ((if n then 2 ^ 64 - r.1 else r.1) % 2 ^ 64, if r.2 then 0 else flagNX)

/-! ## Integers -/

/-- binary32 to a signed or unsigned 32-bit integer (R94). -/
def cvtToInt (signed : Bool) (rm : Rm) (x : Nat) : Nat × BitVec 5 :=
  let hi : Nat := if signed then 2 ^ 31 - 1 else 2 ^ 32 - 1
  let lo : Nat := if signed then 2 ^ 31 else 0
  let past := fun (n : Bool) => if n then (lo, flagNV) else (hi, flagNV)
  match f32.decode x with
  | .nan _ => (0, flagNV)
  | .inf n => past n
  | .num n m e =>
    let r := roundInt rm n m e
    let fl : BitVec 5 := if r.2 then 0 else flagNX
    if n then (if lo < r.1 then past true else ((2 ^ 32 - r.1) % 2 ^ 32, fl))
    else if hi < r.1 then past false else (r.1, fl)

/-- An integer to binary32 (R94, R206). -/
def cvtFromInt (rm : Rm) (v : Int) : Nat × BitVec 5 := f32.roundNum rm (decide (v < 0)) v.natAbs 0

/-- A binary32 value rounded to an integral value, the sign of a zero kept (R202). -/
def roundIntegral (rm : Rm) (nx : Bool) (x : Nat) : Nat × BitVec 5 :=
  match f32.decode x with
  | .nan s => (f32.nanCode, if s then flagNV else 0)
  | .inf _ => (x, 0)
  | .num n m e =>
    if 0 ≤ e then (x, 0)
    else
      let r := roundInt rm n m e
      ((f32.roundNum .rne n r.1 0).1, if r.2 || !nx then 0 else flagNX)

/-- A value of one format written in another (R207). -/
def cvtFmt (src dst : Fmt) (rm : Rm) (x : Nat) : Nat × BitVec 5 := dst.round rm (src.decode x)

end Sys2Proof.Machine
end

