-- ==== Sys2Proof/Machine/Info.lean ====
section
/-! DEFINITION. What the rules say of each word apart from its effect: its energy class, whether it is a convergence
point, long-latency or a control transfer, who may run it, and the vector registers it names. -/

namespace Sys2Proof

/-- The vector register an operand names, as (number, width). -/
def Opd.vop : Opd → List (Nat × Nat)
  | .v n => [(n.val, 1)]
  | .s _ | .zero | .exec | .lane | .slice | .bc _ | .role => []

/-- The vector registers an operand of width `k` names. -/
def Opd.vopN (k : Nat) (o : Opd) : List (Nat × Nat) := o.vop.map (fun p => (p.1, k))

/-- The energy class of a word (R414); a header and an event charge nothing. -/
def Instr.energy : Instr → Option Nat
  | .clause _ _ _ _ _ | .fetchEntryGrant _ | .fetchEntryRotation _ _ | .priorityAgeing _ _ | .sliceEnd _ _
  | .takeRequest _ | .barrierWordRecheck _ _ | .loadComplete _ | .postedWritePerformed _
  | .pageWalkComplete _ _ _ | .faultVector _ _ | .userInterruptDelivery _ _ | .engineCommandComplete _ _
  | .catchBurstArrival _ _ _ | .matrixQueueDispatch _ | .serviceBatchEnqueue _ | .serviceStatus _ _ _
  | .teamHold _ | .tail _ _ _ | .userDoorbell _ _ | .loglost _ _ | .partitionPageWrite _ _ _
  | .nopPacket _ _ | .launch _ _ | .cancelPacket _ _ | .signal _ _ | .preempt _ _ | .resume _ _
  | .teamStart _ _ | .preemptionHalt _ _ | .contextStop _ | .contextRestore _ _ | .dieFence _
  | .distributorReport _ | .thermalMigration _ | .checkpointIntervalClose _ _ | .arm _ _ _
  | .ceilingRaise _ _ | .checkpointCommit _ _ | .saveCostRecord _ _ | .staticEnergyTick
  | .atsTranslationCompletion _ _ _ _ _ _ _ _ | .pageResponse _ _ _ _ | .priTimeout _ _ _
  | .atsInvalidateRequest _ _ _ | .invalidateCompletion _ | .ridgeRequest _ _ _ _ _ _ _ _
  | .ridgeErrorCompletion _ _ | .ingressAccess _ _ _ _ | .tierCreditUpdate _ _ | .islandPause _
  | .patrolScrub _ _ | .flr _ | .powerGood _ _ | .partAssign | .partSet | .partReset | .partFree | .ctxpool
  | .egress | .importE | .quiesce | .quiesceAck _ | .extentAdd | .extentRevoke | .extentRelease _ | .fwStage
  | .fwUpdate | .lifecycle | .spare | .ckptRegion | .ckptBase | .illegalInstruction
  | .matrixCommandComplete _ | .streamerWrite _ _ | .coreRelease _ _ | .ridgeFlitRetry _
  | .backInvalidation _ | .go _ _ => none
  | .iadd _ _ _ | .isub _ _ _ | .imul _ _ _ | .imulhi _ _ _ | .nmulhi _ _ _ | .imin _ _ _ | .imax _ _ _
  | .nmin _ _ _ | .nmax _ _ _ | .andV _ _ _ | .orV _ _ _ | .xorV _ _ _ | .shlV _ _ _ | .shrV _ _ _
  | .sarV _ _ _ | .isad _ _ _ | .popc _ _ | .clz _ _ | .ctz _ _ | .brev _ _ | .bfe _ _ _ | .bfi _ _ _
  | .fshl _ _ _ | .fshr _ _ _ | .rotl _ _ _ | .iabs _ _ | .ineg _ _ | .imad _ _ _ | .vaddi _ _ _
  | .lop3 _ _ _ _ | .fshiL _ _ _ | .fshiR _ _ _ => some 0
  | .faddF32 _ _ _ | .fsubF32 _ _ _ | .fmulF32 _ _ _ | .fmaF32 _ _ _ | .fmsF32 _ _ _ | .fnmaF32 _ _ _
  | .fminF32 _ _ _ | .fmaxF32 _ _ _ | .fabsF32 _ _ | .fnegF32 _ _ | .fcpsF32 _ _ _ | .ffloorF32 _ _
  | .fceilF32 _ _ | .ftruncF32 _ _ | .frintF32 _ _ | .fclassF32 _ _ => some 1
  | .haddBf16 _ _ _ | .hsubBf16 _ _ _ | .hmulBf16 _ _ _ | .hfmaBf16 _ _ _ | .hminBf16 _ _ _
  | .hmaxBf16 _ _ _ | .hdot2Bf16 _ _ _ | .haddF16 _ _ _ | .hsubF16 _ _ _ | .hmulF16 _ _ _ | .hfmaF16 _ _ _
  | .hminF16 _ _ _ | .hmaxF16 _ _ _ | .hdot2F16 _ _ _ => some 2
  | .cvtI32F32 _ _ | .cvtN32F32 _ _ | .cvtF32I32 _ _ | .cvtF32N32 _ _ | .cvtBf16F32Lo _ _
  | .cvtBf16F32Hi _ _ | .cvtF32Bf16Lo _ _ | .cvtF32Bf16Hi _ _ | .cvtF16F32Lo _ _ | .cvtF16F32Hi _ _
  | .cvtF32F16Lo _ _ | .cvtF32F16Hi _ _ | .cvtL6F32 _ _ _ | .cvtF32L6 _ _ _ | .cvtQL6 _ _ _ => some 3
  | .feq _ _ _ | .fne _ _ _ | .flt _ _ _ | .fle _ _ _ | .fgt _ _ _ | .fge _ _ _ | .ford _ _ _ | .funo _ _ _
  | .ieq _ _ _ | .ine _ _ _ | .ilt _ _ _ | .ile _ _ _ | .nlt _ _ _ | .nle _ _ _ | .fcls _ _ _ | .sadd _ _ _
  | .ssub _ _ _ | .smul _ _ _ | .sand _ _ _ | .sor _ _ _ | .sxor _ _ _ | .sshl _ _ _ | .sshr _ _ _
  | .ssar _ _ _ | .smin _ _ _ | .smax _ _ _ | .snmin _ _ _ | .snmax _ _ _ | .scmpeq _ _ _ | .scmplt _ _ _
  | .scmpnlt _ _ _ | .saddi _ _ _ | .br _ | .brExecz _ | .brExecnz _ | .brScc1 _ | .brScc0 _ | .callW _
  | .retW | .jmpi _ | .join _ | .wnd _ _ | .endW | .svc _ _ _ _ | .trap _ | .nop | .movs _ _ | .movt _ _
  | .uiret | .brk _ | .yield => some 6
  | .rcp _ _ | .rsq _ _ | .sqrt _ _ | .exp2 _ _ | .log2 _ _ | .sinpi _ _ | .cospi _ _ | .tanh _ _ => some 4
  | .shfl _ _ _ | .shfx _ _ _ | .shfu _ _ _ | .shfd _ _ _ | .bcast _ _ _ | .ballot _ _ | .vany _ _
  | .vall _ _ | .redi _ _ | .redf _ _ | .redmx _ _ _ | .scani _ _ _ | .sshf _ _ _ | .sshx _ _ _ | .sbc _ _ _ => some 5
  | .movi d _ | .movhi d _ => some (if d.vop = [] then 6 else 0)
  | .ld _ _ _ _ | .ldS8 _ _ _ | .ldZ8 _ _ _ | .ldS16 _ _ _ | .ldZ16 _ _ _ | .ldl _ _ _ _ | .ald _ _ _
  | .aldUnp _ _ _ | .aldQnt _ _ _ | .aldSpec _ _ _ | .ldi _ _ _ _ => some 7
  | .st _ _ _ _ | .st8 _ _ _ | .st16 _ _ _ | .stl _ _ _ _ | .ast _ _ _ | .astUnp _ _ _ => some 8
  | .atomAdd _ _ _ _ | .atomSub _ _ _ _ | .atomMin _ _ _ _ | .atomMax _ _ _ _ | .atomNmin _ _ _ _
  | .atomNmax _ _ _ _ | .atomAnd _ _ _ _ | .atomOr _ _ _ _ | .atomXor _ _ _ _ | .atomXchg _ _ _ _
  | .atomCas _ _ _ _ | .atomInc _ _ _ _ | .atomDec _ _ _ _ | .atomFadd _ _ _ _ | .atomFmin _ _ _ _
  | .atomFmax _ _ _ _ | .atom64Add _ _ _ _ | .atom64Sub _ _ _ _ | .atom64Min _ _ _ _ | .atom64Max _ _ _ _
  | .atom64Nmin _ _ _ _ | .atom64Nmax _ _ _ _ | .atom64And _ _ _ _ | .atom64Or _ _ _ _ | .atom64Xor _ _ _ _
  | .atom64Xchg _ _ _ _ => some 9
  | .copy _ _ | .copyT2 _ _ | .copyT3 _ _ | .copyConv _ _ | .qcopy _ _ | .pref _ _ => some 10
  | .catchL _ _ | .catchT2 _ _ => some 11
  | .mload _ _ | .mloop _ _ | .mloops _ _ | .mdrain _ _ | .mdrains _ _ | .mzero _ _ | .msig _ _ | .mskip _ _
  | .mstat _ _ => some 12
  | .fenceSys | .fenceHost | .inval _ _ | .flush _ _ | .waitf _ _ => some 14
  | .take _ | .spawn _ _ | .joinc _ | .barSync _ | .barArr _ _ _ | .barArrG _ _ _ | .barWait _ _
  | .barWaitG _ _ | .give _ | .claim _ | .roleW _ | .cancel _ _ | .ctr _ _ => some 13
  | .fret _ _ | .pmap _ _ _ | .tlbi _ _ _ | .asidr _ _ | .sksave _ _ _ | .skload _ _ _ | .ecnt _
  | .uintr _ _ | .pstat _ _ _ | .pstatW _ _ _ | .halt _ => some 15

/-- Whether a word is itself a convergence point (R338). -/
def Instr.conv : Instr → Bool
  | .clause _ _ _ _ _ | .iadd _ _ _ | .isub _ _ _ | .imul _ _ _ | .imulhi _ _ _ | .nmulhi _ _ _
  | .imin _ _ _ | .imax _ _ _ | .nmin _ _ _ | .nmax _ _ _ | .andV _ _ _ | .orV _ _ _ | .xorV _ _ _
  | .shlV _ _ _ | .shrV _ _ _ | .sarV _ _ _ | .isad _ _ _ | .popc _ _ | .clz _ _ | .ctz _ _ | .brev _ _
  | .bfe _ _ _ | .bfi _ _ _ | .fshl _ _ _ | .fshr _ _ _ | .rotl _ _ _ | .iabs _ _ | .ineg _ _ | .imad _ _ _
  | .faddF32 _ _ _ | .fsubF32 _ _ _ | .fmulF32 _ _ _ | .fmaF32 _ _ _ | .fmsF32 _ _ _ | .fnmaF32 _ _ _
  | .fminF32 _ _ _ | .fmaxF32 _ _ _ | .fabsF32 _ _ | .fnegF32 _ _ | .fcpsF32 _ _ _ | .ffloorF32 _ _
  | .fceilF32 _ _ | .ftruncF32 _ _ | .frintF32 _ _ | .fclassF32 _ _ | .haddBf16 _ _ _ | .hsubBf16 _ _ _
  | .hmulBf16 _ _ _ | .hfmaBf16 _ _ _ | .hminBf16 _ _ _ | .hmaxBf16 _ _ _ | .hdot2Bf16 _ _ _
  | .haddF16 _ _ _ | .hsubF16 _ _ _ | .hmulF16 _ _ _ | .hfmaF16 _ _ _ | .hminF16 _ _ _ | .hmaxF16 _ _ _
  | .hdot2F16 _ _ _ | .cvtI32F32 _ _ | .cvtN32F32 _ _ | .cvtF32I32 _ _ | .cvtF32N32 _ _ | .cvtBf16F32Lo _ _
  | .cvtBf16F32Hi _ _ | .cvtF32Bf16Lo _ _ | .cvtF32Bf16Hi _ _ | .cvtF16F32Lo _ _ | .cvtF16F32Hi _ _
  | .cvtF32F16Lo _ _ | .cvtF32F16Hi _ _ | .cvtL6F32 _ _ _ | .cvtF32L6 _ _ _ | .cvtQL6 _ _ _ | .feq _ _ _
  | .fne _ _ _ | .flt _ _ _ | .fle _ _ _ | .fgt _ _ _ | .fge _ _ _ | .ford _ _ _ | .funo _ _ _ | .ieq _ _ _
  | .ine _ _ _ | .ilt _ _ _ | .ile _ _ _ | .nlt _ _ _ | .nle _ _ _ | .fcls _ _ _ | .rcp _ _ | .rsq _ _
  | .sqrt _ _ | .exp2 _ _ | .log2 _ _ | .sinpi _ _ | .cospi _ _ | .tanh _ _ | .sadd _ _ _ | .ssub _ _ _
  | .smul _ _ _ | .sand _ _ _ | .sor _ _ _ | .sxor _ _ _ | .sshl _ _ _ | .sshr _ _ _ | .ssar _ _ _
  | .smin _ _ _ | .smax _ _ _ | .snmin _ _ _ | .snmax _ _ _ | .scmpeq _ _ _ | .scmplt _ _ _ | .scmpnlt _ _ _
  | .saddi _ _ _ | .movi _ _ | .movhi _ _ | .vaddi _ _ _ | .lop3 _ _ _ _ | .fshiL _ _ _ | .fshiR _ _ _
  | .br _ | .brExecz _ | .brExecnz _ | .brScc1 _ | .brScc0 _ | .callW _ | .retW | .jmpi _ | .wnd _ _
  | .trap _ | .nop | .movs _ _ | .movt _ _ | .uiret | .brk _ | .yield | .fret _ _ | .pmap _ _ _
  | .tlbi _ _ _ | .asidr _ _ | .sksave _ _ _ | .skload _ _ _ | .ecnt _ | .uintr _ _ | .pstat _ _ _
  | .pstatW _ _ _ | .halt _ | .fetchEntryGrant _ | .fetchEntryRotation _ _ | .priorityAgeing _ _
  | .sliceEnd _ _ | .takeRequest _ | .barrierWordRecheck _ _ | .loadComplete _ | .postedWritePerformed _
  | .pageWalkComplete _ _ _ | .faultVector _ _ | .userInterruptDelivery _ _ | .engineCommandComplete _ _
  | .catchBurstArrival _ _ _ | .matrixQueueDispatch _ | .serviceBatchEnqueue _ | .serviceStatus _ _ _
  | .teamHold _ | .tail _ _ _ | .userDoorbell _ _ | .loglost _ _ | .partitionPageWrite _ _ _
  | .nopPacket _ _ | .launch _ _ | .cancelPacket _ _ | .signal _ _ | .preempt _ _ | .resume _ _
  | .teamStart _ _ | .preemptionHalt _ _ | .contextStop _ | .contextRestore _ _ | .dieFence _
  | .distributorReport _ | .thermalMigration _ | .checkpointIntervalClose _ _ | .arm _ _ _
  | .ceilingRaise _ _ | .checkpointCommit _ _ | .saveCostRecord _ _ | .staticEnergyTick
  | .atsTranslationCompletion _ _ _ _ _ _ _ _ | .pageResponse _ _ _ _ | .priTimeout _ _ _
  | .atsInvalidateRequest _ _ _ | .invalidateCompletion _ | .ridgeRequest _ _ _ _ _ _ _ _
  | .ridgeErrorCompletion _ _ | .ingressAccess _ _ _ _ | .tierCreditUpdate _ _ | .islandPause _
  | .patrolScrub _ _ | .flr _ | .powerGood _ _ | .partAssign | .partSet | .partReset | .partFree | .ctxpool
  | .egress | .importE | .quiesce | .quiesceAck _ | .extentAdd | .extentRevoke | .extentRelease _ | .fwStage
  | .fwUpdate | .lifecycle | .spare | .ckptRegion | .ckptBase | .illegalInstruction
  | .matrixCommandComplete _ | .streamerWrite _ _ | .coreRelease _ _ | .ridgeFlitRetry _
  | .backInvalidation _ | .go _ _ => false
  | .shfl _ _ _ | .shfx _ _ _ | .shfu _ _ _ | .shfd _ _ _ | .bcast _ _ _ | .ballot _ _ | .vany _ _
  | .vall _ _ | .redi _ _ | .redf _ _ | .redmx _ _ _ | .scani _ _ _ | .sshf _ _ _ | .sshx _ _ _ | .sbc _ _ _
  | .ld _ _ _ _ | .st _ _ _ _ | .ldS8 _ _ _ | .ldZ8 _ _ _ | .ldS16 _ _ _ | .ldZ16 _ _ _ | .st8 _ _ _
  | .st16 _ _ _ | .ldl _ _ _ _ | .stl _ _ _ _ | .ald _ _ _ | .aldUnp _ _ _ | .aldQnt _ _ _ | .aldSpec _ _ _
  | .ast _ _ _ | .astUnp _ _ _ | .ldi _ _ _ _ | .atomAdd _ _ _ _ | .atomSub _ _ _ _ | .atomMin _ _ _ _
  | .atomMax _ _ _ _ | .atomNmin _ _ _ _ | .atomNmax _ _ _ _ | .atomAnd _ _ _ _ | .atomOr _ _ _ _
  | .atomXor _ _ _ _ | .atomXchg _ _ _ _ | .atomCas _ _ _ _ | .atomInc _ _ _ _ | .atomDec _ _ _ _
  | .atomFadd _ _ _ _ | .atomFmin _ _ _ _ | .atomFmax _ _ _ _ | .atom64Add _ _ _ _ | .atom64Sub _ _ _ _
  | .atom64Min _ _ _ _ | .atom64Max _ _ _ _ | .atom64Nmin _ _ _ _ | .atom64Nmax _ _ _ _ | .atom64And _ _ _ _
  | .atom64Or _ _ _ _ | .atom64Xor _ _ _ _ | .atom64Xchg _ _ _ _ | .copy _ _ | .copyT2 _ _ | .copyT3 _ _
  | .copyConv _ _ | .qcopy _ _ | .catchL _ _ | .catchT2 _ _ | .pref _ _ | .mload _ _ | .mloop _ _
  | .mloops _ _ | .mdrain _ _ | .mdrains _ _ | .mzero _ _ | .msig _ _ | .mskip _ _ | .mstat _ _ | .fenceSys
  | .fenceHost | .inval _ _ | .flush _ _ | .waitf _ _ | .join _ | .endW | .svc _ _ _ _ | .take _
  | .spawn _ _ | .joinc _ | .barSync _ | .barArr _ _ _ | .barArrG _ _ _ | .barWait _ _ | .barWaitG _ _
  | .give _ | .claim _ | .roleW _ | .cancel _ _ | .ctr _ _ => true

/-- Whether a word transfers control (R66). -/
def Instr.ctl : Instr → Bool
  | .clause _ _ _ _ _ | .iadd _ _ _ | .isub _ _ _ | .imul _ _ _ | .imulhi _ _ _ | .nmulhi _ _ _
  | .imin _ _ _ | .imax _ _ _ | .nmin _ _ _ | .nmax _ _ _ | .andV _ _ _ | .orV _ _ _ | .xorV _ _ _
  | .shlV _ _ _ | .shrV _ _ _ | .sarV _ _ _ | .isad _ _ _ | .popc _ _ | .clz _ _ | .ctz _ _ | .brev _ _
  | .bfe _ _ _ | .bfi _ _ _ | .fshl _ _ _ | .fshr _ _ _ | .rotl _ _ _ | .iabs _ _ | .ineg _ _ | .imad _ _ _
  | .faddF32 _ _ _ | .fsubF32 _ _ _ | .fmulF32 _ _ _ | .fmaF32 _ _ _ | .fmsF32 _ _ _ | .fnmaF32 _ _ _
  | .fminF32 _ _ _ | .fmaxF32 _ _ _ | .fabsF32 _ _ | .fnegF32 _ _ | .fcpsF32 _ _ _ | .ffloorF32 _ _
  | .fceilF32 _ _ | .ftruncF32 _ _ | .frintF32 _ _ | .fclassF32 _ _ | .haddBf16 _ _ _ | .hsubBf16 _ _ _
  | .hmulBf16 _ _ _ | .hfmaBf16 _ _ _ | .hminBf16 _ _ _ | .hmaxBf16 _ _ _ | .hdot2Bf16 _ _ _
  | .haddF16 _ _ _ | .hsubF16 _ _ _ | .hmulF16 _ _ _ | .hfmaF16 _ _ _ | .hminF16 _ _ _ | .hmaxF16 _ _ _
  | .hdot2F16 _ _ _ | .cvtI32F32 _ _ | .cvtN32F32 _ _ | .cvtF32I32 _ _ | .cvtF32N32 _ _ | .cvtBf16F32Lo _ _
  | .cvtBf16F32Hi _ _ | .cvtF32Bf16Lo _ _ | .cvtF32Bf16Hi _ _ | .cvtF16F32Lo _ _ | .cvtF16F32Hi _ _
  | .cvtF32F16Lo _ _ | .cvtF32F16Hi _ _ | .cvtL6F32 _ _ _ | .cvtF32L6 _ _ _ | .cvtQL6 _ _ _ | .feq _ _ _
  | .fne _ _ _ | .flt _ _ _ | .fle _ _ _ | .fgt _ _ _ | .fge _ _ _ | .ford _ _ _ | .funo _ _ _ | .ieq _ _ _
  | .ine _ _ _ | .ilt _ _ _ | .ile _ _ _ | .nlt _ _ _ | .nle _ _ _ | .fcls _ _ _ | .rcp _ _ | .rsq _ _
  | .sqrt _ _ | .exp2 _ _ | .log2 _ _ | .sinpi _ _ | .cospi _ _ | .tanh _ _ | .shfl _ _ _ | .shfx _ _ _
  | .shfu _ _ _ | .shfd _ _ _ | .bcast _ _ _ | .ballot _ _ | .vany _ _ | .vall _ _ | .redi _ _ | .redf _ _
  | .redmx _ _ _ | .scani _ _ _ | .sshf _ _ _ | .sshx _ _ _ | .sbc _ _ _ | .sadd _ _ _ | .ssub _ _ _
  | .smul _ _ _ | .sand _ _ _ | .sor _ _ _ | .sxor _ _ _ | .sshl _ _ _ | .sshr _ _ _ | .ssar _ _ _
  | .smin _ _ _ | .smax _ _ _ | .snmin _ _ _ | .snmax _ _ _ | .scmpeq _ _ _ | .scmplt _ _ _ | .scmpnlt _ _ _
  | .saddi _ _ _ | .movi _ _ | .movhi _ _ | .vaddi _ _ _ | .ld _ _ _ _ | .st _ _ _ _ | .ldS8 _ _ _
  | .ldZ8 _ _ _ | .ldS16 _ _ _ | .ldZ16 _ _ _ | .st8 _ _ _ | .st16 _ _ _ | .ldl _ _ _ _ | .stl _ _ _ _
  | .ald _ _ _ | .aldUnp _ _ _ | .aldQnt _ _ _ | .aldSpec _ _ _ | .ast _ _ _ | .astUnp _ _ _ | .ldi _ _ _ _
  | .atomAdd _ _ _ _ | .atomSub _ _ _ _ | .atomMin _ _ _ _ | .atomMax _ _ _ _ | .atomNmin _ _ _ _
  | .atomNmax _ _ _ _ | .atomAnd _ _ _ _ | .atomOr _ _ _ _ | .atomXor _ _ _ _ | .atomXchg _ _ _ _
  | .atomCas _ _ _ _ | .atomInc _ _ _ _ | .atomDec _ _ _ _ | .atomFadd _ _ _ _ | .atomFmin _ _ _ _
  | .atomFmax _ _ _ _ | .atom64Add _ _ _ _ | .atom64Sub _ _ _ _ | .atom64Min _ _ _ _ | .atom64Max _ _ _ _
  | .atom64Nmin _ _ _ _ | .atom64Nmax _ _ _ _ | .atom64And _ _ _ _ | .atom64Or _ _ _ _ | .atom64Xor _ _ _ _
  | .atom64Xchg _ _ _ _ | .copy _ _ | .copyT2 _ _ | .copyT3 _ _ | .copyConv _ _ | .qcopy _ _ | .catchL _ _
  | .catchT2 _ _ | .pref _ _ | .mload _ _ | .mloop _ _ | .mloops _ _ | .mdrain _ _ | .mdrains _ _
  | .mzero _ _ | .msig _ _ | .mskip _ _ | .mstat _ _ | .fenceSys | .fenceHost | .inval _ _ | .flush _ _
  | .waitf _ _ | .lop3 _ _ _ _ | .fshiL _ _ _ | .fshiR _ _ _ | .join _ | .wnd _ _ | .svc _ _ _ _ | .trap _
  | .nop | .movs _ _ | .movt _ _ | .brk _ | .yield | .take _ | .spawn _ _ | .joinc _ | .barSync _
  | .barArr _ _ _ | .barArrG _ _ _ | .barWait _ _ | .barWaitG _ _ | .give _ | .claim _ | .cancel _ _
  | .ctr _ _ | .pmap _ _ _ | .tlbi _ _ _ | .asidr _ _ | .sksave _ _ _ | .skload _ _ _ | .ecnt _ | .uintr _ _
  | .pstat _ _ _ | .pstatW _ _ _ | .fetchEntryGrant _ | .fetchEntryRotation _ _ | .priorityAgeing _ _
  | .sliceEnd _ _ | .takeRequest _ | .barrierWordRecheck _ _ | .loadComplete _ | .postedWritePerformed _
  | .pageWalkComplete _ _ _ | .faultVector _ _ | .userInterruptDelivery _ _ | .engineCommandComplete _ _
  | .catchBurstArrival _ _ _ | .matrixQueueDispatch _ | .serviceBatchEnqueue _ | .serviceStatus _ _ _
  | .teamHold _ | .tail _ _ _ | .userDoorbell _ _ | .loglost _ _ | .partitionPageWrite _ _ _
  | .nopPacket _ _ | .launch _ _ | .cancelPacket _ _ | .signal _ _ | .preempt _ _ | .resume _ _
  | .teamStart _ _ | .preemptionHalt _ _ | .contextStop _ | .contextRestore _ _ | .dieFence _
  | .distributorReport _ | .thermalMigration _ | .checkpointIntervalClose _ _ | .arm _ _ _
  | .ceilingRaise _ _ | .checkpointCommit _ _ | .saveCostRecord _ _ | .staticEnergyTick
  | .atsTranslationCompletion _ _ _ _ _ _ _ _ | .pageResponse _ _ _ _ | .priTimeout _ _ _
  | .atsInvalidateRequest _ _ _ | .invalidateCompletion _ | .ridgeRequest _ _ _ _ _ _ _ _
  | .ridgeErrorCompletion _ _ | .ingressAccess _ _ _ _ | .tierCreditUpdate _ _ | .islandPause _
  | .patrolScrub _ _ | .flr _ | .powerGood _ _ | .partAssign | .partSet | .partReset | .partFree | .ctxpool
  | .egress | .importE | .quiesce | .quiesceAck _ | .extentAdd | .extentRevoke | .extentRelease _ | .fwStage
  | .fwUpdate | .lifecycle | .spare | .ckptRegion | .ckptBase | .illegalInstruction
  | .matrixCommandComplete _ | .streamerWrite _ _ | .coreRelease _ _ | .ridgeFlitRetry _
  | .backInvalidation _ | .go _ _ => false
  | .br _ | .brExecz _ | .brExecnz _ | .brScc1 _ | .brScc0 _ | .callW _ | .retW | .jmpi _ | .endW | .uiret
  | .roleW _ | .fret _ _ | .halt _ => true

/-- Whether a word is long-latency (R64). -/
def Instr.long : Instr → Bool
  | .clause _ _ _ _ _ | .iadd _ _ _ | .isub _ _ _ | .imul _ _ _ | .imulhi _ _ _ | .nmulhi _ _ _
  | .imin _ _ _ | .imax _ _ _ | .nmin _ _ _ | .nmax _ _ _ | .andV _ _ _ | .orV _ _ _ | .xorV _ _ _
  | .shlV _ _ _ | .shrV _ _ _ | .sarV _ _ _ | .isad _ _ _ | .popc _ _ | .clz _ _ | .ctz _ _ | .brev _ _
  | .bfe _ _ _ | .bfi _ _ _ | .fshl _ _ _ | .fshr _ _ _ | .rotl _ _ _ | .iabs _ _ | .ineg _ _ | .imad _ _ _
  | .faddF32 _ _ _ | .fsubF32 _ _ _ | .fmulF32 _ _ _ | .fmaF32 _ _ _ | .fmsF32 _ _ _ | .fnmaF32 _ _ _
  | .fminF32 _ _ _ | .fmaxF32 _ _ _ | .fabsF32 _ _ | .fnegF32 _ _ | .fcpsF32 _ _ _ | .ffloorF32 _ _
  | .fceilF32 _ _ | .ftruncF32 _ _ | .frintF32 _ _ | .fclassF32 _ _ | .haddBf16 _ _ _ | .hsubBf16 _ _ _
  | .hmulBf16 _ _ _ | .hfmaBf16 _ _ _ | .hminBf16 _ _ _ | .hmaxBf16 _ _ _ | .hdot2Bf16 _ _ _
  | .haddF16 _ _ _ | .hsubF16 _ _ _ | .hmulF16 _ _ _ | .hfmaF16 _ _ _ | .hminF16 _ _ _ | .hmaxF16 _ _ _
  | .hdot2F16 _ _ _ | .cvtI32F32 _ _ | .cvtN32F32 _ _ | .cvtF32I32 _ _ | .cvtF32N32 _ _ | .cvtBf16F32Lo _ _
  | .cvtBf16F32Hi _ _ | .cvtF32Bf16Lo _ _ | .cvtF32Bf16Hi _ _ | .cvtF16F32Lo _ _ | .cvtF16F32Hi _ _
  | .cvtF32F16Lo _ _ | .cvtF32F16Hi _ _ | .cvtL6F32 _ _ _ | .cvtF32L6 _ _ _ | .cvtQL6 _ _ _ | .feq _ _ _
  | .fne _ _ _ | .flt _ _ _ | .fle _ _ _ | .fgt _ _ _ | .fge _ _ _ | .ford _ _ _ | .funo _ _ _ | .ieq _ _ _
  | .ine _ _ _ | .ilt _ _ _ | .ile _ _ _ | .nlt _ _ _ | .nle _ _ _ | .fcls _ _ _ | .rcp _ _ | .rsq _ _
  | .sqrt _ _ | .exp2 _ _ | .log2 _ _ | .sinpi _ _ | .cospi _ _ | .tanh _ _ | .shfl _ _ _ | .shfx _ _ _
  | .shfu _ _ _ | .shfd _ _ _ | .bcast _ _ _ | .ballot _ _ | .vany _ _ | .vall _ _ | .redi _ _ | .redf _ _
  | .redmx _ _ _ | .scani _ _ _ | .sshf _ _ _ | .sshx _ _ _ | .sbc _ _ _ | .sadd _ _ _ | .ssub _ _ _
  | .smul _ _ _ | .sand _ _ _ | .sor _ _ _ | .sxor _ _ _ | .sshl _ _ _ | .sshr _ _ _ | .ssar _ _ _
  | .smin _ _ _ | .smax _ _ _ | .snmin _ _ _ | .snmax _ _ _ | .scmpeq _ _ _ | .scmplt _ _ _ | .scmpnlt _ _ _
  | .saddi _ _ _ | .movi _ _ | .movhi _ _ | .vaddi _ _ _ | .st _ _ _ _ | .st8 _ _ _ | .st16 _ _ _
  | .stl _ _ _ _ | .ast _ _ _ | .astUnp _ _ _ | .fenceSys | .fenceHost | .inval _ _ | .flush _ _
  | .waitf _ _ | .lop3 _ _ _ _ | .fshiL _ _ _ | .fshiR _ _ _ | .br _ | .brExecz _ | .brExecnz _ | .brScc1 _
  | .brScc0 _ | .callW _ | .retW | .jmpi _ | .join _ | .wnd _ _ | .endW | .trap _ | .nop | .movs _ _
  | .movt _ _ | .uiret | .brk _ | .yield | .spawn _ _ | .joinc _ | .barSync _ | .barArr _ _ _
  | .barArrG _ _ _ | .barWait _ _ | .barWaitG _ _ | .give _ | .claim _ | .roleW _ | .cancel _ _ | .ctr _ _
  | .fret _ _ | .pmap _ _ _ | .tlbi _ _ _ | .asidr _ _ | .sksave _ _ _ | .skload _ _ _ | .ecnt _
  | .uintr _ _ | .pstat _ _ _ | .pstatW _ _ _ | .halt _ | .fetchEntryGrant _ | .fetchEntryRotation _ _
  | .priorityAgeing _ _ | .sliceEnd _ _ | .takeRequest _ | .barrierWordRecheck _ _ | .loadComplete _
  | .postedWritePerformed _ | .pageWalkComplete _ _ _ | .faultVector _ _ | .userInterruptDelivery _ _
  | .engineCommandComplete _ _ | .catchBurstArrival _ _ _ | .matrixQueueDispatch _ | .serviceBatchEnqueue _
  | .serviceStatus _ _ _ | .teamHold _ | .tail _ _ _ | .userDoorbell _ _ | .loglost _ _
  | .partitionPageWrite _ _ _ | .nopPacket _ _ | .launch _ _ | .cancelPacket _ _ | .signal _ _
  | .preempt _ _ | .resume _ _ | .teamStart _ _ | .preemptionHalt _ _ | .contextStop _ | .contextRestore _ _
  | .dieFence _ | .distributorReport _ | .thermalMigration _ | .checkpointIntervalClose _ _ | .arm _ _ _
  | .ceilingRaise _ _ | .checkpointCommit _ _ | .saveCostRecord _ _ | .staticEnergyTick
  | .atsTranslationCompletion _ _ _ _ _ _ _ _ | .pageResponse _ _ _ _ | .priTimeout _ _ _
  | .atsInvalidateRequest _ _ _ | .invalidateCompletion _ | .ridgeRequest _ _ _ _ _ _ _ _
  | .ridgeErrorCompletion _ _ | .ingressAccess _ _ _ _ | .tierCreditUpdate _ _ | .islandPause _
  | .patrolScrub _ _ | .flr _ | .powerGood _ _ | .partAssign | .partSet | .partReset | .partFree | .ctxpool
  | .egress | .importE | .quiesce | .quiesceAck _ | .extentAdd | .extentRevoke | .extentRelease _ | .fwStage
  | .fwUpdate | .lifecycle | .spare | .ckptRegion | .ckptBase | .illegalInstruction
  | .matrixCommandComplete _ | .streamerWrite _ _ | .coreRelease _ _ | .ridgeFlitRetry _
  | .backInvalidation _ | .go _ _ => false
  | .ld _ _ _ _ | .ldS8 _ _ _ | .ldZ8 _ _ _ | .ldS16 _ _ _ | .ldZ16 _ _ _ | .ldl _ _ _ _ | .ald _ _ _
  | .aldUnp _ _ _ | .aldQnt _ _ _ | .aldSpec _ _ _ | .ldi _ _ _ _ | .copy _ _ | .copyT2 _ _ | .copyT3 _ _
  | .copyConv _ _ | .qcopy _ _ | .catchL _ _ | .catchT2 _ _ | .pref _ _ | .mload _ _ | .mloop _ _
  | .mloops _ _ | .mdrain _ _ | .mdrains _ _ | .mzero _ _ | .msig _ _ | .mskip _ _ | .mstat _ _
  | .svc _ _ _ _ | .take _ => true
  | .atomAdd w _ _ _ | .atomSub w _ _ _ | .atomMin w _ _ _ | .atomMax w _ _ _ | .atomNmin w _ _ _
  | .atomNmax w _ _ _ | .atomAnd w _ _ _ | .atomOr w _ _ _ | .atomXor w _ _ _ | .atomXchg w _ _ _
  | .atomCas w _ _ _ | .atomInc w _ _ _ | .atomDec w _ _ _ | .atomFadd w _ _ _ | .atomFmin w _ _ _
  | .atomFmax w _ _ _ | .atom64Add w _ _ _ | .atom64Sub w _ _ _ | .atom64Min w _ _ _ | .atom64Max w _ _ _
  | .atom64Nmin w _ _ _ | .atom64Nmax w _ _ _ | .atom64And w _ _ _ | .atom64Or w _ _ _ | .atom64Xor w _ _ _
  | .atom64Xchg w _ _ _ => w != 1

/-- Whether a catch handler thread may use a word (R185, R191, R252, R341). A `movt` to a read-only or reserved index, which R185
lists neither as permitted nor as trapping, issues (DESIGN CHOICE, log 68). -/
def Instr.threadMay : Instr → Bool
  | .clause _ _ _ _ _ | .iadd _ _ _ | .isub _ _ _ | .imul _ _ _ | .imulhi _ _ _ | .nmulhi _ _ _
  | .imin _ _ _ | .imax _ _ _ | .nmin _ _ _ | .nmax _ _ _ | .andV _ _ _ | .orV _ _ _ | .xorV _ _ _
  | .shlV _ _ _ | .shrV _ _ _ | .sarV _ _ _ | .isad _ _ _ | .popc _ _ | .clz _ _ | .ctz _ _ | .brev _ _
  | .bfe _ _ _ | .bfi _ _ _ | .fshl _ _ _ | .fshr _ _ _ | .rotl _ _ _ | .iabs _ _ | .ineg _ _ | .imad _ _ _
  | .faddF32 _ _ _ | .fsubF32 _ _ _ | .fmulF32 _ _ _ | .fmaF32 _ _ _ | .fmsF32 _ _ _ | .fnmaF32 _ _ _
  | .fminF32 _ _ _ | .fmaxF32 _ _ _ | .fabsF32 _ _ | .fnegF32 _ _ | .fcpsF32 _ _ _ | .ffloorF32 _ _
  | .fceilF32 _ _ | .ftruncF32 _ _ | .frintF32 _ _ | .fclassF32 _ _ | .haddBf16 _ _ _ | .hsubBf16 _ _ _
  | .hmulBf16 _ _ _ | .hfmaBf16 _ _ _ | .hminBf16 _ _ _ | .hmaxBf16 _ _ _ | .hdot2Bf16 _ _ _
  | .haddF16 _ _ _ | .hsubF16 _ _ _ | .hmulF16 _ _ _ | .hfmaF16 _ _ _ | .hminF16 _ _ _ | .hmaxF16 _ _ _
  | .hdot2F16 _ _ _ | .cvtI32F32 _ _ | .cvtN32F32 _ _ | .cvtF32I32 _ _ | .cvtF32N32 _ _ | .cvtBf16F32Lo _ _
  | .cvtBf16F32Hi _ _ | .cvtF32Bf16Lo _ _ | .cvtF32Bf16Hi _ _ | .cvtF16F32Lo _ _ | .cvtF16F32Hi _ _
  | .cvtF32F16Lo _ _ | .cvtF32F16Hi _ _ | .cvtL6F32 _ _ _ | .cvtF32L6 _ _ _ | .cvtQL6 _ _ _ | .feq _ _ _
  | .fne _ _ _ | .flt _ _ _ | .fle _ _ _ | .fgt _ _ _ | .fge _ _ _ | .ford _ _ _ | .funo _ _ _ | .ieq _ _ _
  | .ine _ _ _ | .ilt _ _ _ | .ile _ _ _ | .nlt _ _ _ | .nle _ _ _ | .fcls _ _ _ | .rcp _ _ | .rsq _ _
  | .sqrt _ _ | .exp2 _ _ | .log2 _ _ | .sinpi _ _ | .cospi _ _ | .tanh _ _ | .shfl _ _ _ | .shfx _ _ _
  | .shfu _ _ _ | .shfd _ _ _ | .bcast _ _ _ | .ballot _ _ | .vany _ _ | .vall _ _ | .redi _ _ | .redf _ _
  | .redmx _ _ _ | .scani _ _ _ | .sshf _ _ _ | .sshx _ _ _ | .sbc _ _ _ | .sadd _ _ _ | .ssub _ _ _
  | .smul _ _ _ | .sand _ _ _ | .sor _ _ _ | .sxor _ _ _ | .sshl _ _ _ | .sshr _ _ _ | .ssar _ _ _
  | .smin _ _ _ | .smax _ _ _ | .snmin _ _ _ | .snmax _ _ _ | .scmpeq _ _ _ | .scmplt _ _ _ | .scmpnlt _ _ _
  | .saddi _ _ _ | .movi _ _ | .movhi _ _ | .vaddi _ _ _ | .ld _ _ _ _ | .st _ _ _ _ | .ldS8 _ _ _
  | .ldZ8 _ _ _ | .ldS16 _ _ _ | .ldZ16 _ _ _ | .st8 _ _ _ | .st16 _ _ _ | .ldl _ _ _ _ | .stl _ _ _ _
  | .ald _ _ _ | .aldUnp _ _ _ | .aldQnt _ _ _ | .aldSpec _ _ _ | .ast _ _ _ | .astUnp _ _ _ | .ldi _ _ _ _
  | .waitf _ _ | .lop3 _ _ _ _ | .fshiL _ _ _ | .fshiR _ _ _ | .br _ | .brExecz _ | .brExecnz _ | .brScc1 _
  | .brScc0 _ | .callW _ | .retW | .jmpi _ | .endW | .nop | .movs _ _ | .yield => true
  | .atomAdd w _ _ _ | .atomSub w _ _ _ | .atomMin w _ _ _ | .atomMax w _ _ _ | .atomNmin w _ _ _
  | .atomNmax w _ _ _ | .atomAnd w _ _ _ | .atomOr w _ _ _ | .atomXor w _ _ _ | .atomXchg w _ _ _
  | .atomCas w _ _ _ | .atomInc w _ _ _ | .atomDec w _ _ _ | .atomFadd w _ _ _ | .atomFmin w _ _ _
  | .atomFmax w _ _ _ | .atom64Add w _ _ _ | .atom64Sub w _ _ _ | .atom64Min w _ _ _ | .atom64Max w _ _ _
  | .atom64Nmin w _ _ _ | .atom64Nmax w _ _ _ | .atom64And w _ _ _ | .atom64Or w _ _ _ | .atom64Xor w _ _ _
  | .atom64Xchg w _ _ _ => w == 1 || w == 3
  | .copy _ _ | .copyT2 _ _ | .copyT3 _ _ | .copyConv _ _ | .qcopy _ _ | .catchL _ _ | .catchT2 _ _
  | .pref _ _ | .mload _ _ | .mloop _ _ | .mloops _ _ | .mdrain _ _ | .mdrains _ _ | .mzero _ _ | .msig _ _
  | .mskip _ _ | .mstat _ _ | .fenceSys | .fenceHost | .inval _ _ | .flush _ _ | .join _ | .wnd _ _
  | .svc _ _ _ _ | .trap _ | .uiret | .brk _ | .take _ | .spawn _ _ | .joinc _ | .barSync _ | .barArr _ _ _
  | .barArrG _ _ _ | .barWait _ _ | .barWaitG _ _ | .give _ | .claim _ | .roleW _ | .cancel _ _ | .ctr _ _
  | .fret _ _ | .pmap _ _ _ | .tlbi _ _ _ | .asidr _ _ | .sksave _ _ _ | .skload _ _ _ | .ecnt _
  | .uintr _ _ | .pstat _ _ _ | .pstatW _ _ _ | .halt _ | .fetchEntryGrant _ | .fetchEntryRotation _ _
  | .priorityAgeing _ _ | .sliceEnd _ _ | .takeRequest _ | .barrierWordRecheck _ _ | .loadComplete _
  | .postedWritePerformed _ | .pageWalkComplete _ _ _ | .faultVector _ _ | .userInterruptDelivery _ _
  | .engineCommandComplete _ _ | .catchBurstArrival _ _ _ | .matrixQueueDispatch _ | .serviceBatchEnqueue _
  | .serviceStatus _ _ _ | .teamHold _ | .tail _ _ _ | .userDoorbell _ _ | .loglost _ _
  | .partitionPageWrite _ _ _ | .nopPacket _ _ | .launch _ _ | .cancelPacket _ _ | .signal _ _
  | .preempt _ _ | .resume _ _ | .teamStart _ _ | .preemptionHalt _ _ | .contextStop _ | .contextRestore _ _
  | .dieFence _ | .distributorReport _ | .thermalMigration _ | .checkpointIntervalClose _ _ | .arm _ _ _
  | .ceilingRaise _ _ | .checkpointCommit _ _ | .saveCostRecord _ _ | .staticEnergyTick
  | .atsTranslationCompletion _ _ _ _ _ _ _ _ | .pageResponse _ _ _ _ | .priTimeout _ _ _
  | .atsInvalidateRequest _ _ _ | .invalidateCompletion _ | .ridgeRequest _ _ _ _ _ _ _ _
  | .ridgeErrorCompletion _ _ | .ingressAccess _ _ _ _ | .tierCreditUpdate _ _ | .islandPause _
  | .patrolScrub _ _ | .flr _ | .powerGood _ _ | .partAssign | .partSet | .partReset | .partFree | .ctxpool
  | .egress | .importE | .quiesce | .quiesceAck _ | .extentAdd | .extentRevoke | .extentRelease _ | .fwStage
  | .fwUpdate | .lifecycle | .spare | .ckptRegion | .ckptBase | .illegalInstruction
  | .matrixCommandComplete _ | .streamerWrite _ _ | .coreRelease _ _ | .ridgeFlitRetry _
  | .backInvalidation _ | .go _ _ => false
  | .movt _ i => i == 1 || i == 2 || i == 4 || decide (7 ≤ i.toNat)

/-- Whether a word raises the double fault in supervisor mode, whatever else it would raise (R331). -/
def Instr.supNo : Instr → Bool
  | .clause _ _ _ _ _ | .iadd _ _ _ | .isub _ _ _ | .imul _ _ _ | .imulhi _ _ _ | .nmulhi _ _ _
  | .imin _ _ _ | .imax _ _ _ | .nmin _ _ _ | .nmax _ _ _ | .andV _ _ _ | .orV _ _ _ | .xorV _ _ _
  | .shlV _ _ _ | .shrV _ _ _ | .sarV _ _ _ | .isad _ _ _ | .popc _ _ | .clz _ _ | .ctz _ _ | .brev _ _
  | .bfe _ _ _ | .bfi _ _ _ | .fshl _ _ _ | .fshr _ _ _ | .rotl _ _ _ | .iabs _ _ | .ineg _ _ | .imad _ _ _
  | .faddF32 _ _ _ | .fsubF32 _ _ _ | .fmulF32 _ _ _ | .fmaF32 _ _ _ | .fmsF32 _ _ _ | .fnmaF32 _ _ _
  | .fminF32 _ _ _ | .fmaxF32 _ _ _ | .fabsF32 _ _ | .fnegF32 _ _ | .fcpsF32 _ _ _ | .ffloorF32 _ _
  | .fceilF32 _ _ | .ftruncF32 _ _ | .frintF32 _ _ | .fclassF32 _ _ | .haddBf16 _ _ _ | .hsubBf16 _ _ _
  | .hmulBf16 _ _ _ | .hfmaBf16 _ _ _ | .hminBf16 _ _ _ | .hmaxBf16 _ _ _ | .hdot2Bf16 _ _ _
  | .haddF16 _ _ _ | .hsubF16 _ _ _ | .hmulF16 _ _ _ | .hfmaF16 _ _ _ | .hminF16 _ _ _ | .hmaxF16 _ _ _
  | .hdot2F16 _ _ _ | .cvtI32F32 _ _ | .cvtN32F32 _ _ | .cvtF32I32 _ _ | .cvtF32N32 _ _ | .cvtBf16F32Lo _ _
  | .cvtBf16F32Hi _ _ | .cvtF32Bf16Lo _ _ | .cvtF32Bf16Hi _ _ | .cvtF16F32Lo _ _ | .cvtF16F32Hi _ _
  | .cvtF32F16Lo _ _ | .cvtF32F16Hi _ _ | .cvtL6F32 _ _ _ | .cvtF32L6 _ _ _ | .cvtQL6 _ _ _ | .feq _ _ _
  | .fne _ _ _ | .flt _ _ _ | .fle _ _ _ | .fgt _ _ _ | .fge _ _ _ | .ford _ _ _ | .funo _ _ _ | .ieq _ _ _
  | .ine _ _ _ | .ilt _ _ _ | .ile _ _ _ | .nlt _ _ _ | .nle _ _ _ | .fcls _ _ _ | .rcp _ _ | .rsq _ _
  | .sqrt _ _ | .exp2 _ _ | .log2 _ _ | .sinpi _ _ | .cospi _ _ | .tanh _ _ | .shfl _ _ _ | .shfx _ _ _
  | .shfu _ _ _ | .shfd _ _ _ | .bcast _ _ _ | .ballot _ _ | .vany _ _ | .vall _ _ | .redi _ _ | .redf _ _
  | .redmx _ _ _ | .scani _ _ _ | .sshf _ _ _ | .sshx _ _ _ | .sbc _ _ _ | .sadd _ _ _ | .ssub _ _ _
  | .smul _ _ _ | .sand _ _ _ | .sor _ _ _ | .sxor _ _ _ | .sshl _ _ _ | .sshr _ _ _ | .ssar _ _ _
  | .smin _ _ _ | .smax _ _ _ | .snmin _ _ _ | .snmax _ _ _ | .scmpeq _ _ _ | .scmplt _ _ _ | .scmpnlt _ _ _
  | .saddi _ _ _ | .movi _ _ | .movhi _ _ | .vaddi _ _ _ | .ld _ _ _ _ | .st _ _ _ _ | .ldS8 _ _ _
  | .ldZ8 _ _ _ | .ldS16 _ _ _ | .ldZ16 _ _ _ | .st8 _ _ _ | .st16 _ _ _ | .ldl _ _ _ _ | .stl _ _ _ _
  | .ald _ _ _ | .aldUnp _ _ _ | .aldQnt _ _ _ | .aldSpec _ _ _ | .ast _ _ _ | .astUnp _ _ _ | .ldi _ _ _ _
  | .atomAdd _ _ _ _ | .atomSub _ _ _ _ | .atomMin _ _ _ _ | .atomMax _ _ _ _ | .atomNmin _ _ _ _
  | .atomNmax _ _ _ _ | .atomAnd _ _ _ _ | .atomOr _ _ _ _ | .atomXor _ _ _ _ | .atomXchg _ _ _ _
  | .atomCas _ _ _ _ | .atomInc _ _ _ _ | .atomDec _ _ _ _ | .atomFadd _ _ _ _ | .atomFmin _ _ _ _
  | .atomFmax _ _ _ _ | .atom64Add _ _ _ _ | .atom64Sub _ _ _ _ | .atom64Min _ _ _ _ | .atom64Max _ _ _ _
  | .atom64Nmin _ _ _ _ | .atom64Nmax _ _ _ _ | .atom64And _ _ _ _ | .atom64Or _ _ _ _ | .atom64Xor _ _ _ _
  | .atom64Xchg _ _ _ _ | .fenceSys | .fenceHost | .inval _ _ | .flush _ _ | .waitf _ _ | .lop3 _ _ _ _
  | .fshiL _ _ _ | .fshiR _ _ _ | .br _ | .brExecz _ | .brExecnz _ | .brScc1 _ | .brScc0 _ | .callW _
  | .retW | .jmpi _ | .nop | .movs _ _ | .movt _ _ | .yield | .fret _ _ | .pmap _ _ _ | .tlbi _ _ _
  | .asidr _ _ | .sksave _ _ _ | .skload _ _ _ | .ecnt _ | .uintr _ _ | .pstat _ _ _ | .pstatW _ _ _
  | .halt _ | .fetchEntryGrant _ | .fetchEntryRotation _ _ | .priorityAgeing _ _ | .sliceEnd _ _
  | .takeRequest _ | .barrierWordRecheck _ _ | .loadComplete _ | .postedWritePerformed _
  | .pageWalkComplete _ _ _ | .faultVector _ _ | .userInterruptDelivery _ _ | .engineCommandComplete _ _
  | .catchBurstArrival _ _ _ | .matrixQueueDispatch _ | .serviceBatchEnqueue _ | .serviceStatus _ _ _
  | .teamHold _ | .tail _ _ _ | .userDoorbell _ _ | .loglost _ _ | .partitionPageWrite _ _ _
  | .nopPacket _ _ | .launch _ _ | .cancelPacket _ _ | .signal _ _ | .preempt _ _ | .resume _ _
  | .teamStart _ _ | .preemptionHalt _ _ | .contextStop _ | .contextRestore _ _ | .dieFence _
  | .distributorReport _ | .thermalMigration _ | .checkpointIntervalClose _ _ | .arm _ _ _
  | .ceilingRaise _ _ | .checkpointCommit _ _ | .saveCostRecord _ _ | .staticEnergyTick
  | .atsTranslationCompletion _ _ _ _ _ _ _ _ | .pageResponse _ _ _ _ | .priTimeout _ _ _
  | .atsInvalidateRequest _ _ _ | .invalidateCompletion _ | .ridgeRequest _ _ _ _ _ _ _ _
  | .ridgeErrorCompletion _ _ | .ingressAccess _ _ _ _ | .tierCreditUpdate _ _ | .islandPause _
  | .patrolScrub _ _ | .flr _ | .powerGood _ _ | .partAssign | .partSet | .partReset | .partFree | .ctxpool
  | .egress | .importE | .quiesce | .quiesceAck _ | .extentAdd | .extentRevoke | .extentRelease _ | .fwStage
  | .fwUpdate | .lifecycle | .spare | .ckptRegion | .ckptBase | .illegalInstruction
  | .matrixCommandComplete _ | .streamerWrite _ _ | .coreRelease _ _ | .ridgeFlitRetry _
  | .backInvalidation _ | .go _ _ => false
  | .copy _ _ | .copyT2 _ _ | .copyT3 _ _ | .copyConv _ _ | .qcopy _ _ | .catchL _ _ | .catchT2 _ _
  | .pref _ _ | .mload _ _ | .mloop _ _ | .mloops _ _ | .mdrain _ _ | .mdrains _ _ | .mzero _ _ | .msig _ _
  | .mskip _ _ | .mstat _ _ | .join _ | .wnd _ _ | .endW | .svc _ _ _ _ | .trap _ | .uiret | .brk _
  | .take _ | .spawn _ _ | .joinc _ | .barSync _ | .barArr _ _ _ | .barArrG _ _ _ | .barWait _ _
  | .barWaitG _ _ | .give _ | .claim _ | .roleW _ | .cancel _ _ | .ctr _ _ => true

/-- Whether a word is a SYS word (R341). -/
def Instr.sys : Instr → Bool
  | .clause _ _ _ _ _ | .iadd _ _ _ | .isub _ _ _ | .imul _ _ _ | .imulhi _ _ _ | .nmulhi _ _ _
  | .imin _ _ _ | .imax _ _ _ | .nmin _ _ _ | .nmax _ _ _ | .andV _ _ _ | .orV _ _ _ | .xorV _ _ _
  | .shlV _ _ _ | .shrV _ _ _ | .sarV _ _ _ | .isad _ _ _ | .popc _ _ | .clz _ _ | .ctz _ _ | .brev _ _
  | .bfe _ _ _ | .bfi _ _ _ | .fshl _ _ _ | .fshr _ _ _ | .rotl _ _ _ | .iabs _ _ | .ineg _ _ | .imad _ _ _
  | .faddF32 _ _ _ | .fsubF32 _ _ _ | .fmulF32 _ _ _ | .fmaF32 _ _ _ | .fmsF32 _ _ _ | .fnmaF32 _ _ _
  | .fminF32 _ _ _ | .fmaxF32 _ _ _ | .fabsF32 _ _ | .fnegF32 _ _ | .fcpsF32 _ _ _ | .ffloorF32 _ _
  | .fceilF32 _ _ | .ftruncF32 _ _ | .frintF32 _ _ | .fclassF32 _ _ | .haddBf16 _ _ _ | .hsubBf16 _ _ _
  | .hmulBf16 _ _ _ | .hfmaBf16 _ _ _ | .hminBf16 _ _ _ | .hmaxBf16 _ _ _ | .hdot2Bf16 _ _ _
  | .haddF16 _ _ _ | .hsubF16 _ _ _ | .hmulF16 _ _ _ | .hfmaF16 _ _ _ | .hminF16 _ _ _ | .hmaxF16 _ _ _
  | .hdot2F16 _ _ _ | .cvtI32F32 _ _ | .cvtN32F32 _ _ | .cvtF32I32 _ _ | .cvtF32N32 _ _ | .cvtBf16F32Lo _ _
  | .cvtBf16F32Hi _ _ | .cvtF32Bf16Lo _ _ | .cvtF32Bf16Hi _ _ | .cvtF16F32Lo _ _ | .cvtF16F32Hi _ _
  | .cvtF32F16Lo _ _ | .cvtF32F16Hi _ _ | .cvtL6F32 _ _ _ | .cvtF32L6 _ _ _ | .cvtQL6 _ _ _ | .feq _ _ _
  | .fne _ _ _ | .flt _ _ _ | .fle _ _ _ | .fgt _ _ _ | .fge _ _ _ | .ford _ _ _ | .funo _ _ _ | .ieq _ _ _
  | .ine _ _ _ | .ilt _ _ _ | .ile _ _ _ | .nlt _ _ _ | .nle _ _ _ | .fcls _ _ _ | .rcp _ _ | .rsq _ _
  | .sqrt _ _ | .exp2 _ _ | .log2 _ _ | .sinpi _ _ | .cospi _ _ | .tanh _ _ | .shfl _ _ _ | .shfx _ _ _
  | .shfu _ _ _ | .shfd _ _ _ | .bcast _ _ _ | .ballot _ _ | .vany _ _ | .vall _ _ | .redi _ _ | .redf _ _
  | .redmx _ _ _ | .scani _ _ _ | .sshf _ _ _ | .sshx _ _ _ | .sbc _ _ _ | .sadd _ _ _ | .ssub _ _ _
  | .smul _ _ _ | .sand _ _ _ | .sor _ _ _ | .sxor _ _ _ | .sshl _ _ _ | .sshr _ _ _ | .ssar _ _ _
  | .smin _ _ _ | .smax _ _ _ | .snmin _ _ _ | .snmax _ _ _ | .scmpeq _ _ _ | .scmplt _ _ _ | .scmpnlt _ _ _
  | .saddi _ _ _ | .movi _ _ | .movhi _ _ | .vaddi _ _ _ | .ld _ _ _ _ | .st _ _ _ _ | .ldS8 _ _ _
  | .ldZ8 _ _ _ | .ldS16 _ _ _ | .ldZ16 _ _ _ | .st8 _ _ _ | .st16 _ _ _ | .ldl _ _ _ _ | .stl _ _ _ _
  | .ald _ _ _ | .aldUnp _ _ _ | .aldQnt _ _ _ | .aldSpec _ _ _ | .ast _ _ _ | .astUnp _ _ _ | .ldi _ _ _ _
  | .atomAdd _ _ _ _ | .atomSub _ _ _ _ | .atomMin _ _ _ _ | .atomMax _ _ _ _ | .atomNmin _ _ _ _
  | .atomNmax _ _ _ _ | .atomAnd _ _ _ _ | .atomOr _ _ _ _ | .atomXor _ _ _ _ | .atomXchg _ _ _ _
  | .atomCas _ _ _ _ | .atomInc _ _ _ _ | .atomDec _ _ _ _ | .atomFadd _ _ _ _ | .atomFmin _ _ _ _
  | .atomFmax _ _ _ _ | .atom64Add _ _ _ _ | .atom64Sub _ _ _ _ | .atom64Min _ _ _ _ | .atom64Max _ _ _ _
  | .atom64Nmin _ _ _ _ | .atom64Nmax _ _ _ _ | .atom64And _ _ _ _ | .atom64Or _ _ _ _ | .atom64Xor _ _ _ _
  | .atom64Xchg _ _ _ _ | .copy _ _ | .copyT2 _ _ | .copyT3 _ _ | .copyConv _ _ | .qcopy _ _ | .catchL _ _
  | .catchT2 _ _ | .pref _ _ | .mload _ _ | .mloop _ _ | .mloops _ _ | .mdrain _ _ | .mdrains _ _
  | .mzero _ _ | .msig _ _ | .mskip _ _ | .mstat _ _ | .fenceSys | .fenceHost | .inval _ _ | .flush _ _
  | .waitf _ _ | .lop3 _ _ _ _ | .fshiL _ _ _ | .fshiR _ _ _ | .br _ | .brExecz _ | .brExecnz _ | .brScc1 _
  | .brScc0 _ | .callW _ | .retW | .jmpi _ | .join _ | .wnd _ _ | .endW | .svc _ _ _ _ | .trap _ | .nop
  | .movs _ _ | .movt _ _ | .uiret | .brk _ | .yield | .take _ | .spawn _ _ | .joinc _ | .barSync _
  | .barArr _ _ _ | .barArrG _ _ _ | .barWait _ _ | .barWaitG _ _ | .give _ | .claim _ | .roleW _
  | .cancel _ _ | .ctr _ _ | .fetchEntryGrant _ | .fetchEntryRotation _ _ | .priorityAgeing _ _
  | .sliceEnd _ _ | .takeRequest _ | .barrierWordRecheck _ _ | .loadComplete _ | .postedWritePerformed _
  | .pageWalkComplete _ _ _ | .faultVector _ _ | .userInterruptDelivery _ _ | .engineCommandComplete _ _
  | .catchBurstArrival _ _ _ | .matrixQueueDispatch _ | .serviceBatchEnqueue _ | .serviceStatus _ _ _
  | .teamHold _ | .tail _ _ _ | .userDoorbell _ _ | .loglost _ _ | .partitionPageWrite _ _ _
  | .nopPacket _ _ | .launch _ _ | .cancelPacket _ _ | .signal _ _ | .preempt _ _ | .resume _ _
  | .teamStart _ _ | .preemptionHalt _ _ | .contextStop _ | .contextRestore _ _ | .dieFence _
  | .distributorReport _ | .thermalMigration _ | .checkpointIntervalClose _ _ | .arm _ _ _
  | .ceilingRaise _ _ | .checkpointCommit _ _ | .saveCostRecord _ _ | .staticEnergyTick
  | .atsTranslationCompletion _ _ _ _ _ _ _ _ | .pageResponse _ _ _ _ | .priTimeout _ _ _
  | .atsInvalidateRequest _ _ _ | .invalidateCompletion _ | .ridgeRequest _ _ _ _ _ _ _ _
  | .ridgeErrorCompletion _ _ | .ingressAccess _ _ _ _ | .tierCreditUpdate _ _ | .islandPause _
  | .patrolScrub _ _ | .flr _ | .powerGood _ _ | .partAssign | .partSet | .partReset | .partFree | .ctxpool
  | .egress | .importE | .quiesce | .quiesceAck _ | .extentAdd | .extentRevoke | .extentRelease _ | .fwStage
  | .fwUpdate | .lifecycle | .spare | .ckptRegion | .ckptBase | .illegalInstruction
  | .matrixCommandComplete _ | .streamerWrite _ _ | .coreRelease _ _ | .ridgeFlitRetry _
  | .backInvalidation _ | .go _ _ => false
  | .fret _ _ | .pmap _ _ _ | .tlbi _ _ _ | .asidr _ _ | .sksave _ _ _ | .skload _ _ _ | .ecnt _
  | .uintr _ _ | .pstat _ _ _ | .pstatW _ _ _ | .halt _ => true

/-- The vector registers a word names (R54). -/
def Instr.vops : Instr → List (Nat × Nat)
  | .iadd d a b | .isub d a b | .imul d a b | .imulhi d a b | .nmulhi d a b | .imin d a b | .imax d a b
  | .nmin d a b | .nmax d a b | .andV d a b | .orV d a b | .xorV d a b | .shlV d a b | .shrV d a b
  | .sarV d a b | .isad d a b | .bfe d a b | .bfi d a b | .fshl d a b | .fshr d a b | .rotl d a b
  | .imad d a b | .faddF32 d a b | .fsubF32 d a b | .fmulF32 d a b | .fmaF32 d a b | .fmsF32 d a b
  | .fnmaF32 d a b | .fminF32 d a b | .fmaxF32 d a b | .fcpsF32 d a b | .haddBf16 d a b | .hsubBf16 d a b
  | .hmulBf16 d a b | .hfmaBf16 d a b | .hminBf16 d a b | .hmaxBf16 d a b | .hdot2Bf16 d a b
  | .haddF16 d a b | .hsubF16 d a b | .hmulF16 d a b | .hfmaF16 d a b | .hminF16 d a b | .hmaxF16 d a b
  | .hdot2F16 d a b | .cvtL6F32 d a b | .cvtF32L6 d a b | .shfl d a b | .shfx d a b | .shfu d a b
  | .shfd d a b | .bcast d a b | .redmx d a b | .scani d a b | .sshf d a b | .sshx d a b | .sbc d a b => d.vop ++ a.vop ++ b.vop
  | .popc d a | .clz d a | .ctz d a | .brev d a | .iabs d a | .ineg d a | .fabsF32 d a | .fnegF32 d a
  | .ffloorF32 d a | .fceilF32 d a | .ftruncF32 d a | .frintF32 d a | .fclassF32 d a | .cvtI32F32 d a
  | .cvtN32F32 d a | .cvtF32I32 d a | .cvtF32N32 d a | .cvtBf16F32Lo d a | .cvtBf16F32Hi d a
  | .cvtF32Bf16Lo d a | .cvtF32Bf16Hi d a | .cvtF16F32Lo d a | .cvtF16F32Hi d a | .cvtF32F16Lo d a
  | .cvtF32F16Hi d a | .rcp d a | .rsq d a | .sqrt d a | .exp2 d a | .log2 d a | .sinpi d a | .cospi d a
  | .tanh d a | .redi d a | .redf d a | .vaddi d a _ => d.vop ++ a.vop
  | .cvtQL6 d a b => d.vopN 2 ++ a.vop ++ b.vop
  | .feq _ a b | .fne _ a b | .flt _ a b | .fle _ a b | .fgt _ a b | .fge _ a b | .ford _ a b | .funo _ a b
  | .ieq _ a b | .ine _ a b | .ilt _ a b | .ile _ a b | .nlt _ a b | .nle _ a b | .fcls _ a b => a.vop ++ b.vop
  | .ballot _ a | .vany _ a | .vall _ a => a.vop
  | .movi d _ | .movhi d _ => d.vop
  | .ld w d a _ | .st w d a _ => d.vopN (2 ^ w.toNat) ++ a.vopN 2
  | .ldS8 d a b | .ldZ8 d a b | .ldS16 d a b | .ldZ16 d a b | .st8 d a b | .st16 d a b | .ald d a b
  | .aldUnp d a b | .aldQnt d a b | .aldSpec d a b | .ast d a b | .astUnp d a b | .atomAdd _ d a b
  | .atomSub _ d a b | .atomMin _ d a b | .atomMax _ d a b | .atomNmin _ d a b | .atomNmax _ d a b
  | .atomAnd _ d a b | .atomOr _ d a b | .atomXor _ d a b | .atomXchg _ d a b | .atomInc _ d a b
  | .atomDec _ d a b | .atomFadd _ d a b | .atomFmin _ d a b | .atomFmax _ d a b => d.vop ++ a.vopN 2 ++ b.vop
  | .ldl w d a b | .stl w d a b => d.vopN (2 ^ w.toNat) ++ a.vop ++ b.vop
  | .ldi w d _ b => d.vopN (2 ^ w.toNat) ++ b.vop
  | .atomCas _ d a b => d.vop ++ a.vopN 2 ++ b.vopN 2
  | .atom64Add _ d a b | .atom64Sub _ d a b | .atom64Min _ d a b | .atom64Max _ d a b | .atom64Nmin _ d a b
  | .atom64Nmax _ d a b | .atom64And _ d a b | .atom64Or _ d a b | .atom64Xor _ d a b | .atom64Xchg _ d a b => d.vopN 2 ++ a.vopN 2 ++ b.vopN 2
  | .lop3 _ d a b => [(d.toNat, 1), (a.toNat, 1), (b.toNat, 1)]
  | .fshiL d a _ | .fshiR d a _ => d.vop ++ a.vopN 2
  | .svc w d _ b => d.vopN (2 ^ w.toNat) ++ b.vopN (2 ^ w.toNat)
  | .clause _ _ _ _ _ | .sadd _ _ _ | .ssub _ _ _ | .smul _ _ _ | .sand _ _ _ | .sor _ _ _ | .sxor _ _ _
  | .sshl _ _ _ | .sshr _ _ _ | .ssar _ _ _ | .smin _ _ _ | .smax _ _ _ | .snmin _ _ _ | .snmax _ _ _
  | .scmpeq _ _ _ | .scmplt _ _ _ | .scmpnlt _ _ _ | .saddi _ _ _ | .copy _ _ | .copyT2 _ _ | .copyT3 _ _
  | .copyConv _ _ | .qcopy _ _ | .catchL _ _ | .catchT2 _ _ | .pref _ _ | .mload _ _ | .mloop _ _
  | .mloops _ _ | .mdrain _ _ | .mdrains _ _ | .mzero _ _ | .msig _ _ | .mskip _ _ | .mstat _ _ | .fenceSys
  | .fenceHost | .inval _ _ | .flush _ _ | .waitf _ _ | .br _ | .brExecz _ | .brExecnz _ | .brScc1 _
  | .brScc0 _ | .callW _ | .retW | .jmpi _ | .join _ | .wnd _ _ | .endW | .trap _ | .nop | .movs _ _
  | .movt _ _ | .uiret | .brk _ | .yield | .take _ | .spawn _ _ | .joinc _ | .barSync _ | .barArr _ _ _
  | .barArrG _ _ _ | .barWait _ _ | .barWaitG _ _ | .give _ | .claim _ | .roleW _ | .cancel _ _ | .ctr _ _
  | .fret _ _ | .pmap _ _ _ | .tlbi _ _ _ | .asidr _ _ | .sksave _ _ _ | .skload _ _ _ | .ecnt _
  | .uintr _ _ | .pstat _ _ _ | .pstatW _ _ _ | .halt _ | .fetchEntryGrant _ | .fetchEntryRotation _ _
  | .priorityAgeing _ _ | .sliceEnd _ _ | .takeRequest _ | .barrierWordRecheck _ _ | .loadComplete _
  | .postedWritePerformed _ | .pageWalkComplete _ _ _ | .faultVector _ _ | .userInterruptDelivery _ _
  | .engineCommandComplete _ _ | .catchBurstArrival _ _ _ | .matrixQueueDispatch _ | .serviceBatchEnqueue _
  | .serviceStatus _ _ _ | .teamHold _ | .tail _ _ _ | .userDoorbell _ _ | .loglost _ _
  | .partitionPageWrite _ _ _ | .nopPacket _ _ | .launch _ _ | .cancelPacket _ _ | .signal _ _
  | .preempt _ _ | .resume _ _ | .teamStart _ _ | .preemptionHalt _ _ | .contextStop _ | .contextRestore _ _
  | .dieFence _ | .distributorReport _ | .thermalMigration _ | .checkpointIntervalClose _ _ | .arm _ _ _
  | .ceilingRaise _ _ | .checkpointCommit _ _ | .saveCostRecord _ _ | .staticEnergyTick
  | .atsTranslationCompletion _ _ _ _ _ _ _ _ | .pageResponse _ _ _ _ | .priTimeout _ _ _
  | .atsInvalidateRequest _ _ _ | .invalidateCompletion _ | .ridgeRequest _ _ _ _ _ _ _ _
  | .ridgeErrorCompletion _ _ | .ingressAccess _ _ _ _ | .tierCreditUpdate _ _ | .islandPause _
  | .patrolScrub _ _ | .flr _ | .powerGood _ _ | .partAssign | .partSet | .partReset | .partFree | .ctxpool
  | .egress | .importE | .quiesce | .quiesceAck _ | .extentAdd | .extentRevoke | .extentRelease _ | .fwStage
  | .fwUpdate | .lifecycle | .spare | .ckptRegion | .ckptBase | .illegalInstruction
  | .matrixCommandComplete _ | .streamerWrite _ _ | .coreRelease _ _ | .ridgeFlitRetry _
  | .backInvalidation _ | .go _ _ => []

/-- The operands a word reads, each with how many registers (R51, R53): D where its prior value is an operand or the data of a
store, the pair of an address, the octet of a command, the scalars that `ret` names. An octet is read as whole. -/
def Instr.reads : Instr → List (Opd × Nat)
  | .isad d a b | .bfi d a b | .fshl d a b | .fshr d a b | .imad d a b | .fmaF32 d a b | .fmsF32 d a b
  | .fnmaF32 d a b | .hfmaBf16 d a b | .hdot2Bf16 d a b | .hfmaF16 d a b | .hdot2F16 d a b => [(d, 1), (a, 1), (b, 1)]
  | .iadd _ a b | .isub _ a b | .imul _ a b | .imulhi _ a b | .nmulhi _ a b | .imin _ a b | .imax _ a b
  | .nmin _ a b | .nmax _ a b | .andV _ a b | .orV _ a b | .xorV _ a b | .shlV _ a b | .shrV _ a b
  | .sarV _ a b | .bfe _ a b | .rotl _ a b | .faddF32 _ a b | .fsubF32 _ a b | .fmulF32 _ a b | .fminF32 _ a b
  | .fmaxF32 _ a b | .fcpsF32 _ a b | .haddBf16 _ a b | .hsubBf16 _ a b | .hmulBf16 _ a b | .hminBf16 _ a b
  | .hmaxBf16 _ a b | .haddF16 _ a b | .hsubF16 _ a b | .hmulF16 _ a b | .hminF16 _ a b | .hmaxF16 _ a b
  | .cvtL6F32 _ a b | .cvtF32L6 _ a b | .shfl _ a b | .shfx _ a b | .shfu _ a b | .shfd _ a b | .bcast _ a b
  | .redmx _ a b | .scani _ a b | .sshf _ a b | .sshx _ a b | .sbc _ a b | .cvtQL6 _ a b
  | .sadd _ a b | .ssub _ a b | .smul _ a b | .sand _ a b | .sor _ a b | .sxor _ a b | .sshl _ a b | .sshr _ a b
  | .ssar _ a b | .smin _ a b | .smax _ a b | .snmin _ a b | .snmax _ a b | .scmpeq _ a b | .scmplt _ a b
  | .scmpnlt _ a b
  | .feq _ a b | .fne _ a b | .flt _ a b | .fle _ a b | .fgt _ a b | .fge _ a b | .ford _ a b | .funo _ a b
  | .ieq _ a b | .ine _ a b | .ilt _ a b | .ile _ a b | .nlt _ a b | .nle _ a b | .fcls _ a b => [(a, 1), (b, 1)]
  | .cvtBf16F32Lo d a | .cvtBf16F32Hi d a | .cvtF16F32Lo d a | .cvtF16F32Hi d a => [(d, 1), (a, 1)]
  | .popc _ a | .clz _ a | .ctz _ a | .brev _ a | .iabs _ a | .ineg _ a | .fabsF32 _ a | .fnegF32 _ a
  | .ffloorF32 _ a | .fceilF32 _ a | .ftruncF32 _ a | .frintF32 _ a | .fclassF32 _ a | .cvtI32F32 _ a
  | .cvtN32F32 _ a | .cvtF32I32 _ a | .cvtF32N32 _ a | .cvtF32Bf16Lo _ a | .cvtF32Bf16Hi _ a | .cvtF32F16Lo _ a
  | .cvtF32F16Hi _ a | .rcp _ a | .rsq _ a | .sqrt _ a | .exp2 _ a | .log2 _ a | .sinpi _ a | .cospi _ a
  | .tanh _ a | .redi _ a | .redf _ a | .vaddi _ a _ | .saddi _ a _ | .ballot _ a | .vany _ a | .vall _ a => [(a, 1)]
  | .movhi d _ => [(d, 1)]
  | .st w d a _ => [(d, 2 ^ w.toNat), (a, 2)]
  | .ld _ _ a _ => [(a, 2)]
  | .st8 d a b | .st16 d a b | .ast d a b | .astUnp d a b => [(d, 1), (a, 2), (b, 1)]
  | .ldS8 _ a b | .ldZ8 _ a b | .ldS16 _ a b | .ldZ16 _ a b | .ald _ a b | .aldUnp _ a b | .aldQnt _ a b
  | .aldSpec _ a b | .ldi _ _ a b | .atomAdd _ _ a b | .atomSub _ _ a b | .atomMin _ _ a b | .atomMax _ _ a b
  | .atomNmin _ _ a b | .atomNmax _ _ a b | .atomAnd _ _ a b | .atomOr _ _ a b | .atomXor _ _ a b
  | .atomXchg _ _ a b | .atomInc _ _ a b | .atomDec _ _ a b | .atomFadd _ _ a b | .atomFmin _ _ a b
  | .atomFmax _ _ a b => [(a, 2), (b, 1)]
  | .stl w d a b => [(d, 2 ^ w.toNat), (a, 1), (b, 1)]
  | .ldl _ _ a b => [(a, 1), (b, 1)]
  | .atomCas _ _ a b | .atom64Add _ _ a b | .atom64Sub _ _ a b | .atom64Min _ _ a b | .atom64Max _ _ a b
  | .atom64Nmin _ _ a b | .atom64Nmax _ _ a b | .atom64And _ _ a b | .atom64Or _ _ a b | .atom64Xor _ _ a b
  | .atom64Xchg _ _ a b => [(a, 2), (b, 2)]
  | .lop3 _ d a b => [d, a, b].map (fun r => (.v (r.toFin.castLE (by decide)), 1))
  | .fshiL _ a _ | .fshiR _ a _ => [(a, 2)]
  | .svc w _ a b => [(a, 1), (b, 2 ^ w.toNat)]
  | .copy _ a | .copyT2 _ a | .copyT3 _ a | .copyConv _ a | .qcopy _ a | .catchL _ a | .catchT2 _ a | .pref _ a
  | .mload _ a | .mloop _ a | .mloops _ a | .mdrain _ a | .mdrains _ a | .msig _ a | .mskip _ a => [(a, 8)]
  | .mzero _ a | .mstat _ a | .wnd a _ | .movt a _ | .joinc a | .barArr _ a _ | .barWait a _ | .roleW a
  | .asidr _ a | .pstat _ a _ | .pstatW _ a _ | .halt a => [(a, 1)]
  | .inval a b | .flush a b | .barWaitG a b | .barArrG _ a b | .tlbi _ a b | .pmap _ a b => [(a, 2), (b, 1)]
  | .sksave _ a b | .skload _ a b => [(a, 2), (b, 1)]
  | .jmpi a => [(a, 2)]
  | .retW => [(.s 22, 2)]
  | .spawn _ a => [(a, 4)]
  | .uintr a b | .fret a b => [(a, 1), (b, 1)]
  | .cancel a l => if l = 1 ∨ l = 4 then [] else [(a, 1)]
  | .movi _ _ | .clause _ _ _ _ _ | .fenceSys
 | .fenceHost | .waitf _ _ | .br _ | .brExecz _ | .brExecnz _ | .brScc1 _
  | .brScc0 _ | .callW _ | .join _ | .endW | .trap _ | .nop | .movs _ _
  | .uiret | .brk _ | .yield | .take _ | .barSync _
  | .give _ | .claim _ | .ctr _ _
  | .ecnt _
  | .fetchEntryGrant _ | .fetchEntryRotation _ _ | .priorityAgeing _ _
  | .sliceEnd _ _ | .takeRequest _ | .barrierWordRecheck _ _ | .loadComplete _ | .postedWritePerformed _
  | .pageWalkComplete _ _ _ | .faultVector _ _ | .userInterruptDelivery _ _ | .engineCommandComplete _ _
  | .catchBurstArrival _ _ _ | .matrixQueueDispatch _ | .serviceBatchEnqueue _ | .serviceStatus _ _ _
  | .teamHold _ | .tail _ _ _ | .userDoorbell _ _ | .loglost _ _ | .partitionPageWrite _ _ _ | .nopPacket _ _
  | .launch _ _ | .cancelPacket _ _ | .signal _ _ | .preempt _ _ | .resume _ _ | .teamStart _ _
  | .preemptionHalt _ _ | .contextStop _ | .contextRestore _ _ | .dieFence _ | .distributorReport _
  | .thermalMigration _ | .checkpointIntervalClose _ _ | .arm _ _ _ | .ceilingRaise _ _ | .checkpointCommit _ _
  | .saveCostRecord _ _ | .staticEnergyTick | .atsTranslationCompletion _ _ _ _ _ _ _ _ | .pageResponse _ _ _ _
  | .priTimeout _ _ _ | .atsInvalidateRequest _ _ _ | .invalidateCompletion _ | .ridgeRequest _ _ _ _ _ _ _ _
  | .ridgeErrorCompletion _ _ | .ingressAccess _ _ _ _ | .tierCreditUpdate _ _ | .islandPause _
  | .patrolScrub _ _ | .flr _ | .powerGood _ _ | .partAssign | .partSet | .partReset | .partFree | .ctxpool
  | .egress | .importE | .quiesce | .quiesceAck _ | .extentAdd | .extentRevoke | .extentRelease _ | .fwStage
  | .fwUpdate | .lifecycle | .spare | .ckptRegion | .ckptBase | .illegalInstruction | .matrixCommandComplete _
  | .streamerWrite _ _ | .coreRelease _ _ | .ridgeFlitRetry _ | .backInvalidation _ | .go _ _ => []

/-- The vector registers a word reads, each with how many (R51, R54). -/
def Instr.vreads (i : Instr) : List (Nat × Nat) := i.reads.flatMap (fun o => o.1.vopN o.2)

/-- The scalars a word reads (R51). -/
def Instr.sreads (i : Instr) : List Nat :=
  i.reads.flatMap (fun o => match o.1 with
    | .s n => (List.range o.2).map (n.val + ·)
    | .v _ | .zero | .exec | .lane | .slice | .bc _ | .role => [])

end Sys2Proof
end

