-- ==== Sys2Proof/Machine/Operands.lean ====
section
/-! DEFINITION. Reading and writing the operands of R51 in a slice, the masks of R10, and lane-by-lane effects. -/

namespace Sys2Proof

/-- The operand `j` registers above, of the same class (R53); a code of no class stays as it is. -/
def Opd.plus (j : Nat) : Opd → Opd
  | .v n => if h : n.val + j < 96 then .v ⟨n.val + j, h⟩ else .zero
  | .s n => if h : n.val + j < 24 then .s ⟨n.val + j, h⟩ else .zero
  | .zero => .zero
  | .exec => .exec
  | .lane => .lane
  | .slice => .slice
  | .bc k => .bc k
  | .role => .role

/-- Whether an operand is a vector register. -/
def Opd.isV : Opd → Bool
  | .v _ => true
  | .s _ | .zero | .exec | .lane | .slice | .bc _ | .role => false

end Sys2Proof

namespace Sys2Proof.Machine

/-! ## Registers -/

/-- Physical vector register `p` of lane `l` (R51, R54). -/
def Slice.vget (sl : Slice) (p l : Nat) : Word := nget sl.vregs (4 * p + l)

/-- The marks of a register file after physical register `p` of lane `l` is written: its block is dirty, its word is
sound, and an outstanding operation that will write the word finds it written since (R190, R400, R445). -/
def RegMarks.write (m : RegMarks) (p l : Nat) : RegMarks :=
  { dirty := insertNat (p / 8) m.dirty, marred := m.marred.filter (· != 4 * p + l),
    due := m.due.map (fun e => if e.1 = 4 * p + l then (e.1, true) else e) }

/-- The marks of a register file after an operation that will write some words is issued (R190). -/
def RegMarks.await (m : RegMarks) (ks : List Nat) : RegMarks :=
  { m with due := m.due.filter (fun e => !ks.contains e.1) ++ ks.map (fun k => (k, false)) }

/-- Whether an instruction has written a word since the operation that will write it was issued (R190). -/
def RegMarks.since (m : RegMarks) (k : Nat) : Bool := m.due.contains (k, true)

/-- The slice after physical register `p` of lane `l` is written. -/
def Slice.vset (sl : Slice) (p l : Nat) (w : Word) : Slice :=
  { sl with vregs := nset sl.vregs (4 * p + l) w, marks := sl.marks.write p l }

/-- Scalar `n` of the bank in force (R51, R331). -/
def Slice.sget (sl : Slice) (n : Nat) : Word := nget sl.sregs n

/-- The slice after an outstanding operation writes a word of a lane; where an instruction has written the word since, `keep`
leaves its result in place (R190). -/
def Slice.land (sl : Slice) (p l : Nat) (w : Word) (keep : Bool) : Slice :=
  let r := if keep && sl.marks.since (4 * p + l) then sl else sl.vset p l w
  { r with marks := { r.marks with due := sl.marks.due.filter (fun e => e.1 != 4 * p + l) } }

/-- The place of scalar `n` of the bank in force among the marks of the scalars (R331, R445). -/
def Slice.skey (sl : Slice) (n : Nat) : Nat := if sl.mode = .supervisor ∧ 16 ≤ n then n + 8 else n

/-- The slice after scalar `n` is written, which is then sound (R445). -/
def Slice.sset (sl : Slice) (n : Nat) (w : Word) : Slice :=
  { sl with sregs := nset sl.sregs n w, smarred := sl.smarred.filter (· != sl.skey n) }

/-- Flag `k` (R11). -/
def Slice.flag (sl : Slice) (k : Nat) : BitVec 6 := nget sl.flags k

/-- The slice after flag `k` is written. -/
def Slice.setFlag (sl : Slice) (k : Nat) (v : BitVec 6) : Slice := { sl with flags := nset sl.flags k v }

/-! ## Masks (R10) -/

/-- The effective mask, EXEC AND NOT PARK (R10). -/
def Slice.eff (sl : Slice) : BitVec 4 := sl.exec &&& ~~~sl.park

/-- Whether lane `l` is in the effective mask. -/
def Slice.on (sl : Slice) (l : Nat) : Bool := sl.eff.getLsbD l

/-- The lanes of the effective mask, lowest first. -/
def Slice.lanes (sl : Slice) : List Nat := [0, 1, 2, 3].filter sl.on

/-- The slice after EXEC is written; a zero effective mask makes the boundary a convergence point (R338). -/
def Slice.setExec (sl : Slice) (m : BitVec 4) : Slice :=
  let r := { sl with exec := m }
  if r.eff = 0 then { r with conv := true } else r

/-- The slice after PARK is written by a word (R57, R338). -/
def Slice.setPark (sl : Slice) (m : BitVec 4) : Slice :=
  let r := { sl with park := m }
  if r.eff = 0 then { r with conv := true } else r

/-! ## Operands (R51, R52) -/

/-- The crew position of a slice in crews of `2^c`; a handler thread is a crew of one (R13, R27). -/
def Slice.pos (c : Nat) (sl : Slice) : Nat :=
  match sl.thread with
  | some _ => 0
  | none => sl.idx % 2 ^ c

/-- The value `slice` reads: a handler thread reads its issuing slice's (R52). -/
def Slice.sliceNo (sl : Slice) : Nat :=
  match sl.thread with
  | some t => t.owner
  | none => sl.idx

/-- A burst coordinate, 0 outside a handler (R51, R251). -/
def Slice.bcVal (sl : Slice) (k : Nat) : Word :=
  match sl.thread with
  | some t => if k = 0 then t.bc0 else if k = 1 then t.bc1 else t.bc2
  | none => 0

/-- Operand `o` as lane `l` reads it, in crews of `2^c` (R51, R52). -/
def Slice.read (c : Nat) (sl : Slice) (o : Opd) (l : Nat) : Word :=
  match o with
  | .v n => sl.vget (sl.wb + n.val) l
  | .s n => sl.sget n.val
  | .zero => 0
  | .exec => sl.exec.setWidth 32
  | .lane => BitVec.ofNat 32 (4 * sl.pos c + l)
  | .slice => BitVec.ofNat 32 sl.sliceNo
  | .bc k => sl.bcVal k.val
  | .role => BitVec.ofNat 32 sl.role

/-- A scalar-readable operand. -/
def Slice.readS (sl : Slice) (o : Opd) : Word := sl.read 0 o 0

/-- The value of an operand of `k` registers, the lowest-numbered least significant (R53). -/
def Slice.readN (c : Nat) (sl : Slice) (o : Opd) (l : Nat) : Nat → Nat
  | 0 => 0
  | k + 1 => sl.readN c o l k + (sl.read c (o.plus k) l).toNat <<< (32 * k)

/-- A pair as a 64-bit number. -/
def Slice.pair (c : Nat) (sl : Slice) (o : Opd) (l : Nat) : Nat := sl.readN c o l 2

/-- The slice after lane `l` of a vector destination is written; `zero` discards (R51). -/
def Slice.write (sl : Slice) (o : Opd) (l : Nat) (w : Word) : Slice :=
  match o with
  | .v n => sl.vset (sl.wb + n.val) l w
  | .s _ | .zero | .exec | .lane | .slice | .bc _ | .role => sl

/-- `write_result`: a scalar, `exec` or `zero` destination (R158). -/
def Slice.writeS (sl : Slice) (o : Opd) (w : Word) : Slice :=
  match o with
  | .s n => sl.sset n.val w
  | .exec => sl.setExec (w.setWidth 4)
  | .v _ | .zero | .lane | .slice | .bc _ | .role => sl

/-- A scalar pair written with a 64-bit number. -/
def Slice.writePair (sl : Slice) (o : Opd) (x : Nat) : Slice :=
  (sl.writeS o (BitVec.ofNat 32 x)).writeS (o.plus 1) (BitVec.ofNat 32 (x >>> 32))

/-- The words of a scalar octet. -/
def Slice.octet (sl : Slice) (o : Opd) : List Word := (List.range 8).map (fun j => sl.readS (o.plus j))

/-! ## Lane-by-lane effects (R188, R189) -/

/-- The slice after each lane of the effective mask writes `f l` to `d`. Every lane's value is computed from the
slice as it was (R189). -/
def Slice.vmap (sl : Slice) (d : Opd) (f : Nat → Word) : Slice :=
  [0, 1, 2, 3].foldl (fun a l => if sl.on l then a.write d l (f l) else a) sl

/-- As `vmap`, for values with the flags they raise, which go to FPS (R95). -/
def Slice.vmapF (sl : Slice) (d : Opd) (f : Nat → Nat × BitVec 5) : Slice :=
  let r := sl.vmap d (fun l => BitVec.ofNat 32 (f l).1)
  { r with fps := [0, 1, 2, 3].foldl (fun a l => if sl.on l then a ||| (f l).2 else a) sl.fps }

/-- The number of a code offset as SEPC holds it: bits [25:2] of the header, index, and EXEC (R336). -/
def pcWord (hdr ix : Nat) (low : Nat) : Word := BitVec.ofNat 32 ((hdr / 4) <<< 8 + ix <<< 5 + low)

end Sys2Proof.Machine
end

