-- ==== Sys2Proof/Machine/Translate.lean ====
section
/-! DEFINITION. The physical map, context entries, page tables, the walk, and the look-up in the TLBs and the ATS
cache (R354 to R369). -/

namespace Sys2Proof.Machine

/-! ## The physical map (R354) -/

/-- The ranges of R354. -/
inductive Range where | hbm | spad | reg | host | tier | fabric
  deriving DecidableEq, Repr

/-- First address of scratchpad space (R354). -/
def spadBase : Nat := 0x010000000000
/-- First address of the host link window (R354). -/
def hostBase : Nat := 0x080000000000
/-- Bytes of HBM of one die (R354). -/
def dieBytes : Nat := 0x1800000000

/-- The range a physical address lies in, and the end of that range (R354). -/
def rangeOf (pa : Nat) : Option (Range × Nat) :=
  if pa < 0x6000000000 then some (.hbm, 0x6000000000)
  else if spadBase ≤ pa && pa < 0x010010000000 then some (.spad, 0x010010000000)
  else if 0x020000000000 ≤ pa && pa < 0x030000000000 then some (.reg, 0x030000000000)
  else if hostBase ≤ pa && pa < 0x100000000000 then some (.host, 0x100000000000)
  else if 0x100000000000 ≤ pa && pa < 0x800000000000 then some (.tier, 0x800000000000)
  else if 0x8000000000000 ≤ pa && pa < 0x10000000000000 then some (.fabric, 0x10000000000000)
  else none

/-- The kind of range of an address. -/
def inRange (r : Range) (pa : Nat) : Bool := (rangeOf pa).map Prod.fst == some r

/-- Whether an address lies beyond what the state holds: the registers of an on-package unit, whose contents the spec
does not give (R354; log 2). -/
def beyond (pa : Nat) : Bool := inRange .reg pa

/-- Whether an access to an address goes out on a link, or to a unit's registers, as a transaction of its own; a peer
request is sent ahead of its event (R376). -/
def onLink (pa : Nat) : Bool := beyond pa || inRange .host pa || inRange .tier pa

/-- Whether an address lies in external memory (R120). -/
def external (pa : Nat) : Bool := inRange .host pa || inRange .tier pa || inRange .fabric pa

/-- Whether `[pa, pa + n)` lies in one range. -/
def rangeFits (pa n : Nat) : Bool :=
  match rangeOf pa with
  | some (_, e) => decide (pa + n ≤ e)
  | none => false

/-- The die that owns an HBM address (R354). -/
def dieOfHbm (pa : Nat) : Nat := pa / dieBytes

/-- First scratchpad address of a core, numbered as in R379. -/
def spadOf (core : Nat) : Nat := spadBase + (core <<< 19)

/-- The core whose scratchpad holds an address of scratchpad space. -/
def coreOfSpad (pa : Nat) : Nat := (pa - spadBase) >>> 19

/-- The cluster of a core, 2 die + cluster (R379, R426). -/
def clusterOf (core : Nat) : Nat := core / 64

/-- The die of a core (R379). -/
def dieOf (core : Nat) : Nat := core / 128

/-! ## Partitions and extents -/

/-- Partition `p`; one past the last reads as unassigned. -/
def State.part (s : State) (p : Nat) : Part := (s.parts[p]?).getD Part.reset

/-- The state with partition `p` changed. -/
def State.setPart (s : State) (p : Nat) (f : Part → Part) : State := { s with parts := s.parts.modify p f }

/-- The placed extent whose window holds a tier address (R431). -/
def State.extentAt (s : State) (pa : Nat) : Option Extent :=
  s.extents.find? (fun e => decide (e.base ≤ pa) && decide (pa < e.base + e.bytes))

/-- Whether a tier address lies in a revoked extent, or in none any more (R431, R432; log 16). -/
def State.revoked (s : State) (pa : Nat) : Bool :=
  match s.extentAt pa with
  | some e => e.revoked
  | none => inRange .tier pa

/-- The unit whose poison mark an address shares: 4 bytes in scratchpad, else 128 (R445). -/
def poisonUnit (pa : Nat) : Nat := if inRange .spad pa then 4 else 128

/-- Whether a read of `[pa, pa + n)` consumes poison: a marked unit, or a revoked extent (R432, R445). -/
def State.poisoned (s : State) (pa n : Nat) : Bool :=
  s.revoked pa || s.poison.any (fun u => decide (u < pa + n) && decide (pa < u + poisonUnit u))

/-! ## Context entries (R355) -/

/-- A context entry in use (R355). -/
structure CtxEntry where
  root : Nat
  atsen : Bool
  valid : Bool
  pasid : Nat
  deriving DecidableEq, Repr

/-- The context entry of an ASID of a partition; an ASID outside the range has V = 0 (R355), and so has one whose entry cannot be
read because it is poisoned or its extent revoked (R432, R445; log 17). -/
def State.ctxEntry (s : State) (p asid : Nat) : CtxEntry :=
  let q := s.part p
  if q.asid0.toNat ≤ asid && asid < q.asid0.toNat + q.asidn.toNat then
    let a := q.ctxbase.toNat + 32 * (asid - q.asid0.toNat)
    let lo := s.mem.nat a 8
    let hi := s.mem.nat (a + 8) 8
    { root := bits lo 51 12 <<< 12, atsen := bit lo 1, valid := bit lo 0 && !s.poisoned a 16, pasid := bits hi 19 0 }
  else { root := 0, atsen := false, valid := false, pasid := 0 }

/-- The partition that owns an ASID (R355, R427). -/
def State.partOfAsid (s : State) (asid : Nat) : Nat :=
  (findBelow s.parts.length (fun p =>
    let q := s.part p
    decide (q.asid0.toNat ≤ asid) && decide (asid < q.asid0.toNat + q.asidn.toNat))).getD s.parts.length

/-- The PASID that an ASID is bound to (R355). -/
def State.pasidOf (s : State) (asid : Nat) : Nat := (s.ctxEntry (s.partOfAsid asid) asid).pasid

/-- The epoch of an ASID (R355). -/
def State.epoch (s : State) (asid : Nat) : BitVec 8 := nget s.epochs asid

/-! ## Entries (R357) -/

/-- SHARE by its code (R123). -/
def shareOf : Nat → Share
  | 0 => .priv
  | 1 => .rdsh
  | 2 => .coh
  | _ => .dev

/-- The code of SHARE (R123). -/
def Share.code : Share → Nat
  | .priv => 0
  | .rdsh => 1
  | .coh => 2
  | .dev => 3

/-- HOME by its code (R123). -/
def homeOf : Nat → Home
  | 0 => .cached
  | 1 => .spad
  | 2 => .slice
  | _ => .nocache

/-- The code of HOME (R123). -/
def Home.code : Home → Nat
  | .cached => 0
  | .spad => 1
  | .slice => 2
  | .nocache => 3

/-- The five levels of a walk: level, low VA bit, entries (R356). -/
def levels : List (Nat × Nat × Nat) := [(0, 48, 512), (1, 39, 512), (2, 30, 512), (3, 21, 512), (4, 16, 32)]

/-- What one entry says (R357, R358). -/
inductive EntryKind where
  | bad
  | table (next : Nat)
  | leaf (l : Leaf)
  deriving DecidableEq, Repr

/-- Whether a leaf is well formed in its policy and frame (R124, R354, R426). `p` is the partition that uses it. -/
def State.leafOk (s : State) (p : Nat) (l : Leaf) : Bool :=
  (l.share != .dev || l.home == .nocache)
  && (l.home != .spad || inRange .spad l.pa)
  && (l.home != .slice || inRange .hbm l.pa || inRange .fabric l.pa)
  && (!inRange .reg l.pa || l.share == .dev)
  && rangeFits l.pa (2 ^ l.log)
  && (match s.extentAt l.pa with
      | some e => e.mask.getLsbD p
      | none => !inRange .tier l.pa)

/-- An entry read at a level: `atsen` of the context entry, the VA walked (R357, R358). -/
def State.entryKind (s : State) (p : Nat) (atsen : Bool) (level va e : Nat) : EntryKind :=
  let kind := bits e 55 54
  let addr := bits e 51 8 <<< 8
  let log := match level with
    | 0 => 48 | 1 => 39 | 2 => 30 | 3 => 21 | _ => 16
  if !bit e 0 || bits e 57 56 != 0 then .bad
  else if bit e 1 then
    if bits e 7 2 != 0 || bits e 55 52 != 0 || level == 4 then .bad
    else if level == 3 || addr % 4096 == 0 then .table addr
    else .bad
  else
    let l : Leaf := { va := (va / 2 ^ log) * 2 ^ log, pa := addr, log := log, share := shareOf (bits e 7 6),
                      home := homeOf (bits e 53 52), u := bit e 5, x := bit e 4, w := bit e 3, r := bit e 2,
                      ats := kind == 1 }
    if kind == 0 then
      if level < 2 || addr % 2 ^ log != 0 || !s.leafOk p l then .bad else .leaf l
    else if kind == 1 then
      if !atsen || 2 < level || addr != 0 || l.home == .spad || l.home == .slice
         || (l.share == .dev && l.home != .nocache) then .bad else .leaf l
    else .bad

/-- The non-leaf entry a cluster's walk cache holds for a level of a VA (R360). -/
def State.walkHit (s : State) (cluster asid level va sh : Nat) : Option Nat :=
  (s.wcache.find? (fun w => w.cluster == cluster && w.asid == asid && w.epoch == s.epoch asid
    && w.level == level && w.prefix_ == va >>> sh)).map (fun w => w.entry.toNat)

/-- The walk from a table down the levels given (R356, R358, R361). It answers the leaf, if any, and the non-leaf
entries it went through, as (level, prefix, entry). A table page in a revoked extent ends it, whatever the walk cache holds
(R432), and so does an entry that is read poisoned (R445; log 17). -/
def State.walkFrom (s : State) (p cluster asid : Nat) (atsen : Bool) (va : Nat) :
    List (Nat × Nat × Nat) → Nat → Option Leaf × List (Nat × Nat × Nat)
  | [], _ => (none, [])
  | (level, sh, n) :: rest, table =>
    let a := table + 8 * ((va >>> sh) % n)
    let held := s.walkHit cluster asid level va sh
    if s.revoked a || (held.isNone && s.poisoned a 8) then (none, [])
    else
      let e := held.getD (s.mem.nat a 8)
      match s.entryKind p atsen level va e with
      | .bad => (none, [])
      | .leaf l => (some l, [])
      | .table t =>
        let r := s.walkFrom p cluster asid atsen va rest t
        (r.1, (level, va >>> sh, e) :: r.2)

/-- The walk of a VA in an ASID of a partition (R358). -/
def State.walk (s : State) (p cluster asid va : Nat) : Option Leaf × List (Nat × Nat × Nat) :=
  let c := s.ctxEntry p asid
  if c.valid then s.walkFrom p cluster asid c.atsen va levels c.root else (none, [])

/-! ## What the caches hold (R1, R360, R362, R368) -/

/-- A free choice among `n` outcomes; a single outcome consults nothing (log 2). -/
def State.choose (s : State) (n : Nat) : Nat × State :=
  if n ≤ 1 then (0, s) else (Config.choice s.nonce % n, { s with nonce := s.nonce + 1 })

/-- The list of a cache after an entry enters it: one already there stays as it is. The cache has room for so many lines, and
an entry of a line that it does not hold takes the place of one of those it may give up, of the device's choice, when there
is no room (R1; log 66). `line` names the line of an entry, `mine` the entries that share the room and may be given up. -/
def State.addEntry {α κ : Type} [DecidableEq α] [DecidableEq κ] (s : State) (room : Nat) (line : α → κ) (mine : α → Bool)
    (l : List α) (x : α) : State × List α :=
  if x ∈ l then (s, l)
  else
    let lines := dedup ((l.filter mine).map line)
    if lines.contains (line x) || decide (lines.length < room) then (s, l ++ [x])
    else
      let c := s.choose lines.length
      match lines[c.1]? with
      | some y => (c.2, l.filter (fun z => !(mine z && line z == y)) ++ [x])
      | none => (c.2, l ++ [x])

/-- Entries of a cluster TLB, a die TLB, a cluster's walk cache and a die's ATS cache (R360, R368). -/
def tlbRoom (place : Nat) : Nat := if place < 8 then 16384 else 65536
/-- As `tlbRoom`, of a walk cache. -/
def walkRoom : Nat := 4096
/-- As `tlbRoom`, of an ATS cache. -/
def atsRoom : Nat := 8192
/-- The lines of 1,024 bytes of a core's L1 data cache, so that the L1s of a cluster hold 131,072 sectors (R1, R362). -/
def l1Room : Nat := 256
/-- The lines of 1,024 bytes of a chip-level slice (R1). -/
def sliceRoom : Nat := 131072
/-- The lines of 256 bytes of the L1 instruction cache of a core, or the sectors of a cluster's level (R1, R151). -/
def lineRoom (place : Nat) : Nat := if place < 512 then 256 else 32768

/-- The state after a walk has filled the walk cache of a cluster and both TLBs (R359, R360). A leaf of kind ATS
enters neither TLB (R368). -/
def State.walkFill (s : State) (cluster asid : Nat) (leaf : Option Leaf) (path : List (Nat × Nat × Nat)) : State :=
  let ep := s.epoch asid
  let s := path.foldl (fun s e =>
    let r := s.addEntry walkRoom id (fun w => w.cluster == cluster) s.wcache
      { cluster := cluster, asid := asid, epoch := ep, level := e.1, prefix_ := e.2.1, entry := BitVec.ofNat 64 e.2.2 }
    { r.1 with wcache := r.2 }) s
  match leaf with
  | some l =>
    if l.ats then s
    else
      [cluster, 8 + cluster / 2].foldl (fun s pl =>
        let r := s.addEntry (tlbRoom pl) id (fun t => t.place == pl) s.tlb { place := pl, asid := asid, epoch := ep, leaf := l }
        { r.1 with tlb := r.2 }) s
  | none => s

/-! ## Look-up -/

/-- Whether a leaf covers an address. -/
def Leaf.covers (l : Leaf) (va : Nat) : Bool := decide (l.va ≤ va) && decide (va < l.va + 2 ^ l.log)

/-- Whether a leaf permits an access (R358). -/
def Leaf.permits (l : Leaf) (n : Need) (sup : Bool) : Bool :=
  (sup || l.u) &&
  match n with
  | .load => l.r
  | .store => l.w
  | .atomic => l.r && l.w
  | .fetch => l.x

/-- Whether the need includes writing, or reading (R369). -/
def Need.writes : Need → Bool
  | .store | .atomic => true
  | .load | .fetch => false

/-- The host permission an access needs of an ATS reply: read for a load or fetch, write for a store, both for an
atomic (R369). -/
def Need.granted (n : Need) (r w : Bool) : Bool :=
  match n with
  | .load | .fetch => r
  | .store => w
  | .atomic => r && w

/-- The leaf held for a VA by the cluster TLB, then by the die TLB (R360). -/
def State.tlbHit (s : State) (cluster asid va : Nat) : Option Leaf :=
  let hit := fun pl => s.tlb.find? (fun t =>
    t.place == pl && t.asid == asid && t.epoch == s.epoch asid && t.leaf.covers va)
  match hit cluster with
  | some t => some t.leaf
  | none => (hit (8 + cluster / 2)).map (fun t => t.leaf)

/-- The host translation a die's ATS cache holds for a VA, if the host grants the access (R368, R369). -/
def State.atsHit (s : State) (die asid va : Nat) (n : Need) : Option Leaf :=
  (s.atsc.find? (fun t => t.die == die && t.asid == asid && t.epoch == s.epoch asid && t.leaf.covers va
    && n.granted t.hostR t.hostW)).map (fun t => t.leaf)

/-- How a translation attempt ends without waiting for anything. -/
inductive Trans where
  | hit (l : Leaf)
  /-- the TLBs and the ATS cache miss: a walk is needed (R220, R360) -/
  | miss
  | fault (cause : Nat)
  deriving DecidableEq, Repr

/-- Translation of one byte through the TLBs and the ATS cache (R358, R360, R368). -/
def State.lookUp (s : State) (core asid va : Nat) (n : Need) (sup : Bool) : Trans :=
  match s.tlbHit (clusterOf core) asid va with
  | some l => if l.permits n sup then .hit l else .fault 0x14
  | none =>
    match s.atsHit (dieOf core) asid va n with
    | some l => if l.permits n sup then .hit l else .fault 0x14
    | none => .miss

/-- What a finished walk says of an access (R358, R367). -/
inductive Walked where
  | hit (l : Leaf)
  | fault (cause : Nat)
  /-- a host translation is needed -/
  | host (l : Leaf)
  deriving DecidableEq, Repr

/-- The outcome of a walk for an access; the entry's own permissions are checked before any request is sent
(R367). -/
def walked (leaf : Option Leaf) (n : Need) (sup : Bool) : Walked :=
  match leaf with
  | none => .fault 0x13
  | some l => if !l.permits n sup then .fault 0x14 else if l.ats then .host l else .hit l

/-- The state after an ATS Translation Request for the page of a VA is sent through the ATS entry that the walk found,
unless a request of the same kind is outstanding (R367). -/
def State.askHost (s : State) (die asid va : Nat) (w : Bool) (entry : Leaf) : State :=
  let page := va / 4096
  if s.atsq.any (fun q => q.die == die && q.asid == asid && q.page == page && q.write == w) then s
  else
    { s with atsq := s.atsq ++ [{ die := die, asid := asid, page := page, write := w, entry := entry, again := false, pri := false }],
             sent := s.sent ++ [.atsRequest die (s.pasidOf asid) page w] }

/-- The host translations that failed for the sub-crew that is issuing (R369). -/
def State.curBad (s : State) : List (Nat × Need) := (s.cur.map (fun c => c.bad)).getD []

/-- A translation made in one go, for a fetch or an engine: the look-up, then the walk, with the TLBs filled
(R366). Waiting for the host is answered by `none`, and the state says for what; `bad` holds what the host has refused
(R369). -/
def State.translate (s : State) (p core asid va : Nat) (n : Need) (sup : Bool) (bad : List (Nat × Need)) :
    State × Option (Except Nat Leaf) :=
  match s.lookUp core asid va n sup with
  | .hit l => (s, some (.ok l))
  | .fault c => (s, some (.error c))
  | .miss =>
    let w := s.walk p (clusterOf core) asid va
    let s' := s.walkFill (clusterOf core) asid w.1 w.2
    match walked w.1 n sup with
    | .hit l => (s', some (.ok l))
    | .fault c => (s', some (.error c))
    | .host l =>
      if bad.contains (va / 4096, n) then (s', some (.error 0x13))
      else ({ s'.askHost (dieOf core) asid va n.writes l with want := some (va / 4096, n) }, none)

/-- The physical address of a VA under a leaf. -/
def Leaf.addr (l : Leaf) (va : Nat) : Nat := l.pa + (va - l.va)

end Sys2Proof.Machine
end

