-- ==== Sys2Proof/Machine/Ops.lean ====
section
/-! DEFINITION. The named operations over the state: its parts, memory events and logical time, the logs, flags and
fetch entries, team holds, taking a trap and vectoring to the supervisor handler, the return from it, and the end of
handler threads. -/

namespace Sys2Proof.Machine

/-! ## Parts of the state -/

/-- Slice `k` of a team. -/
def Team.slice? (t : Team) (k : Nat) : Option Slice := t.slices.find? (fun sl => sl.idx == k)

/-- The team with slice `k` changed. -/
def Team.setSlice (t : Team) (k : Nat) (f : Slice → Slice) : Team :=
  { t with slices := t.slices.map (fun sl => if sl.idx = k then f sl else sl) }

/-- The resident or draining team named `u`. -/
def State.team? (s : State) (u : Nat) : Option Team := s.teams.find? (fun t => t.uid == u)

/-- The state with team `u` changed. -/
def State.setTeam (s : State) (u : Nat) (f : Team → Team) : State :=
  { s with teams := s.teams.map (fun t => if t.uid = u then f t else t) }

/-- Slice `k` of team `u`. -/
def State.slice? (s : State) (u k : Nat) : Option Slice := (s.team? u).bind (fun t => t.slice? k)

/-- The state with slice `k` of team `u` changed. -/
def State.setSlice (s : State) (u k : Nat) (f : Slice → Slice) : State := s.setTeam u (fun t => t.setSlice k f)

/-- Core `k`; one not listed has held no team. -/
def State.core (s : State) (k : Nat) : Core := (s.cores.find? (fun c => c.id == k)).getD (Core.idle k)

/-- The state with core `k` changed. -/
def State.setCore (s : State) (k : Nat) (f : Core → Core) : State :=
  if s.cores.any (fun c => c.id == k) then
    { s with cores := s.cores.map (fun c => if c.id = k then f c else c) }
  else { s with cores := insertBy (fun c => c.id) (f (Core.idle k)) s.cores }

/-- The launch named `l`. -/
def State.launch? (s : State) (l : Nat) : Option Launch := s.launches.find? (fun x => x.uid == l)

/-- The state with launch `l` changed. -/
def State.setLaunch (s : State) (l : Nat) (f : Launch → Launch) : State :=
  { s with launches := s.launches.map (fun x => if x.uid = l then f x else x) }

/-- A fresh name, and the state that has used it. -/
def State.name (s : State) : Nat × State := (s.fresh, { s with fresh := s.fresh + 1 })

/-- `n` free bytes as a number (log 2). -/
def State.freeBytes (s : State) (n : Nat) : Nat × State :=
  (natOfBytes ((List.range n).map (fun i => Config.freeByte (s.nonce + i))), { s with nonce := s.nonce + n })

/-- The live slices of a team, handler threads apart (R12). -/
def Team.live (t : Team) : List Slice := t.slices.filter (fun sl => !sl.ended && sl.thread.isNone)

/-- The crew of a slice, as the number of its first slice (R13). -/
def Team.crewOf (t : Team) (k : Nat) : Nat := (k / 2 ^ t.record.crewlog) * 2 ^ t.record.crewlog

/-- The slices of the crew that starts at `c`. -/
def Team.crewSlices (t : Team) (c : Nat) : List Nat := (List.range (2 ^ t.record.crewlog)).map (c + ·)

/-! ## Logical time (R137, R138) -/

/-- Who performs an event of S: the core whose clock it uses, or else the agent, and the lane. -/
structure Who where
  core : Option Nat
  team : Nat
  slice : Nat
  lane : Nat
  agent : Nat
  deriving DecidableEq, Repr

/-- An agent of the package that is no lane, with a clock of its own: 0 is the device's own, the front end and the streamer; the
others are the ingress agents of the links (R152). -/
def Who.outside (n : Nat) : Who where
  core := none
  team := 0
  slice := 0
  lane := 0
  agent := n

/-- The agents of the device itself. -/
def Who.device : Who := .outside 0

/-- The ceiling a job has on a core: the closing time until the core's own ARM (R401). -/
def Job.ceilingOn (j : Job) (core : Nat) : Nat :=
  match j.stream with
  | some st => if st.toArm.contains core then st.tk else j.ceiling
  | none => j.ceiling

/-- The lowest checkpoint ceiling a core obeys, if any (R401). -/
def State.ceiling (s : State) (core : Nat) : Option Nat :=
  minBy id (s.teams.filterMap (fun t =>
    if t.core = core && t.record.track then
      (s.jobs.find? (fun j => j.part == t.part && j.id == t.record.job && j.based)).map (fun j => j.ceilingOn core)
    else none))

/-- The 128-byte sector of an address. -/
def sectorOf (pa : Nat) : Nat := pa / 128 * 128

/-- Write time of the sector of an address (R127). -/
def State.wt (s : State) (pa : Nat) : Nat := (nget s.wts (sectorOf pa)).toNat

/-- Read lease of the sector of an address (R127). -/
def State.rt (s : State) (pa : Nat) : Nat := (nget s.rts (sectorOf pa)).toNat

/-- The clock an event starts from. -/
def State.clockOf (s : State) (w : Who) : Nat :=
  match w.core with
  | some c => (s.core c).clock
  | none => (nget s.agents w.agent).toNat

/-- The logical time of a read or a write of one sector by an agent whose clock is at `c` (R138). -/
def State.timeFrom (s : State) (c pa : Nat) (wrote : Bool) : Nat :=
  if wrote then max (c + 1) (s.rt pa + 1) else max c (s.wt pa)

/-- The logical time of a read or a write of one sector (R138). -/
def State.timeOf (s : State) (w : Who) (pa : Nat) (wrote : Bool) : Nat := s.timeFrom (s.clockOf w) pa wrote

/-- The sectors of some addresses, each with the time of its event, for events in this order by one agent whose clock is at `c`:
each event moves the clock (R137, R138). -/
def State.timesFrom (s : State) (wrote : Bool) : Nat → List Nat → List (Nat × Nat)
  | _, [] => []
  | c, pa :: rest => let t := s.timeFrom c pa wrote; (pa, t) :: s.timesFrom wrote t rest

/-- The state after an agent's clock moves to at least `t` (R137, R152). -/
def State.clockTo (s : State) (w : Who) (t : Nat) : State :=
  match w.core with
  | some c => s.setCore c (fun x => { x with clock := max x.clock t })
  | none => { s with agents := nset s.agents w.agent (BitVec.ofNat 64 (max (s.clockOf w) t)) }

/-- The state after an event of S on one sector is recorded with its time (R131, R137). A read that takes a lease holds
off later writes for its length; any other read holds them off until its own time (R127, R138). -/
def State.record (s : State) (w : Who) (pa n : Nat) (wrote bounds : Bool) (lease : Nat) : State :=
  let t := s.timeOf w pa wrote
  let sec := sectorOf pa
  let ev : Ev := { time := t, team := w.team, slice := w.slice, lane := w.lane, pa := pa, size := n, wrote := wrote,
                   old := if wrote then s.mem.nat pa n else 0, bounds := bounds }
  let s := { s with hist := ev :: s.hist }
  let s := s.clockTo w t
  if wrote then { s with wts := nset s.wts sec (BitVec.ofNat 64 t), rts := nset s.rts sec (BitVec.ofNat 64 t) }
  else { s with rts := nset s.rts sec (BitVec.ofNat 64 (max (s.rt pa) (t + lease))) }

/-! ## Memory (R403, R432, R445) -/

/-- Whether the interval of a job still needs the value that a sector had at its closing time, for a write at time `t`
(R403). -/
def Stream.needs (st : Stream) (sec t : Nat) : Bool :=
  decide (st.tk < t) && st.todo.contains (.sector sec) && !st.captured.any (fun c => c.1 == sec)

/-- The pre-images that the capture buffer of a die holds: 256 MiB (R403). -/
def captureRoom : Nat := 2 ^ 21

/-- Whether a write at time `t` needs room in the capture buffer of its sector's die, and the buffer is full: it stalls until
the streamer frees space (R403). -/
def State.captureFull (s : State) (pa t : Nat) : Bool :=
  inRange .hbm pa && s.jobs.any (fun j => j.based && (j.stream.map (fun st => st.needs (sectorOf pa) t)).getD false)
  && decide (captureRoom ≤ (s.jobs.flatMap (fun j => (j.stream.map (fun st =>
      st.captured.filter (fun c => dieOfHbm c.1 == dieOfHbm pa))).getD [])).length)

/-- The teams after a write to scratchpad: the line of the allocation it falls in is marked (R400). -/
def State.markLine (s : State) (pa : Nat) : State :=
  { s with teams := s.teams.map (fun t =>
      if t.scratch ≤ pa ∧ pa < t.scratch + 128 * t.record.scratch then { t with lines := insertNat ((pa - t.scratch) / 128) t.lines }
      else t) }

/-- The state after a sector is about to be written at time `t`: pre-images captured, that of a poisoned sector without bytes, and
dirty marks set (R400, R403, R445). -/
def State.markDirty (s : State) (pa t : Nat) : State :=
  if inRange .spad pa then s.markLine pa
  else if !inRange .hbm pa then s
  else
    let sec := sectorOf pa
    { s with jobs := s.jobs.map (fun j =>
        if !j.based then j
        else
          let j := { j with dirty := insertNat sec j.dirty }
          match j.stream with
          | some st =>
            if st.needs sec t then
              { j with stream := some { st with
                  captured := st.captured ++ [(sec, if s.poisoned sec 128 then [] else s.mem.bytes sec 128)] } }
            else j
          | none => j) }

/-- The state after `n` bytes of one sector are written at time `t`. A write to a revoked extent is dropped and
counted (R432); a write that covers a marked unit clears its poison (R445). -/
def State.put (s : State) (pa n v t : Nat) : State :=
  if s.revoked pa then
    { s with extents := s.extents.map (fun e =>
        if decide (e.base ≤ pa) && decide (pa < e.base + e.bytes) then
          { e with dropped := e.dropped + 1, firstDrop := if e.dropped = 0 then pa else e.firstDrop }
        else e) }
  else
    let s := s.markDirty pa t
    { s with mem := s.mem.setNat pa n v,
             poison := s.poison.filter (fun u => !(decide (pa ≤ u) && decide (u + poisonUnit u ≤ pa + n))) }

/-- The state in which the copies of a sector that a write does not reach at once keep its bytes: coherent and
read-shared copies of L1s, but for the cluster `own`, and instruction lines (R126, R138, R151). -/
def State.behind (s : State) (own : Option Nat) (pa : Nat) : State :=
  let sec := sectorOf pa
  { s with
    rmap := s.rmap.map (fun r =>
      if r.sector = sec ∧ r.place < 8 ∧ own ≠ some r.place ∧ r.copy = [] ∧ (r.share = .coh ∨ r.share = .rdsh) then
        { r with copy := s.mem.bytes sec 128 } else r),
    ilines := s.ilines.map (fun i => if i.sector = sec ∧ i.bytes = [] then { i with bytes := s.mem.bytes sec 128 } else i) }

/-- The state in which a write of the package to a sector of external memory is not yet seen outside (R153). -/
def State.hide (s : State) (pa : Nat) : State :=
  let sec := sectorOf pa
  if external pa && !s.hidden.any (fun h => h.1 == sec) then { s with hidden := s.hidden ++ [(sec, s.mem.bytes sec 128)] } else s

/-- The state after the package's writes to a part of external memory are visible outside it (R153, R154). -/
def State.reveal (s : State) (p : Nat → Bool) : State := { s with hidden := s.hidden.filter (fun h => !p h.1) }

/-- One write event of S on one sector (R131). -/
def State.evWrite (s : State) (w : Who) (pa n v : Nat) (bounds : Bool) : State :=
  let t := s.timeOf w pa true
  (((s.record w pa n true bounds 0).behind (w.core.map clusterOf) pa).hide pa).put pa n v t

/-- The state after a core's cluster gives up the coherent copies that have fallen behind, where something else than S
orders another core's events before the core's next ones (R141, R154). -/
def State.dropStale (s : State) (core : Nat) : State :=
  { s with rmap := s.rmap.filter (fun r => !(r.place == clusterOf core && r.share == .coh && !r.copy.isEmpty)) }

/-- The state after an ordering point or a flag wait of a slice of a core: its next clauses find no old instruction line of
package memory (R151). -/
def State.newCode (s : State) (core : Nat) : State :=
  { s with ilines := s.ilines.filter (fun i =>
      !((i.place == core || i.place == 512 + clusterOf core) && !i.bytes.isEmpty && !external i.sector)) }

/-- A write of the device itself, sector by sector, in ascending order. -/
def State.devWrite (s : State) (pa : Nat) (bytes : List Byte) : State :=
  (pieces 128 pa bytes.length).foldl (fun s p =>
    s.evWrite .device p.1 p.2 (natOfBytes ((bytes.drop (p.1 - pa)).take p.2)) true) s

/-- A write of the device itself that every agent can see before what the device does next, a message or a commit record (R422,
R436). -/
def State.devPublish (s : State) (pa : Nat) (bytes : List Byte) : State :=
  (s.devWrite pa bytes).reveal (fun sec => decide (sec < pa + bytes.length) && decide (pa < sec + 128))

/-! ## The logs (R347, R424, R443) -/

/-- What one fault-log entry says (R347). -/
structure LogRec where
  cause : Nat
  sub : Nat
  lanes : Nat
  state : Nat
  asid : Nat
  job : Nat
  team : Nat
  slice : Nat
  va : Nat
  pc : Word
  info : Word
  codebase : Nat
  ltime : Nat
  core : Nat
  deriving DecidableEq, Repr

/-- The 64 bytes of a fault-log entry (R347). -/
def LogRec.bytes (e : LogRec) (part seq : Nat) : List Byte :=
  bytesOfNat 8 seq
  ++ bytesOfNat 4 (e.cause <<< 24 + (e.sub % 256) <<< 16 + (part % 16) <<< 12 + (e.lanes % 16) <<< 8 + e.state % 256)
  ++ bytesOfNat 4 ((e.asid % 65536) <<< 16 + e.job % 65536)
  ++ bytesOfNat 4 e.team ++ bytesOfNat 4 (e.slice % 64)
  ++ bytesOfNat 8 e.va ++ bytesOfNat 4 e.pc.toNat ++ bytesOfNat 4 e.info.toNat
  ++ bytesOfNat 8 e.codebase ++ bytesOfNat 8 e.ltime
  ++ bytesOfNat 4 (dieOf e.core <<< 8 + (e.core / 64 % 2) <<< 7 + e.core % 64) ++ bytesOfNat 4 0

/-- The state after an MSI-X message (R422). -/
def State.msix (s : State) (function vector : Nat) : State := { s with sent := s.sent ++ [.msix function vector] }

/-- The state after a fault-log entry is written, or counted as lost when the ring is full (R424). -/
def State.logFault (s : State) (p : Nat) (e : LogRec) : State :=
  let q := s.part p
  let size := 2 ^ q.logn.toNat
  let full := q.logn.toNat < 6 || 16 < q.logn.toNat
    || ((q.loghead.setWidth 32 : Word) - q.logtail).toNat == size
  if full then s.setPart p (fun q => { q with loglost := if q.loglost = BitVec.allOnes 32 then q.loglost else q.loglost + 1 })
  else
    let seq := q.loghead.toNat + 1
    let s := s.devPublish (q.logbase.toNat + 64 * ((seq - 1) % size)) (e.bytes p seq)
    (s.setPart p (fun q => { q with loghead := BitVec.ofNat 64 seq })).msix (p + 1) 0

/-- The state after a 32-byte energy-log entry is written: its bytes from offset 0x08 on (R424, R443). -/
def State.logEnergy (s : State) (p : Nat) (tail : List Byte) : State :=
  let q := s.part p
  let size := 2 ^ q.elogn.toNat
  let full := q.elogn.toNat < 7 || 16 < q.elogn.toNat
    || ((q.eloghead.setWidth 32 : Word) - q.elogtail).toNat == size
  if full then s
  else
    let seq := q.eloghead.toNat + 1
    let s := s.devPublish (q.elogbase.toNat + 32 * ((seq - 1) % size)) (bytesOfNat 8 seq ++ tail)
    (s.setPart p (fun q => { q with eloghead := BitVec.ofNat 64 seq })).msix (p + 1) 0

/-! ## Fault records (R336) -/

/-- KIND of a record (R336). -/
def AccKind.code (uniform : Bool) : AccKind → Nat
  | .load _ => if uniform then 4 else 0
  | .store => if uniform then 5 else 1
  | .atom _ => 2
  | .barWord => 6

/-- KIND of an access: a `.com` atomic has its own code (R336). -/
def Acc.kindCode (a : Acc) : Nat :=
  match a.order, a.kind with
  | .com, .atom _ => 3
  | _, k => k.code a.uniform

/-- The third word of a lane's record: CAUSE, KIND, SIZE, V (R336). -/
def FaultRec.info (r : FaultRec) : Word :=
  BitVec.ofNat 32 (r.cause <<< 24 + r.acc.kindCode <<< 20 + r.acc.size.log2 <<< 16 + 1)

/-- The record of lane `l`. -/
def Slice.rec? (sl : Slice) (l : Nat) : Option FaultRec := sl.recs.find? (fun r => r.lane == l)

/-- The lanes that hold records, as a mask (FLANES). -/
def Slice.flanes (sl : Slice) : Nat := maskOf (sl.recs.map (fun r => r.lane))

/-- The record of the lowest lane that holds one. -/
def Slice.firstRec (sl : Slice) : Option FaultRec := minBy (fun r => r.lane) sl.recs

/-- The record that a slice vectors for: the lowest lane's, poison apart, for which no handler runs (R338, R339). -/
def Slice.vectorRec (sl : Slice) : Option FaultRec := minBy (fun r => r.lane) (sl.recs.filter (fun r => r.cause != 0x18))

/-- The log entry of a slice: LANES and, where not given, VA and INFO come from its lowest record (R347). -/
def Team.logRec (t : Team) (sl : Slice) (cause sub state : Nat) (va : Option Nat) (pc : Word) (info : Option Word)
    (ltime : Nat) : LogRec :=
  { cause := cause, sub := sub, lanes := sl.flanes, state := state, asid := t.asid, job := t.record.job, team := t.no,
    slice := sl.idx, va := va.getD ((sl.firstRec.map (fun r => r.va)).getD 0), pc := pc,
    info := info.getD ((sl.firstRec.map FaultRec.info).getD 0), codebase := t.record.codebase, ltime := ltime,
    core := t.core }

/-- The state after a log entry for slice `k` of team `u`. -/
def State.logSlice (s : State) (u k cause sub state : Nat) (va : Option Nat) (pc : Word) (info : Option Word) : State :=
  match s.team? u with
  | some t =>
    match t.slice? k with
    | some sl => s.logFault t.part (t.logRec sl cause sub state va pc info (s.core t.core).clock)
    | none => s
  | none => s

/-! ## Team holds (R333) -/

/-- The team after a hold for `cause` is asked for; `logged` are the slices whose entry the cause wrote (R333). A
pre-emption that is due comes first, and the hold stays due behind it (R334). -/
def Team.hold (t : Team) (cause : Nat) (logged : List Nat) : Team :=
  match t.halt with
  | none => { t with halt := some (.hold cause logged) }
  | some (.hold c l) => { t with halt := some (.hold c (l ++ logged)) }
  | some .preempt | some (.migrate _) | some .quiet =>
    { t with owed := match t.owed with
        | some (c, l) => some (c, l ++ logged)
        | none => some (cause, logged) }

/-- Whether a cause of the hold that a team is asked for has written the entry of slice `k` (R333). -/
def Team.holdLogged (t : Team) (k : Nat) : Bool :=
  match t.halt with
  | some (.hold _ l) => l.contains k
  | some .preempt | some (.migrate _) | some .quiet | none => ((t.owed.map (fun o => o.2.contains k))).getD false

/-- The state after slice `k` causes a team hold: its log entry, one for the hold, and the hold (R333). -/
def State.causeHold (s : State) (u k cause sub : Nat) (va : Option Nat) (pc : Word) : State :=
  (if ((s.team? u).map (fun t => t.holdLogged k)).getD false then s else s.logSlice u k cause sub 0 va pc none).setTeam u
    (fun t => t.hold cause [k])

/-- The state after a double fault in slice `k`: its log entry, and the team hold (R332, R340). -/
def State.doubleFault (s : State) (u k sub : Nat) (va : Option Nat) (pc : Word) : State := s.causeHold u k 0x21 sub va pc

/-- The state after the fetch of a word or a target fails in slice `k`: the double fault of R366, or the hold of a
poisoned word (log 17). -/
def State.fetchHold (s : State) (u k cause : Nat) (va : Option Nat) (pc : Word) : State :=
  if cause = 0x18 then s.causeHold u k 0x18 0 va pc else s.doubleFault u k cause va pc

/-! ## Fetch entries (R18, R19) -/

/-- The fetch entries of a core. -/
def fetchEntries : Nat := 48

/-- The entries held on a core (R18). -/
def State.entriesHeld (s : State) (core : Nat) : Nat :=
  ((s.teams.filter (fun t => t.core == core)).map (fun t => (t.subs.filter (fun b => b.entry)).length)).foldl (· + ·) 0

/-- The sub-crew that a slice belongs to. -/
def Team.sub? (t : Team) (k : Nat) : Option SubCrew := t.subs.find? (fun b => b.members.contains k)

/-- The team with the sub-crew of slice `k` changed. -/
def Team.setSub (t : Team) (k : Nat) (f : SubCrew → SubCrew) : Team :=
  { t with subs := t.subs.map (fun b => if b.members.contains k then f b else b) }

/-- The state after the sub-crew of slice `k` asks for a fetch entry: it gets a free one at once when none waits
before it, and otherwise joins the queue (R18). In a draining team only handler threads issue (R241, R391). Each request gives the
sub-crew a new place in the order of R47, so one that rotation has taken its entry from waits anew (DESIGN CHOICE, log 69). -/
def State.askEntry (s : State) (u k : Nat) : State :=
  match s.team? u with
  | none => s
  | some t =>
    match t.sub? k with
    | none => s
    | some b =>
      let runs := t.st == .running || ((t.slice? k).map (fun sl => sl.thread.isSome)).getD false
      if b.entry || !runs || (s.core t.core).waiting.any (fun w => w.1 == u && b.members.contains w.2) then s
      else
        let s := s.setTeam u (fun t => t.setSub k (fun b => { b with seq := s.fresh }))
        let s := { s with fresh := s.fresh + 1 }
        if (s.core t.core).waiting.isEmpty && decide (s.entriesHeld t.core < fetchEntries) then
          s.setTeam u (fun t => t.setSub k (fun b => { b with entry := true }))
        else s.setCore t.core (fun c => { c with waiting := c.waiting ++ [(u, b.members.headD k)] })

/-- The state after a slice leaves a blocked state; its sub-crew asks for an entry once no slice of it is blocked
(R15, R19). -/
def State.wake (s : State) (u k : Nat) : State :=
  let s := s.setSlice u k (fun sl => { sl with block := .none })
  match (s.team? u).bind (fun t => (t.sub? k).map (fun b => (t, b))) with
  | some (t, b) =>
    if b.members.all (fun m => ((t.slice? m).map (fun sl => sl.block)).getD .none == .none) then s.askEntry u k else s
  | none => s

/-- The state after slice `k` becomes blocked: its sub-crew gives up its entry (R19). -/
def State.blockOn (s : State) (u k : Nat) (b : Block) : State :=
  (s.setSlice u k (fun sl => { sl with block := b })).setTeam u (fun t => t.setSub k (fun x => { x with entry := false }))

/-! ## Flags (R65) -/

/-- Whether every flag of a mask reads zero. -/
def Slice.flagsZero (sl : Slice) (m : BitVec 12) : Bool :=
  (List.range 12).all (fun k => !m.getLsbD k || sl.flag k == 0)

/-- The state after flag `f` of a slice is decremented; a flag wait that now holds ends (R65, R20). -/
def State.dropFlag (s : State) (u k : Nat) (f : Option Nat) : State :=
  match f with
  | none => s
  | some f =>
    let s := s.setSlice u k (fun sl => sl.setFlag f (if sl.flag f = 0 then 0 else sl.flag f - 1))
    match s.slice? u k with
    | some sl =>
      match sl.block with
      | .flags m => if sl.flagsZero m then s.wake u k else s
      | .roleDrain => if sl.flagsZero (BitVec.allOnes 12) then s.wake u k else s
      | .none | .barrier _ _ | .barWord _ _ _ | .claim | .join _ | .takeAgain | .passed _ | .ending => s
    | none => s

/-- A slice's user scalar or `zero` written, whichever bank is in force (R331). -/
def Slice.writeUser (sl : Slice) (d : Opd) (w : Word) : Slice :=
  match d with
  | .s n =>
    if sl.mode = .supervisor && decide (16 ≤ n.val) then
      { sl with bank := nset sl.bank n.val w, smarred := sl.smarred.filter (· != n.val) }
    else sl.sset n.val w
  | .v _ | .zero | .exec | .lane | .slice | .bc _ | .role => sl

/-! ## Parting (R16) -/

/-- What decides which sub-crew a slice issues with: its mode and next PC. -/
def Slice.pcKey (sl : Slice) : Bool × Nat × Nat × Bool := (sl.mode == .supervisor, sl.hdr, sl.ix, sl.opened)

/-- Slices grouped by a key, groups in the order of their lowest slice. -/
def groupBy {β : Type} [DecidableEq β] (key : Nat → β) (l : List Nat) : List (List Nat) :=
  (dedup (l.map key)).map (fun k => l.filter (fun m => key m = k))

/-- The groups a sub-crew parts into (R16); ended slices leave it (R12). -/
def Team.partsOf (t : Team) (b : SubCrew) : List (List Nat) :=
  let mem := b.members.filter (fun m => ((t.slice? m).map (fun sl => !sl.ended)).getD false)
  groupBy (fun m => (t.slice? m).map Slice.pcKey) mem

/-- Whether no slice of a group is blocked (R20). -/
def State.mayIssue (s : State) (u : Nat) (g : List Nat) : Bool :=
  g.all (fun m => ((s.slice? u m).map (fun sl => sl.block == .none)).getD false)

/-- The state after a team's sub-crews part where their slices' next PCs differ: the group of the lowest slice keeps
the entry, the others ask for entries in order (R16). -/
def State.regroup (s : State) (u : Nat) : State :=
  match s.team? u with
  | none => s
  | some t =>
    let new := t.subs.map (fun b => (b, t.partsOf b))
    let subs := new.flatMap (fun p =>
      match p.2 with
      | [] => []
      | g :: rest =>
        { p.1 with members := g } :: rest.map (fun g => { members := g, entry := false, stalled := false, joined := false, seq := p.1.seq,
                                                               wants := none, bad := [], accepted := none }))
    let s := s.setTeam u (fun t => { t with subs := subs })
    -- groups that hold no entry and are not blocked ask for one
    (new.flatMap (fun p => p.2)).foldl (fun s g => if s.mayIssue u g then s.askEntry u (g.headD 0) else s) s

/-! ## Taking an exception (R336, R340) -/

/-- The slice with its two scalar banks exchanged: `s16` to `s23` and SCC (R331, R340). -/
def Slice.swapBank (sl : Slice) : Slice :=
  { sl with sregs := (List.range 8).foldl (fun m i => nset m (16 + i) (nget sl.bank (16 + i))) sl.sregs,
            bank := (List.range 8).foldl (fun m i => nset m (16 + i) (nget sl.sregs (16 + i))) [],
            scc := sl.bankScc, bankScc := sl.scc }

/-- The vector to the supervisor handler: SEPC names `rhdr`, `rix`; SFPC the word `whdr`, `wix` and its flag. A lane
fault runs the handler in the parked lanes (R340). -/
def Slice.vector (sl : Slice) (cause sub rhdr rix whdr wix : Nat) (flag : Option Nat) : Slice :=
  let lane := decide (0x10 ≤ cause) && decide (cause ≤ 0x17)
  { sl.swapBank with
    sepc := pcWord rhdr rix sl.exec.toNat,
    scause := BitVec.ofNat 32 (cause <<< 24 + (sub % 256) <<< 16 + sl.flanes),
    sfpc := pcWord whdr wix (flag.getD 0x1F),
    mode := .supervisor,
    exec := if lane then sl.park else 0b1111,
    park := if lane then 0 else sl.park,
    conv := false,
    hdr := 0, ix := 0, opened := false, code := [] }

/-! ## Handler threads and the commands they serve (R253, R254) -/

/-- The bursts of a catch command: COUNT items of SIZE128 bursts (R249). -/
def Cmd.bursts (c : Cmd) : Nat :=
  let w4 := ((c.octet.drop 4).headD 0).toNat
  (w4 % 65536) * bits w4 25 16

/-- Whether a command belongs to the catch engine. -/
def Cmd.isCatch (c : Cmd) : Bool := c.fn == 5 || c.fn == 6

/-- The status word of a command (R239). -/
def statusWord (code count : Nat) : Word := BitVec.ofNat 32 ((code % 256) <<< 24 + min count 0xFFFFFF)

/-- The state after a nonzero engine status other than PSKIP is logged: cause 0x30, SUB = CODE (R239, R332). -/
def State.logEngine (s : State) (u k code count va : Nat) (pc : Word) : State :=
  if code = 0 || code = 0x0B then s
  else s.logSlice u k 0x30 code 0 (some va) pc (some (statusWord code count))

/-- The state after an engine command completes: status to D, then the flag falls, and the room of its bitmap is freed
(R237, R238, R397). -/
def State.finishCmd (s : State) (u : Nat) (c : Cmd) (code count va : Nat) : State :=
  let s := match s.team? u with
    | some t => s.setPart t.part (fun q => { q with resv := q.resv.filter (fun r => r.1 != c.id) })
    | none => s
  let s := s.setTeam u (fun t => { t with cmds := t.cmds.filter (fun x => x.id != c.id) })
  let s := s.setSlice u c.slice (fun sl => sl.writeUser c.dst (statusWord code count))
  let s := s.logEngine u c.slice code count va c.pc
  s.dropFlag u c.slice c.flag

/-- The state after a burst ends or fails; the last burst completes the command (R254). -/
def State.endBurst (s : State) (u cmd burst : Nat) (code : Option Nat) : State :=
  match (s.team? u).bind (fun t => t.cmds.find? (fun c => c.id == cmd)) with
  | none => s
  | some c =>
    let c' := { c with finished := insertNat burst c.finished,
                       failed := if code.isSome then c.failed + 1 else c.failed,
                       code := if c.code = 0 then code.getD 0 else c.code }
    let s := s.setTeam u (fun t => { t with cmds := t.cmds.map (fun x => if x.id = cmd then c' else x) })
    if c'.finished.length < c'.bursts then s else s.finishCmd u c' c'.code c'.failed 0

/-- Whether a thread or slice has operations outstanding. -/
def State.hasPend (s : State) (u k : Nat) : Bool := s.pend.any (fun p => p.team == u && p.slice == k)

/-- The state after a handler thread leaves its catch slot (R253). -/
def State.dropThread (s : State) (u k : Nat) (th : Thread) : State :=
  let s := s.setTeam u (fun t => { t with
    slices := t.slices.filter (fun sl => sl.idx != k),
    subs := (t.subs.map (fun b => { b with members := b.members.filter (· != k) })).filter (fun b => !b.members.isEmpty) })
  s.endBurst u th.cmd th.burst th.fail

/-- The state after a stopped thread is let go, once what it issued has been performed (R253). -/
def State.settleThread (s : State) (u k : Nat) : State :=
  match s.slice? u k with
  | some sl =>
    match sl.thread with
    | some th => if th.fail.isSome && !s.hasPend u k then s.dropThread u k th else s
    | none => s
  | none => s

/-- The state after a handler thread stops with a code: HTRAP, HLEN or HFAULT (R253). -/
def State.failThread (s : State) (u k code : Nat) : State :=
  match (s.slice? u k).bind (fun sl => sl.thread) with
  | some th =>
    if th.fail.isSome then s
    else
      ((s.setSlice u k (fun sl => { sl with thread := some { th with fail := some code }, block := .ending })).setTeam u
        (fun t => t.setSub k (fun b => { b with entry := false }))).settleThread u k
  | none => s

/-- A trap of slice `k`: a handler thread ends with HTRAP (R253); supervisor mode takes the double fault with SUB the
cause (R340); user mode vectors, with SEPC naming `rhdr`, `rix` and SFPC the word `whdr`, `wix` (R340). -/
def State.trapAt (s : State) (u k cause sub rhdr rix whdr wix : Nat) (flag : Option Nat) : State :=
  match s.slice? u k with
  | none => s
  | some sl =>
    if sl.thread.isSome then s.failThread u k 0x08
    else if sl.mode = .supervisor then s.doubleFault u k cause none (pcWord whdr wix sl.exec.toNat)
    else s.setSlice u k (fun sl => sl.vector cause sub rhdr rix whdr wix flag)

end Sys2Proof.Machine
end

