-- ==== Sys2Proof/Machine/Access.lean ====
section
/-! DEFINITION. Lane accesses: the checks of R219, the fault records, the performance of loads, stores and atomics in
S, the relaxed events of R139, and completion. -/

namespace Sys2Proof.Machine

/-! ## Atomic functions (R230) -/

/-- A number reduced to `w` bits and read as signed. -/
def signedOf (w x : Nat) : Int := sint w x

/-- The new value of an atomic of `8 × size` bits: FN, old value, operand (R230). `cas` takes its pair as one number,
compare value low. -/
def atomNew (fn size old b : Nat) : Nat :=
  let w := 8 * size
  let m := 2 ^ w
  match fn with
  | 0 => (old + b) % m
  | 1 => (old + (m - b % m)) % m
  | 2 => if signedOf w old ≤ signedOf w b then old else b % m
  | 3 => if signedOf w b ≤ signedOf w old then old else b % m
  | 4 => min old (b % m)
  | 5 => max old (b % m)
  | 6 => old &&& b % m
  | 7 => old ||| b % m
  | 8 => old ^^^ b % m
  | 9 => b % m
  | 10 => if old = b % m then (b / m) % m else old
  | 11 => if b % m ≤ old then 0 else (old + 1) % m
  | 12 => if old = 0 || b % m < old then b % m else old - 1
  | 13 => (f32.add .rne (f32.decode old) (f32.decode (b % m))).1
  | 14 => (f32.minmax false old (b % m)).1
  | _ => (f32.minmax true old (b % m)).1

/-! ## Policy (R122, R125, R126, R130, R374) -/

/-- Whether an access reads, writes, or does both. -/
def Acc.need (a : Acc) : Need :=
  match a.kind with
  | .load _ => .load
  | .store => .store
  | .atom _ | .barWord => .atomic

/-- The permissions of an egress slot: valid, writes, atomics (R374). -/
def State.slotPermits (s : State) (pa : Nat) (n : Need) : Bool :=
  let e := nget s.egress (bits pa 50 40)
  e.getLsbD 64 && (match n with
    | .load | .fetch => true
    | .store => e.getLsbD 65
    | .atomic => e.getLsbD 66)

/-- The pieces of an access whose event is still to come. -/
def AccSt.late? : AccSt → Option (List Piece)
  | .late ps => some ps
  | .walk | .ats | .ceil | .peer _ | .got _ _ | .written | .dropped => none

/-- The pieces of an access that has passed its checks and has not been performed. -/
def AccSt.coming? : AccSt → Option (List Piece)
  | .late ps | .peer ps => some ps
  | .walk | .ats | .ceil | .got _ _ | .written | .dropped => none

/-- Whether two pages share a byte. -/
def pagesMeet (a la b lb : Nat) : Bool := decide (a < b + 2 ^ lb) && decide (b < a + 2 ^ la)

/-- Whether a leaf uses a page under its recorded policy. -/
def Leaf.under (l : Leaf) (p : Policy) : Bool := l.share == p.share && l.home == p.home && pagesMeet l.pa l.log p.page p.log

/-- Whether some TLB, ATS cache, L1 or chip-level slice holds a translation or copy of a page under a policy, or an access or
a command that has passed its checks will still use one (R130). -/
def State.policyLive (s : State) (p : Policy) : Bool :=
  s.tlb.any (fun t => t.epoch == s.epoch t.asid && t.leaf.under p)
  || s.atsc.any (fun t => t.epoch == s.epoch t.asid && t.leaf.under p)
  || s.rmap.any (fun r => r.share == p.share && r.home == p.home && decide (p.page ≤ r.sector)
    && decide (r.sector < p.page + 2 ^ p.log))
  || s.pend.any (fun o => o.accs.any (fun x => ((x.2.coming?).getD []).any (fun q => q.leaf.under p)))
  || s.teams.any (fun t => t.cmds.any (fun c => c.held.any (fun l => l.under p)))

/-- The first policy check that an access through a leaf fails, in the order of R219: protection at an egress slot,
share, home, alias-policy. `relaxed` marks the accesses R227 bars from DEV pages. -/
def State.policyFault (s : State) (core : Nat) (l : Leaf) (pa : Nat) (n : Need) (relaxed : Bool) : Option Nat :=
  if inRange .fabric pa && !s.slotPermits pa n then some 0x14
  else if (l.share == .rdsh && n.writes) || (l.share == .dev && (n == .atomic || relaxed))
    || (l.share == .priv && s.owners.any (fun o => o.core != core && pagesMeet o.page o.log l.pa l.log)) then some 0x15
  else if l.home == .spad && clusterOf (coreOfSpad l.pa) != clusterOf core then some 0x16
  else if s.policy.any (fun p => (p.share != l.share || p.home != l.home) && pagesMeet p.page p.log l.pa l.log
    && s.policyLive p) then some 0x17
  else none

/-- Whether an L1 holds the sectors of a page in a range (R128). -/
def l1Holds (l : Leaf) (pa : Nat) : Bool :=
  l.home == .cached && l.share != .dev && (inRange .hbm pa || inRange .host pa || inRange .tier pa)

/-- Whether the chip-level slice holds the sectors of a page in a range (R128). -/
def sliceHolds (l : Leaf) (pa : Nat) : Bool :=
  inRange .hbm pa && l.share != .dev && (l.home == .cached || l.home == .slice)

/-- The state after an access through a leaf makes its marks: the owner of a PRIV page and the policy record at the home
(R125, R130). A word of the scratchpad allocation has no page. -/
def State.mark (s : State) (core asid : Nat) (l : Leaf) : State :=
  if l.log = 0 then s
  else
    { s with
      owners :=
        if l.share == .priv && !s.owners.any (fun o => o.page == l.pa && o.log == l.log) then
          s.owners ++ [{ page := l.pa, log := l.log, core := core, asid := asid }] else s.owners,
      policy :=
        if s.policy.any (fun p => p.page == l.pa && p.log == l.log && p.share == l.share && p.home == l.home) then s.policy
        else s.policy.filter (fun p => !pagesMeet p.page p.log l.pa l.log || (p.share == l.share && p.home == l.home))
          ++ [{ page := l.pa, log := l.log, share := l.share, home := l.home }] }

/-- The state after a sector enters an L1 or a chip-level slice: the L1 of its core has room for 256 lines, and a slice gives up
no sector of a SLICE page (R1, R128; log 66). -/
def State.enter (s : State) (e : RmapEnt) : State :=
  let mine := fun (r : RmapEnt) => r.place == e.place && (if e.place < 8 then r.core == e.core else true)
  let pinned := fun (r : RmapEnt) => decide (8 ≤ e.place) && r.home == .slice
  let line := fun (r : RmapEnt) => if e.place < 8 then (r.vtag / 1024, r.asid) else (r.sector / 1024, 0)
  let kept := (dedup ((s.rmap.filter (fun r => mine r && pinned r)).map line)).length
  let r := s.addEntry ((if e.place < 8 then l1Room else sliceRoom) - kept) line (fun r => mine r && !pinned r) s.rmap e
  { r.1 with rmap := r.2 }

/-- The state after a request of a core reaches a sector that an L1 of its cluster holds: where another L1 holds it, or its own
under another tag, the sector may move to the requester, as the device chooses (R129). -/
def State.shift (s : State) (core asid va : Nat) (r : RmapEnt) : State :=
  if r.core = core ∧ r.vtag = sectorOf va ∧ r.asid = asid ∧ r.epoch = s.epoch asid then s
  else
    let k := s.choose 2
    if k.1 = 0 then k.2
    else ({ k.2 with rmap := k.2.rmap.filter (· != r) }).enter
      { r with core := core, vtag := sectorOf va, asid := asid, epoch := s.epoch asid }

/-- The state after the L1s of a core's cluster, and the chip-level slice, hold the present sector of an access (R128, R129,
R138). -/
def State.hold (s : State) (core asid va pa : Nat) (l : Leaf) (wrote : Bool) : State :=
  let sec := sectorOf pa
  let lease := s.rt pa
  let wt := s.wt pa
  let places := (if l1Holds l pa then [clusterOf core] else []) ++ (if sliceHolds l pa then [8 + dieOfHbm pa] else [])
  places.foldl (fun x pl =>
    match x.rmap.find? (fun r => r.place == pl && r.sector == sec) with
    | some r =>
      let x := if pl < 8 then x.shift core asid va r else x
      { x with rmap := x.rmap.map (fun r => if r.place = pl ∧ r.sector = sec then
          { r with dirty := r.dirty || wrote, lease := lease, wt := wt, copy := [] } else r) }
    | none =>
      x.enter { place := pl, core := core, sector := sec, vtag := sectorOf va, asid := asid, epoch := s.epoch asid,
                share := l.share, home := l.home, dirty := wrote, lease := lease, wt := wt, copy := [] }) s

/-- The state after an access through a leaf leaves its marks and its copies. -/
def State.touch (s : State) (core asid va pa : Nat) (l : Leaf) (wrote : Bool) : State :=
  (s.mark core asid l).hold core asid va pa l wrote

/-! ## Translating an access (R219 checks 1 to 4) -/

/-- How an attempt to resolve an access ends. -/
inductive Att where
  | miss
  | fault (cause va : Nat)
  | go (ps : List Piece)
  deriving DecidableEq, Repr

/-- The leaf under which scratchpad words of `ldl` and `stl` are reached (R121, R226). -/
def localLeaf : Leaf where
  va := 0
  pa := 0
  log := 0
  share := .coh
  home := .spad
  u := true
  x := false
  w := true
  r := true
  ats := false

/-- Check 4 of one piece: its leaf, or the cause and address of the first condition it fails (R219). -/
def State.checkPiece (s : State) (core asid : Nat) (n : Need) (sup relaxed : Bool) (q : Nat × Nat) : Att :=
  match s.lookUp core asid q.1 n sup with
  | .miss => .miss
  | .fault c => .fault c q.1
  | .hit l =>
    match s.policyFault core l (l.addr q.1) n relaxed with
    | some c => .fault c q.1
    | none => .go [{ va := q.1, pa := l.addr q.1, size := q.2, leaf := l }]

/-- Two pieces' outcomes as one: a miss first, then the condition that comes first in the order of R219, the lower page's
of two equal ones. -/
def Att.both : Att → Att → Att
  | .miss, _ => .miss
  | .fault _ _, .miss => .miss
  | .go _, .miss => .miss
  | .fault c v, .fault c' v' => if c ≤ c' then .fault c v else .fault c' v'
  | .fault c v, .go _ => .fault c v
  | .go _, .fault c v => .fault c v
  | .go ps, .go qs => .go (ps ++ qs)

/-- Check 4 over the pieces of an access (R219). -/
def State.resolve (s : State) (core asid : Nat) (n : Need) (sup relaxed : Bool) : List (Nat × Nat) → Att
  | [] => .go []
  | q :: rest => (s.checkPiece core asid n sup relaxed q).both (s.resolve core asid n sup relaxed rest)

/-- Whether R227 bars an access from DEV pages. -/
def Acc.relaxed (a : Acc) : Bool :=
  match a.order with
  | .unp | .qnt | .spec => true
  | .ord | .com | .nord => false

/-- The checks of R219 on one access, in order. -/
def State.attempt (s : State) (t : Team) (a : Acc) : Att :=
  if a.loc then
    if a.ea % 4 ≠ 0 then .fault 0x11 a.ea
    else if t.record.scratch * 128 < a.ea + a.size then .fault 0x12 a.ea
    else .go ((pieces 128 (t.scratch + a.ea) a.size).map (fun p =>
      { va := p.1, pa := p.1, size := p.2, leaf := localLeaf }))
  else if !canonicalRange a.ea a.size then .fault 0x10 a.ea
  else if a.ea % a.align ≠ 0 then .fault 0x11 a.ea
  else s.resolve t.core t.asid a.need a.sup a.relaxed (pieces 128 a.ea a.size)

/-! ## Performing (R131, R133, R150, R224) -/

/-- The state after transactions for the blocks of 64 bytes of a piece go out on its link, when it has one (R224). -/
def State.transact (s : State) (pa n : Nat) (f : Nat × Nat → Sent) : State :=
  if onLink pa then { s with sent := s.sent ++ (pieces 64 pa n).map f } else s

/-- The copy that a core may read without its home: a coherent one under its lease, a private or read-shared one while it
is held (R127, R138). -/
def State.usableCopy (s : State) (w : Who) (l : Leaf) (pa : Nat) : Option RmapEnt :=
  if l1Holds l pa then
    s.rmap.find? (fun r => some r.place == w.core.map clusterOf && r.sector == sectorOf pa
      && (r.share != .coh || decide (s.clockOf w ≤ r.lease)))
  else none

/-- The value of `n` bytes at `pa` before a write event, given the value after it. -/
def Ev.undo (e : Ev) (pa n v : Nat) : Nat :=
  natOfBytes ((List.range n).map (fun i =>
    if e.pa ≤ pa + i && pa + i < e.pa + e.size then BitVec.ofNat 8 (e.old >>> (8 * (pa + i - e.pa)))
    else BitVec.ofNat 8 (v >>> (8 * i))))

/-- Whether an event touches a byte of `[pa, pa + n)`. -/
def Ev.meets (e : Ev) (pa n : Nat) : Bool := decide (0 < e.size) && decide (e.pa < pa + n) && decide (pa < e.pa + e.size)

/-- The values a location held before the present one, newest first, each with how many events of the history lie after
it; `stop` ends the search. -/
def olderValues (own stop : Ev → Bool) (pa n : Nat) : List Ev → Nat → Nat → List (Nat × Nat)
  | [], _, _ => []
  | e :: rest, v, i =>
    if stop e || (own e && e.meets pa n) then []
    else if e.wrote && e.meets pa n then
      let v' := e.undo pa n v
      (v', i + 1) :: olderValues own stop pa n rest v' (i + 1)
    else olderValues own stop pa n rest v (i + 1)

/-- The state after a read at time `t` that consults nothing at the home stands in S, `at_` events before the newest (R138). -/
def State.readHere (s : State) (w : Who) (pa n : Nat) (bounds : Bool) (t at_ : Nat) : State :=
  let ev : Ev := { time := t, team := w.team, slice := w.slice, lane := w.lane, pa := pa, size := n,
                   wrote := false, old := 0, bounds := bounds }
  { s with hist := s.hist.take at_ ++ ev :: s.hist.drop at_ }

/-- The state after a read at the home: its event, with a lease for a coherent copy, and the copy held (R138). -/
def State.readHome (s : State) (w : Who) (asid : Nat) (bounds : Bool) (p : Piece) : State :=
  (s.record w p.pa p.size false bounds (if p.leaf.share == .coh && p.leaf.home == .cached then 256 else 0)).touch
    (w.core.getD 0) asid p.va p.pa p.leaf false

/-- A read of one piece in S: the copy its cluster may use, or the home. A copy that has fallen behind may be used or
renewed, as the device chooses (R126, R138). The reader's clock moves to the write time of what a copy gives (R137). -/
def State.readSector (s : State) (w : Who) (asid : Nat) (bounds : Bool) (p : Piece) : State × Nat :=
  let now := s.mem.nat p.pa p.size
  let core := w.core.getD 0
  match s.usableCopy w p.leaf p.pa with
  | none => (s.readHome w asid bounds p, now)
  | some r =>
    let here := fun (s : State) (made at_ : Nat) =>
      let t := max (s.clockOf w) made
      (((s.readHere w p.pa p.size bounds t at_).clockTo w t).mark core asid p.leaf).shift core asid p.va r
    if r.copy.isEmpty then (here s (s.wt p.pa) 0, now)
    else
      let c := s.choose 2
      if c.1 = 0 then
        let held := natOfBytes ((r.copy.drop (p.pa - r.sector)).take p.size)
        let back := ((olderValues (fun _ => false) (fun _ => false) p.pa p.size s.hist now 0).find? (fun x => x.1 == held)).map
          Prod.snd
        (here c.2 r.wt (back.getD 0), held)
      else (c.2.readHome w asid bounds p, now)

/-- A read of the pieces of an access: value, and whether poison was consumed. A DEV piece is a transaction of its link
and no event of S; what lies beyond the state is free (R150, R224). -/
def State.readPieces (s : State) (w : Who) (asid : Nat) (bounds : Bool) : List Piece → Nat → State × Nat × Bool
  | [], _ => (s, 0, false)
  | p :: rest, sh =>
    let bad := s.poisoned p.pa p.size
    if p.leaf.share == .dev || beyond p.pa then
      let s := (s.transact p.pa p.size (fun q => Sent.read q.1 q.2)).mark (w.core.getD 0) asid p.leaf
      let v := if beyond p.pa then s.freeBytes p.size else (s.mem.nat p.pa p.size, s)
      let r := v.2.readPieces w asid bounds rest (sh + 8 * p.size)
      (r.1, v.1 <<< sh + r.2.1, bad || r.2.2)
    else
      let v := s.readSector w asid bounds p
      let r := v.1.readPieces w asid bounds rest (sh + 8 * p.size)
      (r.1, v.2 <<< sh + r.2.1, bad || r.2.2)

/-- A write of a value to the pieces of an access, one event per sector in ascending order (R133). -/
def State.writePieces (s : State) (w : Who) (asid : Nat) (v : Nat) : List Piece → State
  | [] => s
  | p :: rest =>
    let x := v % 2 ^ (8 * p.size)
    let s :=
      if p.leaf.share == .dev || beyond p.pa then
        let s := (s.transact p.pa p.size (fun q => Sent.write q.1 (bytesOfNat q.2 (x >>> (8 * (q.1 - p.pa)))))).mark
          (w.core.getD 0) asid p.leaf
        if beyond p.pa then s else s.put p.pa p.size x (s.clockOf w)
      else (s.evWrite w p.pa p.size x false).touch (w.core.getD 0) asid p.va p.pa p.leaf true
    s.writePieces w asid (v >>> (8 * p.size)) rest

/-- One lane's read-modify-write, a single event (R131, R230): the old value, and whether poison was consumed, in
which case nothing is written. -/
def State.rmw (s : State) (w : Who) (asid fn : Nat) (p : Piece) (b : Nat) : State × Nat × Bool :=
  let old := s.mem.nat p.pa p.size
  if s.poisoned p.pa p.size then (s, old, true)
  else
    let s := s.evWrite w p.pa p.size (atomNew fn p.size old b) true
    (s.touch (w.core.getD 0) asid p.va p.pa p.leaf true, old, false)

/-! ## Quantum and speculative loads (R145, R146) -/

/-- The time of the write that made the value a location had before the newest `i` events; 0 for its initial value. -/
def madeAt (pa n i : Nat) (hist : List Ev) : Nat :=
  (((hist.drop i).find? (fun e => e.wrote && e.meets pa n)).map (fun e => e.time)).getD 0

/-- A load that may return an older value: `ald.qnt` when `quantum`, else `ald.spec`. A quantum load takes a value that
stood within 256 ticks before the core's clock. Its read is placed in the history where its value stood, so that the
lane reads nothing older later (R136); a speculative load moves the clock to its value's write (R137). -/
def State.windowLoad (s : State) (w : Who) (asid : Nat) (quantum : Bool) (p : Piece) : State × Nat × Bool :=
  let cur := s.mem.nat p.pa p.size
  let bad := s.poisoned p.pa p.size
  let now := s.clockOf w
  let own := fun (e : Ev) => e.team == w.team && e.slice == w.slice && e.lane == w.lane
  let stop := fun (e : Ev) =>
    if quantum then e.wrote && e.meets p.pa p.size && decide (e.time + 256 ≤ now)
    else e.bounds && e.team == w.team && e.slice == w.slice && (e.lane == w.lane || e.lane == 4)
  let older := olderValues own stop p.pa p.size s.hist cur 0
  let all := ((cur, 0) :: older).filter (fun x => !quantum || decide (madeAt p.pa p.size x.2 s.hist ≤ now))
  let c := s.choose all.length
  let pick := (all.drop c.1).headD (cur, 0)
  let made := madeAt p.pa p.size pick.2 s.hist
  let s := (c.2.readHere w p.pa p.size false now pick.2).mark (w.core.getD 0) asid p.leaf
  (if quantum then s else s.clockTo w made, pick.1, bad)

/-! ## Lane faults (R337, R339) -/

/-- The slice after the lanes of an access are parked, each with one record (R219, R337). -/
def Slice.parkLanes (sl : Slice) (a : Acc) (cause va : Nat) : Slice :=
  { sl with
    park := sl.park ||| BitVec.ofNat 4 (maskOf a.lanes),
    recs := sl.recs ++ (a.lanes.filter (fun l => (sl.rec? l).isNone)).map (fun l =>
      ({ lane := l, cause := cause, va := va, acc := { a with lanes := [l] } } : FaultRec)) }

/-- The state after the lanes of an access fail a check 1 to 4: a handler thread stops with HFAULT (R253); in
supervisor mode it is a double fault (R340); the lanes are parked, each with one record (R337). -/
def State.parkAcc (s : State) (u k : Nat) (a : Acc) (cause va : Nat) : State :=
  match s.slice? u k with
  | none => s
  | some sl =>
    if sl.thread.isSome then s.failThread u k 0x0A
    else
      let s := s.setSlice u k (fun sl => sl.parkLanes a cause va)
      if sl.mode = .supervisor then s.doubleFault u k cause none (pcWord a.hdr a.ix sl.exec.toNat) else s

/-- The state after the lanes of an access consume poison: parked, each with its record, and the team held (R219,
R339; log 17). -/
def State.poisonAcc (s : State) (u k : Nat) (a : Acc) : State :=
  match s.slice? u k with
  | none => s
  | some sl =>
    if sl.thread.isSome then s.failThread u k 0x0A
    else (s.setSlice u k (fun sl => sl.parkLanes a 0x18 a.ea)).causeHold u k 0x18 0 none (pcWord a.hdr a.ix sl.exec.toNat)

/-! ## Performing an access -/

/-- Who performs an access: its lowest lane (R131). -/
def Acc.who (a : Acc) (t : Team) (k : Nat) : Who where
  core := some t.core
  team := t.uid
  slice := k
  lane := a.lanes.headD 0
  agent := 0

/-- Where an access stands in S on the page it meets: off a coherent page `ald.qnt` and `ald.spec` are ordinary loads
(R227). -/
def Acc.orderOn (a : Acc) (ps : List Piece) : Order :=
  match a.order with
  | .qnt => if ps.all (fun p => p.leaf.share == .coh) then .qnt else .ord
  | .spec => if ps.all (fun p => p.leaf.share == .coh) then .spec else .ord
  | .ord => .ord
  | .com => .com
  | .nord => .nord
  | .unp => .unp

/-- The state after an access whose checks passed is performed, and where it then stands. -/
def State.performAcc (s : State) (t : Team) (k : Nat) (a : Acc) (ps : List Piece) : State × AccSt :=
  let w := a.who t k
  match a.kind with
  | .load _ =>
    let r := match a.orderOn ps, ps with
      | .qnt, [p] => s.windowLoad w t.asid true p
      | .spec, [p] => s.windowLoad w t.asid false p
      | _, _ => s.readPieces w t.asid true ps 0
    if r.2.2 then (r.1.poisonAcc t.uid k a, .dropped) else (r.1, .got r.2.1 [])
  | .store => (s.writePieces w t.asid a.data ps, .written)
  | .atom fn =>
    match ps with
    | p :: _ =>
      let r := s.rmw w t.asid fn p a.data
      if r.2.2 then (r.1.poisonAcc t.uid k a, .dropped)
      else (r.1, if a.flag.isSome then .got r.2.1 [] else .written)
    | [] => (s, .dropped)
  | .barWord => (s, .dropped)

/-- Whether a piece of an access is an event of S: one of a DEV page is not, nor one beyond the state (R150). -/
def Piece.event (p : Piece) : Bool := p.leaf.share != .dev && !beyond p.pa

/-- Whether some event, with its time, would pass the checkpoint ceiling of a core (R137, R401). -/
def State.pastCeiling (s : State) (core : Nat) (l : List (Nat × Nat)) : Bool :=
  match s.ceiling core with
  | none => false
  | some c => l.any (fun x => decide (c < x.2))

/-- Whether an event of an access would pass the core's checkpoint ceiling, or finds no room for the pre-image it replaces
(R137, R403). -/
def State.overCeiling (s : State) (t : Team) (k : Nat) (a : Acc) (ps : List Piece) : Bool :=
  let l := s.timesFrom a.need.writes (s.clockOf (a.who t k)) ((ps.filter Piece.event).map (fun p => p.pa))
  (a.need.writes && l.any (fun x => s.captureFull x.1 x.2)) || s.pastCeiling t.core l

/-- The request to a peer for one piece of an access: what R376 has it carry. -/
def State.peerRequest (s : State) (n : Need) (fn v : Nat) (p : Piece) : Sent :=
  let e := (nget s.egress (bits p.pa 50 40)).toNat
  .ridgeRequest s.mgmt.pkgid.toNat (bits e 31 16) (bits e 11 0) (bits e 63 32) (bits p.pa 39 0) p.size
    (match n with
      | .load | .fetch => 0
      | .store => 1
      | .atomic => 2) fn (match n with
      | .load | .fetch => []
      | .store | .atomic => bytesOfNat p.size v)

/-- A piece as its link carries it: on a DEV page, one part for each 64-byte block (R224). -/
def Piece.blocks (p : Piece) : List Piece :=
  if p.leaf.share == .dev then
    (pieces 64 p.pa p.size).map (fun q => { p with va := p.va + (q.1 - p.pa), pa := q.1, size := q.2 })
  else [p]

/-- The requests of an access for its pieces that lie at a peer, in ascending order: the data of each piece of a store is its own
(R133, R376). -/
def State.peerRequests (s : State) (n : Need) (fn : Nat) : Nat → List Piece → List Sent
  | _, [] => []
  | v, p :: rest =>
    (if inRange .fabric p.pa then [s.peerRequest n fn v p] else []) ++ s.peerRequests n fn (v >>> (8 * p.size)) rest

/-- The state after the requests of an access for its pieces that lie at a peer are sent (R376). -/
def State.sendPeers (s : State) (n : Need) (fn v : Nat) (ps : List Piece) : State :=
  { s with sent := s.sent ++ s.peerRequests n fn v (ps.flatMap Piece.blocks) }

/-- As `sendPeers`, for an access that is answered in its own event; and whether no peer refuses it, which is the peers' matter
(R376; log 68). -/
def State.askPeers (s : State) (n : Need) (fn v : Nat) (ps : List Piece) : State × Bool :=
  if ps.any (fun p => inRange .fabric p.pa) then
    let c := (s.sendPeers n fn v ps).choose 2
    (c.2, c.1 == 0)
  else (s, true)

/-- The function code of an access that is an atomic (R230). -/
def Acc.fn (a : Acc) : Nat :=
  match a.kind with
  | .atom fn => fn
  | .load _ | .store | .barWord => 0

/-! ## Operations in flight -/

/-- Access `i` of operation `id`, with where it stands. -/
def State.acc? (s : State) (id i : Nat) : Option (PendOp × Acc × AccSt) :=
  (s.pend.find? (fun p => p.id == id)).bind (fun op => op.accs[i]?.map (fun x => (op, x)))

/-- The state with access `i` of operation `id` replaced. -/
def State.setAcc (s : State) (id i : Nat) (x : Acc × AccSt) : State :=
  { s with pend := s.pend.map (fun p => if p.id = id then { p with accs := p.accs.set i x } else p) }

/-- The state after the selected accesses of the operations in flight take a step, in the order of their issue. -/
def State.stepAccs (s : State) (sel : PendOp → Acc → AccSt → Bool) (f : State → PendOp → Acc → AccSt → State × AccSt) :
    State :=
  (s.pend.flatMap (fun p => (List.range p.accs.length).map (fun i => (p.id, i)))).foldl (fun s k =>
    match s.acc? k.1 k.2 with
    | none => s
    | some (op, a, st) =>
      if sel op a st then
        let y := f s op a st
        y.1.setAcc k.1 k.2 (a, y.2)
      else s) s

/-- Whether two accesses share a byte, through whatever pages they reach it (R121, R136). -/
def sameBytes (ps qs : List Piece) : Bool :=
  ps.any (fun p => qs.any (fun q => decide (p.pa < q.pa + q.size) && decide (q.pa < p.pa + p.size)))

/-- Whether an earlier access of a lane must take its event before a later one: their orders, whether they share a byte,
and whether each is a load or an atomic (R135, R136, R139, R146). -/
def comesFirst (b a : Order) (same loads aloads : Bool) : Bool :=
  match b, a with
  | .ord, .ord => true
  | .com, .ord => false
  | .spec, .spec => same
  | .spec, _ => same || aloads
  | _, .spec => same || loads
  | _, _ => same

/-- Whether access `b`, with pieces `qs`, must take its event before the later access `a` of the same slice. Between a DEV
access and another one only a fence orders (R150). -/
def Acc.before (b : Acc) (qs : List Piece) (a : Acc) (ps : List Piece) : Bool :=
  b.lanes.headD 0 == a.lanes.headD 0
  && qs.any (fun p => p.leaf.share == .dev) == ps.any (fun p => p.leaf.share == .dev)
  && comesFirst (b.orderOn qs) (a.orderOn ps) (sameBytes qs ps) (b.kind != .store) (a.kind != .store)

/-- The coming accesses of a slice among operations issued before `n`, oldest first: operation, index, access, pieces. -/
def State.coming (s : State) (u k n : Nat) : List (Nat × Nat × Acc × List Piece) :=
  (s.pend.filter (fun p => p.team == u && p.slice == k && decide (p.id < n))).flatMap (fun p =>
    (List.range p.accs.length).filterMap (fun i => (p.accs[i]?).bind (fun x =>
      x.2.coming?.map (fun ps => (p.id, i, x.1, ps)))))

/-- Of some coming accesses, those that must take their events before the access `a`, themselves or by way of one
another. -/
def needed (a : Acc) (ps : List Piece) (l : List (Nat × Nat × Acc × List Piece)) : List (Nat × Nat × Acc × List Piece) :=
  l.foldr (fun x later =>
    if x.2.2.1.before x.2.2.2 a ps || later.any (fun y => x.2.2.1.before x.2.2.2 y.2.2.1 y.2.2.2) then x :: later else later) []

/-- The state after the event of a coming access, all that must precede it being performed: it waits while its time would
pass the ceiling, and goes out to the peer it reaches (R137, R376). `wait` is where it then stands. -/
def State.takeEvent (s : State) (t : Team) (k : Nat) (a : Acc) (ps : List Piece) (wait : AccSt) : State × AccSt :=
  if s.overCeiling t k a ps then (s, wait)
  else if ps.any (fun p => inRange .fabric p.pa) then
    (s.sendPeers a.need a.fn a.data ps, .peer ps)
  else s.performAcc t k a ps

/-- The state after the late accesses whose operands have been combined with that of an access at `ps` take their events too; none
while one of them would pass the ceiling (R137, R142). -/
def State.performPartners (s : State) (ps : List Piece) : Option State :=
  let sel := fun (b : Acc) (st : AccSt) => b.comb && ((st.late?).map (sameBytes ps)).getD false
  let s' := s.stepAccs (fun _ b st => sel b st) (fun s op b st =>
    match st.late?, s.team? op.team with
    | some qs, some v => if s.overCeiling v op.slice b qs then (s, st) else s.performAcc v op.slice b qs
    | _, _ => (s, st))
  if s'.pend.any (fun o => o.accs.any (fun x => sel x.1 x.2)) then none else some s'

/-- The state after one late access takes its event, with those its operand has been combined with (R139, R142). -/
def State.performLate (s : State) (u k id i : Nat) : State :=
  match s.team? u, s.acc? id i with
  | some t, some (_, a, .late ps) =>
    let r := s.takeEvent t k a ps (.late ps)
    let s' := r.1.setAcc id i (a, r.2)
    if a.comb && r.2 == .written then (s'.performPartners ps).getD s else s'
  | _, _ => s

/-- The state after the answer of a peer to an access stands: its event has been performed there (R376). -/
def State.performPeer (s : State) (u k id i : Nat) : State :=
  match s.team? u, s.acc? id i with
  | some t, some (_, a, .peer ps) =>
    if s.overCeiling t k a ps then s
    else
      let r := s.performAcc t k a ps
      r.1.setAcc id i (a, r.2)
  | _, _ => s

/-- The state after the accesses that must precede an access are performed, as far as they may be, and whether they all
are. -/
def State.clearBefore (s : State) (u k n : Nat) (a : Acc) (ps : List Piece) : State × Bool :=
  let s' := (needed a ps (s.coming u k n)).foldl (fun s x =>
    if (needed x.2.2.1 x.2.2.2 (s.coming u k x.1)).isEmpty then s.performLate u k x.1 x.2.1 else s) s
  (s', (needed a ps (s'.coming u k n)).isEmpty)

/-- The state after an access of the operation named `n` is tried, and where it then stands: it waits for a walk, parks
its lanes, or passes its checks and leaves its marks; then it is left to take its event later, waits for an earlier event or the ceiling, or takes its event (R219,
R139). `lag` leaves it to take its event in any order with the other lanes' (R134). -/
def State.tryAcc (s : State) (u k n : Nat) (lag : Bool) (a : Acc) : State × AccSt :=
  match s.team? u with
  | none => (s, .dropped)
  | some t =>
    match s.attempt t a with
    | .miss => (s, .walk)
    | .fault c va => (s.parkAcc u k a c va, .dropped)
    | .go ps =>
      let s := ps.foldl (fun s p => s.mark t.core t.asid p.leaf) s
      if lag || (a.orderOn ps != .ord && ps.all (fun p => p.leaf.share != .dev)) then (s, .late ps)
      else
        let r := s.clearBefore u k n a ps
        if r.2 then r.1.takeEvent t k a ps .ceil else (r.1, .ceil)

/-- The state after the selected waiting accesses are tried again. -/
def State.retry (s : State) (sel : PendOp → Acc → AccSt → Bool) : State :=
  s.stepAccs sel (fun s op a _ => s.tryAcc op.team op.slice op.id op.lag a)

/-- The state after the selected late accesses are performed, oldest first, as far as they may be. -/
def State.force (s : State) (sel : PendOp → Acc → Bool) : State :=
  (s.pend.flatMap (fun p => (List.range p.accs.length).map (fun i => (p.id, i)))).foldl (fun s x =>
    match s.acc? x.1 x.2 with
    | some (op, a, .late ps) =>
      if sel op a then
        let r := s.clearBefore op.team op.slice op.id a ps
        if r.2 then r.1.performLate op.team op.slice x.1 x.2 else r.1
      else s
    | _ => s) s

/-- The words that an access will write in its slice, each 4 × register + lane (R190). -/
def Acc.keys (a : Acc) : List Nat := a.lanes.flatMap (fun l => a.dst.map (fun p => 4 * p + l))

/-- The state after a slice issues accesses as one operation (R219 to R222). With `lag`, the instruction makes other accesses
too: its lanes are agents of their own, and each takes its event by itself, in any order (R9, R14, R134). -/
def State.issueAccs (s : State) (u k : Nat) (lag : Bool) (accs : List Acc) : State :=
  if accs.isEmpty then s
  else
    let n := s.name
    let op : PendOp := { id := n.1, team := u, slice := k, lag := lag, accs := accs.map (fun a => (a, .walk)) }
    let s := ({ n.2 with pend := n.2.pend ++ [op] }).setSlice u k (fun sl =>
      { sl with marks := sl.marks.await (accs.flatMap Acc.keys) })
    (accs.zip (List.range accs.length)).foldl (fun s x =>
      let y := s.tryAcc u k n.1 lag x.1
      y.1.setAcc n.1 x.2 (x.1, y.2)) s

/-- Whether an ordering point of a slice has late accesses before it: the unpaired ones count only at a fence or `end` (R139). -/
def State.lateLeft (s : State) (u k : Nat) (fence : Bool) : Bool :=
  s.pend.any (fun o => o.team == u && o.slice == k && o.accs.any (fun x => x.2.late?.isSome && (fence || x.1.order != .unp)))

/-- The state after the late accesses that precede an ordering point of the issuing slices are performed, as far as they may be
(R139). -/
def State.forceCur (s : State) (fence : Bool) : State :=
  match s.cur with
  | some c => s.force (fun op b => op.team == c.team && c.members.contains op.slice && (fence || b.order != .unp))
  | none => s

/-- The state after an ordering point of a slice: its relaxed accesses are performed, the unpaired ones only at a fence
or `end`; the point bounds later speculative loads, and later fetches find new code (R139, R140, R146, R151). -/
def State.orderPoint (s : State) (u k : Nat) (fence : Bool) : State :=
  let s := s.force (fun op b => op.team == u && op.slice == k && (fence || b.order != .unp))
  match s.team? u with
  | none => s
  | some t =>
    { s.newCode t.core with hist := { time := (s.core t.core).clock, team := u, slice := k, lane := 4, pa := 0, size := 0,
                                      wrote := false, old := 0, bounds := true } :: s.hist }

/-- Whether an access has passed checks 1 to 4 or been parked (R338). -/
def AccSt.resolved : AccSt → Bool
  | .walk | .ats | .ceil | .peer _ => false
  | .late _ | .got _ _ | .written | .dropped => true

/-- Whether every access of a slice is resolved (R338). -/
def State.allResolved (s : State) (u k : Nat) : Bool :=
  s.pend.all (fun p => !(p.team == u && p.slice == k) || p.accs.all (fun x => x.2.resolved))

/-- The words a loaded value writes, lowest first: bytes and halves are extended (R225). -/
def Acc.words (a : Acc) (v : Nat) : List Word :=
  match a.kind with
  | .load true => [(BitVec.ofNat (8 * a.size) v).signExtend 32]
  | .load false | .store | .atom _ | .barWord =>
    (List.range a.dst.length).map (fun j => BitVec.ofNat 32 (v >>> (32 * j)))

/-- The state after an outstanding operation writes a word of a lane; where an instruction has written the word since, either
value stays (R190). -/
def State.landWord (s : State) (u k p l : Nat) (w : Word) : State :=
  let both := ((s.slice? u k).map (fun sl => sl.marks.since (4 * p + l))).getD false
  let c := if both then s.choose 2 else (0, s)
  c.2.setSlice u k (fun sl => sl.land p l w (c.1 == 1))

/-- The state after the words of a loaded value that are still to be written are written, to each lane the access serves
(R190, R220, R221). -/
def State.writeLoaded (s : State) (u k : Nat) (a : Acc) (v : Nat) (given : List (Nat × Nat)) : State :=
  let ws := (a.dst.zip (a.words v)).zip (List.range a.dst.length)
  a.lanes.foldl (fun s l =>
    ws.foldl (fun s (p : (Nat × Word) × Nat) => if given.contains (l, p.2) then s else s.landWord u k p.1.1 l p.1.2) s) s

/-- Whether an operation holds a flag: a long-latency load or atomic. -/
def PendOp.flagged (p : PendOp) : Bool := p.accs.any (fun x => x.1.flag.isSome)

/-- Whether an access still has its event, or what it waits for, before it: a peer's answer apart. -/
def AccSt.open_ : AccSt → Bool
  | .walk | .ats | .ceil | .late _ => true
  | .peer _ | .got _ _ | .written | .dropped => false

/-- The state after an operation ends: its late accesses are performed, the events at a peer stand, data is written, then
the flag falls (R220, R222, R376). It is not due while some access waits for a walk, the host or the ceiling. -/
def State.completeOp (s : State) (id : Nat) : State :=
  match s.pend.find? (fun p => p.id == id) with
  | none => s
  | some op =>
    let s := (s.force (fun o _ => o.id == id)).stepAccs (fun o _ st => o.id == id && st matches .peer _) (fun s o a st =>
      match st.coming?, s.team? o.team with
      | some ps, some t => if s.overCeiling t o.slice a ps then (s, st) else s.performAcc t o.slice a ps
      | _, _ => (s, st))
    match s.pend.find? (fun p => p.id == id) with
    | none => s
    | some op' =>
      if op'.accs.any (fun x => x.2.open_ || x.2 matches .peer _) then s
      else
        let s := op'.accs.foldl (fun s x =>
          match x.2 with
          | .got v g => s.writeLoaded op.team op.slice x.1 v g
          | .walk | .ats | .ceil | .peer _ | .late _ | .written | .dropped => s) s
        let s := { s with pend := s.pend.filter (fun p => p.id != id) }
        let s := s.dropFlag op.team op.slice ((op'.accs.findSome? (fun x => x.1.flag)))
        s.settleThread op.team op.slice

/-- The state after one word of a lane's loaded data is written ahead of the flag's fall (R190). -/
def State.deliverWord (s : State) (id i lane word : Nat) : State :=
  match s.acc? id i with
  | some (op, a, .got v g) =>
    match (a.dst.zip (a.words v))[word]? with
    | some (r, w) =>
      if a.lanes.contains lane && !g.contains (lane, word) then
        (s.landWord op.team op.slice r lane w).setAcc id i (a, .got v (g ++ [(lane, word)]))
      else s
    | none => s
  | _ => s

/-- The state after the operands of two `.com` additions to one location are combined in the fabric: the first carries
the rounded sum, the second adds −0, and they take their event together (R142, R143). -/
def State.combine (s : State) (id i id' i' : Nat) : State :=
  match s.acc? id i, s.acc? id' i' with
  | some (op, a, .late ps), some (op', b, .late qs) =>
    let free := fun (o : PendOp) (x : Acc) (xs : List Piece) => (needed x xs (s.coming o.team o.slice o.id)).isEmpty
    if decide ((id, i) ≠ (id', i')) && a.order == .com && b.order == .com && a.kind == .atom 13 && b.kind == .atom 13
        && ps.map (fun p => p.pa) == qs.map (fun p => p.pa) && free op a ps && free op' b qs then
      (s.setAcc id i ({ a with data := atomNew 13 4 a.data b.data, comb := true }, .late ps)).setAcc id' i'
        ({ b with data := 0x80000000, comb := true }, .late qs)
    else s
  | _, _ => s

end Sys2Proof.Machine
end

