-- ==== Sys2Proof/Machine/Issue.lean ====
section
/-! DEFINITION. Fetch, clause headers and branch targets, the delivery of fault vectors and user interrupts, the checks
every word passes as it reaches issue, and the advance of the PC. -/

namespace Sys2Proof.Machine

/-! ## Fetch (R366) -/

/-- The base of a slice's code: CODEBASE, or SCODE in supervisor mode (R330, R331). -/
def State.codeBase (s : State) (t : Team) (sl : Slice) : Nat :=
  if sl.mode = .supervisor then (s.part t.part).scode.toNat else t.record.codebase

/-- Whether a place holds a sector for a fetch: an L1 by its tag, of which the epoch must be current, a cluster's level by the
physical sector (R1, R355, R366). -/
def State.lineFor (s : State) (place asid va pa : Nat) (i : ILine) : Bool :=
  i.place == place && i.sector == sectorOf pa
  && (decide (512 ≤ place) || (i.vtag == sectorOf va && i.asid == asid && i.epoch == s.epoch asid))

/-- The instruction line that serves a fetch at a place, if its bytes are older than memory's (R151). -/
def State.oldLine (s : State) (place asid va pa : Nat) : Option ILine :=
  s.ilines.find? (fun i => s.lineFor place asid va pa i && !i.bytes.isEmpty)

/-- The state in which the L1 instruction cache of a core and its cluster's level hold a sector, with the bytes given;
none is memory's present ones (R151). A line of an L1 is 256 bytes under one tag (R1). -/
def State.holdLine (s : State) (core asid va pa : Nat) (bytes : List Byte) : State :=
  [core, 512 + clusterOf core].foldl (fun s pl =>
    if s.ilines.any (s.lineFor pl asid va pa) then
      { s with ilines := s.ilines.map (fun i => if s.lineFor pl asid va pa i then { i with bytes := bytes } else i) }
    else
      let r := s.addEntry (lineRoom pl)
        (fun i => if i.place < 512 then (i.vtag / 256, i.asid, i.epoch.toNat) else (i.sector / 128, 0, 0))
        (fun i => i.place == pl) s.ilines
        { place := pl, sector := sectorOf pa, vtag := sectorOf va, asid := asid, epoch := s.epoch asid, bytes := bytes }
      { r.1 with ilines := r.2 }) s

/-- The word at a physical code address: an instruction line that has fallen behind memory may serve it, or be filled
anew, as the device chooses; `first` marks the first word that a fetch takes from a sector, and the others follow it (R151). -/
def State.fetchLine (s : State) (core asid va pa : Nat) (first : Bool) : State × Word :=
  let word := fun (v : Nat) => BitVec.ofNat 32 v
  match (s.oldLine core asid va pa).or (s.oldLine (512 + clusterOf core) asid va pa) with
  | none => (s.holdLine core asid va pa [], word (s.mem.nat pa 4))
  | some i =>
    let c := if first then s.choose 2 else (0, s)
    if c.1 = 0 then
      (c.2.holdLine core asid va pa i.bytes, word (natOfBytes ((i.bytes.drop (pa - sectorOf pa)).take 4)))
    else (c.2.holdLine core asid va pa [], word (s.mem.nat pa 4))

/-- The state after the fetch of a sector that no line serves asks the peer it lies at for it, and whether the peer gives it
(R376). -/
def State.askLine (s : State) (t : Team) (l : Leaf) (va : Nat) : State × Bool :=
  let pa := l.addr va
  if s.ilines.any (fun i => s.lineFor t.core t.asid va pa i || s.lineFor (512 + clusterOf t.core) t.asid va pa i) then (s, true)
  else s.askPeers .fetch 0 0 [{ va := sectorOf va, pa := sectorOf pa, size := 128, leaf := l }]

/-- The word at a code address, fetched in the slice's mode: `none` while the host is waited for, or the cause of the
fault (R151, R366, R374, R376); poison that is fetched has the cause of R339 (log 17). `first` marks the first word taken from a
sector. -/
def State.fetch (s : State) (t : Team) (sup first : Bool) (va : Nat) : State × Option (Except Nat Word) :=
  if !canonicalRange va 4 then (s, some (.error 0x13))
  else
    let r := s.translate t.part t.core t.asid va .fetch sup s.curBad
    match r.2 with
    | some (.ok l) =>
      let pa := l.addr va
      if inRange .fabric pa && !s.slotPermits pa .fetch then (r.1, some (.error 0x14))
      else if beyond pa then
        let v := r.1.freeBytes 4
        (v.2, some (.ok (BitVec.ofNat 32 v.1)))
      else if s.poisoned pa 4 then (r.1, some (.error 0x18))
      else
        let c := r.1.askLine t l va
        if c.2 then
          let v := c.1.fetchLine t.core t.asid va pa first
          (v.1, some (.ok v.2))
        else (c.1, some (.error 0x14))
    | some (.error c) => (r.1, some (.error c))
    | none => (r.1, none)

/-- Whether a word is a clause header (R62). -/
def isHeader (w : Word) : Bool := wordOp w == 0x1F

/-- WAIT of a header word (R62). -/
def hdrWait (w : Word) : BitVec 12 := w.extractLsb' 15 12
/-- SETA of a header word. -/
def hdrSetA (w : Word) : Nat := (w.extractLsb' 11 4).toNat
/-- SETB of a header word. -/
def hdrSetB (w : Word) : Nat := (w.extractLsb' 7 4).toNat
/-- LEN of a header word. -/
def hdrLen (w : Word) : Nat := (w.extractLsb' 4 3).toNat

/-- Whether a word is an instruction and long-latency; an illegal encoding counts as neither long-latency nor a
control transfer (R67). -/
def wordLong (w : Word) : Bool :=
  match decode w with
  | .ok i => i.wf && i.long
  | .error _ => false

/-- Whether a word is an instruction and a control transfer (R67). -/
def wordCtl (w : Word) : Bool :=
  match decode w with
  | .ok i => i.wf && i.ctl
  | .error _ => false

/-- The mask of the long-latency words of a clause, by position (R65). -/
def longMask (ws : List Word) : BitVec 8 :=
  BitVec.ofNat 8 (maskOf ((List.range ws.length).filter (fun i => wordLong ((ws.drop i).headD 0))))

/-- Whether a word that is no instruction, but whose OP is that of a class of convergence words, is a convergence point (R71,
R338). -/
def opConverges (w : Word) : Bool := [0x08, 0x0E, 0x0F, 0x10, 0x11, 0x12, 0x13, 0x14, 0x15, 0x1B].contains (wordOp w).toNat

/-- Whether a word is a convergence point (R338). -/
def wordConverges (w : Word) : Bool :=
  match decode w with
  | .ok i => i.conv
  | .error _ => opConverges w

/-- `n` words from a code address on, fetched in order, each sector in one version (R151). -/
def State.fetchWords (s : State) (t : Team) (sup : Bool) (va : Nat) : Nat → State × Option (Except Nat (List Word))
  | 0 => (s, some (.ok []))
  | n + 1 =>
    match s.fetch t sup (va % 128 == 0) va with
    | (s, none) => (s, none)
    | (s, some (.error c)) => (s, some (.error c))
    | (s, some (.ok w)) =>
      match s.fetchWords t sup (va + 4) n with
      | (s, none) => (s, none)
      | (s, some (.error c)) => (s, some (.error c))
      | (s, some (.ok ws)) => (s, some (.ok (w :: ws)))

/-- Whether a clause fails the check of R67 at its header, index 0. -/
def clauseBad (hw : Word) (ws : List Word) : Bool :=
  let a := hdrSetA hw
  let b := hdrSetB hw
  let longs := (ws.filter wordLong).length
  (12 ≤ a && a ≤ 14) || (12 ≤ b && b ≤ 14)
  || ws.any isHeader
  || decide (3 ≤ longs) || (decide (1 ≤ longs) && a == 15) || (decide (2 ≤ longs) && b == 15)
  || (ws.dropLast).any wordCtl

/-! ## Positions -/

/-- Where a word stands as it issues: its team and slices, its header and index, the flag it is assigned, and the
team's energy before its charge. -/
structure At where
  team : Nat
  members : List Nat
  hdr : Nat
  ix : Nat
  flag : Option Nat
  energy : BitVec 48
  esat : Bool
  deriving DecidableEq, Repr

/-- The flag assigned to the long-latency word at index `ix` of the open clause: the first has SETA, the second SETB
(R65). R67 keeps out a third, and a SETA or SETB that names no flag; a clause entered past index 0 through a written UISV
or SEPC is not checked by R67, and there a third takes SETB, and no flag is attached to where the field names none
(DESIGN CHOICE, log 63). -/
def Slice.assigned (sl : Slice) (ix : Nat) : Option Nat :=
  let before := ((List.range ix).filter (fun i => sl.longs.getLsbD i)).length
  let f := if before = 0 then hdrSetA sl.hw else hdrSetB sl.hw
  if f < 12 then some f else none

/-- The slice after its PC moves to the next word, or past the clause (R66). Past the last clause below code offset 2^26 it goes on
fetching, although no PC names what stands there (DESIGN CHOICE, log 70). -/
def Slice.advance (sl : Slice) : Slice :=
  if sl.ix < hdrLen sl.hw then { sl with ix := sl.ix + 1 }
  else { sl with hdr := sl.hdr + 4 * (hdrLen sl.hw + 2), ix := 0, opened := false, code := [] }

/-- The slice after its PC moves to a clause header (R167). -/
def Slice.jump (sl : Slice) (hdr : Nat) : Slice := { sl with hdr := hdr, ix := 0, opened := false, code := [] }

/-- The slice resumed at index `ix` of a clause, whose words are still to be fetched: at index 0 the clause is checked anew (R68,
R182). -/
def Slice.resumeAt (sl : Slice) (hdr ix : Nat) (hw : Word) : Slice :=
  if ix = 0 then sl.jump hdr else { sl with hdr := hdr, ix := ix, opened := true, hw := hw, longs := 0, code := [] }

/-- The team with each listed slice changed. -/
def Team.onMembers (t : Team) (ms : List Nat) (f : Slice → Slice) : Team :=
  { t with slices := t.slices.map (fun sl => if sl.idx ∈ ms then f sl else sl) }

/-- The effect of a word that changes each slice of the sub-crew by itself and then goes on to the next word; the
function is given log2 of the crew size. -/
def perSlice (f : Nat → Slice → Slice) (p : At) (s : State) : State :=
  s.setTeam p.team (fun t => t.onMembers p.members (fun sl => (f t.record.crewlog sl).advance))

/-- The state after the listed slices go on to the next word. -/
def State.advanceAll (s : State) (p : At) : State := perSlice (fun _ sl => sl) p s

/-- A trap of slice `k` at the word that is issuing (R76). -/
def State.trapWord (s : State) (p : At) (k cause sub : Nat) : State :=
  s.trapAt p.team k cause sub p.hdr p.ix p.hdr p.ix p.flag

/-! ## Targets (R170) -/

/-- What the check of a target says. -/
inductive Target where
  | ok (hw : Word)
  | bad
  | fault (cause : Nat)
  | wait
  deriving DecidableEq, Repr

/-- The check of a target address against a code base (R170). -/
def State.checkTarget (s : State) (t : Team) (sup : Bool) (base va : Nat) : State × Target :=
  if va < base || base + 2 ^ 26 ≤ va || (va - base) % 4 ≠ 0 then (s, .bad)
  else
    match s.fetch t sup true va with
    | (s, none) => (s, .wait)
    | (s, some (.error c)) => (s, .fault c)
    | (s, some (.ok w)) => (s, if isHeader w then .ok w else .bad)

/-- A slice's control transfer to a code address: the target is checked, and a fault of its fetch is the double fault
of R366 (R167, R170). `f` is applied to the slice with the new PC. -/
def State.transfer (s : State) (p : At) (k : Nat) (va : Nat) (f : Slice → Slice) : State :=
  match s.team? p.team with
  | none => s
  | some t =>
    match t.slice? k with
    | none => s
    | some sl =>
      let base := s.codeBase t sl
      match s.checkTarget t (sl.mode == .supervisor) base va with
      | (s, .ok _) => s.setSlice p.team k (fun sl => f (sl.jump (va - base)))
      | (s, .bad) => s.trapWord p k 0x05 0
      | (s, .fault c) =>
        if sl.thread.isSome then s.failThread p.team k 0x08
        else s.fetchHold p.team k c (some va) (pcWord p.hdr p.ix sl.exec.toNat)
      | (s, .wait) => s.setTeam p.team (fun t => t.setSub k (fun b => { b with stalled := true, wants := s.want }))

/-! ## Vectors and interrupts -/

/-- The slice vectored for the record of its lowest lane that holds one; SEPC names the convergence word (R338,
R340). -/
def Slice.faultVector (sl : Slice) (r : FaultRec) : Slice :=
  sl.vector r.cause 0 sl.hdr sl.ix r.acc.hdr r.acc.ix r.acc.flag

/-- Whether a slice vectors at a convergence point: user mode, and some lane holds a record (R338, R340). -/
def Slice.vectors (sl : Slice) : Bool := sl.mode == .user && sl.vectorRec.isSome

/-- The state after a slice takes its fault vector (R340). -/
def State.takeFaultVector (s : State) (u k : Nat) : State :=
  s.setSlice u k (fun sl =>
    match sl.vectorRec with
    | some r => if sl.vectors then sl.faultVector r else sl
    | none => sl)

/-- UIV.EN (R56). -/
def Slice.uiEnabled (sl : Slice) : Bool := sl.uiv.getLsbD 0

/-- Whether a slice's pending user interrupt is delivered at this boundary (R180, R331). -/
def Slice.uiDue (sl : Slice) (joined : Bool) : Bool :=
  sl.uiPend && sl.uiEnabled && sl.park == 0 && sl.mode == .user && !sl.ended && sl.thread.isNone && !joined
  && (match sl.block with
      | .none | .flags _ | .claim | .takeAgain | .roleDrain => true
      | .barrier _ _ | .barWord _ _ _ | .join _ | .passed _ | .ending => false)

/-- The state after a user interrupt is delivered to one slice, its sub-crew not yet parted. A fault of the target's
fetch changes no register, and a translation by the host is waited for as the sub-crew's own (R170, R181, R182, R369). -/
def State.deliverOne (s : State) (u k : Nat) : State :=
  match s.team? u with
  | none => s
  | some t =>
    match t.slice? k with
    | none => s
    | some sl =>
      let off := (sl.uiv &&& 0x03FFFFFC#32).toNat
      let taken := fun (s : State) =>
        (s.setTeam u (fun t => { t with
          claims := (t.claims.map (fun c => { c with members := c.members.filter (· != k) })).filter
            (fun c => !c.members.isEmpty) })).setSlice u k (fun sl => { sl with
          uisv := pcWord sl.hdr sl.ix sl.exec.toNat, uiv := sl.uiv &&& 0xFFFFFFFE#32, uiPend := false,
          block := .none })
      let cur := s.cur
      let s := { s with cur := (t.sub? k).map (fun (b : SubCrew) => { team := u, members := b.members, bad := b.bad }) }
      let r := match s.checkTarget t false t.record.codebase (t.record.codebase + off) with
      | (s, .wait) => s.setTeam u (fun t => t.setSub k (fun b => { b with wants := s.want }))
      | (s, .fault c) => s.fetchHold u k c (some (t.record.codebase + off)) (pcWord sl.hdr sl.ix sl.exec.toNat)
      | (s, .ok _) => (taken s).setSlice u k (fun sl => { sl with exec := 0b1111 }.jump off)
      | (s, .bad) => (taken s).trapAt u k 0x05 1 sl.hdr sl.ix sl.hdr sl.ix none
      { r with cur := cur }

/-- The state after the user interrupts that are due in some slices of one sub-crew at one boundary are delivered: the
slices part only where their next PCs then differ (R16, R181). -/
def State.deliver (s : State) (u : Nat) (ks : List Nat) : State :=
  let blocked := ks.filter (fun k => ((s.slice? u k).map (fun sl => sl.block != .none)).getD false)
  let s := ks.foldl (fun s k => s.deliverOne u k) s
  let s := s.setTeam u (fun t => { t with subs := t.subs.map (fun b =>
    if ks.any b.members.contains then { b with accepted := none } else b) })
  let s := s.regroup u
  blocked.foldl (fun s k => if ((s.slice? u k).map (fun sl => sl.block == .none)).getD false then s.wake u k else s) s

/-! ## The claim-deadlock fault (R311) -/

/-- Whether a slice waits, among the flags of a mask, on that of a `take` whose gather is open (R293). -/
def Team.onGather (t : Team) (sl : Slice) (m : BitVec 12) : Bool :=
  t.gather.any (fun a => a.slice == sl.idx && (match a.flag with
    | some f => m.getLsbD f
    | none => false))

/-- STATE of a claim-deadlock entry: what the slice is blocked in, 0 when in nothing that counts (R311, R347). The flag
waits of `role` and `end` count as any other (R293, R312). -/
def Team.deadState (t : Team) (sl : Slice) : Nat :=
  match sl.block with
  | .claim => 1
  | .barrier _ _ | .passed (some _) => 2
  | .join _ => 3
  | .flags m => if t.onGather sl m then 4 else 0
  | .roleDrain | .ending => if t.onGather sl (BitVec.allOnes 12) then 4 else 0
  | .takeAgain => if t.gather.any (fun a => a.slice == sl.idx) then 4 else 0
  | .none | .barWord _ _ _ | .passed none => 0

/-- Whether some burst of the team's catch commands waits for a catch slot (R250, R311). -/
def Team.burstsLeft (t : Team) : Bool := t.cmds.any (fun c => !c.arrived.isEmpty)

/-- Whether the claim-deadlock condition holds of a team (R311). -/
def Team.deadlocked (t : Team) : Bool :=
  !t.live.isEmpty && t.live.all (fun sl => t.deadState sl != 0)
  && t.slices.all (fun sl => sl.thread.isNone) && !t.burstsLeft
  && t.live.all (fun sl => !sl.uiDue false)

/-- The state after the claim-deadlock fault is raised on a team where its condition holds (R311). -/
def State.deadlock (s : State) (u : Nat) : State :=
  match s.team? u with
  | none => s
  | some t =>
    if t.halt.isNone && t.deadlocked then
      let s := t.live.foldl (fun s sl =>
        s.logSlice u sl.idx 0x20 0 (t.deadState sl) none (pcWord sl.hdr sl.ix sl.exec.toNat) none) s
      s.setTeam u (fun t => t.hold 0x20 (t.live.map (fun sl => sl.idx)))
    else s

/-- Whether every slice of a sub-crew is done with a collective word. -/
def Team.allPassed (t : Team) (ms : List Nat) : Bool :=
  ms.all (fun m => match t.slice? m with
    | some sl => (sl.block matches .passed _)
    | none => true)

/-- The state after the slices of the sub-crew of slice `k`, when all are done with their collective word, go on to the next
word together (R15, R20, R292). -/
def State.finishWith (s : State) (u k : Nat) : State :=
  match (s.team? u).bind (fun t => (t.subs.find? (fun b => b.members.contains k)).map (fun b => (t, b))) with
  | some (t, b) =>
    if t.allPassed b.members then
      (s.setTeam u (fun t => t.onMembers b.members (fun sl => { sl.advance with block := .none }))).askEntry u (b.members.headD 0)
    else s
  | none => s

/-- The state after a team's sub-crews part and its waiting is looked at (R16, R311). -/
def State.settle (s : State) (u : Nat) : State := (s.regroup u).deadlock u

/-- The state after a team's sub-crews part, those that are all done with their collective word go on, and its waiting is
looked at (R16, R292, R311). -/
def State.settleWaits (s : State) (u : Nat) : State :=
  let s := s.regroup u
  (((s.team? u).map (fun t => t.slices)).getD []).foldl (fun s sl => s.finishWith u sl.idx) s |>.deadlock u

/-! ## The issue of a word -/

/-- The state with a sub-crew marked stalled, with the host translation it waits for, if any; it keeps its entry (R20, R369). -/
def State.stall (s : State) (u k : Nat) : State :=
  s.setTeam u (fun t => t.setSub k (fun b => { b with stalled := true, wants := s.want }))

/-- The state with the issuing sub-crew stalled on a word whose operation has been accepted (R20, R390). -/
def State.acceptStall (s : State) (p : At) (x : Accepted) : State :=
  s.setTeam p.team (fun t => t.setSub (p.members.headD 0) (fun b => { b with stalled := true, wants := s.want, accepted := some x }))

/-- The state after a flag wait of the issuing sub-crew holds: its core fetches new code (R151). -/
def State.codeSeen (s : State) (p : At) : State :=
  match s.team? p.team with
  | some t => s.newCode t.core
  | none => s

/-- The slices of a sub-crew for which the boundary is a convergence point (R338). -/
def Team.convMembers (t : Team) (ms : List Nat) (conv : Bool) : List Nat :=
  ms.filter (fun m => match t.slice? m with
    | some sl => conv || sl.conv
    | none => false)

/-- The convergence point before a word: the state when the word may not issue yet, because accesses are unresolved or
a slice vectors (R338). -/
def State.converge (s : State) (p : At) (conv : Bool) : Option State :=
  match s.team? p.team with
  | none => none
  | some t =>
    let ms := t.convMembers p.members conv
    if ms.any (fun m => !s.allResolved p.team m) then some (s.stall p.team (p.members.headD 0))
    else
      let vs := ms.filter (fun m => ((t.slice? m).map Slice.vectors).getD false)
      if vs.isEmpty then none
      else some ((vs.foldl (fun s m => s.takeFaultVector p.team m) s).regroup p.team)

/-- Whether a word's vector operands lie inside the slice's allocation (R54). -/
def Slice.inWindow (sl : Slice) (ops : List (Nat × Nat)) : Bool :=
  ops.all (fun o => decide (sl.wb + o.1 + o.2 ≤ 8 * sl.alloc))

/-- Whether a word would read a poisoned scalar of the slice, or a poisoned word of its register file in a lane of the effective mask
(R339, R445). -/
def Slice.consumes (sl : Slice) (i : Instr) : Bool :=
  i.sreads.any (fun n => sl.smarred.contains (sl.skey n))
  || sl.lanes.any (fun l => i.vreads.any (fun o => (List.range o.2).any (fun j => sl.marks.marred.contains (4 * (sl.wb + o.1 + j) + l))))

/-- The decode-class trap a word raises in a slice, in the order of R76. -/
def Slice.decodeTrap (sl : Slice) (i : Instr) : Option Nat :=
  if !i.wf then some 0x01
  else if i.sys && sl.mode == .user then some 0x02
  else if !sl.inWindow i.vops then some 0x03
  else none

/-- The state after the slices of a sub-crew that may not run a word stop at it: the supervisor's forbidden words
(R331), decode-class traps (R76), what a handler thread may not run (R252, R253), and a word that would consume poison from
the register file, which holds the team (R339, R445; log 17). -/
def State.refuse (s : State) (p : At) (i : Instr) : Option State :=
  match s.team? p.team with
  | none => none
  | some t =>
    let bad := p.members.filter (fun m => match t.slice? m with
      | some sl =>
        (match sl.thread with
         | some th => decide (256 ≤ th.words) || !i.threadMay
         | none => sl.mode == .supervisor && i.supNo) || (sl.decodeTrap i).isSome || sl.consumes i
      | none => true)
    if bad.isEmpty then none
    else some ((bad.foldl (fun s m =>
      match t.slice? m with
      | some sl =>
        match sl.thread with
        | some th => s.failThread p.team m (if 256 ≤ th.words then 0x09 else if !i.threadMay || (sl.decodeTrap i).isSome then 0x08 else 0x0A)
        | none =>
          if sl.mode == .supervisor && i.supNo then
            s.doubleFault p.team m 0x02 none (pcWord p.hdr p.ix sl.exec.toNat)
          else
            match sl.decodeTrap i with
            | some c => s.trapWord p m c 0
            | none => s.causeHold p.team m 0x18 0 none (pcWord p.hdr p.ix sl.exec.toNat)
      | none => s) s).regroup p.team)

/-- Whether a long-latency word attaches to its flag in a slice: commands and `take` always, vector words only with
a nonzero effective mask (R65, R236). -/
def Slice.attaches (sl : Slice) (i : Instr) : Bool :=
  i.long && (match i.energy with
    | some c => decide (10 ≤ c) && decide (c ≤ 13)
    | none => false) || (i.long && sl.eff != 0)

/-- Whether a word stalls because its flag reads 63 in a slice that would attach (R65). -/
def Team.flagFull (t : Team) (p : At) (i : Instr) : Bool :=
  match p.flag with
  | none => false
  | some f => p.members.any (fun m => match t.slice? m with
    | some sl => sl.attaches i && sl.flag f == 63
    | none => false)

/-- A slice after a word attaches to its flag (R65). -/
def Slice.attach (sl : Slice) (f : Option Nat) : Slice :=
  match f with
  | some f => sl.setFlag f (sl.flag f + 1)
  | none => sl

/-- The team after a charge to its energy counter (R416). -/
def Team.addEnergy (t : Team) (c : Nat) : Team :=
  let sum := t.energy.toNat + c
  if 2 ^ 48 - 1 < sum then { t with energy := BitVec.allOnes 48, esat := true }
  else { t with energy := BitVec.ofNat 48 sum }

/-- The weight of an energy class in a partition (R414, R423). -/
def State.weight (s : State) (p c : Nat) : Nat := (((s.part p).ewgt >>> (16 * c)).setWidth 16).toNat

/-- The state after a sub-crew goes to the back of its class; those of its core that stalled may try again (R20, R47). -/
def State.lastInClass (s : State) (u : Nat) (ms : List Nat) : State :=
  let core := ((s.team? u).map (fun t => t.core)).getD 0
  ({ s.setTeam u (fun t => t.setSub (ms.headD 0) (fun b => { b with seq := s.fresh, wants := none, bad := [], accepted := none })) with
    fresh := s.fresh + 1 }).setCore core (fun c => { c with issued := true })

/-- The state after a word has issued: the charge (R414), the tick of the clock (R137), the thread's count (R252), and
the place at the back of the class (R47). -/
def State.chargeWord (s : State) (p : At) (i : Instr) : State :=
  match s.team? p.team with
  | none => s
  | some t =>
    let charge := match i.energy with
      | some c => p.members.length * s.weight t.part c
      | none => 0
    let s := s.setTeam p.team (fun t => (t.addEnergy charge).onMembers p.members (fun sl =>
      { sl with conv := false, cls := sl.roleCls, thread := sl.thread.map (fun th => { th with words := th.words + 1 }) }))
    let s := s.lastInClass p.team p.members
    match s.ceiling t.core with
    | some c => s.setCore t.core (fun x => { x with clock := if x.clock < c then x.clock + 1 else x.clock })
    | none => s.setCore t.core (fun x => { x with clock := x.clock + 1 })

/-- Where the issuing sub-crew stands. -/
def State.at? (s : State) : Option At :=
  match s.cur with
  | none => none
  | some c =>
    match s.team? c.team with
    | none => none
    | some t =>
      match t.slice? (c.members.headD 0) with
      | none => none
      | some sl => some { team := c.team, members := c.members, hdr := sl.hdr, ix := sl.ix, flag := sl.assigned sl.ix,
                          energy := t.energy, esat := t.esat }

/-- The issue of a word (R76, R334): convergence, the checks, the stalls, then `pre`, which answers a state when the
word stalls or blocks without taking effect, then the charge and the effect. -/
def issueWith (i : Instr) (pre : At → State → Option State) (body : At → State → State) (s : State) :
    Host.Outcome State Fault Refusal :=
  match s.at? with
  | none => .next s
  | some p =>
    match s.converge p i.conv with
    | some s' => .next s'
    | none =>
      match s.refuse p i with
      | some s' => .next s'
      | none =>
        match s.team? p.team with
        | none => .next s
        | some t =>
          if t.flagFull p i then .next (s.stall p.team (p.members.headD 0))
          else
            match pre p s with
            | some s' => .next (s'.settle p.team)
            | none => .next ((body p (s.chargeWord p i)).settle p.team)

/-- The issue of a word that never stalls of its own. -/
def issue (i : Instr) (body : At → State → State) (s : State) : Host.Outcome State Fault Refusal :=
  issueWith i (fun _ _ => none) body s

/-- The slices of a sub-crew stall at an ordering point while a relaxed access before it is still to be performed (R139, R144,
R233). -/
def lateWaits (fence : Bool) (p : At) (s : State) : Option State :=
  if p.members.any (fun k => s.lateLeft p.team k fence) then some (s.stall p.team (p.members.headD 0)) else none

/-- The issue of an ordering point: the relaxed accesses before it are performed, and it waits for those that may not be yet
(R139, R141, R154). -/
def issuePoint (i : Instr) (fence : Bool) (pre : At → State → Option State) (body : At → State → State) (s : State) :
    Host.Outcome State Fault Refusal :=
  issueWith i (fun p s => (lateWaits fence p s).or (pre p s)) body (s.forceCur fence)

/-- The effect of a word slice by slice, in ascending order (R292). -/
def eachMember (f : At → Nat → State → State) (p : At) (s : State) : State :=
  p.members.foldl (fun s k => f p k s) s

/-- The conclusion that a state comes next. -/
def done (s : State) : Host.Outcome State Fault Refusal := .next s

end Sys2Proof.Machine
end

