-- ==== Sys2Proof/Machine/Join.lean ====
section
/-! DEFINITION. Join levels: arrival at a join and the completion of pending entries (R21 to R26). -/

namespace Sys2Proof.Machine

/-! ## Completion (R25) -/

/-- A slice that leaves a completed join: its wait level becomes none, and past `join` its PC goes on (R25). -/
def Slice.leaveJoin (sl : Slice) (xlane : Bool) : Slice :=
  let r := { sl with block := .none, waitLevel := none }
  if xlane then r else r.advance

/-- The state after a pending entry completes: its arrived slices form one sub-crew, which keeps the fetch entry of the
arriving sub-crew `cur` when that one completes it (R25). -/
def State.finishJoin (s : State) (u : Nat) (cur : List Nat) (e : JoinEnt) : State :=
  match s.team? u with
  | none => s
  | some t =>
    let came := fun m => e.arrived.contains m
    let keep := t.subs.any (fun b => b.entry && b.members.any (fun m => cur.contains m && came m))
    let rest := (t.subs.map (fun b =>
      let left := b.members.filter (fun m => !came m)
      { b with members := left, entry := b.entry && !(keep && b.members.any came) })).filter
        (fun b => !b.members.isEmpty)
    let new : SubCrew := { members := sortNat e.arrived, entry := keep, stalled := false, joined := e.xlane, seq := s.fresh, wants := none, bad := [],
                           accepted := none }
    let s := s.setTeam u (fun t => { t with
      joins := t.joins.filter (fun x => decide (x ≠ e)),
      subs := rest ++ [new],
      slices := t.slices.map (fun sl => if came sl.idx then sl.leaveJoin e.xlane else sl) })
    let s := { s with fresh := s.fresh + 1 }
    if keep then s else s.askEntry u (new.members.headD 0)

/-- `check_all` for the crew that starts at `crew` (R25). -/
def State.checkJoins (s : State) (u crew : Nat) (cur : List Nat) : State :=
  match s.team? u with
  | none => s
  | some t =>
    let due := t.joins.filter (fun e => e.crew == crew && e.expected.all (fun m => e.arrived.contains m))
    (sortBy (fun e => 127 - e.level) due).foldl (fun s e => s.finishJoin u cur e) s

/-- The state after a slice is discarded from the expected sets of its crew's entries above a level (R22, R23,
R312). -/
def State.discardJoins (s : State) (u k above : Nat) (cur : List Nat) : State :=
  match s.team? u with
  | none => s
  | some t =>
    let crew := t.crewOf k
    (s.setTeam u (fun t => { t with
      joins := t.joins.map (fun e =>
        if e.crew = crew ∧ above ≤ e.level then { e with expected := e.expected.filter (· != k) } else e) })).checkJoins
      u crew cur

/-! ## Arrival (R22) -/

/-- The slices a fresh entry of a level expects: the live slices of the crew that do not wait at a shallower level
(R22). -/
def Team.expects (t : Team) (crew level : Nat) : List Nat :=
  (t.crewSlices crew).filter (fun m => match t.slice? m with
    | some sl => !sl.ended && !(match sl.waitLevel with
      | some w => decide (w < level)
      | none => false)
    | none => false)

/-- The state after slice `k` arrives at a join level at the PC of `p`; none on a mismatch (R22). -/
def State.arriveJoin (s : State) (p : At) (k level : Nat) (xlane : Bool) : Option State :=
  match s.team? p.team with
  | none => some s
  | some t =>
    let crew := t.crewOf k
    let sup := ((t.slice? k).map (fun sl => sl.mode == .supervisor)).getD false
    let held := t.joins.find? (fun e => e.crew == crew && e.level == level)
    let clash := match held with
      | some e => e.hdr != p.hdr || e.ix != p.ix || e.sup != sup
      | none => false
    if clash then none
    else
      let e := held.getD { crew := crew, level := level, xlane := xlane, sup := sup, hdr := p.hdr, ix := p.ix,
                           expected := t.expects crew level, arrived := [] }
      let e' := { e with arrived := insertNat k e.arrived }
      let s := s.setTeam p.team (fun t => { t with joins := t.joins.filter (fun x => decide (x ≠ e)) ++ [e'] })
      let s := s.setSlice p.team k (fun sl => { sl with waitLevel := some level, block := .join level })
      some (s.discardJoins p.team k (level + 1) p.members)

/-- The state after the slices of the issuing sub-crew arrive at a join one after another (R22); those that then wait
give up their entry (R19). -/
def State.arriveAll (s : State) (p : At) (level : Nat) (xlane : Bool) : State :=
  let s := p.members.foldl (fun s k => (s.arriveJoin p k level xlane).getD (s.trapWord p k 0x06 0)) s
  p.members.foldl (fun s k =>
    match s.slice? p.team k with
    | some sl => if sl.block = .none then s else s.blockOn p.team k sl.block
    | none => s) s

end Sys2Proof.Machine
end

