-- ==== Sys2Proof/Machine/Work.lean ====
section
/-! DEFINITION. The life of teams and launches: core resources, completion entries, counters, the cox and its queue,
claims and barriers as other events touch them, the end of slices and teams, and cancellation (R12, R29 to R46, R303,
R310, R447). -/

namespace Sys2Proof.Machine

/-! ## Teams, resident or saved -/

/-- Whether a record holds a team that may still be restored (R394). -/
def Ctx.kept (c : Ctx) : Bool := !c.snap && (c.st == .complete || c.st == .held)

/-- A team, resident, draining or saved. -/
def State.anyTeam? (s : State) (u : Nat) : Option Team :=
  match s.team? u with
  | some t => some t
  | none => (s.saved.find? (fun c => c.kept && c.team.uid == u)).map (fun c => c.team)

/-- The state with a team changed, resident, draining or saved. -/
def State.onTeam (s : State) (u : Nat) (f : Team → Team) : State :=
  { s.setTeam u f with saved := s.saved.map (fun c => if c.kept ∧ c.team.uid = u then { c with team := f c.team } else c) }

/-- The saved teams of a launch. -/
def State.savedOf (s : State) (l : Nat) : List Team :=
  (s.saved.filter (fun c => c.kept && c.team.launch == l)).map (fun c => c.team)

/-- The resident and draining teams of a launch. -/
def State.teamsOf (s : State) (l : Nat) : List Team := s.teams.filter (fun t => t.launch == l)

/-- The teams on a core, draining ones among them. -/
def State.teamsOn (s : State) (core : Nat) : List Team := s.teams.filter (fun t => t.core == core)

/-! ## Core resources (R27, R86, R307, R385) -/

/-- The sum of a list. -/
def total (l : List Nat) : Nat := l.foldl (· + ·) 0

/-- The register blocks a team holds: its slices', its loan pool's and two for each catch slot (R86, R307). -/
def Team.blocks (t : Team) : Nat :=
  total ((t.slices.filter (fun sl => sl.thread.isNone)).map (fun sl => sl.alloc)) + t.pool + 2 * t.record.catchSlots

/-- The free blocks of a core's pool (R307). -/
def State.freeBlocks (s : State) (core : Nat) : Nat := 2048 - total ((s.teamsOn core).map Team.blocks)

/-- The lowest place in a core's scratchpad where `n` bytes are free, as an offset (R27). -/
def State.findScratch (s : State) (core n : Nat) : Option Nat :=
  let held := (s.teamsOn core).map (fun t => (t.scratch - spadOf core, 128 * t.record.scratch))
  let starts := sortNat (0 :: held.map (fun h => h.1 + h.2))
  if n = 0 then some 0
  else starts.find? (fun a => decide (a + n ≤ 2 ^ 19) && held.all (fun h => h.2 == 0 || decide (a + n ≤ h.1) || decide (h.1 + h.2 ≤ a)))

/-- Whether a core has the resources of a launch record free; `blocks` are the register blocks asked for (R27, R385). -/
def State.fits (s : State) (core blocks : Nat) (r : LRec) : Bool :=
  let ts := s.teamsOn core
  decide (total (ts.map (fun t => t.record.slices + t.record.catchSlots)) + r.slices + r.catchSlots ≤ 64)
  && decide (blocks ≤ s.freeBlocks core)
  && decide (total (ts.map (fun t => t.record.bars)) + r.bars ≤ 128)
  && decide (total (ts.map (fun t => t.record.copyq)) + r.copyq ≤ 64)
  && (s.findScratch core (128 * r.scratch)).isSome

/-! ## Completion entries (R382, R422) -/

/-- Queue `q` of a partition. -/
def Part.queue (p : Part) (q : Nat) : Queue := (p.queues[q]?).getD Queue.reset

/-- The packets of a ring (R423). -/
def Queue.size (q : Queue) : Nat := 2 ^ (q.log2n.toNat + 4)

/-- The state after a completion entry is written and announced (R382, R422). -/
def State.complete (s : State) (part queue index status info : Nat) : State :=
  let q := (s.part part).queue queue
  let pos := index % q.size
  (s.devPublish (q.cbase.toNat + 16 * pos) (bytesOfNat 8 pos ++ bytesOfNat 4 status ++ bytesOfNat 4 info)).msix (part + 1)
    q.vec.toNat

/-! ## Counters (R44) -/

/-- A counter of levels 1 to 4. -/
def State.counter (s : State) (part level job graph phase : Nat) : Dword :=
  ((s.counters.find? (fun c => c.part == part && c.level == level && c.job == job && c.graph == graph
    && c.phase == phase)).map (fun c => c.value)).getD 0

/-- A count one higher, saturating (R44). -/
def countUp (v : Dword) : Dword := if v = BitVec.allOnes 64 then v else v + 1

/-- The state after a counter is incremented. -/
def State.count (s : State) (part level job graph phase : Nat) : State :=
  let c : Counter := { part := part, level := level, job := job, graph := graph, phase := phase,
                       value := countUp (s.counter part level job graph phase) }
  { s with counters := s.counters.filter (fun x => !(x.part == part && x.level == level && x.job == job
      && x.graph == graph && x.phase == phase)) ++ [c] }

/-- The key of a level's counter for a launch: graph and phase where the level names them (R301). -/
def Launch.counterKey (l : Launch) (level : Nat) : Nat × Nat × Nat :=
  match level with
  | 1 => (l.record.job, l.record.graph, 0)
  | 2 => (l.record.job, l.record.graph, l.record.phase)
  | 3 => (l.record.job, 0, 0)
  | _ => (0, 0, 0)

/-- The state after a level's counter is incremented for a launch. -/
def State.countFor (s : State) (l : Launch) (level : Nat) : State :=
  let k := l.counterKey level
  s.count l.part level k.1 k.2.1 k.2.2

/-- The state after a task of a launch is counted (R37, R44). -/
def State.taskDone (s : State) (l : Nat) : State := s.setLaunch l (fun x => { x with tasks := countUp x.tasks })

/-- The state after a pass is counted, if it is closed and all its launches are counted (R44). -/
def State.checkPass (s : State) (l : Launch) : State :=
  match s.passes.find? (fun p => p.uid == l.pass) with
  | none => s
  | some p =>
    if p.closed && !p.counted && p.launches == p.ended then
      let s := { s with passes := s.passes.map (fun (x : Pass) => if x.uid = p.uid then { x with counted := true } else x),
                        cancels := s.cancels.filter (fun c => !(c.part == p.part && c.asid == l.asid && c.job == p.job
                          && ((c.level == 2 && c.id == p.graph) || (c.level == 3 && c.id == p.phase)
                              || (c.level == 4 && p.lastj)))) }
      let s := (s.countFor l 2).countFor l 3
      if p.lastj then s.countFor l 4 else s
    else s

/-- STATUS of a launch that has been counted (R382). -/
def Launch.status (l : Launch) : Nat := if l.lost then 3 else if l.st = .cancelled then 2 else 0

/-- The state after the packets that a counted launch completes are completed (R380). -/
def State.completeLaunch (s : State) (l : Nat) : State :=
  s.packets.foldl (fun s p =>
    match p.await with
    | .launch u =>
      if u = l then
        { (s.complete p.part p.queue p.index (((s.launch? l).map Launch.status).getD 0) 0) with
          packets := (s.packets.filter (fun x => decide (x ≠ p))) }
      else s
    | .launches us =>
      let ls := us.filterMap (fun u => s.launch? u)
      if us.contains l && ls.all (fun x => x.counted) then
        { (s.complete p.part p.queue p.index (if ls.any (fun x => x.st == .cancelled) then 2 else 0) 0) with
          packets := (s.packets.filter (fun x => decide (x ≠ p))) }
      else s
    | .saves _ _ | .restores _ => s) s

/-- Whether work that a lost team left behind is still to be handed out: the launch is not complete before it is (R387;
log 36). -/
def Launch.undone (x : Launch) : Bool :=
  x.stranded && (!x.orphans.isEmpty || x.conts.any (fun c => c.st == .ready || c.st == .pending))

/-- The state after a launch with no team left, resident, saved or lost and not yet reissued, is counted (R44, R380). -/
def State.checkLaunch (s : State) (l : Nat) : State :=
  match s.launch? l with
  | none => s
  | some x =>
    if !x.counted && (x.st == .cancelled || (x.st == .running && x.toStart.isEmpty && !x.undone))
       && (s.teamsOf l).isEmpty && (s.savedOf l).isEmpty && s.lostTeams.all (fun t => t.launch != l) then
      let s := s.setLaunch l (fun x => { x with counted := true, st := if x.st = .cancelled then .cancelled else .done })
      let s := s.countFor x 1
      let s := { s with passes := s.passes.map (fun (p : Pass) => if p.uid = x.pass then { p with ended := p.ended + 1 } else p) }
      (s.checkPass x).completeLaunch l
    else s

/-! ## The cox (R31 to R35, R294, R447) -/

/-- The size of a range in grains (R31). -/
def grains (lo hi g : Nat) : Nat := ceilDiv (hi - lo) g

/-- A range that may be stolen from: its team, number and cluster, and its bounds; team 0's range before team 0 starts
has no team (R31, R32). -/
structure Victim where
  team : Option Nat
  no : Nat
  cluster : Nat
  lo : Nat
  hi : Nat
  deriving DecidableEq, Repr

/-- The ranges of a launch that are owned. The range of team 0 of an ANY launch, before a core is chosen for it, counts
under cluster 8, which is no thief's and comes last among equals (DESIGN CHOICE, log 65): R32 names no cluster for it. -/
def State.victims (s : State) (l : Launch) : List Victim :=
  (s.teamsOf l.uid).map (fun t => { team := some t.uid, no := t.no, cluster := clusterOf t.core, lo := t.lo, hi := t.hi })
  ++ (match l.seed with
      | some r => [{ team := none, no := 0, cluster := if l.any then 8 else clusterOf l.first, lo := r.1, hi := r.2 }]
      | none => [])

/-- The victim of a steal: the largest range on the thief's cluster, ties to the lowest team; else the largest of all,
ties to the lowest cluster and team; a range of one grain is never stolen (R32). -/
def State.victim? (s : State) (l : Launch) (t : Team) : Option Victim :=
  let g := l.record.grain
  let vs := (s.victims l).filter (fun v => v.team != some t.uid && decide (2 ≤ grains v.lo v.hi g))
  let here := vs.filter (fun v => v.cluster == clusterOf t.core)
  let best := fun (k : Victim → Nat) (vs : List Victim) =>
    let top := (vs.map (fun v => grains v.lo v.hi g)).foldl max 0
    minBy k (vs.filter (fun v => grains v.lo v.hi g == top))
  match best (fun v => v.no) here with
  | some v => some v
  | none => best (fun v => v.cluster * 2 ^ 32 + v.no) vs

/-- The state after a team's own range is set (R31). -/
def State.setRange (s : State) (u lo hi : Nat) : State := s.onTeam u (fun t => { t with lo := lo, hi := hi })

/-- The state after a steal takes the upper half of a victim's range; the thief then owns it (R32). -/
def State.steal (s : State) (l : Launch) (u : Nat) (v : Victim) : State :=
  let mid := v.lo + l.record.grain * ceilDiv (grains v.lo v.hi l.record.grain) 2
  let s := match v.team with
    | some w => s.onTeam w (fun t => { t with hi := mid })
    | none => s.setLaunch l.uid (fun x => { x with seed := some (v.lo, mid) })
  s.setRange u mid v.hi

/-- The record that became ready earliest (R32). -/
def Launch.readyCont (l : Launch) : Option Cont := minBy (fun c => c.readyseq) (l.conts.filter (fun c => c.st == .ready))

/-- The state with a launch's record changed. -/
def State.setCont (s : State) (l h : Nat) (f : Cont → Cont) : State :=
  s.setLaunch l (fun x => { x with conts := x.conts.map (fun c => if c.handle = h then f c else c) })

/-- A chunk from a team's own range, if it is not empty (R32, step 2). -/
def State.ownTake (s : State) (l u : Nat) : Option (State × Work) :=
  match s.anyTeam? u, s.launch? l with
  | some t, some x =>
    if t.lo < t.hi then
      let e := min (t.lo + x.record.grain) t.hi
      some (s.setRange u e t.hi, .range t.lo e)
    else none
  | _, _ => none

/-- Whether a steal crosses dies while no master is named to carry it (R386). -/
def State.stealWaits (s : State) (t : Team) (v : Victim) : Bool :=
  s.master.isNone && decide (v.cluster < 8) && decide (v.cluster / 2 ≠ dieOf t.core)

/-- One unit for a team's request, from the first source that can supply work; none when it must wait (R32, R35, R38,
R45, R386). Of several reasons for *none*, a team is answered the first it has been given, else released, cancelled,
exhausted, in that order (DESIGN CHOICE, log 65): the spec gives no precedence. -/
def State.pick (s : State) (l u : Nat) : Option (State × Work) :=
  match s.anyTeam? u, s.launch? l with
  | some t, some x =>
    match t.answer with
    | some w => some (s, w)
    | none =>
      if x.releasing.contains u then some (s, .none 1)
      else if x.st = .cancelled then some (s, .none 2)
      else if x.exhausted then some (s, .none 0)
      else
        match x.readyCont with
        | some c => some (s.setCont l c.handle (fun c => { c with st := .taken, takenBy := u }), .cont c.handle)
        | none =>
          if t.lo < t.hi then s.ownTake l u
          else
            match x.orphans with
            | r :: rest => ((s.setLaunch l (fun x => { x with orphans := rest })).setRange u r.1 r.2).ownTake l u
            | [] =>
              match s.victim? x t with
              | some v => if s.stealWaits t v then none else (s.steal x u v).ownTake l u
              | none => none
  | _, _ => none

/-- The octet of a reply (R294). -/
def Launch.replyWords (l : Launch) (w : Work) : List Word :=
  let w64 := fun (x : Nat) => [BitVec.ofNat 32 x, BitVec.ofNat 32 (x >>> 32)]
  match w with
  | .none r => [BitVec.ofNat 32 (r <<< 8), 0, 0, 0, 0, 0, 0, 0]
  | .range lo hi => [1, 0] ++ w64 lo ++ w64 hi ++ [0, 0]
  | .cont h =>
    match l.conts.find? (fun c => c.handle == h) with
    | some c => [2, 0] ++ w64 c.frame ++ w64 (l.record.codebase + c.codeoff) ++ [BitVec.ofNat 32 h, 0]
    | none => [0, 0, 0, 0, 0, 0, 0, 0]

/-- The slice after an octet of user scalars is written (R293, R331). -/
def Slice.writeOctet (sl : Slice) (first : Nat) (ws : List Word) : Slice :=
  (ws.zip (List.range 8)).foldl (fun (sl : Slice) (p : Word × Nat) =>
    if h : first + p.2 < 24 then sl.writeUser (.s ⟨first + p.2, h⟩) p.1 else sl) sl

/-- The state in which the next events of a core follow those up to a time, wherever they were: its clock moves there, as far as its
ceiling lets it, and its cluster reads no coherent copy older than them (R137, R141). -/
def State.orderAfter (s : State) (core t : Nat) : State :=
  let u := match s.ceiling core with
    | some c => min t c
    | none => t
  (s.setCore core (fun x => { x with clock := max x.clock u })).dropStale core

/-- The state after a team's request is answered, a record's task following what precedes it (R141, R295): every arrived slice's octet is written and its flag falls (R293). A
saved team's flags fall at once in its record, and what remains of its range is an orphan range (R40, R313). -/
def State.replyTake (s : State) (l u : Nat) (w : Work) : State :=
  match s.anyTeam? u, s.launch? l with
  | some t, some x =>
    let ws := x.replyWords w
    let s := s.setLaunch l (fun x => { x with opno := x.opno + 1, waiters := x.waiters.filter (· != u) })
    let s := s.onTeam u (fun t => { t with
      asked := [],
      answer := match w with
        | .none _ => some w
        | .range _ _ | .cont _ => none,
      work := match w with
        | .none _ => none
        | .range _ _ | .cont _ => some w,
      slices := t.slices.map (fun sl =>
        match t.asked.find? (fun a => a.slice == sl.idx) with
        | some a => sl.writeOctet a.octet ws
        | none => sl) })
    let time := match w with
      | .cont h => ((x.conts.find? (fun c => c.handle == h)).map (fun c => c.time)).getD 0
      | .none _ | .range _ _ => 0
    if (s.team? u).isSome then
      let s := if w matches .cont _ then s.orderAfter t.core time else s
      t.asked.foldl (fun s a =>
        let s := s.dropFlag u a.slice a.flag
        match s.slice? u a.slice with
        | some sl => if sl.block = .takeAgain then s.wake u a.slice else s
        | none => s) s
    else
      let s := s.onTeam u (fun t' => { t' with haltAt := max t'.haltAt time, slices := t'.slices.map (fun sl =>
        match t.asked.find? (fun a => a.slice == sl.idx) with
        | some a => (match a.flag with
          | some f => sl.setFlag f (if sl.flag f = 0 then 0 else sl.flag f - 1)
          | none => sl)
        | none => sl) })
      let left := ((s.anyTeam? u).map (fun t => (t.lo, t.hi))).getD (0, 0)
      let s := s.setRange u 0 0
      if left.1 < left.2 then s.setLaunch l (fun x => { x with orphans := x.orphans ++ [left] }) else s
  | _, _ => s

/-- Whether a launch is exhausted (R35). -/
def State.exhausted (s : State) (x : Launch) : Bool :=
  let ts := s.teamsOf x.uid ++ s.savedOf x.uid
  x.toStart.isEmpty && x.seed.isNone && x.orphans.isEmpty && s.lostTeams.all (fun t => t.launch != x.uid)
  && ts.all (fun t => decide (t.hi ≤ t.lo) && x.waiters.contains t.uid)
  && x.conts.all (fun c => c.st != .ready && c.st != .pending)

/-- Whether a team is past its quiet point while another core's is still to come: the cox serves it after the cut
(R401, R402; log 13). -/
def State.pastQuiet (s : State) (t : Team) : Bool :=
  t.record.track && s.jobs.any (fun j => j.part == t.part && j.id == t.record.job &&
    (match j.stream with
     | some st => !st.toArm.isEmpty && !st.toArm.contains t.core
     | none => false))

/-- Whether an answer hands out work. -/
def Work.isWork : Work → Bool
  | .none _ => false
  | .range _ _ | .cont _ => true

/-- The state after the home cox serves the waiting requests of a launch in order, and answers *none* when the launch is
exhausted, as it then stays; nothing is served while the home moves (R32 to R35). The launch of the state is the queue store
of R34: an operation and its result are one event, so that no result is seen before the store is written. A saved team is
handed no work while a team of the launch is resident, or it could hold work that no core is left to run (R399, R411, R413;
log 72). -/
def State.kick (s : State) (l : Nat) : State :=
  match s.launch? l with
  | none => s
  | some x =>
    if x.moving then s
    else
    let later := fun (u : Nat) => ((s.team? u).map s.pastQuiet).getD false
    let s := (x.waiters.filter (fun u => !later u)).foldl (fun s u =>
      match s.pick l u with
      | some (s', w) => if w.isWork && (s.team? u).isNone && !(s.teamsOf l).isEmpty then s else s'.replyTake l u w
      | none => s) s
    match s.launch? l with
    | none => s
    | some x =>
      if s.exhausted x && !x.waiters.any later then
        x.waiters.foldl (fun s u => s.replyTake l u (.none 0)) (s.setLaunch l (fun x => { x with exhausted := true }))
      else s

/-- The state after a range joins the orphan ranges of a launch, if it is not empty (R40, R447). -/
def State.orphan (s : State) (l lo hi : Nat) : State :=
  if lo < hi then s.setLaunch l (fun x => { x with orphans := x.orphans ++ [(lo, hi)] }) else s

/-- The state after the gather of a team is looked at: when every live slice has arrived the current task completes and
the request goes to the cox (R293, R295). -/
def State.checkGather (s : State) (u : Nat) : State :=
  match s.team? u with
  | none => s
  | some t =>
    if !t.gather.isEmpty && t.asked.isEmpty && t.live.all (fun sl => t.gather.any (fun a => a.slice == sl.idx)) then
      let s := if t.work.isSome then s.taskDone t.launch else s
      s.setTeam u (fun t => { t with asked := t.gather, gather := [], work := none })
    else s

/-! ## Unblocking -/

/-- The state after a collective word finishes in a slice. Once it has finished in every slice of the sub-crew, all go
on to the next word together (R15, R20, R292). -/
def State.passOn (s : State) (u k : Nat) (bar : Option (Nat × BitVec 16)) : State :=
  (s.setSlice u k (fun sl => { sl with block := .passed bar })).finishWith u k

/-- The state after the slices of a sub-crew have reached a collective word: those that wait give up their entry, and where
one trapped the rest are looked at by themselves (R16, R19, R20, R292). -/
def State.collect (s : State) (p : At) : State :=
  let s := p.members.foldl (fun s k =>
    match s.slice? p.team k with
    | some sl => if sl.block = .none then s else s.blockOn p.team k sl.block
    | none => s) s
  p.members.foldl (fun s k => s.finishWith p.team k) (s.regroup p.team)

/-! ## The FIFOs of a firmware update (R439) -/

/-- Whether what waits in a FIFO still waits: a word does while its sub-crew is stalled on it (R390). -/
def State.waits (s : State) (w : Waiting) : Bool :=
  match w with
  | .tail _ _ _ | .user _ _ => true
  | .word u k => ((s.team? u).map (fun t => t.subs.any (fun b => b.members.headD 0 == k && b.accepted == some .queued))).getD false

/-- Whether something new for the front end goes behind what waits: an update is under way, or its FIFO is not empty yet. -/
def State.queued (s : State) : Bool := s.mgmt.st == 4 || !s.fifo.isEmpty

/-- A `cancel` or `uintr` stalls in its FIFO while the front end is quiesced, and behind what arrived before it (R439). -/
def queueWaits (p : At) (s : State) : Option State :=
  let w : Waiting := .word p.team (p.members.headD 0)
  if !s.queued || (s.mgmt.st != 4 && s.fifo.head? == some w) then none
  else some ({ s with fifo := if s.fifo.contains w then s.fifo else s.fifo ++ [w] }.acceptStall p .queued)

/-- The state after a word that waited in a FIFO has left it. -/
def State.leaveQueue (s : State) (p : At) : State :=
  { s with fifo := s.fifo.filter (fun w => w != .word p.team (p.members.headD 0)) }

/-- Whether the operations of a team's launch wait while its home moves (R34). -/
def State.homeMoves (s : State) (u : Nat) : Bool :=
  (((s.team? u).bind (fun t => s.launch? t.launch)).map (fun x => x.moving)).getD false

/-- A word of the cox stalls while the launch's home moves (R34). -/
def homeWaits (p : At) (s : State) : Option State :=
  if s.homeMoves p.team then some (s.stall p.team (p.members.headD 0)) else none

/-! ## Claims (R309, R310) -/

/-- The slice after `n` fresh blocks are appended, reading zero (R55, R309). -/
def Slice.grow (sl : Slice) (n : Nat) : Slice :=
  { sl with
    vregs := ndrop sl.vregs (32 * sl.alloc) (32 * (sl.alloc + n)), alloc := sl.alloc + n,
    marks := { sl.marks with
      dirty := ((List.range n).map (sl.alloc + ·)).foldl (fun m b => insertNat b m) sl.marks.dirty,
      marred := sl.marks.marred.filter (fun k => decide (k < 32 * sl.alloc)) } }

/-- The state after the claims at the head of a team's queue are served while they can be (R310). -/
def State.serveClaims (s : State) (u : Nat) : Nat → State
  | 0 => s
  | k + 1 =>
    match s.team? u with
    | none => s
    | some t =>
      match t.claims with
      | [] => s
      | c :: rest =>
        let want := c.n * c.members.length
        if want ≤ t.pool + s.freeBlocks t.core then
          let s := s.setTeam u (fun t => { t with
            claims := rest, pool := t.pool - min t.pool want,
            slices := t.slices.map (fun sl => if c.members.contains sl.idx then sl.grow c.n else sl) })
          let s := c.members.foldl (fun s m => s.passOn u m none) s
          s.serveClaims u k
        else s

/-- Whether a team is to be held for a claim deadlock: none of its blocked instructions takes effect (R311). -/
def Team.stuck (t : Team) : Bool :=
  (match t.halt with
   | some (.hold c _) => c == 0x20
   | some .preempt | some (.migrate _) | some .quiet | none => false)
  || (t.owed.map (fun o => o.1 == 0x20)).getD false

/-- The team on a core whose head claim comes first of those that can be served (R310). -/
def State.nextClaim (s : State) (core : Nat) : Option Team :=
  minBy (fun t => (t.claims.map (fun c => c.seq)).headD 0) ((s.teamsOn core).filter (fun t =>
    t.st == .running && !t.stuck && (t.claims.head?.map (fun c =>
      decide (c.n * c.members.length ≤ t.pool + s.freeBlocks core))).getD false))

/-- The state after the head claims of a core's teams are served one by one, the earliest that can be served first (R310). -/
def State.serveHeads (s : State) (core : Nat) : Nat → State
  | 0 => s
  | k + 1 =>
    match s.nextClaim core with
    | some t => ((s.serveClaims t.uid 1).settle t.uid).serveHeads core k
    | none => s

/-- The state after the core pool of a core has gained blocks: its teams' claims are served in arbiter order (R310). -/
def State.serveCore (s : State) (core : Nat) : State :=
  let s := s.serveHeads core (total ((s.teamsOn core).map (fun t => t.claims.length)))
  ((s.teamsOn core).filter (fun t => t.st == .running && !t.claims.isEmpty)).foldl (fun s t => s.settle t.uid) s

/-! ## Barriers (R303, R304) -/

/-- Whether generation `g` has completed (R304). -/
def Barrier.passed (b : Barrier) (g : BitVec 16) : Bool :=
  decide (1 ≤ (b.comp - g).toNat) && decide ((b.comp - g).toNat ≤ 32768)

/-- Barrier `n` of a team. -/
def Team.bar (t : Team) (n : Nat) : Barrier :=
  (t.bars[n]?).getD { isOpen := false, counted := false, expected := 0, arrived := 0, comp := 0, came := [] }

/-- The state with barrier `n` of a team changed. -/
def State.setBar (s : State) (u n : Nat) (f : Barrier → Barrier) : State :=
  s.setTeam u (fun t => { t with bars := t.bars.modify n f })

/-- The state after an open generation that has all its arrivals completes: the slices waiting on it pass (R303). -/
def State.checkBar (s : State) (u n : Nat) : State :=
  match s.team? u with
  | none => s
  | some t =>
    let b := t.bar n
    if b.isOpen && decide (b.expected.toNat ≤ b.arrived.toNat) then
      let s := s.setBar u n (fun b => { b with isOpen := false, comp := b.comp + 1, came := [] })
      let b' := { b with comp := b.comp + 1 }
      let ready := t.slices.filter (fun sl => match sl.block with
        | .barrier m g => m == n && b'.passed g
        | .none | .flags _ | .barWord _ _ _ | .claim | .join _ | .takeAgain | .passed _ | .ending | .roleDrain => false)
      ready.foldl (fun s sl => s.passOn u sl.idx (match sl.block with
        | .barrier m g => some (m, g)
        | _ => none)) s
    else s

/-! ## Saved space and ownership -/

/-- The state after a team's room in the context pool is given back (R397). -/
def State.unreserve (s : State) (p key : Nat) : State :=
  s.setPart p (fun q => { q with resv := q.resv.filter (fun r => r.1 != key) })

/-- The state after the rooms of a team and of its catch bitmaps are given back (R397). -/
def State.unreserveAll (s : State) (t : Team) : State :=
  t.cmds.foldl (fun s c => s.unreserve t.part c.id) (s.unreserve t.part t.uid)

/-- The state after PRIV pages lose an owner on whose core no team of the ASID remains; dirty sectors become clean
(R125). -/
def State.releaseOwners (s : State) (core asid : Nat) : State :=
  if s.teams.any (fun t => t.core == core && t.asid == asid) then s
  else
    let gone := s.owners.filter (fun o => o.core == core && o.asid == asid)
    { s with owners := s.owners.filter (fun o => !(o.core == core && o.asid == asid)),
             rmap := s.rmap.map (fun r =>
               if gone.any (fun o => decide (o.page ≤ r.sector) && decide (r.sector < o.page + 2 ^ o.log)) then
                 { r with dirty := false } else r) }

/-- The state after a team leaves its core: its sub-crews wait no more, its engine is wiped, and its resources return. Its
scratchpad keeps its bytes until another team starts in it (R29, R88, R258, R259). -/
def State.leaveCore (s : State) (t : Team) : State :=
  let s := { s with teams := s.teams.filter (fun x => x.uid != t.uid) }
  let s := s.setCore t.core (fun c => { c with
    waiting := c.waiting.filter (fun w => w.1 != t.uid),
    engine := if c.engine.holder = some t.uid then Engine.wiped else c.engine })
  let s := { s with pend := s.pend.filter (fun p => p.team != t.uid) }
  (s.releaseOwners t.core t.asid).serveCore t.core

/-! ## Initial state (R87), room in the context pool (R397) -/

/-- A slice as R87 starts it, with `n` blocks that read zero; a catch handler thread starts from it too. -/
def Slice.blank (idx hdr n : Nat) : Slice where
  idx := idx
  hdr := hdr
  ix := 0
  opened := false
  hw := 0
  longs := 0
  conv := false
  code := []
  sregs := []
  smarred := []
  exec := 0b1111
  park := 0
  scc := false
  wb := 0
  alloc := n
  vregs := []
  marks := { dirty := List.range n, marred := [], due := [] }
  flags := []
  role := 0
  cls := 2
  roleCls := 2
  waitLevel := none
  fpc := 0
  fps := 0
  uiv := 0
  uisv := 0
  uiPend := false
  mode := .user
  bank := []
  bankScc := false
  sepc := 0
  scause := 0
  sfpc := 0x1F
  recs := []
  block := .none
  ended := false
  thread := none

/-- The lowest place in the context pool where `n` bytes are free, as a physical address (R397; log 11). -/
def Part.findRoom (q : Part) (n : Nat) : Option Nat :=
  match q.ctxpool with
  | none => none
  | some (base, bytes) =>
    let starts := sortNat (base :: q.resv.map (fun r => r.2.1 + r.2.2))
    starts.find? (fun a => decide (base ≤ a) && decide (a + n ≤ base + bytes)
      && q.resv.all (fun r => decide (a + n ≤ r.2.1) || decide (r.2.1 + r.2.2 ≤ a)))

/-- The partition after room is reserved under a key; none when there is none (R397). -/
def Part.reserve (q : Part) (key n : Nat) : Option Part :=
  if n = 0 then some q else (q.findRoom n).map (fun a => { q with resv := q.resv ++ [(key, a, n)] })

/-! ## The end of slices and teams (R12, R29, R447) -/

/-- The state after a team ends (R29, R37, R443, R447). -/
def State.endTeam (s : State) (u : Nat) : State :=
  match s.team? u with
  | none => s
  | some t =>
    let s := if t.work.isSome then s.taskDone t.launch else s
    let s := s.logEnergy t.part
      (bytesOfNat 4 (t.record.job <<< 16 + 1) ++ bytesOfNat 4 t.no
       ++ bytesOfNat 8 (t.energy.toNat + (if t.esat then 2 ^ 48 else 0)) ++ bytesOfNat 8 t.record.codebase)
    let s := (s.leaveCore t).unreserve t.part u
    let s := s.orphan t.launch t.lo t.hi
    (s.kick t.launch).checkLaunch t.launch

/-- The state after a slice's `end` takes effect (R12, R303). -/
def State.endSlice (s : State) (u k : Nat) : State :=
  let s := s.setTeam u (fun t => { t with
    slices := t.slices.map (fun sl => if sl.idx = k then { sl with ended := true, block := .none } else sl),
    subs := (t.subs.map (fun b => { b with members := b.members.filter (· != k) })).filter (fun b => !b.members.isEmpty) })
  let s := s.discardJoins u k 0 []
  match s.team? u with
  | none => s
  | some t =>
    let s := (List.range t.bars.length).foldl (fun s n =>
      let b := t.bar n
      if b.isOpen && !b.counted && !b.came.contains k then
        (s.setBar u n (fun b => { b with expected := b.expected - 1 })).checkBar u n
      else s) s
    let s := s.checkGather u
    match s.team? u with
    | none => s
    | some t => if t.live.isEmpty && t.slices.all (fun sl => sl.thread.isNone) then s.endTeam u else s.settle u

/-- Whether some store or atomic that holds no flag is still to be performed for a slice or thread (R140, R222, R253). -/
def State.posted (s : State) (u k : Nat) : Bool :=
  s.pend.any (fun p => p.team == u && p.slice == k && p.accs.any (fun x => x.1.flag.isNone
    && (match x.2 with
        | .written | .dropped => false
        | .walk | .ats | .ceil | .late _ | .peer _ | .got _ _ => true)))

/-- Whether a slice waiting in `end` may end (R12, R140). -/
def State.mayEnd (s : State) (u k : Nat) : Bool :=
  match s.slice? u k with
  | some sl => sl.flagsZero (BitVec.allOnes 12) && !s.posted u k
  | none => false

/-! ## Discarded and lost teams (R387, R447) -/

/-- The state after a record that no team has taken is removed and counted as one task (R44, R300). -/
def State.cancelCont (s : State) (l h : Nat) : State :=
  (s.setCont l h (fun c => { c with st := .cancelled })).taskDone l

/-- Whether a launch is cancelled. -/
def State.isCancelled (s : State) (l : Nat) : Bool := ((s.launch? l).map (fun x => x.st == .cancelled)).getD false

/-- Whether a record is cancelled. -/
def State.contCancelled (s : State) (l h : Nat) : Bool :=
  ((s.launch? l).map (fun x => x.conts.any (fun c => c.handle == h && c.st == .cancelled))).getD false

/-- The state after what a discarded or lost team held goes back to its launch (R387, R447). A record cancelled while its task ran
is not run again, and counts as cancelled then (R44, R45). -/
def State.reissue (s : State) (t : Team) : State :=
  let s := s.orphan t.launch t.lo t.hi
  let s := match t.work with
    | some (.range lo hi) => s.orphan t.launch lo hi
    | some (.cont h) =>
      if s.isCancelled t.launch || s.contCancelled t.launch h then s.cancelCont t.launch h else s.setCont t.launch h (fun c => { c with st := .ready })
    | some (.none _) | none => s
  s.setLaunch t.launch (fun x => { x with waiters := x.waiters.filter (· != t.uid) })

/-- The state after the RESUME packets that await a record no longer do, because it is restored or gone; one that awaits
nothing more completes (R380). -/
def State.countRestored (s : State) (id : Nat) : State :=
  s.packets.foldl (fun s p =>
    match p.await with
    | .restores rs =>
      if rs.contains id then
        let left := rs.filter (· != id)
        if left.isEmpty then
          { (s.complete p.part p.queue p.index 0 0) with packets := s.packets.filter (fun x => decide (x ≠ p)) }
        else { s with packets := s.packets.map (fun (x : Packet) => if x = p then { x with await := .restores left } else x) }
      else s
    | .launch _ | .launches _ | .saves _ _ => s) s

/-- The state after a saved team is discarded (R333, R447). -/
def State.discardSaved (s : State) (u : Nat) : State :=
  match s.saved.find? (fun c => c.kept && c.team.uid == u) with
  | none => s
  | some c =>
    let s := { s with saved := s.saved.filter (fun x => x.id != c.id) }
    ((s.unreserveAll c.team).reissue c.team).countRestored c.id

/-! ## Cancellation (R45, R300) -/

/-- The state after one launch is cancelled (R45). -/
def State.cancelLaunch (s : State) (l : Nat) : State :=
  match s.launch? l with
  | none => s
  | some x =>
    if x.counted || x.st == .cancelled then s
    else
      let s := s.setLaunch l (fun x => { x with st := .cancelled })
      let s := (x.conts.filter (fun c => c.st == .ready || c.st == .pending)).foldl (fun s c => s.cancelCont l c.handle) s
      let held := (s.saved.filter (fun c => c.kept && c.st == .held && c.team.launch == l)).map (fun c => c.team.uid)
      let s := held.foldl State.discardSaved s
      (s.kick l).checkLaunch l

/-- The state after the launches that wait for a cancelled launch within its graph are cancelled, as far as `fuel`
reaches (R45, R383). -/
def State.cascade (s : State) : Nat → State
  | 0 => s
  | k + 1 =>
    let due := s.launches.filter (fun x => x.st == .waiting && x.deps.any (fun d =>
      match s.launch? d with
      | some y => y.st == .cancelled && y.record.job == x.record.job && y.record.graph == x.record.graph
      | none => false))
    match due with
    | [] => s
    | x :: _ => (s.cancelLaunch x.uid).cascade k

/-- Whether a launch lies in a unit of levels 2 to 4 (R300, R448). -/
def Launch.inUnit (l : Launch) (job level id : Nat) : Bool :=
  l.record.job == job && (match level with
    | 2 => l.record.graph == id
    | 3 => l.record.phase == id
    | _ => true)

/-- Whether a launch's graph pass has been counted (R44). -/
def State.passCounted (s : State) (l : Launch) : Bool :=
  match s.passes.find? (fun p => p.uid == l.pass) with
  | some p => p.counted
  | none => l.counted

/-- The state after a unit of levels 2 to 4 of an address space is cancelled, and whether it existed, was not complete and
was not cancelled already (R45, R300, R448). -/
def State.cancelUnit (s : State) (part asid job level id : Nat) : State × Bool :=
  let ls := s.launches.filter (fun x => x.part == part && x.asid == asid && x.inUnit job level id)
  let mark : Cancel := { part := part, asid := asid, job := job, level := level, id := if level = 4 then 0 else id }
  if ls.any (fun x => !s.passCounted x) && !s.cancels.contains mark then
    let s := { s with cancels := s.cancels ++ [mark] }
    ((ls.foldl (fun s x => s.cancelLaunch x.uid) s).cascade s.launches.length, true)
  else (s, false)

/-- The state after one launch is cancelled by name, and whether it was neither complete nor cancelled (R300). -/
def State.cancelOne (s : State) (l : Nat) : State × Bool :=
  match s.launch? l with
  | none => (s, false)
  | some x =>
    if x.counted || x.st == .cancelled then (s, false)
    else ((s.cancelLaunch l).cascade s.launches.length, true)

/-- Whether some team, resident, saved or lost, still runs the task of a record (R37, R300). -/
def State.runsCont (s : State) (l h : Nat) : Bool :=
  (s.teamsOf l ++ s.savedOf l ++ s.lostTeams.filter (fun t => t.launch == l)).any (fun t => t.work == some (.cont h))

/-- The state after a record is cancelled by handle, and whether it existed, had not completed and was not cancelled: one that a team
has taken runs on to the team's next `take` (R45, R300). -/
def State.cancelRecord (s : State) (l h : Nat) : State × Bool :=
  match (s.launch? l).bind (fun x => x.conts.find? (fun c => c.handle == h)) with
  | none => (s, false)
  | some c =>
    let next := fun (s : State) => (s.setLaunch l (fun x => { x with opno := x.opno + 1 })).kick l
    if c.st = .ready ∨ c.st = .pending then (next (s.cancelCont l h), true)
    else if c.st = .taken ∧ s.runsCont l h = true then (next (s.setCont l h (fun c => { c with st := .cancelled })), true)
    else (s, false)

end Sys2Proof.Machine
end

