-- ==== Sys2Proof/Machine/Control.lean ====
section
/-! DEFINITION. Clause headers, branches and calls, and the CTL class but for `svc`; user-interrupt return; the traps of
undecodable words (R62 to R68, R166 to R183). -/

namespace Sys2Proof.Machine

/-! ## Control transfers (R167 to R170) -/

/-- The virtual address of the word at index `ix` of the clause at `hdr` (R167). -/
def State.wordAddr (s : State) (t : Team) (sl : Slice) (hdr ix : Nat) : Nat := s.codeBase t sl + hdr + 4 * (1 + ix)

/-- The target of a relative branch; one below 0 lies outside every code range (R167). -/
def relTarget (addr : Nat) (o : BitVec 24) : Nat := ((addr : Int) + 4 * o.toInt).emod (2 ^ 64) |>.toNat

/-- The state with the sub-crew stalled when the translation of some slice's target waits for the host (R170). -/
def targetWaits (tgt : At → State → Team → Slice → Option Nat) (p : At) (s : State) : Option State :=
  match s.team? p.team with
  | none => none
  | some t =>
    let r := p.members.foldl (fun (acc : State × Bool) k =>
      match t.slice? k with
      | some sl =>
        match tgt p acc.1 t sl with
        | some va =>
          let c := acc.1.checkTarget t (sl.mode == .supervisor) (acc.1.codeBase t sl) va
          (c.1, acc.2 || c.2 == .wait)
        | none => acc
      | none => acc) (s, false)
    if r.2 then some (r.1.stall p.team (p.members.headD 0)) else none

/-- The transfer of each slice to its own target, or on to the next clause where it takes none (R16, R167). -/
def transferAll (tgt : At → State → Team → Slice → Option Nat) (f : Team → At → Slice → Slice) (p : At) (s : State) : State :=
  eachMember (fun p k s =>
    match s.team? p.team with
    | none => s
    | some t =>
      match t.slice? k with
      | none => s
      | some sl =>
        match tgt p s t sl with
        | some va => s.transfer p k va (f t p)
        | none => s.setSlice p.team k Slice.advance) p s

/-- The issue of a word that transfers control. -/
def issueTransfer (i : Instr) (tgt : At → State → Team → Slice → Option Nat) (f : State → Team → At → Slice → Slice)
    (s : State) : Host.Outcome State Fault Refusal :=
  issueWith i (targetWaits tgt) (transferAll tgt (f s)) s

/-- A relative branch taken by the slices where a condition holds (R167). -/
def branchIf (c : Slice → Bool) (o : BitVec 24) (p : At) (s : State) (t : Team) (sl : Slice) : Option Nat :=
  if c sl then some (relTarget (s.wordAddr t sl p.hdr p.ix) o) else none

/-- R167: `br`. -/
def execBr (o : BitVec 24) (s : State) : Host.Outcome State Fault Refusal :=
  issueTransfer (.br o) (branchIf (fun _ => true) o) (fun _ _ _ sl => sl) s

/-- R167: `br.execz`. -/
def execBrExecz (o : BitVec 24) (s : State) : Host.Outcome State Fault Refusal :=
  issueTransfer (.brExecz o) (branchIf (fun sl => sl.eff == 0) o) (fun _ _ _ sl => sl) s

/-- R167: `br.execnz`. -/
def execBrExecnz (o : BitVec 24) (s : State) : Host.Outcome State Fault Refusal :=
  issueTransfer (.brExecnz o) (branchIf (fun sl => sl.eff != 0) o) (fun _ _ _ sl => sl) s

/-- R167: `br.scc1`. -/
def execBrScc1 (o : BitVec 24) (s : State) : Host.Outcome State Fault Refusal :=
  issueTransfer (.brScc1 o) (branchIf (fun sl => sl.scc) o) (fun _ _ _ sl => sl) s

/-- R167: `br.scc0`. -/
def execBrScc0 (o : BitVec 24) (s : State) : Host.Outcome State Fault Refusal :=
  issueTransfer (.brScc0 o) (branchIf (fun sl => !sl.scc) o) (fun _ _ _ sl => sl) s

/-- The slice after `s[22:23]` receives the address of the word after the calling clause (R168). -/
def Slice.link (sl : Slice) (base hdr len : Nat) : Slice :=
  let a := base + hdr + 4 * (len + 2)
  (sl.sset 22 (BitVec.ofNat 32 a)).sset 23 (BitVec.ofNat 32 (a >>> 32))

/-- R168: `call`. -/
def execCallW (o : BitVec 24) (s : State) : Host.Outcome State Fault Refusal :=
  issueTransfer (.callW o) (branchIf (fun _ => true) o)
    (fun s t p sl => sl.link (s.codeBase t sl) p.hdr (hdrLen sl.hw)) s

/-- R169: `ret`. -/
def execRetW (s : State) : Host.Outcome State Fault Refusal :=
  issueTransfer .retW (fun _ _ _ sl => some (sl.pair 0 (.s 22) 0)) (fun _ _ _ sl => sl) s

/-- R169: `jmpi`. -/
def execJmpi (a : Opd) (s : State) : Host.Outcome State Fault Refusal :=
  issueTransfer (.jmpi a) (fun _ _ _ sl => some (sl.pair 0 a 0)) (fun _ _ _ sl => sl) s

/-! ## Joins, windows, ends (R172 to R174) -/

/-- R172: `join`. -/
def execJoin (l : BitVec 7) (s : State) : Host.Outcome State Fault Refusal :=
  issue (.join l) (fun p s => s.arriveAll p l.toNat false) s

/-- R173: `wnd`. -/
def execWnd (a : Opd) (b : BitVec 6) (s : State) : Host.Outcome State Fault Refusal :=
  issue (.wnd a b) (eachMember (fun p k s =>
    match s.slice? p.team k with
    | none => s
    | some sl =>
      let v := (sl.readS a + BitVec.ofNat 32 (8 * b.toNat)).toNat
      if v % 8 = 0 ∧ v < 8 * sl.alloc then s.setSlice p.team k (fun sl => { sl.advance with wb := v })
      else s.trapWord p k 0x03 0)) s

/-- The state after `end` is reached by a slice or a handler thread: it ends at once when nothing is outstanding, and
otherwise waits (R12, R174, R253). -/
def endOne (p : At) (k : Nat) (s : State) : State :=
  let s := s.orderPoint p.team k true
  if s.mayEnd p.team k then
    match (s.slice? p.team k).bind (fun sl => sl.thread) with
    | some th => s.dropThread p.team k th
    | none => s.endSlice p.team k
  else s.blockOn p.team k .ending

/-- R174: `end`. -/
def execEndW (s : State) : Host.Outcome State Fault Refusal :=
  issuePoint .endW true (fun _ _ => none) (eachMember endOne) s

/-! ## Traps, `nop`, `yield` (R176, R177) -/

/-- A trap that the word raises after taking effect: the resumption point is the word after it (R176). -/
def softTrap (cause : Nat) (n : BitVec 7) (p : At) (k : Nat) (s : State) : State :=
  let s := s.setSlice p.team k Slice.advance
  match s.slice? p.team k with
  | some sl => s.trapAt p.team k cause n.toNat sl.hdr sl.ix p.hdr p.ix none
  | none => s

/-- R176: `trap`. -/
def execTrap (n : BitVec 7) (s : State) : Host.Outcome State Fault Refusal :=
  issue (.trap n) (eachMember (softTrap 0x09 n)) s

/-- R176: `brk`. -/
def execBrk (n : BitVec 7) (s : State) : Host.Outcome State Fault Refusal :=
  issue (.brk n) (eachMember (softTrap 0x0A n)) s

/-- R177: `nop`. -/
def execNop (s : State) : Host.Outcome State Fault Refusal := issue .nop (fun p s => s.advanceAll p) s

/-- R177: `yield`. -/
def execYield (s : State) : Host.Outcome State Fault Refusal :=
  issue .yield (fun p s =>
    let k := p.members.headD 0
    ((s.advanceAll p).setTeam p.team (fun t => t.setSub k (fun b => { b with entry := false }))).askEntry p.team k) s

/-! ## Special indices (R56, R57, R178, R179) -/

/-- The crew positions of a slice's sub-crew (R56). -/
def Team.crewMask (t : Team) (sl : Slice) : Word :=
  match sl.thread with
  | some _ => 1
  | none => BitVec.ofNat 32 (maskOf (((t.sub? sl.idx).map (fun b => b.members)).getD [sl.idx] |>.map (fun m => m % 2 ^ t.record.crewlog)))

/-- The value of a special index (R56). -/
def Team.special (t : Team) (sl : Slice) (i : Nat) : Word :=
  match i with
  | 0 => BitVec.ofNat 32 sl.wb
  | 1 => sl.fpc.setWidth 32
  | 2 => sl.fps.setWidth 32
  | 3 => sl.park.setWidth 32
  | 4 => t.crewMask sl
  | 5 => sl.uiv
  | 6 => sl.uisv
  | 7 => BitVec.ofNat 32 t.record.phase
  | 8 => BitVec.ofNat 32 t.no
  | 9 => BitVec.ofNat 32 (t.pool <<< 16 + sl.alloc)
  | 10 => BitVec.ofNat 32 (t.record.crewlog <<< 4 + t.record.track.toNat <<< 2 + t.record.elastic.toNat <<< 1
      + t.record.coresid.toNat)
  | _ => 0

/-- R178: `movs`. -/
def execMovs (d : Opd) (i : BitVec 7) (s : State) : Host.Outcome State Fault Refusal :=
  issue (.movs d i) (fun p s =>
    s.setTeam p.team (fun t => t.onMembers p.members (fun sl => (sl.writeS d (t.special sl i.toNat)).advance))) s

/-- The slice after a special index is written; none for a window fault (R57, R179). -/
def Slice.setSpecial (sl : Slice) (i : Nat) (a : Word) : Option Slice :=
  match i with
  | 0 =>
    let v := a.toNat % 512
    if v % 8 = 0 ∧ v < 8 * sl.alloc then some { sl with wb := v } else none
  | 1 => some { sl with fpc := a.setWidth 4 }
  | 2 => some { sl with fps := a.setWidth 5 }
  | 3 => some (sl.setPark (a.setWidth 4 ||| BitVec.ofNat 4 sl.flanes))
  | 5 => some { sl with uiv := a &&& 0x03FFFFFD#32 }
  | 6 => some { sl with uisv := a &&& 0xFFFFFFEF#32 }
  | _ => some sl

/-- R179: `movt`. -/
def execMovt (a : Opd) (i : BitVec 7) (s : State) : Host.Outcome State Fault Refusal :=
  issue (.movt a i) (eachMember (fun p k s =>
    match (s.slice? p.team k).bind (fun sl => sl.setSpecial i.toNat (sl.readS a)) with
    | some sl => s.setSlice p.team k (fun _ => sl.advance)
    | none => s.trapWord p k 0x03 0)) s

/-! ## `uiret` (R183) -/

/-- The header offset that UISV or SEPC names. -/
def pcHdr (w : Word) : Nat := (w.toNat >>> 8) * 4

/-- The word index that UISV or SEPC names. -/
def pcIx (w : Word) : Nat := bits w.toNat 7 5

/-- The target of a return to the header and index of a saved word: its header. `none` while the host is waited for; no target
for a word that is no header, or an index past its LEN (R68, R183, R344). -/
def State.returnTarget (s : State) (t : Team) (base : Nat) (sup : Bool) (w : Word) : State × Option (Except Nat (Option Word)) :=
  match s.checkTarget t sup base (base + pcHdr w) with
  | (s, .wait) => (s, none)
  | (s, .bad) => (s, some (.ok none))
  | (s, .fault c) => (s, some (.error c))
  | (s, .ok hw) => (s, some (.ok (if hdrLen hw < pcIx w then none else some hw)))

/-- The state after a slice returns to the header and index of a saved word; a target that is no header, or an index
past its LEN, is answered by `none`, a fault of the fetch by its cause (R183, R344). -/
def State.returnTo (s : State) (u k : Nat) (base : Nat) (sup : Bool) (w : Word) (f : Slice → Slice) :
    State × Option (Except Nat Unit) :=
  match s.team? u with
  | none => (s, none)
  | some t =>
    match s.returnTarget t base sup w with
    | (s, some (.ok (some hw))) => (s.setSlice u k (fun sl => f (sl.resumeAt (pcHdr w) (pcIx w) hw)), some (.ok ()))
    | (s, some (.error c)) => (s, some (.error c))
    | (s, some (.ok none)) | (s, none) => (s, none)

/-- The state with the sub-crew stalled when the header that some slice returns to waits for the host (R68, R170). -/
def returnWaits (tgt : State → Team → Slice → Nat × Bool × Word) (p : At) (s : State) : Option State :=
  match s.team? p.team with
  | none => none
  | some t =>
    let r := p.members.foldl (fun (acc : State × Bool) k =>
      match t.slice? k with
      | some sl =>
        let x := tgt acc.1 t sl
        let c := acc.1.returnTarget t x.1 x.2.1 x.2.2
        (c.1, acc.2 || c.2.isNone)
      | none => acc) (s, false)
    if r.2 then some (r.1.stall p.team (p.members.headD 0)) else none

/-- R183: `uiret`. -/
def execUiret (s : State) : Host.Outcome State Fault Refusal :=
  issueWith .uiret (returnWaits (fun s t sl => (s.codeBase t sl, sl.mode == .supervisor, sl.uisv)))
    (eachMember (fun p k s =>
      match s.team? p.team with
      | none => s
      | some t =>
        match t.slice? k with
        | none => s
        | some sl =>
          let base := s.codeBase t sl
          match s.returnTo p.team k base (sl.mode == .supervisor) sl.uisv
              (fun sl => { sl.setExec (sl.uisv.setWidth 4) with uiv := sl.uiv ||| 1 }) with
          | (s, some (.ok _)) => s
          | (s, some (.error c)) =>
            s.fetchHold p.team k c (some (base + pcHdr sl.uisv)) (pcWord p.hdr p.ix sl.exec.toNat)
          | (s, none) => s.trapWord p k 0x05 0)) s

/-! ## Clause headers (R62 to R67) -/

/-- The header word of its fields (R62). -/
def headerWord (w : BitVec 12) (a b : BitVec 4) (l : BitVec 3) (h : BitVec 4) : Word :=
  BitVec.ofNat 32 (0x1F <<< 27 + w.toNat <<< 15 + a.toNat <<< 11 + b.toNat <<< 7 + l.toNat <<< 4 + h.toNat)

/-- Whether a WAIT names the flag of an operation whose accesses are not all resolved (R338). -/
def State.waitUnresolved (s : State) (u k : Nat) (w : BitVec 12) : Bool :=
  s.pend.any (fun p => p.team == u && p.slice == k && p.accs.any (fun x => !x.2.resolved)
    && p.accs.any (fun x => match x.1.flag with
      | some f => w.getLsbD f
      | none => false))

/-- The state after the fetch of a clause fails: the double fault of R366; a handler thread stops (R253). -/
def State.fetchFault (s : State) (p : At) (cause : Nat) : State :=
  (p.members.foldl (fun s k =>
    match s.slice? p.team k with
    | some sl =>
      if sl.thread.isSome then s.failThread p.team k 0x08
      else s.fetchHold p.team k cause none (pcWord p.hdr p.ix sl.exec.toNat)
    | none => s) s).settle p.team

/-- The state after every slice of the sub-crew traps at the word it has reached. -/
def State.trapMembers (s : State) (p : At) (cause : Nat) : State :=
  (p.members.foldl (fun s k => s.trapWord p k cause 0) s).settle p.team

/-- The check of the clause that starts at a header, then its WAIT, then its opening (R63, R67, R15). -/
def State.openClause (s : State) (p : At) (hw : Word) : State :=
  match s.team? p.team with
  | none => s
  | some t =>
    match t.slice? (p.members.headD 0) with
    | none => s
    | some sl =>
      let va := s.codeBase t sl + p.hdr
      match s.fetchWords t (sl.mode == .supervisor) (va + 4) (hdrLen hw + 1) with
      | (s, none) => s.stall p.team (p.members.headD 0)
      | (s, some (.error c)) => s.fetchFault p c
      | (s, some (.ok ws)) =>
        if clauseBad hw ws then s.trapMembers { p with ix := 0, flag := none } 0x04
        else
          let waits := p.members.filter (fun k => match s.slice? p.team k with
            | some sl => !sl.flagsZero (hdrWait hw)
            | none => false)
          if waits.isEmpty then
            (if hdrWait hw = 0 then s else s.codeSeen p).setTeam p.team (fun t => t.onMembers p.members (fun sl =>
              { sl with opened := true, ix := 0, hw := hw, longs := longMask ws, code := ws, conv := false }))
          else (waits.foldl (fun s k => s.blockOn p.team k (.flags (hdrWait hw))) s).settle p.team

/-- The words of the clause that the slices of a sub-crew have come back into are fetched, and the flags of its long-latency words
follow from their positions (R68, R151). -/
def State.refetch (s : State) (t : Team) (p : At) (sl : Slice) : State :=
  match s.fetchWords t (sl.mode == .supervisor) (s.codeBase t sl + sl.hdr + 4) (hdrLen sl.hw + 1) with
  | (s, none) => s.stall t.uid (p.members.headD 0)
  | (s, some (.error c)) => s.fetchFault p c
  | (s, some (.ok ws)) =>
    s.setTeam t.uid (fun t => t.onMembers p.members (fun sl => { sl with longs := longMask ws, code := ws }))

/-- Whether the word at index 0 of the clause at a sub-crew's header is a convergence point (R334, R338). -/
def State.firstConverges (s : State) (p : At) : State × Bool :=
  match s.team? p.team with
  | none => (s, false)
  | some t =>
    match t.slice? (p.members.headD 0) with
    | none => (s, false)
    | some sl =>
      let va := s.codeBase t sl + p.hdr + 4
      let r := s.fetch t (sl.mode == .supervisor) (va % 128 == 0) va
      (r.1, match r.2 with
        | some (.ok w) => wordConverges w
        | some (.error _) | none => false)

/-- The slices that vector at a header because the clause's first word is a convergence point: the vector comes before the
clause's check (R334, R338). -/
def State.vectorFirst (s : State) (p : At) : Option State :=
  let ms := p.members.filter (fun m => ((s.slice? p.team m).map Slice.vectors).getD false && s.allResolved p.team m)
  if ms.isEmpty then none
  else
    let r := s.firstConverges p
    if r.2 then some ((ms.foldl (fun s m => s.takeFaultVector p.team m) r.1).regroup p.team) else none

/-- R67: a clause header. A WAIT on unresolved accesses makes it a convergence point (R338). -/
def execClause (w : BitVec 12) (a b : BitVec 4) (l : BitVec 3) (h : BitVec 4) (s : State) :
    Host.Outcome State Fault Refusal :=
  match s.at? with
  | none => .next s
  | some p =>
    let s := s.setTeam p.team (fun t => t.onMembers p.members (fun sl =>
      if s.waitUnresolved p.team sl.idx w then { sl with conv := true } else sl))
    match s.converge p false with
    | some s' => .next s'
    | none =>
      match s.vectorFirst p with
      | some s' => .next s'
      | none => .next (s.openClause p (headerWord w a b l h))

/-- R76: a word that no row of the opcode table encodes. Where its OP is that of a class of convergence words, it is a convergence
point (R71, R338). -/
def execIllegalInstruction (s : State) : Host.Outcome State Fault Refusal :=
  match s.at? with
  | none => .next s
  | some p =>
    let word := (s.slice? p.team (p.members.headD 0)).bind (fun sl => sl.code[p.ix]?)
    match s.converge p ((word.map opConverges).getD false) with
    | some s' => .next s'
    | none => .next (s.trapMembers p 0x01)

/-- The state after the word reached by continuing after a clause turns out to be no header, or a header stands inside a clause that
was entered past its start: the trap names that word (R67; DESIGN CHOICE, log 8). -/
def State.notHeader (s : State) (p : At) : State :=
  match s.converge p false with
  | some s' => s'
  | none => s.trapMembers { p with flag := none } 0x04

end Sys2Proof.Machine
end

