-- ==== Sys2Proof/Machine/MemoryWords.lean ====
section
/-! DEFINITION. The memory classes LD, ST, LDX, ATOM, ATOM64 and MCTL (R219 to R235). -/

namespace Sys2Proof.Machine

/-! ## Building accesses (R219, R221, R337) -/

/-- An effective address formed exactly; one below 0 fails check 1, as one past 2^64 does (R219). -/
def eaOf (x : Int) : Nat := if 0 ≤ x then x.toNat else 2 ^ 64 + (x.emod (2 ^ 64)).toNat

/-- The physical registers of a destination of `k` words as they stand at issue; none for `zero` (R337). -/
def Slice.dstRegs (sl : Slice) (d : Opd) (k : Nat) : List Nat :=
  match d with
  | .v n => (List.range k).map (fun j => sl.wb + n.val + j)
  | .s _ | .zero | .exec | .lane | .slice | .bc _ | .role => []

/-- What a load or store word asks of each lane: its kind and place in S, its size and alignment, whether it addresses
the scratchpad allocation, whether it is uniform, and its address and data by lane (R219 to R226). -/
structure Form where
  kind : AccKind
  order : Order
  size : Nat
  align : Nat
  loc : Bool
  uniform : Bool
  dst : List Nat
  ea : Nat → Int
  data : Nat → Nat

/-- The access of some lanes of a slice under a form, its address and data being those of lane `l` (R221). -/
def Form.acc (fm : Form) (p : At) (i : Instr) (sl : Slice) (lanes : List Nat) (l : Nat) : Acc where
  kind := fm.kind
  order := fm.order
  lanes := lanes
  uniform := fm.uniform
  ea := eaOf (fm.ea l)
  size := fm.size
  align := fm.align
  loc := fm.loc
  data := fm.data l
  dst := fm.dst
  hdr := p.hdr
  ix := p.ix
  flag := if i.long then p.flag else none
  sup := sl.mode == .supervisor
  comb := false

/-- The accesses of a slice: one when uniform, else one for each lane of the effective mask (R221). -/
def Form.accs (fm : Form) (p : At) (i : Instr) (sl : Slice) : List Acc :=
  if fm.uniform then [fm.acc p i sl sl.lanes (sl.lanes.headD 0)] else sl.lanes.map (fun l => fm.acc p i sl [l] l)

/-- The effect of a memory word in one slice: nothing with an effective mask of zero; else the flag is attached, the
slice goes on, and the accesses are issued (R65, R165, R219). -/
def memOne (i : Instr) (fm : Nat → Slice → Form) (p : At) (k : Nat) (s : State) : State :=
  match s.team? p.team with
  | none => s
  | some t =>
    match t.slice? k with
    | none => s
    | some sl =>
      if sl.eff = 0 then s.setSlice p.team k Slice.advance
      else
        let s := s.setSlice p.team k (fun sl => (if i.long then sl.attach p.flag else sl).advance)
        let accs := (fm t.record.crewlog sl).accs p i sl
        s.issueAccs p.team k (decide (1 < accs.length) || decide (1 < p.members.length)) accs

/-- The issue of a memory word. -/
def issueMem (i : Instr) (fm : Nat → Slice → Form) (s : State) : Host.Outcome State Fault Refusal :=
  issue i (eachMember (memOne i fm)) s

/-- Whether an address formed from two operands is uniform (R221). -/
def uniform2 (a b : Opd) : Bool := !a.isV && !b.isV

/-! ## LD and ST (R223) -/

/-- pair(A) + 4 × sext(IMM11) (R223). -/
def eaImm (c : Nat) (sl : Slice) (a : Opd) (imm : BitVec 11) (l : Nat) : Int := (sl.pair c a l : Int) + 4 * imm.toInt

/-- R223: `ld`. -/
def execLd (w : BitVec 2) (d a : Opd) (i : BitVec 11) (s : State) : Host.Outcome State Fault Refusal :=
  issueMem (.ld w d a i) (fun c sl =>
    { kind := .load false, order := .ord, size := 4 * 2 ^ w.toNat, align := 4, loc := false, uniform := !a.isV,
      dst := sl.dstRegs d (2 ^ w.toNat), ea := eaImm c sl a i, data := fun _ => 0 }) s

/-- R223: `st`. -/
def execSt (w : BitVec 2) (d a : Opd) (i : BitVec 11) (s : State) : Host.Outcome State Fault Refusal :=
  issueMem (.st w d a i) (fun c sl =>
    { kind := .store, order := .ord, size := 4 * 2 ^ w.toNat, align := 4, loc := false, uniform := !a.isV,
      dst := [], ea := eaImm c sl a i, data := fun l => sl.readN c d l (2 ^ w.toNat) }) s

/-! ## LDX (R225 to R228) -/

/-- pair(A) + sext(b) (R225). -/
def eaIdx (c : Nat) (sl : Slice) (a b : Opd) (l : Nat) : Int := (sl.pair c a l : Int) + (sl.read c b l).toInt

/-- A load of the LDX class that adds an index to a pair (R225, R227). -/
def ldxLoad (signed : Bool) (o : Order) (size : Nat) (d a b : Opd) (c : Nat) (sl : Slice) : Form where
  kind := .load signed
  order := o
  size := size
  align := size
  loc := false
  uniform := uniform2 a b
  dst := sl.dstRegs d 1
  ea := eaIdx c sl a b
  data := fun _ => 0

/-- A store of the LDX class that adds an index to a pair (R225, R227). -/
def ldxStore (o : Order) (size : Nat) (d a b : Opd) (c : Nat) (sl : Slice) : Form where
  kind := .store
  order := o
  size := size
  align := size
  loc := false
  uniform := uniform2 a b
  dst := []
  ea := eaIdx c sl a b
  data := fun l => (sl.read c d l).toNat % 2 ^ (8 * size)

/-- R225: `ldS8`. -/
def execLdS8 (d a b : Opd) (s : State) : Host.Outcome State Fault Refusal :=
  issueMem (.ldS8 d a b) (ldxLoad true .ord 1 d a b) s

/-- R225: `ldZ8`. -/
def execLdZ8 (d a b : Opd) (s : State) : Host.Outcome State Fault Refusal :=
  issueMem (.ldZ8 d a b) (ldxLoad false .ord 1 d a b) s

/-- R225: `ldS16`. -/
def execLdS16 (d a b : Opd) (s : State) : Host.Outcome State Fault Refusal :=
  issueMem (.ldS16 d a b) (ldxLoad true .ord 2 d a b) s

/-- R225: `ldZ16`. -/
def execLdZ16 (d a b : Opd) (s : State) : Host.Outcome State Fault Refusal :=
  issueMem (.ldZ16 d a b) (ldxLoad false .ord 2 d a b) s

/-- R227: `ald`. -/
def execAld (d a b : Opd) (s : State) : Host.Outcome State Fault Refusal :=
  issueMem (.ald d a b) (ldxLoad false .ord 4 d a b) s

/-- R227: `aldUnp`. -/
def execAldUnp (d a b : Opd) (s : State) : Host.Outcome State Fault Refusal :=
  issueMem (.aldUnp d a b) (ldxLoad false .unp 4 d a b) s

/-- R145, R227: `aldQnt`. -/
def execAldQnt (d a b : Opd) (s : State) : Host.Outcome State Fault Refusal :=
  issueMem (.aldQnt d a b) (ldxLoad false .qnt 4 d a b) s

/-- R146, R227: `aldSpec`. -/
def execAldSpec (d a b : Opd) (s : State) : Host.Outcome State Fault Refusal :=
  issueMem (.aldSpec d a b) (ldxLoad false .spec 4 d a b) s

/-- R225: `st8`. -/
def execSt8 (d a b : Opd) (s : State) : Host.Outcome State Fault Refusal :=
  issueMem (.st8 d a b) (ldxStore .ord 1 d a b) s

/-- R225: `st16`. -/
def execSt16 (d a b : Opd) (s : State) : Host.Outcome State Fault Refusal :=
  issueMem (.st16 d a b) (ldxStore .ord 2 d a b) s

/-- R227: `ast`. -/
def execAst (d a b : Opd) (s : State) : Host.Outcome State Fault Refusal :=
  issueMem (.ast d a b) (ldxStore .ord 4 d a b) s

/-- R227: `astUnp`. -/
def execAstUnp (d a b : Opd) (s : State) : Host.Outcome State Fault Refusal :=
  issueMem (.astUnp d a b) (ldxStore .unp 4 d a b) s

/-- n(a) + n(b), an offset in the scratchpad allocation (R226). -/
def eaLocal (c : Nat) (sl : Slice) (a b : Opd) (l : Nat) : Int := ((sl.read c a l).toNat + (sl.read c b l).toNat : Nat)

/-- R226: `ldl`. -/
def execLdl (w : BitVec 2) (d a b : Opd) (s : State) : Host.Outcome State Fault Refusal :=
  issueMem (.ldl w d a b) (fun c sl =>
    { kind := .load false, order := .ord, size := 4 * 2 ^ w.toNat, align := 4, loc := true, uniform := uniform2 a b,
      dst := sl.dstRegs d (2 ^ w.toNat), ea := eaLocal c sl a b, data := fun _ => 0 }) s

/-- R226: `stl`. -/
def execStl (w : BitVec 2) (d a b : Opd) (s : State) : Host.Outcome State Fault Refusal :=
  issueMem (.stl w d a b) (fun c sl =>
    { kind := .store, order := .ord, size := 4 * 2 ^ w.toNat, align := 4, loc := true, uniform := uniform2 a b,
      dst := [], ea := eaLocal c sl a b, data := fun l => sl.readN c d l (2 ^ w.toNat) }) s

/-- R228: `ldi`. -/
def execLdi (w : BitVec 2) (d a b : Opd) (s : State) : Host.Outcome State Fault Refusal :=
  issueMem (.ldi w d a b) (fun c sl =>
    { kind := .load false, order := .ord, size := 4 * 2 ^ w.toNat, align := 4, loc := false, uniform := uniform2 a b,
      dst := sl.dstRegs d (2 ^ w.toNat),
      ea := fun l => ((sl.pair c a l + 4 * 2 ^ w.toNat * (sl.read c b l).toNat : Nat) : Int), data := fun _ => 0 }) s

/-! ## Atomics (R229 to R231) -/

/-- The place in S of a declared use (R231). -/
def useOrder (w : BitVec 2) : Order :=
  match w.toNat with
  | 0 => .ord
  | 1 => .com
  | 2 => .nord
  | _ => .unp

/-- An atomic of `size` bytes whose operand has `words` words (R229, R230). -/
def atomForm (fn size words : Nat) (w : BitVec 2) (d a b : Opd) (c : Nat) (sl : Slice) : Form where
  kind := .atom fn
  order := useOrder w
  size := size
  align := size
  loc := false
  uniform := false
  dst := sl.dstRegs d (size / 4)
  ea := fun l => (sl.pair c a l : Int)
  data := fun l => sl.readN c b l words

/-- R230: `atom.add`. -/
def execAtomAdd (w : BitVec 2) (d a b : Opd) (s : State) : Host.Outcome State Fault Refusal :=
  issueMem (.atomAdd w d a b) (atomForm 0 4 1 w d a b) s

/-- R230: `atom.sub`. -/
def execAtomSub (w : BitVec 2) (d a b : Opd) (s : State) : Host.Outcome State Fault Refusal :=
  issueMem (.atomSub w d a b) (atomForm 1 4 1 w d a b) s

/-- R230: `atom.min`. -/
def execAtomMin (w : BitVec 2) (d a b : Opd) (s : State) : Host.Outcome State Fault Refusal :=
  issueMem (.atomMin w d a b) (atomForm 2 4 1 w d a b) s

/-- R230: `atom.max`. -/
def execAtomMax (w : BitVec 2) (d a b : Opd) (s : State) : Host.Outcome State Fault Refusal :=
  issueMem (.atomMax w d a b) (atomForm 3 4 1 w d a b) s

/-- R230: `atom.nmin`. -/
def execAtomNmin (w : BitVec 2) (d a b : Opd) (s : State) : Host.Outcome State Fault Refusal :=
  issueMem (.atomNmin w d a b) (atomForm 4 4 1 w d a b) s

/-- R230: `atom.nmax`. -/
def execAtomNmax (w : BitVec 2) (d a b : Opd) (s : State) : Host.Outcome State Fault Refusal :=
  issueMem (.atomNmax w d a b) (atomForm 5 4 1 w d a b) s

/-- R230: `atom.and`. -/
def execAtomAnd (w : BitVec 2) (d a b : Opd) (s : State) : Host.Outcome State Fault Refusal :=
  issueMem (.atomAnd w d a b) (atomForm 6 4 1 w d a b) s

/-- R230: `atom.or`. -/
def execAtomOr (w : BitVec 2) (d a b : Opd) (s : State) : Host.Outcome State Fault Refusal :=
  issueMem (.atomOr w d a b) (atomForm 7 4 1 w d a b) s

/-- R230: `atom.xor`. -/
def execAtomXor (w : BitVec 2) (d a b : Opd) (s : State) : Host.Outcome State Fault Refusal :=
  issueMem (.atomXor w d a b) (atomForm 8 4 1 w d a b) s

/-- R230: `atom.xchg`. -/
def execAtomXchg (w : BitVec 2) (d a b : Opd) (s : State) : Host.Outcome State Fault Refusal :=
  issueMem (.atomXchg w d a b) (atomForm 9 4 1 w d a b) s

/-- R230: `atom.cas`. -/
def execAtomCas (w : BitVec 2) (d a b : Opd) (s : State) : Host.Outcome State Fault Refusal :=
  issueMem (.atomCas w d a b) (atomForm 10 4 2 w d a b) s

/-- R230: `atom.inc`. -/
def execAtomInc (w : BitVec 2) (d a b : Opd) (s : State) : Host.Outcome State Fault Refusal :=
  issueMem (.atomInc w d a b) (atomForm 11 4 1 w d a b) s

/-- R230: `atom.dec`. -/
def execAtomDec (w : BitVec 2) (d a b : Opd) (s : State) : Host.Outcome State Fault Refusal :=
  issueMem (.atomDec w d a b) (atomForm 12 4 1 w d a b) s

/-- R230: `atom.fadd`. -/
def execAtomFadd (w : BitVec 2) (d a b : Opd) (s : State) : Host.Outcome State Fault Refusal :=
  issueMem (.atomFadd w d a b) (atomForm 13 4 1 w d a b) s

/-- R230: `atom.fmin`. -/
def execAtomFmin (w : BitVec 2) (d a b : Opd) (s : State) : Host.Outcome State Fault Refusal :=
  issueMem (.atomFmin w d a b) (atomForm 14 4 1 w d a b) s

/-- R230: `atom.fmax`. -/
def execAtomFmax (w : BitVec 2) (d a b : Opd) (s : State) : Host.Outcome State Fault Refusal :=
  issueMem (.atomFmax w d a b) (atomForm 15 4 1 w d a b) s

/-- R230: `atom64.add`. -/
def execAtom64Add (w : BitVec 2) (d a b : Opd) (s : State) : Host.Outcome State Fault Refusal :=
  issueMem (.atom64Add w d a b) (atomForm 0 8 2 w d a b) s

/-- R230: `atom64.sub`. -/
def execAtom64Sub (w : BitVec 2) (d a b : Opd) (s : State) : Host.Outcome State Fault Refusal :=
  issueMem (.atom64Sub w d a b) (atomForm 1 8 2 w d a b) s

/-- R230: `atom64.min`. -/
def execAtom64Min (w : BitVec 2) (d a b : Opd) (s : State) : Host.Outcome State Fault Refusal :=
  issueMem (.atom64Min w d a b) (atomForm 2 8 2 w d a b) s

/-- R230: `atom64.max`. -/
def execAtom64Max (w : BitVec 2) (d a b : Opd) (s : State) : Host.Outcome State Fault Refusal :=
  issueMem (.atom64Max w d a b) (atomForm 3 8 2 w d a b) s

/-- R230: `atom64.nmin`. -/
def execAtom64Nmin (w : BitVec 2) (d a b : Opd) (s : State) : Host.Outcome State Fault Refusal :=
  issueMem (.atom64Nmin w d a b) (atomForm 4 8 2 w d a b) s

/-- R230: `atom64.nmax`. -/
def execAtom64Nmax (w : BitVec 2) (d a b : Opd) (s : State) : Host.Outcome State Fault Refusal :=
  issueMem (.atom64Nmax w d a b) (atomForm 5 8 2 w d a b) s

/-- R230: `atom64.and`. -/
def execAtom64And (w : BitVec 2) (d a b : Opd) (s : State) : Host.Outcome State Fault Refusal :=
  issueMem (.atom64And w d a b) (atomForm 6 8 2 w d a b) s

/-- R230: `atom64.or`. -/
def execAtom64Or (w : BitVec 2) (d a b : Opd) (s : State) : Host.Outcome State Fault Refusal :=
  issueMem (.atom64Or w d a b) (atomForm 7 8 2 w d a b) s

/-- R230: `atom64.xor`. -/
def execAtom64Xor (w : BitVec 2) (d a b : Opd) (s : State) : Host.Outcome State Fault Refusal :=
  issueMem (.atom64Xor w d a b) (atomForm 8 8 2 w d a b) s

/-- R230: `atom64.xchg`. -/
def execAtom64Xchg (w : BitVec 2) (d a b : Opd) (s : State) : Host.Outcome State Fault Refusal :=
  issueMem (.atom64Xchg w d a b) (atomForm 9 8 2 w d a b) s

/-! ## MCTL (R232 to R235) -/

/-- The effect of a fence: an ordering point of each slice; the package's writes to the memory `p` are then visible outside,
and the core reads what outside agents have made visible (R154, R233). -/
def fenceAll (out : Nat → Bool) (p : At) (s : State) : State :=
  let s := (eachMember (fun p k s => s.orderPoint p.team k true) p s).reveal out
  let s := match s.team? p.team with
    | some t => s.dropStale t.core
    | none => s
  s.advanceAll p

/-- R154, R233: `fence.sys`. -/
def execFenceSys (s : State) : Host.Outcome State Fault Refusal := issuePoint .fenceSys true (fun _ _ => none) (fenceAll (fun _ => true)) s

/-- R154, R233: `fence.host`. -/
def execFenceHost (s : State) : Host.Outcome State Fault Refusal := issuePoint .fenceHost true (fun _ _ => none) (fenceAll (inRange .host)) s

/-- The leaf that maps a byte, whatever it permits: held by a TLB or ATS cache, or found by a walk. -/
def State.leafAt (s : State) (t : Team) (va : Nat) : Option Leaf :=
  match s.tlbHit (clusterOf t.core) t.asid va with
  | some l => some l
  | none =>
    match (s.atsc.find? (fun e => e.die == dieOf t.core && e.asid == t.asid && e.epoch == s.epoch t.asid
        && e.leaf.covers va)) with
    | some e => some e.leaf
    | none =>
      match (s.walk t.part (clusterOf t.core) t.asid va).1 with
      | some l => if l.ats then none else some l
      | none => none

/-- The physical sectors of a virtual range that are mapped, as ranges (R234). -/
def State.mappedRanges (s : State) (t : Team) (ea n : Nat) : List (Nat × Nat) :=
  (pieces 4096 ea n).filterMap (fun q => (s.leafAt t q.1).map (fun l =>
    (sectorOf (l.addr q.1), sectorOf (l.addr q.1 + q.2 - 1) + 128)))

/-- The state after cached copies of physical ranges are written back, and dropped unless their home is a slice or a
scratchpad (R234). -/
def State.cleanCopies (s : State) (rs : List (Nat × Nat)) (drop : Bool) : State :=
  let hit := fun (e : RmapEnt) => rs.any (fun r => decide (r.1 ≤ e.sector) && decide (e.sector < r.2))
  { s with rmap :=
      let clean := s.rmap.map (fun (e : RmapEnt) => if hit e then { e with dirty := false } else e)
      if drop then clean.filter (fun e => !hit e || e.home == .slice || e.home == .spad) else clean }

/-- Whether a maintenance range is refused: longer than 16 MiB, non-canonical or wrapping (R234). -/
def maintainBad (ea n : Nat) : Bool := decide (0x1000000 < n) || (n != 0 && !canonicalRange ea n)

/-- The state after every instruction line of some physical ranges is dropped, in every core and cluster (R151). -/
def State.dropLines (s : State) (rs : List (Nat × Nat)) : State :=
  { s with ilines := s.ilines.filter (fun i => !rs.any (fun r => decide (r.1 ≤ i.sector) && decide (i.sector < r.2))) }

/-- The effect of `inval` or `flush` in each slice (R151, R234). -/
def maintain (a b : Opd) (drop : Bool) (p : At) (k : Nat) (s : State) : State :=
  match s.team? p.team with
  | none => s
  | some t =>
    match t.slice? k with
    | none => s
    | some sl =>
      let ea := sl.pair 0 a 0
      let n := (sl.readS b).toNat
      let bad := maintainBad ea n
      let rs := s.mappedRanges t ea n
      let s := if bad then s else s.cleanCopies rs drop
      let s := if bad || !drop then s else s.dropLines rs
      s.setSlice p.team k (fun sl => { sl.advance with scc := !bad })

/-- The stall of `inval` and `flush`: the sub-crew begins the operation and stalls until it is complete, with or without
its fetch entry (R19, R234). -/
def maintainStalls (p : At) (s : State) : Option State :=
  match (s.team? p.team).bind (fun t => t.sub? (p.members.headD 0)) with
  | some b =>
    if b.accepted.isSome then none
    else some (s.acceptStall p .lines)
  | none => none

/-- R234: `inval`. -/
def execInval (a b : Opd) (s : State) : Host.Outcome State Fault Refusal :=
  issueWith (.inval a b) maintainStalls (eachMember (maintain a b true)) s

/-- R234: `flush`. -/
def execFlush (a b : Opd) (s : State) : Host.Outcome State Fault Refusal :=
  issueWith (.flush a b) maintainStalls (eachMember (maintain a b false)) s

/-- The slices that still wait on a flag of a mask are blocked; none when every flag reads zero in every slice (R15,
R235). -/
def waitFlags (m : BitVec 12) (p : At) (s : State) : Option State :=
  let waits := p.members.filter (fun k => match s.slice? p.team k with
    | some sl => !sl.flagsZero m
    | none => false)
  if waits.isEmpty then none else some (waits.foldl (fun s k => s.blockOn p.team k (.flags m)) s)

/-- R235: `waitf`. -/
def execWaitf (a b : BitVec 6) (s : State) : Host.Outcome State Fault Refusal :=
  issueWith (.waitf a b) (waitFlags (a ++ b)) (fun p s => (s.codeSeen p).advanceAll p) s

end Sys2Proof.Machine
end

