-- ==== Sys2Proof/Machine/Engine.lean ====
section
/-! DEFINITION. The copy and catch engines: the ENG class but for `mload`, the completion of its commands, the bursts of
catch commands and their handler threads (R236 to R255). -/

namespace Sys2Proof.Machine

/-! ## Descriptor words -/

/-- Word `j` of an octet. -/
def octW (o : List Word) (j : Nat) : Nat := ((o.drop j).headD 0).toNat

/-- Words `j` and `j + 1` of an octet as one number. -/
def octP (o : List Word) (j : Nat) : Nat := octW o j + octW o (j + 1) <<< 32

/-- Word `j` of an octet as a signed number. -/
def octI (o : List Word) (j : Nat) : Int := ((o.drop j).headD 0).toInt

/-! ## Accesses of an engine (R240, R147) -/

/-- How a step of an engine ends: with a value, waiting for the host or the checkpoint ceiling, or with a status and
the address that failed (R239). -/
inductive Eng (α : Type) where
  | ok (a : α)
  | wait
  | bad (code va : Nat)
  deriving DecidableEq, Repr

/-- The agent of an engine event of a slice: it uses the core's clock and is no lane. -/
def engWho (t : Team) (k : Nat) : Who where
  core := some t.core
  team := t.uid
  slice := k
  lane := 8
  agent := 0

/-- The status of a failed check 4 (R239). -/
def engCode (cause : Nat) : Nat := if cause = 0x13 ∨ cause = 0x14 then 0x05 else 0x06

/-- Check 4 over the pieces of a range, in ascending order. -/
def State.engPieces (s : State) (t : Team) (bad : List (Nat × Need)) (n : Need) : List (Nat × Nat) → State × Eng (List Piece)
  | [] => (s, .ok [])
  | (va, sz) :: rest =>
    match s.translate t.part t.core t.asid va n false bad with
    | (s, none) => (s, .wait)
    | (s, some (.error _)) => (s, .bad 0x05 va)
    | (s, some (.ok l)) =>
      match s.policyFault t.core l (l.addr va) n false with
      | some c => (s, .bad (engCode c) va)
      | none =>
        match s.engPieces t bad n rest with
        | (s, .ok ps) => (s, .ok ({ va := va, pa := l.addr va, size := sz, leaf := l } :: ps))
        | (s, .wait) => (s, .wait)
        | (s, .bad c a) => (s, .bad c a)

/-- The checks of a range of an engine command: RANGE first, then translation and policy (R239, R240). -/
def State.engCheck (s : State) (t : Team) (bad : List (Nat × Need)) (n : Need) (va len : Nat) : State × Eng (List Piece) :=
  if !canonicalRange va len then (s, .bad 0x02 va) else s.engPieces t bad n (pieces 128 va len)

/-- Whether some event of an engine access would pass the core's checkpoint ceiling, or finds no room for the pre-image it replaces (R137,
R403). -/
def State.engPast (s : State) (t : Team) (k : Nat) (ps : List Piece) (wrote : Bool) : Bool :=
  let l := s.timesFrom wrote (s.clockOf (engWho t k)) ((ps.filter Piece.event).map (fun p => p.pa))
  (wrote && l.any (fun x => s.captureFull x.1 x.2)) || s.pastCeiling t.core l

/-- A read of an engine through pieces whose checks have passed: the number it reads (R147, R239). -/
def State.engReadAt (s : State) (t : Team) (k va : Nat) (ps : List Piece) : State × Eng Nat :=
  if s.engPast t k ps false then (s, .wait)
  else
    let r := (s.sendPeers .load 0 0 ps).readPieces (engWho t k) t.asid true ps 0
    if r.2.2 then (r.1, .bad 0x07 va) else (r.1, .ok r.2.1)

/-- A write of an engine through pieces whose checks have passed (R147). -/
def State.engWriteAt (s : State) (t : Team) (k : Nat) (v : Nat) (ps : List Piece) : State × Eng Unit :=
  if s.engPast t k ps true then (s, .wait)
  else ((s.sendPeers .store 0 v ps).writePieces (engWho t k) t.asid v ps, .ok ())

/-- A checked read of an engine (R147, R239). -/
def State.engRead (s : State) (t : Team) (k : Nat) (bad : List (Nat × Need)) (va len : Nat) : State × Eng Nat :=
  match s.engCheck t bad .load va len with
  | (s, .wait) => (s, .wait)
  | (s, .bad c a) => (s, .bad c a)
  | (s, .ok ps) => s.engReadAt t k va ps

/-- A checked write of an engine (R147). -/
def State.engWrite (s : State) (t : Team) (k : Nat) (bad : List (Nat × Need)) (va len v : Nat) : State × Eng Unit :=
  match s.engCheck t bad .store va len with
  | (s, .wait) => (s, .wait)
  | (s, .bad c a) => (s, .bad c a)
  | (s, .ok ps) => s.engWriteAt t k v ps

/-! ## Plans of the copy family (R241 to R247) -/

/-- The part of a source that starts `n` bytes on; a quantised block is never cut. -/
def Src.from (s : Src) (n : Nat) : Src :=
  match s with
  | .zero => .zero
  | .mem va => .mem (va + n)
  | .block w e => .block w e
  | .data b => .data (b.drop n)

/-- The runs cut at the 128-byte granules of the destination, in ascending order of granule (R241). -/
def granules (rs : List Run) : List (List Run) :=
  let parts := rs.flatMap (fun r => (pieces 128 r.dst r.len).map (fun q =>
    ({ dst := q.1, len := q.2, src := r.src.from (q.1 - r.dst) } : Run)))
  (sortNat (parts.map (fun r => r.dst / 128))).map (fun g => parts.filter (fun r => r.dst / 128 == g))

/-- R242: `copy`. -/
def planCopy (o : List Word) : Eng (List Run) :=
  let n := octW o 4
  if octP o 0 % 4 ≠ 0 ∨ octP o 2 % 4 ≠ 0 ∨ n % 4 ≠ 0 ∨ n < 4 ∨ octW o 5 ≠ 0 ∨ octW o 6 ≠ 0 ∨ octW o 7 ≠ 0 then .bad 0x01 0
  else .ok [{ dst := octP o 2, len := n, src := .mem (octP o 0) }]

/-- A tensor descriptor (R243). -/
structure Tensor where
  base : Nat
  dimx : Nat
  dimy : Nat
  dimz : Nat
  elog : Nat
  pitchy : Nat
  pitchz : Nat
  boxx : Nat
  boxy : Nat
  boxz : Nat
  deriving DecidableEq, Repr

/-- The tensor descriptor in 64 bytes; none when a check of R243 fails. -/
def tensorOf (three : Bool) (packed d : Nat) : Option Tensor :=
  let t : Tensor := { base := bits d 63 0, dimx := bits d 95 64, dimy := bits d 127 96, dimz := bits d 159 128,
                      elog := bits d 162 160, pitchy := bits d 255 192, pitchz := bits d 319 256,
                      boxx := bits d 335 320, boxy := bits d 351 336, boxz := bits d 367 352 }
  let e := 2 ^ t.elog
  if bits d 191 163 ≠ 0 ∨ bits d 383 368 ≠ 0 ∨ bits d 511 384 ≠ 0 ∨ 4 < t.elog
     ∨ t.dimx = 0 ∨ t.dimy = 0 ∨ t.dimz = 0 ∨ t.boxx = 0 ∨ t.boxy = 0 ∨ t.boxz = 0
     ∨ t.base % e ≠ 0 ∨ t.pitchy % e ≠ 0 ∨ t.pitchz % e ≠ 0 ∨ packed % e ≠ 0
     ∨ (!three ∧ (t.dimz ≠ 1 ∨ t.boxz ≠ 1)) ∨ 2 ^ 32 < t.boxx * t.boxy * t.boxz * e then none
  else some t

/-- The runs of one box row: inside the tensor from `lo` to `hi` elements of the row, outside elsewhere (R244). -/
def rowRuns (dir : Bool) (p t len lo hi : Nat) : List Run :=
  if dir then (if lo < hi then [{ dst := t, len := hi - lo, src := .mem (p + lo) }] else [])
  else
    (if lo < hi then
      [{ dst := p, len := lo, src := .zero }, { dst := p + lo, len := hi - lo, src := .mem t },
       { dst := p + hi, len := len - hi, src := .zero }]
     else [{ dst := p, len := len, src := .zero }]).filter (fun r => r.len != 0)

/-- R244: `copy.t2` and `copy.t3`, given the descriptor. -/
def planTile (o : List Word) (t : Tensor) : List Run :=
  let dir := bit (octW o 7) 0
  let e := 2 ^ t.elog
  let x0 := octI o 4
  (List.range (t.boxy * t.boxz)).flatMap (fun r =>
    let y := octI o 5 + (r % t.boxy : Nat)
    let z := octI o 6 + (r / t.boxy : Nat)
    let p := octP o 2 + r * t.boxx * e
    let inside := decide (0 ≤ y) && decide (y < t.dimy) && decide (0 ≤ z) && decide (z < t.dimz)
    let lo := (max 0 (-x0)).toNat
    let hi := if inside then (min (t.boxx : Int) (t.dimx - x0)).toNat else 0
    let a := t.base + (x0 + lo).toNat * e + y.toNat * t.pitchy + z.toNat * t.pitchz
    rowRuns dir p a (t.boxx * e) (lo * e) (hi * e))

/-- A convolution descriptor (R245). -/
structure Conv where
  base : Nat
  c : Nat
  iw : Nat
  ih : Nat
  n : Nat
  pitchy : Nat
  pitchz : Nat
  kw : Nat
  kh : Nat
  stride : Nat
  dil : Nat
  pad : Nat
  cb : Nat
  elog : Nat
  rows : Nat
  deriving DecidableEq, Repr

/-- OW or OH of R245, from the image's extent and the kernel's. -/
def Conv.out (v : Conv) (i k : Nat) : Int :=
  ((i : Int) + 2 * v.pad - v.dil * (k - 1) - 1).fdiv v.stride + 1

/-- The convolution descriptor in 64 bytes; none when a check of R245 fails. -/
def convOf (dest d : Nat) : Option Conv :=
  let v : Conv := { base := bits d 63 0, c := bits d 79 64, iw := bits d 95 80, ih := bits d 111 96, n := bits d 127 112,
                    pitchy := bits d 191 128, pitchz := bits d 255 192, kw := bits d 263 256, kh := bits d 271 264,
                    stride := bits d 275 272, dil := bits d 279 276, pad := bits d 287 280, cb := bits d 303 288,
                    elog := bits d 306 304, rows := bits d 335 320 }
  let e := 2 ^ v.elog
  if bits d 319 307 ≠ 0 ∨ bits d 351 336 ≠ 0 ∨ bits d 511 352 ≠ 0 ∨ 4 < v.elog
     ∨ v.c = 0 ∨ v.iw = 0 ∨ v.ih = 0 ∨ v.n = 0 ∨ v.kw = 0 ∨ v.kh = 0 ∨ v.stride = 0 ∨ v.dil = 0 ∨ v.cb = 0 ∨ v.rows = 0
     ∨ v.base % e ≠ 0 ∨ dest % e ≠ 0 ∨ v.out v.iw v.kw < 1 ∨ v.out v.ih v.kh < 1
     ∨ 2 ^ 32 < v.rows * (v.kh * v.kw * v.cb) * e then none
  else some v

/-- The runs of one output row (R246). -/
def Conv.rowRuns (v : Conv) (p0 c0 dest r : Nat) : List Run :=
  let e := 2 ^ v.elog
  let ow := (v.out v.iw v.kw).toNat
  let oh := (v.out v.ih v.kh).toNat
  let len := v.kh * v.kw * v.cb
  let dst := dest + r * len * e
  let p := p0 + r
  if v.n * oh * ow ≤ p then [{ dst := dst, len := len * e, src := .zero }]
  else
    let n := p / (oh * ow)
    let oy := p % (oh * ow) / ow
    let ox := p % ow
    (List.range (v.kh * v.kw)).flatMap (fun q =>
      let iy := ((oy * v.stride : Nat) : Int) - v.pad + ((q / v.kw * v.dil : Nat) : Int)
      let ix := ((ox * v.stride : Nat) : Int) - v.pad + ((q % v.kw * v.dil : Nat) : Int)
      let inside := decide (0 ≤ iy) && decide (iy < v.ih) && decide (0 ≤ ix) && decide (ix < v.iw)
      let have_ := if inside then min v.cb (v.c - c0) else 0
      let a := v.base + n * v.pitchz + iy.toNat * v.pitchy + (ix.toNat * v.c + c0) * e
      let d := dst + q * v.cb * e
      [({ dst := d, len := have_ * e, src := .mem a } : Run),
       { dst := d + have_ * e, len := (v.cb - have_) * e, src := .zero }].filter (fun r => r.len != 0))

/-- R246: `copy.conv`, given the descriptor. -/
def planConv (o : List Word) (v : Conv) : List Run :=
  (List.range v.rows).flatMap (v.rowRuns (octW o 4) (octW o 5 % 2 ^ 16) (octP o 2))

/-- Whether the octet of `qcopy` passes its checks (R247). -/
def qcopyOk (o : List Word) : Bool :=
  let fmt := bits (octW o 6) 13 11
  let kb := bits (octW o 6) 10 0
  octP o 0 % 4 == 0 && octP o 2 % 64 == 0 && octP o 4 % 2 == 0 && bits (octW o 6) 31 16 != 0 && bits (octW o 6) 15 14 == 0
  && decide (4 ≤ fmt) && decide (fmt ≤ 6) && decide (1 ≤ kb) && decide (kb ≤ 1024) && octW o 7 % 4 == 0

/-- The entries of a permutation table of `n` entries held in a number (R112). -/
def permOf (v n : Nat) : List Nat := (List.range n).map (fun j => bits v (16 * j + 15) (16 * j))

/-- R247: `qcopy`, given the permutation. -/
def planQcopy (o : List Word) (perm : List Nat) : List Run :=
  let fmt := bits (octW o 6) 13 11
  let kb := bits (octW o 6) 10 0
  (List.range (bits (octW o 6) 31 16 * kb)).map (fun i =>
    let elems := ((perm.drop (64 * (i % kb))).take 64).map (fun c => octP o 0 + i / kb * octW o 7 + 4 * c)
    { dst := octP o 2 + 64 * i, len := 64, src := .block fmt elems })

/-- The plan of a command of the copy family: its octet and what it points to checked (R239 to R247). -/
def State.engPlan (s : State) (t : Team) (c : Cmd) : State × Eng (List Run) :=
  let o := c.octet
  match c.fn with
  | 0 => (s, planCopy o)
  | 4 =>
    let n := 64 * bits (octW o 6) 10 0
    if !qcopyOk o then (s, .bad 0x01 0)
    else if octP o 4 = 0 then (s, .ok (planQcopy o (List.range n)))
    else
      match s.engRead t c.slice c.bad (octP o 4) (2 * n) with
      | (s, .wait) => (s, .wait)
      | (s, .bad e a) => (s, .bad e a)
      | (s, .ok v) =>
        if (permOf v n).any (fun e => decide (n ≤ e)) then (s, .bad 0x03 (octP o 4))
        else (s, .ok (planQcopy o (permOf v n)))
  | fn =>
    let res := if fn = 3 then octW o 5 / 2 ^ 16 ≠ 0 ∨ octW o 6 ≠ 0 ∨ octW o 7 ≠ 0
      else octW o 7 / 2 ≠ 0 ∨ (fn = 1 ∧ octW o 6 ≠ 0)
    if res ∨ octP o 0 % 64 ≠ 0 then (s, .bad 0x01 0)
    else
      match s.engRead t c.slice c.bad (octP o 0) 64 with
      | (s, .wait) => (s, .wait)
      | (s, .bad e a) => (s, .bad e a)
      | (s, .ok d) =>
        if fn = 3 then
          match convOf (octP o 2) d with
          | some v => (s, .ok (planConv o v))
          | none => (s, .bad 0x01 0)
        else
          match tensorOf (fn == 2) (octP o 2) d with
          | some v => (s, .ok (planTile o v))
          | none => (s, .bad 0x01 0)

/-- The ranges a run reads. -/
def Run.reads (r : Run) : List (Nat × Nat) :=
  match r.src with
  | .zero => []
  | .mem va => [(va, r.len)]
  | .block _ es => es.map (fun a => (a, 4))
  | .data _ => []

/-- The checks of every page that a command will touch, before its first write: the translations it takes into use
(R240). -/
def State.engCheckAll (s : State) (t : Team) (bad : List (Nat × Need)) : List (Need × Nat × Nat) → State × Eng (List Leaf)
  | [] => (s, .ok [])
  | (n, va, len) :: rest =>
    match s.engCheck t bad n va len with
    | (s, .ok ps) =>
      match s.engCheckAll t bad rest with
      | (s, .ok ls) => (s, .ok (dedup (ps.map (fun p => p.leaf) ++ ls)))
      | (s, .wait) => (s, .wait)
      | (s, .bad c a) => (s, .bad c a)
    | (s, .wait) => (s, .wait)
    | (s, .bad c a) => (s, .bad c a)

/-- The ranges a plan touches, each with what is done there. -/
def Run.touches (r : Run) : List (Need × Nat × Nat) :=
  (Need.store, r.dst, r.len) :: r.reads.map (fun x => (Need.load, x.1, x.2))

/-- The pieces of a range under the translations that a command holds (R240). -/
def heldPieces (held : List Leaf) (va len : Nat) : List Piece :=
  (pieces 128 va len).filterMap (fun q => (held.find? (fun l => l.covers q.1)).map (fun l =>
    { va := q.1, pa := l.addr q.1, size := q.2, leaf := l }))

/-- The words at a list of addresses, read by an engine. -/
def State.engWords (s : State) (t : Team) (k : Nat) (held : List Leaf) : List Nat → State × Eng (List Nat)
  | [] => (s, .ok [])
  | a :: rest =>
    match s.engReadAt t k a (heldPieces held a 4) with
    | (s, .wait) => (s, .wait)
    | (s, .bad c x) => (s, .bad c x)
    | (s, .ok v) =>
      match s.engWords t k held rest with
      | (s, .ok vs) => (s, .ok (v :: vs))
      | (s, .wait) => (s, .wait)
      | (s, .bad c x) => (s, .bad c x)

/-- The data of a run, read when its granule is written (R148). -/
def State.runData (s : State) (t : Team) (k : Nat) (held : List Leaf) (r : Run) : State × Eng Nat :=
  match r.src with
  | .zero => (s, .ok 0)
  | .mem va => s.engReadAt t k va (heldPieces held va r.len)
  | .data b => (s, .ok (natOfBytes (b.take r.len)))
  | .block w es =>
    match s.engWords t k held es with
    | (s, .ok xs) => (s, .ok (natOfBytes (quantBlock w xs)))
    | (s, .wait) => (s, .wait)
    | (s, .bad c x) => (s, .bad c x)

/-- The state after the runs of one granule are carried out. A granule that must wait is tried again whole (R241). -/
def State.runGranule (s : State) (t : Team) (k : Nat) (held : List Leaf) : List Run → State × Eng Unit
  | [] => (s, .ok ())
  | r :: rest =>
    match s.runData t k held r with
    | (s, .wait) => (s, .wait)
    | (s, .bad c x) => (s, .bad c x)
    | (s, .ok v) =>
      match s.engWriteAt t k v (heldPieces held r.dst r.len) with
      | (s, .ok _) => s.runGranule t k held rest
      | (s, .wait) => (s, .wait)
      | (s, .bad c x) => (s, .bad c x)

/-- The state with a command of a team changed. -/
def State.setCmd (s : State) (u id : Nat) (f : Cmd → Cmd) : State :=
  s.setTeam u (fun t => { t with cmds := t.cmds.map (fun c => if c.id = id then f c else c) })

/-- The state after a command comes to wait for the host translation that the state names (R369). -/
def State.cmdWaits (s : State) (u id : Nat) : State :=
  match s.want with
  | none => s
  | some w => { s.setCmd u id (fun c => { c with wants := if c.wants.contains w then c.wants else c.wants ++ [w] }) with want := none }

/-- The state after granules are carried out one after another, each counted in the command's progress (R241). -/
def State.runGranules (s : State) (t : Team) (c : Cmd) : List (List Run) → State × Eng Unit
  | [] => (s, .ok ())
  | g :: rest =>
    match s.runGranule t c.slice c.held g with
    | (s, .ok _) => (s.setCmd t.uid c.id (fun c => { c with progress := c.progress + 1 })).runGranules t c rest
    | (s, .wait) => (s, .wait)
    | (s, .bad e a) => (s, .bad e a)

/-- The events of a slice that precede a command's issue and have not been performed are performed (R147). -/
def State.forceOlder (s : State) (u k id : Nat) : State :=
  s.force (fun op _ => op.team == u && op.slice == k && decide (op.id < id))

/-- Whether some event of a slice that precedes a command's issue is still to come (R147). -/
def State.olderLeft (s : State) (u k id : Nat) : Bool :=
  s.pend.any (fun p => p.team == u && p.slice == k && decide (p.id < id)
    && p.accs.any (fun x => x.2.open_ || x.2.coming?.isSome))

/-- The plan of a command of the copy family and the translations it holds: made once, with every check, before its
first write, and kept for the command; the pages are then in use under their policy (R125, R130, R240). -/
def State.planned (s : State) (t : Team) (c : Cmd) : State × Eng Cmd :=
  match c.plan with
  | some _ => (s, .ok c)
  | none =>
    match s.engPlan t c with
    | (s, .wait) => (s, .wait)
    | (s, .bad e a) => (s, .bad e a)
    | (s, .ok rs) =>
      match s.engCheckAll t c.bad (((granules rs).drop c.progress).flatMap (fun g => g.flatMap Run.touches)) with
      | (s, .wait) => (s, .wait)
      | (s, .bad e a) => (s, .bad e a)
      | (s, .ok held) =>
        let c' := { c with plan := some rs, held := held }
        ((held.foldl (fun s l => s.mark t.core t.asid l) s).setCmd t.uid c.id (fun x => { x with plan := some rs, held := held }),
          .ok c')

/-- A command of the copy family carried on from its restart point, for at most `limit` granules; it completes when the
last is done (R238, R240, R241). -/
def State.runCopy (s : State) (t : Team) (c : Cmd) (limit : Option Nat) : State :=
  let s := s.forceOlder t.uid c.slice c.id
  match (if s.olderLeft t.uid c.slice c.id then (s, .wait) else s.planned t c) with
  | (s, .wait) => s.cmdWaits t.uid c.id
  | (s, .bad e a) => s.finishCmd t.uid c e 0 a
  | (s, .ok c) =>
    let left := (granules (c.plan.getD [])).drop c.progress
    let now := match limit with
      | some n => left.take n
      | none => left
    match s.runGranules t c now with
    | (s, .wait) => s
    | (s, .bad e a) => s.finishCmd t.uid c e 0 a
    | (s, .ok _) => if limit.isSome && decide (now.length < left.length) then s else s.finishCmd t.uid c 0 0 0

/-! ## Prefetch (R248) -/

/-- Whether a prefetch passes over the page of an address; none while the host is waited for. -/
def State.prefPage (s : State) (t : Team) (bad : List (Nat × Need)) (va : Nat) : State × Option (Bool × Option Leaf) :=
  match s.translate t.part t.core t.asid va .load false bad with
  | (s, none) => (s, none)
  | (s, some (.error _)) => (s, some (true, none))
  | (s, some (.ok l)) =>
    let skip := (s.policyFault t.core l (l.addr va) .load false).isSome || l.home == .nocache || l.home == .spad || l.share == .dev
    (s, some (skip, some l))

/-- The pages of a prefetch, 4 KiB at a time: the granules of 64 KiB passed over, and the pieces to fetch. -/
def State.prefPages (s : State) (t : Team) (bad : List (Nat × Need)) :
    List (Nat × Nat) → List Nat → List (Nat × Nat × Leaf) → State × Option (List Nat × List (Nat × Nat × Leaf))
  | [], skipped, got => (s, some (skipped, got))
  | (va, n) :: rest, skipped, got =>
    match s.prefPage t bad va with
    | (s, none) => (s, none)
    | (s, some (true, _)) => s.prefPages t bad rest (insertNat (va / 65536) skipped) got
    | (s, some (false, some l)) => s.prefPages t bad rest skipped (got ++ [(va, n, l)])
    | (s, some (false, none)) => s.prefPages t bad rest skipped got

/-- A `pref` command carried out: the sectors are fetched, or fetched and dropped again, as the device chooses
(R248). -/
def State.runPref (s : State) (t : Team) (c : Cmd) : State :=
  let o := c.octet
  let va := octP o 0
  let n := octW o 4
  if octP o 2 ≠ 0 ∨ octW o 5 ≠ 0 ∨ octW o 6 ≠ 0 ∨ octW o 7 ≠ 0 ∨ 0x1000000 < n then s.finishCmd t.uid c 0x01 0 0
  else if n ≠ 0 ∧ !canonicalRange va n then s.finishCmd t.uid c 0x02 0 va
  else
    match s.prefPages t c.bad (pieces 4096 va n) [] [] with
    | (s, none) => s.cmdWaits t.uid c.id
    | (s, some (skipped, got)) =>
      let k := s.choose 2
      let s := if k.1 = 0 then k.2 else got.foldl (fun s g => (pieces 128 g.1 g.2.1).foldl (fun s q =>
        s.touch t.core t.asid q.1 (g.2.2.addr q.1) g.2.2 false) s) k.2
      s.finishCmd t.uid c (if skipped.isEmpty then 0 else 0x0B) skipped.length 0

/-! ## Issue (R236 to R238, R249) -/

/-- Whether a command completes at once with NOQ: no copy-queue entries, or a catch without catch slots. -/
def Team.noQueue (t : Team) (fn : Nat) : Bool :=
  t.record.copyq == 0 || ((fn == 5 || fn == 6) && t.record.catchSlots == 0)

/-- The room a catch command reserves for its burst bitmap (R397). -/
def bitmapRoom (fn : Nat) (o : List Word) : Nat :=
  if fn = 5 ∨ fn = 6 then 64 * ceilDiv (ceilDiv (octW o 4 % 65536 * bits (octW o 4) 25 16) 8) 64 else 0

/-- The partition after room is reserved for several keys; none when some does not fit. -/
def Part.reserveAll (q : Part) : List (Nat × Nat) → Option Part
  | [] => some q
  | (key, n) :: rest => (q.reserve key n).bind (fun q => q.reserveAll rest)

/-- The reservations of the bitmaps of an issue, keyed by the names the commands will have. -/
def engRooms (fn : Nat) (a : Opd) (t : Team) (p : At) (fresh : Nat) : List (Nat × Nat) :=
  (p.members.zip (List.range p.members.length)).map (fun m =>
    (fresh + m.2, ((t.slice? m.1).map (fun sl => bitmapRoom fn (sl.octet a))).getD 0))

/-- Whether a command holds a copy-queue entry: the oldest of the team's commands do, as many as there are entries
(R238; log 39). -/
def Team.inQueue (t : Team) (id : Nat) : Bool := (t.cmds.take t.record.copyq).any (fun c => c.id == id)

/-- An ENG word stalls while the copy queue, or the context pool for its bitmap, has no room for the sub-crew; one of more
slices than there are entries issues into an empty queue, and its further commands wait for entries (R238, R397;
log 39). -/
def engWaits (fn : Nat) (a : Opd) (p : At) (s : State) : Option State :=
  match s.team? p.team with
  | none => none
  | some t =>
    if t.noQueue fn then none
    else if t.record.copyq < t.cmds.length + min p.members.length t.record.copyq
        || ((s.part t.part).reserveAll (engRooms fn a t p s.fresh)).isNone then
      some (s.stall p.team (p.members.headD 0))
    else none

/-- The command of a slice. -/
def engCmd (fn : Nat) (d a : Opd) (p : At) (sl : Slice) (id : Nat) : Cmd where
  id := id
  slice := sl.idx
  fn := fn
  octet := sl.octet a
  dst := d
  flag := p.flag
  cls := sl.cls
  progress := 0
  finished := []
  failed := 0
  code := 0
  items := []
  pc := pcWord p.hdr p.ix sl.exec.toNat
  wants := []
  bad := []
  plan := none
  held := []
  arrived := []

/-- The effect of an ENG word in a slice: the octet is read, the flag attached, and the command queued or completed at
once with NOQ (R236 to R238). -/
def engOne (fn : Nat) (d a : Opd) (p : At) (k : Nat) (s : State) : State :=
  match s.team? p.team, s.slice? p.team k with
  | some t, some sl =>
    let c := engCmd fn d a p sl s.fresh
    let s := { s with fresh := s.fresh + 1 }
    let s := s.setSlice p.team k (fun sl => (sl.attach p.flag).advance)
    if t.noQueue fn then s.finishCmd p.team c 0x04 0 0
    else
      let s := s.setPart t.part (fun q => (q.reserve c.id (bitmapRoom fn c.octet)).getD q)
      s.setTeam p.team (fun t => { t with cmds := t.cmds ++ [c] })
  | _, _ => s

/-- The issue of an ENG word. -/
def issueEng (i : Instr) (fn : Nat) (d a : Opd) (s : State) : Host.Outcome State Fault Refusal :=
  issueWith i (engWaits fn a) (eachMember (engOne fn d a)) s

/-- R242: `copy`. -/
def execCopy (d a : Opd) (s : State) : Host.Outcome State Fault Refusal := issueEng (.copy d a) 0 d a s

/-- R244: `copy.t2`. -/
def execCopyT2 (d a : Opd) (s : State) : Host.Outcome State Fault Refusal := issueEng (.copyT2 d a) 1 d a s

/-- R244: `copy.t3`. -/
def execCopyT3 (d a : Opd) (s : State) : Host.Outcome State Fault Refusal := issueEng (.copyT3 d a) 2 d a s

/-- R246: `copy.conv`. -/
def execCopyConv (d a : Opd) (s : State) : Host.Outcome State Fault Refusal := issueEng (.copyConv d a) 3 d a s

/-- R247: `qcopy`. -/
def execQcopy (d a : Opd) (s : State) : Host.Outcome State Fault Refusal := issueEng (.qcopy d a) 4 d a s

/-- R249: `catch`. -/
def execCatchL (d a : Opd) (s : State) : Host.Outcome State Fault Refusal := issueEng (.catchL d a) 5 d a s

/-- R249: `catch.t2`. -/
def execCatchT2 (d a : Opd) (s : State) : Host.Outcome State Fault Refusal := issueEng (.catchT2 d a) 6 d a s

/-- R248: `pref`. -/
def execPref (d a : Opd) (s : State) : Host.Outcome State Fault Refusal := issueEng (.pref d a) 7 d a s

/-! ## Catch commands (R249 to R254) -/

/-- The status with which a catch command ends before any burst is read: a bad descriptor, or a list out of range. -/
def Cmd.catchFails (c : Cmd) : Option (Nat × Nat) :=
  let o := c.octet
  let size := bits (octW o 4) 25 16
  let bad := octP o 0 % 128 ≠ 0 ∨ octW o 5 / 2 ^ 26 ≠ 0 ∨ octW o 5 % 4 ≠ 0 ∨ octW o 7 ≠ 0 ∨ size = 0 ∨ 512 < size ∨ octW o 4 % 65536 = 0
    ∨ (if c.fn = 6 then octW o 2 % 128 ≠ 0 ∨ octW o 3 ≠ 0 ∨ octW o 4 / 2 ^ 26 ≠ 0 else octP o 2 % 4 ≠ 0 ∨ bit (octW o 4) 26 = true)
  if bad then some (0x01, 0)
  else if c.fn = 5 ∧ !canonicalRange (octP o 2) (4 * (octW o 4 % 65536)) then some (0x02, octP o 2)
  else none

/-- A command of a running team that holds a copy-queue entry, and so may go on: at the halt every command stops (R241,
R389). -/
def State.cmd? (s : State) (u id : Nat) : Option (Team × Cmd) :=
  match s.team? u with
  | none => none
  | some t =>
    if t.inQueue id && t.st == .running then (t.cmds.find? (fun c => c.id == id)).map (fun c => (t, c)) else none

/-- R238: an engine command goes on, and finishes unless it must wait. A catch command ends here only when its
descriptor is bad; otherwise its last burst ends it (R254). -/
def execEngineCommandComplete (team cmd : Nat) (s : State) : Host.Outcome State Fault Refusal :=
  match s.cmd? team cmd with
  | none => .next s
  | some (t, c) =>
    if c.isCatch then
      match c.catchFails with
      | some (code, va) => .next ((s.finishCmd team c code 0 va).settle team)
      | none => .next s
    else if c.fn = 7 then .next ((s.runPref t c).settle team)
    else .next ((s.runCopy t c none).settle team)

/-- The state after an engine command carries out some of its granules: other agents may find it half done (R148). -/
def State.engineStep (s : State) (team cmd n : Nat) : State :=
  match s.cmd? team cmd with
  | some (t, c) => if t.halt.isNone && c.fn < 5 then (s.runCopy t c (some n)).settle team else s
  | none => s

/-- The list entry of an item, read once: a code of a failed read, or 0 and the entry (R249). -/
def State.catchItem (s : State) (t : Team) (c : Cmd) (q : Nat) : State × Option (Nat × Nat) :=
  if c.fn = 6 then (s, some (0, q))
  else
    match c.items.find? (fun x => x.1 == q) with
    | some x => (s, some x.2)
    | none =>
      let r := match s.engRead t c.slice c.bad (octP c.octet 2 + 4 * q) 4 with
        | (s, .wait) => (s, none)
        | (s, .bad e _) => (s, some (e, 0))
        | (s, .ok v) => (s, some (0, v))
      match r.2 with
      | none => (r.1, none)
      | some x => (r.1.setCmd t.uid c.id (fun c => { c with items := c.items ++ [(q, x.1, x.2)] }), some x)

/-- The address of an item from its list entry (R249). -/
def Cmd.itemAddr (c : Cmd) (q e : Nat) : Nat :=
  let o := c.octet
  if c.fn = 6 then octP o 0 + q * octW o 2
  else octP o 0 + e % 2 ^ (bits (octW o 4) 31 27 + 1) * 128 * bits (octW o 4) 25 16

/-- The lowest free catch slot of a team, by the index of its thread. -/
def Team.freeSlot (t : Team) : Option Nat :=
  (findBelow t.record.catchSlots (fun k => t.slices.all (fun sl => sl.idx != 64 + k))).map (64 + ·)

/-- A handler thread in a catch slot (R87, R251). -/
def handlerThread (c : Cmd) (owner : Option Slice) (idx burst q m e v : Nat) : Slice :=
  let sl := Slice.blank idx (octW c.octet 5 % 2 ^ 26) 2
  { sl with
    sregs := nset [] 0 (BitVec.ofNat 32 (octW c.octet 6)),
    vregs := (List.range 32).foldl (fun r i => nset r (4 * (i % 8) + i / 8) (BitVec.ofNat 32 (v >>> (32 * i)))) [],
    role := (owner.map (fun sl => sl.role)).getD 0, cls := c.cls, roleCls := c.cls,
    thread := some { cmd := c.id, burst := burst, bc0 := BitVec.ofNat 32 q, bc1 := BitVec.ofNat 32 (128 * m),
                     bc2 := BitVec.ofNat 32 e, owner := c.slice, words := 0, fail := none } }

/-- The state after a handler thread starts (R250, R251). -/
def State.startHandler (s : State) (t : Team) (c : Cmd) (idx burst q m e v : Nat) : State :=
  let th := handlerThread c (t.slice? c.slice) idx burst q m e v
  let s := s.setTeam t.uid (fun t => { t with
    slices := t.slices ++ [th],
    subs := t.subs ++ [{ members := [idx], entry := false, stalled := false, joined := false, seq := s.fresh,
                         wants := none, bad := [], accepted := none }] })
  s.askEntry t.uid idx

/-- Whether a burst of a catch command is still to be read: not ended, failed, running, or arrived (R241, R250). -/
def Team.burstDue (t : Team) (c : Cmd) (burst : Nat) : Bool :=
  c.isCatch && c.catchFails.isNone && decide (burst < c.bursts) && !c.finished.contains burst
  && c.arrived.all (fun b => b.burst != burst)
  && t.slices.all (fun sl => match sl.thread with
    | some th => !(th.cmd == c.id && th.burst == burst)
    | none => true)

/-- The state after a burst fails; what the host has refused is asked for anew by the others (R369). -/
def State.failBurst (s : State) (u cmd burst code : Nat) : State :=
  (s.setCmd u cmd (fun c => { c with bad := [] })).endBurst u cmd burst (some code)

/-- The state after a burst that has arrived starts its handler in a free slot, or waits for one (R250). -/
def State.placeBurst (s : State) (t : Team) (c : Cmd) (b : Burst) : State :=
  match t.freeSlot with
  | some idx =>
    (s.setCmd t.uid c.id (fun c => { c with arrived := c.arrived.filter (fun x => x.burst != b.burst) })).startHandler t c idx
      b.burst b.item b.part b.entry b.data
  | none => s.setCmd t.uid c.id (fun c => { c with arrived := c.arrived.filter (fun x => x.burst != b.burst) ++ [b] })

/-- The state after a burst arrives whole and starts its handler in a free catch slot, or waits in the engine for one, or
fails a check and runs none; for one that waits, the event is the start of its handler (R250). -/
def State.burstArrives (s : State) (team cmd burst : Nat) : State :=
  match s.cmd? team cmd with
  | none => s
  | some (t, c) =>
    match c.arrived.find? (fun b => b.burst == burst) with
    | some b => s.placeBurst t c b
    | none =>
      if t.burstDue c burst then
        let s := s.forceOlder team c.slice c.id
        let size := bits (octW c.octet 4) 25 16
        let q := burst / size
        let m := burst % size
        match (if s.olderLeft team c.slice c.id then (s, none) else s.catchItem t c q) with
        | (s, none) => s.cmdWaits team cmd
        | (s, some (code, e)) =>
          if code ≠ 0 then (s.failBurst team cmd burst code).settle team
          else
            match s.engRead t c.slice c.bad (c.itemAddr q e + 128 * m) 128 with
            | (s, .wait) => s.cmdWaits team cmd
            | (s, .bad code _) => (s.failBurst team cmd burst code).settle team
            | (s, .ok v) => s.placeBurst t c { burst := burst, item := q, part := m, entry := e, data := v }
      else s

/-- R250: a burst arrives whole and starts its handler in a free catch slot, waits for one, or fails a check. -/
def execCatchBurstArrival (team cmd burst : Nat) (s : State) : Host.Outcome State Fault Refusal :=
  .next (s.burstArrives team cmd burst)

end Sys2Proof.Machine
end

