-- ==== Sys2Proof/Machine/MatrixMath.lean ====
section
/-! DEFINITION. The arithmetic of the matrix engine: segment sums, accumulation, signatures and skip decisions, and the
conversions of a drain (R113, R114, R276, R279, R280). -/

namespace Sys2Proof.Machine

/-- A cell or an element of a row: an L6 code with its effective scale, or a bfloat16 value with scale 0 (R261). -/
abbrev Cell := BitVec 16 × Int

/-- A list cut into pieces of `n`. -/
def chunks {α : Type} (n : Nat) (l : List α) : List (List α) :=
  (List.range (ceilDiv l.length n)).map (fun i => (l.drop (n * i)).take n)

/-- The exact sum of finite values, each `± m × 2^e`; an exact zero is +0 (R113, R114). -/
def exactSum (l : List (Bool × Nat × Int)) : Fp :=
  let c : Int := (l.map (fun x => x.2.2)).foldl min (0 : Int)
  let v : Int := (l.map (fun x => scaled x.1 x.2.1 x.2.2 c)).foldl (· + ·) (0 : Int)
  .num (decide (v < 0)) v.natAbs c

/-- Whether an L6 code is NaR (R97). -/
def isNar (c : Nat) : Bool := c % 64 == 32

/-- Whether an L6 code is zero. -/
def isLZero (c : Nat) : Bool := c % 64 == 0

/-- The product of two L elements, neither NaR nor zero (R113). -/
def lProduct (a b : Cell) : Bool × Nat × Int :=
  let x := a.1.toNat
  let y := b.1.toNat
  let g := grid ((x % 32 : Nat) - 16 + ((y % 32 : Nat) - 16) + a.2 + b.2)
  (bit x 5 != bit y 5, g.1, g.2)

/-- The sum of one L segment as a binary32 code (R113). -/
def lSegment (a b : List Cell) : Nat :=
  let ps := a.zip b
  if ps.any (fun p => isNar p.1.1.toNat || isNar p.2.1.toNat) then f32.nanCode
  else
    let on := ps.filter (fun p => !isLZero p.1.1.toNat && !isLZero p.2.1.toNat)
    (f32.round .rne (exactSum (on.map (fun p => lProduct p.1 p.2)))).1

/-- A product term of a BF16 group cut toward zero at `2^(emax − 50)` (R114). -/
def truncTerm (emax : Int) (x : Bool × Nat × Int) : Bool × Nat × Int :=
  let base := emax - 50
  if x.2.2 < base then (x.1, x.2.1 >>> (base - x.2.2).toNat, base) else x

/-- The sum of one BF16 group as a binary32 code (R114). -/
def bfGroup (a b : List Cell) : Nat :=
  let ps := (a.zip b).map (fun p => (bf16.decode p.1.1.toNat, bf16.decode p.2.1.toNat))
  let prods := ps.map (fun p => if p.1.isNan || p.2.isNan then none else mulFp p.1 p.2)
  if prods.any Option.isNone then f32.nanCode
  else
    let vs := prods.filterMap id
    let infs := vs.filterMap (fun v => match v with
      | .inf n => some n
      | .nan _ | .num _ _ _ => none)
    if infs.contains true && infs.contains false then f32.nanCode
    else
      match infs with
      | n :: _ => f32.signCode n + f32.infCode
      | [] =>
        let ts := vs.filterMap (fun v => match v with
          | .num n m e => if m = 0 then none else some (n, m, e)
          | .nan _ | .inf _ => none)
        match ts with
        | [] => 0
        | t :: _ =>
          let top := fun (x : Bool × Nat × Int) => (x.2.1.log2 : Int) + x.2.2
          let emax := (ts.map top).foldl max (top t)
          (f32.round .rne (exactSum (ts.map (truncTerm emax)))).1

/-- An accumulator after a row of A meets a column of B: segments in ascending K (R113, R114). -/
def accumulate (bf : Bool) (acc : Nat) (row col : List Cell) : Nat :=
  let n := if bf then 16 else 64
  ((chunks n row).zip (chunks n col)).foldl (fun acc p =>
    let s := if bf then bfGroup p.1 p.2 else lSegment p.1 p.2
    (f32.add .rne (f32.decode acc) (f32.decode s)).1) acc

/-- binary64 (R279). -/
def f64 : Fmt := { eb := 11, fb := 52 }

/-- The magnitude of a value. -/
def Fp.abs : Fp → Fp
  | .nan s => .nan s
  | .inf _ => .inf false
  | .num _ m e => .num false m e

/-- The exact value of an element (R279). -/
def cellValue (bf : Bool) (c : Cell) : Fp :=
  if bf then bf16.decode c.1.toNat else lValue c.1.toNat c.2

/-- The signature of a row-tile: SV and SA as binary64 codes (R279). -/
def signature (bf : Bool) (rows : List (List Cell)) : Nat × Nat :=
  rows.foldl (fun acc row => row.foldl (fun (acc : Nat × Nat) c =>
    let v := cellValue bf c
    ((f64.add .rne (f64.decode acc.1) v).1, (f64.add .rne (f64.decode acc.2) v.abs).1)) acc) (0, 0)

/-- `|round(x − o)| ≤ th` over binary64 codes; NaN compares false (R280). -/
def within (x o th : Nat) : Bool :=
  let d := (f64.decode (f64.add .rne (f64.decode x) (f64.decode o).neg).1).abs
  let t := f64.decode th
  !d.isNan && !t.isNan && !t.lt d

/-- The skip decision of a row-tile (R280). -/
def skips (force : Bool) (sv sa ov oa thv tha : Nat) : Bool :=
  !force && !(f64.decode ov).isNan && !(f64.decode oa).isNan && within sv ov thv && within sa oa tha

/-- The output bytes of one row of one block: 64 accumulators in a format (R276). -/
def drainRow (fmt : Nat) (xs : List Nat) : List Byte :=
  match fmt with
  | 0 => xs.flatMap (fun x => bytesOfNat 4 x)
  | 1 => xs.flatMap (fun x => bytesOfNat 2 (cvtFmt f32 bf16 .rne x).1)
  | w => quantBlock w xs

end Sys2Proof.Machine
end

