-- ==== Sys2Proof/Machine/Matrix.lean ====
section
/-! DEFINITION. The matrix engine: its holder and queue, `mload`, the MTX class, and the steps of the sequencer (R257 to
R290). -/

namespace Sys2Proof.Machine

/-! ## The engine of a core -/

/-- The matrix engine of a core. -/
def State.engine (s : State) (core : Nat) : Engine := (s.core core).engine

/-- The state with the matrix engine of a core changed. -/
def State.setEngine (s : State) (core : Nat) (f : Engine → Engine) : State :=
  s.setCore core (fun c => { c with engine := f c.engine })

/-- The group in a slot, if any (R260). -/
def Engine.slot (e : Engine) (g : Nat) : Option Group := (e.groups.find? (fun x => x.1 == g)).map Prod.snd

/-- The skip slot bound to a region (R278). -/
def Engine.bound (e : Engine) (region : Nat) : Option (Nat × Skip) := e.skips.find? (fun x => x.2.region == region)

/-- The engine with a skip slot set, and marked where that changes it (R400). -/
def Engine.setSkip (e : Engine) (n : Nat) (k : Skip) : Engine :=
  if (n, k) ∈ e.skips then e
  else { e with skips := insertBy Prod.fst (n, k) (e.skips.filter (fun x => x.1 != n)), skipMarks := insertNat n e.skipMarks }

/-- The engine with the skip slots of some kind unbound. -/
def Engine.unbind (e : Engine) (p : Nat × Skip → Bool) : Engine :=
  { e with skips := e.skips.filter (fun x => !p x), skipMarks := ((e.skips.filter p).map Prod.fst).foldl (fun m n => insertNat n m) e.skipMarks }

/-- The engine after its accumulators become `m`; `blocks` are those written (R400). -/
def Engine.setAccs (e : Engine) (m : NMap 32) (blocks : List Nat) : Engine :=
  { e with accs := m, accMarks := blocks.foldl (fun l b => insertNat b l) e.accMarks }

/-- The engine with a queued command changed. -/
def Engine.setCmd (e : Engine) (id : Nat) (f : MCmd → MCmd) : Engine :=
  { e with queue := e.queue.map (fun c => if c.id = id then f c else c) }

/-- The key of accumulator (block, row, column). -/
def accKey (b r c : Nat) : Nat := 1024 * b + 64 * r + c

/-- The accumulators with `n` blocks from `b` at +0 (R271, R274). -/
def zeroBlocks (m : NMap 32) (b n : Nat) : NMap 32 := ndrop m (1024 * b) (1024 * (b + n))

/-- The slice that an engine's memory events are counted to. -/
def MCmd.owner (c : MCmd) : Nat := (c.slices.map Prod.fst).headD 0

/-- The state after a matrix command ends: D and the flags of its slices, a log entry, and its place in the queue
(R267 to R269). `value` is what D receives; `cause` is 0x31 for a format fault of `mload` (R264). -/
def State.finishM (s : State) (t : Team) (c : MCmd) (cause code : Nat) (value : Word) (va : Nat) : State :=
  let s := s.setEngine t.core (fun e => { e with queue := e.queue.filter (fun x => x.id != c.id) })
  let s := c.slices.foldl (fun s x => s.setSlice t.uid x.1 (fun sl => sl.writeUser x.2.1 value)) s
  let s := if code = 0 then s
    else s.logSlice t.uid c.owner cause (if cause = 0x30 then code else 0) 0 (some va) c.pc (some value)
  c.slices.foldl (fun s x => s.dropFlag t.uid x.1 x.2.2.1) s

/-- A matrix command ended with a status (R269). -/
def State.endM (s : State) (t : Team) (c : MCmd) (code count va : Nat) : State :=
  s.finishM t c 0x30 code (statusWord code count) va

/-! ## Macro groups (R260 to R264) -/

/-- The macros of an `mload` octet: first, k, n. -/
def loadMacros (o : List Word) : Nat × Nat × Nat := (bits (octW o 5) 7 4, bits (octW o 5) 12 8, bits (octW o 5) 20 16)

/-- Whether the octet of `mload` passes its checks (R263). -/
def loadOk (o : List Word) : Bool :=
  let m := loadMacros o
  let np := octW o 7
  bits (octW o 5) 31 25 == 0 && bits (octW o 5) 23 21 == 0 && bits (octW o 5) 15 13 == 0 && np / 2 ^ 17 == 0
  && decide (1 ≤ m.2.1) && decide (m.2.1 ≤ 16) && decide (1 ≤ m.2.2) && decide (m.2.2 ≤ 16) && decide (m.1 + m.2.1 * m.2.2 ≤ 16)
  && octP o 0 % 64 == 0 && octP o 2 % 2 == 0 && octW o 4 % 64 == 0
  && (octP o 2 == 0 || (decide (1 ≤ np) && decide (np ≤ 65536) && decide (octW o 6 + 256 * m.2.1 ≤ np)))

/-- The source K positions of a group (R112, R263). -/
def State.loadSources (s : State) (t : Team) (k : Nat) (bad : List (Nat × Need)) (o : List Word) : State × Eng (List Nat) :=
  let n := 256 * (loadMacros o).2.1
  if !loadOk o then (s, .bad 0x01 0)
  else if octP o 2 = 0 then (s, .ok ((List.range n).map (fun j => octW o 6 + j)))
  else
    match s.engRead t k bad (octP o 2 + 2 * octW o 6) (2 * n) with
    | (s, .wait) => (s, .wait)
    | (s, .bad c a) => (s, .bad c a)
    | (s, .ok v) =>
      if (permOf v n).any (fun e => decide (octW o 7 ≤ e)) then (s, .bad 0x03 (octP o 2)) else (s, .ok (permOf v n))

/-- The address of the block of a column that holds a source position, L kind (R263). -/
def blockAddr (o : List Word) (c src : Nat) : Nat := octP o 0 + c * octW o 4 + src / 64 * 64

/-- The ranges of B that a group reads (R240). -/
def loadRanges (o : List Word) (srcs : List Nat) : List (Need × Nat × Nat) :=
  let n := (loadMacros o).2.2
  if bit (octW o 5) 24 then srcs.map (fun x => (Need.load, octP o 0 + x * octW o 4, 64 * n))
  else (List.range (64 * n)).flatMap (fun c => (dedup (srcs.map (fun x => blockAddr o c x))).map (fun a => (Need.load, a, 64)))

/-- What a read of B comes to once every page has been checked: cells, or a failure with whether it is a format
fault. -/
inductive Filled (α : Type) where
  | ok (a : α)
  | wait
  | late (fmt : Bool) (code va : Nat)
  deriving DecidableEq, Repr

/-- The blocks of one column, decoded, by address (R263, R264). -/
def State.columnBlocks (s : State) (t : Team) (k : Nat) (bad : List (Nat × Need)) :
    List Nat → List (Nat × List Cell) → State × Filled (List (Nat × List Cell))
  | [], got => (s, .ok got)
  | a :: rest, got =>
    match s.engRead t k bad a 64 with
    | (s, .wait) => (s, .wait)
    | (s, .bad c x) => (s, .late false c x)
    | (s, .ok v) =>
      match decodeBlock (bytesOfNat 64 v) with
      | none => (s, .late true 0x01 a)
      | some es => s.columnBlocks t k bad rest (got ++ [(a, es.map (fun e => (BitVec.ofNat 16 e.1, e.2)))])

/-- The cells of the columns of an L group (R261, R263), column by column: of several failing blocks the first so met is the one
reported (DESIGN CHOICE, log 73). -/
def State.fillL (s : State) (t : Team) (k : Nat) (bad : List (Nat × Need)) (o : List Word) (srcs : List Nat) :
    List Nat → List (List Cell) → State × Filled (List (List Cell))
  | [], cols => (s, .ok cols)
  | c :: rest, cols =>
    match s.columnBlocks t k bad (dedup (srcs.map (fun x => blockAddr o c x))) [] with
    | (s, .wait) => (s, .wait)
    | (s, .late f e x) => (s, .late f e x)
    | (s, .ok bs) =>
      let col := srcs.map (fun x =>
        ((bs.find? (fun b => b.1 == blockAddr o c x)).bind (fun b => b.2[x % 64]?)).getD (0, 0))
      s.fillL t k bad o srcs rest (cols ++ [col])

/-- The rows of a BF16 group, each as one number. -/
def State.fillRows (s : State) (t : Team) (k : Nat) (bad : List (Nat × Need)) (o : List Word) (n : Nat) :
    List Nat → List Nat → State × Filled (List Nat)
  | [], rows => (s, .ok rows)
  | x :: rest, rows =>
    match s.engRead t k bad (octP o 0 + x * octW o 4) (64 * n) with
    | (s, .wait) => (s, .wait)
    | (s, .bad c a) => (s, .late false c a)
    | (s, .ok v) => s.fillRows t k bad o n rest (rows ++ [v])

/-- The cells of a group read from B (R263). -/
def State.fillCells (s : State) (t : Team) (k : Nat) (bad : List (Nat × Need)) (o : List Word) (srcs : List Nat) :
    State × Filled (List (List Cell)) :=
  let n := (loadMacros o).2.2
  if bit (octW o 5) 24 then
    match s.fillRows t k bad o n srcs [] with
    | (s, .wait) => (s, .wait)
    | (s, .late f e x) => (s, .late f e x)
    | (s, .ok rows) =>
      (s, .ok ((List.range (32 * n)).map (fun c => rows.map (fun v => (BitVec.ofNat 16 (v >>> (16 * c)), 0)))))
  else s.fillL t k bad o srcs (List.range (64 * n)) []

/-- The engine with slot `g` and every other slot whose macros overlap the octet's emptied (R263, R264). -/
def Engine.emptyOver (e : Engine) (o : List Word) : Engine :=
  let m := loadMacros o
  { e with groups := e.groups.filter (fun x => x.1 != bits (octW o 5) 3 0
      && (decide (x.2.mbase + x.2.k * x.2.n ≤ m.1) || decide (m.1 + m.2.1 * m.2.2 ≤ x.2.mbase))) }

/-- A group loaded from an octet: the state, and how it ended: `ok none` when loaded, `ok (some …)` when it failed
after the group began to fill, with whether that was a format fault (R263, R264). -/
def State.loadGroup (s : State) (t : Team) (k : Nat) (bad : List (Nat × Need)) (o : List Word) :
    State × Eng (Option (Bool × Nat × Nat)) :=
  match s.loadSources t k bad o with
  | (s, .wait) => (s, .wait)
  | (s, .bad c a) => (s, .bad c a)
  | (s, .ok srcs) =>
    match s.engCheckAll t bad (loadRanges o srcs) with
    | (s, .wait) => (s, .wait)
    | (s, .bad c a) => (s, .bad c a)
    | (s, .ok _) =>
      match s.fillCells t k bad o srcs with
      | (s, .wait) => (s, .wait)
      | (s, .late f c a) => (s.setEngine t.core (fun e => e.emptyOver o), .ok (some (f, c, a)))
      | (s, .ok cells) =>
        let m := loadMacros o
        let g : Group := { mbase := m.1, k := m.2.1, n := m.2.2, bf16 := bit (octW o 5) 24, octet := o, cells := cells }
        (s.setEngine t.core (fun e =>
          let e := e.emptyOver o
          { e with groups := insertBy Prod.fst (bits (octW o 5) 3 0, g) e.groups }), .ok none)

/-- `mload` at the sequencer (R263, R264). -/
def State.runLoad (s : State) (t : Team) (c : MCmd) : State :=
  match s.loadGroup t c.owner c.bad c.octet with
  | (s, .wait) => s
  | (s, .bad e a) => s.endM t c e 0 a
  | (s, .ok none) => s.endM t c 0 0 0
  | (s, .ok (some (f, e, a))) => s.finishM t c (if f then 0x31 else 0x30) e (statusWord e 0) a

/-! ## Step regions (R277, R278) -/

/-- A step-region descriptor (R277). -/
structure Region where
  sig : Nat
  out : Nat
  skip : Nat
  thv : Nat
  tha : Nat
  tiles : Nat
  phase : Nat
  force : Bool
  pitch : Nat
  deriving DecidableEq, Repr

/-- The region that 64 bytes describe; none when their contents are bad (R277). Any SKIPBASE is taken as aligned: the spec names
no alignment of it (DESIGN CHOICE, log 73). -/
def regionOf (d : Nat) : Option Region :=
  let r : Region := { sig := bits d 63 0, out := bits d 127 64, skip := bits d 191 128, thv := bits d 255 192,
                      tha := bits d 319 256, tiles := bits d 335 320, phase := bits d 375 352, force := bit d 383,
                      pitch := bits d 415 384 }
  if bits d 351 336 ≠ 0 ∨ bits d 382 376 ≠ 0 ∨ bits d 511 416 ≠ 0 ∨ r.tiles = 0 ∨ 4096 < r.tiles ∨ r.sig % 16 ≠ 0
     ∨ r.out % 64 ≠ 0 ∨ r.pitch % 64 ≠ 0 then none
  else some r

/-- The descriptor of a region as a command reads it (R277). -/
def State.readRegion (s : State) (t : Team) (c : MCmd) (addr : Nat) : State × Eng (Nat × Region) :=
  match s.engRead t c.owner c.bad addr 64 with
  | (s, .wait) => (s, .wait)
  | (s, .bad e a) => (s, .bad e a)
  | (s, .ok d) =>
    match regionOf d with
    | some r => (s, .ok (d, r))
    | none => (s, .bad 0x01 addr)

/-- The engine after a region is bound under a phase; none when no slot is free (R278). -/
def Engine.bind (e : Engine) (region phase : Nat) : Option Engine :=
  match e.bound region with
  | some (n, k) =>
    if k.phase.toNat = phase then some e else some (e.setSkip n { k with phase := BitVec.ofNat 24 phase, bits := 0 })
  | none =>
    (findBelow 8 (fun n => !e.skips.any (fun x => x.1 == n))).map (fun n =>
      e.setSkip n { region := region, phase := BitVec.ofNat 24 phase, bits := 0 })

/-! ## Steps (R270, R271, R279 to R283) -/

/-- The fields of the octet of `mloop`, `mloops` and `msig` (R270). -/
structure LoopF where
  abase : Nat
  arowp : Nat
  ainc : Int
  t0 : Nat
  steps : Nat
  zf : Bool
  loc : Bool
  accinc : Nat
  acc : Nat
  ginc : Bool
  grp : Nat
  region : Nat
  deriving DecidableEq, Repr

/-- The fields of an octet (R270). -/
def loopOf (o : List Word) : LoopF :=
  let w5 := octW o 5
  { abase := octP o 0, arowp := octW o 2, ainc := octI o 3, t0 := octW o 4 / 2 ^ 16, steps := octW o 4 % 2 ^ 16, zf := bit w5 17,
    loc := bit w5 16, accinc := bits w5 15 12, acc := bits w5 11 8, ginc := bit w5 4, grp := bits w5 3 0, region := octP o 6 }

/-- Whether the octet fails a check: FN 0 `mloop`, 1 `mloops`, 5 `msig` (R270, R271, R281, R283). -/
def loopBad (fn : Nat) (o : List Word) : Bool :=
  let f := loopOf o
  bits (octW o 5) 31 18 != 0 || bits (octW o 5) 7 5 != 0 || f.steps == 0 || f.abase % 64 != 0 || f.arowp % 64 != 0
  || f.ainc.emod 64 != 0 || (f.loc && octW o 1 != 0)
  || (if fn = 0 then f.t0 != 0 || f.region != 0 || (f.ginc && decide (15 < f.grp + f.steps - 1))
      else f.ginc || decide (4095 < f.t0) || f.region % 64 != 0)

/-- A read of A: from the team's scratchpad allocation by offset, or by virtual address (R270, R271). -/
def State.readA (s : State) (t : Team) (c : MCmd) (loc : Bool) (a : Int) (n : Nat) : State × Eng Nat :=
  if loc then
    if a < 0 ∨ 128 * t.record.scratch < a.toNat + n then (s, .bad 0x02 (eaOf a))
    else
      let ps := (pieces 128 (t.scratch + a.toNat) n).map (fun p =>
        ({ va := p.1, pa := p.1, size := p.2, leaf := localLeaf } : Piece))
      if s.engPast t c.owner ps false then (s, .wait)
      else
        let r := s.readPieces (engWho t c.owner) t.asid true ps 0
        if r.2.2 then (r.1, .bad 0x07 a.toNat) else (r.1, .ok r.2.1)
  else s.engRead t c.owner c.bad (eaOf a) n

/-- The rows of a step as they are read, each as one number (R271): the first row that fails a check gives the status, and the
format is looked at after all of them (DESIGN CHOICE, log 73). -/
def State.readRows (s : State) (t : Team) (c : MCmd) (loc : Bool) (n : Nat) : List Int → State × Eng (List (Int × Nat))
  | [] => (s, .ok [])
  | a :: rest =>
    match s.readA t c loc a n with
    | (s, .wait) => (s, .wait)
    | (s, .bad e x) => (s, .bad e x)
    | (s, .ok v) =>
      match s.readRows t c loc n rest with
      | (s, .ok vs) => (s, .ok ((a, v) :: vs))
      | (s, .wait) => (s, .wait)
      | (s, .bad e x) => (s, .bad e x)

/-- A row decoded; none on a format fault, with the address of its block (R103, R271). -/
def decodeRow (bf : Bool) (k : Nat) (a : Int) (v : Nat) : Except Int (List Cell) :=
  if bf then .ok ((List.range (256 * k)).map (fun j => (BitVec.ofNat 16 (v >>> (16 * j)), 0)))
  else
    (List.range (4 * k)).foldl (fun acc b =>
      match acc with
      | .error x => .error x
      | .ok row =>
        match decodeBlock (bytesOfNat 64 (v >>> (512 * b))) with
        | none => .error (a + 64 * b)
        | some es => .ok (row ++ es.map (fun e => (BitVec.ofNat 16 e.1, e.2)))) (.ok [])

/-- The rows of a step, decoded (R271). -/
def decodeRows (bf : Bool) (k : Nat) : List (Int × Nat) → Except Int (List (List Cell))
  | [] => .ok []
  | (a, v) :: rest =>
    match decodeRow bf k a v, decodeRows bf k rest with
    | .ok r, .ok rs => .ok (r :: rs)
    | .error x, _ => .error x
    | _, .error x => .error x

/-- The rows of step `i` against a group: read, checked and decoded (R271). They are read at one point of S, though the spec
leaves the blocks unordered (DESIGN CHOICE, log 73). -/
def State.stepRows (s : State) (t : Team) (c : MCmd) (f : LoopF) (i : Nat) (g : Group) : State × Eng (List (List Cell)) :=
  let n := if g.bf16 then 512 * g.k else 256 * g.k
  let addrs := (List.range 16).map (fun r => (f.abase : Int) + i * f.ainc + (r * f.arowp : Nat))
  match s.readRows t c f.loc n addrs with
  | (s, .wait) => (s, .wait)
  | (s, .bad e x) => (s, .bad e x)
  | (s, .ok vs) =>
    match decodeRows g.bf16 g.k vs with
    | .error x => (s, .bad 0x04 (eaOf x))
    | .ok rows => (s, .ok rows)

/-- The accumulators after one step into a tile (R271). -/
def tileAccs (m : NMap 32) (g : Group) (zf : Bool) (tile : Nat) (rows : List (List Cell)) : NMap 32 :=
  let m := if zf then zeroBlocks m tile g.n else m
  let w := if g.bf16 then 32 else 64
  (rows.zip (List.range rows.length)).foldl (fun m r =>
    (g.cells.zip (List.range g.cells.length)).foldl (fun m c =>
      let key := accKey (tile + c.2 / w) r.2 (c.2 % w)
      nset m key (BitVec.ofNat 32 (accumulate g.bf16 (nget m key).toNat r.1 c.1))) m) m

/-- The state after a step is counted, with the command ended when it was the last (R271). -/
def State.stepDone (s : State) (t : Team) (c : MCmd) (steps : Nat) : State :=
  if c.step + 1 < steps then
    s.setEngine t.core (fun e => e.setCmd c.id (fun c => { c with step := c.step + 1, count := c.step + 1 }))
  else s.endM t c 0 steps 0

/-- A single bit of the memory copy of a skip map is written; its byte is read and written in one event (R281). -/
def State.writeSkipBit (s : State) (t : Team) (c : MCmd) (ps : List Piece) (k : Nat) (v : Bool) : State :=
  let r := s.readPieces (engWho t c.owner) t.asid true ps 0
  let old := r.2.1
  let new := if v then old ||| (1 <<< k) else if bit old k then old - (1 <<< k) else old
  r.1.writePieces (engWho t c.owner) t.asid new ps

/-- The checks of the writes of a step, before any is made. -/
def State.stepChecks (s : State) (t : Team) (c : MCmd) (l : List (Nat × Nat)) : State × Eng (List (List Piece)) :=
  l.foldl (fun acc r =>
    match acc with
    | (s, .ok ps) =>
      match s.engCheck t c.bad .store r.1 r.2 with
      | (s, .ok p) => if s.engPast t c.owner p true then (s, .wait) else (s, .ok (ps ++ [p]))
      | (s, .wait) => (s, .wait)
      | (s, .bad e x) => (s, .bad e x)
    | x => x) (s, .ok [])

/-- Step `i` of `mloops` once its rows are decoded: the decision, the skip bit, the signature, and the products
(R280, R281). -/
def State.loopsStep (s : State) (t : Team) (c : MCmd) (f : LoopF) (rg : Region) (g : Group) (rows : List (List Cell)) : State :=
  let i := c.step
  let tt := f.t0 + i
  let sg := signature g.bf16 rows
  let entry := rg.sig + 16 * tt
  match s.engRead t c.owner c.bad entry 16 with
  | (s, .wait) => s
  | (s, .bad e x) => s.endM t c e i x
  | (s, .ok v) =>
    let sk := skips rg.force sg.1 sg.2 (v % 2 ^ 64) (v >>> 64) rg.thv rg.tha
    let sb := if rg.skip = 0 then [] else [(rg.skip + tt / 8, 1)]
    match s.stepChecks t c (sb ++ (if sk then [] else [(entry, 16)])) with
    | (s, .wait) => s
    | (s, .bad e x) => s.endM t c e i x
    | (s, .ok ps) =>
      if rg.skip ≠ 0 ∧ (ps.headD []).any (fun p => s.poisoned p.pa p.size) then s.endM t c 0x07 i (rg.skip + tt / 8)
      else
        let s := s.setEngine t.core (fun e =>
          match e.bound f.region with
          | some (n, k) =>
            let b := if sk then k.bits ||| ((1 : BitVec 4096) <<< tt) else k.bits &&& ~~~((1 : BitVec 4096) <<< tt)
            e.setSkip n { k with bits := b }
          | none => e)
        let s := if rg.skip = 0 then s else s.writeSkipBit t c (ps.headD []) (tt % 8) sk
        let s := if sk then s
          else
            let s := s.writePieces (engWho t c.owner) t.asid (sg.1 + sg.2 <<< 64) (ps.getLastD [])
            s.setEngine t.core (fun e => e.setAccs (tileAccs e.accs g f.zf (f.acc + i * f.accinc) rows) ((List.range g.n).map (fun b => f.acc + i * f.accinc + b)))
        s.stepDone t c f.steps

/-- Step `i` of `msig` once its rows are decoded (R283). -/
def State.sigStep (s : State) (t : Team) (c : MCmd) (f : LoopF) (rg : Region) (g : Group) (rows : List (List Cell)) : State :=
  let sg := signature g.bf16 rows
  let entry := rg.sig + 16 * (f.t0 + c.step)
  match s.engWrite t c.owner c.bad entry 16 (sg.1 + sg.2 <<< 64) with
  | (s, .wait) => s
  | (s, .bad e x) => s.endM t c e c.step x
  | (s, .ok _) => s.stepDone t c f.steps

/-- What `mloops` and `msig` do before their first step: the region is read, and `mloops` binds it (R277, R278,
R281). -/
def State.loopStart (s : State) (t : Team) (c : MCmd) : State × Eng MCmd :=
  let f := loopOf c.octet
  if c.step ≠ 0 ∨ c.desc.isSome then (s, .ok c)
  else if loopBad c.fn c.octet then (s, .bad 0x01 0)
  else if c.fn = 0 then (s, .ok c)
  else
    match s.readRegion t c f.region with
    | (s, .wait) => (s, .wait)
    | (s, .bad e x) => (s, .bad e x)
    | (s, .ok (d, rg)) =>
      if rg.tiles < f.t0 + f.steps then (s, .bad 0x01 f.region)
      else
        let keep := fun (s : State) =>
          (s.setEngine t.core (fun e => e.setCmd c.id (fun c => { c with desc := some d })), Eng.ok { c with desc := some d })
        if c.fn = 5 then keep s
        else
          match (s.engine t.core).bind f.region rg.phase with
          | none => (s, .bad 0x08 f.region)
          | some e => keep (s.setEngine t.core (fun _ => e))

/-- One step of `mloop`, `mloops` or `msig` (R271, R281, R283). -/
def State.runLoop (s : State) (t : Team) (c : MCmd) : State :=
  let f := loopOf c.octet
  match s.loopStart t c with
  | (s, .wait) => s
  | (s, .bad e x) => s.endM t c e 0 x
  | (s, .ok c) =>
    let i := c.step
    match (s.engine t.core).slot (f.grp + (if f.ginc then i else 0)) with
    | none => s.endM t c 0x03 i 0
    | some g =>
      if c.fn ≠ 5 ∧ 16 < f.acc + i * f.accinc + g.n then s.endM t c 0x01 i 0
      else
        match s.stepRows t c f i g with
        | (s, .wait) => s
        | (s, .bad e x) => s.endM t c e i x
        | (s, .ok rows) =>
          if c.fn = 0 then
            (s.setEngine t.core (fun e => e.setAccs (tileAccs e.accs g f.zf (f.acc + i * f.accinc) rows) ((List.range g.n).map (fun b => f.acc + i * f.accinc + b)))).stepDone
              t c f.steps
          else
            match c.desc.bind regionOf with
            | none => s.endM t c 0x01 i f.region
            | some rg => if c.fn = 5 then s.sigStep t c f rg g rows else s.loopsStep t c f rg g rows

/-! ## Drains (R275, R276, R282) -/

/-- Whether FMT of a drain is one of those of R275. -/
def drainFmt (fmt : Nat) : Bool := fmt == 0 || fmt == 1 || fmt == 4 || fmt == 5 || fmt == 6

/-- Bytes of one row of one block in a format (R276). -/
def rowBytes (fmt : Nat) : Nat := if fmt = 0 then 256 else if fmt = 1 then 128 else 64

/-- The runs that write 16 rows of `nb` blocks from block `b` (R276). -/
def tileRuns (m : NMap 32) (fmt b nb dest pitch : Nat) : List Run :=
  (List.range 16).map (fun r =>
    { dst := dest + r * pitch, len := nb * rowBytes fmt,
      src := .data ((List.range nb).flatMap (fun k =>
        drainRow fmt ((List.range 64).map (fun c => (nget m (accKey (b + k) r c)).toNat)))) })

/-- The state after granules of a drain are written one after another, each counted (R288). -/
def State.drainGranules (s : State) (t : Team) (c : MCmd) (held : List Leaf) : List (List Run) → State × Eng Unit
  | [] => (s, .ok ())
  | g :: rest =>
    match s.runGranule t c.owner held g with
    | (s, .ok _) =>
      (s.setEngine t.core (fun e => e.setCmd c.id (fun c => { c with progress := c.progress + 1 }))).drainGranules t c held rest
    | (s, .wait) => (s, .wait)
    | (s, .bad e a) => (s, .bad e a)

/-- A row-tile that a drain writes: its first accumulator block and where its row 0 goes (R276, R282). -/
structure DrainTile where
  block : Nat
  dest : Nat
  deriving DecidableEq, Repr

/-- What a drain does with each of its row-tiles: format, blocks, pitch, and whether the accumulators read are set to +0
(R275, R276, R282). -/
structure DrainF where
  fmt : Nat
  nb : Nat
  pitch : Nat
  clear : Bool
  deriving DecidableEq, Repr

/-- The granules of a row-tile as the accumulators stand (R276). -/
def DrainF.granules (f : DrainF) (m : NMap 32) (x : DrainTile) : List (List Run) :=
  Machine.granules (tileRuns m f.fmt x.block f.nb x.dest f.pitch)

/-- The ranges a row-tile is written to. -/
def DrainF.ranges (f : DrainF) (x : DrainTile) : List (Need × Nat × Nat) :=
  (List.range 16).map (fun r => (.store, x.dest + r * f.pitch, f.nb * rowBytes f.fmt))

/-- The translations a drain holds: every page it will write checked, once, before its first write (R240). -/
def State.drainHeld (s : State) (t : Team) (c : MCmd) (f : DrainF) (tiles : List DrainTile) : State × Eng (List Leaf) :=
  match c.held with
  | some held => (s, .ok held)
  | none =>
    match s.engCheckAll t c.bad (tiles.flatMap f.ranges) with
    | (s, .wait) => (s, .wait)
    | (s, .bad e a) => (s, .bad e a)
    | (s, .ok held) =>
      ((held.foldl (fun s l => s.mark t.core t.asid l) s).setEngine t.core (fun e =>
        e.setCmd c.id (fun c => { c with held := some held })), .ok held)

/-- The row-tiles of a drain, the first from granule `from_` on, for at most `limit` granules in all: each is read,
written, and then cleared where CLEAR asks for it, before the next is read (R275, R276, R282, R288). -/
def State.drainTiles (s : State) (t : Team) (c : MCmd) (f : DrainF) (held : List Leaf) :
    List DrainTile → Nat → Option Nat → State × Eng Bool
  | [], _, _ => (s, .ok true)
  | x :: rest, from_, limit =>
    let left := (f.granules (s.engine t.core).accs x).drop from_
    let now := match limit with
      | some n => left.take n
      | none => left
    match s.drainGranules t c held now with
    | (s, .wait) => (s, .wait)
    | (s, .bad e a) => (s, .bad e a)
    | (s, .ok _) =>
      if now.length < left.length then (s, .ok false)
      else
        let s := s.setEngine t.core (fun e =>
          let e := if f.clear then e.setAccs (zeroBlocks e.accs x.block f.nb) ((List.range f.nb).map (x.block + ·)) else e
          e.setCmd c.id (fun c => { c with progress := 0, count := c.count + 1 }))
        s.drainTiles t c f held rest 0 (limit.map (fun n => n - now.length))

/-- A drain carried on from its restart point, for at most `limit` granules; COUNT is the row-tiles written where `counts`
(R240, R269, R288). -/
def State.runDrain (s : State) (t : Team) (c : MCmd) (f : DrainF) (counts : Bool) (limit : Option Nat)
    (tiles : List DrainTile) : State :=
  let left := tiles.drop c.count
  match s.drainHeld t c f left with
  | (s, .wait) => s
  | (s, .bad e a) => s.endM t c e (if counts then c.count else 0) a
  | (s, .ok held) =>
    match s.drainTiles t c f held left c.progress limit with
    | (s, .wait) => s
    | (s, .bad e a) =>
      let n := (((s.engine t.core).queue.find? (fun x => x.id == c.id)).map (fun x => x.count)).getD c.count
      s.endM t c e (if counts then n else 0) a
    | (s, .ok false) => s
    | (s, .ok true) => s.endM t c 0 (if counts then tiles.length else 0) 0

/-- Whether the octet of `mdrain` fails a check that needs no slice (R275, R276). -/
def drainBad (o : List Word) : Bool :=
  let w3 := octW o 3
  let w4 := octW o 4
  let fmt := bits w3 15 13
  let nb := bits w3 8 4
  bits w3 31 17 != 0 || bits w3 11 9 != 0 || octW o 5 != 0 || octW o 6 != 0 || octW o 7 != 0 || !drainFmt fmt
  || nb == 0 || decide (16 < nb) || decide (16 < bits w3 3 0 + nb)
  || (if bit w3 12 then
        octP o 0 != 0 || octW o 2 != 0 || bits w4 31 26 != 0 || bits w4 15 9 != 0 || bit w4 7 || decide (1 < fmt)
        || bits w4 6 0 % 8 != 0 || decide (88 < bits w4 6 0)
      else w4 != 0 || octP o 0 % 64 != 0 || octW o 2 % 64 != 0)

/-- The accumulator that a register drain gives to register VD + `j`, lane `l` of the slice at a crew position
(R276). -/
def drainKey (o : List Word) (pos j l : Nat) : Nat :=
  let w4 := octW o 4
  let col := bits w4 25 16 + 4 * pos + l
  accKey (bits (octW o 3) 3 0 + col / 64) (8 * bits w4 8 8 + j) (col % 64)

/-- The words of a register drain for one slice: slice, physical register, lane, value (R276). -/
def drainWords (o : List Word) (m : NMap 32) (crewlog : Nat) (sl : Slice) (wb : Nat) : List (Nat × Nat × Nat × Word) :=
  ((List.range 8).flatMap (fun j => (List.range 4).map (fun l => (j, l)))).map (fun jl =>
    let x := nget m (drainKey o (sl.pos crewlog) jl.1 jl.2)
    (sl.idx, wb + bits (octW o 4) 6 0 + jl.1, jl.2,
      if bits (octW o 3) 15 13 = 0 then x else BitVec.ofNat 32 (cvtFmt f32 bf16 .rne x.toNat).1))

/-- The slices of a register drain that are still there, each with its WB at issue. -/
def Team.drainSlices (t : Team) (c : MCmd) : List (Slice × Nat) :=
  c.slices.filterMap (fun x => (t.slice? x.1).map (fun sl => (sl, x.2.2.2)))

/-- Whether a register drain leaves the columns of its blocks or the registers of a slice as it is performed (R276). -/
def Team.drainOut (t : Team) (c : MCmd) : Bool :=
  let w4 := octW c.octet 4
  (t.drainSlices c).any (fun x =>
    decide (64 * bits (octW c.octet 3) 8 4 ≤ bits w4 25 16 + 4 * x.1.pos t.record.crewlog + 3)
    || decide (8 * x.1.alloc ≤ x.2 + bits w4 6 0 + 7))

/-- The words a register drain has still to write: those of its accumulators, read once (R276). -/
def State.drainLeft (s : State) (t : Team) (c : MCmd) : List (Nat × Nat × Nat × Word) :=
  match c.lanes with
  | some ws => ws
  | none => (t.drainSlices c).flatMap (fun x => drainWords c.octet (s.engine t.core).accs t.record.crewlog x.1 x.2)

/-- A word of a drain is written to its register (R190). -/
def State.drainWord (s : State) (t : Team) (w : Nat × Nat × Nat × Word) : State :=
  s.landWord t.uid w.1 w.2.1 w.2.2.1 w.2.2.2

/-- The slice after a command that will write its registers is issued (R190, R276). -/
def Slice.awaitDrain (sl : Slice) (fn : Nat) (o : List Word) : Slice :=
  if fn = 2 ∧ drainBad o = false ∧ bit (octW o 3) 12 = true then
    { sl with marks := sl.marks.await ((List.range 8).flatMap (fun j => (List.range 4).map (fun l =>
        4 * (sl.wb + bits (octW o 4) 6 0 + j) + l))) }
  else sl

/-- `mdrain` in register mode (R276). -/
def State.runRegDrain (s : State) (t : Team) (c : MCmd) : State :=
  let o := c.octet
  if c.lanes.isNone && t.drainOut c then s.endM t c 0x01 0 0
  else
    let s := (s.drainLeft t c).foldl (fun s w => s.drainWord t w) s
    let read := (t.drainSlices c).flatMap (fun x => (List.range 8).flatMap (fun j => (List.range 4).map (fun l =>
      drainKey o (x.1.pos t.record.crewlog) j l)))
    let s := if bit (octW o 3) 16 then s.setEngine t.core (fun e => e.setAccs (e.accs.filter (fun x => !read.contains x.1)) (read.map (· / 1024))) else s
    s.endM t c 0 0 0

/-- One word of a register drain is written before the others: each lane of each register goes old to new by itself
(R190). -/
def State.earlyWord (s : State) (t : Team) (c : MCmd) (n : Nat) : State :=
  if c.lanes.isNone && t.drainOut c then s
  else
    let ws := s.drainLeft t c
    match ws[n]? with
    | none => s
    | some w => (s.setEngine t.core (fun e => e.setCmd c.id (fun c => { c with lanes := some (ws.eraseIdx n) }))).drainWord t w

/-- `mdrain` (R276). -/
def State.runMdrain (s : State) (t : Team) (c : MCmd) (limit : Option Nat) : State :=
  let o := c.octet
  let w3 := octW o 3
  if drainBad o then s.endM t c 0x01 0 0
  else if bit w3 12 then s.runRegDrain t c
  else
    s.runDrain t c { fmt := bits w3 15 13, nb := bits w3 8 4, pitch := octW o 2, clear := bit w3 16 } false limit
      [{ block := bits w3 3 0, dest := octP o 0 }]

/-- Whether the octet of `mdrains` fails a check (R282). -/
def drainsBad (o : List Word) : Bool :=
  let w3 := octW o 3
  let nb := bits w3 12 8
  let steps := octW o 2 % 2 ^ 16
  bits w3 31 17 != 0 || octW o 4 != 0 || octW o 5 != 0 || octW o 6 != 0 || octW o 7 != 0 || !drainFmt (bits w3 15 13)
  || nb == 0 || decide (16 < nb) || steps == 0 || decide (4096 < steps) || octP o 0 % 64 != 0

/-- `mdrains` (R282). -/
def State.runMdrains (s : State) (t : Team) (c : MCmd) (limit : Option Nat) : State :=
  let o := c.octet
  let w3 := octW o 3
  let t0 := octW o 2 / 2 ^ 16
  let steps := octW o 2 % 2 ^ 16
  let nb := bits w3 12 8
  let acc := bits w3 3 0
  let inc := bits w3 7 4
  if drainsBad o then s.endM t c 0x01 0 0
  else
    let r := match c.desc.bind regionOf with
      | some rg => (s, Eng.ok (c.desc.getD 0, rg))
      | none => s.readRegion t c (octP o 0)
    match r with
    | (s, .wait) => s
    | (s, .bad e x) => s.endM t c e 0 x
    | (s, .ok (d, rg)) =>
      match (s.engine t.core).bound (octP o 0) with
      | none => s.endM t c 0x08 0 (octP o 0)
      | some (_, k) =>
        if k.phase.toNat ≠ rg.phase then s.endM t c 0x08 0 (octP o 0)
        else if rg.tiles < t0 + steps ∨ 16 < acc + (steps - 1) * inc + nb then s.endM t c 0x01 0 0
        else
          let s := s.setEngine t.core (fun e => e.setCmd c.id (fun c => { c with desc := some d }))
          let on := (List.range steps).filter (fun i => !k.bits.getLsbD (t0 + i))
          s.runDrain t c { fmt := bits w3 15 13, nb := nb, pitch := rg.pitch, clear := bit w3 16 } true limit
            (on.map (fun i => { block := acc + i * inc, dest := rg.out + 16 * (t0 + i) * rg.pitch }))

/-! ## `mzero`, `mskip` (R274, R284) -/

/-- `mzero` (R274). -/
def State.runMzero (s : State) (t : Team) (c : MCmd) : State :=
  let a := octW c.octet 0
  if 2 ^ 16 ≤ a then s.endM t c 0x01 0 0
  else
    (s.setEngine t.core (fun e =>
      let bs := (List.range 16).filter (fun b => bit a b)
      e.setAccs (bs.foldl (fun m b => zeroBlocks m b 1) e.accs) bs)).endM t c 0 0 0

/-- `mskip` (R284). -/
def State.runMskip (s : State) (t : Team) (c : MCmd) : State :=
  let o := c.octet
  let addr := octP o 0
  let tt := octW o 2
  let op := octW o 3 % 4
  let bad := octW o 3 / 4 ≠ 0 ∨ octW o 5 ≠ 0 ∨ octW o 6 ≠ 0 ∨ octW o 7 ≠ 0 ∨ tt % 32 ≠ 0 ∨ 4096 ≤ tt ∨ addr % 64 ≠ 0
  if op = 3 ∨ (bad ∧ op ≠ 0) then s.endM t c 0x01 0 0
  else if bad then s.finishM t c 0x30 0 0 0
  else
    match s.readRegion t c addr with
    | (s, .wait) => s
    | (s, .bad e x) => if op = 0 then s.finishM t c 0x30 0 0 0 else s.endM t c e 0 x
    | (s, .ok (_, rg)) =>
      let e := s.engine t.core
      match op with
      | 0 =>
        let v := match e.bound addr with
          | some (_, k) => if k.phase.toNat = rg.phase then (k.bits >>> tt).setWidth 32 else 0
          | none => 0
        s.finishM t c 0x30 0 v 0
      | 1 =>
        match e.bind addr rg.phase with
        | none => s.endM t c 0x08 0 addr
        | some e =>
          let e := match e.bound addr with
            | some (n, k) =>
              let m : BitVec 4096 := (BitVec.ofNat 4096 0xFFFFFFFF) <<< tt
              e.setSkip n { k with bits := (k.bits &&& ~~~m) ||| (BitVec.ofNat 4096 (octW o 4) <<< tt) }
            | none => e
          (s.setEngine t.core (fun _ => e)).endM t c 0 0 0
      | _ =>
        (s.setEngine t.core (fun e => e.unbind (fun x => x.2.region == addr))).endM t c 0 0 0

/-! ## The sequencer (R268, R288) -/

/-- Whether the sequencer works for a team: while it runs, and while it drains with a skip-slot word accepted, which waits
for the commands queued before it (R288, R390, R409; log 64). -/
def Team.sequenced (t : Team) : Bool :=
  t.st == .running || (t.st == .draining && t.subs.any (fun b => b.accepted == some .image))

/-- Whether a command that a halt lets complete first is running: an `mskip` whose descriptor read waits goes on while its team
drains (R288, R392). -/
def MCmd.lasts (c : MCmd) : Bool := c.started && c.fn == 6

/-- The command at the head of a core's queue, with its team, while the sequencer works for it. -/
def State.mHead (s : State) (core : Nat) : Option (Team × MCmd) :=
  match (s.engine core).holder.bind (fun u => s.team? u), (s.engine core).queue with
  | some t, c :: _ => if t.sequenced || c.lasts then some (t, c) else none
  | _, _ => none

/-- The state after a matrix command comes to wait for the host translation that the state names (R369). -/
def State.mWaits (s : State) (core id : Nat) : State :=
  match s.want with
  | none => s
  | some w =>
    if (s.engine core).queue.any (fun c => c.id == id) then
      { s.setEngine core (fun e => e.setCmd id (fun c => { c with wants := some w })) with want := none }
    else s

/-- The state after the running command makes one step, or runs whole (R268, R271). -/
def State.runM (s : State) (t : Team) (c : MCmd) (limit : Option Nat) : State :=
  (match c.fn with
  | 8 => s.runLoad t c
  | 2 => s.runMdrain t c limit
  | 3 => s.runMdrains t c limit
  | 4 => s.runMzero t c
  | 6 => s.runMskip t c
  | _ => s.runLoop t c).mWaits t.core c.id

/-- R268: the sequencer begins the next queued command, once the events of its slices that precede its issue have been performed
(R147, R286). -/
def execMatrixQueueDispatch (core : Nat) (s : State) : Host.Outcome State Fault Refusal :=
  match s.mHead core with
  | none => .next s
  | some (t, c) =>
    if c.started then .next s
    else
      let s := c.slices.foldl (fun s x => s.forceOlder t.uid x.1 c.id) s
      if c.slices.any (fun x => s.olderLeft t.uid x.1 c.id) then .next s
      else .next (s.setEngine core (fun e => e.setCmd c.id (fun c => { c with started := true })))

/-- R271: the running command finishes a step or itself. -/
def execMatrixCommandComplete (core : Nat) (s : State) : Host.Outcome State Fault Refusal :=
  match s.mHead core with
  | none => .next s
  | some (t, c) => if c.started then .next ((s.runM t c none).settle t.uid) else .next s

/-- The state after a running drain writes at most `n` granules, or one word of its registers (R148, R190). -/
def State.drainStep (s : State) (core n : Nat) : State :=
  match s.mHead core with
  | none => s
  | some (t, c) =>
    if t.halt.isNone && c.started && (c.fn == 2 || c.fn == 3) then
      if c.fn = 2 ∧ drainBad c.octet = false ∧ bit (octW c.octet 3) 12 = true then s.earlyWord t c n
      else (s.runM t c (some n)).settle t.uid
    else s

/-- The state after a running `mload` is abandoned: slot GRP is left empty, and the other slots that it overlaps only
where it had emptied them, which it may have done once its table and its pages had passed their checks (R263, R288). -/
def State.abandonLoad (s : State) (t : Team) (c : MCmd) : State :=
  let only := fun (s : State) => s.setEngine t.core (fun e =>
    { e with groups := e.groups.filter (fun x => x.1 != bits (octW c.octet 5) 3 0) })
  match s.loadSources t c.owner c.bad c.octet with
  | (s, .ok srcs) =>
    match s.engCheckAll t c.bad (loadRanges c.octet srcs) with
    | (s, .ok _) =>
      let k := s.choose 2
      if k.1 = 0 then k.2.setEngine t.core (fun e => e.emptyOver c.octet) else only k.2
    | (s, _) => only s
  | (s, _) => only s

/-- The state after the sequencer of a core stops for a pre-emption: what completes first completes, an `mskip` that must wait
while its team drains; a running `mload` is abandoned, and a drain stops after at most `n` granules (R288). -/
def State.haltMatrix (s : State) (u core n : Nat) : State :=
  match s.mHead core with
  | none => s
  | some (t, c) =>
    if t.uid ≠ u ∨ !c.started then s
    else
      let s := match c.fn with
        | 2 => s.runM t c (some n)
        | 3 => s.runM t c (some n)
        | 4 => s.runM t c none
        | 6 => s.runM t c none
        | 8 => s.abandonLoad t c
        | _ => s
      s.setEngine core (fun e => { e with queue := e.queue.map (fun c => { c with started := c.lasts }) })

/-! ## Issue (R258, R262, R266 to R268) -/

/-- A matrix word stalls while another team holds the engine or the queue has no room for `n` commands, `loops` of
them `mloop` or `mloops` (R258, R268). -/
def mtxWaits (perSl : Bool) (loops : Nat) (p : At) (s : State) : Option State :=
  match s.team? p.team with
  | none => none
  | some t =>
    let e := s.engine t.core
    let n := if perSl then p.members.length else 1
    let held := match e.holder with
      | some u => u != t.uid
      | none => false
    let queued := (e.queue.filter (fun c => decide (c.fn < 2))).length
    if held || decide (8 < e.queue.length + n) || decide (4 < queued + loops) then some (s.stall p.team (p.members.headD 0))
    else none

/-- A command as it is queued. -/
def newM (fn : Nat) (o : List Word) (d : Opd) (p : At) (sls : List Slice) (id : Nat) : MCmd where
  id := id
  fn := fn
  octet := o
  slices := sls.map (fun sl => (sl.idx, d, p.flag, sl.wb))
  started := false
  desc := none
  step := 0
  count := 0
  progress := 0
  held := none
  lanes := none
  pc := pcWord p.hdr p.ix ((sls.head?.map (fun sl => sl.exec.toNat)).getD 0)
  wants := none
  bad := []

/-- The state after a command enters the queue; its team holds the engine (R258). -/
def State.queueM (s : State) (t : Team) (c : MCmd) : State :=
  s.setEngine t.core (fun e => { e with holder := some t.uid, queue := e.queue ++ [c] })

/-- The effect of `mload` in a slice (R262). -/
def mloadOne (d a : Opd) (p : At) (k : Nat) (s : State) : State :=
  match s.team? p.team, s.slice? p.team k with
  | some t, some sl =>
    let c := newM 8 (sl.octet a) d p [sl] s.fresh
    let s := { s with fresh := s.fresh + 1 }
    (s.setSlice p.team k (fun sl => (sl.attach p.flag).advance)).queueM t c
  | _, _ => s

/-- R262: `mload`. -/
def execMload (d a : Opd) (s : State) : Host.Outcome State Fault Refusal :=
  issueWith (.mload d a) (mtxWaits true 0) (eachMember (mloadOne d a)) s

/-- The effect of an MTX word other than `mstat`: one command for the sub-crew (R267). -/
def mtxAll (fn : Nat) (octet : Bool) (d a : Opd) (p : At) (s : State) : State :=
  match s.team? p.team with
  | none => s
  | some t =>
    let sls := p.members.filterMap (fun k => t.slice? k)
    match sls with
    | [] => s
    | sl :: _ =>
      let c := newM fn (if octet then sl.octet a else [sl.readS a]) d p sls s.fresh
      let s := { s with fresh := s.fresh + 1 }
      (s.setTeam p.team (fun t => t.onMembers p.members (fun sl => ((sl.attach p.flag).awaitDrain fn c.octet).advance))).queueM t c

/-- The issue of an MTX word other than `mstat`. -/
def issueMtx (i : Instr) (fn : Nat) (octet : Bool) (d a : Opd) (s : State) : Host.Outcome State Fault Refusal :=
  issueWith i (mtxWaits false (if fn < 2 then 1 else 0)) (mtxAll fn octet d a) s

/-- R271: `mloop`. -/
def execMloop (d a : Opd) (s : State) : Host.Outcome State Fault Refusal := issueMtx (.mloop d a) 0 true d a s

/-- R281: `mloops`. -/
def execMloops (d a : Opd) (s : State) : Host.Outcome State Fault Refusal := issueMtx (.mloops d a) 1 true d a s

/-- R276: `mdrain`. -/
def execMdrain (d a : Opd) (s : State) : Host.Outcome State Fault Refusal := issueMtx (.mdrain d a) 2 true d a s

/-- R282: `mdrains`. -/
def execMdrains (d a : Opd) (s : State) : Host.Outcome State Fault Refusal := issueMtx (.mdrains d a) 3 true d a s

/-- R274: `mzero`. -/
def execMzero (d a : Opd) (s : State) : Host.Outcome State Fault Refusal := issueMtx (.mzero d a) 4 false d a s

/-- R283: `msig`. -/
def execMsig (d a : Opd) (s : State) : Host.Outcome State Fault Refusal := issueMtx (.msig d a) 5 true d a s

/-- R284: `mskip`. -/
def execMskip (d a : Opd) (s : State) : Host.Outcome State Fault Refusal := issueMtx (.mskip d a) 6 true d a s

/-- The value `mstat` reads with a selector, as the team sees the engine (R285). -/
def Engine.stat (e : Engine) (u a : Nat) : Word :=
  let mine := e.holder == some u
  let other := e.holder.isSome && !mine
  let loops := (e.queue.filter (fun c => decide (c.fn < 2))).length
  if 4 ≤ a then 0
  else if a = 0 then
    BitVec.ofNat 32 (mine.toNat <<< 31 + other.toNat <<< 30 + loops <<< 4 + (e.queue.length - loops))
  else if !mine then 0
  else if a = 1 then
    match e.queue with
    | c :: _ => if c.started ∧ (c.fn = 0 ∨ c.fn = 1 ∨ c.fn = 5) then BitVec.ofNat 32 (c.step % 2 ^ 16) else 0
    | [] => 0
  else if a = 2 then
    BitVec.ofNat 32 (maskOf (e.groups.map Prod.fst) + maskOf ((e.groups.filter (fun x => x.2.bf16)).map Prod.fst) <<< 16)
  else BitVec.ofNat 32 (maskOf (e.skips.map Prod.fst))

/-- R285: `mstat`. The sample is taken and the flag falls again within the word's own step. -/
def execMstat (d a : Opd) (s : State) : Host.Outcome State Fault Refusal :=
  issue (.mstat d a) (fun p s =>
    match s.team? p.team with
    | none => s
    | some t =>
      let sel := ((t.slice? (p.members.headD 0)).map (fun sl => (sl.readS a).toNat)).getD 0
      let v := (s.engine t.core).stat t.uid sel
      s.setTeam p.team (fun t => t.onMembers p.members (fun sl => (sl.writeS d v).advance))) s

end Sys2Proof.Machine
end

