-- ==== Sys2Proof/Machine/System.lean ====
section
/-! DEFINITION. The SYS class: return from the supervisor handler, page mapping, invalidation, skip-slot images, the
energy counter, user interrupts, supervisor state and escalation (R341 to R346, R363, R364, R409, R444). -/

namespace Sys2Proof.Machine

/-! ## Frame pools (R343, R427) -/

/-- Bytes of a pool frame. -/
def frameBytes : Nat := 65536

/-- The first address of `n` bytes, aligned to `al`, inside a run of frames. -/
def runFind (al n : Nat) (r : Nat × Nat) : Option Nat :=
  let a := ceilDiv r.1 al * al
  if a + n ≤ r.1 + frameBytes * r.2 then some a else none

/-- What is left of a run of frames after `[a, a + n)` is taken from it. -/
def runDrop (a n : Nat) (r : Nat × Nat) : List (Nat × Nat) :=
  let e := r.1 + frameBytes * r.2
  if a < r.1 ∨ e < a + n then [r]
  else [(r.1, (a - r.1) / frameBytes), (a + n, (e - (a + n)) / frameBytes)].filter (fun x => x.2 != 0)

/-- `n` bytes aligned to `al` taken from a pool on a die: the lowest place that fits (log 11). -/
def takeFrames (pool : List (Nat × Nat)) (die al n : Nat) : Option (Nat × List (Nat × Nat)) :=
  ((pool.filter (fun r => dieOfHbm r.1 == die)).findSome? (runFind al n)).map (fun a => (a, pool.flatMap (runDrop a n)))

/-- The free frames of a pool on a die (R336). -/
def freeFrames (pool : List (Nat × Nat)) (die : Nat) : Nat :=
  total ((pool.filter (fun r => dieOfHbm r.1 == die)).map (fun r => r.2))

/-- Table pages taken one frame each, one for each level from `first` down (log 11). -/
def takeTables (pool : List (Nat × Nat)) (die : Nat) : Nat → Option (List Nat × List (Nat × Nat))
  | 0 => some ([], pool)
  | n + 1 =>
    match takeFrames pool die frameBytes frameBytes with
    | none => none
    | some (a, p) => (takeTables p die n).map (fun r => (a :: r.1, r.2))

/-! ## `pmap` (R343) -/

/-- log2 of the page size of a SIZE code. -/
def pageLog : Nat → Nat
  | 0 => 16
  | 1 => 21
  | _ => 30

/-- Whether the operands of `pmap` are bad, the context entry apart (R343). -/
def pmapBad (va b : Nat) : Bool :=
  let home := homeOf (bits b 9 8)
  bits b 31 12 != 0 || bits b 1 0 != 0 || bits b 11 10 == 3 || home == .spad
  || (shareOf (bits b 7 6) == .dev && home != .nocache)
  || va % 2 ^ pageLog (bits b 11 10) != 0 || !canonicalRange va (2 ^ pageLog (bits b 11 10))

/-- What the tables hold along a VA, down to the level of the new leaf. -/
inductive Spot where
  /-- a valid leaf of some size covers the VA -/
  | present
  /-- a table or an entry no walk goes through stands in the way -/
  | conflict
  /-- the entry at this address is free; so many tables are missing below it -/
  | free (entry missing : Nat)
  deriving DecidableEq, Repr

/-- Whether a valid leaf covers a VA in the tables from `table` down the levels given. -/
def State.leafBelow (s : State) (va : Nat) : List (Nat × Nat × Nat) → Nat → Bool
  | [], _ => false
  | (_, sh, n) :: rest, table =>
    let e := s.mem.nat (table + 8 * ((va >>> sh) % n)) 8
    bit e 0 && (!bit e 1 || s.leafBelow va rest (bits e 51 8 <<< 8))

/-- The place of a new leaf of a level (R343). -/
def State.spot (s : State) (va leaf : Nat) : List (Nat × Nat × Nat) → Nat → Spot
  | [], _ => .conflict
  | (level, sh, n) :: rest, table =>
    let a := table + 8 * ((va >>> sh) % n)
    let e := s.mem.nat a 8
    if !bit e 0 then .free a (leaf - level)
    else if !bit e 1 then .present
    else if level = leaf then (if s.leafBelow va rest (bits e 51 8 <<< 8) then .present else .conflict)
    else if bits e 7 2 ≠ 0 ∨ bits e 57 52 ≠ 0 then .conflict
    else s.spot va leaf rest (bits e 51 8 <<< 8)

/-- The index of a VA in the table of a level. -/
def levelIndex (va level : Nat) : Nat :=
  match levels.find? (fun l => l.1 == level) with
  | some l => (va >>> l.2.1) % l.2.2
  | none => 0

/-- The bits of a new leaf (R343, R357). -/
def leafBits (frame b : Nat) : Nat :=
  bits b 9 8 <<< 52 + frame + bits b 7 6 <<< 6 + (bit b 2).toNat <<< 5 + (bit b 3).toNat <<< 4 + (bit b 4).toNat <<< 3
  + (bit b 5).toNat <<< 2 + 1

/-- The state after an entry of a page table is written (R343, R359). -/
def State.writeEntry (s : State) (a e : Nat) : State := s.devWrite a (bytesOfNat 8 e)

/-- The state after a leaf and the missing tables above it are written: `entry` is free, `tables` are wiped and stand
for the levels after `level` (R343). -/
def State.writePath (s : State) (va level entry : Nat) (tables : List Nat) (leaf : Nat) : State :=
  match tables with
  | [] => s.writeEntry entry leaf
  | tb :: rest => (s.writePath va (level + 1) (tb + 8 * levelIndex va (level + 1)) rest leaf).writeEntry entry (tb + 3)

/-- `pmap` in one slice: the state and the status (R343). -/
def State.pmap (s : State) (t : Team) (va b : Nat) : State × Nat :=
  let ctx := s.ctxEntry t.part t.asid
  let die := dieOf t.core
  let log := pageLog (bits b 11 10)
  let leaf := 4 - bits b 11 10
  if pmapBad va b || !ctx.valid then (s, 3)
  else
    match s.spot va leaf levels ctx.root with
    | .present => (s, 1)
    | .conflict => (s, 4)
    | .free entry missing =>
      match takeFrames (s.part t.part).pool die (2 ^ log) (2 ^ log) with
      | none => (s, 2)
      | some (frame, pool) =>
        match takeTables pool die missing with
        | none => (s, 2)
        | some (tables, pool) =>
          ((s.setPart t.part (fun q => { q with pool := pool })).writePath va (leaf - missing) entry tables
            (leafBits frame b), 0)

/-- R343: `pmap`. -/
def execPmap (d a b : Opd) (s : State) : Host.Outcome State Fault Refusal :=
  issue (.pmap d a b) (eachMember (fun p k s =>
    match s.team? p.team, s.slice? p.team k with
    | some t, some sl =>
      let r := s.pmap t (sl.pair 0 a 0) (sl.readS b).toNat
      r.1.setSlice p.team k (fun sl => (sl.writeS d (BitVec.ofNat 32 r.2)).advance)
    | _, _ => s)) s

/-! ## `tlbi` and `asidr` (R363, R364) -/

/-- The range of a `tlbi` as first byte and length; none when it is bad (R363). -/
def tlbiRange (va n : Nat) : Option (Nat × Nat) :=
  if n = 0 then some (0, 2 ^ 64)
  else if va % 65536 ≠ 0 ∨ !canonicalRange va (65536 * n) then none
  else some (va, 65536 * n)

/-- The state without the translations of an ASID over a range, nor what has been asked of the host for it, nor the L1
sectors and L1 instruction lines held under them (R363, R366). -/
def State.purge (s : State) (asid lo n : Nat) : State :=
  let meets := fun (a len : Nat) => decide (a < lo + n) && decide (lo < a + len)
  let sh := fun (level : Nat) => ((levels.find? (fun l => l.1 == level)).map (fun l => l.2.1)).getD 0
  { s with
    tlb := s.tlb.filter (fun t => !(t.asid == asid && meets t.leaf.va (2 ^ t.leaf.log))),
    atsc := s.atsc.filter (fun t => !(t.asid == asid && meets t.leaf.va (2 ^ t.leaf.log))),
    wcache := s.wcache.filter (fun w => !(w.asid == asid && meets (w.prefix_ <<< sh w.level) (2 ^ sh w.level))),
    atsq := s.atsq.filter (fun q => !(q.asid == asid && meets q.entry.va (2 ^ q.entry.log))),
    rmap := s.rmap.filter (fun r => !(decide (r.place < 8) && r.asid == asid && meets r.vtag 128)),
    ilines := s.ilines.filter (fun i => !(decide (i.place < 512) && i.asid == asid && meets i.vtag 128)) }

/-- Whether the page of a leaf meets a range of virtual addresses. -/
def Leaf.meets (l : Leaf) (lo n : Nat) : Bool := decide (l.va < lo + n) && decide (lo < l.va + 2 ^ l.log)

/-- Whether a coming access of an ASID has translated through an entry whose page meets a range, wherever in the page the access
itself lies (R363, R365). -/
def State.accIn (s : State) (asid lo n : Nat) (op : PendOp) (a : Acc) : Bool :=
  ((s.team? op.team).map (fun t => t.asid == asid)).getD false && !a.loc
  && op.accs.any (fun x => decide (x.1 = a) && ((x.2.coming?).getD []).any (fun p => p.leaf.meets lo n))

/-- Whether some command, of a saved team or of one that `sel` selects, of an ASID holds a translation that meets a range (R240,
R363). -/
def State.heldBy (s : State) (sel : Team → Bool) (asid lo n : Nat) : Bool :=
  let meets := fun (l : Leaf) => l.meets lo n
  let ours := fun (t : Team) => t.asid == asid && t.cmds.any (fun c => c.held.any meets)
  let queued := fun (e : Engine) => e.queue.any (fun m => (m.held.getD []).any meets)
  s.teams.any (fun t => sel t && ours t) || s.saved.any (fun c => c.kept && c.asid == asid && (ours c.team || (c.engine.map queued).getD false))
  || s.teams.any (fun t => sel t && t.asid == asid && (s.engine t.core).holder == some t.uid && queued (s.engine t.core))

/-- The state after the translations of an ASID over a range are removed and the accesses that used them are performed
where they may be, and whether every one of them has been (R363). -/
def State.invalidate (s : State) (asid lo n : Nat) : State × Bool :=
  let s := (s.force (fun op x => s.accIn asid lo n op x)).purge asid lo n
  (s, s.pend.all (fun op => op.accs.all (fun x => !s.accIn asid lo n op x.1)) && !s.heldBy (fun _ => true) asid lo n)

/-- The ranges that the slices of a sub-crew name in `tlbi`. -/
def Team.tlbiRanges (t : Team) (a b : Opd) (p : At) : List (Nat × Nat) :=
  p.members.filterMap (fun k => (t.slice? k).bind (fun sl => tlbiRange (sl.pair 0 a 0) (sl.readS b).toNat))

/-- `tlbi` waits, its operation accepted, until every access that translated through a removed entry has been performed,
the last use by every engine command included (R240, R363, R390). -/
def tlbiWaits (a b : Opd) (p : At) (s : State) : Option State :=
  match s.team? p.team with
  | none => none
  | some t =>
    let rs := t.tlbiRanges a b p
    let r := rs.foldl (fun (acc : State × Bool) r =>
      let x := acc.1.invalidate t.asid r.1 r.2
      (x.1, acc.2 && x.2)) (s, true)
    if r.2 then none else some (r.1.acceptStall p (.pages rs))

/-- R363: `tlbi`. Every access that translated through a removed entry is performed before it completes. -/
def execTlbi (d a b : Opd) (s : State) : Host.Outcome State Fault Refusal :=
  issueWith (.tlbi d a b) (tlbiWaits a b) (eachMember (fun p k s =>
    match s.team? p.team, s.slice? p.team k with
    | some t, some sl =>
      let r := tlbiRange (sl.pair 0 a 0) (sl.readS b).toNat
      let s := match r with
        | some r => (s.invalidate t.asid r.1 r.2).1
        | none => s
      s.setSlice p.team k (fun sl => (sl.writeS d (if r.isSome then 0 else 3)).advance)
    | _, _ => s)) s

/-- The state after the translations of an ASID are retired (R364). -/
def State.retireAsid (s : State) (asid : Nat) : State :=
  let ep := s.epoch asid + 1
  let s := { s with epochs := nset s.epochs asid ep, atsq := s.atsq.filter (fun q => q.asid != asid) }
  if ep = 0 then s.purge asid 0 (2 ^ 64) else s

/-- `asidr` in a partition: the state and the status (R364). -/
def State.asidr (s : State) (part a : Nat) : State × Nat :=
  let q := s.part part
  if 2 ^ 16 ≤ a ∨ a < q.asid0.toNat ∨ q.asid0.toNat + q.asidn.toNat ≤ a then (s, 3)
  else if s.teams.any (fun t => t.asid == a) then (s, 5)
  else (s.retireAsid a, 0)

/-- R364: `asidr`. -/
def execAsidr (d a : Opd) (s : State) : Host.Outcome State Fault Refusal :=
  issue (.asidr d a) (eachMember (fun p k s =>
    match s.team? p.team, s.slice? p.team k with
    | some t, some sl =>
      let r := s.asidr t.part (sl.readS a).toNat
      r.1.setSlice p.team k (fun sl => (sl.writeS d (BitVec.ofNat 32 r.2)).advance)
    | _, _ => s)) s

/-! ## `fret` (R344) -/

/-- The records of a slice that `fret` replays, as accesses: the lanes of one uniform access are replayed together
(R221, R344). A barrier word's record has no lane access to replay. -/
def replayAccs (recs : List FaultRec) : List Acc :=
  (recs.filter (fun r => r.acc.kind != .barWord)).foldl (fun l r =>
    if r.acc.uniform && l.any (fun x => decide ({ x with lanes := [] } = { r.acc with lanes := [] })) then
      l.map (fun (x : Acc) => if { x with lanes := [] } = { r.acc with lanes := [] } then { x with lanes := insertNat r.lane x.lanes } else x)
    else l ++ [{ r.acc with lanes := [r.lane] }]) []

/-- The accesses that one word made, in the order of their lanes: each group attaches to its flag once (R65, R344). -/
def replayGroups (as : List Acc) : List (List Acc) :=
  (dedup (as.map (fun a => (a.hdr, a.ix)))).map (fun k => as.filter (fun a => (a.hdr, a.ix) == k))

/-- Whether `fret` replays a record: its lane is in the mask, and it is not one of poison (R339, R344). -/
def FaultRec.replayed (r : FaultRec) (replay : Nat) : Bool := bit replay r.lane && r.cause != 0x18

/-- Whether a record is over after `fret`: replayed, or discarded without being in the replay mask (R344). -/
def FaultRec.over (r : FaultRec) (replay discard : Nat) : Bool :=
  r.replayed replay || (bit discard r.lane && !bit replay r.lane)

/-- The slice after `fret` past its check: the masks, the banks, EXEC and the mode (R344). -/
def Slice.fretTo (sl : Slice) (replay discard : Nat) : Slice :=
  let held := maskOf (sl.recs.map (fun r => r.lane))
  let kept := maskOf ((sl.recs.filter (fun r => !r.over replay discard)).map (fun r => r.lane))
  let park := (sl.park &&& ~~~(BitVec.ofNat 4 held)) ||| BitVec.ofNat 4 kept
  { { (sl.swapBank) with recs := sl.recs.filter (fun r => !r.over replay discard), park := park, mode := .user }.setExec
      (sl.sepc.setWidth 4) with conv := (sl.sepc.setWidth 4 &&& ~~~park) == 0 }

/-- The state after the replayed accesses of a slice are issued anew, to be performed at once or, with `lag`, in any order (R219,
R134, R344). -/
def State.replay (s : State) (u k : Nat) (lag : Bool) (gs : List (List Acc)) : State :=
  gs.foldl (fun s g =>
    let s := s.setSlice u k (fun sl => sl.attach (g.findSome? (fun a => a.flag)))
    s.issueAccs u k lag g) s

/-- The accesses that `fret` replays in a slice, with its replay mask in A (R344). -/
def Slice.replays (sl : Slice) (a : Opd) : List (List Acc) :=
  replayGroups (replayAccs (sl.recs.filter (fun r => r.replayed ((sl.readS a).toNat % 16))))

/-- The effect of `fret` in a slice (R344). -/
def fretOne (a b : Opd) (lag : Bool) (p : At) (k : Nat) (s : State) : State :=
  match s.team? p.team, s.slice? p.team k with
  | some t, some sl =>
    let replay := (sl.readS a).toNat % 16
    let discard := (sl.readS b).toNat % 16
    let pc := pcWord p.hdr p.ix sl.exec.toNat
    match s.returnTo p.team k t.record.codebase false sl.sepc (fun sl => sl.fretTo replay discard) with
    | (s, some (.ok _)) => s.replay p.team k lag (sl.replays a)
    | (s, some (.error c)) => s.fetchHold p.team k c (some (t.record.codebase + pcHdr sl.sepc)) pc
    | (s, none) => s.doubleFault p.team k 0x05 none pc
  | _, _ => s

/-- `fret` stalls while the flag of an access to replay reads 63 (R65), or a word of the clause it returns to waits for the
host (R68, R170). -/
def fretWaits (a : Opd) (p : At) (s : State) : Option State :=
  match s.team? p.team with
  | none => none
  | some t =>
    let full := p.members.any (fun k => match t.slice? k with
      | some sl =>
        let gs := sl.replays a
        gs.any (fun g => match g.findSome? (fun x => x.flag) with
          | some f => decide (63 < (sl.flag f).toNat + gs.length)
          | none => false)
      | none => false)
    if full then some (s.stall p.team (p.members.headD 0))
    else returnWaits (fun _ t sl => (t.record.codebase, false, sl.sepc)) p s

/-- R344: `fret`. -/
def execFret (a b : Opd) (s : State) : Host.Outcome State Fault Refusal :=
  issueWith (.fret a b) (fretWaits a) (fun p s =>
    let accs := (p.members.filterMap (fun k => s.slice? p.team k)).flatMap (fun sl => (sl.replays a).flatten)
    eachMember (fretOne a b (decide (1 < accs.length))) p s) s

/-! ## `uintr`, `pstat`, `halt`, `ecnt` (R342, R345, R346, R444) -/

/-- The state after a user interrupt is sent to a slice, or every live slice, of a team; whether a target was live
(R180, R345). -/
def State.interrupt (s : State) (u : Nat) (all : Bool) (k : Nat) : State × Bool :=
  match s.anyTeam? u with
  | none => (s, false)
  | some t =>
    let hit := t.live.filter (fun sl => all || sl.idx == k)
    if hit.isEmpty then (s, false)
    else
      (s.onTeam u (fun t => { t with slices := t.slices.map (fun sl =>
        if hit.any (fun h => h.idx == sl.idx) then { sl with uiPend := true } else sl) }), true)

/-- The team of a launch that has a number, resident, draining or saved. -/
def State.teamNo (s : State) (l n : Nat) : Option Nat :=
  ((s.teamsOf l ++ s.savedOf l).find? (fun t => t.no == n)).map (fun t => t.uid)

/-- R345: `uintr`. -/
def execUintr (a b : Opd) (s : State) : Host.Outcome State Fault Refusal :=
  issueWith (.uintr a b) queueWaits (fun p s => eachMember (fun p k s =>
    match s.team? p.team, s.slice? p.team k with
    | some t, some sl =>
      let r := match s.teamNo t.launch (sl.readS a).toNat with
        | some u => s.interrupt u ((sl.readS b).getLsbD 6) ((sl.readS b).toNat % 64)
        | none => (s, false)
      r.1.setSlice p.team k (fun sl => { sl.advance with scc := r.2 })
    | _, _ => s) p (s.leaveQueue p)) s

/-- The value of a supervisor index (R336). -/
def State.supIndex (s : State) (t : Team) (sl : Slice) (i : Nat) : Word :=
  let q := s.part t.part
  match i with
  | 0 => sl.scause
  | 1 => sl.sepc
  | 2 => sl.sfpc
  | 3 => BitVec.ofNat 32 (t.asid <<< 16 + t.part)
  | 4 => q.scode.setWidth 32
  | 5 => (q.scode >>> 32).setWidth 32
  | 6 => BitVec.ofNat 32 (min (freeFrames q.pool (dieOf t.core)) (2 ^ 32 - 1))
  | _ =>
    if 16 ≤ i ∧ i < 32 then
      match sl.rec? ((i - 16) / 4) with
      | some r =>
        match i % 4 with
        | 0 => BitVec.ofNat 32 r.va
        | 1 => BitVec.ofNat 32 (r.va >>> 32)
        | 2 => r.info
        | _ => 0
      | none => 0
    else 0

/-- R342: `pstat`. -/
def execPstat (d a : Opd) (i : BitVec 7) (s : State) : Host.Outcome State Fault Refusal :=
  issue (.pstat d a i) (eachMember (fun p k s =>
    match s.team? p.team, s.slice? p.team k with
    | some t, some sl =>
      let v := s.supIndex t sl ((i.toNat + (sl.readS a).toNat) % 128)
      s.setSlice p.team k (fun sl => (sl.writeS d v).advance)
    | _, _ => s)) s

/-- The slice after a supervisor index is written; only SEPC has writable fields (R336). -/
def Slice.setSup (sl : Slice) (i : Nat) (a : Word) : Slice :=
  if i = 1 then { sl with sepc := a &&& 0xFFFFFFEF#32 } else sl

/-- R342: `pstat.w`. -/
def execPstatW (d a : Opd) (i : BitVec 7) (s : State) : Host.Outcome State Fault Refusal :=
  issue (.pstatW d a i) (eachMember (fun p k s =>
    match s.team? p.team, s.slice? p.team k with
    | some t, some sl =>
      let v := s.supIndex t sl i.toNat
      s.setSlice p.team k (fun _ => ((sl.setSup i.toNat (sl.readS a)).writeS d v).advance)
    | _, _ => s)) s

/-- R346: `halt`. The log entry names the clause after it (R332). -/
def execHalt (a : Opd) (s : State) : Host.Outcome State Fault Refusal :=
  issue (.halt a) (eachMember (fun p k s =>
    match s.slice? p.team k with
    | none => s
    | some sl =>
      let sl' := sl.advance
      let s := s.logSlice p.team k 0x22 0 0 none (pcWord sl'.hdr sl'.ix sl.exec.toNat) (some (sl.readS a))
      (s.setSlice p.team k Slice.advance).setTeam p.team (fun t => t.hold 0x22 [k]))) s

/-- R444: `ecnt`. -/
def execEcnt (d : Opd) (s : State) : Host.Outcome State Fault Refusal :=
  issue (.ecnt d) (fun p s =>
    s.setTeam p.team (fun t => t.onMembers p.members (fun sl =>
      (sl.writePair d (p.energy.toNat + (if p.esat then 2 ^ 48 else 0))).advance))) s

/-! ## Skip-slot images (R409) -/

/-- Where the checks of an image's 576 bytes end: its pieces, a wait, or a failure (R219, R221, R409). -/
def State.imagePieces (s : State) (t : Team) (n : Need) : List (Nat × Nat) → State × Eng (List Piece)
  | [] => (s, .ok [])
  | (va, sz) :: rest =>
    match s.translate t.part t.core t.asid va n true s.curBad with
    | (s, none) => (s, .wait)
    | (s, some (.error _)) => (s, .bad 0x07 va)
    | (s, some (.ok l)) =>
      match s.policyFault t.core l (l.addr va) n false with
      | some _ => (s, .bad 0x07 va)
      | none =>
        match s.imagePieces t n rest with
        | (s, .ok ps) => (s, .ok ({ va := va, pa := l.addr va, size := sz, leaf := l } :: ps))
        | r => r

/-- The checks of an image's bytes (R409). -/
def State.imageCheck (s : State) (t : Team) (n : Need) (va : Nat) : State × Eng (List Piece) :=
  if !canonicalRange va 576 then (s, .bad 0x07 va) else s.imagePieces t n (pieces 128 va 576)

/-- Who moves a skip-slot image. -/
def imageWho (t : Team) (k : Nat) : Who where
  core := some t.core
  team := t.uid
  slice := k
  lane := 0
  agent := 0

/-- The bytes of a skip slot's image as a number (R409). -/
def skipImage (k : Option Skip) : Nat :=
  match k with
  | some k => k.region + k.phase.toNat <<< 64 + 1 <<< 96 + k.bits.toNat <<< 512
  | none => 0

/-- The skip slot of an image: `none` for a bad image, else the slot, if it is bound (R409). -/
def skipOfImage (v : Nat) : Option (Option Skip) :=
  let region := bits v 63 0
  if bits v 95 88 ≠ 0 ∨ bits v 127 97 ≠ 0 ∨ bits v 511 128 ≠ 0 ∨ region % 64 ≠ 0 then none
  else if bit v 96 then
    some (some { region := region, phase := BitVec.ofNat 24 (bits v 87 64), bits := BitVec.ofNat 4096 (v >>> 512) })
  else some none

/-- The status that ends a skip-slot word before its wait: a bad operand, or another holder (R409). -/
def State.imageEnds (s : State) (t : Team) (sl : Slice) (a b : Opd) : Option Nat :=
  if 7 < (sl.readS b).toNat ∨ sl.pair 0 a 0 % 64 ≠ 0 then some 3
  else
    match (s.engine t.core).holder with
    | some u => if u = t.uid then none else some 6
    | none => none

/-- The accesses of a slice that must take their events before an image's, and have not: ordinary ones, and those that
share a byte with it (R135, R136). -/
def State.imageOlder (s : State) (u k : Nat) (ps : List Piece) : List (Nat × Nat) :=
  ((s.coming u k s.fresh).filter (fun x => x.2.2.1.orderOn x.2.2.2 == .ord || sameBytes x.2.2.2 ps)).map (fun x => (x.1, x.2.1))

/-- The state after those accesses are performed, as far as they may be. -/
def State.forceImage (s : State) (u k : Nat) (ps : List Piece) : State :=
  let l := s.imageOlder u k ps
  s.force (fun op b => (List.range op.accs.length).any (fun i => l.contains (op.id, i) && (op.accs[i]?).map Prod.fst == some b))

/-- Whether some event of an image would pass the core's checkpoint ceiling, or find no room for the pre-image it replaces (R137,
R403). -/
def State.imagePast (s : State) (t : Team) (k : Nat) (ps : List Piece) (wrote : Bool) : Bool :=
  let l := s.timesFrom wrote (s.clockOf (imageWho t k)) ((ps.filter Piece.event).map (fun p => p.pa))
  (wrote && l.any (fun x => s.captureFull x.1 x.2)) || s.pastCeiling t.core l

/-- The wait of a skip-slot word: until the commands queued before it have completed, its pages are translated, and its
events lie below the ceiling; its team then holds the engine, and its operation is accepted (R258, R390, R409). -/
def imageWaits (n : Need) (a b : Opd) (p : At) (s : State) : Option State :=
  match s.team? p.team with
  | none => none
  | some t =>
    let r := p.members.foldl (fun (acc : State × Bool) k =>
      match t.slice? k with
      | none => acc
      | some sl =>
        match acc.1.imageEnds t sl a b with
        | some _ => acc
        | none =>
          let s := acc.1.setEngine t.core (fun e => { e with holder := some t.uid })
          if !(s.engine t.core).queue.isEmpty then (s, true)
          else
            match s.imageCheck t n (sl.pair 0 a 0) with
            | (s, .wait) => (s, true)
            | (s, .bad _ _) => (s, acc.2)
            | (s, .ok ps) =>
              let s := s.forceImage t.uid k ps
              (s, acc.2 || !(s.imageOlder t.uid k ps).isEmpty || s.imagePast t k ps n.writes)) (s, false)
    if r.2 then some (r.1.acceptStall p .image) else none

/-- `sksave` past its wait: the state and the status (R409). -/
def State.sksave (s : State) (t : Team) (k va n : Nat) : State × Nat :=
  match s.imageCheck t .store va with
  | (s, .ok ps) =>
    let v := skipImage (((s.engine t.core).skips.find? (fun x => x.1 == n)).map Prod.snd)
    let r := (s.forceImage t.uid k ps).askPeers .store 0 v ps
    if r.2 then (r.1.writePieces (imageWho t k) t.asid v ps, 0) else (r.1, 7)
  | (s, .wait) => (s, 7)
  | (s, .bad e _) => (s, e)

/-- `skload` past its wait: the state and the status (R409). -/
def State.skload (s : State) (t : Team) (k va n : Nat) : State × Nat :=
  match s.imageCheck t .load va with
  | (s, .ok ps) =>
    let c := (s.forceImage t.uid k ps).askPeers .load 0 0 ps
    let r := c.1.readPieces (imageWho t k) t.asid true ps 0
    if !c.2 then (c.1, 7)
    else if r.2.2 then (r.1, 7)
    else
      match skipOfImage r.2.1 with
      | none => (r.1, 3)
      | some none => (r.1.setEngine t.core (fun e => e.unbind (fun x => x.1 == n)), 0)
      | some (some x) =>
        (r.1.setEngine t.core (fun e =>
          (e.unbind (fun y => y.1 != n && y.2.region == x.region)).setSkip n x), 0)
  | (s, .wait) => (s, 7)
  | (s, .bad e _) => (s, e)

/-- The issue of a skip-slot word. -/
def issueImage (i : Instr) (need : Need) (f : State → Team → Nat → Nat → Nat → State × Nat) (d a b : Opd) (s : State) :
    Host.Outcome State Fault Refusal :=
  issueWith i (imageWaits need a b) (eachMember (fun p k s =>
    match s.team? p.team, s.slice? p.team k with
    | some t, some sl =>
      let r := match s.imageEnds t sl a b with
        | some st => (s, st)
        | none =>
          f (s.setEngine t.core (fun e => { e with holder := some t.uid })) t k (sl.pair 0 a 0) (sl.readS b).toNat
      r.1.setSlice p.team k (fun sl => (sl.writeS d (BitVec.ofNat 32 r.2)).advance)
    | _, _ => s)) s

/-- R409: `sksave`. -/
def execSksave (d a b : Opd) (s : State) : Host.Outcome State Fault Refusal :=
  issueImage (.sksave d a b) .store State.sksave d a b s

/-- R409: `skload`. -/
def execSkload (d a b : Opd) (s : State) : Host.Outcome State Fault Refusal :=
  issueImage (.skload d a b) .load State.skload d a b s

end Sys2Proof.Machine
end

