-- ==== Sys2Proof/Machine/Progress.lean ====
section
/-! DEFINITION. The events of a running core: fetch entries, ageing, the end of slices, the completion of accesses and
walks, fault vectors, user interrupts and the static charge (R12, R18, R19, R50, R181, R220, R222, R340, R361,
R415). -/

namespace Sys2Proof.Machine

/-! ## Fetch entries and classes (R18, R19, R50) -/

/-- R18: the first waiting sub-crew of a core receives a free entry. A place in the queue whose sub-crew is gone or
holds an entry already is passed over. -/
def execFetchEntryGrant (core : Nat) (s : State) : Host.Outcome State Fault Refusal :=
  match (s.core core).waiting with
  | [] => .next s
  | (u, k) :: rest =>
    if s.entriesHeld core < fetchEntries then
      .next ((s.setCore core (fun c => { c with waiting := rest })).setTeam u (fun t => t.setSub k (fun b => { b with entry := true })))
    else .next s

/-- R19: a sub-crew at a clause boundary, or stalled in `inval` or `flush`, gives up its entry to the sub-crews that wait,
and joins the back of the queue. That it held the entry for 1,024 cc is part of the event. -/
def execFetchEntryRotation (team first : Nat) (s : State) : Host.Outcome State Fault Refusal :=
  match s.team? team with
  | none => .next s
  | some t =>
    match t.sub? first, t.slice? first with
    | some b, some sl =>
      if b.entry && (!sl.opened || b.accepted == some .lines) && !(s.core t.core).waiting.isEmpty then
        .next ((s.setTeam team (fun t => t.setSub first (fun b => { b with entry := false }))).askEntry team first)
      else .next s
    | _, _ => .next s

/-- R50: a live slice moves up one class. That it waited 4,096 cc is part of the event. -/
def execPriorityAgeing (team slice : Nat) (s : State) : Host.Outcome State Fault Refusal :=
  .next (s.setSlice team slice (fun sl => if sl.ended then sl else { sl with cls := sl.cls - 1 }))

/-! ## The end of a slice (R12) -/

/-- Whether the end of a slice or thread is due (R12, R253). -/
def State.endDue (s : State) (u k : Nat) : Bool :=
  match s.team? u, s.slice? u k with
  | some t, some sl =>
    sl.block == .ending && s.mayEnd u k
    && (match sl.thread with
        | some th => th.fail.isNone
        | none => t.st == .running && t.halt.isNone)
  | _, _ => false

/-- R12: the `end` of a slice takes effect, or of a handler thread (R253). -/
def execSliceEnd (team slice : Nat) (s : State) : Host.Outcome State Fault Refusal :=
  if s.endDue team slice then
    match (s.slice? team slice).bind (fun sl => sl.thread) with
    | some th => .next ((s.dropThread team slice th).settle team)
    | none => .next (s.endSlice team slice)
  else .next s

/-! ## Accesses (R220, R222, R361) -/

/-- An operation completes, if it returns data or not as `flagged` says, and its team is looked at. -/
def State.complete? (s : State) (id : Nat) (flagged : Bool) : State :=
  match s.pend.find? (fun p => p.id == id) with
  | none => s
  | some op => if op.flagged == flagged then (s.completeOp id).settle op.team else s

/-- R220: a load or returning atomic completes. -/
def execLoadComplete (op : Nat) (s : State) : Host.Outcome State Fault Refusal := .next (s.complete? op true)

/-- R222: a posted store or atomic is performed. -/
def execPostedWritePerformed (op : Nat) (s : State) : Host.Outcome State Fault Refusal := .next (s.complete? op false)

/-- The first byte of an access that no TLB and no ATS cache translates (R220). -/
def State.missAt (s : State) (t : Team) (a : Acc) : Option Nat :=
  ((pieces 128 a.ea a.size).find? (fun p => s.lookUp t.core t.asid p.1 a.need a.sup matches .miss)).map Prod.fst

/-- The page walks that the accesses of a cluster wait for, in arrival order: ASID and 64 KiB page (R361). -/
def State.walking (s : State) (cluster : Nat) : List (Nat × Nat) :=
  (s.pend.flatMap (fun op => op.accs.filterMap (fun x =>
    match x.2, s.team? op.team with
    | .walk, some t => if clusterOf t.core = cluster then (s.missAt t x.1).map (fun va => (t.asid, va / 65536)) else none
    | _, _ => none))).foldl (fun l w => if l.contains w then l else l ++ [w]) []

/-- The walkers of a cluster (R361). -/
def walkers : Nat := 64

/-- Whether an access waits for the walk of a 64 KiB page in a cluster (R361). -/
def State.walks (s : State) (cluster asid page : Nat) (op : PendOp) (a : Acc) (st : AccSt) : Bool :=
  st == .walk &&
  match s.team? op.team with
  | some t => t.asid == asid && clusterOf t.core == cluster && (s.missAt t a).map (· / 65536) == some page
  | none => false

/-- Whether an access waits for nothing any more: for a walk when its bytes are translated, for the host when no request is
outstanding for what it misses (R220, R361, R368). -/
def State.waitOver (s : State) (op : PendOp) (a : Acc) (st : AccSt) : Bool :=
  match st, s.team? op.team with
  | .walk, some t => (s.missAt t a).isNone
  | .ats, some t =>
    match s.missAt t a with
    | none => true
    | some va => !s.atsq.any (fun q => q.die == dieOf t.core && q.asid == t.asid && q.page == va / 4096
        && q.write == a.need.writes)
  | _, _ => false

/-- The state after the accesses whose wait is over are tried again. -/
def State.retryOver (s : State) : State := s.retry (fun op a st => s.waitOver op a st)

/-- Check 4 of a piece of an access, one that nothing translates being walked for (R219). -/
def State.walkPiece (s : State) (t : Team) (a : Acc) (q : Nat × Nat) : Att :=
  match s.checkPiece t.core t.asid a.need a.sup a.relaxed q with
  | .miss =>
    match walked (s.walk t.part (clusterOf t.core) t.asid q.1).1 a.need a.sup with
    | .fault c => .fault c q.1
    | .hit _ | .host _ => .go []
  | .fault c v => .fault c v
  | .go ps => .go ps

/-- An access after the walk it waits for ends with a leaf or none (R358, R361, R367). Where that fails it, the condition that
comes first over all its pages is the one recorded (R219). -/
def State.walkedAcc (s : State) (leaf : Option Leaf) (op : PendOp) (a : Acc) : State × AccSt :=
  match s.team? op.team with
  | none => (s, .dropped)
  | some t =>
    let va := (s.missAt t a).getD a.ea
    match walked leaf a.need a.sup with
    | .hit _ => s.tryAcc op.team op.slice op.id op.lag a
    | .fault c =>
      match ((pieces 128 a.ea a.size).map (s.walkPiece t a)).foldr Att.both (.go []) with
      | .fault c v => (s.parkAcc op.team op.slice a c v, .dropped)
      | .miss | .go _ => (s.parkAcc op.team op.slice a c va, .dropped)
    | .host l => (s.askHost (dieOf t.core) t.asid va a.need.writes l, .ats)

/-- The state after each team is looked at. -/
def State.settleAll (s : State) : State := (s.teams.map (fun t => t.uid)).foldl State.settle s

/-- R361: the walk of a 64 KiB page in a cluster ends for every access that shares it. A cluster makes as many walks at a
time as it has walkers, in arrival order. -/
def execPageWalkComplete (cluster asid page : Nat) (s : State) : Host.Outcome State Fault Refusal :=
  if ((s.walking cluster).take walkers).contains (asid, page) then
    let w := s.walk (s.partOfAsid asid) cluster asid (65536 * page)
    let waits := fun (op : PendOp) (a : Acc) (st : AccSt) => s.walks cluster asid page op a st
    let s' := s.walkFill cluster asid w.1 w.2
    .next ((s'.stepAccs waits (fun s op a _ => s.walkedAcc w.1 op a)).retryOver.settleAll)
  else .next s

/-- The state after one access of an operation takes its event, if all that must precede it may, or stands answered by its peer,
or is tried again once its wait is over (R134, R139, R220, R376). -/
def State.performOne (s : State) (id i : Nat) : State :=
  match s.acc? id i with
  | none => s
  | some (op, a, st) =>
    let s := match st with
      | .late ps =>
        let r := s.clearBefore op.team op.slice op.id a ps
        if r.2 then r.1.performLate op.team op.slice id i else r.1
      | .ceil =>
        let y := s.tryAcc op.team op.slice op.id op.lag a
        y.1.setAcc id i (a, y.2)
      | .walk | .ats =>
        if s.waitOver op a st then
          let y := s.tryAcc op.team op.slice op.id op.lag a
          y.1.setAcc id i (a, y.2)
        else s
      | .peer _ => s.performPeer op.team op.slice id i
      | .got _ _ | .written | .dropped => s
    s.settle op.team

/-! ## Vectors and interrupts (R181, R340) -/

/-- Whether the next word of a slice is a convergence point, all its accesses being resolved (R338). -/
def State.atConvergence (s : State) (t : Team) (sl : Slice) : Bool :=
  sl.conv || (sl.opened &&
    match sl.code[sl.ix]? with
    | some w => wordConverges w
    | none =>
      match (s.fetch t (sl.mode == .supervisor) true (s.wordAddr t sl sl.hdr sl.ix)).2 with
      | some (.ok w) => wordConverges w
      | some (.error _) | none => false)

/-- Whether a slice's fault vector is due (R334, R338, R340). -/
def State.vectorDue (s : State) (u k : Nat) : Bool :=
  match s.team? u, s.slice? u k with
  | some t, some sl =>
    t.st == .running && t.halt.isNone && sl.block == .none && !sl.ended && sl.thread.isNone && sl.vectors
    && s.allResolved u k && s.atConvergence t sl
  | _, _ => false

/-- R340: a slice takes its fault vector at a convergence point. -/
def execFaultVector (team slice : Nat) (s : State) : Host.Outcome State Fault Refusal :=
  if s.vectorDue team slice then .next ((s.takeFaultVector team slice).settle team) else .next s

/-- Whether a user interrupt is delivered to a slice now (R180, R334). -/
def State.uiDue (s : State) (u k : Nat) : Bool :=
  match s.team? u, s.slice? u k with
  | some t, some sl =>
    t.st == .running && t.halt.isNone && sl.uiDue (((t.sub? k).map (fun b => b.joined)).getD false)
  | _, _ => false

/-- The slices of a slice's sub-crew in which a user interrupt is due with its own: they stand at one boundary (R181). -/
def State.uiMates (s : State) (u k : Nat) : List Nat :=
  (((s.team? u).bind (fun t => t.sub? k)).map (fun b => b.members.filter (s.uiDue u))).getD [k]

/-- R181: a pending user interrupt is delivered to a slice, with those due at the same boundary; a `claim` behind one it
leaves may then be served (R310). -/
def execUserInterruptDelivery (team slice : Nat) (s : State) : Host.Outcome State Fault Refusal :=
  if s.uiDue team slice then
    let s := s.deliver team (s.uiMates team slice)
    .next ((s.serveClaims team (((s.team? team).map (fun t => t.claims.length)).getD 0)).settle team)
  else .next s

/-! ## The static charge (R415) -/

/-- R415: a tick of the 1 µs reference. Every team on a core is charged its share, and has been resident 1 µs longer
(R394). -/
def execStaticEnergyTick (s : State) : Host.Outcome State Fault Refusal :=
  .next { s with teams := s.teams.map (fun t =>
    let n := total ((s.teamsOn t.core).map (fun x => x.record.slices))
    { t.addEnergy ((Config.stat t.core).toNat * t.record.slices / n) with resid := t.resid + 1 }) }

end Sys2Proof.Machine
end

