-- ==== Sys2Proof/Machine/Service.lean ====
section
/-! DEFINITION. Service calls: the batches of an issue, their place in the service ring, and the server's reply (R175,
R349 to R352). -/

namespace Sys2Proof.Machine

/-- The crew lanes of one slice in a batch: crew lane, slice, lane, argument, destination (R350). -/
def Slice.svcLanes (c : Nat) (sl : Slice) (wide : Bool) (d b : Opd) : List (Nat × Nat × Nat × Dword × Option Nat) :=
  sl.lanes.map (fun l =>
    (4 * sl.pos c + l, sl.idx, l, BitVec.ofNat 64 (sl.readN c b l (if wide then 2 else 1)), (sl.dstRegs d 1).head?))

/-- The slice after a reply is written to a lane: one register, or a pair (R175). -/
def Slice.writeReply (sl : Slice) (wide : Bool) (l : Nat) (dst : Option Nat) (r : Dword) : Slice :=
  match dst with
  | none => sl
  | some q =>
    let sl := sl.vset q l (r.setWidth 32)
    if wide then sl.vset (q + 1) l ((r >>> 32).setWidth 32) else sl

/-- The state after every lane of a batch has its reply: a function of the lane's place in the batch and its argument
(R175, R351). -/
def State.writeReplies (s : State) (b : Batch) (r : Nat → Dword → Dword) : State :=
  (b.lanes.zip (List.range b.lanes.length)).foldl (fun s x =>
    s.setSlice b.team x.1.2.1 (fun sl => sl.writeReply b.wide x.1.2.2.1 x.1.2.2.2.2 (r x.2 x.1.2.2.2.1))) s

/-- The state after one word of a lane's reply is written (R175, R190). -/
def State.landReply (s : State) (u k l : Nat) (dst : Option Nat) (r : Dword) (j : Nat) : State :=
  match dst with
  | none => s
  | some q => s.landWord u k (q + j) l ((r >>> (32 * j)).setWidth 32)

/-- The words of slice `k` that the replies of a batch will write, each 4 × register + lane (R190). -/
def Batch.keys (b : Batch) (k : Nat) : List Nat :=
  (b.lanes.filter (fun x => x.2.1 == k)).flatMap (fun x => match x.2.2.2.2 with
    | some q => (List.range (if b.wide then 2 else 1)).map (fun j => 4 * (q + j) + x.2.2.1)
    | none => [])

/-- The batch of the slices of a sub-crew that supply one service word (R350). -/
def Team.batch (t : Team) (p : At) (wide : Bool) (d a b : Opd) (id : Nat) (w : Word) : Batch :=
  let sls := p.members.filterMap (fun k => t.slice? k) |>.filter (fun sl => sl.eff != 0 && sl.readS a == w)
  { id := id, team := t.uid, word := w, pc := pcWord p.hdr p.ix 0, wide := wide, dst := d,
    crew := t.crewOf (p.members.headD 0),
    lanes := sls.flatMap (fun sl => sl.svcLanes t.record.crewlog wide d b),
    flags := sls.map (fun sl => (sl.idx, p.flag)), slot := none, answer := none, given := [] }

/-- Whether the class of a service word is served in a partition (R349). -/
def State.served (s : State) (p : Nat) (w : Word) : Bool := (s.part p).svcmask.getLsbD (w.toNat >>> 24)

/-- R175, R350: `svc`. -/
def execSvc (w : BitVec 1) (d a b : Opd) (s : State) : Host.Outcome State Fault Refusal :=
  issuePoint (.svc w d a b) false (fun _ _ => none) (fun p s =>
    match s.team? p.team with
    | none => s
    | some t =>
      let on := p.members.filterMap (fun k => t.slice? k) |>.filter (fun sl => sl.eff != 0)
      let words := dedup (on.map (fun sl => sl.readS a))
      let s := eachMember (fun p k s => s.orderPoint p.team k false) p s
      let s := s.advanceAll p
      words.foldl (fun s word =>
        let b := t.batch p (w == 1) d a b s.fresh word
        if s.served t.part word then
          let s := b.flags.foldl (fun s f => s.setSlice t.uid f.1 (fun sl =>
            { sl.attach f.2 with marks := sl.marks.await (b.keys f.1) })) s
          { s with batches := s.batches ++ [b], fresh := s.fresh + 1 }
        else s.writeReplies b (fun _ _ => BitVec.allOnes 64)) s) s

/-- The die whose service queue takes a batch (R351). -/
def State.batchDie (s : State) (b : Batch) : Nat := dieOf (((s.team? b.team).map (fun t => t.core)).getD 0)

/-- The free slot for a batch of a die: the first from the place after the batch last placed, round the ring; none while the ring
holds 4,096 records (R351; log 67). -/
def State.freeSlot (s : State) (die : Nat) : Option Nat :=
  let held := s.batches.filterMap (fun b => if s.batchDie b = die then b.slot else none)
  let slot := fun (i : Nat) => ((nget s.svcRing die).toNat + i) % 4096
  (findBelow 4096 (fun i => !held.contains (slot i))).map slot

/-- Whether a batch is the next of its die to be placed (R351). -/
def State.batchDue (s : State) (id : Nat) : Bool :=
  match s.batches.find? (fun b => b.id == id) with
  | none => false
  | some b =>
    b.slot.isNone && (s.freeSlot (s.batchDie b)).isSome
    && ((s.batches.find? (fun x => x.slot.isNone && s.batchDie x == s.batchDie b)).map (fun x => x.id)) == some id

/-- The physical address of a slot of a die's service ring: 4,096 slots of 512 bytes in the die's HBM, where firmware keeps
them (R351; log 67). -/
def serviceSlot (die k : Nat) : Nat := dieBytes * die + Config.serviceRing die % (dieBytes / 512 - 4096) * 512 + 512 * k

/-- The first 64 bytes of a batch record, with its STATUS (R350). -/
def Batch.header (b : Batch) (t : Team) (status : Nat) : List Byte :=
  bytesOfNat 4 b.word.toNat ++ bytesOfNat 4 (maskOf (b.lanes.map (fun x => x.1))) ++ bytesOfNat 4 b.pc.toNat
  ++ bytesOfNat 4 (t.asid <<< 16 + t.part <<< 12 + b.wide.toNat) ++ bytesOfNat 8 t.record.codebase ++ bytesOfNat 4 t.no
  ++ bytesOfNat 4 (t.record.job <<< 16 + b.crew) ++ bytesOfNat 4 status ++ List.replicate 28 0

/-- The state after a number is written for each lane of a batch in its record (R350). -/
def State.writeArgs (s : State) (b : Batch) (slot : Nat) (v : Nat → Dword → Dword) : State :=
  (b.lanes.zip (List.range b.lanes.length)).foldl (fun s x =>
    s.devWrite (slot + 0x40 + 8 * x.1.1) (bytesOfNat 8 (v x.2 x.1.2.2.2.1).toNat)) s

/-- The state after a batch record is written into its slot, posted (R350, R351). -/
def State.postBatch (s : State) (b : Batch) (slot : Nat) : State :=
  match s.team? b.team with
  | some t => (s.devWrite slot (b.header t 0)).writeArgs b slot (fun _ a => a)
  | none => s

/-- The state with a batch changed. -/
def State.setBatch (s : State) (id : Nat) (f : Batch → Batch) : State :=
  { s with batches := s.batches.map (fun b => if b.id = id then f b else b) }

/-- R351: a batch record enters its die's ring. -/
def execServiceBatchEnqueue (batch : Nat) (s : State) : Host.Outcome State Fault Refusal :=
  match s.batches.find? (fun b => b.id == batch) with
  | none => .next s
  | some b =>
    match s.freeSlot (s.batchDie b) with
    | none => .next s
    | some k =>
      if s.batchDue batch then
        let s := { s with svcRing := nset s.svcRing (s.batchDie b) (BitVec.ofNat 16 ((k + 1) % 4096)) }
        .next ((s.setBatch batch (fun b => { b with slot := some k })).postBatch b (serviceSlot (s.batchDie b) k))
      else .next s

/-- The state after the server's replies reach the device: they are written word by word before the flags fall (R190, R351). -/
def State.answerBatch (s : State) (b : Batch) (r : List Dword) : State :=
  s.setBatch b.id (fun b => { b with answer := some r })

/-- The state after a batch fails: all-ones replies and one log entry, cause 0x23 (R351). -/
def State.failBatch (s : State) (b : Batch) : State :=
  (s.logSlice b.team ((b.flags.map Prod.fst).headD b.crew) 0x23 0 0 (some 0) b.pc (some 0)).answerBatch b
    (b.lanes.map (fun _ => BitVec.allOnes 64))

/-- R351: a server writes its replies in the places of the arguments, and then STATUS; the device reads the record. A reply
that the server did not write leaves the argument in its place. A record that cannot be read fails the batch. -/
def execServiceStatus (batch : Nat) (status : BitVec 32) (replies : List (BitVec 64)) (s : State) :
    Host.Outcome State Fault Refusal :=
  match s.batches.find? (fun b => b.id == batch && b.answer.isNone) with
  | none => .next s
  | some b =>
    match b.slot with
    | none => .next s
    | some k =>
      if status = 0 then .next s
      else
        let slot := serviceSlot (s.batchDie b) k
        let reply := fun (i : Nat) (a : Dword) => (replies[i]?).getD a
        let lost := s.poisoned slot 0x140
        let s := (s.writeArgs b slot reply).devWrite (slot + 0x20) (bytesOfNat 4 status.toNat)
        if status = 1 ∧ !lost then
          .next (s.answerBatch b ((b.lanes.zip (List.range b.lanes.length)).map (fun x => reply x.2 x.1.2.2.2.1)))
        else .next (s.failBatch b)

/-- The state after a batch that has its answer ends: what is not yet written of the replies is written, its record leaves
the ring, and the flags fall. The team's core then reads nothing older than what the service wrote (R175, R190, R351). -/
def State.endBatch (s : State) (id : Nat) : State :=
  match s.batches.find? (fun b => b.id == id) with
  | none => s
  | some b =>
    match b.answer with
    | none => s
    | some r =>
      let words := (b.lanes.zip (List.range b.lanes.length)).flatMap (fun x =>
        ((List.range (if b.wide then 2 else 1)).filter (fun j => !b.given.contains (x.2, j))).map (fun j => (x, j)))
      let s := words.foldl (fun s w =>
        s.landReply b.team w.1.1.2.1 w.1.1.2.2.1 w.1.1.2.2.2.2 ((r[w.1.2]?).getD 0) w.2) s
      let s := { s with batches := s.batches.filter (fun x => x.id != id) }
      let s := match s.team? b.team with
        | some t => s.dropStale t.core
        | none => s
      b.flags.foldl (fun s f => s.dropFlag b.team f.1 f.2) s

/-- The state after one word of a reply is written ahead of the flags' fall (R190, R351). -/
def State.replyWord (s : State) (id place word : Nat) : State :=
  match s.batches.find? (fun b => b.id == id) with
  | none => s
  | some b =>
    match b.answer, b.lanes[place]? with
    | some r, some x =>
      if word < (if b.wide then 2 else 1) && !b.given.contains (place, word) then
        (s.landReply b.team x.2.1 x.2.2.1 x.2.2.2.2 ((r[place]?).getD 0) word).setBatch id
          (fun b => { b with given := b.given ++ [(place, word)] })
      else s
    | _, _ => s

/-- The flags of a slice that fall with a batch: a wait for one is the service-call state (R20, R351). -/
def State.serviceFlags (s : State) (u k : Nat) : BitVec 12 :=
  BitVec.ofNat 12 (maskOf (s.batches.flatMap (fun b => if b.team = u then (b.flags.filter (fun f => f.1 == k)).filterMap Prod.snd else [])))

end Sys2Proof.Machine
end

