-- ==== Sys2Proof/Machine/Preempt.lean ====
section
/-! DEFINITION. Taking teams off cores and putting them back: the halt, the team hold, the context record of a
stop, restore and thermal migration (R241, R288, R289, R333, R388 to R399, R402). -/

namespace Sys2Proof.Machine

/-! ## Context records (R394 to R397) -/

/-- Whether a team is to be held (R333). -/
def Team.holds (t : Team) : Bool :=
  match t.halt with
  | some (.hold _ _) => true
  | some .preempt | some (.migrate _) | some .quiet | none => false

/-- The room a team's largest record needs (R397). -/
def LRec.room (r : LRec) : Nat :=
  256 + 256 * r.slices + 8192 * r.slices + 128 * r.scratch + 4096 + 64 * r.copyq + 512 + 73728 + 512 * r.slices

/-- The reservations of a team: one record, or two for a tracked job (R397). -/
def LRec.rooms (r : LRec) (u : Nat) : List (Nat × Nat) := List.replicate (if r.track then 2 else 1) (u, r.room)

/-- User scalar `n` of a slice, whichever bank is in force (R331). -/
def Slice.userS (sl : Slice) (n : Nat) : Word := if sl.mode = .supervisor ∧ 16 ≤ n then nget sl.bank n else nget sl.sregs n

/-- Supervisor scalar `n`, 16 to 23 (R331). -/
def Slice.supS (sl : Slice) (n : Nat) : Word := if sl.mode = .supervisor then nget sl.sregs n else nget sl.bank n

/-- BLOCK of a slice (R395). A flag wait on a `take` is 7 while the gather is open and 6 once the request is asked; one on the
flag of a service batch, among the flags `svc`, is 5 (R20). A wait at a barrier word is 2, and a slice that only waits for its
sub-crew is 0: the spec has no code for them (DESIGN CHOICE, log 74). -/
def Team.blockCode (t : Team) (svc : BitVec 12) (sl : Slice) : Nat :=
  let waits := fun (l : List Arrival) (m : BitVec 12) => l.any (fun a => a.slice == sl.idx && (match a.flag with
    | some f => m.getLsbD f
    | none => false))
  match sl.block with
  | .none => 0
  | .flags m => if waits t.gather m then 7 else if waits t.asked m then 6 else if m &&& svc ≠ 0 then 5 else 1
  | .barrier _ _ | .barWord _ _ _ | .passed (some _) => 2
  | .passed none => 0
  | .claim => 3
  | .join _ => 4
  | .takeAgain => if t.gather.any (fun a => a.slice == sl.idx) then 7 else 6
  | .ending => 8
  | .roleDrain => 9

/-- BAR and WGEN of a slice (R395). -/
def Slice.waitedBar (sl : Slice) : Nat × Nat :=
  match sl.block with
  | .barrier b g | .passed (some (b, g)) => (b, g.toNat)
  | .none | .flags _ | .barWord _ _ _ | .claim | .join _ | .takeAgain | .passed none | .ending | .roleDrain => (0, 0)

/-- The 256 bytes of a slice entry (R395). -/
def Team.sliceEntry (t : Team) (svc : BitVec 12) (sl : Slice) : List Byte :=
  let sup := sl.mode == .supervisor
  let uscc := if sup then sl.bankScc else sl.scc
  let sscc := if sup then sl.scc else sl.bankScc
  let w := fun (x : Nat) => bytesOfNat 4 x
  w (pcWord sl.hdr sl.ix sl.exec.toNat).toNat
  ++ w (sl.park.toNat <<< 28 + uscc.toNat <<< 27 + sscc.toNat <<< 26 + sup.toNat <<< 25 + sl.uiPend.toNat <<< 24
        + (sl.waitLevel.getD 0xFF) <<< 16 + sl.wb <<< 7 + sl.alloc % 128)
  ++ w (sl.role <<< 24 + sl.cls <<< 22 + t.blockCode svc sl <<< 18 + sl.waitedBar.1 <<< 11)
  ++ w (sl.waitedBar.2 <<< 16 + (t.crewMask sl).toNat % 256)
  ++ (List.range 12).map (fun k => (sl.flag k).setWidth 8)
  ++ w (sl.fps.toNat <<< 8 + sl.fpc.toNat)
  ++ w sl.uiv.toNat ++ w sl.uisv.toNat ++ w sl.sepc.toNat ++ w sl.scause.toNat ++ w sl.sfpc.toNat ++ w 0
  ++ (List.range 24).flatMap (fun n => w (sl.userS n).toNat)
  ++ (List.range 8).flatMap (fun n => w (sl.supS (16 + n)).toNat)
  ++ List.replicate 72 0

/-- The 64 bytes of a launch record (R84). -/
def LRec.bytes (r : LRec) : List Byte :=
  bytesOfNat 8 r.codebase ++ bytesOfNat 4 r.entry
  ++ bytesOfNat 4 (r.catchSlots <<< 24 + r.regblk <<< 16 + r.nroles <<< 10 + r.crewlog <<< 8 + r.slices)
  ++ bytesOfNat 8 r.roletab ++ bytesOfNat 4 (r.bars <<< 20 + r.copyq <<< 13 + r.scratch) ++ bytesOfNat 4 r.grain
  ++ bytesOfNat 8 r.lo ++ bytesOfNat 8 r.hi ++ bytesOfNat 8 r.args
  ++ bytesOfNat 8 (r.track.toNat <<< 58 + r.elastic.toNat <<< 57 + r.coresid.toNat <<< 56 + r.phase <<< 32
                   + r.graph <<< 16 + r.job)

/-- STATE of a record, as its header codes it (R394). -/
def CtxSt.code : CtxSt → Nat
  | .draining => 0
  | .complete => 1
  | .held => 2
  | .restored => 3
  | .lost => 4

/-- The register blocks of a slice that section 2 holds: in a snapshot those marked dirty (R396, R402). -/
def Ctx.blocks (c : Ctx) (sl : Slice) : List Nat :=
  if c.snap then sl.marks.dirty.filter (fun b => decide (b < sl.alloc)) else List.range sl.alloc

/-- The scratchpad lines that section 3 holds: in a snapshot those marked dirty (R396, R402). -/
def Ctx.lineNos (c : Ctx) : List Nat := if c.snap then c.team.lines else List.range c.team.record.scratch

/-- The 128 bytes of register block `b` of a slice (R396). -/
def Slice.blockBytes (sl : Slice) (b : Nat) : List Byte :=
  (List.range 32).flatMap (fun k => bytesOfNat 4 (nget sl.vregs (32 * b + k)).toNat)

/-- A mask of slices in eight bytes. -/
def maskBytes (l : List Nat) : List Byte := bytesOfNat 8 (maskOf l)

/-- A flag in one byte, 0xFF for none. -/
def flagByte (f : Option Nat) : List Byte := bytesOfNat 1 (f.getD 0xFF)

/-- Some bytes with zeros after them, `n` in all. -/
def padTo (n : Nat) (b : List Byte) : List Byte := b ++ List.replicate (n - b.length) 0

/-- Section 4: POOL, the claim queue, the `take` gather, the barriers and the pending join slots (R396; log 12). -/
def Team.stateBytes (t : Team) : List Byte :=
  let arrived := fun (asked : Bool) (a : Arrival) =>
    padTo 8 (bytesOfNat 1 a.slice ++ bytesOfNat 1 a.octet ++ flagByte a.flag ++ bytesOfNat 1 asked.toNat)
  bytesOfNat 2 t.pool ++ bytesOfNat 2 t.claims.length ++ bytesOfNat 2 (t.gather.length + t.asked.length)
  ++ bytesOfNat 2 t.joins.length
  ++ t.claims.flatMap (fun c => maskBytes c.members ++ bytesOfNat 8 c.n)
  ++ t.gather.flatMap (arrived false) ++ t.asked.flatMap (arrived true)
  ++ t.bars.flatMap (fun b => bytesOfNat 8 (b.comp.toNat <<< 26 + b.arrived.toNat <<< 14 + b.expected.toNat <<< 2
      + b.counted.toNat <<< 1 + b.isOpen.toNat))
  ++ t.joins.flatMap (fun j => maskBytes j.expected ++ maskBytes j.arrived ++ bytesOfNat 4 (pcWord j.hdr j.ix 0).toNat
      ++ bytesOfNat 1 j.crew ++ bytesOfNat 1 j.level ++ bytesOfNat 1 j.xlane.toNat ++ bytesOfNat 1 j.sup.toNat)

/-- The bytes of an octet, or of what a command without one took. -/
def octetBytes (o : List Word) : List Byte := padTo 32 (o.flatMap (fun w => bytesOfNat 4 w.toNat))

/-- The entry of an engine command in section 5; `at_` is where its bitmap stands, for a catch (R396; log 12). -/
def Cmd.bytes (c : Cmd) (at_ : Nat) : List Byte :=
  padTo 64 (octetBytes c.octet ++ bytesOfNat 1 c.fn ++ bytesOfNat 1 c.slice ++ flagByte c.flag ++ bytesOfNat 1 c.dst.code.toNat
    ++ bytesOfNat 4 c.failed ++ bytesOfNat 8 (if c.isCatch then at_ else c.progress) ++ bytesOfNat 1 c.code)

/-- The bitmap of a catch command's ended bursts (R241, R396, R397). -/
def Cmd.bitmap (c : Cmd) : List Byte := bytesOfNat (bitmapRoom c.fn c.octet) (maskOf c.finished)

/-- The entry of a queued matrix command in section 5 (R289, R396; log 12). -/
def MCmd.bytes (c : MCmd) : List Byte :=
  let x := c.slices.head?
  padTo 64 (octetBytes c.octet ++ bytesOfNat 1 (c.fn + 16) ++ bytesOfNat 1 ((x.map (fun y => y.1)).getD 0)
    ++ flagByte (x.bind (fun y => y.2.2.1)) ++ bytesOfNat 1 ((x.map (fun y => y.2.1.code.toNat)).getD 0)
    ++ maskBytes (c.slices.map Prod.fst) ++ bytesOfNat 4 c.step ++ bytesOfNat 4 c.count ++ bytesOfNat 4 c.progress)

/-- The accumulator blocks that section 6 holds: in a snapshot those marked dirty (R396, R402). -/
def Ctx.accNos (c : Ctx) (e : Engine) : List Nat := if c.snap then e.accMarks else List.range 16

/-- As `accNos`, of the skip slots. -/
def Ctx.skipNos (c : Ctx) (e : Engine) : List Nat := if c.snap then e.skipMarks else List.range 8

/-- The 4 KiB of an accumulator block (R396, R400). -/
def Engine.blockBytes (e : Engine) (n : Nat) : List Byte :=
  (List.range 1024).flatMap (fun i => bytesOfNat 4 (nget e.accs (1024 * n + i)).toNat)

/-- Section 6: the accumulators, the group slots, each with its octet, and the skip slots as images (R289, R396; log 12). -/
def Ctx.matrixBytes (c : Ctx) : List Byte :=
  match c.engine with
  | none => []
  | some e =>
    (c.accNos e).flatMap e.blockBytes
    ++ (List.range 16).flatMap (fun g => padTo 64 (match e.slot g with
        | some x => octetBytes x.octet ++ bytesOfNat 1 1
        | none => []))
    ++ (c.skipNos e).flatMap (fun n => bytesOfNat 576 (skipImage ((e.skips.find? (fun x => x.1 == n)).map Prod.snd)))

/-- The 128 bytes of a fault record in section 7: what R336 shows, and the captured word, data and registers of R337
(R396; log 12). -/
def FaultRec.bytes (r : FaultRec) (k : Nat) : List Byte :=
  padTo 128 (bytesOfNat 1 k ++ bytesOfNat 1 r.lane ++ bytesOfNat 2 r.acc.dst.length ++ bytesOfNat 4 r.info.toNat ++ bytesOfNat 8 r.va
    ++ bytesOfNat 4 (pcWord r.acc.hdr r.acc.ix (r.acc.flag.getD 0x1F)).toNat ++ bytesOfNat 4 r.acc.kindCode
    ++ bytesOfNat 32 r.acc.data ++ r.acc.dst.flatMap (bytesOfNat 4))

/-- The seven sections of a record (R396). `svc` gives each slice's flags of service batches, `at_` where the bitmap of a catch
command stands from the record's start. -/
def Ctx.sections (c : Ctx) (svc : Nat → BitVec 12) (at_ : Nat → Nat) : List (List Byte) :=
  [ c.team.slices.flatMap (fun sl => c.team.sliceEntry (svc sl.idx) sl),
    c.team.slices.flatMap (fun sl => (c.blocks sl).flatMap sl.blockBytes),
    c.lineNos.flatMap (fun n => c.scratch.bytes (128 * n) 128),
    c.team.stateBytes,
    c.team.cmds.flatMap (fun x => x.bytes (at_ x.id)) ++ ((c.engine.map (fun e => e.queue)).getD []).flatMap MCmd.bytes,
    c.matrixBytes,
    c.team.slices.flatMap (fun sl => sl.recs.flatMap (fun r => r.bytes sl.idx)) ]

/-- The entries of DIR for sections of some lengths, one after another from an offset (R394). -/
def dirBytes : Nat → List Nat → List Byte
  | _, [] => []
  | off, n :: rest => bytesOfNat 8 off ++ bytesOfNat 8 n ++ dirBytes (off + n) rest

/-- The 256 bytes of a record's header, with its DIR (R394). -/
def Ctx.header (c : Ctx) (dir : List Byte) : List Byte :=
  let t := c.team
  bytesOfNat 4 0x58544356 ++ bytesOfNat 4 1 ++ bytesOfNat 4 (c.snap.toNat <<< 3 + c.st.code)
  ++ bytesOfNat 4 (c.asid <<< 16 + c.part) ++ bytesOfNat 4 t.no ++ bytesOfNat 4 t.resid ++ bytesOfNat 8 c.ltime
  ++ bytesOfNat 8 (t.esat.toNat <<< 48 + t.energy.toNat) ++ List.replicate 24 0
  ++ t.record.bytes ++ padTo 128 dir

/-- The bytes of a record: its header and its sections, one after another (R394 to R396). -/
def Ctx.bytes (c : Ctx) (svc : Nat → BitVec 12) (at_ : Nat → Nat) : List Byte :=
  let l := c.sections svc at_
  c.header (dirBytes 256 (l.map List.length)) ++ l.flatten

/-- The bytes of memory in `[a, a + n)`, addressed from 0. -/
def Memory.from (m : Memory) (a n : Nat) : Memory :=
  (m.filter (fun e => decide (a ≤ e.1) && decide (e.1 < a + n))).map (fun e => (e.1 - a, e.2))

/-- Whether an access waits for the checkpoint ceiling. -/
def AccSt.ceil? : AccSt → Bool
  | .ceil => true
  | .walk | .ats | .late _ | .peer _ | .got _ _ | .written | .dropped => false

/-- Whether an access has its event still to come: at a quiet point, once all that may be are performed, one that would pass
the checkpoint ceiling. -/
def AccSt.behind : AccSt → Bool
  | .ceil | .late _ => true
  | .walk | .ats | .peer _ | .got _ _ | .written | .dropped => false

/-- The operations of a team with accesses whose events lie after the cut: they stay in the snapshot, or the record, to be
issued anew (R401, R402; log 13). -/
def State.capped (s : State) (u : Nat) : List PendOp :=
  (s.pend.filter (fun op => op.team == u && op.accs.any (fun x => x.2.behind))).map (fun op =>
    { op with accs := op.accs.map (fun x => (x.1, if x.2.behind then .ceil else x.2)) })

/-- The record of a team that stops (R394 to R396); B's cells are not saved (R289). -/
def State.ctxOf (s : State) (t : Team) (id : Nat) (snap : Bool) : Ctx :=
  let e := (s.core t.core).engine
  let room := ((s.part t.part).resv.filter (fun r => r.1 == t.uid)).map (fun r => r.2.1)
  { id := id, st := if t.holds then .held else .complete, snap := snap, part := t.part, asid := t.asid,
    ltime := t.haltAt,
    team := { t with
      st := .running,
      halt := match t.halt with
        | some (.migrate hot) => some (.migrate hot)
        | some .preempt | some (.hold _ _) | some .quiet | none => none,
      haltAt := (s.core t.core).clock,
      lo := if snap then t.lo else 0, hi := if snap then t.hi else 0,
      subs := t.subs.map (fun b => { b with entry := false, stalled := false, accepted := none }) },
    engine := if e.holder = some t.uid then
        some { e with groups := e.groups.map (fun g => (g.1, { g.2 with cells := [] })) } else none,
    pend := s.capped t.uid,
    pa := if snap ∧ 1 < room.length then room[1]? else room.head?,
    scratch := s.mem.from t.scratch (128 * t.record.scratch) }

/-- Where the bitmap of a catch command is kept: the room that R397 reserves for it. -/
def State.bitmapAt (s : State) (part id : Nat) : Option Nat :=
  ((s.part part).resv.find? (fun r => r.1 == id)).map (fun r => r.2.1)

/-- The state after the bytes of a record are written into its room of the context pool, if it has any, and the bitmaps of its
catch commands into theirs (R394, R396, R397). -/
def State.writeBytes (s : State) (c : Ctx) : State :=
  match c.pa with
  | none => s
  | some a =>
    let at_ := fun (id : Nat) => ((s.bitmapAt c.part id).map (fun b => (b + 2 ^ 64 - a) % 2 ^ 64)).getD 0
    let s' := s.devWrite a (c.bytes (s.serviceFlags c.team.uid) at_)
    (c.team.cmds.filter Cmd.isCatch).foldl (fun s x =>
      match s.bitmapAt c.part x.id with
      | some b => s.devWrite b x.bitmap
      | none => s) s'

/-- The state after a record is kept and its bytes are written. -/
def State.writeCtx (s : State) (c : Ctx) : State := { s with saved := s.saved ++ [c] }.writeBytes c

/-! ## The halt (R241, R288, R389, R391) -/

/-- How far each running command still gets: the `i`th digit of an event's number, in base 2^32 (log 1). -/
def granulesOf (granules i : Nat) : Nat := (granules >>> (32 * i)) % 2 ^ 32

/-- The state after the copy commands of a team stop at granule boundaries: each makes some more granules first
(R241). -/
def State.haltCopies (s : State) (t : Team) (granules : Nat) : State :=
  (t.cmds.zip (List.range t.cmds.length)).foldl (fun s c =>
    if c.1.fn ≤ 4 ∧ granulesOf granules (c.2 + 1) ≠ 0 then s.runCopy t c.1 (some (granulesOf granules (c.2 + 1))) else s) s

/-- A sub-crew at its team's halt: it gives up its entry, and the word it is stalled on is abandoned unless its operation has
been accepted (R389, R390). Handler threads run on. -/
def SubCrew.halted (b : SubCrew) : SubCrew :=
  if b.members.all (fun m => decide (64 ≤ m)) then b
  else { b with entry := false, stalled := false, accepted := if b.accepted = some .queued then none else b.accepted }

/-- The team at its halt: it drains, and a burst that has not started its handler is read again after restore (R389,
R391). -/
def Team.halted (t : Team) (clock : Nat) : Team :=
  { t with st := .draining, haltAt := clock, subs := t.subs.map SubCrew.halted,
           cmds := t.cmds.map (fun c => { c with arrived := [] }) }

/-- The state after a team halts: its engines stop at their restart points and its slices at their boundaries; its
fetch entries return to the core, those of handler threads apart, and its record begins as draining (R241, R389, R391,
R394). -/
def State.haltTeam (s : State) (t : Team) (granules : Nat) : State :=
  let s := (s.haltCopies t granules).haltMatrix t.uid t.core (granulesOf granules 0)
  let s := s.setTeam t.uid (fun x => x.halted (s.core t.core).clock)
  let s := s.setCore t.core (fun c => { c with waiting := c.waiting.filter (fun w => w.1 != t.uid || decide (64 ≤ w.2)) })
  match s.team? t.uid with
  | some t => s.writeBytes { (s.ctxOf t 0 (t.halt == some .quiet)) with st := .draining }
  | none => s

/-- Whether a halt is asked for that is no hold (R389). -/
def HaltReason.moves : HaltReason → Bool
  | .preempt | .migrate _ | .quiet => true
  | .hold _ _ => false

/-- R389: every slice and engine of a team stops at its restart point. -/
def execPreemptionHalt (team granules : Nat) (s : State) : Host.Outcome State Fault Refusal :=
  match s.team? team with
  | none => .next s
  | some t =>
    if t.st = .running ∧ (t.halt.map HaltReason.moves).getD false then .next (s.haltTeam t granules) else .next s

/-- The state after a hold's log entries are written for the slices that hold a record and have no entry of the hold
(R333, R347). -/
def State.holdLogs (s : State) (u : Nat) : State :=
  match s.team? u with
  | none => s
  | some t =>
    match t.halt with
    | some (.hold cause logged) =>
      let more := t.slices.filter (fun sl => sl.thread.isNone && !sl.recs.isEmpty && !logged.contains sl.idx)
      let s := more.foldl (fun s sl =>
        let pc := (sl.firstRec.map (fun r => pcWord r.acc.hdr r.acc.ix sl.exec.toNat)).getD 0
        s.logSlice u sl.idx cause 0 0 none pc none) s
      s.setTeam u (fun t => { t with halt := some (.hold cause (logged ++ more.map (fun sl => sl.idx))) })
    | some .preempt | some (.migrate _) | some .quiet | none => s

/-- The state after the other teams of a co-resident launch are asked to halt with one that is held: they are pre-empted
together, one at a quiet point being saved instead of going on (R41). -/
def State.preemptMates (s : State) (t : Team) : State :=
  if t.record.coresid then
    { s with teams := s.teams.map (fun (x : Team) =>
        if x.launch = t.launch ∧ x.uid ≠ t.uid ∧ (x.halt = none ∨ x.halt = some .quiet) then { x with halt := some .preempt } else x) }
  else s

/-- R333: a team hold stops every slice of the team as pre-emption does, and adds its log entries. -/
def execTeamHold (team : Nat) (s : State) : Host.Outcome State Fault Refusal :=
  match s.team? team with
  | none => .next s
  | some t =>
    if t.st = .running ∧ t.holds then .next (((s.holdLogs team).haltTeam t 0).preemptMates t) else .next s

/-! ## The stop (R389, R391, R402) -/

/-- Whether a core's quiet point of a team's job is open: what lies after the cut is not waited for (R401, R402). -/
def State.atQuiet (s : State) (t : Team) : Bool :=
  t.record.track && s.jobs.any (fun j => j.part == t.part && j.id == t.record.job &&
    (j.stream.map (fun st => st.toArm.contains t.core)).getD false)

/-- Whether a word of a sub-crew has been accepted and may still complete while its team drains: a `tlbi` that waits only for
commands that have stopped with a translation of its range is issued anew after the restore (R240, R389, R390; log 64). -/
def State.completing (s : State) (t : Team) (b : SubCrew) : Bool :=
  match b.accepted with
  | none => false
  | some (.pages rs) => rs.all (fun r => !s.heldBy (fun x => x.st != .running) t.asid r.1 r.2)
  | some .lines | some .image | some .queued => true

/-- Whether a draining team may stop: its accesses, handlers, service calls and accepted words are over, and an `mskip` that
completes first (R155, R288, R390, R391). Accesses that wait for the ceiling are waited for, but at a quiet point, whose cut they lie behind (log 13). -/
def State.stopDue (s : State) (t : Team) : Bool :=
  t.st == .draining && t.slices.all (fun sl => sl.thread.isNone) && s.batches.all (fun b => b.team != t.uid)
  && t.subs.all (fun b => !s.completing t b)
  && !((s.engine t.core).holder == some t.uid && (s.engine t.core).queue.any MCmd.lasts)
  && s.pend.all (fun op => op.team != t.uid || (s.atQuiet t && op.accs.any (fun x => x.2.behind)
      && op.accs.all (fun x => x.2.behind || x.2.resolved)))

/-- The state after the PREEMPT packets that await a team count it, as written or lost; the last completes (R380,
R382). -/
def State.countSaved (s : State) (u : Nat) (written : Bool) : State :=
  s.packets.foldl (fun s p =>
    match p.await with
    | .saves us n =>
      if us.contains u then
        let left := us.filter (· != u)
        let n' := if written then n + 1 else n
        if left.isEmpty then
          { (s.complete p.part p.queue p.index 4 n') with packets := s.packets.filter (fun x => decide (x ≠ p)) }
        else { s with packets := s.packets.map (fun (x : Packet) => if x = p then { x with await := .saves left n' } else x) }
      else s
    | .launch _ | .launches _ | .restores _ => s) s

/-- The state after accesses that wait for the ceiling are tried again (R137, R401). -/
def State.retryCeil (s : State) : State := (s.retry (fun _ _ st => st.ceil?)).settleAll

/-- The tracked job of a team, if it has a base image (R401, R407). -/
def State.jobOf (s : State) (t : Team) : Option Job :=
  if t.record.track then s.jobs.find? (fun j => j.part == t.part && j.id == t.record.job && j.based) else none

/-- The state with a job changed. -/
def State.setJob (s : State) (part id : Nat) (f : Job → Job) : State :=
  { s with jobs := s.jobs.map (fun j => if j.part = part ∧ j.id = id then f j else j) }

/-- The state with the stream of a job changed. -/
def State.setStream (s : State) (part id : Nat) (f : Stream → Stream) : State :=
  s.setJob part id (fun j => { j with stream := j.stream.map f })

/-- The state after the sub-crews of a team that may issue ask for fetch entries (R18, R398). -/
def State.askAll (s : State) (u : Nat) : State :=
  match s.team? u with
  | none => s
  | some t => t.subs.foldl (fun s b => if s.mayIssue u b.members then s.askEntry u (b.members.headD 0) else s) s

/-- The state after a team is saved: its record is complete or held, it leaves its core, and its range becomes an
orphan range (R40, R313, R391, R394). A held team of a cancelled launch is discarded (R45). -/
def State.stopSave (s : State) (t : Team) : State :=
  let n := s.name
  let s := n.2.writeCtx (s.ctxOf t n.1 false)
  let s := ((s.leaveCore t).orphan t.launch t.lo t.hi).kick t.launch
  let s := s.countSaved t.uid true
  if t.holds && s.isCancelled t.launch then (s.discardSaved t.uid).checkLaunch t.launch else s

/-! ## Cores (R385, R386, R441) -/

/-- The place a core fills: its own, or that of the core it stands in for, through as many replacements as `fuel` allows
(R441). -/
def State.placeOf (s : State) (core : Nat) : Nat → Nat
  | 0 => core
  | n + 1 =>
    match s.retired.find? (fun r => r.2 == core) with
    | some r => s.placeOf r.1 n
    | none => core

/-- Whether a partition owns a core: it has not been replaced, and the cluster of the place it fills is the partition's
(R427, R441). -/
def State.owns (s : State) (p core : Nat) : Bool :=
  decide (core < 512) && s.retired.all (fun r => r.1 != core)
  && (s.part p).clusters.getLsbD (clusterOf (s.placeOf core s.retired.length))

/-- Whether a core may take a team of a launch: owned, on a die in service, with no team of the launch and with the
resources free; an MTX team goes only where no team holds the engine and no other MTX team is (R27, R385, R386). -/
def State.takes (s : State) (x : Launch) (core blocks : Nat) : Bool :=
  s.owns x.part core && !s.mgmt.fenced.getLsbD (dieOf core)
  && (s.teamsOn core).all (fun t => t.launch != x.uid)
  && s.fits core blocks x.record
  && (!x.mtx || ((s.core core).engine.holder.isNone
        && (s.teamsOn core).all (fun t => !((s.launch? t.launch).map (fun y => y.mtx)).getD false)))

/-! ## Restore (R398, R399) -/

/-- A slice as it wakes after restore: a wait that ended while it was saved is over (R313). -/
def Team.wakeSaved (t : Team) (sl : Slice) : Slice :=
  match sl.block with
  | .flags m => if sl.flagsZero m then { sl with block := .none } else sl
  | .roleDrain => if sl.flagsZero (BitVec.allOnes 12) then { sl with block := .none } else sl
  | .takeAgain =>
    if t.gather.any (fun a => a.slice == sl.idx) || t.asked.any (fun a => a.slice == sl.idx) then sl else { sl with block := .none }
  | .none | .barrier _ _ | .barWord _ _ _ | .claim | .join _ | .passed _ | .ending => sl

/-- The state after the macro groups of a restored holder are read again from memory, in slot order; none while the
host is waited for (R289). A reload that fails leaves its slot empty and is logged. -/
def State.reload (s : State) (t : Team) (bad : List (Nat × Need)) : List (Nat × Group) → State × Bool
  | [] => (s, true)
  | g :: rest =>
    match s.loadGroup t 0 bad g.2.octet with
    | (s, .wait) => (s, false)
    | (s, .ok none) => s.reload t bad rest
    | (s, .ok (some (f, e, a))) =>
      (s.logSlice t.uid 0 (if f then 0x31 else 0x30) (if f then 0 else e) 0 (some a) 0 (some (statusWord e 0))).reload t bad rest
    | (s, .bad e a) => (s.logSlice t.uid 0 0x30 e 0 (some a) 0 (some (statusWord e 0))).reload t bad rest

/-- What asks for a record: the RESUME packet that names it (R380, R408). -/
def State.resumes (s : State) (c : Ctx) : Option Packet :=
  s.packets.find? (fun p => match p.await with
    | .restores rs => rs.contains c.id
    | .launches us => us.contains c.team.launch
    | .saves _ _ | .launch _ => false)

/-- Whether a core lies in the core set of a packet: FIRST to FIRST + COUNT − 1, or with ANY = 1 the COUNT cores that are
chosen as they are needed (R385). -/
def Packet.has (p : Packet) (core : Nat) : Bool :=
  if p.any then p.chosen.contains core || decide (p.chosen.length < p.count)
  else decide (p.first ≤ core) && decide (core < p.first + p.count)

/-- A packet after a core is used for it (R385). -/
def Packet.use (p : Packet) (core : Nat) : Packet := { p with chosen := insertNat core p.chosen }

/-- The clusters of a launch's core set: those of its cores, where the distributors choose them of those chosen so far, and of
the cores that a RESUME has given to its teams (R34, R385). -/
def State.clustersOf (s : State) (x : Launch) : List Nat :=
  sortNat (((if x.any || x.restored then x.started else (List.range x.count).map (x.first + ·))
    ++ (s.teamsOf x.uid).map (fun t => t.core)).map clusterOf)

/-- The lowest of a launch's clusters on a die in service: its home (R34). -/
def State.homeOf (s : State) (x : Launch) : Option Nat :=
  (s.clustersOf x).find? (fun c => !s.mgmt.fenced.getLsbD (c / 2))

/-- The state after a core is given to a launch: the home is the cox of the lowest-numbered core of its core set (R34). -/
def State.setHome (s : State) (l : Nat) : State :=
  s.setLaunch l (fun x => if x.moving then x else { x with home := s.homeOf x })

/-- The state with what another one has asked of the host, which the restore of a launch's holders waits for (R289, R369). -/
def State.asks (s s' : State) (l : Nat) : State :=
  { s with
    atsq := s'.atsq, sent := s'.sent,
    saved := s.saved.map (fun c => if c.kept ∧ c.team.launch = l ∧ c.engine.isSome then
      { c with team := { c.team with subs := c.team.subs.map (fun b => { b with wants := s'.want.or b.wants }) } } else c) }

/-- The reservations that a restored team makes anew: its records, and the bitmaps of catch commands that hold none (R397). -/
def State.roomsOf (s : State) (c : Ctx) : List (Nat × Nat) :=
  c.team.record.rooms c.team.uid ++ ((c.team.cmds.filter (fun x => x.isCatch
    && (s.part c.part).resv.all (fun r => r.1 != x.id))).map (fun x => (x.id, bitmapRoom x.fn x.octet)))

/-- A team as it is put back on a core in an address space: a hold that was due behind its pre-emption is due again; in
another address space its commands translate anew (R334, R398). -/
def Ctx.onCore (c : Ctx) (core asid scratch : Nat) : Team :=
  { c.team with
    core := core, asid := asid, part := c.part, st := .running, resid := 0, scratch := scratch,
    halt := c.team.owed.map (fun o => .hold o.1 o.2), owed := none,
    slices := c.team.slices.map (fun sl => { c.team.wakeSaved sl with code := [] }),
    cmds := c.team.cmds.map (fun x =>
      { x with plan := if asid = c.asid then x.plan else none, held := if asid = c.asid then x.held else [], wants := [], bad := [] }),
    subs := c.team.subs.map (fun b => { b with entry := false, stalled := false, wants := none, bad := [], accepted := none }) }

/-- A record restored onto a core in an address space: the state, and whether it is resident again (R398). -/
def State.restoreOne (s : State) (c : Ctx) (core asid : Nat) : State × Bool :=
  let u := c.team.uid
  match s.launch? c.team.launch, s.findScratch core (128 * c.team.record.scratch),
      ((s.unreserve c.part u).part c.part).reserveAll (s.roomsOf c) with
  | some x, some off, some q =>
    if !s.takes x core c.team.blocks || (c.engine.isSome && (s.core core).engine.holder.isSome) then (s, false)
    else
      let bad := c.team.subs.flatMap (fun b => b.bad)
      let t := c.onCore core asid (spadOf core + off)
      let s1 := s.setPart c.part (fun _ => q)
      let s1 := { s1 with
        teams := s1.teams ++ [t],
        mem := c.scratch.foldl (fun (m : Memory) (e : Host.Cell) => m.setByte (t.scratch + e.1) e.2) (s1.mem.wipe t.scratch (128 * t.record.scratch)),
        poison := s1.poison.filter (fun u => decide (u + 4 ≤ t.scratch) || decide (t.scratch + 128 * t.record.scratch ≤ u)),
        packets := s1.packets.map (fun (y : Packet) => if some y = s.resumes c then y.use core else y),
        pend := s1.pend ++ c.pend,
        saved := s1.saved.map (fun (y : Ctx) => if y.id = c.id then { y with st := .restored } else y) }
      let after := max (max c.ltime c.team.haltAt + 1) (((s.jobOf t).map (fun j => j.closed + 1)).getD 0)
      let s1 := (s1.setCore core (fun k => { k with clock := max k.clock after })).setHome x.uid
      let s1 := match c.pa with
        | some a => s1.devWrite (a + 8) (bytesOfNat 4 CtxSt.restored.code)
        | none => s1
      let r := match c.engine with
        | none => (s1, true)
        | some e =>
          (s1.setEngine core (fun _ =>
            { e with holder := some u, groups := [], queue := e.queue.map (fun (m : MCmd) => { m with wants := none, bad := [] }) })).reload t bad e.groups
      if r.2 then (((((r.1.askAll u).serveClaims u t.claims.length).retryCeil).settleWaits u).kick x.uid, true)
      else ({ s.asks r.1 x.uid with want := r.1.want }, false)
  | _, _, _ => (s, false)

/-- The records of a launch that hold teams to restore, oldest first (R399). -/
def State.recordsOf (s : State) (l : Nat) : List Ctx := s.saved.filter (fun c => c.kept && c.team.launch == l)

/-- Whether a record may go to a core, and in which address space: a RESUME names it, or it is moved off a core that has grown hot
(R388, R398). -/
def State.restoreTo (s : State) (c : Ctx) (core : Nat) : Option Nat :=
  match s.resumes c with
  | some p => if p.has core then some p.asid else none
  | none =>
    match c.team.halt with
    | some (.migrate hot) => if core ≠ hot then some c.asid else none
    | some .preempt | some (.hold _ _) | some .quiet | none => none

/-- The state after several records are restored together, each onto the lowest core that takes it (R41, R399). -/
def State.restoreAll (s : State) : List Ctx → State × Bool
  | [] => (s, true)
  | c :: rest =>
    match (List.range 512).find? (fun k => (s.restoreTo c k).isSome
        && ((s.launch? c.team.launch).map (fun x => s.takes x k c.team.blocks)).getD false) with
    | none => (s, false)
    | some k =>
      match s.restoreOne c k ((s.restoreTo c k).getD c.asid) with
      | (s, true) => s.restoreAll rest
      | (s, false) => (s, false)

/-- Whether a tracked team may start or be restored now: no quiet point of its job is open (R402; log 13). -/
def State.mayJoin (s : State) (part id : Nat) (track : Bool) : Bool :=
  !track || s.jobs.all (fun j => !(j.part == part && j.id == id) || (j.stream.map (fun st => st.toArm.isEmpty)).getD true)

/-- Whether a record is the next of its launch: the oldest that is asked for (R399). -/
def State.restoreDue (s : State) (c : Ctx) (core : Nat) : Bool :=
  c.kept && (s.restoreTo c core).isSome && s.mayJoin c.part c.team.record.job c.team.record.track
  && (((s.recordsOf c.team.launch).find? (fun y => (s.restoreTo y core).isSome)).map (fun y => y.id)) == some c.id
  && (!c.team.record.coresid || s.teams.all (fun t => t.launch != c.team.launch || t.st == .running && t.halt.isNone))

/-- R398: a complete record is restored onto a free core; the saved teams of a co-resident launch together (R399). -/
def execContextRestore (record core : Nat) (s : State) : Host.Outcome State Fault Refusal :=
  match s.saved.find? (fun c => c.id == record) with
  | none => .next s
  | some c =>
    if s.restoreDue c core then
      let r := s.restoreOne c core ((s.restoreTo c core).getD c.asid)
      if !r.2 then .next r.1
      else if c.team.record.coresid then
        let rest := (s.recordsOf c.team.launch).filter (fun y => y.id != c.id)
        match r.1.restoreAll rest with
        | (s', true) => .next ((c :: rest).foldl (fun s y => s.countRestored y.id) s')
        | (s', false) => .next (s.asks s' c.team.launch)
      else .next (r.1.countRestored record)
    else .next s

/-! ## Thermal migration (R388) -/

/-- The bytes of a team's context: its slices, blocks and scratchpad, and the matrix state of a holder (R388, R396). -/
def State.ctxBytes (s : State) (t : Team) : Nat :=
  256 + 256 * t.slices.length + 128 * total (t.slices.map (fun sl => sl.alloc)) + 128 * t.record.scratch
  + (if (s.core t.core).engine.holder = some t.uid then 73728 else 0)

/-- The teams that move together with a team (R388). -/
def State.movedWith (s : State) (t : Team) : List Team := if t.record.coresid then s.teamsOf t.launch else [t]

/-- Whether firmware may move a team now: what moves with it has been resident 200 µs and is not halting (R388). -/
def State.mayMove (s : State) (t : Team) : Bool :=
  (s.movedWith t).all (fun t => decide (200 ≤ t.resid) && t.st == .running && t.halt.isNone)

/-- R388: firmware asks for the move of a team that has been resident 200 µs, that with the smallest context among those of
its core that may move; a co-resident launch moves whole. None is asked for during an update of the firmware (R439). -/
def execThermalMigration (team : Nat) (s : State) : Host.Outcome State Fault Refusal :=
  match s.team? team with
  | none => .next s
  | some t =>
    if s.mgmt.st ≠ 4 ∧ s.mayMove t && ((s.teamsOn t.core).filter s.mayMove).all (fun x => decide (s.ctxBytes t ≤ s.ctxBytes x)) then
      .next { s with teams := s.teams.map (fun (x : Team) =>
        if (s.movedWith t).any (fun t => t.uid == x.uid) then { x with halt := some (.migrate t.core) } else x) }
    else .next s

end Sys2Proof.Machine
end

