-- ==== Sys2Proof/Machine/HostPage.lean ====
section
/-! DEFINITION. The partition page: doorbells, the fields its host writes, and the reset of a partition (R421, R423,
R428, R429). -/

namespace Sys2Proof.Machine

/-- The state with a queue of a partition changed. -/
def State.setQueue (s : State) (p q : Nat) (f : Queue → Queue) : State :=
  s.setPart p (fun x => { x with queues := x.queues.modify q f })

/-- The launch whose LAUNCH packet was read last at a ring position, if that packet made one (R423, R448). -/
def State.launchAt (s : State) (part queue index : Nat) : Option Launch :=
  s.launches.find? (fun x => x.named && x.part == part && x.queue == queue && x.index == index)

/-- The state after the user doorbell of a partition is applied: the effect of `uintr` on the named team (R423). -/
def State.ringUser (s : State) (part : Nat) (value : Dword) : State :=
  let v := value.toNat
  match s.launchAt part (bits v 63 60) (bits v 59 44) with
  | none => s
  | some x =>
    match s.teamNo x.uid (bits v 43 12) with
    | some u => (s.interrupt u (bit v 6) (bits v 5 0)).1
    | none => s

/-- The state after something that reached the FIFOs is applied; a word is applied as it issues (R439). -/
def State.applyWaiting (s : State) (w : Waiting) : State :=
  match w with
  | .tail p q v => s.setQueue p q (fun x => { x with tail := v })
  | .user p v => s.ringUser p v
  | .word _ _ => s

/-- The state after a doorbell: it is applied, or goes into its FIFO while the front end is quiesced and while what arrived
before it still waits (R439). -/
def State.ring (s : State) (w : Waiting) : State :=
  if s.queued then { s with fifo := s.fifo ++ [w] } else s.applyWaiting w

/-- Whether what is first in the FIFOs may be applied, or is a word that waits no more: the front end runs (R439). -/
def State.fifoDue (s : State) : Bool :=
  s.mgmt.st != 4 && (match s.fifo with
    | .word u k :: _ => !s.waits (.word u k)
    | .tail _ _ _ :: _ | .user _ _ :: _ => true
    | [] => false)

/-- The state after what is first in the FIFOs is applied (R439). -/
def State.nextWaiting (s : State) : State :=
  match s.fifo with
  | w :: rest => if s.fifoDue then { s with fifo := rest }.applyWaiting w else s
  | [] => s

/-- The state after a write of LOGLOST: 0 clears it, any other value is ignored (R423). -/
def State.clearLost (s : State) (part : Nat) (value : Word) : State :=
  if value = 0 then s.setPart part (fun q => { q with loglost := 0 }) else s

/-- R423: a write of TAIL is a doorbell. -/
def execTail (part queue : Nat) (value : Word) (s : State) : Host.Outcome State Fault Refusal :=
  .next (s.ring (.tail part queue value))

/-- R423: a write of the user doorbell has the effect of `uintr` on the named team. -/
def execUserDoorbell (part : Nat) (value : Dword) (s : State) : Host.Outcome State Fault Refusal :=
  .next (s.ring (.user part value))

/-- R423: a write of 0 clears LOGLOST; any other write is ignored. -/
def execLoglost (part : Nat) (value : Word) (s : State) : Host.Outcome State Fault Refusal :=
  .next (s.clearLost part value)

/-- A queue after a write of its word at offset 0x10: LOG2N stays while EN = 1, and takes no value above 12 (R423). -/
def Queue.configure (q : Queue) (v : Nat) : Queue :=
  { q with en := bit v 31, vec := BitVec.ofNat 7 (bits v 10 4),
           log2n := if q.en ∨ 12 < bits v 3 0 then q.log2n else BitVec.ofNat 4 (bits v 3 0) }

/-- R423: a host write of a field of the partition page, a doorbell or LOGLOST among them. Fields the host may not write, and
reserved offsets, ignore it. -/
def execPartitionPageWrite (part offset : Nat) (value : Dword) (s : State) : Host.Outcome State Fault Refusal :=
  let q := (offset - 0x100) / 0x40
  let w : Word := value.setWidth 32
  if offset = 0x028 then .next (s.setPart part (fun p => { p with logtail := w }))
  else if offset = 0x02C then .next (s.clearLost part w)
  else if offset = 0x080 then .next (s.ring (.user part value))
  else if offset = 0x07C then .next (s.setPart part (fun p => { p with elogtail := w }))
  else if offset < 0x100 ∨ 0x500 ≤ offset then .next s
  else
    match (offset - 0x100) % 0x40 with
    | 0x00 => .next (s.setQueue part q (fun x => if x.en then x else { x with qbase := value }))
    | 0x08 => .next (s.setQueue part q (fun x => if x.en then x else { x with cbase := value }))
    | 0x10 => .next (s.setQueue part q (fun x => x.configure value.toNat))
    | 0x14 => .next (s.ring (.tail part q w))
    | _ => .next s

/-! ## Wipe and partition reset (R428, R429) -/

/-- The state after `[a, a + n)` is wiped: its bytes, its poison marks, and every copy and older value that could still be
read (R428, R445). -/
def State.wipe (s : State) (a n : Nat) : State :=
  let apart := fun (b m : Nat) => decide (b + m ≤ a) || decide (a + n ≤ b)
  { s with mem := s.mem.wipe a n,
           poison := s.poison.filter (fun u => apart u (poisonUnit u)),
           hist := s.hist.filter (fun e => e.size == 0 || apart e.pa e.size),
           rmap := s.rmap.filter (fun r => apart r.sector 128),
           ilines := s.ilines.filter (fun i => apart i.sector 128),
           hidden := s.hidden.filter (fun h => apart h.1 128) }

/-- Whether an address lies in host or tier memory. -/
def outside (pa : Nat) : Bool := inRange .host pa || inRange .tier pa

/-- The state after the pieces of a write in flight are each performed or dropped, whole within its sector (R429); `v` is the
data from the first piece on. -/
def State.losePieces (s : State) (w : Who) (asid v : Nat) : List Piece → State
  | [] => s
  | p :: rest =>
    let c := s.choose 2
    (if c.1 = 0 then c.2.writePieces w asid v [p] else c.2).losePieces w asid (v >>> (8 * p.size)) rest

/-- The state after the writes of a partition that are in flight to host or tier memory are each performed or dropped
(R429). -/
def State.loseWrites (s : State) (p : Nat) : State :=
  s.stepAccs (fun op a st => ((s.team? op.team).map (fun t => t.part == p)).getD false && a.kind != .load false
      && a.kind != .load true && ((st.late?).map (fun ps => ps.any (fun x => outside x.pa))).getD false)
    (fun s op a st =>
      match st.late?, s.team? op.team with
      | some ps, some t =>
        if a.kind = .store then (s.losePieces (a.who t op.slice) t.asid a.data (ps.filter (fun x => outside x.pa)), .dropped)
        else
          let c := s.choose 2
          if c.1 = 0 then ((c.2.performAcc t op.slice a ps).1, .dropped) else (c.2, .dropped)
      | _, _ => (s, st))

/-- The state without anything resident in a partition: teams, records, launches and what hangs on them. -/
def State.evict (s : State) (p : Nat) : State :=
  let gone := fun (u : Nat) => s.teams.any (fun t => t.uid == u && t.part == p)
  let q := s.part p
  let mine := fun (asid : Nat) => decide (q.asid0.toNat ≤ asid) && decide (asid < q.asid0.toNat + q.asidn.toNat)
  { s with
    teams := s.teams.filter (fun t => t.part != p),
    pend := s.pend.filter (fun o => !gone o.team),
    batches := s.batches.filter (fun b => !gone b.team),
    cores := s.cores.map (fun c => if s.owns p c.id then { Core.idle c.id with clock := c.clock } else c),
    saved := s.saved.filter (fun c => c.part != p),
    launches := s.launches.filter (fun x => x.part != p),
    passes := s.passes.filter (fun x => x.part != p),
    counters := s.counters.filter (fun x => x.part != p),
    cancels := s.cancels.filter (fun x => x.part != p),
    lostTeams := s.lostTeams.filter (fun t => t.part != p),
    images := s.images.filter (fun x => x.part != p),
    fifo := s.fifo.filter (fun w => match w with
      | .tail q _ _ | .user q _ => q != p
      | .word u _ => !gone u),
    owners := s.owners.filter (fun o => !mine o.asid),
    tlb := s.tlb.filter (fun t => !mine t.asid),
    wcache := s.wcache.filter (fun t => !mine t.asid),
    atsc := s.atsc.filter (fun t => !mine t.asid),
    jobs := s.jobs.map (fun j => if j.part = p then { j with stream := none, dirty := [], aborted := j.aborted || j.stream.isSome } else j) }

/-- The state after the caches, TLBs and walk caches of a partition's clusters are wiped (R428). -/
def State.wipeClusters (s : State) (clusters : BitVec 8) : State :=
  let in_ := fun (c : Nat) => decide (c < 8) && clusters.getLsbD c
  { s with
    rmap := s.rmap.filter (fun r => !in_ r.place),
    tlb := s.tlb.filter (fun t => !in_ t.place),
    wcache := s.wcache.filter (fun w => !in_ w.cluster),
    ilines := s.ilines.filter (fun i => !in_ (if i.place < 512 then clusterOf i.place else i.place - 512)) }

/-- The state after a partition's memories are wiped: its clusters, what its cores hold wherever they stand, scratchpads, pool
frames and saved records (R428, R441). -/
def State.wipePart (s : State) (p : Nat) : State :=
  let q := s.part p
  let s := s.wipeClusters q.clusters
  let s := { s with
    rmap := s.rmap.filter (fun r => !(decide (r.place < 8) && s.owns p r.core)),
    ilines := s.ilines.filter (fun i => !s.owns p i.place) }
  let s := ((List.range 512).filter (s.owns p)).foldl (fun s k => s.wipe (spadOf k) (2 ^ 19)) s
  let s := q.frames.foldl (fun s r => s.wipe r.1 (frameBytes * r.2)) s
  q.resv.foldl (fun s r => s.wipe r.2.1 r.2.2) s

/-- A partition page after a reset: what its host writes, and the heads, at their reset values (R429). -/
def Part.afterReset (q : Part) : Part :=
  { q with pool := q.frames, resv := [], loghead := 0, logtail := 0, loglost := 0, eloghead := 0, elogtail := 0,
           queues := List.replicate 16 Queue.reset }

/-- The state after a partition reset (R429). -/
def State.resetPart (s : State) (p : Nat) : State :=
  let q := s.part p
  let s := (s.packets.filter (fun x => x.part == p)).foldl (fun s x => s.complete x.part x.queue x.index 2 0) s
  let s := { s with packets := s.packets.filter (fun x => x.part != p) }
  let s := (s.loseWrites p).evict p
  let s := (List.range q.asidn.toNat).foldl (fun s i => s.retireAsid (q.asid0.toNat + i)) s
  (s.wipePart p).setPart p Part.afterReset

/-- R429: a function-level reset of VF p + 1 resets partition p. -/
def execFlr (part : Nat) (s : State) : Host.Outcome State Fault Refusal :=
  .next (if part < 16 then s.resetPart part else s)

end Sys2Proof.Machine
end

