-- ==== Sys2Proof/Machine/Checkpoint.lean ====
section
/-! DEFINITION. Checkpoints of tracked jobs: closing an interval, quiet points and the stop of a draining team, the
stream and its commit, the save-cost record, and restore from a commit record (R391, R400 to R408, R411). -/

namespace Sys2Proof.Machine

/-! ## What a job's address space maps (R400, R404) -/

/-- The leaves and the table pages reached from a table down the levels given. -/
def State.mapsFrom (s : State) (p : Nat) (atsen : Bool) : List (Nat × Nat × Nat) → Nat → Nat → List Leaf × List (Nat × Nat)
  | [], _, _ => ([], [])
  | (level, sh, n) :: rest, table, base =>
    (List.range n).foldl (fun (acc : List Leaf × List (Nat × Nat)) i =>
      let v := base + i <<< sh
      let va := if level = 0 ∧ 256 ≤ i then v + (2 ^ 64 - 2 ^ 57) else v
      let e := s.mem.nat (table + 8 * i) 8
      if !bit e 0 then acc
      else
        match s.entryKind p atsen level va e with
        | .bad => acc
        | .leaf l => (acc.1 ++ [l], acc.2)
        | .table t =>
          let r := s.mapsFrom p atsen rest t va
          (acc.1 ++ r.1, acc.2 ++ r.2)) ([], [(table, 8 * n)])

/-- The valid leaves and the table pages of an ASID. -/
def State.maps (s : State) (p asid : Nat) : List Leaf × List (Nat × Nat) :=
  let c := s.ctxEntry p asid
  if c.valid then s.mapsFrom p c.atsen levels c.root 0 else ([], [])

/-- The virtual addresses of the entries of some tables, those that lead to further tables apart, whose sector is marked dirty: the
leaves that may have changed (R400, R404). -/
def State.touchedFrom (s : State) (p : Nat) (atsen : Bool) (dirty : List Nat) :
    List (Nat × Nat × Nat) → Nat → Nat → List Nat
  | [], _, _ => []
  | (level, sh, n) :: rest, table, base =>
    (List.range n).flatMap (fun i =>
      let v := base + i <<< sh
      let va := if level = 0 ∧ 256 ≤ i then v + (2 ^ 64 - 2 ^ 57) else v
      match s.entryKind p atsen level va (s.mem.nat (table + 8 * i) 8) with
      | .table t => s.touchedFrom p atsen dirty rest t va
      | .leaf _ | .bad => if dirty.contains (sectorOf (table + 8 * i)) then [va] else [])

/-- The virtual addresses of an ASID whose entries have been written since marks were last cleared. -/
def State.touched (s : State) (p asid : Nat) (dirty : List Nat) : List Nat :=
  let c := s.ctxEntry p asid
  if c.valid then s.touchedFrom p c.atsen dirty levels c.root 0 else []

/-- Whether a leaf's frame is in HBM. -/
def Leaf.inHbm (l : Leaf) : Bool := !l.ats && inRange .hbm l.pa

/-- The sectors of HBM that leaves map, page-table pages apart (R404). -/
def sectorsOf (ls : List Leaf) (tables : List (Nat × Nat)) : List Nat :=
  (sortNat ((ls.filter Leaf.inHbm).flatMap (fun l => (List.range (2 ^ l.log / 128)).map (fun i => l.pa + 128 * i)))).filter
    (fun a => tables.all (fun t => decide (a + 128 ≤ t.1) || decide (t.1 + t.2 ≤ a)))

/-- The lowest virtual address under which leaves map a physical byte (R404). -/
def lowestVa (ls : List Leaf) (pa : Nat) : Option Nat :=
  minBy id ((ls.filter (fun l => l.inHbm && decide (l.pa ≤ pa) && decide (pa < l.pa + 2 ^ l.log))).map (fun l => l.va + (pa - l.pa)))

/-! ## The stream (R403, R404, R405) -/

/-- A team with the dirty marks of its registers and its scratchpad cleared (R402). -/
def Team.unmarked (t : Team) : Team :=
  { t with lines := [], slices := t.slices.map (fun sl => { sl with marks := { sl.marks with dirty := [] } }) }

/-- A team with the dirty marks of a snapshot merged into its own (R405). -/
def Team.remarked (t : Team) (x : Team) : Team :=
  { t with
    lines := sortNat (t.lines ++ x.lines),
    slices := t.slices.map (fun sl =>
      match x.slices.find? (fun y => y.idx == sl.idx) with
      | some y => { sl with marks := { sl.marks with dirty := sortNat (sl.marks.dirty ++ y.marks.dirty) } }
      | none => sl) }

/-- An engine with its dirty marks cleared (R402), and one with those of a snapshot merged into its own (R405). -/
def Engine.unmarked (e : Engine) : Engine := { e with accMarks := [], skipMarks := [] }

/-- An engine with the dirty marks of a snapshot merged into its own (R405). -/
def Engine.remarked (e x : Engine) : Engine :=
  { e with accMarks := sortNat (e.accMarks ++ x.accMarks), skipMarks := sortNat (e.skipMarks ++ x.skipMarks) }

/-- The state after the dirty marks of a snapshot that no commit will hold go back to its team (R405). -/
def State.remark (s : State) (c : Ctx) : State :=
  match s.team? c.team.uid with
  | none => s
  | some t =>
    let s := s.setTeam t.uid (fun t => t.remarked c.team)
    match c.engine with
    | some x => if (s.core t.core).engine.holder = some t.uid then s.setEngine t.core (fun e => e.remarked x) else s
    | none => s

/-- The state after the interval of a job aborts: no commit record, its dirty marks kept, its snapshots dropped, and no
team comes to a quiet point for it that has not begun to (R405). -/
def State.abort (s : State) (part id : Nat) (full : Bool) : State :=
  let snaps := ((s.jobs.filter (fun j => j.part == part && j.id == id)).flatMap (fun j => (j.stream.map (fun st => st.snaps)).getD []))
  let s := s.setJob part id (fun j =>
    { j with stream := none, aborted := true, full := j.full || full,
             dirty := sortNat (j.dirty ++ (j.stream.map (fun st => st.marks)).getD []) })
  let s := (s.saved.filter (fun c => c.snap && snaps.contains c.id)).foldl State.remark s
  { s with
    saved := s.saved.filter (fun c => !(c.snap && snaps.contains c.id)),
    teams := s.teams.map (fun (t : Team) =>
      if t.part = part ∧ t.record.job = id ∧ t.record.track ∧ t.st = TeamSt.running ∧ t.halt = some .quiet then
        { t with halt := t.owed.map (fun o => .hold o.1 o.2), owed := none } else t) }

/-- The bytes of an item record (R404; log 14). -/
def itemRecord (kind id : Nat) (data : List Byte) : List Byte :=
  bytesOfNat 4 kind ++ bytesOfNat 4 data.length ++ bytesOfNat 8 id ++ data

/-- The value a sector had at the closing time: its pre-image in the capture buffer, or what memory holds (R403). -/
def State.atCut (s : State) (st : Stream) (pa : Nat) : List Byte :=
  ((st.captured.find? (fun c => c.1 == pa)).map Prod.snd).getD (s.mem.bytes pa 128)

/-- Whether the value that a sector had at the closing time cannot be read: it is poisoned (R403, R445; log 17). -/
def State.cutPoisoned (s : State) (st : Stream) (pa : Nat) : Bool :=
  match st.captured.find? (fun c => c.1 == pa) with
  | some c => c.2.isEmpty
  | none => s.poisoned pa 128

/-- STATE of a continuation record, as R297 codes it. -/
def ContSt.code : ContSt → Nat
  | .pending => 0
  | .ready => 1
  | .taken => 2
  | .cancelled => 3

/-- The 32 bytes of a continuation record (R297). -/
def Cont.bytes (c : Cont) : List Byte :=
  bytesOfNat 8 c.frame ++ bytesOfNat 4 c.codeoff ++ bytesOfNat 4 c.count ++ bytesOfNat 4 c.handle
  ++ bytesOfNat 4 c.st.code ++ bytesOfNat 8 c.readyseq

/-- The 24 bytes of a range: LO, HI, TEAM (R404). -/
def rangeBytes (lo hi team : Nat) : List Byte := bytesOfNat 8 lo ++ bytesOfNat 8 hi ++ bytesOfNat 8 team

/-- The data of a queue-store item: the records, the ranges and the counters (R404; log 14). -/
def Commit.storeBytes (c : Commit) (x : Launch) : List Byte :=
  x.conts.flatMap Cont.bytes
  ++ x.orphans.flatMap (fun r => rangeBytes r.1 r.2 0xFFFFFFFF)
  ++ (c.records.filter (fun y => y.team.launch == x.uid && decide (y.team.lo < y.team.hi))).flatMap (fun y =>
       rangeBytes y.team.lo y.team.hi y.team.no)
  ++ bytesOfNat 8 x.tasks.toNat
  ++ (c.counters.filter (fun k => k.job == x.record.job && (k.level == 3 || k.graph == x.record.graph))).flatMap (fun k =>
       bytesOfNat 8 k.value.toNat)

/-- The 16 bytes of a mapping record: the virtual address that carries the frame of a leaf in HBM, or another leaf's own ADDR;
then its page size and its attributes in the places of R357; all zero for a leaf that is gone (R404; log 14). -/
def Commit.leafBytes (c : Commit) (va : Nat) : List Byte :=
  match c.leaves.find? (fun l => l.va == va) with
  | none => bytesOfNat 16 0
  | some l =>
    bytesOfNat 8 (if l.inHbm then (lowestVa c.leaves l.pa).getD l.va else l.pa)
    ++ bytesOfNat 8 (l.ats.toNat <<< 54 + l.home.code <<< 52 + l.log <<< 8 + l.share.code <<< 6
      + l.u.toNat <<< 5 + l.x.toNat <<< 4 + l.w.toNat <<< 3 + l.r.toNat <<< 2 + 1)

/-- The sectors still to be streamed that lie in the 64 KiB unit of a sector: the place in the unit and the physical
address, in rising order. One record carries them (R404). -/
def Stream.unit (st : Stream) (c : Commit) (pa : Nat) : List (Nat × Nat) :=
  let va := fun (p : Nat) => (lowestVa c.leaves p).getD 0
  sortBy Prod.fst (st.todo.filterMap (fun i => match i with
    | .sector p => if va p / 65536 = va pa / 65536 then some (va p % 65536 / 128, p) else none
    | .regBlock _ _ _ | .line _ _ | .accBlock _ _ | .skipSlot _ _ | .snapshot _ | .queueStore _ | .mapping _ => none))

/-- The register blocks, scratchpad lines, accumulator blocks and skip slots of a snapshot that an interval carries: those
marked dirty, or in a full interval all of them (R400, R402, R407). -/
def Ctx.items (c : Ctx) (full : Bool) : List Item :=
  if !c.snap then []
  else
    c.team.slices.flatMap (fun sl => (if full then List.range sl.alloc else c.blocks sl).map (Item.regBlock c.id sl.idx))
    ++ (if full then List.range c.team.record.scratch else c.lineNos).map (Item.line c.id)
    ++ (match c.engine with
        | none => []
        | some e => (if full then List.range 16 else e.accMarks).map (Item.accBlock c.id)
            ++ (if full then List.range 8 else e.skipMarks).map (Item.skipSlot c.id))

/-- The bytes of an item of a record of the cut: its kind, where it lies, and its data (R400, R404; log 14). -/
def Commit.partBytes (c : Commit) (r : Nat) (kind place : Nat) (data : Ctx → List Byte) : List Byte :=
  match c.records.find? (fun x => x.id == r) with
  | none => []
  | some x => itemRecord kind ((r % 2 ^ 32) <<< 32 + place) (data x)

/-- The bytes of an item of an interval's stream (R404). -/
def State.itemBytes (s : State) (st : Stream) (c : Commit) (i : Item) : List Byte :=
  match i with
  | .sector pa =>
    let u := st.unit c pa
    itemRecord 3 ((lowestVa c.leaves pa).getD 0 / 65536 * 65536)
      (bytesOfNat 64 (maskOf (u.map Prod.fst)) ++ u.flatMap (fun x => s.atCut st x.2))
  | .regBlock r k b => c.partBytes r 1 (k <<< 8 + b) (fun x =>
      ((x.team.slices.find? (fun sl => sl.idx == k)).map (fun sl => sl.blockBytes b)).getD [])
  | .line r n => c.partBytes r 2 n (fun x => x.scratch.bytes (128 * n) 128)
  | .accBlock r n => c.partBytes r 4 n (fun x =>
      (x.engine.map (fun e => (List.range 1024).flatMap (fun i => bytesOfNat 4 (nget e.accs (1024 * n + i)).toNat))).getD [])
  | .skipSlot r n => c.partBytes r 5 n (fun x => (x.engine.map (fun e => bytesOfNat 576 (skipImage ((e.skips.find? (fun y => y.1 == n)).map Prod.snd)))).getD [])
  | .snapshot r =>
    match c.records.find? (fun x => x.id == r) with
    | none => []
    | some x => itemRecord 6 r (x.bytes (fun _ => 0) (fun _ => 0) ++ (x.team.cmds.filter Cmd.isCatch).flatMap Cmd.bitmap)
  | .queueStore l =>
    match c.launches.find? (fun x => x.uid == l) with
    | none => []
    | some x => itemRecord 7 l (c.storeBytes x)
  | .mapping va => itemRecord 8 va (c.leafBytes va)

/-- The 64 bytes of a stream's header (R404; log 14). -/
def streamHeader (k tk job prev : Nat) : List Byte :=
  bytesOfNat 8 0x4E524943 ++ bytesOfNat 8 k ++ bytesOfNat 8 tk ++ bytesOfNat 8 job ++ bytesOfNat 8 prev ++ List.replicate 24 0

/-- The first multiple of 4 KiB in a job's region that is free (R407). -/
def Job.place (j : Job) : Nat := ceilDiv (j.region + j.used) 4096 * 4096

/-- The least multiple of `g` that is not below `a`. -/
def roundUp (g a : Nat) : Nat := ceilDiv a g * g

/-- The state after an item is written to the tier: the stream runs past the region or into a revoked extent, or meets poison, and
aborts, or grows by the item; stores that waited for the capture buffer are tried again (R403, R405, R407, R445). -/
def State.streamItem (s : State) (j : Job) (st : Stream) (c : Commit) (i : Item) : State :=
  let b := s.itemBytes st c i
  let a := st.base + st.bytes.length
  let us := match i with
    | .sector pa => (st.unit c pa).map Prod.snd
    | .regBlock _ _ _ | .line _ _ | .accBlock _ _ | .skipSlot _ _ | .snapshot _ | .queueStore _ | .mapping _ => []
  if j.region + j.bytes < roundUp 64 (a + b.length) + 64 then s.abort j.part j.id true
  else if s.revoked a || us.any (s.cutPoisoned st) then s.abort j.part j.id false
  else
    let s := s.devWrite a b
    (s.setStream j.part j.id (fun st => { st with
      bytes := st.bytes ++ b,
      items := st.items + 1,
      todo := st.todo.filter (fun x => match x with
        | .sector p => !us.contains p
        | .regBlock _ _ _ | .line _ _ | .accBlock _ _ | .skipSlot _ _ | .snapshot _ | .queueStore _ | .mapping _ => decide (x ≠ i)),
      captured := st.captured.filter (fun x => !us.contains x.1),
      cut := st.cut.map (fun c => { c with
        sectors := c.sectors ++ us.map (fun p => ((lowestVa c.leaves p).getD 0, s.atCut st p)) }) })).retryCeil

/-- A job by partition and id. -/
def State.job? (s : State) (part id : Nat) : Option Job := s.jobs.find? (fun j => j.part == part && j.id == id)

/-- The next item of a job's stream that is still to be written. -/
def State.nextItem (s : State) (part id : Nat) : Option (Job × Stream × Commit × Item) :=
  match s.job? part id with
  | none => none
  | some j =>
    match j.stream with
    | none => none
    | some st =>
      match st.cut, st.todo with
      | some c, i :: _ => some (j, st, c, i)
      | _, _ => none

/-- R403: the streamer writes the next item of an interval. -/
def execStreamerWrite (part job : Nat) (s : State) : Host.Outcome State Fault Refusal :=
  match s.nextItem part job with
  | none => .next s
  | some (j, st, c, i) => .next (s.streamItem j st c i)

/-! ## The cut (R400, R401, R402) -/

/-- Whether a record is of the cut of an interval: a snapshot of a team that is not lost, or the record of a team that was
saved when its ARM came (R402). -/
def State.inCut (s : State) (st : Stream) (part id : Nat) (c : Ctx) : Bool :=
  let ofSnap := fun (u : Nat) => s.saved.any (fun x => x.snap && st.snaps.contains x.id && x.team.uid == u)
  if c.snap then
    st.snaps.contains c.id
    && ((s.team? c.team.uid).isSome || s.saved.any (fun x => x.kept && x.team.uid == c.team.uid))
  else
    c.kept && c.part == part && c.team.record.job == id && c.team.record.track && !ofSnap c.team.uid

/-- Where the bytes of a record stand, as sectors (R394, R400). -/
def Ctx.sectors (c : Ctx) : List Nat :=
  match c.pa with
  | none => []
  | some a => (pieces 128 a (c.bytes (fun _ => 0) (fun _ => 0)).length).map (fun p => sectorOf p.1)

/-- Whether an interval carries a record: a snapshot always, a saved record where it has a dirty sector (R400, R402). -/
def Ctx.carried (c : Ctx) (dirty : List Nat) : Bool := c.snap || c.pa.isNone || c.sectors.any dirty.contains

/-- The 128-byte sectors in which a store's bytes differ from what a commit held of it (R400). -/
def changedSectors (old new : List Byte) : Nat :=
  ((pieces 128 0 new.length).filter (fun p => (old.drop p.1).take p.2 != (new.drop p.1).take p.2)).length

/-- The sectors of a launch's queue store, its counters among them, that have changed since a committed cut (R400; log 14). -/
def Commit.changedIn (c : Commit) (prev : Option Commit) (x : Launch) : Nat :=
  match prev.bind (fun p => (p.launches.find? (fun y => y.uid == x.uid)).map (fun y => p.storeBytes y)) with
  | none => ceilDiv (c.storeBytes x).length 128
  | some old => changedSectors old (c.storeBytes x)

/-- What a job's cut holds at this moment, but for its leaves (R400, R402). -/
def State.cutNow (s : State) (j : Job) (st : Stream) : Commit :=
  let mine := fun (x : Launch) => x.part == j.part && x.record.job == j.id && x.record.track
  { pa := 0, part := j.part, job := j.id, k := st.k, prev := st.prev,
    records := (s.saved.filter (s.inCut st j.part j.id)).map (fun (c : Ctx) =>
        match s.team? c.team.uid with
        | some t => { c with team := { c.team with lo := t.lo, hi := t.hi } }
        | none => c),
    launches := s.launches.filter (fun x => mine x && !x.counted),
    passes := s.passes.filter (fun p => p.part == j.part && p.job == j.id),
    counters := s.counters.filter (fun k => k.part == j.part && k.job == j.id && decide (k.level < 4)),
    cancels := s.cancels.filter (fun k => k.part == j.part && k.asid == j.asid && k.job == j.id),
    leaves := [], sectors := [] }

/-- The committed cut that an interval builds on. -/
def State.committedAt (s : State) (pa : Nat) : Option Commit := (s.commits.filter (fun c => c.pa == pa)).getLast?

/-- The state after the cut of an interval is taken, once every quiet point is over: its records, queues, counters and
leaves as they stand, and what is to be streamed: what is marked dirty, a frame mapped since the interval that this one builds on,
and every leaf whose entry has been written (R400, R402, R404). -/
def State.takeCut (s : State) (part id : Nat) : State :=
  match s.job? part id with
  | none => s
  | some j =>
    match j.stream with
    | none => s
    | some st =>
      if st.cut.isSome || !st.toArm.isEmpty then s
      else
        let m := s.maps part j.asid
        let prev := if st.full then none else s.committedAt st.prev
        let c : Commit := { s.cutNow j st with leaves := m.1 }
        let old := (prev.map (fun c => c.leaves)).getD []
        let changed := dedup (s.touched part j.asid j.dirty ++ (m.1.filter (fun l => !old.contains l)).map (fun l => l.va)
          ++ (old.filter (fun l => m.1.all (fun x => x.va != l.va))).map (fun l => l.va))
        let todo := c.records.flatMap (fun r => r.items st.full)
          ++ (c.records.filter (fun r => st.full || r.carried j.dirty)).map (fun r => Item.snapshot r.id)
          ++ (c.launches.filter (fun x => st.full || c.changedIn prev x != 0)).map (fun x => Item.queueStore x.uid)
          ++ (if st.full then m.1.map (fun l => l.va) else changed).map Item.mapping
          ++ ((sectorsOf m.1 m.2).filter (fun a => st.full || j.dirty.contains a || (lowestVa old a).isNone)).map Item.sector
        let s := (s.setStream part id (fun st => { st with cut := some c, todo := todo, marks := j.dirty })).setJob part id
          (fun j => { j with dirty := [] })
        c.launches.foldl (fun s x => s.kick x.uid) s

/-- The state after a core's quiet point is looked at: with every team of the job past it, the core's clock passes the
closing time and its ceiling rises; the last quiet point makes the cut (R401, R402). -/
def State.armDone (s : State) (part id core : Nat) : State :=
  match (s.job? part id).bind (fun j => j.stream) with
  | none => s
  | some st =>
    let open_ := (s.teamsOn core).any (fun t => t.part == part && t.record.job == id && t.record.track
      && (t.st == .draining || t.halt.isSome))
    if st.arming.contains core && !open_ then
      (((s.setCore core (fun c => { c with clock := max c.clock (st.tk + 1) })).setStream part id (fun st =>
        { st with toArm := st.toArm.filter (· != core), arming := st.arming.filter (· != core) })).takeCut part id).retryCeil
    else s

/-- The state after a team's snapshot is written for the stream of its job, whose marks of it then begin anew (R402). -/
def State.snapshot (s : State) (t : Team) (j : Job) : State :=
  let n := s.name
  let s := n.2.writeCtx (s.ctxOf t n.1 true)
  let s := s.setStream j.part j.id (fun st => { st with snaps := st.snaps ++ [n.1] })
  let s := s.setTeam t.uid Team.unmarked
  if (s.core t.core).engine.holder = some t.uid then s.setEngine t.core Engine.unmarked else s

/-- The state after a quiet point of a team: its snapshot is written, unless its interval has aborted, and it goes on; a
hold that it met is due (R334, R402, R405). -/
def State.stopQuiet (s : State) (t : Team) : State :=
  let s := match s.jobOf t with
    | some j => if (j.stream.map (fun (st : Stream) => st.arming.contains t.core)).getD false then s.snapshot t j else s
    | none => s
  let s := s.setTeam t.uid (fun t => { t with
    st := .running, halt := t.owed.map (fun (o : Nat × List Nat) => HaltReason.hold o.1 o.2), owed := none })
  ((s.askAll t.uid).serveClaims t.uid t.claims.length).settleWaits t.uid

/-- R391: draining ends, the accesses that may be performed being performed, and the context record is complete; after a quiet point the team goes on (R402). A command that an
accepted word let the sequencer run stops at its restart point (R288, R390). -/
def execContextStop (team : Nat) (s : State) : Host.Outcome State Fault Refusal :=
  let s := s.force (fun op _ => op.team == team && ((s.team? team).map s.stopDue).getD false)
  match s.team? team with
  | none => .next s
  | some t =>
    if s.stopDue t then
      let s := (s.haltMatrix team t.core 0).holdLogs team
      match s.team? team with
      | none => .next s
      | some t =>
        .next ((if t.halt = some .quiet then s.stopQuiet t else s.stopSave t).armDone t.part t.record.job t.core)
    else .next s

/-! ## Intervals (R401, R402, R404) -/

/-- The cores that run a team of a job. -/
def State.jobCores (s : State) (part id : Nat) : List Nat :=
  sortNat ((s.teams.filter (fun t => t.part == part && t.record.job == id && t.record.track)).map (fun t => t.core))

/-- A stream as it begins: its header, and what it builds on (R404, R407). -/
def Job.newStream (j : Job) (k tk : Nat) (full : Bool) (cores : List Nat) : Stream :=
  let prev := if full then 0 else j.lastCommit
  { k := k, tk := tk, base := j.place, prev := prev, full := full, bytes := streamHeader k tk j.id prev, items := 0,
    toArm := cores, arming := [], snaps := [], cut := none, todo := [], marks := [], captured := [] }

/-- R401: the front end closes an interval at the ceiling and sends ARM to the job's cores; with none, the cut is taken
at once. No interval closes during a firmware update (R439). -/
def execCheckpointIntervalClose (part job : Nat) (s : State) : Host.Outcome State Fault Refusal :=
  match s.job? part job with
  | none => .next s
  | some j =>
    if !j.based || j.stream.isSome || s.mgmt.st ≠ 2 then .next s
    else
      let st := j.newStream j.nextK j.ceiling j.fullNext (s.jobCores part job)
      let s := s.setJob part job (fun j => { j with
        stream := some st, nextK := j.nextK + 1, ceiling := st.tk + 2 ^ 20, closed := st.tk })
      if j.region + j.bytes < st.base + 128 then .next (s.abort part job true)
      else if s.revoked st.base then .next (s.abort part job false)
      else .next ((s.devWrite st.base st.bytes).takeCut part job)

/-- R402: ARM reaches a core, whose teams of the job come to a quiet point. -/
def execArm (part job core : Nat) (s : State) : Host.Outcome State Fault Refusal :=
  match (s.job? part job).bind (fun j => j.stream) with
  | none => .next s
  | some st =>
    if st.toArm.contains core && !st.arming.contains core then
      let s := { s with teams := s.teams.map (fun (t : Team) =>
        if t.core = core ∧ t.part = part ∧ t.record.job = job ∧ t.record.track ∧ t.st = TeamSt.running ∧ t.halt.isNone then
          { t with halt := some .quiet } else t) }
      .next ((s.setStream part job (fun st => { st with arming := st.arming ++ [core] })).armDone part job core)
    else .next s

/-- R401: every 100 µs, between intervals, the front end raises a job's ceiling; what waited for it is tried again. -/
def execCeilingRaise (part job : Nat) (s : State) : Host.Outcome State Fault Refusal :=
  match s.job? part job with
  | none => .next s
  | some j =>
    if j.based && (j.stream.map (fun st => st.toArm.isEmpty)).getD true then
      .next ((s.setJob part job (fun j => { j with ceiling := j.ceiling + 2 ^ 20 })).retryCeil)
    else .next s

/-! ## Commit (R404, R406) -/

/-- One bit of CRC-32, polynomial of IEEE 802.3, reflected (R404). -/
def crcBit (c : Word) : Word := if c.getLsbD 0 then (c >>> 1) ^^^ 0xEDB88320 else c >>> 1

/-- CRC-32 after one byte. -/
def crcByte (c : Word) (b : Byte) : Word := (List.range 8).foldl (fun c _ => crcBit c) (c ^^^ b.setWidth 32)

/-- CRC-32 of bytes (R404). -/
def crc32 (bs : List Byte) : Word := ~~~(bs.foldl crcByte (BitVec.allOnes 32))

/-- The 64 bytes of a commit record (R404). -/
def Stream.commitRecord (st : Stream) (part job : Nat) : List Byte :=
  bytesOfNat 4 0x4D43524E ++ bytesOfNat 4 1 ++ bytesOfNat 8 st.k ++ bytesOfNat 8 st.tk ++ bytesOfNat 8 st.prev
  ++ bytesOfNat 8 st.base ++ bytesOfNat 8 st.bytes.length ++ bytesOfNat 4 (job <<< 16 + part)
  ++ bytesOfNat 4 (crc32 st.bytes).toNat ++ bytesOfNat 4 st.items ++ bytesOfNat 4 1

/-- The state after a stream's commit record is performed, at the first multiple of 64 behind the stream (R379; log 14), all that
the stream holds being visible before it; the marks of the interval are cleared (R404, R436). -/
def State.commit (s : State) (j : Job) (st : Stream) (c : Commit) : State :=
  let a := roundUp 64 (st.base + st.bytes.length)
  if s.revoked a then s.abort j.part j.id false
  else
    let s := (s.reveal (fun sec => decide (st.base < sec + 128) && decide (sec < a))).devPublish a (st.commitRecord j.part j.id)
    let s := s.setJob j.part j.id (fun j => { j with
      stream := none, used := a + 64 - j.region, lastK := st.k, lastCommit := a, aborted := false, fullNext := false })
    { s with commits := s.commits.filter (fun x => x.pa != a) ++ [{ c with pa := a }],
             saved := s.saved.filter (fun x => !(x.snap && st.snaps.contains x.id)) }

/-- R404: the stream of an interval has ended, and its commit record is performed. -/
def execCheckpointCommit (part job : Nat) (s : State) : Host.Outcome State Fault Refusal :=
  match s.job? part job with
  | none => .next s
  | some j =>
    match j.stream with
    | none => .next s
    | some st =>
      match st.cut, st.todo with
      | some c, [] => .next (s.commit j st c)
      | _, _ => .next s

/-- Whether a sector is tracked for a job: a page of its address space, or a table of it, covers it (R400). -/
def tracks (m : List Leaf × List (Nat × Nat)) (a : Nat) : Bool :=
  m.1.any (fun l => l.inHbm && decide (l.pa ≤ a) && decide (a < l.pa + 2 ^ l.log))
  || m.2.any (fun t => decide (t.1 < a + 128) && decide (a < t.1 + t.2))

/-- The bytes marked dirty of a team's registers and scratchpad, and of an engine it holds (R400). -/
def Team.dirtyBytes (t : Team) (e : Option Engine) : Nat :=
  128 * total (t.slices.map (fun sl => sl.marks.dirty.length)) + 128 * t.lines.length
  + ((e.map (fun e => 4096 * e.accMarks.length + 576 * e.skipMarks.length)).getD 0)

/-- The bytes of a job marked dirty since its last commit: sectors of its address space and of its records, queue stores and
counters, its teams' registers, lines and engines, and what of them a snapshot not yet committed has taken over (R400, R406). -/
def State.dirtyBytes (s : State) (j : Job) : Nat :=
  let m := s.maps j.part j.asid
  let st := j.stream.getD (j.newStream j.nextK 0 false [])
  let c := s.cutNow j st
  let recs := c.records.flatMap Ctx.sectors
  let marks := (sortNat (j.dirty ++ (j.stream.map (fun st => st.marks)).getD [])).filter (fun a => tracks m a || recs.contains a)
  let ts := s.teams.filter (fun t => t.part == j.part && t.record.job == j.id && t.record.track)
  let engine := fun (t : Team) => if (s.core t.core).engine.holder = some t.uid then some (s.core t.core).engine else none
  128 * marks.length + total (ts.map (fun t => t.dirtyBytes (engine t)))
  + total ((c.records.filter (fun r => r.snap)).map (fun r => r.team.dirtyBytes r.engine))
  + 128 * total (c.launches.map (c.changedIn (s.committedAt j.lastCommit)))

/-- R406: the save-cost record of a job, its last word last: the bytes marked dirty since the last commit and the bytes of its
resident context. EST is a free value: the spec gives no streaming rate of a job (log 2). -/
def execSaveCostRecord (part job : Nat) (s : State) : Host.Outcome State Fault Refusal :=
  match s.job? part job with
  | none => .next s
  | some j =>
    let ts := s.teams.filter (fun t => t.part == part && t.record.job == job && t.record.track)
    let f := s.freeBytes 8
    let s := f.2.devWrite j.status
      (bytesOfNat 8 (s.dirtyBytes j) ++ bytesOfNat 8 f.1 ++ bytesOfNat 8 (total (ts.map s.ctxBytes)))
    .next (s.devWrite (j.status + 24) (bytesOfNat 8 ((j.lastK % 2 ^ 32) <<< 32 + j.aborted.toNat <<< 1 + j.full.toNat)))

/-! ## Commit records as they are read (R404, R407) -/

/-- Whether the bytes at a tier address are a committed record: the fixed fields, and the CRC of the stream, whichever package
wrote it (R404, R407). -/
def State.committed (s : State) (pa : Nat) : Bool :=
  s.mem.nat pa 4 == 0x4D43524E && s.mem.nat (pa + 4) 4 == 1 && bit (s.mem.nat (pa + 0x3C) 4) 0
  && !s.revoked pa
  && (crc32 (s.mem.bytes (s.mem.nat (pa + 0x20) 8) (s.mem.nat (pa + 0x28) 8))).toNat == s.mem.nat (pa + 0x34) 4

/-- The committed intervals of the chain that ends at a record, oldest first; none when some record of it is not
committed (R407). -/
def State.chain (s : State) (pa : Nat) : Nat → Option (List Commit)
  | 0 => none
  | n + 1 =>
    match (s.commits.filter (fun c => c.pa == pa)).getLast? with
    | none => none
    | some c =>
      if !s.committed pa || s.mem.nat (pa + 0x18) 8 != c.prev then none
      else if c.prev = 0 then some [c] else (s.chain c.prev n).map (fun l => l ++ [c])

/-- The chain of a commit record (R407). -/
def State.chainOf (s : State) (pa : Nat) : Option (List Commit) := s.chain pa (s.commits.length + 1)

/-- The state after another package has committed an interval in an extent of the tier that this one holds: its bytes
stand there, and `c` is what they say. The sharing is the fabric manager's (R404, R408, R431; log 58). -/
def State.tierCommit (s : State) (c : Commit) (base : Nat) (stream record : List Byte) : State :=
  let placed := fun (a n : Nat) => s.extents.any (fun e => !e.revoked && decide (e.base ≤ a) && decide (a + n ≤ e.base + e.bytes))
  if placed base stream.length && placed c.pa 64 && record.length == 64 then
    let s := (s.devPublish base stream).devPublish c.pa record
    { s with commits := s.commits.filter (fun x => x.pa != c.pa) ++ [c] }
  else s

/-! ## Restore from a commit record (R408) -/

/-- Frames for a block of memory: on the die asked for if the pool has room there, else on the first die that has
(R408; log 11). -/
def takeBlock (pool : List (Nat × Nat)) (die n : Nat) : Option (Nat × List (Nat × Nat)) :=
  (die :: List.range 4).findSome? (fun d => takeFrames pool d n n)

/-- The new address of an old HBM address, given the blocks placed: old address, size, new address. -/
def blockMoved (bs : List (Nat × Nat × Nat)) (pa : Nat) : Option Nat :=
  (bs.find? (fun b => decide (b.1 ≤ pa) && decide (pa < b.1 + b.2.1))).map (fun b => b.2.2 + (pa - b.1))

/-- Blocks for the HBM leaves, larger pages first, so that aliases share one frame (R408). -/
def placeLeaves : List Leaf → List (Nat × Nat) → List (Nat × Nat × Nat) → Option (List (Nat × Nat × Nat) × List (Nat × Nat))
  | [], pool, bs => some (bs, pool)
  | l :: rest, pool, bs =>
    if (blockMoved bs l.pa).isSome then placeLeaves rest pool bs
    else
      match takeBlock pool (dieOfHbm l.pa) (2 ^ l.log) with
      | none => none
      | some (a, pool) => placeLeaves rest pool (bs ++ [(l.pa, 2 ^ l.log, a)])

/-- The level of the table that holds a leaf of a size (R356). -/
def leafLevel (log : Nat) : Nat := if log = 48 then 0 else if log = 39 then 1 else if log = 30 then 2 else if log = 21 then 3 else 4

/-- The entry of a leaf at an address (R357). -/
def Leaf.entry (l : Leaf) (pa : Nat) : Nat :=
  l.ats.toNat <<< 54 + l.home.code <<< 52 + (if l.ats then 0 else pa) + l.share.code <<< 6 + l.u.toNat <<< 5
  + l.x.toNat <<< 4 + l.w.toNat <<< 3 + l.r.toNat <<< 2 + 1

/-- The state after page tables are built that map leaves: none when the pool has no frame for a table (R408). -/
def State.buildTables (s : State) (root : Nat) (bs : List (Nat × Nat × Nat)) :
    List Leaf → List (Nat × Nat) → Option (State × List (Nat × Nat))
  | [], pool => some (s, pool)
  | l :: rest, pool =>
    let pa := if l.inHbm then (blockMoved bs l.pa).getD l.pa else l.pa
    match s.spot l.va (leafLevel l.log) levels root with
    | .free entry missing =>
      match (List.range 4).findSome? (fun d => takeTables pool d missing) with
      | none => none
      | some (tables, pool) =>
        (s.writePath l.va (leafLevel l.log - missing) entry tables (l.entry pa)).buildTables root bs rest pool
    | .present | .conflict => s.buildTables root bs rest pool

/-- The sectors of a chain, newest last, in the frames they now have: the frame of a sector is the one that its own interval
mapped at the address it is carried under (R404, R408). -/
def State.writeSectors (s : State) (bs : List (Nat × Nat × Nat)) (chain : List Commit) : State :=
  (chain.flatMap (fun c => c.sectors.map (fun x => (c.leaves.find? (fun l => l.inHbm && l.covers x.1), x)))).foldl (fun s x =>
    match x.1.bind (fun l => blockMoved bs (l.addr x.2.1)) with
    | some a => s.devWrite a x.2.2
    | none => s) s

/-- The state after an address space is rebuilt from a chain; none while the pool has no room (R408). -/
def State.rebuild (s : State) (part asid : Nat) (chain : List Commit) : Option State :=
  let ls := ((chain.getLast?).map (fun c => c.leaves)).getD []
  let q := s.part part
  match placeLeaves (sortBy (fun l => 64 - l.log) (ls.filter Leaf.inHbm)) q.pool [] with
  | none => none
  | some (bs, pool) =>
    match (List.range 4).findSome? (fun d => takeTables pool d 1) with
    | some ([root], pool) =>
      match s.buildTables root bs ls pool with
      | none => none
      | some (s, pool) =>
        let s := (s.setPart part (fun q => { q with pool := pool })).writeSectors bs chain
        let a := q.ctxbase.toNat + 32 * (asid - q.asid0.toNat)
        let old := s.mem.nat a 8
        let new := bits old 63 52 <<< 52 + root + bits old 11 1 <<< 1 + 1
        some ((s.writeEntry a new).retireAsid asid)
    | _ => none

/-- A launch under new names, without a LAUNCH packet (R380, R408). -/
def Launch.renamed (x : Launch) (b part asid first count : Nat) (any : Bool) (orphans : List (Nat × Nat)) (waiters : List Nat) :
    Launch :=
  { x with uid := x.uid + b, part := part, asid := asid, queue := 0, index := 0, restored := true, first := first,
           count := count, any := any, deps := x.deps.map (· + b), pass := x.pass + b, started := [], releasing := [],
           waiters := waiters, home := none, moving := false, named := false, orphans := x.orphans ++ orphans,
           conts := x.conts.map (fun c => { c with takenBy := if c.takenBy = 0 then 0 else c.takenBy + b }) }

/-- A record under new names, ready to be restored (R408). -/
def Ctx.renamed (c : Ctx) (b part asid : Nat) : Ctx :=
  { c with
    id := c.id + b, snap := false, part := part, asid := asid, pa := none,
    st := if c.st = .held then .held else .complete,
    team := { c.team with
      uid := c.team.uid + b, launch := c.team.launch + b, part := part, asid := asid, lo := 0, hi := 0, halt := none,
      cmds := c.team.cmds.map (fun x => { x with id := x.id + b, plan := none, held := [] }) },
    engine := c.engine.map (fun e => { e with
      holder := some (c.team.uid + b),
      queue := e.queue.map (fun x => { x with id := x.id + b, held := none }) }),
    pend := c.pend.map (fun o => { o with id := o.id + b, team := o.team + b }) }

/-- Whether a saved team holds a task: its BLOCK is not 6 or 7 (R411). -/
def Team.holdsTask (t : Team) : Bool := t.slices.all (fun sl => t.blockCode 0 sl != 6 && t.blockCode 0 sl != 7)

/-- The records of a cut in the order they are restored (R411). -/
def cutOrder (rs : List Ctx) : List Ctx :=
  let l := sortBy (fun c => c.team.no) rs
  l.filter (fun c => c.team.holdsTask) ++ l.filter (fun c => !c.team.holdsTask)

/-- A name above those of a cut, which new names of its launches, teams, records, operations and commands are reckoned
from (R408). -/
def Commit.above (c : Commit) : Nat :=
  ((c.launches.flatMap (fun x => x.uid :: x.pass :: x.deps) ++ c.passes.map (fun p => p.uid)
    ++ c.records.flatMap (fun r => r.id :: r.team.uid :: r.team.launch :: (r.team.cmds.map (fun x => x.id) ++ r.pend.map (fun o => o.id)
      ++ (r.engine.map (fun e => e.queue.map (fun x => x.id))).getD []))).foldl max 0) + 1

/-- The state with what a commit record held of launches, records and counters, and of cancelled units (R408). -/
def State.reinstate (s : State) (c : Commit) (part asid first count : Nat) (any : Bool) : State × List Nat :=
  let b := s.fresh
  let recs := (cutOrder c.records).map (fun r => r.renamed b part asid)
  let ls := c.launches.map (fun x =>
    let mine := c.records.filter (fun r => r.team.launch == x.uid)
    x.renamed b part asid first count any
      ((mine.filter (fun r => decide (r.team.lo < r.team.hi))).map (fun r => (r.team.lo, r.team.hi)))
      ((x.waiters.filter (fun u => mine.any (fun r => r.team.uid == u))).map (· + b)))
  let keep := s.counters.filter (fun k => !(k.part == part && k.job == c.job && decide (k.level < 4)))
  ({ s with
      fresh := b + max b c.above,
      cancels := s.cancels.filter (fun k => !(k.part == part && k.asid == asid && k.job == c.job))
        ++ c.cancels.map (fun (k : Cancel) => { k with part := part, asid := asid }),
      launches := s.launches ++ ls,
      saved := s.saved ++ recs,
      passes := s.passes ++ c.passes.map (fun (p : Pass) => { p with uid := p.uid + b, part := part }),
      counters := keep ++ c.counters.map (fun (k : Counter) => { k with part := part }) },
   ls.map (fun x => x.uid))

/-! ## Releasing saved teams (R411) -/

/-- The state after a saved team is released: the reply *none*, released, is in its record, and it counts as ended
(R38, R411, R443). -/
def State.releaseSaved (s : State) (l u : Nat) : State :=
  let s := s.replyTake l u (.none 1)
  match s.saved.find? (fun c => c.kept && c.team.uid == u) with
  | none => s
  | some c =>
    let t := c.team
    let s := s.logEnergy t.part
      (bytesOfNat 4 (t.record.job <<< 16 + 1) ++ bytesOfNat 4 t.no
       ++ bytesOfNat 8 (t.energy.toNat + (if t.esat then 2 ^ 48 else 0)) ++ bytesOfNat 8 t.record.codebase)
    { (s.unreserveAll t) with saved := s.saved.filter (fun x => x.id != c.id) }.countRestored c.id

/-- The state after the front end releases teams of elastic launches that a RESUME finds no cores for (R411). -/
def State.shrink (s : State) (cores : Nat) (ls : List Nat) : State :=
  ls.foldl (fun s l =>
    match s.launch? l with
    | none => s
    | some x =>
      let held := s.savedOf l
      let can := sortBy (fun t => 2 ^ 32 - t.no) (held.filter (fun t => x.waiters.contains t.uid))
      if x.record.elastic then
        (((can.take (held.length - cores)).foldl (fun s t => s.releaseSaved l t.uid) s).kick l).checkLaunch l
      else s) s

end Sys2Proof.Machine
end

