-- ==== Sys2Proof/Machine/Packets.lean ====
section
/-! DEFINITION. The front end: packets, their checks and effects, and the start of teams (R28, R30, R31, R38, R84 to
R88, R378 to R385, R397, R408, R448). -/

namespace Sys2Proof.Machine

/-! ## Packets (R378, R379) -/

/-- What stands for a packet that cannot be read: one of reserved TYPE, so check 1 rejects it (R432, R445; log 17). -/
def lostPacket : Nat := 0xFF

/-- The next packet of a queue as a number, while the front end serves it: the queue is enabled and not empty, and the
front end runs (R378, R439, R446). One that is poisoned, or in a revoked extent, is lost (R432, R445). -/
def State.nextPacket (s : State) (part queue : Nat) : Option Nat :=
  let q := (s.part part).queue queue
  let pa := q.qbase.toNat + 64 * (q.head.toNat % q.size)
  if q.en && q.head != q.tail && s.mgmt.st == 2 then some (if s.poisoned pa 64 then lostPacket else s.mem.nat pa 64)
  else none

/-- TYPE (R379). -/
def pktType (x : Nat) : Nat := bits x 7 0
/-- ASID (R379). -/
def pktAsid (x : Nat) : Nat := bits x 63 48
/-- ADDR (R379). -/
def pktAddr (x : Nat) : Nat := bits x 127 64
/-- FIRST (R379). -/
def pktFirst (x : Nat) : Nat := bits x 136 128
/-- COUNT (R379). -/
def pktCount (x : Nat) : Nat := bits x 153 144
/-- LEVEL (R379). -/
def pktLevel (x : Nat) : Nat := bits x 162 160
/-- JOB (R379). -/
def pktJob (x : Nat) : Nat := bits x 191 176
/-- RANGES (R379). -/
def pktRanges (x : Nat) : Nat := bits x 255 192
/-- VALUE (R379). -/
def pktValue (x : Nat) : Nat := bits x 319 256
/-- NREAD (R379). -/
def pktReads (x : Nat) : Nat := bits x 18 16
/-- NWRITE (R379). -/
def pktWrites (x : Nat) : Nat := bits x 22 20

/-- Whether a packet waits for every earlier packet of its queue: ORDER = 1, or a SIGNAL (R379, R380). -/
def pktOrdered (x : Nat) : Bool := bit x 8 || pktType x == 3

/-- Whether every packet of a queue that was read has completed. -/
def State.queueIdle (s : State) (part queue : Nat) : Bool := s.packets.all (fun p => p.part != part || p.queue != queue)

/-! ## Checks (R381) -/

/-- Whether the bits of JOB or VALUE that R448 leaves unused for a LEVEL are nonzero. -/
def unitUnused (x : Nat) : Bool :=
  let v := pktValue x
  match pktLevel x with
  | 0 => pktJob x != 0 || bits v 43 32 != 0
  | 1 => pktJob x != 0 || bits v 43 0 != 0
  | 2 => v / 2 ^ 16 != 0
  | 3 => v / 2 ^ 24 != 0
  | _ => v != 0

/-- Check 1: a reserved field is nonzero, or a field has a reserved value (R381). -/
def reservedUsed (x : Nat) : Bool :=
  let unit := pktType x == 2 || pktType x == 4 || pktType x == 5
  bits x 31 23 != 0 || bit x 19 || bits x 15 13 != 0 || bits x 47 32 != 0 || bits x 159 154 != 0 || bits x 143 137 != 0
  || bits x 175 163 != 0 || bits x 511 320 != 0
  || decide (5 < pktType x) || decide (4 < pktLevel x) || decide (4 < pktReads x) || decide (4 < pktWrites x)
  || (pktType x != 1 && (bit x 11 || bit x 12)) || (bit x 12 && !bit x 11)
  || (if unit then unitUnused x else pktJob x != 0)

/-- Check 2: the ASID is outside the partition's range, or its context entry has V = 0 (R381). -/
def State.asidBad (s : State) (part x : Nat) : Bool := !(s.ctxEntry part (pktAsid x)).valid

/-- Check 3 on the addresses of a packet itself (R381). -/
def addressBad (x : Nat) : Bool :=
  let n := pktReads x + pktWrites x
  (match pktType x with
    | 1 => pktAddr x % 64 != 0 || !canonicalRange (pktAddr x) 64
    | 3 => pktAddr x % 8 != 0 || !canonicalRange (pktAddr x) 8
    | 5 => pktAddr x % 64 != 0
    | _ => false)
  || (n != 0 && (pktRanges x % 16 != 0 || !canonicalRange (pktRanges x) (16 * n)))

/-- What a leaf gives the front end: the leaf, unless it reaches a peer through an egress slot that bars the access
(R358, R374, R381). -/
def State.feAllows (s : State) (l : Leaf) (va : Nat) (n : Need) : Eng Leaf :=
  if inRange .fabric (l.addr va) && !s.slotPermits (l.addr va) n then .bad 4 va else .ok l

/-- A translation for the front end: the leaf, or waiting for the host, or none (R358, R369, R381). -/
def State.feLeaf (s : State) (part asid va : Nat) (n : Need) : State × Eng Leaf :=
  match walked (s.walk part 8 asid va).1 n true with
  | .fault _ => (s, .bad 4 va)
  | .hit l => (s, s.feAllows l va n)
  | .host e =>
    match (List.range 4).findSome? (fun d => s.atsHit d asid va n) with
    | some l => (s, if l.permits n true then s.feAllows l va n else .bad 4 va)
    | none =>
      if s.feBad.contains (asid, va / 4096, n) then (s, .bad 4 va)
      else ({ s.askHost 0 asid va n.writes e with want := some (va / 4096, n) }, .wait)

/-- The state after an access of the front end goes out on its link, or to the peer it reaches (R376). -/
def State.feSend (s : State) (l : Leaf) (va n v : Nat) (need : Need) : State :=
  let pa := l.addr va
  if inRange .fabric pa then { s with sent := s.sent ++ [s.peerRequest need 0 v { va := va, pa := pa, size := n, leaf := l }] }
  else s.transact pa n (fun q => if need.writes then .write q.1 (bytesOfNat q.2 (v >>> (8 * (q.1 - pa)))) else .read q.1 q.2)

/-- Bytes that the front end reads in an address space (R381). Data beyond the state is free; what is poisoned cannot be read
(log 17). -/
def State.feRead (s : State) (part asid : Nat) : List (Nat × Nat) → State × Eng (List Byte)
  | [] => (s, .ok [])
  | (va, n) :: rest =>
    match s.feLeaf part asid va .load with
    | (s, .wait) => (s, .wait)
    | (s, .bad c a) => (s, .bad c a)
    | (s, .ok l) =>
      let pa := l.addr va
      if s.poisoned pa n then (s, .bad 4 va)
      else
        let s := s.feSend l va n 0 .load
        let r := if beyond pa then s.freeBytes n else (s.mem.nat pa n, s)
        match r.2.feRead part asid rest with
        | (s, .ok b) => (s, .ok (bytesOfNat n r.1 ++ b))
        | (s, .wait) => (s, .wait)
        | (s, .bad c a) => (s, .bad c a)

/-- `n` bytes at `va` as the front end reads them. -/
def State.feBytes (s : State) (part asid va n : Nat) : State × Eng (List Byte) := s.feRead part asid (pieces 4096 va n)

/-- The launch record in 64 bytes (R84); reserved bits are ignored (R7). -/
def recordOf (b : List Byte) : LRec :=
  let d := natOfBytes b
  let at_ := fun (o hi lo : Nat) => bits d (8 * o + hi) (8 * o + lo)
  { codebase := at_ 0 63 0, entry := at_ 8 31 0, catchSlots := at_ 0x0C 29 24, regblk := at_ 0x0C 22 16,
    nroles := at_ 0x0C 15 10, crewlog := at_ 0x0C 9 8, slices := at_ 0x0C 6 0, roletab := at_ 0x10 63 0,
    bars := at_ 0x18 27 20, copyq := at_ 0x18 19 13, scratch := at_ 0x18 12 0, grain := at_ 0x1C 31 0,
    lo := at_ 0x20 63 0, hi := at_ 0x28 63 0, args := at_ 0x30 63 0, track := bit d (8 * 0x38 + 58),
    elastic := bit d (8 * 0x38 + 57), coresid := bit d (8 * 0x38 + 56), phase := at_ 0x38 55 32, graph := at_ 0x38 31 16,
    job := at_ 0x38 15 0 }

/-- The role entries in the bytes of a role table (R85). -/
def rolesOf (n : Nat) (b : List Byte) : List RoleEnt :=
  (List.range n).map (fun i =>
    let d := natOfBytes ((b.drop (8 * i)).take 8)
    { entry := bits d 31 0, cls := bits d 57 56, wbblk := bits d 53 48, count := bits d 46 40, first := bits d 37 32 })

/-- Whether a launch record fails R86, given its role entries; without a table there are none. -/
def LRec.bad (r : LRec) (roles : List RoleEnt) : Bool :=
  let misplaced := fun (a al : Nat) => !canonical a || a % al != 0
  let offset := fun (e : Nat) => e % 4 != 0 || decide (2 ^ 26 ≤ e)
  r.slices == 0 || r.slices % 2 ^ r.crewlog != 0 || decide (64 < r.slices + r.catchSlots) || r.regblk == 0 || decide (64 < r.regblk)
  || decide (2048 < r.slices * r.regblk + 2 * r.catchSlots) || decide (4096 < r.scratch) || decide (64 < r.copyq)
  || decide (128 < r.bars) || r.grain == 0 || decide (r.hi < r.lo) || (r.coresid && r.elastic)
  || misplaced r.codebase 256 || misplaced r.roletab 8 || misplaced r.args 8 || offset r.entry
  || roles.any (fun e => offset e.entry || e.count == 0 || e.cls == 3 || decide (r.regblk ≤ e.wbblk) || decide (r.slices < e.first + e.count))
  || (r.roletab != 0 && (List.range r.slices).any (fun i =>
        (roles.filter (fun e => decide (e.first ≤ i) && decide (i < e.first + e.count))).length != 1))

/-- What the front end has read for a packet: ranges as first byte and length, the launch record and its roles, the
physical address and leaf of a SIGNAL target. -/
structure Read where
  reads : List (Nat × Nat)
  writes : List (Nat × Nat)
  record : LRec
  roles : List RoleEnt
  target : Option (Nat × Leaf)
  deriving DecidableEq, Repr

/-- The ranges of a range block (R379). -/
def rangesOf (n : Nat) (b : List Byte) : List (Nat × Nat) :=
  (List.range n).map (fun i => (natOfBytes ((b.drop (16 * i)).take 8), natOfBytes ((b.drop (16 * i + 8)).take 8)))

/-- The range block of a packet, with checks 3 and 4 (R379, R381); ranges of length 0 are left out. -/
def State.readRanges (s : State) (part x : Nat) : State × Eng (List (Nat × Nat) × List (Nat × Nat)) :=
  let n := pktReads x + pktWrites x
  match s.feBytes part (pktAsid x) (pktRanges x) (16 * n) with
  | (s, .wait) => (s, .wait)
  | (s, .bad c a) => (s, .bad c a)
  | (s, .ok b) =>
    let rs := rangesOf n b
    if rs.any (fun r => r.2 != 0 && !canonicalRange r.1 r.2) then (s, .bad 3 0)
    else
      let keep := fun (l : List (Nat × Nat)) => l.filter (fun r => r.2 != 0)
      (s, .ok (keep (rs.take (pktReads x)), keep (rs.drop (pktReads x))))

/-- The launch record of a packet and its role table, with checks 4 and 5 (R381). -/
def State.readRecord (s : State) (part x : Nat) : State × Eng (LRec × List RoleEnt) :=
  match s.feBytes part (pktAsid x) (pktAddr x) 64 with
  | (s, .wait) => (s, .wait)
  | (s, .bad c a) => (s, .bad c a)
  | (s, .ok b) =>
    let r := recordOf b
    let n := r.nroles + 1
    if r.roletab = 0 then (if r.bad [] then (s, .bad 5 0) else (s, .ok (r, [])))
    else if r.roletab % 8 ≠ 0 ∨ !canonicalRange r.roletab (8 * n) then (s, .bad 5 0)
    else
      match s.feBytes part (pktAsid x) r.roletab (8 * n) with
      | (s, .wait) => (s, .wait)
      | (s, .bad c a) => (s, .bad c a)
      | (s, .ok t) => if r.bad (rolesOf n t) then (s, .bad 5 0) else (s, .ok (r, rolesOf n t))

/-- A launch record of which nothing was read. -/
def LRec.none : LRec := recordOf []

/-- What a packet points to, with checks 3 to 5 (R381). -/
def State.readAll (s : State) (part x : Nat) : State × Eng Read :=
  match s.readRanges part x with
  | (s, .wait) => (s, .wait)
  | (s, .bad c a) => (s, .bad c a)
  | (s, .ok rs) =>
    let base : Read := { reads := rs.1, writes := rs.2, record := LRec.none, roles := [], target := none }
    match pktType x with
    | 1 =>
      match s.readRecord part x with
      | (s, .wait) => (s, .wait)
      | (s, .bad c a) => (s, .bad c a)
      | (s, .ok r) => (s, .ok { base with record := r.1, roles := r.2 })
    | 3 =>
      match s.feLeaf part (pktAsid x) (pktAddr x) .store with
      | (s, .wait) => (s, .wait)
      | (s, .bad c a) => (s, .bad c a)
      | (s, .ok l) => (s, .ok { base with target := some (l.addr (pktAddr x), l) })
    | _ => (s, .ok base)

/-- The cores a partition owns, in ascending order. -/
def State.coresOf (s : State) (part : Nat) : List Nat := (List.range 512).filter (s.owns part)

/-- Check 6: the core set of a LAUNCH or RESUME (R381, R385). -/
def State.coresBad (s : State) (part x : Nat) : Bool :=
  let n := pktCount x
  n == 0
  || (if bit x 10 then decide ((s.coresOf part).length < n)
      else (List.range n).any (fun i => !s.owns part (pktFirst x + i)))

/-- Checks 6 to 11, given what was read: the first that fails (R381). -/
def State.lateCheck (s : State) (part x : Nat) (r : Read) : Option Nat :=
  let t := pktType x
  let j := s.job? part r.record.job
  let tracked := t == 1 && r.record.track
  if (t == 1 || t == 5) && s.coresBad part x then some 6
  else if (t == 4 || t == 5) && pktLevel x == 0 then some 7
  else if t == 5 && pktAddr x != 0 && (s.chainOf (pktAddr x)).isNone then some 8
  else if tracked && !(j.map (fun j => j.based)).getD false then some 9
  else if tracked && (j.map (fun j => j.asid)) != some (pktAsid x) then some 10
  else if t == 1 && decide (8192 < r.reads.length + r.writes.length) then some 11
  else none

/-- The checks of a packet in their order: what was read, the number of the first check that fails, or waiting for the
host (R381). -/
def State.checkPacket (s : State) (part x : Nat) : State × Eng Read :=
  if reservedUsed x then (s, .bad 1 0)
  else if s.asidBad part x then (s, .bad 2 0)
  else if addressBad x then (s, .bad 3 0)
  else
    match s.readAll part x with
    | (s, .wait) => (s, .wait)
    | (s, .bad c a) => (s, .bad c a)
    | (s, .ok r) =>
      match s.lateCheck part x r with
      | some n => (s, .bad n 0)
      | none => (s, .ok r)

/-! ## Reading a packet (R378, R382, R384) -/

/-- The ranges the interval table holds (R384). -/
def State.rangesHeld (s : State) : Nat :=
  total ((s.launches.filter (fun x => !x.counted && !x.restored)).map (fun x => x.reads.length + x.writes.length))

/-- Whether a packet is a LAUNCH whose ranges do not fit the interval table (R384). -/
def State.tableFull (s : State) (x : Nat) (r : Read) : Bool :=
  pktType x == 1 && decide (8192 < s.rangesHeld + r.reads.length + r.writes.length)

/-- Whether a queue of a partition holds the front end up: its next packet is a LAUNCH whose ranges do not fit
(R384). -/
def State.heldUp (s : State) (part : Nat) : Bool :=
  (List.range 16).any (fun q =>
    match s.nextPacket part q with
    | none => false
    | some x =>
      pktType x == 1 && (!pktOrdered x || s.queueIdle part q)
      && (match s.checkPacket part x with
          | (s, .ok r) => s.tableFull x r
          | (_, .wait) | (_, .bad _ _) => false))

/-- The state after the front end moves past a packet: the next partition's turn comes, and of this one's queues the next
one's (R378). A LAUNCH that is read, rejected or not, is now the one its ring position names (R448). -/
def State.pass (s : State) (part queue x : Nat) : State :=
  let q := (s.part part).queue queue
  let pos := q.head.toNat % q.size
  let s := s.setQueue part queue (fun q => { q with head := q.head + 1 })
  { s with
    feBad := s.feBad.filter (fun b => b.1 != pktAsid x),
    turn := (part + 1) % 16,
    turns := nset s.turns part (BitVec.ofNat 8 ((queue + 1) % 16)),
    launches := if pktType x = 1 then
        s.launches.map (fun (l : Launch) =>
          if l.part = part ∧ l.queue = queue ∧ l.index = pos then { l with named := false } else l)
      else s.launches }

/-- Whether a CANCEL names a continuation record of a launch whose home moves: the operation waits (R34). -/
def State.cancelHeld (s : State) (part x : Nat) : Bool :=
  let v := pktValue x
  pktLevel x == 0 && ((s.launchAt part (bits v 63 60) (bits v 59 44)).map (fun l => l.moving)).getD false

/-- The packet of a RESUME that awaits something. -/
def resumePacket (part queue x pos : Nat) (a : Await) : Packet where
  part := part
  queue := queue
  index := pos
  await := a
  asid := pktAsid x
  first := pktFirst x
  count := pktCount x
  any := bit x 10
  chosen := []

/-- The state after a RESUME of a commit record: the address space is rebuilt, the launches are reinstated, and their
teams wait for cores; none while the pool has no room (R408). -/
def State.resumeCommit (s : State) (part queue x pos : Nat) : Option State :=
  match s.chainOf (pktAddr x) with
  | none => none
  | some chain =>
    match chain.getLast?, s.rebuild part (pktAsid x) chain with
    | some c, some s =>
      let r := s.reinstate c part (pktAsid x) (pktFirst x) (pktCount x) (bit x 10)
      let s := r.1
      if r.2.isEmpty then some (s.complete part queue pos 0 0)
      else
        let s := { s with packets := s.packets ++ [resumePacket part queue x pos (.launches r.2)] }
        some (r.2.foldl (fun s l => (s.kick l).checkLaunch l) (s.shrink (pktCount x) r.2))
    | _, _ => none

/-- Whether a packet whose checks have passed must wait: a CANCEL for a launch whose home moves, or a RESUME of a checkpoint for
room in the pool (R34, R408). -/
def State.packetWaits (s : State) (part queue x pos : Nat) : Bool :=
  match pktType x with
  | 2 => s.cancelHeld part x
  | 5 => pktAddr x != 0 && ((s.pass part queue x).resumeCommit part queue x pos).isNone
  | _ => false

/-- How the next packet of a queue stands: nothing to read or not yet, waiting for the host, or ready to be read (R378, R379,
R384). -/
inductive Turn where | idle | asking | ready
  deriving DecidableEq, Repr

/-- How the next packet of a queue stands (R378, R384). DEDUCED: a packet with ORDER = 1, and a SIGNAL, waits for the earlier
packets of its queue before it is read and checked, and the later packets of its queue wait behind it (log 74). -/
def State.turnOf (s : State) (part queue : Nat) : Turn :=
  match s.nextPacket part queue with
  | none => .idle
  | some x =>
    let q := (s.part part).queue queue
    if (pktOrdered x && !s.queueIdle part queue) || s.heldUp part then .idle
    else
      match s.checkPacket part x with
      | (_, .wait) => .asking
      | (_, .bad _ _) => .ready
      | (s, .ok _) => if s.packetWaits part queue x (q.head.toNat % q.size) then .idle else .ready

/-- The queues of all partitions in the order in which the front end serves them next (R378). -/
def State.rounds (s : State) : List (Nat × Nat) :=
  (List.range 16).flatMap (fun i =>
    let p := (s.turn + i) % 16
    (List.range 16).map (fun j => (p, ((nget s.turns p).toNat + j) % 16)))

/-- The queue whose packet the front end reads next: the first in its round with one to read (R378). -/
def State.nextQueue (s : State) : Option (Nat × Nat) := s.rounds.find? (fun r => s.turnOf r.1 r.2 == .ready)

/-- What the front end waits for of the host: the ASID, the page and the need of each packet that is held up (R369). -/
def State.feWants (s : State) : List (Nat × Nat × Need) :=
  s.rounds.filterMap (fun r =>
    match s.nextPacket r.1 r.2 with
    | some x =>
      if s.turnOf r.1 r.2 = .asking then ((s.checkPacket r.1 x).1.want).map (fun w => (pktAsid x, w)) else none
    | none => none)

/-- A packet read and acted on, when its queue's turn has come: `act` has the queue position of the packet and what was read. A
packet of another type is not this event; one that fails a check is rejected; one that waits for the host asks it (R378, R381,
R382). -/
def State.readPacket (s : State) (part queue : Nat) (ofType : Nat → Bool) (act : Nat → Nat → Read → State → State) : State :=
  match s.nextPacket part queue with
  | none => s
  | some x =>
    let q := (s.part part).queue queue
    let pos := q.head.toNat % q.size
    if !ofType (pktType x) then s
    else
      match s.turnOf part queue with
      | .idle => s
      | .asking => { (s.checkPacket part x).1 with want := none }
      | .ready =>
        if s.nextQueue ≠ some (part, queue) then s
        else
          match s.checkPacket part x with
          | (s, .wait) => s
          | (s, .bad c _) => (s.pass part queue x).complete part queue pos 1 c
          | (s, .ok r) => act x pos r (s.pass part queue x)

/-- R380: a NOP packet completes at once; a packet of a reserved TYPE is rejected (R381). -/
def execNopPacket (part queue : Nat) (s : State) : Host.Outcome State Fault Refusal :=
  .next (s.readPacket part queue (fun t => t == 0 || decide (5 < t)) (fun _ pos _ s => s.complete part queue pos 0 0))

/-! ## LAUNCH (R44, R45, R380, R383, R384) -/

/-- Whether two lists of ranges share a byte. -/
def rangesMeet (a b : List (Nat × Nat)) : Bool :=
  a.any (fun x => b.any (fun y => decide (x.1 < y.1 + y.2) && decide (y.1 < x.1 + x.2)))

/-- The launches that a new one depends on (R383). -/
def State.depsOf (s : State) (part asid : Nat) (reads writes : List (Nat × Nat)) : List Nat :=
  (s.launches.filter (fun x => x.part == part && x.asid == asid && !x.restored && !x.counted
    && (rangesMeet reads x.writes || rangesMeet writes x.reads || rangesMeet writes x.writes))).map (fun x => x.uid)

/-- The graph pass that a launch joins, and the state with the launch counted in it (R44). -/
def State.joinPass (s : State) (part : Nat) (r : LRec) (lastp lastj : Bool) : Nat × State :=
  let upd := fun (p : Pass) => { p with launches := p.launches + 1, closed := lastp, lastj := lastj }
  match s.passes.find? (fun p => p.part == part && p.job == r.job && p.graph == r.graph && p.phase == r.phase && !p.closed) with
  | some p => (p.uid, { s with passes := s.passes.map (fun (x : Pass) => if x.uid = p.uid then upd x else x) })
  | none =>
    let n := s.name
    let p : Pass := { uid := n.1, part := part, job := r.job, graph := r.graph, phase := r.phase, closed := false,
                      lastj := false, counted := false, launches := 0, ended := 0 }
    (n.1, { n.2 with passes := n.2.passes ++ [upd p] })

/-- A launch as its packet names it (R30, R31, R379). -/
def newLaunch (x pos queue part uid pass : Nat) (r : Read) (deps : List Nat) : Launch where
  uid := uid
  part := part
  asid := pktAsid x
  queue := queue
  index := pos
  restored := false
  record := r.record
  roles := r.roles
  st := .waiting
  first := pktFirst x
  count := pktCount x
  any := bit x 10
  mtx := bit x 9
  reads := r.reads
  writes := r.writes
  deps := deps
  pass := pass
  toStart := List.range (pktCount x)
  started := []
  nteams := pktCount x
  nextNo := pktCount x
  seed := if r.record.lo < r.record.hi then some (r.record.lo, r.record.hi) else none
  releasing := []
  waiters := []
  orphans := []
  conts := []
  handles := []
  opno := 0
  tasks := 0
  counted := false
  lost := false
  home := if bit x 10 then none else some (clusterOf (pktFirst x))
  moving := false
  exhausted := false
  named := true
  stranded := false

/-- Whether a launch lies in a unit of its address space that is cancelled (R45, R448). -/
def State.inCancelled (s : State) (part asid : Nat) (r : LRec) : Bool :=
  s.cancels.any (fun c => c.part == part && c.asid == asid && c.job == r.job
    && ((c.level == 2 && c.id == r.graph) || (c.level == 3 && c.id == r.phase) || c.level == 4))

/-- The state after a LAUNCH packet enters (R380, R383). -/
def State.enterLaunch (s : State) (part queue x pos : Nat) (r : Read) : State :=
  let deps := s.depsOf part (pktAsid x) r.reads r.writes
  let p := s.joinPass part r.record (bit x 11) (bit x 12)
  let n := p.2.name
  let l := newLaunch x pos queue part n.1 p.1 r deps
  let pk : Packet := { part := part, queue := queue, index := pos, await := .launch n.1, asid := pktAsid x,
                       first := l.first, count := l.count, any := l.any, chosen := [] }
  let s := { n.2 with launches := n.2.launches ++ [l], packets := n.2.packets ++ [pk] }
  if s.inCancelled part (pktAsid x) r.record then s.cancelLaunch n.1 else s.cascade s.launches.length

/-- R380: a LAUNCH packet enters the interval table and its teams become placeable. One whose ranges do not fit waits
(R384). -/
def execLaunch (part queue : Nat) (s : State) : Host.Outcome State Fault Refusal :=
  .next (s.readPacket part queue (· == 1) (fun x pos r s => s.enterLaunch part queue x pos r))

/-! ## CANCEL and SIGNAL (R380, R448) -/

/-- The launches of the unit that a packet names: those of its partition and ASID (R448). -/
def State.unitOf (s : State) (part x : Nat) : List Launch :=
  let v := pktValue x
  match pktLevel x with
  | 0 => []
  | 1 => ((s.launchAt part (bits v 63 60) (bits v 59 44)).toList).filter (fun l => l.asid == pktAsid x)
  | n => s.launches.filter (fun l => l.part == part && l.asid == pktAsid x && l.inUnit (pktJob x) n v)

/-- The state after a CANCEL packet is applied (R45, R380, R448). -/
def State.applyCancel (s : State) (part x : Nat) : State :=
  let v := pktValue x
  let named := ((s.launchAt part (bits v 63 60) (bits v 59 44)).toList).filter (fun l => l.asid == pktAsid x)
  match pktLevel x with
  | 0 => named.foldl (fun s l => (s.cancelRecord l.uid (bits v 31 0)).1) s
  | 1 => named.foldl (fun s l => (s.cancelOne l.uid).1) s
  | n => (s.cancelUnit part (pktAsid x) (pktJob x) n v).1

/-- R448: a CANCEL packet applies cancellation to the named unit and completes at once (R380). -/
def execCancelPacket (part queue : Nat) (s : State) : Host.Outcome State Fault Refusal :=
  .next (s.readPacket part queue (· == 2) (fun x pos _ s => (s.applyCancel part x).complete part queue pos 0 0))

/-- The state after VALUE is stored at the target of a SIGNAL. A write to a device or a peer goes out on its link; whether
the peer performs it is its own (R150, R376, R380). -/
def State.signalStore (s : State) (r : Read) (v : Nat) : State :=
  match r.target with
  | none => s
  | some (pa, l) =>
    if l.share = .dev ∨ beyond pa then
      let s := s.feSend l (l.va + (pa - l.pa)) 8 v .store
      if beyond pa then s else s.put pa 8 v 0
    else if inRange .fabric pa then
      let c := s.choose 2
      let s := c.2.feSend l (l.va + (pa - l.pa)) 8 v .store
      if c.1 = 0 then s.devWrite pa (bytesOfNat 8 v) else s
    else s.devWrite pa (bytesOfNat 8 v)

/-- R380: a SIGNAL packet stores VALUE after the earlier packets of its queue, and completes. -/
def execSignal (part queue : Nat) (s : State) : Host.Outcome State Fault Refusal :=
  .next (s.readPacket part queue (· == 3) (fun x pos r s => (s.signalStore r (pktValue x)).complete part queue pos 0 0))

/-! ## PREEMPT and RESUME (R380, R408, R411) -/

/-- The team after a pre-emption is asked for: it comes before a hold that is due, which stays due behind it, until the team has
been halted for the hold (R333, R334). -/
def Team.preempt (t : Team) : Team :=
  match t.halt with
  | some (.hold c l) => if t.st = .draining then t else { t with halt := some .preempt, owed := some (c, l) }
  | some .preempt | some (.migrate _) | some .quiet | none => { t with halt := some .preempt }

/-- The state after a PREEMPT packet asks for the halt of its unit's teams. A unit that does not exist or is complete
changes nothing (R380, R448). -/
def State.applyPreempt (s : State) (part queue x pos : Nat) : State :=
  let ls := (s.unitOf part x).filter (fun l => !l.counted)
  let us := (s.teams.filter (fun t => ls.any (fun l => l.uid == t.launch))).map (fun t => t.uid)
  if us.isEmpty then s.complete part queue pos (if ls.isEmpty then 0 else 4) 0
  else
    { s with
      teams := s.teams.map (fun (t : Team) => if us.contains t.uid then t.preempt else t),
      packets := s.packets ++ [{ part := part, queue := queue, index := pos, await := .saves us 0, asid := pktAsid x,
                                 first := 0, count := 0, any := false, chosen := [] }] }

/-- R380: a PREEMPT packet pre-empts every resident team of the unit. -/
def execPreempt (part queue : Nat) (s : State) : Host.Outcome State Fault Refusal :=
  .next (s.readPacket part queue (· == 4) (fun x pos _ s => s.applyPreempt part queue x pos))

/-- The state after a RESUME of saved and held teams (R333, R380, R411). -/
def State.resumeSaved (s : State) (part queue x pos : Nat) : State :=
  let ls := (s.unitOf part x).map (fun l => l.uid)
  let s := s.shrink (pktCount x) ls
  let rs := (s.saved.filter (fun c => c.kept && ls.contains c.team.launch)).map (fun c => c.id)
  if rs.isEmpty then s.complete part queue pos 0 0
  else { s with packets := s.packets ++ [resumePacket part queue x pos (.restores rs)] }

/-- R408: a RESUME packet restores saved or held teams, or a committed checkpoint. It waits while the pool has no room
for the checkpoint's frames. -/
def execResume (part queue : Nat) (s : State) : Host.Outcome State Fault Refusal :=
  .next (s.readPacket part queue (· == 5) (fun x pos _ s' =>
    if pktAddr x = 0 then s'.resumeSaved part queue x pos else (s'.resumeCommit part queue x pos).getD s))

/-! ## Starting teams (R27, R28, R30, R31, R41, R385, R397, R401) -/

/-- The role of a slice: its number and entry (R85). -/
def roleOf (roles : List RoleEnt) (i : Nat) : Nat × Nat × Nat :=
  match (List.range roles.length).find? (fun j => match roles[j]? with
    | some e => decide (e.first ≤ i) && decide (i < e.first + e.count)
    | none => false) with
  | some j => (j, ((roles[j]?).map (fun e => 8 * e.wbblk)).getD 0, ((roles[j]?).map (fun e => e.cls)).getD 2)
  | none => (0, 0, 2)

/-- Slice `i` of a new team (R87). -/
def newSlice (x : Launch) (no i : Nat) : Slice :=
  let r := roleOf x.roles i
  let w := fun (m : NMap 32) (n v : Nat) => nset m n (BitVec.ofNat 32 v)
  { Slice.blank i x.record.entry x.record.regblk with
    sregs := w (w (w (w (w (w [] 0 x.record.args) 1 (x.record.args >>> 32)) 2 no) 3 x.nteams) 4 i) 5 r.1,
    wb := r.2.1, cls := r.2.2, role := r.1, roleCls := r.2.2 }

/-- A barrier that no slice has reached (R302). -/
def Barrier.idle : Barrier where
  isOpen := false
  counted := false
  expected := 0
  arrived := 0
  comp := 0
  came := []

/-- A new team, one sub-crew to a crew (R14, R28, R87). -/
def newTeam (x : Launch) (uid no core scratch seq lo hi : Nat) : Team where
  uid := uid
  launch := x.uid
  part := x.part
  asid := x.asid
  record := x.record
  roles := x.roles
  no := no
  core := core
  st := .running
  halt := none
  owed := none
  slices := (List.range x.record.slices).map (newSlice x no)
  subs := (List.range (x.record.slices / 2 ^ x.record.crewlog)).map (fun c =>
    { members := (List.range (2 ^ x.record.crewlog)).map (fun j => c * 2 ^ x.record.crewlog + j), entry := false,
      stalled := false, joined := false, seq := seq, wants := none, bad := [], accepted := none })
  joins := []
  bars := List.replicate x.record.bars Barrier.idle
  pool := 0
  claims := []
  gather := []
  asked := []
  answer := none
  work := none
  lo := lo
  hi := hi
  cmds := []
  energy := 0
  esat := false
  scratch := scratch
  lines := List.range x.record.scratch
  resid := 0
  haltAt := 0

/-- The number of the team that a core of a launch starts: its place in a core set, or the next in order of starting; past
them all, a new number of an elastic launch, whose cores may be added again (R28, R38, R385). `set` says whether the core
is in the set of a launch that a RESUME brought. -/
def Launch.numberFor (x : Launch) (set : Bool) (core : Nat) : Option Nat :=
  let inSet := if x.restored then set else x.any || (decide (x.first ≤ core) && decide (core < x.first + x.count))
  let first := if !inSet || x.started.contains core then none
    else if x.any || x.restored then x.toStart.head?
    else if x.toStart.contains (core - x.first) then some (core - x.first)
    else none
  match first with
  | some n => some n
  | none => if x.record.elastic && x.st == .running then some x.nextNo else none

/-- The RESUME packet that brought a launch, while it is not complete (R380, R408). -/
def State.resumeOf (s : State) (l : Nat) : Option Packet :=
  s.packets.find? (fun p => match p.await with
    | .launches us => us.contains l
    | .launch _ | .saves _ _ | .restores _ => false)

/-- The state after a core starts a team of a launch; none when it cannot take it now (R27, R28, R31, R34, R385, R397). -/
def State.startTeam (s : State) (l core : Nat) : Option State :=
  match s.launch? l with
  | none => none
  | some x =>
    match x.numberFor (((s.resumeOf l).map (fun p => p.has core)).getD false) core, s.findScratch core (128 * x.record.scratch) with
    | some no, some off =>
      if !s.takes x core (x.record.slices * x.record.regblk + 2 * x.record.catchSlots) then none
      else
        let n := s.name
        match (s.part x.part).reserveAll (x.record.rooms n.1) with
        | none => none
        | some q =>
          let r := if no = 0 then x.seed.getD (0, 0) else (0, 0)
          let t := newTeam x n.1 no core (spadOf core + off) n.2.fresh r.1 r.2
          let s := (n.2.setPart x.part (fun _ => q)).wipe t.scratch (128 * x.record.scratch)
          let s := { s with
            fresh := s.fresh + 1, teams := s.teams ++ [t],
            packets := s.packets.map (fun (p : Packet) => if some p = s.resumeOf l then p.use core else p) }
          let after := ((s.jobOf t).map (fun j => j.closed + 1)).getD 0
          let s := s.setCore core (fun c => { c with clock := max c.clock after })
          let s := s.setLaunch l (fun x => { x with
            st := if x.st = .waiting then .running else x.st,
            toStart := x.toStart.filter (· != no), started := insertNat core x.started, nextNo := max x.nextNo (no + 1),
            seed := if no = 0 then none else x.seed })
          some (((s.setHome l).askAll n.1).kick l)
    | _, _ => none

/-- Whether every launch that one depends on has completed (R383). -/
def State.depsDone (s : State) (x : Launch) : Bool :=
  x.deps.all (fun d => ((s.launch? d).map (fun y => y.counted)).getD true)

/-- Whether a launch may start a team now: not cancelled, its dependences complete, no firmware update and no quiet
point of its job under way (R45, R383, R402, R439). -/
def State.mayStart (s : State) (x : Launch) : Bool :=
  (x.st == .waiting || x.st == .running) && !x.counted && s.depsDone x && s.mgmt.st == 2
  && s.mayJoin x.part x.record.job x.record.track

/-- The state after every team of a co-resident launch starts at once, each on the lowest core of the set that takes
it; none when one cannot (R41, R385). -/
def State.startAll (s : State) (l : Nat) : Nat → Option State
  | 0 => some s
  | n + 1 =>
    if ((s.launch? l).map (fun x => x.toStart.isEmpty)).getD true then some s
    else
      match (List.range 512).findSome? (fun core => s.startTeam l core) with
      | none => none
      | some s => s.startAll l n

/-- Whether the teams of a launch stand on several dies (R386). -/
def State.spans (s : State) (l : Nat) : Bool :=
  (s.teamsOf l).any (fun t => (s.teamsOf l).any (fun u => dieOf t.core != dieOf u.core))

/-- R385: a team starts on a core once dependences and resources allow; a co-resident launch starts whole, and one
that spans dies only while a master is named (R386). -/
def execTeamStart (launch core : Nat) (s : State) : Host.Outcome State Fault Refusal :=
  match s.launch? launch with
  | none => .next s
  | some x =>
    if !s.mayStart x then .next s
    else
      match s.startTeam launch core with
      | none => .next s
      | some s' =>
        if x.record.coresid then
          match s'.startAll launch 512 with
          | some s'' => .next (if s''.master.isNone && s''.spans launch then s else s'')
          | none => .next s
        else .next s'

/-- R38: a core is removed from an elastic launch; the next `take` of its team is answered *none*, released. -/
def execCoreRelease (launch team : Nat) (s : State) : Host.Outcome State Fault Refusal :=
  match s.launch? launch, s.team? team with
  | some x, some t =>
    if x.record.elastic && t.launch == launch then
      .next ((s.setLaunch launch (fun x => { x with releasing := insertNat t.uid x.releasing })).kick launch)
    else .next s
  | _, _ => .next s

end Sys2Proof.Machine
end

