-- ==== Sys2Proof/Machine/Ats.lean ====
section
/-! DEFINITION. Host translations: ATS replies, page responses, and invalidations (R367 to R370). -/

namespace Sys2Proof.Machine

/-! ## Requests (R367, R369) -/

/-- The oldest request of a die for a page of an address space that waits as `pri` says: for a reply, or for a Page
Response. -/
def State.atsReq? (s : State) (die asid page : Nat) (pri : Bool) : Option AtsReq :=
  s.atsq.find? (fun q => q.die == die && q.asid == asid && q.page == page && q.pri == pri)

/-- The state with a request changed. -/
def State.setAtsReq (s : State) (q : AtsReq) (f : AtsReq → AtsReq) : State :=
  { s with atsq := s.atsq.map (fun x => if x = q then f x else x) }

/-- Page requests a die may have outstanding (R369). -/
def priLimit : Nat := 512

/-- The page requests of a die that have been sent: the oldest, up to the limit (R369). -/
def State.priOut (s : State) (die : Nat) : List AtsReq := (s.atsq.filter (fun q => q.die == die && q.pri)).take priLimit

/-- The state after the page requests that have come within the limit are sent; `was` are those sent before. -/
def State.sendPris (s : State) (die : Nat) (was : List AtsReq) : State :=
  { s with sent := s.sent ++ ((s.priOut die).filter (fun q => !was.contains q)).map (fun q =>
      Sent.pageRequest q.die (s.pasidOf q.asid) q.page q.write) }

/-- Whether an access waits for the answer to a request (R367). -/
def State.waitsHost (s : State) (q : AtsReq) (op : PendOp) (a : Acc) (st : AccSt) : Bool :=
  st == .ats && a.need.writes == q.write &&
  match s.team? op.team with
  | some t => t.asid == q.asid && dieOf t.core == q.die && (s.missAt t a).map (· / 4096) == some q.page
  | none => false

/-- The state after the accesses that wait for a request take a translation fault (R369). -/
def State.failWaiters (s : State) (q : AtsReq) : State :=
  s.stepAccs (s.waitsHost q) (fun s op a _ =>
    match s.team? op.team with
    | none => (s, .dropped)
    | some t =>
      let va := (s.missAt t a).getD a.ea
      (s.parkAcc op.team op.slice a 0x13 (if (pieces 128 a.ea a.size).head?.map Prod.fst = some va then a.ea else va), .dropped))

/-- Something that waits for the host after an answer to what `hit` selects: it waits for that no longer, and keeps it among what
the host refused when it did (R369; log 34). -/
def answered (hit : Nat × Need → Bool) (refused : Bool) (w b : List (Nat × Need)) : List (Nat × Need) × List (Nat × Need) :=
  (w.filter (fun x => !hit x), if refused then b ++ w.filter hit else b)

/-- The sub-crew after an answer to what `hit` selects (R369). -/
def SubCrew.answered (b : SubCrew) (hit : Nat × Need → Bool) (refused : Bool) : SubCrew :=
  let r := Machine.answered hit refused b.wants.toList b.bad
  { b with wants := r.1.head?, bad := r.2 }

/-- The engine command after an answer to what `hit` selects (R369). -/
def Cmd.answered (c : Cmd) (hit : Nat × Need → Bool) (refused : Bool) : Cmd :=
  let r := Machine.answered hit refused c.wants c.bad
  { c with wants := r.1, bad := r.2 }

/-- The matrix command after an answer to what `hit` selects (R369). -/
def MCmd.answered (m : MCmd) (hit : Nat × Need → Bool) (refused : Bool) : MCmd :=
  let r := Machine.answered hit refused m.wants.toList m.bad
  { m with wants := r.1.head?, bad := r.2 }

/-- Whether a team runs in an address space on a die. -/
def Team.onDie (t : Team) (die asid : Nat) : Bool := t.asid == asid && dieOf t.core == die

/-- Whether a core's matrix engine is held by a team that runs in an address space on a die. -/
def State.engineOn (s : State) (die asid : Nat) (c : Core) : Bool :=
  ((c.engine.holder.bind (fun u => s.team? u)).map (fun t => t.onDie die asid)).getD false

/-- The state after the host answers what `hit` selects of a die and an address space, for the commands and the stalled words that
wait for it, and for the front end (R366, R369, R381). -/
def State.answer (s : State) (die asid : Nat) (hit : Nat × Need → Bool) (refused : Bool) : State :=
  let subs := fun (l : List SubCrew) => l.map (fun b => b.answered hit refused)
  { s with
    teams := s.teams.map (fun (t : Team) => if t.onDie die asid then
      { t with cmds := t.cmds.map (fun c => c.answered hit refused), subs := subs t.subs } else t),
    saved := s.saved.map (fun (c : Ctx) => if c.kept && c.team.asid == asid then
      { c with team := { c.team with subs := subs c.team.subs } } else c),
    cores := s.cores.map (fun (c : Core) => if s.engineOn die asid c then
      { c with engine := { c.engine with queue := c.engine.queue.map (fun m => m.answered hit refused) } } else c),
    feBad := if refused && die == 0 then s.feBad ++ s.feWants.filter (fun w => w.1 == asid && hit w.2) else s.feBad }

/-- What the commands and the stalled words of a die's teams in an address space, and the front end, wait for (R367, R369). -/
def State.wanted (s : State) (die asid : Nat) : List (Nat × Need) :=
  (s.teams.filter (fun t => t.onDie die asid)).flatMap (fun t =>
    t.cmds.flatMap (fun c => c.wants) ++ t.subs.flatMap (fun b => b.wants.toList))
  ++ (s.saved.filter (fun c => c.kept && c.team.asid == asid)).flatMap (fun c => c.team.subs.flatMap (fun b => b.wants.toList))
  ++ (s.cores.filter (s.engineOn die asid)).flatMap (fun c => c.engine.queue.flatMap (fun m => m.wants.toList))
  ++ (if die = 0 then (s.feWants.filter (fun w => w.1 == asid)).map Prod.snd else [])

/-- Whether a wait is one for a request (R367). -/
def AtsReq.serves (q : AtsReq) (w : Nat × Need) : Bool := w.1 == q.page && w.2.writes == q.write

/-- The state after a page that the host refused is marked with the commands, the stalled words and the packets that wait for it,
which read it as untranslated (R369; log 34). -/
def State.markBad (s : State) (q : AtsReq) : State := s.answer q.die q.asid q.serves true

/-- The state without a request that has ended; the accesses that wait for nothing more are tried again, and a page request
that comes within the limit is sent (R368, R369). -/
def State.endRequest (s : State) (q : AtsReq) : State :=
  let was := s.priOut q.die
  (({ s with atsq := s.atsq.filter (fun x => decide (x ≠ q)) }).retryOver.sendPris q.die was).settleAll

/-- The state after a request ends without the permission that was needed (R369). -/
def State.failPage (s : State) (q : AtsReq) : State :=
  ((s.failWaiters q).markBad q).endRequest q

/-- The translation that a reply gives: the frame in the host link window, the host's permissions with the entry's, and
the entry's policy (R367). -/
def hostLeaf (l : Leaf) (va hpa log : Nat) (r w : Bool) : Leaf :=
  { l with va := va / 2 ^ log * 2 ^ log, pa := hostBase + hpa / 2 ^ log * 2 ^ log, log := log,
           r := l.r && r, w := l.w && w, ats := true }

/-- Whether the frame of a reply lies in the host link window (R354, R367). -/
def inHostWindow (hpa log : Nat) : Bool :=
  inRange .host (hostBase + hpa / 2 ^ log * 2 ^ log) && inRange .host (hostBase + hpa / 2 ^ log * 2 ^ log + 2 ^ log - 1)

/-- The state after the host's reply to a request: the translation enters the die's ATS cache, what it permits goes on,
and what it does not starts PRI, or fails when the request was a repeat; a frame outside the host link window is a
translation fault (R354, R367, R368, R369). -/
def State.atsReply (s : State) (q : AtsReq) (granted : Bool) (hpa log : Nat) (r w : Bool) : State :=
  if granted && !inHostWindow hpa log then s.failPage q
  else
    let va := 4096 * q.page
    let s := if granted && (r || w) then
        let x := s.addEntry atsRoom id (fun t => t.die == q.die)
          (s.atsc.filter (fun t => !(t.die == q.die && t.asid == q.asid && t.leaf.covers va)))
          { die := q.die, asid := q.asid, epoch := s.epoch q.asid, leaf := hostLeaf q.entry va hpa log r w, hostR := r, hostW := w }
        { x.1 with atsc := x.2 }.answer q.die q.asid (fun n => (hostLeaf q.entry va hpa log r w).covers (4096 * n.1) && n.2.granted r w) false
      else s
    let short := s.pend.any (fun op => op.accs.any (fun x => s.waitsHost q op x.1 x.2))
      || (s.wanted q.die q.asid).any q.serves || !granted || (if q.write then !w else !r)
    if !short then s.endRequest q
    else if q.again then s.retryOver.failPage q
    else
      let was := s.priOut q.die
      let s := { s with atsq := s.atsq.filter (fun x => decide (x ≠ q)) ++ [{ q with pri := true }] }
      (s.retryOver.sendPris q.die was).settleAll

/-- R367: a host reply supplies a translation of 4 KiB or more, or starts PRI. -/
def execAtsTranslationCompletion (die asid page : Nat) (granted : Bool) (hpa logSize : Nat) (r w : Bool) (s : State) :
    Host.Outcome State Fault Refusal :=
  match s.atsReq? die asid page false with
  | none => .next s
  | some q => .next (s.atsReply q granted hpa (max 12 logSize) r w)

/-- R369: a Page Response repeats the Translation Request once, or ends it. -/
def execPageResponse (die asid page : Nat) (success : Bool) (s : State) : Host.Outcome State Fault Refusal :=
  match s.atsReq? die asid page true with
  | none => .next s
  | some q =>
    if !(s.priOut die).contains q then .next s
    else if success then
      let s' := s.setAtsReq q (fun x => { x with pri := false, again := true })
      .next (({ s' with sent := s'.sent ++ [Sent.atsRequest die (s.pasidOf asid) page q.write] }).sendPris die (s.priOut die))
    else .next (s.failPage q)

/-- R369: a page request that has had no response for 50 ms fails. -/
def execPriTimeout (die asid page : Nat) (s : State) : Host.Outcome State Fault Refusal :=
  execPageResponse die asid page false s

/-! ## Invalidation (R370) -/

/-- Whether an ASID is bound to a PASID (R355). -/
def State.bound (s : State) (asid pasid : Nat) : Bool :=
  let c := s.ctxEntry (s.partOfAsid asid) asid
  c.valid && c.pasid == pasid

/-- The pages and the range that a host invalidation of a range takes from an address space: the range itself, and each entry of
an ATS cache that meets it, whole (R370). -/
def State.hostSpans (s : State) (asid va len : Nat) : List (Nat × Nat) :=
  (va, len) :: (s.atsc.filter (fun t => t.asid == asid && t.leaf.meets va len)).map (fun t => (t.leaf.va, 2 ^ t.leaf.log))

/-- Whether some spans meet the `n` bytes at `va`. -/
def spansMeet (l : List (Nat × Nat)) (va n : Nat) : Bool := l.any (fun x => decide (va < x.1 + x.2) && decide (x.1 < va + n))

/-- Whether an access has translated through a host entry that an invalidation of a range removes: by the leaf it holds while its
event is to come, by its address once it is performed (R370). -/
def State.accThrough (s : State) (asid va len : Nat) (x : Acc × AccSt) : Bool :=
  !x.1.loc
  && (match x.2 with
      | .late ps | .peer ps => ps.any (fun p => p.leaf.ats && p.leaf.meets va len)
      | .got _ _ | .written => spansMeet (s.hostSpans asid va len) x.1.ea x.1.size
      | .walk | .ats | .ceil | .dropped => false)

/-- The outstanding operations that went through a translation of a range for a PASID (R370). -/
def State.opsThrough (s : State) (pasid va len : Nat) : List Nat :=
  (s.pend.filter (fun op =>
    match s.team? op.team with
    | some t => s.bound t.asid pasid && op.accs.any (s.accThrough t.asid va len)
    | none => false)).map (fun op => op.id)

/-- The engine commands, resident or saved, that hold a host translation of a range for a PASID (R240, R370). -/
def State.cmdsThrough (s : State) (pasid va len : Nat) : List Nat :=
  let meets := fun (l : Leaf) => l.ats && l.meets va len
  let ours := fun (t : Team) => (t.cmds.filter (fun c => c.held.any meets)).map (fun c => c.id)
  let queued := fun (e : Engine) => (e.queue.filter (fun m => (m.held.getD []).any meets)).map (fun m => m.id)
  (s.teams.filter (fun t => s.bound t.asid pasid)).flatMap (fun t =>
      ours t ++ (if (s.engine t.core).holder = some t.uid then queued (s.engine t.core) else []))
  ++ (s.saved.filter (fun c => c.kept && s.bound c.asid pasid)).flatMap (fun c =>
      ours c.team ++ (c.engine.map queued).getD [])

/-- The engine commands that have not ended, resident or saved. -/
def State.liveCmds (s : State) : List Nat :=
  s.teams.flatMap (fun t => t.cmds.map (fun c => c.id)) ++ s.cores.flatMap (fun c => c.engine.queue.map (fun m => m.id))
  ++ (s.saved.filter (fun c => c.kept)).flatMap (fun c =>
      c.team.cmds.map (fun x => x.id) ++ (c.engine.map (fun e => e.queue.map (fun m => m.id))).getD [])

/-- R370: a host invalidation removes the entries of a range and the sectors held under them, wherever in an entry they lie; its completion waits for
the accesses that went through them. -/
def execAtsInvalidateRequest (pasid va len : Nat) (s : State) : Host.Outcome State Fault Refusal :=
  let n := s.name
  let under := fun (asid a : Nat) => s.bound asid pasid && spansMeet (s.hostSpans asid va len) a 128
  .next { n.2 with
    invals := s.invals ++ [{ id := n.1, pasid := pasid, ops := s.opsThrough pasid va len, cmds := s.cmdsThrough pasid va len }],
    atsc := s.atsc.filter (fun t => !(s.bound t.asid pasid && t.leaf.meets va len)),
    rmap := s.rmap.filter (fun r => !(decide (r.place < 8) && inRange .host r.sector && under r.asid r.vtag)),
    ilines := s.ilines.filter (fun i => !(decide (i.place < 512) && inRange .host i.sector && under i.asid i.vtag)) }

/-- Whether the completion of an invalidation may be sent (R370). -/
def State.invalDue (s : State) (i : Inval) : Bool :=
  s.pend.all (fun op => !i.ops.contains op.id) && s.liveCmds.all (fun c => !i.cmds.contains c)

/-- R370: the completion of an invalidation is sent once the accesses through its entries are performed. -/
def execInvalidateCompletion (inval : Nat) (s : State) : Host.Outcome State Fault Refusal :=
  match s.invals.find? (fun i => i.id == inval) with
  | none => .next s
  | some i =>
    if s.invalDue i then
      .next { s with invals := s.invals.filter (fun x => x.id != inval), sent := s.sent ++ [Sent.invalidateCompletion i.pasid] }
    else .next s

end Sys2Proof.Machine
end

