-- ==== Sys2Proof/Machine/VectorInt.lean ====
section
/-! DEFINITION. The vector integer classes: IALU, IBIT, VADDI, LOP3, FSHI, and MOVI and MOVHI, whose destination may
also be a scalar (R188 to R198, R161). -/

namespace Sys2Proof.Machine

/-- A lane-by-lane function of A, B and the prior D (R188, R189). -/
def vec (d a b : Opd) (f : Word → Word → Word → Word) (c : Nat) (sl : Slice) : Slice :=
  sl.vmap d (fun l => f (sl.read c a l) (sl.read c b l) (sl.read c d l))

/-- A shift amount, b[4:0] (R193). -/
def shamt (b : Word) : Nat := b.toNat % 32

/-! ## IALU (R193) -/

/-- The high word of the signed product (R193). -/
def mulHigh (a b : Word) : Word := BitVec.ofInt 32 ((a.toInt * b.toInt) / 2 ^ 32)

/-- The high word of the unsigned product (R193). -/
def mulHighN (a b : Word) : Word := BitVec.ofNat 32 ((a.toNat * b.toNat) / 2 ^ 32)

/-- The lesser of two words read as signed (R193). -/
def minI (a b : Word) : Word := if a.toInt ≤ b.toInt then a else b
/-- The greater of two words read as signed (R193). -/
def maxI (a b : Word) : Word := if b.toInt ≤ a.toInt then a else b
/-- The lesser of two words read as unsigned (R193). -/
def minN (a b : Word) : Word := if a.toNat ≤ b.toNat then a else b
/-- The greater of two words read as unsigned (R193). -/
def maxN (a b : Word) : Word := if b.toNat ≤ a.toNat then a else b

/-- d plus the absolute signed difference (R193). -/
def sumAbsDiff (d a b : Word) : Word := d + BitVec.ofNat 32 (a.toInt - b.toInt).natAbs

/-- R193: `iadd`. -/
def execIadd (d a b : Opd) (s : State) : Host.Outcome State Fault Refusal :=
  issue (.iadd d a b) (perSlice (vec d a b (fun a b _ => a + b))) s

/-- R193: `isub`. -/
def execIsub (d a b : Opd) (s : State) : Host.Outcome State Fault Refusal :=
  issue (.isub d a b) (perSlice (vec d a b (fun a b _ => a - b))) s

/-- R193: `imul`. -/
def execImul (d a b : Opd) (s : State) : Host.Outcome State Fault Refusal :=
  issue (.imul d a b) (perSlice (vec d a b (fun a b _ => a * b))) s

/-- R193: `imulhi`. -/
def execImulhi (d a b : Opd) (s : State) : Host.Outcome State Fault Refusal :=
  issue (.imulhi d a b) (perSlice (vec d a b (fun a b _ => mulHigh a b))) s

/-- R193: `nmulhi`. -/
def execNmulhi (d a b : Opd) (s : State) : Host.Outcome State Fault Refusal :=
  issue (.nmulhi d a b) (perSlice (vec d a b (fun a b _ => mulHighN a b))) s

/-- R193: `imin`. -/
def execImin (d a b : Opd) (s : State) : Host.Outcome State Fault Refusal :=
  issue (.imin d a b) (perSlice (vec d a b (fun a b _ => minI a b))) s

/-- R193: `imax`. -/
def execImax (d a b : Opd) (s : State) : Host.Outcome State Fault Refusal :=
  issue (.imax d a b) (perSlice (vec d a b (fun a b _ => maxI a b))) s

/-- R193: `nmin`. -/
def execNmin (d a b : Opd) (s : State) : Host.Outcome State Fault Refusal :=
  issue (.nmin d a b) (perSlice (vec d a b (fun a b _ => minN a b))) s

/-- R193: `nmax`. -/
def execNmax (d a b : Opd) (s : State) : Host.Outcome State Fault Refusal :=
  issue (.nmax d a b) (perSlice (vec d a b (fun a b _ => maxN a b))) s

/-- R193: `and`. -/
def execAndV (d a b : Opd) (s : State) : Host.Outcome State Fault Refusal :=
  issue (.andV d a b) (perSlice (vec d a b (fun a b _ => a &&& b))) s

/-- R193: `or`. -/
def execOrV (d a b : Opd) (s : State) : Host.Outcome State Fault Refusal :=
  issue (.orV d a b) (perSlice (vec d a b (fun a b _ => a ||| b))) s

/-- R193: `xor`. -/
def execXorV (d a b : Opd) (s : State) : Host.Outcome State Fault Refusal :=
  issue (.xorV d a b) (perSlice (vec d a b (fun a b _ => a ^^^ b))) s

/-- R193: `shl`. -/
def execShlV (d a b : Opd) (s : State) : Host.Outcome State Fault Refusal :=
  issue (.shlV d a b) (perSlice (vec d a b (fun a b _ => a <<< shamt b))) s

/-- R193: `shr`. -/
def execShrV (d a b : Opd) (s : State) : Host.Outcome State Fault Refusal :=
  issue (.shrV d a b) (perSlice (vec d a b (fun a b _ => a >>> shamt b))) s

/-- R193: `sar`. -/
def execSarV (d a b : Opd) (s : State) : Host.Outcome State Fault Refusal :=
  issue (.sarV d a b) (perSlice (vec d a b (fun a b _ => a.sshiftRight (shamt b)))) s

/-- R193: `isad`. -/
def execIsad (d a b : Opd) (s : State) : Host.Outcome State Fault Refusal :=
  issue (.isad d a b) (perSlice (vec d a b (fun a b d => sumAbsDiff d a b))) s

/-! ## IBIT (R195, R196) -/

/-- The number of 1 bits (R195). -/
def popCount (a : Word) : Word := BitVec.ofNat 32 ((List.range 32).filter (fun i => a.getLsbD i)).length

/-- Leading zero bits, 32 for 0 (R195). -/
def leadingZeros (a : Word) : Word := BitVec.ofNat 32 ((findBelow 32 (fun i => a.getLsbD (31 - i))).getD 32)

/-- Trailing zero bits, 32 for 0 (R195). -/
def trailingZeros (a : Word) : Word := BitVec.ofNat 32 ((findBelow 32 (fun i => a.getLsbD i)).getD 32)

/-- The word with its bits in the other order (R195). -/
def reverseBits (a : Word) : Word := BitVec.ofNat 32 (maskOf ((List.range 32).filter (fun i => a.getLsbD (31 - i))))

/-- The offset of a field word (R196). -/
def fieldOff (b : Word) : Nat := b.toNat % 32

/-- The width of a field word; a field never runs past bit 31 (R196). -/
def fieldWid (b : Word) : Nat := min (bits b.toNat 13 8) (32 - fieldOff b)

/-- `bfe` (R196). -/
def fieldExtract (a b : Word) : Word :=
  let wid := fieldWid b
  let t := (a.toNat >>> fieldOff b) % 2 ^ wid
  if b.getLsbD 15 then BitVec.ofInt 32 (if wid ≠ 0 ∧ t.testBit (wid - 1) then (t : Int) - 2 ^ wid else t)
  else BitVec.ofNat 32 t

/-- `bfi` (R196). -/
def fieldInsert (d a b : Word) : Word :=
  let mask : Word := BitVec.ofNat 32 ((2 ^ fieldWid b - 1) <<< fieldOff b)
  (d &&& ~~~mask) ||| ((a <<< fieldOff b) &&& mask)

/-- `fshl` of d over a (R195). -/
def funnelLeft (d a : Word) (k : Nat) : Word := BitVec.ofNat 32 (((d.toNat <<< 32 + a.toNat) <<< k) >>> 32)

/-- `fshr` of a over d (R195). -/
def funnelRight (a d : Word) (k : Nat) : Word := BitVec.ofNat 32 ((a.toNat <<< 32 + d.toNat) >>> k)

/-- R195: `popc`. -/
def execPopc (d a : Opd) (s : State) : Host.Outcome State Fault Refusal :=
  issue (.popc d a) (perSlice (vec d a .zero (fun a _ _ => popCount a))) s

/-- R195: `clz`. -/
def execClz (d a : Opd) (s : State) : Host.Outcome State Fault Refusal :=
  issue (.clz d a) (perSlice (vec d a .zero (fun a _ _ => leadingZeros a))) s

/-- R195: `ctz`. -/
def execCtz (d a : Opd) (s : State) : Host.Outcome State Fault Refusal :=
  issue (.ctz d a) (perSlice (vec d a .zero (fun a _ _ => trailingZeros a))) s

/-- R195: `brev`. -/
def execBrev (d a : Opd) (s : State) : Host.Outcome State Fault Refusal :=
  issue (.brev d a) (perSlice (vec d a .zero (fun a _ _ => reverseBits a))) s

/-- R196: `bfe`. -/
def execBfe (d a b : Opd) (s : State) : Host.Outcome State Fault Refusal :=
  issue (.bfe d a b) (perSlice (vec d a b (fun a b _ => fieldExtract a b))) s

/-- R196: `bfi`. -/
def execBfi (d a b : Opd) (s : State) : Host.Outcome State Fault Refusal :=
  issue (.bfi d a b) (perSlice (vec d a b (fun a b d => fieldInsert d a b))) s

/-- R195: `fshl`. -/
def execFshl (d a b : Opd) (s : State) : Host.Outcome State Fault Refusal :=
  issue (.fshl d a b) (perSlice (vec d a b (fun a b d => funnelLeft d a (shamt b)))) s

/-- R195: `fshr`. -/
def execFshr (d a b : Opd) (s : State) : Host.Outcome State Fault Refusal :=
  issue (.fshr d a b) (perSlice (vec d a b (fun a b d => funnelRight a d (shamt b)))) s

/-- R195: `rotl`. -/
def execRotl (d a b : Opd) (s : State) : Host.Outcome State Fault Refusal :=
  issue (.rotl d a b) (perSlice (vec d a b (fun a b _ => funnelLeft a a (shamt b)))) s

/-- R195: `iabs`. -/
def execIabs (d a : Opd) (s : State) : Host.Outcome State Fault Refusal :=
  issue (.iabs d a) (perSlice (vec d a .zero (fun a _ _ => BitVec.ofNat 32 a.toInt.natAbs))) s

/-- R195: `ineg`. -/
def execIneg (d a : Opd) (s : State) : Host.Outcome State Fault Refusal :=
  issue (.ineg d a) (perSlice (vec d a .zero (fun a _ _ => -a))) s

/-- R195: `imad`. -/
def execImad (d a b : Opd) (s : State) : Host.Outcome State Fault Refusal :=
  issue (.imad d a b) (perSlice (vec d a b (fun a b d => a * b + d))) s

/-! ## VADDI, LOP3, FSHI (R194, R197, R198) -/

/-- R194: the sum with a sign-extended immediate. -/
def execVaddi (d a : Opd) (imm : BitVec 11) (s : State) : Host.Outcome State Fault Refusal :=
  issue (.vaddi d a imm) (perSlice (vec d a .zero (fun a _ _ => a + imm.signExtend 32))) s

/-- The three-input function of a table, bit by bit (R198). -/
def tableLogic (t : BitVec 8) (d a b : Word) : Word :=
  BitVec.ofNat 32 (maskOf ((List.range 32).filter (fun j =>
    t.getLsbD (4 * (d.getLsbD j).toNat + 2 * (a.getLsbD j).toNat + (b.getLsbD j).toNat))))

/-- The vector register a 6-bit field names (R198). -/
def reg6 (x : BitVec 6) : Opd := .v ⟨x.toNat, by omega⟩

/-- R198: `lop3`. -/
def execLop3 (t : BitVec 8) (d a b : BitVec 6) (s : State) : Host.Outcome State Fault Refusal :=
  issue (.lop3 t d a b) (perSlice (vec (reg6 d) (reg6 a) (reg6 b) (fun a b d => tableLogic t d a b))) s

/-- R197: `fshi.l`. -/
def execFshiL (d a : Opd) (k : BitVec 5) (s : State) : Host.Outcome State Fault Refusal :=
  issue (.fshiL d a k) (perSlice (vec d a (a.plus 1) (fun low high _ => funnelLeft high low k.toNat))) s

/-- R197: `fshi.r`. -/
def execFshiR (d a : Opd) (k : BitVec 5) (s : State) : Host.Outcome State Fault Refusal :=
  issue (.fshiR d a k) (perSlice (vec d a (a.plus 1) (fun low high _ => funnelRight high low k.toNat))) s

/-! ## MOVI and MOVHI (R161) -/

/-- A value put in any destination of MOVI: lane by lane in a vector register, once in a scalar, `exec` or `zero`. -/
def Slice.put (sl : Slice) (c : Nat) (d : Opd) (f : Word → Word) : Slice :=
  if d.isV then vec d d .zero (fun x _ _ => f x) c sl else sl.writeS d (f (sl.readS d))

/-- R161: `movi`. -/
def execMovi (d : Opd) (imm : BitVec 18) (s : State) : Host.Outcome State Fault Refusal :=
  issue (.movi d imm) (perSlice (fun c sl => sl.put c d (fun _ => imm.signExtend 32))) s

/-- R161: `movhi`. -/
def execMovhi (d : Opd) (imm : BitVec 18) (s : State) : Host.Outcome State Fault Refusal :=
  issue (.movhi d imm) (perSlice (fun c sl => sl.put c d (fun x => imm.setWidth 32 <<< 14 ||| (x &&& 0x3FFF#32)))) s

end Sys2Proof.Machine
end

