-- ==== Sys2Proof/Machine/CrossLane.lean ====
section
/-! DEFINITION. The cross-lane class XLANE: moves, reductions, ballots and scans over the lanes of a crew after the
implicit join at level 0, and the slice-scope moves (R210 to R218). -/

namespace Sys2Proof.Machine

/-- A lane of the crew or slice as a cross-lane word reads it: its number, whether it is present, and its A and B
(R210, R212). -/
structure XLane where
  p : Nat
  here : Bool
  a : Word
  b : Word
  deriving DecidableEq, Repr

/-- The lanes of the sub-crew in crew-lane order (R13, R210). -/
def Team.xlanes (t : Team) (ms : List Nat) (a b : Opd) : List XLane :=
  let c := t.record.crewlog
  (ms.filterMap (fun m => t.slice? m)).flatMap (fun sl =>
    [0, 1, 2, 3].map (fun l =>
      { p := 4 * sl.pos c + l, here := sl.on l && !sl.ended, a := sl.read c a l, b := sl.read c b l }))

/-- The lanes of one slice (R210). -/
def Slice.xlanes (sl : Slice) (c : Nat) (a b : Opd) : List XLane :=
  [0, 1, 2, 3].map (fun l => { p := l, here := sl.on l, a := sl.read c a l, b := sl.read c b l })

/-- N: four lanes for each slice of a crew; a handler thread is a crew of one (R210, R211). -/
def Team.xwidth (t : Team) (ms : List Nat) : Nat :=
  if ms.any (fun m => ((t.slice? m).map (fun sl => sl.thread.isSome)).getD false) then 4 else 4 * 2 ^ t.record.crewlog

/-- The lowest present lane. -/
def lowLane (ls : List XLane) : Option XLane := ls.find? (fun x => x.here)

/-- A uniform operand: B of the lowest present lane (R212). -/
def lowB (ls : List XLane) : Word := ((lowLane ls).map (fun x => x.b)).getD 0

/-- Lane `p` of the list. -/
def laneAt (ls : List XLane) (p : Nat) : Option XLane := ls.find? (fun x => x.p == p)

/-- A of a source lane, 0 when it is not present (R213). -/
def fromLane (ls : List XLane) (src : Nat) : Word :=
  match laneAt ls src with
  | some x => if x.here then x.a else 0
  | none => 0

/-- The source lane of `shfl`, `shfx`, `shfu`, `shfd` and `bcast` by form number (R213): N, the lane, uniform B. -/
def moveSrc (form n : Nat) (x : XLane) (low : Word) : Nat :=
  match form with
  | 0 => x.b.toNat % n
  | 1 => (x.p ^^^ x.b.toNat) % n
  | 2 => if x.p < x.b.toNat then x.p else x.p - x.b.toNat
  | 3 => if n - x.p ≤ x.b.toNat then x.p else x.p + x.b.toNat
  | _ => low.toNat % n

/-- What a cross-lane move gives lane `p` (R213). -/
def movedTo (form n : Nat) (ls : List XLane) (p : Nat) : Word :=
  match laneAt ls p with
  | some x => fromLane ls (moveSrc form n x (lowB ls))
  | none => 0

/-- The A values of the present lanes, lowest first. -/
def presentA (ls : List XLane) : List Word := (ls.filter (fun x => x.here)).map (fun x => x.a)

/-! ## Reductions (R116, R214, R216) -/

/-- One level of the tree of `redf`: node values and the flags raised (R116). -/
def treeLevel (rm : Rm) : List (Option Nat) → List (Option Nat) × BitVec 5
  | a :: b :: rest =>
    let r := treeLevel rm rest
    match a, b with
    | some x, some y =>
      let v := f32.add rm (f32.decode x) (f32.decode y)
      (some v.1 :: r.1, v.2 ||| r.2)
    | some x, none => (some x :: r.1, r.2)
    | none, y => (y :: r.1, r.2)
  | [a] => ([a], 0)
  | [] => ([], 0)

/-- The levels of the tree down to its root (R116). -/
def treeRoot (rm : Rm) : Nat → List (Option Nat) → BitVec 5 → List (Option Nat) × BitVec 5
  | 0, l, fl => (l, fl)
  | k + 1, l, fl =>
    let r := treeLevel rm l
    treeRoot rm k r.1 (fl ||| r.2)

/-- `redf` over N crew lanes (R116, R214). -/
def sumTree (rm : Rm) (n : Nat) (ls : List XLane) : Nat × BitVec 5 :=
  let leaves := (List.range n).map (fun p => match laneAt ls p with
    | some x => if x.here then some x.a.toNat else none
    | none => none)
  let r := treeRoot rm n.log2 leaves 0
  let v := ((r.1.headD none).getD 0)
  let nan := (f32.decode v).isNan
  (if nan then f32.nanCode else v, r.2 ||| snanFlag ((presentA ls).map (fun a => f32.decode a.toNat)))

/-- A reduction of a nonempty list by a binary function. -/
def fold1 (f : Word → Word → Word) : List Word → Word
  | [] => 0
  | a :: rest => rest.foldl f a

/-- `redmx` by its selector (R214). -/
def reduceBy (sel : Nat) (l : List Word) : Nat × BitVec 5 :=
  match sel with
  | 0 => ((fold1 maxI l).toNat, 0)
  | 1 => ((fold1 minI l).toNat, 0)
  | 2 => ((fold1 maxN l).toNat, 0)
  | 3 => ((fold1 minN l).toNat, 0)
  | 6 => ((fold1 (· &&& ·) l).toNat, 0)
  | 7 => ((fold1 (· ||| ·) l).toNat, 0)
  | k =>
    let v := (fold1 (fun x y => BitVec.ofNat 32 (f32.minmax (k == 4) x.toNat y.toNat).1) l).toNat
    (if (f32.decode v).isNan then f32.nanCode else v, snanFlag (l.map (fun a => f32.decode a.toNat)))

/-- What `scani` gives lane `p` (R216). -/
def scanAt (ls : List XLane) (p : Nat) : Word :=
  let last := if (lowB ls).getLsbD 0 then p else p + 1
  ((ls.filter (fun x => x.here && decide (x.p < last))).map (fun x => x.a)).foldl (· + ·) 0

/-! ## Effects on the slices -/

/-- The team after each present lane of the sub-crew writes D, with flags to every slice that holds one (R214). -/
def Team.crewWrite (t : Team) (ms : List Nat) (d : Opd) (f : Nat → Word) (fl : BitVec 5) : Team :=
  t.onMembers ms (fun sl =>
    let r := sl.vmap d (fun l => f (4 * sl.pos t.record.crewlog + l))
    { r with fps := if sl.eff = 0 then sl.fps else sl.fps ||| fl })

/-- A crew-scope move (R213). -/
def crewMove (form : Nat) (d a b : Opd) (t : Team) (ms : List Nat) : Team :=
  let ls := t.xlanes ms a b
  t.crewWrite ms d (movedTo form (t.xwidth ms) ls) 0

/-- A crew-scope reduction: one value and its flags for every present lane (R214). -/
def crewReduce (d a b : Opd) (f : Team → List Nat → List XLane → Nat × BitVec 5) (t : Team) (ms : List Nat) : Team :=
  let r := f t ms (t.xlanes ms a b)
  t.crewWrite ms d (fun _ => BitVec.ofNat 32 r.1) r.2

/-- FPC.RM of the slice that holds the lowest present lane (R116, R214). -/
def Team.lowRm (t : Team) (ms : List Nat) : Rm :=
  match (ms.filterMap (fun m => t.slice? m)).find? (fun sl => sl.eff != 0) with
  | some sl => rmOf sl.fpc
  | none => .rne

/-- The mask of the present lanes whose A is not 0 (R215). -/
def ballotMask (ls : List XLane) : Nat := maskOf ((ls.filter (fun x => x.here && x.a != 0)).map (fun x => x.p))

/-- The mask of the present lanes. -/
def presentMask (ls : List XLane) : Nat := maskOf ((ls.filter (fun x => x.here)).map (fun x => x.p))

/-- D and SCC of `ballot`, `vany` and `vall` in each slice of the sub-crew: `perSlice` when EXEC takes the slice's own
four bits (R215). -/
def crewVote (d a : Opd) (own : Bool) (f : List XLane → Nat) (t : Team) (ms : List Nat) : Team :=
  let v := f (t.xlanes ms a .zero)
  t.onMembers ms (fun sl =>
    let x := if d = .exec then (if own then v >>> (4 * sl.pos t.record.crewlog) else if v = 0 then 0 else 15) else v
    { sl.writeS d (BitVec.ofNat 32 x) with scc := v != 0 })

/-! ## The issue of a crew-scope form (R24, R211) -/

/-- The state after the re-ganged sub-crew executes a crew-scope form once and goes on; each of its slices has issued, and
is back in its role's class (R50, R211). -/
def runCrew (f : Team → List Nat → Team) (u : Nat) (ms : List Nat) (s : State) : State :=
  s.setTeam u (fun t => ((f t ms).onMembers ms (fun sl => { sl.advance with cls := sl.roleCls })).setSub (ms.headD 0) (fun b => { b with joined := false }))

/-- The sub-crew of some of the given slices whose implicit join has completed. -/
def State.ganged (s : State) (p : At) : Option SubCrew :=
  (s.team? p.team).bind (fun t => t.subs.find? (fun b => b.joined && p.members.any (fun m => b.members.contains m)))

/-- Whether the issuing sub-crew is a handler thread. -/
def State.isThread (s : State) (p : At) : Bool :=
  p.members.any (fun m => ((s.slice? p.team m).map (fun sl => sl.thread.isSome)).getD false)

/-- The effect of a crew-scope form: the implicit join, then the form itself when the join completes (R211). -/
def joinCrew (f : Team → List Nat → Team) (p : At) (s : State) : State :=
  if s.isThread p then runCrew f p.team p.members s
  else
    let s := s.arriveAll p 0 true
    match s.ganged p with
    | some b => runCrew f p.team b.members s
    | none => s

/-- A crew-scope form whose join another event completed executes when its sub-crew issues (R24). -/
def afterJoin (f : Team → List Nat → Team) (p : At) (s : State) : Option State :=
  (s.ganged p).map (fun b => (runCrew f p.team b.members s).lastInClass p.team b.members)

/-- The issue of a crew-scope form. -/
def issueCrew (i : Instr) (f : Team → List Nat → Team) (s : State) : Host.Outcome State Fault Refusal :=
  issueWith i (afterJoin f) (joinCrew f) s

/-- R213: `shfl`. -/
def execShfl (d a b : Opd) (s : State) : Host.Outcome State Fault Refusal :=
  issueCrew (.shfl d a b) (crewMove 0 d a b) s

/-- R213: `shfx`. -/
def execShfx (d a b : Opd) (s : State) : Host.Outcome State Fault Refusal :=
  issueCrew (.shfx d a b) (crewMove 1 d a b) s

/-- R213: `shfu`. -/
def execShfu (d a b : Opd) (s : State) : Host.Outcome State Fault Refusal :=
  issueCrew (.shfu d a b) (crewMove 2 d a b) s

/-- R213: `shfd`. -/
def execShfd (d a b : Opd) (s : State) : Host.Outcome State Fault Refusal :=
  issueCrew (.shfd d a b) (crewMove 3 d a b) s

/-- R213: `bcast`. -/
def execBcast (d a b : Opd) (s : State) : Host.Outcome State Fault Refusal :=
  issueCrew (.bcast d a b) (crewMove 4 d a b) s

/-- R215: `ballot`. -/
def execBallot (d a : Opd) (s : State) : Host.Outcome State Fault Refusal :=
  issueCrew (.ballot d a) (crewVote d a true ballotMask) s

/-- R215: `vany`. -/
def execVany (d a : Opd) (s : State) : Host.Outcome State Fault Refusal :=
  issueCrew (.vany d a) (crewVote d a false (fun ls => if ballotMask ls = 0 then 0 else 1)) s

/-- R215: `vall`. -/
def execVall (d a : Opd) (s : State) : Host.Outcome State Fault Refusal :=
  issueCrew (.vall d a) (crewVote d a false (fun ls => if ballotMask ls = presentMask ls then 1 else 0)) s

/-- R214: `redi`. -/
def execRedi (d a : Opd) (s : State) : Host.Outcome State Fault Refusal :=
  issueCrew (.redi d a) (crewReduce d a .zero (fun _ _ ls => (((presentA ls).foldl (· + ·) 0).toNat, 0))) s

/-- R116, R214: `redf`. -/
def execRedf (d a : Opd) (s : State) : Host.Outcome State Fault Refusal :=
  issueCrew (.redf d a) (crewReduce d a .zero (fun t ms ls => sumTree (t.lowRm ms) (t.xwidth ms) ls)) s

/-- R214: `redmx`. -/
def execRedmx (d a b : Opd) (s : State) : Host.Outcome State Fault Refusal :=
  issueCrew (.redmx d a b) (crewReduce d a b (fun _ _ ls => reduceBy ((lowB ls).toNat % 8) (presentA ls))) s

/-- R216: `scani`. -/
def execScani (d a b : Opd) (s : State) : Host.Outcome State Fault Refusal :=
  issueCrew (.scani d a b) (fun t ms => t.crewWrite ms d (scanAt (t.xlanes ms a b)) 0) s

/-! ## Slice scope (R217) -/

/-- A slice-scope move: the source of each lane from its own B and the B of the lowest lane in the mask (R217). -/
def sliceMove (d a b : Opd) (src : XLane → Word → Nat) (c : Nat) (sl : Slice) : Slice :=
  let ls := sl.xlanes c a b
  sl.vmap d (fun l => match laneAt ls l with
    | some x => fromLane ls (src x (lowB ls) % 4)
    | none => 0)

/-- R217: `sshf`. -/
def execSshf (d a b : Opd) (s : State) : Host.Outcome State Fault Refusal :=
  issue (.sshf d a b) (perSlice (sliceMove d a b (fun x _ => x.b.toNat))) s

/-- R217: `sshx`. -/
def execSshx (d a b : Opd) (s : State) : Host.Outcome State Fault Refusal :=
  issue (.sshx d a b) (perSlice (sliceMove d a b (fun x _ => x.p ^^^ x.b.toNat % 4))) s

/-- R217: `sbc`. -/
def execSbc (d a b : Opd) (s : State) : Host.Outcome State Fault Refusal :=
  issue (.sbc d a b) (perSlice (sliceMove d a b (fun _ low => low.toNat))) s

end Sys2Proof.Machine
end

