-- ==== Sys2Proof/Machine/Links.lean ====
section
/-! DEFINITION. The links: peer requests and their errors, external agents' accesses, tier credits, and what changes no
result (R152, R376, R431, R433, R437, R442, R445). -/

namespace Sys2Proof.Machine

/-! ## Peer requests (R375, R376) -/

/-- An import-table entry in use (R375). -/
structure Import where
  base : Nat
  limit : Nat
  source : Nat
  part : Nat
  key : Nat
  valid : Bool
  write : Bool
  atom : Bool
  deriving DecidableEq, Repr

/-- Import-table entry `i` (R375). -/
def State.import (s : State) (i : Nat) : Import :=
  let e := (nget s.imports i).toNat
  { base := bits e 51 16 <<< 16, limit := bits e 127 64, source := bits e 159 144, part := bits e 143 128,
    key := bits e 191 160, valid := bit e 192, write := bit e 193, atom := bit e 194 }

/-- Whether a request passes its check at the ingress (R376). KIND is 0 a read, 1 a write, 2 an atomic. -/
def Import.admits (e : Import) (source key offset size kind : Nat) : Bool :=
  e.valid && (e.source == 0xFFFF || e.source == source) && e.key == key && decide (offset + size ≤ e.limit)
  && (kind == 0 || (kind == 1 && e.write) || (kind == 2 && e.atom))

/-- The ingress agent of the links by which hosts reach memory (R152; log 68). -/
def Who.host : Who := .outside 1

/-- The ingress agent of the link by which a package sends its requests (R152, R376; log 68). -/
def Who.ridge (source : Nat) : Who := .outside (source + 2)

/-- A read of memory by an external agent through its ingress agent, one event per sector (R133, R152). -/
def State.ingressRead (s : State) (w : Who) (pa n : Nat) : State :=
  (pieces 128 pa n).foldl (fun s p => s.record w p.1 p.2 false true 0) s

/-- A write of memory by an external agent through its ingress agent, one event per sector. It comes after the package's writes of
those sectors that are in *S*, so external agents then see the sectors as they stand (R133, R152, R153, R434). -/
def State.ingressWrite (s : State) (w : Who) (pa : Nat) (b : List Byte) : State :=
  let ps := pieces 128 pa b.length
  (ps.foldl (fun s p => s.evWrite w p.1 p.2 (natOfBytes ((b.drop (p.1 - pa)).take p.2)) true) s).reveal
    (fun sec => ps.any (fun p => sectorOf p.1 == sec))

/-- R376: a peer request is checked once at the ingress, and performed or refused. One that reads poison is answered so, and
an atomic on it is not performed (R339, R445; log 17). -/
def execRidgeRequest (source exportIdx key offset size : Nat) (kind : BitVec 2) (fn : BitVec 4) (data : List (BitVec 8))
    (s : State) : Host.Outcome State Fault Refusal :=
  let e := s.import exportIdx
  let pa := e.base + offset
  if exportIdx < 4096 && e.admits source key offset size kind.toNat then
    let w := Who.ridge source
    if kind.toNat ≠ 1 && s.poisoned pa size then .next { (s.ingressRead w pa size) with sent := s.sent ++ [.ridgePoison source] }
    else
      match kind.toNat with
      | 0 => .next { (s.ingressRead w pa size) with sent := s.sent ++ [.ridgeReply source (s.mem.bytes pa size)] }
      | 1 => .next { (s.ingressWrite w pa (data.take size)) with sent := s.sent ++ [.ridgeReply source []] }
      | _ =>
        let old := s.mem.nat pa size
        let s' := s.ingressWrite w pa (bytesOfNat size (atomNew fn.toNat size old (natOfBytes data)))
        .next { s' with sent := s'.sent ++ [.ridgeReply source (bytesOfNat size old)] }
  else
    .next { (s.setPart e.part (fun q => { q with peerErrors := q.peerErrors + 1 })) with sent := s.sent ++ [.ridgeError source] }

/-- The accesses of a lane that went to a peer. -/
def AccSt.peer? : AccSt → Bool
  | .peer _ => true
  | .walk | .ats | .ceil | .late _ | .got _ _ | .written | .dropped => false

/-- The requests to peers among what has gone out since an earlier state. -/
def State.peerSince (s s0 : State) : List Sent :=
  (s.sent.drop s0.sent.length).filter (fun x => x matches .ridgeRequest _ _ _ _ _ _ _ _ _)

/-- The state after an engine command that has sent a request to a peer, or burst `burst` of a catch command that does, ends
with XLATE (R376). A draining team's commands have stopped (R241). -/
def State.peerFails (s : State) (id burst : Nat) : State :=
  match s.teams.findSome? (fun t => (t.cmds.find? (fun c => c.id == id)).map (fun c => (t, c))) with
  | some (t, c) =>
    if t.st = .draining then s
    else if c.isCatch then
      let out := (s.burstArrives t.uid id burst).peerSince s
      if t.burstDue c burst && !out.isEmpty then
        ({ s with sent := s.sent ++ out }.failBurst t.uid id burst 0x05).settle t.uid
      else s
    else
      let out := (s.runCopy t c none).peerSince s
      if c.fn < 5 && !out.isEmpty then ({ s with sent := s.sent ++ out }.finishCmd t.uid c 0x05 0 0).settle t.uid else s
  | none =>
    match s.cores.findSome? (fun k => (s.mHead k.id).bind (fun m => if m.2.id = id then some m else none)) with
    | some (t, m) =>
      let out := (s.runM t m none).peerSince s
      if m.started && !out.isEmpty then ({ s with sent := s.sent ++ out }.endM t m 0x05 (if m.fn = 2 then 0 else m.count) 0).settle t.uid else s
    | none => s

/-- R376: an error completion of a peer request gives the lane a protection fault; of an engine command that went to a
peer, XLATE. `op` names the operation or the command, `lane` the lane or the burst. -/
def execRidgeErrorCompletion (op lane : Nat) (s : State) : Host.Outcome State Fault Refusal :=
  if s.pend.any (fun o => o.id == op) then
    .next ((s.stepAccs (fun o a st => o.id == op && a.lanes.contains lane && st.peer?) (fun s o a _ =>
      (s.parkAcc o.team o.slice a 0x14 a.ea, .dropped))).settleAll)
  else .next (s.peerFails op lane)

/-! ## External agents (R152) -/

/-- Whether an external agent reaches an address through an ingress or as its own memory. -/
def reachable (pa : Nat) : Bool :=
  inRange .hbm pa || inRange .spad pa || inRange .host pa || inRange .tier pa || inRange .fabric pa

/-- The bytes that an external agent reads, sector by sector: of one whose last package writes it may not see yet, those
before them, or what memory holds, which it then sees for good (R153). -/
def State.outsideRead (s : State) : List (Nat × Nat) → State × List Byte
  | [] => (s, [])
  | (pa, n) :: rest =>
    let sec := sectorOf pa
    match s.hidden.find? (fun h => h.1 == sec) with
    | none =>
      let r := s.outsideRead rest
      (r.1, s.mem.bytes pa n ++ r.2)
    | some h =>
      let c := s.choose 2
      let s' := if c.1 = 0 then c.2 else { c.2 with hidden := c.2.hidden.filter (fun x => x.1 != sec) }
      let r := s'.outsideRead rest
      (r.1, (if c.1 = 0 then (h.2.drop (pa - sec)).take n else s.mem.bytes pa n) ++ r.2)

/-- R152: an external agent's access enters S at the home it reaches. A read that meets poison is answered so (R432,
R445). -/
def execIngressAccess (pa : Nat) (write : Bool) (size : Nat) (data : List (BitVec 8)) (s : State) :
    Host.Outcome State Fault Refusal :=
  if !reachable pa || !rangeFits pa size then .next s
  else if write then .next (s.ingressWrite .host pa (data.take size))
  else if s.poisoned pa size then .next { (s.ingressRead .host pa size) with sent := s.sent ++ [.ingressPoison pa] }
  else
    let r := s.outsideRead (pieces 128 pa size)
    .next { (r.1.ingressRead .host pa size) with sent := s.sent ++ [.ingressData pa r.2] }

/-! ## The tier (R431, R433) -/

/-- The credit limit of a port after a window with a worst DevLoad (R433). -/
def creditAfter (c : Nat) (devload : BitVec 2) : Nat :=
  match devload.toNat with
  | 0 => min 512 (c + c / 16)
  | 1 => c
  | 2 => max 8 (c - c / 8)
  | _ => max 8 (c / 2)

/-- R433: a 1 µs window ends at a tier port. -/
def execTierCreditUpdate (port : Nat) (devload : BitVec 2) (s : State) : Host.Outcome State Fault Refusal :=
  .next { s with ports := s.ports.modify port (fun c => creditAfter c devload) }

/-- R431: a tier device's directory back-invalidates a sector of a shared extent, which the caches drop. -/
def execBackInvalidation (pa : Nat) (s : State) : Host.Outcome State Fault Refusal :=
  if ((s.extentAt pa).map (fun e => e.shared)).getD false then
    .next { s with
      rmap := s.rmap.filter (fun r => r.sector != sectorOf pa),
      hidden := s.hidden.filter (fun h => h.1 != sectorOf pa),
      sent := s.sent ++ [.backInvalidate (sectorOf pa)] }
  else .next s

/-- R437: a flit that fails its CRC is retried on the link, and changes nothing else. -/
def execRidgeFlitRetry (port : Nat) (s : State) : Host.Outcome State Fault Refusal :=
  .next { s with sent := s.sent ++ [.flitRetry port] }

/-! ## Islands and scrubbing (R442, R445) -/

/-- R442: a pause of an island stalls its slices and engines and changes no result. -/
def execIslandPause (_island : Nat) (s : State) : Host.Outcome State Fault Refusal := .next s

/-- Whether an array that the scrubber covers holds an address: HBM, a scratchpad, or a cache (R445). -/
def State.scrubs (s : State) (pa : Nat) : Bool :=
  inRange .hbm pa || inRange .spad pa || s.rmap.any (fun r => r.sector == sectorOf pa)

/-- R445: the scrubber corrects soft errors and counts them; an uncorrectable one marks its unit poisoned. -/
def execPatrolScrub (pa : Nat) (uncorrectable : Bool) (s : State) : Host.Outcome State Fault Refusal :=
  let u := pa / poisonUnit pa * poisonUnit pa
  if !s.scrubs pa then .next s
  else if uncorrectable then .next { s with poison := insertNat u s.poison }
  else .next { s with corrected := s.corrected + 1 }

/-- The state after an uncorrectable error in a word of a slice's register file marks it poisoned (R445). -/
def State.regError (s : State) (u k reg lane : Nat) : State :=
  s.setSlice u k (fun sl =>
    if reg < 8 * sl.alloc ∧ lane < 4 then { sl with marks := { sl.marks with marred := insertNat (4 * reg + lane) sl.marks.marred } }
    else sl)

/-- The state after an uncorrectable error in a scalar of a slice marks it poisoned: user scalar n by n, supervisor scalar n by
n + 8 (R331, R445). -/
def State.scalarError (s : State) (u k key : Nat) : State :=
  s.setSlice u k (fun sl => if key < 32 then { sl with smarred := insertNat key sl.smarred } else sl)

/-- The state after a tier device marks a sector poisoned (R420). -/
def State.poisonTier (s : State) (pa : Nat) : State :=
  if inRange .tier pa then { s with poison := insertNat (sectorOf pa) s.poison } else s

end Sys2Proof.Machine
end

