-- ==== Sys2Proof/Machine/Firmware.lean ====
section
/-! DEFINITION. The firmware: bring-up, the calls of the management page, die fencing and the distributors' reports
(R374, R375, R386, R387, R407, R425 to R432, R437 to R441, R446). -/

namespace Sys2Proof.Machine

/-! ## Bring-up (R446) -/

/-- The die whose distributor is the master: the lowest that is not fenced (R386). -/
def masterOf (fenced : BitVec 4) : Option Nat := (List.range 4).find? (fun d => !fenced.getLsbD d)

/-- R446: the package comes up: READY after step 7, with the failed dies fenced; or FAIL at step 1. Host, tier and peer memory
stay, and with the tier the commits it holds (R407, R408); the agenda, the record of what was sent, the draw of free
values and the names go on (log 31). -/
def execPowerGood (bootOk : Bool) (failedDies : BitVec 4) (s : State) : Host.Outcome State Fault Refusal :=
  let r := { State.reset with mem := s.mem.filter (fun c => external c.1), agenda := s.agenda, sent := s.sent, nonce := s.nonce,
                               commits := s.commits, fresh := s.fresh, master := masterOf failedDies }
  let r := { r with mgmt := { r.mgmt with lcs := s.mgmt.lcs } }
  if bootOk then
    .next { r with mgmt := { r.mgmt with st := 2, step := 7, fenced := failedDies, fwver := Config.bootVersion,
                                         errata := Config.bootErrata } }
  else .next { r with mgmt := { r.mgmt with st := 3 } }

/-! ## Calls (R425, R426) -/

/-- The result codes of a call (R425). -/
inductive Result where | done | badArg | busy | refused | noSpace | noCall
  deriving DecidableEq, Repr

/-- RESULT (R425). -/
def Result.code : Result → BitVec 8
  | .done => 0
  | .badArg => 1
  | .busy => 2
  | .refused => 3
  | .noSpace => 4
  | .noCall => 5

/-- The state after a call completes: OUT and RESULT, GO, and the message (R426). Outputs that a call does not define
are free values (log 2); a call that is not done writes none. -/
def State.finishCall (s : State) (r : Result) (outs : List Nat) : State :=
  let f := s.freeBytes 32
  let s := if r = .done then
      { f.2 with mgmt := { f.2.mgmt with
          outs := (List.range 4).map (fun j => BitVec.ofNat 64 ((outs[j]?).getD (f.1 >>> (64 * j)))) } }
    else s
  ({ s with mgmt := { s.mgmt with go := false, result := r.code } }).msix 0 0

/-- ARG `i` of the call. -/
def State.arg (s : State) (i : Nat) : Nat := ((s.mgmt.args[i]?).getD 0).toNat

/-- Whether the call with a code is running and firmware runs (R426, R446). -/
def State.calling (s : State) (code : Nat) : Bool := s.mgmt.go && s.mgmt.code.toNat == code && s.mgmt.st == 2

/-- The state after the running call is carried out, if its code is this one; a call that fails changes nothing
(R426). -/
def State.runCall (s : State) (code : Nat) (f : State → Except Result (State × List Nat)) : Host.Outcome State Fault Refusal :=
  if s.calling code then
    match f s with
    | .ok (s', outs) => .next (s'.finishCall .done outs)
    | .error r => .next (s.finishCall r [])
  else .next s

/-- The codes of R426. -/
def callCodes : List Nat :=
  [0x01, 0x02, 0x03, 0x04, 0x05, 0x10, 0x11, 0x12, 0x20, 0x21, 0x30, 0x31, 0x32, 0x33, 0x40, 0x41]

/-- R426: a host write of the management page. GO starts the call named by CODE, an unknown one gives NOCALL, and
nothing is written while a call runs. -/
def execGo (offset : Nat) (value : Dword) (s : State) : Host.Outcome State Fault Refusal :=
  if s.mgmt.go then .next s
  else if offset = 0x100 then
    let s := { s with mgmt := { s.mgmt with code := value.setWidth 8, go := value.getLsbD 31 } }
    if s.mgmt.go && !callCodes.contains s.mgmt.code.toNat then .next (s.finishCall .noCall []) else .next s
  else if 0x108 ≤ offset ∧ offset < 0x148 ∧ offset % 8 = 0 then
    .next { s with mgmt := { s.mgmt with args := s.mgmt.args.set ((offset - 0x108) / 8) value } }
  else .next s

/-! ## Partitions (R426 to R428) -/

/-- The runs of HBM frames that a partition owns: its pool frames and its context pool (R427). -/
def Part.owned (q : Part) : List (Nat × Nat) := q.frames ++ (q.ctxpool.map (fun p => (p.1, p.2 / frameBytes))).toList

/-- Whether two runs of frames share one. -/
def runsMeet (a b : Nat × Nat) : Bool := decide (a.1 < b.1 + frameBytes * b.2) && decide (b.1 < a.1 + frameBytes * a.2)

/-- The lowest run of `n` frames on a die that no partition owns (R427; log 11). -/
def State.freeRun (s : State) (die n : Nat) : Option (Nat × Nat) :=
  let owned := (s.parts.flatMap Part.owned).filter (runsMeet (dieBytes * die, dieBytes / frameBytes))
  let starts := sortNat (dieBytes * die :: owned.map (fun r => r.1 + frameBytes * r.2))
  (starts.find? (fun a => decide (a + frameBytes * n ≤ dieBytes * (die + 1))
    && owned.all (fun r => !runsMeet r (a, n)))).map (fun a => (a, n))

/-- The runs of a new pool, one on each die that is asked for frames; none when some die has no room. -/
def State.freeRuns (s : State) : List (Nat × Nat) → Option (List (Nat × Nat))
  | [] => some []
  | (die, n) :: rest =>
    if n = 0 then s.freeRuns rest
    else
      match s.freeRun die n, s.freeRuns rest with
      | some r, some rs => some (r :: rs)
      | _, _ => none

/-- Whether another partition owns a cluster of a set, a core of it as a spare, or an ASID of a range; an empty range holds none
(R427, R441). -/
def State.ownedElsewhere (s : State) (clusters asid0 asidn : Nat) : Bool :=
  s.parts.any (fun q => q.assigned && ((q.clusters.toNat &&& clusters) != 0
    || (decide (max asid0 q.asid0.toNat < min (asid0 + asidn) (q.asid0.toNat + q.asidn.toNat)))))
  || s.retired.any (fun r => bit clusters (clusterOf r.2) && (List.range 16).any (fun p => s.owns p r.2))

/-- R426: PART_ASSIGN gives wiped resources to an unassigned partition. -/
def execPartAssign (s : State) : Host.Outcome State Fault Refusal :=
  s.runCall 0x01 (fun s =>
    let p := s.arg 0
    let asid0 := bits (s.arg 6) 15 0
    let asidn := bits (s.arg 6) 31 16
    if 16 ≤ p ∨ 256 ≤ s.arg 1 ∨ 2 ^ 32 ≤ s.arg 6 ∨ 2 ^ 16 < asid0 + asidn then .error .badArg
    else if (s.part p).assigned || s.ownedElsewhere (s.arg 1) asid0 asidn then .error .busy
    else
      match s.freeRuns ((List.range 4).map (fun d => (d, s.arg (2 + d)))) with
      | none => .error .noSpace
      | some runs =>
        .ok ((s.setPart p (fun q => { q with
          assigned := true, clusters := BitVec.ofNat 8 (s.arg 1), frames := runs, pool := runs,
          asid0 := BitVec.ofNat 16 asid0, asidn := BitVec.ofNat 16 asidn })).wipePart p, []))

/-- Whether a partition has a team resident, draining or saved (R426). -/
def State.hasTeams (s : State) (p : Nat) : Bool := s.teams.any (fun t => t.part == p) || s.saved.any (fun c => c.kept && c.part == p)

/-- A partition page after PART_SET writes a field; none for a value or offset out of range (R330, R423, R426). -/
def Part.setField (q : Part) (offset v : Nat) : Option Part :=
  match offset with
  | 0x000 => if v < 2 ^ 64 then some { q with ctxbase := BitVec.ofNat 64 v } else none
  | 0x008 => if v < 2 ^ 64 ∧ v % 256 = 0 ∧ canonical v then some { q with scode := BitVec.ofNat 64 v } else none
  | 0x018 => if v < 2 ^ 64 ∧ v % 4096 = 0 then some { q with logbase := BitVec.ofNat 64 v } else none
  | 0x020 => if 6 ≤ v ∧ v ≤ 16 then some { q with logn := BitVec.ofNat 5 v } else none
  | 0x030 => some { q with svcmask := BitVec.ofNat 256 v }
  | 0x050 => some { q with ewgt := BitVec.ofNat 256 v }
  | 0x070 =>
    if v < 2 ^ 64 ∧ bits v 11 5 = 0 ∧ 7 ≤ bits v 4 0 ∧ bits v 4 0 ≤ 16 then
      some { q with elogbase := BitVec.ofNat 64 (v / 4096 * 4096), elogn := BitVec.ofNat 5 (bits v 4 0) } else none
  | _ => none

/-- R426: PART_SET writes a firmware-owned field of a partition page. -/
def execPartSet (s : State) : Host.Outcome State Fault Refusal :=
  s.runCall 0x02 (fun s =>
    let p := s.arg 0
    let v := s.arg 2 + s.arg 3 <<< 64 + s.arg 4 <<< 128 + s.arg 5 <<< 192
    if 16 ≤ p then .error .badArg
    else
      match (s.part p).setField (s.arg 1) v with
      | none => .error .badArg
      | some q => if s.hasTeams p then .error .busy else .ok (s.setPart p (fun _ => q), []))

/-- R429: PART_RESET. -/
def execPartReset (s : State) : Host.Outcome State Fault Refusal :=
  s.runCall 0x03 (fun s => if 16 ≤ s.arg 0 then .error .badArg else .ok (s.resetPart (s.arg 0), []))

/-- R426: PART_FREE resets a partition and gives up its resources; its page reads its reset values. -/
def execPartFree (s : State) : Host.Outcome State Fault Refusal :=
  s.runCall 0x04 (fun s =>
    let p := s.arg 0
    if 16 ≤ p then .error .badArg
    else
      let s := s.resetPart p
      .ok ({ (s.setPart p (fun _ => Part.reset)) with jobs := s.jobs.filter (fun j => j.part != p) }, []))

/-- R426: CTXPOOL sets a partition's context pool; a frame that another partition owns is BUSY (R394, R397, R427). -/
def execCtxpool (s : State) : Host.Outcome State Fault Refusal :=
  s.runCall 0x05 (fun s =>
    let p := s.arg 0
    let a := s.arg 1
    let n := s.arg 2
    if 16 ≤ p ∨ a % 65536 ≠ 0 ∨ n % 65536 ≠ 0 ∨ !inRange .hbm a then .error .badArg
    else if !(s.part p).resv.isEmpty then .error .busy
    else if !rangeFits a n then .error .noSpace
    else if ((List.range 16).filter (fun m => m != p)).any (fun m => (s.part m).owned.any (runsMeet (a, n / frameBytes))) then
      .error .busy
    else .ok (s.setPart p (fun q => { q with ctxpool := some (a, n) }), []))

/-! ## Peers (R374, R375, R437) -/

/-- R374: EGRESS writes an egress slot. -/
def execEgress (s : State) : Host.Outcome State Fault Refusal :=
  s.runCall 0x10 (fun s =>
    let v := s.arg 1 + s.arg 2 <<< 64
    if 2048 ≤ s.arg 0 ∨ bits v 15 12 ≠ 0 ∨ bits v 127 67 ≠ 0 then .error .badArg
    else .ok ({ s with egress := nset s.egress (s.arg 0) (BitVec.ofNat 128 v) }, []))

/-- R375: IMPORT writes an import-table entry; its region lies in package memory. -/
def execImportE (s : State) : Host.Outcome State Fault Refusal :=
  s.runCall 0x11 (fun s =>
    let v := s.arg 1 + s.arg 2 <<< 64 + s.arg 3 <<< 128 + s.arg 4 <<< 192
    if 4096 ≤ s.arg 0 ∨ bits v 63 52 ≠ 0 ∨ bits v 15 0 ≠ 0 ∨ s.arg 2 % 65536 ≠ 0 ∨ 16 ≤ bits v 143 128 ∨ bits v 255 195 ≠ 0
       ∨ !(inRange .hbm (bits v 63 0) || inRange .spad (bits v 63 0)) then .error .badArg
    else if !rangeFits (bits v 63 0) (s.arg 2) then .error .noSpace
    else .ok ({ s with imports := nset s.imports (s.arg 0) (BitVec.ofNat 256 v) }, []))

/-- R437: QUIESCE asks for the quiesce of a Ridge port, and completes with its acknowledgement. -/
def execQuiesce (s : State) : Host.Outcome State Fault Refusal :=
  if s.calling 0x12 then
    if 12 ≤ s.arg 0 then .next (s.finishCall .badArg [])
    else .next { s with quiesce := insertNat (s.arg 0) s.quiesce }
  else .next s

/-- R437: firmware acknowledges a quiesce; every request that arrived at the port before has been performed. -/
def execQuiesceAck (port : Nat) (s : State) : Host.Outcome State Fault Refusal :=
  if s.quiesce.contains port && s.calling 0x12 then
    .next (({ s with quiesce := s.quiesce.filter (· != port) }).finishCall .done [])
  else .next s

/-! ## The memory tier (R431, R432) -/

/-- Bytes of a tier window's granule. -/
def gib : Nat := 2 ^ 30

/-- R431: EXTENT_ADD places an extent. -/
def execExtentAdd (s : State) : Host.Outcome State Fault Refusal :=
  s.runCall 0x20 (fun s =>
    let i := bits (s.arg 0) 9 0
    let base := s.arg 1
    let n := s.arg 2
    let shared := bit (s.arg 3) 16
    let mask := bits (s.arg 3) 15 0
    let count := ((List.range 16).filter (bit mask)).length
    if bits (s.arg 0) 15 10 ≠ 0 ∨ 2 ^ 18 ≤ s.arg 0 ∨ 2 ^ 17 ≤ s.arg 3 ∨ base % gib ≠ 0 ∨ n % gib ≠ 0 ∨ n = 0 ∨ !inRange .tier base
       ∨ (!shared ∧ count ≠ 1) then .error .badArg
    else if s.extents.any (fun e => e.index == i || (decide (e.base < base + n) && decide (base < e.base + e.bytes))) then
      .error .busy
    else if !rangeFits base n then .error .noSpace
    else
      let e : Extent := { index := i, port := bits (s.arg 0) 17 16, base := base, bytes := n, shared := shared,
                          mask := BitVec.ofNat 16 mask, revoked := false, dropped := 0, firstDrop := 0 }
      .ok ({ s with extents := s.extents ++ [e] }, []))

/-- R432: EXTENT_REVOKE revokes an extent; the intervals streaming into it abort, and the call completes at the
release. -/
def execExtentRevoke (s : State) : Host.Outcome State Fault Refusal :=
  if s.calling 0x21 then
    match s.extents.find? (fun e => e.index == s.arg 0) with
    | none => .next (s.finishCall .badArg [])
    | some e =>
      let hit := s.jobs.filter (fun j => j.stream.isSome && decide (e.base ≤ j.region) && decide (j.region < e.base + e.bytes))
      let s := { s with extents := s.extents.map (fun (x : Extent) => if x.index = e.index then { x with revoked := true } else x) }
      .next (hit.foldl (fun s j => s.abort j.part j.id false) s)
  else .next s

/-- Whether an access to an extent is in flight (R432). -/
def State.inFlight (s : State) (e : Extent) : Bool :=
  s.pend.any (fun op => op.accs.any (fun x => ((x.2.coming?).map (fun ps =>
    ps.any (fun p => decide (e.base ≤ p.pa) && decide (p.pa < e.base + e.bytes)))).getD false))

/-- The revocation record of an extent, from offset 0x08 on (R443). -/
def Extent.record (e : Extent) : List Byte :=
  bytesOfNat 4 (e.index <<< 16 + 2) ++ bytesOfNat 4 (min e.dropped (2 ^ 32 - 1)) ++ bytesOfNat 8 e.base ++ bytesOfNat 8 e.firstDrop

/-- R432: a revoked extent is released, when none of its requests is in flight or after 50 ms, and its record is written
to the partitions of its mask. -/
def execExtentRelease (extent : Nat) (s : State) : Host.Outcome State Fault Refusal :=
  match s.extents.find? (fun e => e.index == extent && e.revoked) with
  | none => .next s
  | some e =>
    let s := { s with extents := s.extents.filter (fun x => x.index != extent), sent := s.sent ++ [Sent.extentReleased extent] }
    let s := ((List.range 16).filter (fun p => e.mask.getLsbD p)).foldl (fun s p => s.logEnergy p e.record) s
    .next (if s.calling 0x21 then s.finishCall .done [] else s)

/-! ## Firmware images and life cycle (R430, R439) -/

/-- Bytes of host memory named by a host physical address. An address outside the host link window is out of range, and bytes that
run past its end do not fit (R354, R426). -/
def State.hostBytes (s : State) (a n : Nat) : Except Result (List Byte) :=
  if !inRange .host (hostBase + a) then .error .badArg
  else if rangeFits (hostBase + a) n then .ok (s.mem.bytes (hostBase + a) n)
  else .error .noSpace

/-- R439: FW_STAGE copies an image into the staging area. -/
def execFwStage (s : State) : Host.Outcome State Fault Refusal :=
  s.runCall 0x30 (fun s =>
    match s.hostBytes (s.arg 0) (s.arg 1) with
    | .error r => .error r
    | .ok b => .ok ({ s with staged := some b }, []))

/-- The entries of a partition's translated-image cache: 64 MiB, at 64 bytes a clause (R440; log 46). -/
def imageRoom : Nat := 2 ^ 20

/-- Whether an entry of a translated-image cache may be used: no write has reached its source sector since (R440). It gives the
results of the original code. -/
def State.imageLive (s : State) (x : Image) : Bool := x.time == s.wt x.pa

/-- The state after firmware puts a rewritten clause into a partition's translated-image cache, where there is room once entries
that can no longer be used are gone (R440). -/
def State.rewrite (s : State) (part pa : Nat) (mask : Dword) : State :=
  let live := s.images.filter (fun x => s.imageLive x && !(x.part == part && x.pa == pa))
  if (live.filter (fun x => x.part == part)).length < imageRoom then
    { s with images := live ++ [{ part := part, pa := pa, time := s.wt pa, mask := mask }] }
  else { s with images := live }

/-- R439: FW_UPDATE checks a staged image, and then installs it live: the package is UPDATING in between. What waited in the
FIFOs is ordered afterwards, and the translated images that depend on a changed erratum go (R440). -/
def execFwUpdate (s : State) : Host.Outcome State Fault Refusal :=
  if s.mgmt.go && s.mgmt.code == 0x31 && s.mgmt.st == 4 then
    let b := s.staged.getD []
    let changed := s.mgmt.errata ^^^ Config.imageErrata b
    let s := { s with
      mgmt := { s.mgmt with st := 2, fwver := Config.imageVersion b, errata := Config.imageErrata b },
      images := s.images.filter (fun x => x.mask &&& changed == 0) }
    .next (s.finishCall .done [s.mgmt.fwver.toNat])
  else if s.calling 0x31 then
    match s.staged with
    | none => .next (s.finishCall .refused [])
    | some b =>
      if Config.signatureOk b && decide (s.mgmt.fwver ≤ Config.imageVersion b) then
        .next { s with mgmt := { s.mgmt with st := 4 } }
      else .next (s.finishCall .refused [])
  else .next s

/-- The state after the wipe of a package reset: every memory and directory, and all that its memories held of teams, launches,
queues and tables; the tier keeps its commits, and the cores that spares stand in for stay so (R428, R430; log 15). -/
def State.wipeAll (s : State) : State :=
  let s := (s.wipe 0 (4 * dieBytes)).wipe spadBase (512 * 2 ^ 19)
  { s with poison := [], hist := [], parts := s.parts.map Part.afterReset, cores := [], teams := [], saved := [], launches := [],
           counters := [], passes := [], cancels := [], packets := [], pend := [], batches := [], tlb := [], wcache := [],
           atsc := [], atsq := [], feBad := [], epochs := [], rmap := [], ilines := [], hidden := [], policy := [], owners := [],
           wts := [], rts := [], svcRing := [], agents := [], egress := [], imports := [], extents := [], ports := List.replicate 4 512, jobs := [],
           invals := [], quiesce := [], reports := [], lostTeams := [], turn := 0, turns := [], fifo := [], images := [],
           staged := none }

/-- R430: LIFECYCLE changes the life-cycle state on an authenticated command, and wipes the package. -/
def execLifecycle (s : State) : Host.Outcome State Fault Refusal :=
  s.runCall 0x32 (fun s =>
    if 3 ≤ s.arg 0 then .error .badArg
    else
      match s.hostBytes (s.arg 1) (s.arg 2) with
      | .error r => .error r
      | .ok b =>
        let new : BitVec 2 := BitVec.ofNat 2 (s.arg 0)
        if Config.commandOk b new then
          let s := s.wipeAll
          .ok ({ s with mgmt := { s.mgmt with lcs := new } }, [])
        else .error .refused)

/-! ## Spares (R441) -/

/-- The cores that a core or cluster number names (R426). -/
def namedCores (n : Nat) : List Nat := if bit n 9 then (List.range 64).map (fun i => n % 512 / 64 * 64 + i) else [n]

/-- R441: SPARE puts a wiped spare in the place of a core or cluster of the same die, itself a spare or not. With a whole cluster
its caches are wiped too (R428). -/
def execSpare (s : State) : Host.Outcome State Fault Refusal :=
  s.runCall 0x33 (fun s =>
    let a := s.arg 0
    let b := s.arg 1
    if 1024 ≤ a ∨ 1024 ≤ b ∨ bit a 9 ≠ bit b 9 ∨ dieOf (a % 512) ≠ dieOf (b % 512) ∨ namedCores a = namedCores b then .error .badArg
    else
      let old := namedCores a
      let new := namedCores b
      if new.any (fun k => (List.range 16).any (fun p => s.owns p k) || s.retired.any (fun r => r.1 == k || r.2 == k))
         || old.any (fun k => s.retired.any (fun r => r.1 == k)) || s.teams.any (fun t => old.contains t.core) then .error .busy
      else
        let s := new.foldl (fun s k => (s.wipe (spadOf k) (2 ^ 19)).setCore k (fun c => { Core.idle k with clock := c.clock })) s
        let s := if bit b 9 then s.wipeClusters (BitVec.ofNat 8 (1 <<< clusterOf (b % 512))) else s
        .ok ({ s with
          retired := s.retired ++ old.zip new,
          rmap := s.rmap.filter (fun r => !(decide (r.place < 8) && new.contains r.core)),
          ilines := s.ilines.filter (fun i => !new.contains i.place) }, []))

/-! ## Checkpoint calls (R407) -/

/-- Whether a region lies in the window of one extent that names a partition (R426). -/
def State.regionOk (s : State) (p base n : Nat) : Bool :=
  s.extents.any (fun e => decide (e.base ≤ base) && decide (base + n ≤ e.base + e.bytes) && e.mask.getLsbD p && !e.revoked)

/-- Whether a status area lies in the HBM of a partition (R407). -/
def State.statusOk (s : State) (p a : Nat) : Bool :=
  (s.part p).frames.any (fun r => decide (r.1 ≤ a) && decide (a + 32 ≤ r.1 + frameBytes * r.2))

/-- R407: CKPT_REGION sets a job's region and status area. -/
def execCkptRegion (s : State) : Host.Outcome State Fault Refusal :=
  s.runCall 0x40 (fun s =>
    let p := bits (s.arg 0) 19 16
    let id := bits (s.arg 0) 15 0
    if 2 ^ 20 ≤ s.arg 0 ∨ s.arg 1 % 4096 ≠ 0 ∨ s.arg 2 % 4096 ≠ 0 ∨ s.arg 3 % 32 ≠ 0 ∨ !s.statusOk p (s.arg 3)
       ∨ !s.regionOk p (s.arg 1) (s.arg 2) then .error .badArg
    else
      match s.job? p id with
      | some _ =>
        let s := if ((s.job? p id).bind (fun j => j.stream)).isSome then s.abort p id false else s
        .ok (s.setJob p id (fun j => { j with
          region := s.arg 1, bytes := s.arg 2, used := 0, status := s.arg 3, full := false, fullNext := true }), [])
      | none =>
        let j : Job := { part := p, id := id, asid := 0, region := s.arg 1, bytes := s.arg 2, used := 0, status := s.arg 3,
                         ceiling := 0, closed := 0, based := false, nextK := 0, lastK := 0, lastCommit := 0,
                         aborted := false, full := false, fullNext := false, dirty := [], stream := none }
        .ok ({ s with jobs := s.jobs ++ [j] }, []))

/-- The state after the whole stream of an interval is written, as far as `fuel` reaches. -/
def State.streamAll (s : State) (part id : Nat) : Nat → State
  | 0 => s
  | n + 1 =>
    match s.nextItem part id with
    | none => s
    | some (j, st, c, i) => (s.streamItem j st c i).streamAll part id n

/-- The base image of a job: interval 0, a full one, streamed and committed; none when the region has no room (R401,
R407). -/
def State.takeBase (s : State) (p id asid : Nat) : Option State :=
  let t0 := (s.cores.map (fun c => c.clock)).foldl max 0
  let s := s.setJob p id (fun j => { j with asid := asid, based := true, ceiling := t0 + 2 ^ 20, closed := t0, nextK := 1, dirty := [] })
  match s.job? p id with
  | none => none
  | some j =>
    let st := j.newStream 0 t0 true []
    if j.region + j.bytes < st.base + 128 then none
    else
      let s := ((s.setJob p id (fun j => { j with stream := some st })).devWrite st.base st.bytes).takeCut p id
      let n := (((s.job? p id).bind (fun j => j.stream)).map (fun st => st.todo.length)).getD 0
      let s := s.streamAll p id n
      match s.job? p id with
      | none => none
      | some j =>
        match j.stream with
        | none => none
        | some st =>
          match st.cut, st.todo with
          | some c, [] => some (s.commit j st c)
          | _, _ => none

/-- R407: CKPT_BASE takes interval 0 of a job; OUT0 is its commit record, OUT1 its closing time. -/
def execCkptBase (s : State) : Host.Outcome State Fault Refusal :=
  s.runCall 0x41 (fun s =>
    let p := bits (s.arg 0) 19 16
    let id := bits (s.arg 0) 15 0
    let asid := s.arg 1
    if 2 ^ 20 ≤ s.arg 0 ∨ 2 ^ 16 ≤ asid ∨ (s.job? p id).isNone ∨ !(s.ctxEntry p asid).valid then .error .badArg
    else if s.teams.any (fun t => t.part == p && t.record.job == id)
        || s.saved.any (fun c => c.kept && c.part == p && c.team.record.job == id)
        || ((s.job? p id).bind (fun j => j.stream)).isSome then .error .busy
    else
      match s.takeBase p id asid with
      | none => .error .noSpace
      | some s' =>
        match s'.job? p id with
        | none => .error .noSpace
        | some j => .ok (s', [j.lastCommit, j.closed]))

/-! ## Dies (R386, R387) -/

/-- The state after the master acts on a team that was lost with its die: what it held goes back to its launch, or a co-resident
launch is cancelled, and what depends on it in its graph (R45, R383, R387). -/
def State.reissueLost (s : State) (t : Team) : State :=
  let s := { s with lostTeams := s.lostTeams.filter (fun x => x.uid != t.uid) }.reissue t
  if t.record.coresid then
    let s := (s.setLaunch t.launch (fun x => { x with lost := true })).cancelLaunch t.launch
    (s.cascade s.launches.length).checkLaunch t.launch
  else ((s.setLaunch t.launch (fun x => { x with stranded := true })).kick t.launch).checkLaunch t.launch

/-- The state after the master acts on the lost teams of the launches whose home does not move; it waits for a master, and
for the home (R34, R386, R387). -/
def State.reissueAll (s : State) : State :=
  if s.master.isNone then s
  else
    (s.lostTeams.filter (fun t => !((s.launch? t.launch).map (fun x => x.moving)).getD false)).foldl State.reissueLost s

/-- The state after a team is taken off a fenced die: its context is lost, a record that was draining says so, and the master
has still to act on it (R387, R393, R394). -/
def State.takeLost (s : State) (t : Team) : State :=
  let c := s.ctxOf t 0 (t.halt == some .quiet)
  let s := match t.st, c.pa with
    | .draining, some a => s.devWrite (a + 8) (bytesOfNat 4 (c.snap.toNat <<< 3 + CtxSt.lost.code))
    | _, _ => s
  let s := { s with batches := s.batches.filter (fun b => b.team != t.uid) }
  let s := ((s.leaveCore t).unreserveAll t).countSaved t.uid false
  { s with lostTeams := s.lostTeams ++ [t] }

/-- The state after the master names a new home for a launch: the lowest surviving cluster of its core set; the reissues follow,
then the operations that waited (R34, R386). -/
def State.homeMove (s : State) (l : Nat) : State :=
  if s.master.isNone || !((s.launch? l).map (fun x => x.moving)).getD false then s
  else
    (s.setLaunch l (fun x => { x with moving := false, home := s.homeOf x })).reissueAll.kick l

/-- The state after the front-end arbiter names the next master, and it takes up the reissues and steals that waited
(R386). -/
def State.nameMaster (s : State) : State :=
  if s.master.isSome then s
  else
    let s := { s with master := masterOf s.mgmt.fenced }.reissueAll
    s.launches.foldl (fun s x => s.kick x.uid) s

/-- R386: a die is fenced: its teams are lost (R387), the homes on it move (R34), the intervals that await their quiet points
abort, and what its clusters held is dropped. -/
def execDieFence (die : Nat) (s : State) : Host.Outcome State Fault Refusal :=
  if 4 ≤ die then .next s
  else
    let lost := s.teams.filter (fun t => dieOf t.core == die)
    let s := { s with mgmt := { s.mgmt with fenced := s.mgmt.fenced ||| BitVec.ofNat 4 (1 <<< die) } }
    let s := (s.jobs.filter (fun j => (j.stream.map (fun st => st.toArm.any (fun c => dieOf c == die))).getD false)).foldl
      (fun s j => s.abort j.part j.id false) s
    let here := fun (place : Nat) => place == 2 * die || place == 2 * die + 1 || place == 8 + die
    let s := { s with
      master := if s.master = some die then none else s.master,
      launches := s.launches.map (fun (x : Launch) =>
        if !x.counted && (x.home.map (fun c => c / 2 == die)).getD false then { x with moving := true } else x) }
    let s := lost.foldl (fun s t => match s.team? t.uid with
      | some t => s.takeLost t
      | none => s) s
    .next ({ s with
      tlb := s.tlb.filter (fun t => !here t.place),
      wcache := s.wcache.filter (fun w => w.cluster / 2 != die),
      atsc := s.atsc.filter (fun t => t.die != die),
      atsq := s.atsq.filter (fun q => q.die != die),
      rmap := s.rmap.filter (fun r => r.place / 2 != die || decide (8 ≤ r.place)),
      ilines := s.ilines.filter (fun i => (if i.place < 512 then dieOf i.place else (i.place - 512) / 2) != die) }.reissueAll)

/-- R386: a distributor reports to the front end; that of a fenced die does not. -/
def execDistributorReport (die : Nat) (s : State) : Host.Outcome State Fault Refusal :=
  .next (if s.mgmt.fenced.getLsbD die then s else { s with reports := nset s.reports die (nget s.reports die + 1) })

end Sys2Proof.Machine
end

