-- ==== Sys2Proof/Machine/Flags.lean ====
section
/-! DEFINITION. The flag computations: SCC of the scalar class (R159, R160), and the predicates of CMP with the FPS
flags they raise (R163, R164). -/

namespace Sys2Proof.Machine

/-- `result ≠ 0`, the SCC of most scalar functions (R159). -/
def sccNonzero (w : Word) : Bool := w != 0

/-- The carry out of bit 31 of a sum (R159). -/
def sccCarry (a b : Word) : Bool := decide (2 ^ 32 ≤ a.toNat + b.toNat)

/-- The borrow of a difference (R159). -/
def sccBorrow (a b : Word) : Bool := decide (a.toNat < b.toNat)

/-- Whether the signed product leaves the 32-bit range (R159). -/
def sccMul (a b : Word) : Bool :=
  let p := a.toInt * b.toInt
  decide (p < -(2 ^ 31)) || decide (2 ^ 31 - 1 < p)

/-- A floating predicate of two binary32 codes: its value on ordered inputs, on unordered ones, and whether any NaN
or only a signalling one sets NV (R163). -/
def fpred (ordered : Fp → Fp → Bool) (unordered anyNan : Bool) (a b : Word) : Bool × BitVec 5 :=
  let x := f32.decode a.toNat
  let y := f32.decode b.toNat
  if x.isNan || y.isNan then (unordered, if anyNan then flagNV else snanFlag [x, y])
  else (ordered x y, 0)

/-- Whether A's class is in the class set B[9:0] (R164). -/
def fclsTest (a b : Word) : Bool := b.getLsbD (f32.classOf a.toNat)

end Sys2Proof.Machine
end

