-- ==== Sys2Proof/Machine/Scalar.lean ====
section
/-! DEFINITION. The scalar class SALU, SADDI, and the compares into masks of CMP (R157 to R164). -/

namespace Sys2Proof.Machine

/-! ## SALU (R158, R159) -/

/-- A scalar function of A and B with its SCC, written by `write_result` (R158). -/
def scalar (d a b : Opd) (f : Word → Word → Word × Bool) (sl : Slice) : Slice :=
  let r := f (sl.readS a) (sl.readS b)
  { sl.writeS d r.1 with scc := r.2 }

/-- A result whose SCC is `result ≠ 0` (R159). -/
def nz (r : Word) : Word × Bool := (r, sccNonzero r)

/-- A test's result and SCC (R159). -/
def test (b : Bool) : Word × Bool := (if b then 1 else 0, b)

/-- R159: `sadd`. -/
def execSadd (d a b : Opd) (s : State) : Host.Outcome State Fault Refusal :=
  issue (.sadd d a b) (perSlice (fun _ => scalar d a b (fun a b => (a + b, sccCarry a b)))) s

/-- R159: `ssub`. -/
def execSsub (d a b : Opd) (s : State) : Host.Outcome State Fault Refusal :=
  issue (.ssub d a b) (perSlice (fun _ => scalar d a b (fun a b => (a - b, sccBorrow a b)))) s

/-- R159: `smul`. -/
def execSmul (d a b : Opd) (s : State) : Host.Outcome State Fault Refusal :=
  issue (.smul d a b) (perSlice (fun _ => scalar d a b (fun a b => (a * b, sccMul a b)))) s

/-- R159: `sand`. -/
def execSand (d a b : Opd) (s : State) : Host.Outcome State Fault Refusal :=
  issue (.sand d a b) (perSlice (fun _ => scalar d a b (fun a b => nz (a &&& b)))) s

/-- R159: `sor`. -/
def execSor (d a b : Opd) (s : State) : Host.Outcome State Fault Refusal :=
  issue (.sor d a b) (perSlice (fun _ => scalar d a b (fun a b => nz (a ||| b)))) s

/-- R159: `sxor`. -/
def execSxor (d a b : Opd) (s : State) : Host.Outcome State Fault Refusal :=
  issue (.sxor d a b) (perSlice (fun _ => scalar d a b (fun a b => nz (a ^^^ b)))) s

/-- R159: `sshl`. -/
def execSshl (d a b : Opd) (s : State) : Host.Outcome State Fault Refusal :=
  issue (.sshl d a b) (perSlice (fun _ => scalar d a b (fun a b => nz (a <<< shamt b)))) s

/-- R159: `sshr`. -/
def execSshr (d a b : Opd) (s : State) : Host.Outcome State Fault Refusal :=
  issue (.sshr d a b) (perSlice (fun _ => scalar d a b (fun a b => nz (a >>> shamt b)))) s

/-- R159: `ssar`. -/
def execSsar (d a b : Opd) (s : State) : Host.Outcome State Fault Refusal :=
  issue (.ssar d a b) (perSlice (fun _ => scalar d a b (fun a b => nz (a.sshiftRight (shamt b))))) s

/-- R159: `smin`. -/
def execSmin (d a b : Opd) (s : State) : Host.Outcome State Fault Refusal :=
  issue (.smin d a b) (perSlice (fun _ => scalar d a b (fun a b => nz (minI a b)))) s

/-- R159: `smax`. -/
def execSmax (d a b : Opd) (s : State) : Host.Outcome State Fault Refusal :=
  issue (.smax d a b) (perSlice (fun _ => scalar d a b (fun a b => nz (maxI a b)))) s

/-- R159: `snmin`. -/
def execSnmin (d a b : Opd) (s : State) : Host.Outcome State Fault Refusal :=
  issue (.snmin d a b) (perSlice (fun _ => scalar d a b (fun a b => nz (minN a b)))) s

/-- R159: `snmax`. -/
def execSnmax (d a b : Opd) (s : State) : Host.Outcome State Fault Refusal :=
  issue (.snmax d a b) (perSlice (fun _ => scalar d a b (fun a b => nz (maxN a b)))) s

/-- R159: `scmpeq`. -/
def execScmpeq (d a b : Opd) (s : State) : Host.Outcome State Fault Refusal :=
  issue (.scmpeq d a b) (perSlice (fun _ => scalar d a b (fun a b => test (a == b)))) s

/-- R159: `scmplt`. -/
def execScmplt (d a b : Opd) (s : State) : Host.Outcome State Fault Refusal :=
  issue (.scmplt d a b) (perSlice (fun _ => scalar d a b (fun a b => test (a.slt b)))) s

/-- R159: `scmpnlt`. -/
def execScmpnlt (d a b : Opd) (s : State) : Host.Outcome State Fault Refusal :=
  issue (.scmpnlt d a b) (perSlice (fun _ => scalar d a b (fun a b => test (a.ult b)))) s

/-- R160: `saddi`. -/
def execSaddi (d a : Opd) (imm : BitVec 11) (s : State) : Host.Outcome State Fault Refusal :=
  issue (.saddi d a imm) (perSlice (fun _ => scalar d a .zero (fun a _ => nz (a + imm.signExtend 32)))) s

/-! ## CMP (R162 to R164) -/

/-- A compare into a mask: the lanes of the effective mask for which the predicate holds, with FPS (R162). -/
def compare (d a b : Opd) (p : Word → Word → Bool × BitVec 5) (c : Nat) (sl : Slice) : Slice :=
  let r := fun l => p (sl.read c a l) (sl.read c b l)
  let m := maskOf (sl.lanes.filter (fun l => (r l).1))
  { sl.writeS d (BitVec.ofNat 32 m) with
    scc := m != 0, fps := sl.lanes.foldl (fun acc l => acc ||| (r l).2) sl.fps }

/-- A predicate that raises no flag. -/
def plain (p : Word → Word → Bool) (a b : Word) : Bool × BitVec 5 := (p a b, 0)

/-- R163: `feq`. -/
def execFeq (d a b : Opd) (s : State) : Host.Outcome State Fault Refusal :=
  issue (.feq d a b) (perSlice (compare d a b (fpred Fp.eqv false false))) s

/-- R163: `fne`. -/
def execFne (d a b : Opd) (s : State) : Host.Outcome State Fault Refusal :=
  issue (.fne d a b) (perSlice (compare d a b (fpred (fun x y => !x.eqv y) true false))) s

/-- R163: `flt`. -/
def execFlt (d a b : Opd) (s : State) : Host.Outcome State Fault Refusal :=
  issue (.flt d a b) (perSlice (compare d a b (fpred Fp.lt false true))) s

/-- R163: `fle`. -/
def execFle (d a b : Opd) (s : State) : Host.Outcome State Fault Refusal :=
  issue (.fle d a b) (perSlice (compare d a b (fpred (fun x y => !y.lt x) false true))) s

/-- R163: `fgt`. -/
def execFgt (d a b : Opd) (s : State) : Host.Outcome State Fault Refusal :=
  issue (.fgt d a b) (perSlice (compare d a b (fpred (fun x y => y.lt x) false true))) s

/-- R163: `fge`. -/
def execFge (d a b : Opd) (s : State) : Host.Outcome State Fault Refusal :=
  issue (.fge d a b) (perSlice (compare d a b (fpred (fun x y => !x.lt y) false true))) s

/-- R163: `ford`. -/
def execFord (d a b : Opd) (s : State) : Host.Outcome State Fault Refusal :=
  issue (.ford d a b) (perSlice (compare d a b (fpred (fun _ _ => true) false false))) s

/-- R163: `funo`. -/
def execFuno (d a b : Opd) (s : State) : Host.Outcome State Fault Refusal :=
  issue (.funo d a b) (perSlice (compare d a b (fpred (fun _ _ => false) true false))) s

/-- R163: `ieq`. -/
def execIeq (d a b : Opd) (s : State) : Host.Outcome State Fault Refusal :=
  issue (.ieq d a b) (perSlice (compare d a b (plain (fun a b => a == b)))) s

/-- R163: `ine`. -/
def execIne (d a b : Opd) (s : State) : Host.Outcome State Fault Refusal :=
  issue (.ine d a b) (perSlice (compare d a b (plain (fun a b => a != b)))) s

/-- R163: `ilt`. -/
def execIlt (d a b : Opd) (s : State) : Host.Outcome State Fault Refusal :=
  issue (.ilt d a b) (perSlice (compare d a b (plain BitVec.slt))) s

/-- R163: `ile`. -/
def execIle (d a b : Opd) (s : State) : Host.Outcome State Fault Refusal :=
  issue (.ile d a b) (perSlice (compare d a b (plain BitVec.sle))) s

/-- R163: `nlt`. -/
def execNlt (d a b : Opd) (s : State) : Host.Outcome State Fault Refusal :=
  issue (.nlt d a b) (perSlice (compare d a b (plain BitVec.ult))) s

/-- R163: `nle`. -/
def execNle (d a b : Opd) (s : State) : Host.Outcome State Fault Refusal :=
  issue (.nle d a b) (perSlice (compare d a b (plain BitVec.ule))) s

/-- R164: `fcls`. -/
def execFcls (d a b : Opd) (s : State) : Host.Outcome State Fault Refusal :=
  issue (.fcls d a b) (perSlice (compare d a b (plain fclsTest))) s

end Sys2Proof.Machine
end

