-- ==== Sys2Proof/Machine/Task.lean ====
section
/-! DEFINITION. The TASK class: work, continuation records, cancels, counters, barriers, registers on loan and roles,
with the events that serve them (R291 to R314). -/

namespace Sys2Proof.Machine

/-! ## `take` (R293 to R296) -/

/-- The slices whose earlier `take` is not answered are blocked; none when there is no such slice (R296). -/
def takeWaits (p : At) (s : State) : Option State :=
  match s.team? p.team with
  | none => none
  | some t =>
    let held := p.members.filter (fun k => t.gather.any (fun a => a.slice == k) || t.asked.any (fun a => a.slice == k))
    if held.isEmpty then none else some (held.foldl (fun s k => s.blockOn p.team k .takeAgain) s)

/-- The scalar number of an operand. -/
def Opd.sno : Opd → Nat
  | .s n => n.val
  | .v _ | .zero | .exec | .lane | .slice | .bc _ | .role => 0

/-- A slice's arrival in the gather: it attaches to its flag and goes on (R293). -/
def takeOne (d : Opd) (p : At) (k : Nat) (s : State) : State :=
  let s := s.orderPoint p.team k false
  let s := s.setSlice p.team k (fun sl => (sl.attach p.flag).advance)
  s.setTeam p.team (fun t => { t with gather := t.gather ++ [{ slice := k, octet := Opd.sno d, flag := p.flag }] })

/-- R293: `take`. -/
def execTake (d : Opd) (s : State) : Host.Outcome State Fault Refusal :=
  issuePoint (.take d) false takeWaits (fun p s => (eachMember (takeOne d) p s).checkGather p.team) s

/-- Whether a team's gathered request has yet to reach the cox (R293). -/
def State.takeDue (s : State) (u : Nat) : Bool :=
  match s.anyTeam? u with
  | some t => !t.asked.isEmpty && !(((s.launch? t.launch).map (fun x => x.waiters.contains u)).getD true)
  | none => false

/-- R32, R293: a team's request reaches the cox, which serves it or keeps it waiting. -/
def execTakeRequest (team : Nat) (s : State) : Host.Outcome State Fault Refusal :=
  if s.takeDue team then
    match s.anyTeam? team with
    | some t => .next ((s.setLaunch t.launch (fun x => { x with waiters := x.waiters ++ [team] })).kick t.launch)
    | none => .next s
  else .next s

/-! ## Continuation records (R297 to R299) -/

/-- A handle that the launch has not issued: any nonzero one (R297; log 2). -/
def State.newHandle (s : State) (x : Launch) : Nat × State :=
  let base := Config.choice s.nonce
  let s := { s with nonce := s.nonce + 1 }
  match findBelow (x.handles.length + 1) (fun i => !x.handles.contains (1 + (base + i) % (2 ^ 32 - 1))) with
  | some i => (1 + (base + i) % (2 ^ 32 - 1), s)
  | none => (0, s)

/-- Whether `spawn` creates no record (R298). -/
def Launch.spawnFails (x : Launch) (off : Nat) : Bool :=
  off % 4 != 0 || decide (2 ^ 26 ≤ off)
  || decide (1048576 ≤ (x.conts.filter (fun c => c.st == .pending || c.st == .ready)).length)
  || decide (2 ^ 32 - 1 ≤ x.handles.length)

/-- The effect of `spawn` in a slice (R45, R298). -/
def spawnOne (d a : Opd) (p : At) (k : Nat) (s : State) : State :=
  let s := s.orderPoint p.team k false
  match s.team? p.team, s.slice? p.team k with
  | some t, some sl =>
    match s.launch? t.launch with
    | none => s
    | some x =>
      let off := (sl.readS (a.plus 2)).toNat
      let cnt := (sl.readS (a.plus 3)).toNat
      if x.spawnFails off then s.setSlice p.team k (fun sl => { (sl.writeS d 0).advance with scc := false })
      else
        let h := s.newHandle x
        let s := h.2.setSlice p.team k (fun sl => { (sl.writeS d (BitVec.ofNat 32 h.1)).advance with scc := true })
        let st : ContSt := if x.st = .cancelled then .cancelled else if cnt = 0 then .ready else .pending
        let c : Cont := { frame := sl.pair 0 a 0, codeoff := off, count := cnt, handle := h.1, st := st,
                          readyseq := x.opno, takenBy := 0, time := (s.core t.core).clock }
        let s := s.setLaunch x.uid (fun x => { x with handles := x.handles ++ [h.1], opno := x.opno + 1, conts := x.conts ++ [c] })
        if st = .cancelled then s.taskDone x.uid else s.kick x.uid
  | _, _ => s

/-- R298: `spawn`. -/
def execSpawn (d a : Opd) (s : State) : Host.Outcome State Fault Refusal :=
  issuePoint (.spawn d a) false homeWaits (eachMember (spawnOne d a)) s

/-- A record after one decrement of its join count by a core whose clock is at `now`: the record's task follows what precedes it
(R141, R299). -/
def Cont.decrement (c : Cont) (opno now : Nat) : Cont :=
  if c.st = .pending then
    let c := { c with time := max c.time now }
    if c.count ≤ 1 then { c with count := 0, st := .ready, readyseq := opno } else { c with count := c.count - 1 }
  else c

/-- R299: `joinc`. -/
def execJoinc (a : Opd) (s : State) : Host.Outcome State Fault Refusal :=
  issuePoint (.joinc a) false homeWaits (eachMember (fun p k s =>
    let s := (s.orderPoint p.team k false).setSlice p.team k Slice.advance
    match s.team? p.team, s.slice? p.team k with
    | some t, some sl =>
      let h := (sl.readS a).toNat
      ((s.setLaunch t.launch (fun x => { x with
        opno := x.opno + 1, conts := x.conts.map (fun (c : Cont) => if c.handle = h then c.decrement x.opno (s.core t.core).clock else c) })).kick t.launch)
    | _, _ => s)) s

/-! ## Cancelling and counting (R300, R301) -/

/-- The state after a cancel of a level, and whether the unit existed, was not complete and not cancelled (R300). A unit of
the issuing job is one of its address space, as for a CANCEL packet (R448; log 65). -/
def State.cancelLevel (s : State) (t : Team) (level : Nat) (a : Nat) : State × Bool :=
  match level with
  | 0 => s.cancelRecord t.launch a
  | 1 => s.cancelOne t.launch
  | 2 => s.cancelUnit t.part t.asid t.record.job 2 (a % 2 ^ 16)
  | 3 => s.cancelUnit t.part t.asid t.record.job 3 (a % 2 ^ 24)
  | _ => s.cancelUnit t.part t.asid t.record.job 4 0

/-- A `cancel` waits for its arbiter: the cox at level 0, the front end at the others (R34, R300, R439). -/
def cancelWaits (l : BitVec 7) (p : At) (s : State) : Option State := if l = 0 then homeWaits p s else queueWaits p s

/-- R300: `cancel`. -/
def execCancel (a : Opd) (l : BitVec 7) (s : State) : Host.Outcome State Fault Refusal :=
  issueWith (.cancel a l) (cancelWaits l) (fun p s => eachMember (fun p k s =>
    match s.team? p.team, s.slice? p.team k with
    | some t, some sl =>
      let r := s.cancelLevel t l.toNat (sl.readS a).toNat
      r.1.setSlice p.team k (fun sl => { sl.advance with scc := r.2 })
    | _, _ => s) p (s.leaveQueue p)) s

/-- The counter of a level within a launch's enclosing units (R301). -/
def State.levelCounter (s : State) (x : Launch) (level : Nat) : Dword :=
  match level with
  | 0 => x.tasks
  | _ =>
    let k := x.counterKey level
    s.counter x.part level k.1 k.2.1 k.2.2

/-- R301: `ctr`. -/
def execCtr (d : Opd) (l : BitVec 7) (s : State) : Host.Outcome State Fault Refusal :=
  issue (.ctr d l) (fun p s =>
    match (s.team? p.team).bind (fun t => s.launch? t.launch) with
    | none => s.advanceAll p
    | some x =>
      let v := (s.levelCounter x l.toNat).toNat
      s.setTeam p.team (fun t => t.onMembers p.members (fun sl => (sl.writePair d v).advance))) s

/-! ## Team barriers (R302 to R305) -/

/-- A barrier after one arrival; the generation joined is the COMP it had (R303). -/
def Barrier.arrive (b : Barrier) (k : Nat) (counted : Bool) (expected : Nat) : Barrier :=
  let b := if b.isOpen then b
    else { b with isOpen := true, counted := counted, expected := BitVec.ofNat 12 expected, arrived := 0, came := [] }
  { b with arrived := b.arrived + 1, came := insertNat k b.came }

/-- The issue of a barrier word: a number at or above BARS traps (R302). -/
def issueBar (i : Instr) (n : Nat) (f : At → Nat → State → State) (s : State) : Host.Outcome State Fault Refusal :=
  issuePoint i false (fun _ _ => none) (fun p s =>
    (eachMember (fun p k s =>
      match s.team? p.team with
      | none => s
      | some t => if t.bars.length ≤ n then s.trapWord p k 0x07 0 else f p k (s.orderPoint p.team k false)) p s).collect p) s

/-- R304: `bar.sync`. -/
def execBarSync (b : BitVec 7) (s : State) : Host.Outcome State Fault Refusal :=
  issueBar (.barSync b) b.toNat (fun p k s =>
    match s.team? p.team with
    | none => s
    | some t =>
      let g := (t.bar b.toNat).comp
      ((s.setBar p.team b.toNat (fun x => x.arrive k false t.live.length)).setSlice p.team k (fun sl =>
        { sl with block := .barrier b.toNat g })).checkBar p.team b.toNat) s

/-- R304: `bar.arr`. -/
def execBarArr (d a : Opd) (b : BitVec 7) (s : State) : Host.Outcome State Fault Refusal :=
  issueBar (.barArr d a b) b.toNat (fun p k s =>
    match s.team? p.team, s.slice? p.team k with
    | some t, some sl =>
      let cnt := (sl.readS a).toNat
      if cnt = 0 ∨ 4095 < cnt then s.trapWord p k 0x07 0
      else
        let g := (t.bar b.toNat).comp
        ((s.setSlice p.team k (fun sl => (sl.writeS d (g.setWidth 32)).advance)).setBar p.team b.toNat
          (fun x => x.arrive k true cnt)).checkBar p.team b.toNat
    | _, _ => s) s

/-- R304: `bar.wait`. -/
def execBarWait (a : Opd) (b : BitVec 7) (s : State) : Host.Outcome State Fault Refusal :=
  issueBar (.barWait a b) b.toNat (fun p k s =>
    match s.team? p.team, s.slice? p.team k with
    | some t, some sl =>
      let g := (sl.readS a).setWidth 16
      if (t.bar b.toNat).passed g then s.passOn p.team k (some (b.toNat, g))
      else s.setSlice p.team k (fun sl => { sl with block := .barrier b.toNat g })
    | _, _ => s) s

/-! ## Barrier words (R306) -/

/-- The access of a slice to a barrier word. -/
def barAcc (p : At) (sl : Slice) (a : Opd) (kind : AccKind) : Acc where
  kind := kind
  order := .ord
  lanes := [0]
  uniform := false
  ea := sl.pair 0 a 0
  size := 16
  align := 16
  loc := false
  data := 0
  dst := []
  hdr := p.hdr
  ix := p.ix
  flag := none
  sup := sl.mode == .supervisor
  comb := false

/-- The checks of R219 on a barrier word, with the walk made at once. -/
def State.barAttempt (s : State) (t : Team) (a : Acc) : State × Att :=
  match s.attempt t a with
  | .miss =>
    let r := s.translate t.part t.core t.asid a.ea a.need a.sup s.curBad
    match r.2 with
    | some (.error c) => (r.1, .fault c a.ea)
    | some (.ok _) | none => (r.1, r.1.attempt t a)
  | x => (s, x)

/-- The barrier-word fault: the address goes to the record of lane 0 (R306, R332). -/
def State.barFault (s : State) (p : At) (k : Nat) (a : Acc) (cause va : Nat) : State :=
  (s.setSlice p.team k (fun sl => { sl with
    recs := { lane := 0, cause := cause, va := va, acc := { a with kind := .barWord } } :: sl.recs.filter (fun r => r.lane != 0) })).trapWord
    p k 0x08 0

/-- The events of some slices of one core at a barrier word, one after another: the sectors and times (R137). -/
def barTimes (s : State) (wrote : Bool) (core : Nat) (l : List (List Piece)) : List (Nat × Nat) :=
  s.timesFrom wrote (s.core core).clock (l.flatMap (fun ps => (ps.filter Piece.event).map (fun p => p.pa)))

/-- The slices of a sub-crew stall when a barrier word's page waits for the host, or the ceiling or a full capture buffer bars an
event of theirs (R137, R306, R369, R403). -/
def barStalls (a : Opd) (kind : AccKind) (skip : Slice → Bool) (p : At) (s : State) : Option State :=
  match s.team? p.team with
  | none => none
  | some t =>
    if !t.record.coresid then none
    else
      let r := p.members.foldl (fun (acc : State × Bool × List (List Piece)) k =>
        match t.slice? k with
        | some sl =>
          if skip sl then acc
          else
            let y := acc.1.barAttempt t (barAcc p sl a kind)
            (y.1, acc.2.1 || y.2 == .miss, acc.2.2 ++ (match y.2 with
              | .go ps => [ps]
              | .miss | .fault _ _ => []))
        | none => acc) (s, false, [])
      let writes := kind == .barWord
      let l := barTimes r.1 writes t.core r.2.2
      if r.2.1 || r.1.pastCeiling t.core l || (writes && l.any (fun x => r.1.captureFull x.1 x.2)) then
        some (r.1.stall p.team (p.members.headD 0))
      else none

/-- The word of 16 bytes after one arrival with a count: ARRIVED, EXPECTED, GEN (R306). -/
def barWordArrive (v cnt : Nat) : Nat :=
  let arrived := v % 2 ^ 32
  let expected := if arrived = 0 then cnt else (v >>> 32) % 2 ^ 32
  let gen := (v >>> 64) % 2 ^ 32
  let n := (arrived + 1) % 2 ^ 32
  let full := decide (expected ≤ arrived + 1)
  (if full then 0 else n) + expected <<< 32 + (if full then (gen + 1) % 2 ^ 32 else gen) <<< 64 + (v >>> 96) <<< 96

/-- Whether generation `g` of a barrier word that holds GEN `gen` has completed (R306). -/
def barWordPassed (gen g : Word) : Bool := decide (1 ≤ (gen - g).toNat) && decide ((gen - g).toNat ≤ 2 ^ 31)

/-- The effect of `bar.arr.g` in a slice (R306). BARS does not bar it: its barrier is no team barrier of R302 but a word of memory
(DEDUCED, log 71). -/
def barArrOne (d a b : Opd) (p : At) (k : Nat) (s : State) : State :=
  match s.team? p.team, s.slice? p.team k with
  | some t, some sl =>
    let cnt := (sl.readS b).toNat
    if !t.record.coresid || cnt == 0 then s.trapWord p k 0x07 0
    else
      let x := barAcc p sl a .barWord
      let r := s.barAttempt t x
      match r.2 with
      | .miss => r.1
      | .fault c va => r.1.barFault p k x c va
      | .go ps =>
        let s := r.1.orderPoint p.team k false
        match ps with
        | [] => s
        | q :: _ =>
          let c := s.askPeers .atomic 0 cnt ps
          let s := c.1
          let v := s.mem.nat q.pa 16
          if !c.2 then s.barFault p k x 0x14 x.ea
          else if s.poisoned q.pa 16 then s.barFault p k x 0x18 x.ea
          else
            let s := s.evWrite (x.who t k) q.pa 16 (barWordArrive v cnt) true
            let s := s.touch t.core t.asid q.va q.pa q.leaf true
            s.setSlice p.team k (fun sl => (sl.writeS d (BitVec.ofNat 32 (v >>> 64))).advance)
  | _, _ => s

/-- R306: `bar.arr.g`. -/
def execBarArrG (d a b : Opd) (s : State) : Host.Outcome State Fault Refusal :=
  issuePoint (.barArrG d a b) false (barStalls a .barWord (fun sl => sl.readS b == 0)) (eachMember (barArrOne d a b)) s

/-- A read of GEN of a barrier word by a slice, which passes or goes on waiting; a read that would pass the ceiling waits
(R137, R306). -/
def State.barRead (s : State) (p : At) (t : Team) (k : Nat) (x : Acc) (g : Word) : State :=
  let r := s.barAttempt t x
  let fails := fun (s : State) (c va : Nat) => (s.setSlice p.team k (fun sl => { sl with block := .none })).barFault p k x c va
  match r.2 with
  | .miss => r.1
  | .fault c va => fails r.1 c va
  | .go ps =>
    if r.1.overCeiling t k x ps then r.1
    else
      let c := r.1.askPeers .load 0 0 ps
      let v := c.1.readPieces (x.who t k) t.asid true ps 0
      if !c.2 then fails c.1 0x14 x.ea
      else if v.2.2 then fails v.1 0x18 x.ea
      else
        let gen := BitVec.ofNat 32 (v.2.1 >>> 64)
        if barWordPassed gen g then v.1.passOn p.team k none
        else v.1.setSlice p.team k (fun sl => { sl with block := .barWord x.ea g gen })

/-- R306: `bar.wait.g`. -/
def execBarWaitG (a b : Opd) (s : State) : Host.Outcome State Fault Refusal :=
  issuePoint (.barWaitG a b) false (barStalls a (.load false) (fun _ => false)) (fun p s =>
    (eachMember (fun p k s =>
      match s.team? p.team, s.slice? p.team k with
      | some t, some sl =>
        if !t.record.coresid then s.trapWord p k 0x07 0
        else (s.orderPoint p.team k false).barRead p t k (barAcc p sl a (.load false)) (sl.readS b)
      | _, _ => s) p s).collect p) s

/-- R306: a slice that waits at a barrier word reads it again. A slice that takes the barrier-word fault leaves its
sub-crew, and the rest, when all are done, goes on (R292). -/
def execBarrierWordRecheck (team slice : Nat) (s : State) : Host.Outcome State Fault Refusal :=
  match s.team? team, s.slice? team slice with
  | some t, some sl =>
    match sl.block with
    | .barWord va g _ =>
      let p : At := { team := team, members := [slice], hdr := sl.hdr, ix := sl.ix, flag := none, energy := t.energy, esat := t.esat }
      .next ((s.barRead p t slice { barAcc p sl .zero (.load false) with ea := va } g).settleWaits team)
    | .none | .flags _ | .barrier _ _ | .claim | .join _ | .takeAgain | .passed _ | .ending | .roleDrain => .next s
  | _, _ => .next s

/-! ## Registers on loan (R307 to R311) -/

/-- R308: `give`. -/
def execGive (n : BitVec 7) (s : State) : Host.Outcome State Fault Refusal :=
  issue (.give n) (fun p s =>
    (eachMember (fun p k s =>
      match s.slice? p.team k with
      | none => s
      | some sl =>
        if sl.alloc ≤ n.toNat ∨ 8 * (sl.alloc - n.toNat) ≤ sl.wb then s.trapWord p k 0x03 0
        else
          let s := s.setSlice p.team k (fun sl => { sl.advance with alloc := sl.alloc - n.toNat })
          let s := s.setTeam p.team (fun t => { t with pool := t.pool + n.toNat })
          s.serveClaims p.team (((s.team? p.team).map (fun t => t.claims.length)).getD 0)) p s)) s

/-- R309: `claim`. -/
def execClaim (n : BitVec 7) (s : State) : Host.Outcome State Fault Refusal :=
  issue (.claim n) (fun p s =>
    let fails := fun (k : Nat) => ((s.slice? p.team k).map (fun sl => decide (64 - sl.alloc < n.toNat))).getD true
    let s' := ((p.members.filter fails).foldl (fun s k => s.trapWord p k 0x03 0) s).regroup p.team
    let ms := p.members.filter (fun k => !fails k)
    match ms with
    | [] => s'
    | _ =>
      let s' := ms.foldl (fun s k => s.setSlice p.team k (fun sl => { sl with block := .claim })) s'
      let first := ((s'.team? p.team).map (fun t => t.claims.isEmpty)).getD false
      let s' := { s'.setTeam p.team (fun t => { t with
        claims := t.claims ++ [{ seq := s'.fresh, members := ms, n := n.toNat }] }) with fresh := s'.fresh + 1 }
      let s' := if first then s'.serveClaims p.team 1 else s'
      ms.foldl (fun s k =>
        match s.slice? p.team k with
        | some sl => if sl.block = .none then s else s.blockOn p.team k sl.block
        | none => s) s') s

/-! ## Roles (R312) -/

/-- The entry of a role; none for a number the table does not hold (R85, R312). -/
def Team.role? (t : Team) (r : Nat) : Option RoleEnt :=
  if t.record.roletab = 0 then
    if r = 0 then some { entry := t.record.entry, cls := 2, wbblk := 0, count := 0, first := 0 } else none
  else if r ≤ t.record.nroles then t.roles[r]? else none

/-- The drain of `role`: the slices with a flag above zero wait; a role number that traps does not (R312). The sub-crew
also stalls while the translation of a target waits for the host (R170). -/
def roleDrains (a : Opd) (p : At) (s : State) : Option State :=
  match s.team? p.team with
  | none => none
  | some t =>
    let waits := p.members.filter (fun k => match t.slice? k with
      | some sl => (t.role? (sl.readS a).toNat).isSome && !sl.flagsZero (BitVec.allOnes 12)
      | none => false)
    if waits.isEmpty then
      targetWaits (fun _ _ t sl => (t.role? (sl.readS a).toNat).map (fun e => t.record.codebase + e.entry)) p s
    else some (waits.foldl (fun s k => s.blockOn p.team k .roleDrain) s)

/-- The effect of `role` in a slice (R312). -/
def roleOne (a : Opd) (p : At) (k : Nat) (s : State) : State :=
  match s.team? p.team, s.slice? p.team k with
  | some t, some sl =>
    let r := (sl.readS a).toNat
    match t.role? r with
    | none => s.trapWord p k 0x07 0
    | some e =>
      if sl.alloc ≤ e.wbblk then s.trapWord p k 0x03 0
      else
        let s := s.orderPoint p.team k false
        let s' := s.transfer p k (t.record.codebase + e.entry) (fun sl =>
          { sl with role := r, wb := 8 * e.wbblk, cls := e.cls, roleCls := e.cls })
        let moved := ((s'.slice? p.team k).map (fun x => x.role == r && x.hdr == e.entry && !x.opened && x.mode == .user)).getD false
        if moved then s'.discardJoins p.team k 0 p.members else s'
  | _, _ => s

/-- R312: `role`. -/
def execRoleW (a : Opd) (s : State) : Host.Outcome State Fault Refusal :=
  issuePoint (.roleW a) false (roleDrains a) (eachMember (roleOne a)) s

end Sys2Proof.Machine
end

