-- ==== Sys2Proof/Machine/Trn.lean ====
section
/-! DEFINITION. The transcendental functions (R118, R119). `sqrt` is exact. For the others the device's result is the
free value `Config.trn`, taken when it lies within the bound of R118 and replaced by the nearest value when it does
not (log 10). -/

namespace Sys2Proof.Machine

/-! ## Fixed point -/

/-- ⌊√n⌋, bit by bit from bit `k - 1` down. -/
def isqrtFrom : Nat → Nat → Nat → Nat
  | 0, _, r => r
  | k + 1, n, r =>
    let t := r + 1 <<< k
    if t * t ≤ n then isqrtFrom k n t else isqrtFrom k n r

/-- The square root of `m × 2^e`, with a last bit that says whether more follows. -/
def sqrtNum (m : Nat) (e : Int) : Nat × Int :=
  let odd := e.emod 2 = 1
  let m := if odd then 2 * m else m
  let e := if odd then e - 1 else e
  let n := m <<< 64
  let r := isqrtFrom 48 n 0
  (2 * r + (if r * r = n then 0 else 1), (e - 64) / 2 - 1)

/-- Fraction bits of the fixed-point approximations. -/
def fxP : Nat := 120

/-- π × 2^120. -/
def fxPi : Nat := 0x3243f6a8885a308d313198a2e037073

/-- ln 2 × 2^120. -/
def fxLn2 : Nat := 0xb17217f7d1cf79abc9e3b39803f2f6

/-- Product of two fixed-point numbers. -/
def fxMul (a b : Nat) : Nat := (a * b) >>> fxP

/-- `Σ t^n / n!` over `n` steps, by Horner's rule from the last term. -/
def fxExp (t : Nat) : Nat → Nat → Nat
  | 0, _ => 1 <<< fxP
  | k + 1, i => (1 <<< fxP) + fxMul t (fxExp t k (i + 1)) / i

/-- `2^f` for a fraction `f` in fixed point, `0 ≤ f < 1`. -/
def fxExp2 (f : Nat) : Nat := fxExp (fxMul f fxLn2) 40 1

/-- The fraction bits of `log2 x`, most significant first, for `1 ≤ x < 2` in fixed point. -/
def fxLog2 : Nat → Nat → Nat → Nat
  | 0, _, acc => acc
  | k + 1, x, acc =>
    let y := (x * x) >>> fxP
    if y < 2 <<< fxP then fxLog2 k y (2 * acc) else fxLog2 k (y >>> 1) (2 * acc + 1)

/-- `Σ (−1)^n t^(2n) / (2n + 1)!`, by Horner's rule: `sin t / t`. -/
def fxSinc (t2 : Nat) : Nat → Nat → Nat
  | 0, _ => 1 <<< fxP
  | k + 1, i => (1 <<< fxP) - fxMul t2 (fxSinc t2 k (i + 2)) / (i * (i + 1))

/-! ## Approximations of the exact results

Each is `m` and `e` with the exact result between `m × 2^e` and `(m + 1) × 2^e`, as far as a bound of R118 can tell: near a
number of the format it is on the right side of it. -/

/-- A result just above, or just below, `m × 2^e`. -/
def justBy (above : Bool) (m : Nat) (e : Int) : Nat × Int := (if above then m <<< 80 else (m <<< 80) - 1, e - 80)

/-- `2^v` for `v = ± m × 2^e` of moderate size. -/
def approxExp2 (neg : Bool) (m : Nat) (e : Int) : Nat × Int :=
  if (m.log2 : Int) + e < -84 then justBy (!neg) 1 0
  else
    -- v in fixed point, rounded down
    let s := e + fxP
    let mag : Nat := if 0 ≤ s then m <<< s.toNat else m >>> (-s).toNat
    let v : Int := if neg then -(mag : Int) else mag
    let q := v.ediv (2 ^ fxP)
    (fxExp2 (v.emod (2 ^ fxP)).toNat, q - fxP)

/-- `log2 x` for `x = m × 2^e` not a power of two: sign, mantissa, exponent. -/
def approxLog2 (m : Nat) (e : Int) : Bool × Nat × Int :=
  let l := m.log2
  let x := m <<< (fxP - l)
  let n : Int := (l : Int) + e
  let frac := fxLog2 90 x 0
  let v : Int := n * 2 ^ 90 + frac
  (decide (v < 0), if v < 0 then v.natAbs - 1 else v.natAbs, -90)

/-- `sin (π v)` for `v = m × 2^e`, `0 ≤ v ≤ 1/2`. -/
def approxSin (m : Nat) (e : Int) : Nat × Int :=
  -- π v = (m × π) × 2^(e − 120)
  let a := m * fxPi
  let s := e
  let t : Nat := if 0 ≤ s then a <<< s.toNat else a >>> (-s).toNat
  (a * fxSinc (fxMul t t) 24 2, e - fxP - fxP)

/-- `tanh v` for `v = m × 2^e > 0`. -/
def approxTanh (m : Nat) (e : Int) : Nat × Int :=
  let top := (m.log2 : Int) + e
  if top < -54 then justBy false m e
  else if top < -12 then
    -- v (1 − v²/3 + 2 v⁴/15)
    let s := e + fxP
    let t : Nat := if 0 ≤ s then m <<< s.toNat else m >>> (-s).toNat
    let t2 := fxMul t t
    (m * ((1 <<< fxP) - t2 / 3 + 2 * fxMul t2 t2 / 15), e - fxP)
  else if 5 ≤ top then ((1 <<< 80) - 1, -80)
  else
    -- (E − 1) / (E + 1) with E = e^(2v) = 2^(2 v / ln 2)
    let v2 := ((2 * m) <<< 150) * (1 <<< fxP) / fxLn2
    let ex := approxExp2 false v2 (e - 150)
    let s := ex.2 + fxP
    let big : Nat := if 0 ≤ s then ex.1 <<< s.toNat else ex.1 >>> (-s).toNat
    (((big - 1 <<< fxP) <<< fxP) / (big + 1 <<< fxP), -(fxP : Int))

/-! ## Results -/

/-- Whether a binary32 code lies within `b` ulp of an exact result `± y`, `y` between `m × 2^e` and `(m + 1) × 2^e`; ulp as R118
measures it, from the exact result. `abs` gives an absolute bound of 2^−22 instead. -/
def withinUlp (c : Nat) (b : Nat) (abs : Bool) (neg : Bool) (m : Nat) (e : Int) : Bool :=
  match f32.decode c with
  | .nan _ | .inf _ => false
  | .num cn cm ce =>
    let unit : Int := if abs then -22 else max ((m.log2 : Int) + e) (-126) - 23
    let k := if abs then 1 else b
    let lo := min (min ce (e - 1)) unit
    let d := scaled cn cm ce lo - scaled neg (2 * m + 1) (e - 1) lo
    decide (d.natAbs ≤ k <<< (unit - lo).toNat)

/-- A free result within the bound, or where `Config.trn` has none the nearest value, with the flags of an inexact result
(R118, R119). A result past the largest finite number is bounded as any other, and beyond the bound's reach it is infinite,
with OF and NX (DESIGN CHOICE, log 10: R118 states no result for it). -/
def trnPick (fn : Nat) (x : Nat) (b : Nat) (abs : Bool) (neg : Bool) (m : Nat) (e : Int) : Nat × BitVec 5 :=
  let near := f32.roundNum .rne neg (2 * m + 1) (e - 1)
  let c := Config.trn fn (BitVec.ofNat 32 x) % 2 ^ 32
  if withinUlp c b abs neg m e then
    (c, if bits c 30 23 = 0 then flagUF ||| flagNX else flagNX)
  else near

/-- The result for a NaN input (R118). -/
def trnNan (s : Bool) : Nat × BitVec 5 := (f32.nanCode, if s then flagNV else 0)

/-- Whether a mantissa is a power of two, and the exponent of the value then. -/
def powerOf (m : Nat) (e : Int) : Option Int := if m = 1 <<< m.log2 then some ((m.log2 : Int) + e) else none

/-- `rcp` of ±2^`k` for `k` below −127: past the largest finite number. The two largest finite numbers lie within one ulp of
2^128, and the result is free among them and infinity (R118; DESIGN CHOICE, log 10). -/
def trnRcpBig (x : Nat) (n : Bool) (k : Int) : Nat × BitVec 5 :=
  let c := Config.trn 0 (BitVec.ofNat 32 x) % 2 ^ 32
  if k = -128 ∧ (c = f32.signCode n + 0x7F7FFFFE ∨ c = f32.signCode n + 0x7F7FFFFF) then (c, flagNX)
  else f32.roundNum .rne n 1 (-k)

/-- `rcp` (R118). The reciprocal of a power of two below 2^−127 is past the largest finite number, and inexact; so is that of
the other subnormals below 2^−128 (log 10). -/
def trnRcp (x : Nat) : Nat × BitVec 5 :=
  match f32.decode x with
  | .nan s => trnNan s
  | .inf n => (f32.signCode n, 0)
  | .num n m e =>
    if m = 0 then (f32.signCode n + f32.infCode, flagDZ)
    else match powerOf m e with
      | some k =>
        if -127 ≤ k then f32.roundNum .rne n 1 (-k)
        else trnRcpBig x n k
      | none => trnPick 0 x 1 false n ((1 <<< 120) / m) (-e - 120)

/-- `rsq` (R118). -/
def trnRsq (x : Nat) : Nat × BitVec 5 :=
  match f32.decode x with
  | .nan s => trnNan s
  | .inf n => if n then f32.invalid else (0, 0)
  | .num n m e =>
    if m = 0 then (f32.signCode n + f32.infCode, flagDZ)
    else if n then f32.invalid
    else
      let pick := fun (_ : Unit) =>
        let odd := e.emod 2 = 1
        let m' := if odd then 2 * m else m
        let e' := if odd then e - 1 else e
        trnPick 1 x 1 false false (isqrtFrom 100 ((1 <<< 200) / m') 0) (-(e' / 2) - 100)
      match powerOf m e with
      | some k => if k.emod 2 = 0 then f32.roundNum .rne false 1 (-(k / 2)) else pick ()
      | none => pick ()

/-- `sqrt` (R118). -/
def trnSqrt (rm : Rm) (x : Nat) : Nat × BitVec 5 :=
  match f32.decode x with
  | .nan s => trnNan s
  | .inf n => if n then f32.invalid else (x, 0)
  | .num n m e =>
    if m = 0 then (x, 0)
    else if n then f32.invalid
    else
      let r := sqrtNum m e
      f32.roundNum rm false r.1 r.2

/-- `exp2` (R118). At −150 exactly the result is half the least subnormal, inexact, and free within its bound. -/
def trnExp2 (x : Nat) : Nat × BitVec 5 :=
  match f32.decode x with
  | .nan s => trnNan s
  | .inf n => (if n then 0 else f32.infCode, 0)
  | .num n m e =>
    if m = 0 then (f32.roundNum .rne false 1 0)
    else
      let s := (m.log2 : Int) + e
      let int := fun (k : Nat) => if n then -(k : Int) else (k : Int)
      if 8 ≤ s then (if n then (0, flagUF ||| flagNX) else (f32.infCode, flagOF ||| flagNX))
      else
        let whole := roundInt .rtz n m e
        if whole.2 then
          -- an integer
          if 128 ≤ int whole.1 then (f32.infCode, flagOF ||| flagNX)
          else if int whole.1 < -150 then (0, flagUF ||| flagNX)
          else if int whole.1 = -150 then
            let y := justBy true 1 (-150)
            trnPick 3 x 2 false false y.1 y.2
          else f32.roundNum .rne false 1 (int whole.1)
        else if !n && 128 ≤ whole.1 then (f32.infCode, flagOF ||| flagNX)
        else if n && 150 ≤ whole.1 then (0, flagUF ||| flagNX)
        else
          let y := approxExp2 n m e
          trnPick 3 x 2 false false y.1 y.2

/-- `log2` (R118). -/
def trnLog2 (x : Nat) : Nat × BitVec 5 :=
  match f32.decode x with
  | .nan s => trnNan s
  | .inf n => if n then f32.invalid else (x, 0)
  | .num n m e =>
    if m = 0 then (f32.signCode true + f32.infCode, flagDZ)
    else if n then f32.invalid
    else match powerOf m e with
      | some k => f32.roundNum .rne (decide (k < 0)) k.natAbs 0
      | none =>
        let y := approxLog2 m e
        let near := 0x3f000000 ≤ x && x ≤ 0x40000000
        trnPick 4 x 2 near y.1 y.2.1 y.2.2

/-- `|v| mod 2` for `v = m × 2^e`, over the denominator `2^(−e)` when `e < 0`: `none` for an even integer part with
nothing after it, else the numerator and `−e`. -/
def mod2 (m : Nat) (e : Int) : Nat × Nat :=
  if 1 ≤ e then (0, 0) else (m % (1 <<< ((-e).toNat + 1)), (-e).toNat)

/-- `sin (π r)` for `r = a / 2^d` in `[0, 2)`: zero, ±1, or the sign and an argument in `(0, 1/2)`. -/
def sinFold (a d : Nat) : Bool × Nat :=
  let one := 1 <<< d
  let neg := decide (one ≤ a)
  let b := if one ≤ a then a - one else a
  (neg, if one < 2 * b then one - b else b)

/-- `sinpi` (R118). -/
def trnSinpi (x : Nat) : Nat × BitVec 5 :=
  match f32.decode x with
  | .nan s => trnNan s
  | .inf _ => f32.invalid
  | .num n m e =>
    let r := mod2 m e
    let f := sinFold r.1 r.2
    if r.1 % (1 <<< r.2) = 0 then (f32.signCode n, 0)
    else if 2 * f.2 = 1 <<< r.2 then (f32.roundNum .rne (n != f.1) 1 0)
    else
      let y := approxSin f.2 (-(r.2 : Int))
      trnPick 5 x 2 false (n != f.1) y.1 y.2

/-- `cospi` (R118): `cos (π v) = sin (π (v + 1/2))`. -/
def trnCospi (x : Nat) : Nat × BitVec 5 :=
  match f32.decode x with
  | .nan s => trnNan s
  | .inf _ => f32.invalid
  | .num _ m e =>
    let r0 := mod2 m e
    -- a denominator of at least 2, so that 1/2 has a numerator
    let r := if r0.2 = 0 then (2 * r0.1, 1) else r0
    let a := (r.1 + 1 <<< (r.2 - 1)) % (1 <<< (r.2 + 1))
    let f := sinFold a r.2
    if a % (1 <<< r.2) = 0 then (0, 0)
    else if 2 * f.2 = 1 <<< r.2 then f32.roundNum .rne f.1 1 0
    else
      let y := if (m.log2 : Int) + e < -50 then justBy false 1 0 else approxSin f.2 (-(r.2 : Int))
      trnPick 6 x 2 false f.1 y.1 y.2

/-- `tanh` (R118). -/
def trnTanh (x : Nat) : Nat × BitVec 5 :=
  match f32.decode x with
  | .nan s => trnNan s
  | .inf n => f32.roundNum .rne n 1 0
  | .num n m e =>
    if m = 0 then (x, 0)
    else
      let y := approxTanh m e
      trnPick 7 x 2 false n y.1 y.2

end Sys2Proof.Machine
end

