-- ==== Sys2Proof/Machine/VectorFloat.lean ====
section
/-! DEFINITION. The vector floating-point classes FALU, HALU, CVT and TRN (R199 to R209). -/

namespace Sys2Proof.Machine

/-- A lane-by-lane function of A, B and the prior D whose flags go to FPS (R95, R189); it is given FPC. -/
def vecF (d a b : Opd) (f : BitVec 4 → Nat → Nat → Nat → Nat × BitVec 5) (c : Nat) (sl : Slice) : Slice :=
  sl.vmapF d (fun l => f sl.fpc (sl.read c a l).toNat (sl.read c b l).toNat (sl.read c d l).toNat)

/-! ## FALU (R199 to R203) -/

/-- A function of the magnitude and sign of one number: a NaN gives the default NaN (R200). -/
def signOp (a : Nat) (r : Nat) : Nat × BitVec 5 :=
  match f32.decode a with
  | .nan s => (f32.nanCode, if s then flagNV else 0)
  | .inf _ | .num _ _ _ => (r, 0)

/-- R200: `fadd.f32`. -/
def execFaddF32 (d a b : Opd) (s : State) : Host.Outcome State Fault Refusal :=
  issue (.faddF32 d a b) (perSlice (vecF d a b (fun f a b _ => f32.add (rmOf f) (f32.decode a) (f32.decode b)))) s

/-- R200: `fsub.f32`. -/
def execFsubF32 (d a b : Opd) (s : State) : Host.Outcome State Fault Refusal :=
  issue (.fsubF32 d a b) (perSlice (vecF d a b (fun f a b _ => f32.add (rmOf f) (f32.decode a) (f32.decode b).neg))) s

/-- R200: `fmul.f32`. -/
def execFmulF32 (d a b : Opd) (s : State) : Host.Outcome State Fault Refusal :=
  issue (.fmulF32 d a b) (perSlice (vecF d a b (fun f a b _ => f32.mul (rmOf f) (f32.decode a) (f32.decode b)))) s

/-- R200: `fma.f32`. -/
def execFmaF32 (d a b : Opd) (s : State) : Host.Outcome State Fault Refusal :=
  issue (.fmaF32 d a b) (perSlice (vecF d a b (fun f a b d => f32.fma (rmOf f) (f32.decode a) (f32.decode b) (f32.decode d)))) s

/-- R200: `fms.f32`. -/
def execFmsF32 (d a b : Opd) (s : State) : Host.Outcome State Fault Refusal :=
  issue (.fmsF32 d a b) (perSlice (vecF d a b (fun f a b d => f32.fma (rmOf f) (f32.decode a) (f32.decode b) (f32.decode d).neg))) s

/-- R200: `fnma.f32`. -/
def execFnmaF32 (d a b : Opd) (s : State) : Host.Outcome State Fault Refusal :=
  issue (.fnmaF32 d a b) (perSlice (vecF d a b (fun f a b d => f32.fma (rmOf f) (f32.decode a).neg (f32.decode b) (f32.decode d)))) s

/-- R201: `fmin.f32`. -/
def execFminF32 (d a b : Opd) (s : State) : Host.Outcome State Fault Refusal :=
  issue (.fminF32 d a b) (perSlice (vecF d a b (fun _ a b _ => f32.minmax false a b))) s

/-- R201: `fmax.f32`. -/
def execFmaxF32 (d a b : Opd) (s : State) : Host.Outcome State Fault Refusal :=
  issue (.fmaxF32 d a b) (perSlice (vecF d a b (fun _ a b _ => f32.minmax true a b))) s

/-- R200: `fabs.f32`. -/
def execFabsF32 (d a : Opd) (s : State) : Host.Outcome State Fault Refusal :=
  issue (.fabsF32 d a) (perSlice (vecF d a .zero (fun _ a _ _ => signOp a (a % 2 ^ 31)))) s

/-- R200: `fneg.f32`. -/
def execFnegF32 (d a : Opd) (s : State) : Host.Outcome State Fault Refusal :=
  issue (.fnegF32 d a) (perSlice (vecF d a .zero (fun _ a _ _ => signOp a (a ^^^ 2 ^ 31)))) s

/-- R200: `fcps.f32`. -/
def execFcpsF32 (d a b : Opd) (s : State) : Host.Outcome State Fault Refusal :=
  issue (.fcpsF32 d a b) (perSlice (vecF d a b (fun _ a b _ => signOp a (a % 2 ^ 31 + b / 2 ^ 31 * 2 ^ 31)))) s

/-- R202: `ffloor.f32`. -/
def execFfloorF32 (d a : Opd) (s : State) : Host.Outcome State Fault Refusal :=
  issue (.ffloorF32 d a) (perSlice (vecF d a .zero (fun _ a _ _ => roundIntegral .rdn false a))) s

/-- R202: `fceil.f32`. -/
def execFceilF32 (d a : Opd) (s : State) : Host.Outcome State Fault Refusal :=
  issue (.fceilF32 d a) (perSlice (vecF d a .zero (fun _ a _ _ => roundIntegral .rup false a))) s

/-- R202: `ftrunc.f32`. -/
def execFtruncF32 (d a : Opd) (s : State) : Host.Outcome State Fault Refusal :=
  issue (.ftruncF32 d a) (perSlice (vecF d a .zero (fun _ a _ _ => roundIntegral .rtz false a))) s

/-- R202: `frint.f32`. -/
def execFrintF32 (d a : Opd) (s : State) : Host.Outcome State Fault Refusal :=
  issue (.frintF32 d a) (perSlice (vecF d a .zero (fun f a _ _ => roundIntegral (rmOf f) true a))) s

/-- R203: `fclass.f32`. -/
def execFclassF32 (d a : Opd) (s : State) : Host.Outcome State Fault Refusal :=
  issue (.fclassF32 d a) (perSlice (vecF d a .zero (fun _ a _ _ => (f32.classOf a, 0)))) s

/-! ## HALU (R204, R205) -/

/-- Whether subnormals of a 16-bit format are flushed: FPC.BFZ or FPC.HFZ (R56, R91). -/
def flushes (fm : Fmt) (fpc : BitVec 4) : Bool := if fm = bf16 then fpc.getLsbD 2 else fpc.getLsbD 3

/-- A function on one half, with its inputs and its result flushed (R91, R204). -/
def onHalf (fm : Fmt) (f : BitVec 4) (op : Nat → Nat → Nat → Nat × BitVec 5) (a b d : Nat) : Nat × BitVec 5 :=
  let z := flushes fm f
  fm.flushOut z (op (fm.flushIn z (a % 65536)) (fm.flushIn z (b % 65536)) (fm.flushIn z (d % 65536)))

/-- A function on both halves (R204). -/
def halves (fm : Fmt) (f : BitVec 4) (op : Nat → Nat → Nat → Nat × BitVec 5) (a b d : Nat) : Nat × BitVec 5 :=
  let lo := onHalf fm f op a b d
  let hi := onHalf fm f op (a / 65536) (b / 65536) (d / 65536)
  (hi.1 <<< 16 + lo.1, lo.2 ||| hi.2)

/-- The sum of the two exact products of `hdot2`, rounded once; none when a product or the sum is invalid (R205). -/
def dotSum (rm : Rm) (al bl ah bh : Fp) : Option (Nat × BitVec 5) :=
  match mulFp al bl, mulFp ah bh with
  | some p, some q => (addFp rm p q).map (f32.round rm)
  | _, _ => none

/-- `hdot2` of packed A and B and a binary32 D (R117, R205). -/
def dot2 (fm : Fmt) (f : BitVec 4) (a b d : Nat) : Nat × BitVec 5 :=
  let half := fun x => fm.decode (fm.flushIn (flushes fm f) (x % 65536))
  let ins := [half a, half (a / 65536), half b, half (b / 65536), f32.decode d]
  if ins.any Fp.isNan then
    -- an invalid product, or an invalid sum of two products, sets NV even beside a NaN elsewhere
    let bad := fun (x y : Fp) => !x.isNan && !y.isNan && (mulFp x y).isNone
    let sumBad := !(ins.take 4).any Fp.isNan
      && (dotSum .rne (half a) (half b) (half (a / 65536)) (half (b / 65536))).isNone
    (f32.nanCode, snanFlag ins
      ||| (if bad (half a) (half b) || bad (half (a / 65536)) (half (b / 65536)) || sumBad then flagNV else 0))
  else
    match dotSum (rmOf f) (half a) (half b) (half (a / 65536)) (half (b / 65536)) with
    | none => f32.invalid
    | some t =>
      let r := f32.add (rmOf f) (f32.decode t.1) (f32.decode d)
      (r.1, t.2 ||| r.2)

/-- R204: `hadd` on bf16. -/
def execHaddBf16 (d a b : Opd) (s : State) : Host.Outcome State Fault Refusal :=
  issue (.haddBf16 d a b) (perSlice (vecF d a b (fun f a b d => halves bf16 f (fun x y _ => bf16.add (rmOf f) (bf16.decode x) (bf16.decode y)) a b d))) s

/-- R204: `hsub` on bf16. -/
def execHsubBf16 (d a b : Opd) (s : State) : Host.Outcome State Fault Refusal :=
  issue (.hsubBf16 d a b) (perSlice (vecF d a b (fun f a b d => halves bf16 f (fun x y _ => bf16.add (rmOf f) (bf16.decode x) (bf16.decode y).neg) a b d))) s

/-- R204: `hmul` on bf16. -/
def execHmulBf16 (d a b : Opd) (s : State) : Host.Outcome State Fault Refusal :=
  issue (.hmulBf16 d a b) (perSlice (vecF d a b (fun f a b d => halves bf16 f (fun x y _ => bf16.mul (rmOf f) (bf16.decode x) (bf16.decode y)) a b d))) s

/-- R204: `hfma` on bf16. -/
def execHfmaBf16 (d a b : Opd) (s : State) : Host.Outcome State Fault Refusal :=
  issue (.hfmaBf16 d a b) (perSlice (vecF d a b (fun f a b d => halves bf16 f (fun x y z => bf16.fma (rmOf f) (bf16.decode x) (bf16.decode y) (bf16.decode z)) a b d))) s

/-- R204: `hmin` on bf16. -/
def execHminBf16 (d a b : Opd) (s : State) : Host.Outcome State Fault Refusal :=
  issue (.hminBf16 d a b) (perSlice (vecF d a b (fun f a b d => halves bf16 f (fun x y _ => bf16.minmax false x y) a b d))) s

/-- R204: `hmax` on bf16. -/
def execHmaxBf16 (d a b : Opd) (s : State) : Host.Outcome State Fault Refusal :=
  issue (.hmaxBf16 d a b) (perSlice (vecF d a b (fun f a b d => halves bf16 f (fun x y _ => bf16.minmax true x y) a b d))) s

/-- R205: `hdot2` on bf16. -/
def execHdot2Bf16 (d a b : Opd) (s : State) : Host.Outcome State Fault Refusal :=
  issue (.hdot2Bf16 d a b) (perSlice (vecF d a b (fun f a b d => dot2 bf16 f a b d))) s

/-- R204: `hadd` on f16. -/
def execHaddF16 (d a b : Opd) (s : State) : Host.Outcome State Fault Refusal :=
  issue (.haddF16 d a b) (perSlice (vecF d a b (fun f a b d => halves f16 f (fun x y _ => f16.add (rmOf f) (f16.decode x) (f16.decode y)) a b d))) s

/-- R204: `hsub` on f16. -/
def execHsubF16 (d a b : Opd) (s : State) : Host.Outcome State Fault Refusal :=
  issue (.hsubF16 d a b) (perSlice (vecF d a b (fun f a b d => halves f16 f (fun x y _ => f16.add (rmOf f) (f16.decode x) (f16.decode y).neg) a b d))) s

/-- R204: `hmul` on f16. -/
def execHmulF16 (d a b : Opd) (s : State) : Host.Outcome State Fault Refusal :=
  issue (.hmulF16 d a b) (perSlice (vecF d a b (fun f a b d => halves f16 f (fun x y _ => f16.mul (rmOf f) (f16.decode x) (f16.decode y)) a b d))) s

/-- R204: `hfma` on f16. -/
def execHfmaF16 (d a b : Opd) (s : State) : Host.Outcome State Fault Refusal :=
  issue (.hfmaF16 d a b) (perSlice (vecF d a b (fun f a b d => halves f16 f (fun x y z => f16.fma (rmOf f) (f16.decode x) (f16.decode y) (f16.decode z)) a b d))) s

/-- R204: `hmin` on f16. -/
def execHminF16 (d a b : Opd) (s : State) : Host.Outcome State Fault Refusal :=
  issue (.hminF16 d a b) (perSlice (vecF d a b (fun f a b d => halves f16 f (fun x y _ => f16.minmax false x y) a b d))) s

/-- R204: `hmax` on f16. -/
def execHmaxF16 (d a b : Opd) (s : State) : Host.Outcome State Fault Refusal :=
  issue (.hmaxF16 d a b) (perSlice (vecF d a b (fun f a b d => halves f16 f (fun x y _ => f16.minmax true x y) a b d))) s

/-- R205: `hdot2` on f16. -/
def execHdot2F16 (d a b : Opd) (s : State) : Host.Outcome State Fault Refusal :=
  issue (.hdot2F16 d a b) (perSlice (vecF d a b (fun f a b d => dot2 f16 f a b d))) s

/-! ## CVT (R206 to R208) -/

/-- Narrowing into one half of D, the other half kept (R207). -/
def narrow (fm : Fmt) (f : BitVec 4) (high : Bool) (a d : Nat) : Nat × BitVec 5 :=
  let r := fm.flushOut (flushes fm f) (cvtFmt f32 fm (rmOf f) a)
  (if high then r.1 <<< 16 + d % 65536 else d / 65536 * 65536 + r.1, r.2)

/-- Widening of one half of A (R207). -/
def widen (fm : Fmt) (f : BitVec 4) (high : Bool) (a : Nat) : Nat × BitVec 5 :=
  cvtFmt fm f32 (rmOf f) (fm.flushIn (flushes fm f) (if high then a / 65536 else a % 65536))

/-- R94, R206: `cvt.i32.f32`. -/
def execCvtI32F32 (d a : Opd) (s : State) : Host.Outcome State Fault Refusal :=
  issue (.cvtI32F32 d a) (perSlice (vecF d a .zero (fun f a _ _ => cvtToInt true (rmOf f) a))) s

/-- R94, R206: `cvt.n32.f32`. -/
def execCvtN32F32 (d a : Opd) (s : State) : Host.Outcome State Fault Refusal :=
  issue (.cvtN32F32 d a) (perSlice (vecF d a .zero (fun f a _ _ => cvtToInt false (rmOf f) a))) s

/-- R206: `cvt.f32.i32`. -/
def execCvtF32I32 (d a : Opd) (s : State) : Host.Outcome State Fault Refusal :=
  issue (.cvtF32I32 d a) (perSlice (vecF d a .zero (fun f a _ _ => cvtFromInt (rmOf f) (sint 32 a)))) s

/-- R206: `cvt.f32.n32`. -/
def execCvtF32N32 (d a : Opd) (s : State) : Host.Outcome State Fault Refusal :=
  issue (.cvtF32N32 d a) (perSlice (vecF d a .zero (fun f a _ _ => cvtFromInt (rmOf f) a))) s

/-- R207: `cvt.bf16.f32.lo`. -/
def execCvtBf16F32Lo (d a : Opd) (s : State) : Host.Outcome State Fault Refusal :=
  issue (.cvtBf16F32Lo d a) (perSlice (vecF d a .zero (fun f a _ d => narrow bf16 f false a d))) s

/-- R207: `cvt.f32.bf16.lo`. -/
def execCvtF32Bf16Lo (d a : Opd) (s : State) : Host.Outcome State Fault Refusal :=
  issue (.cvtF32Bf16Lo d a) (perSlice (vecF d a .zero (fun f a _ _ => widen bf16 f false a))) s

/-- R207: `cvt.bf16.f32.hi`. -/
def execCvtBf16F32Hi (d a : Opd) (s : State) : Host.Outcome State Fault Refusal :=
  issue (.cvtBf16F32Hi d a) (perSlice (vecF d a .zero (fun f a _ d => narrow bf16 f true a d))) s

/-- R207: `cvt.f32.bf16.hi`. -/
def execCvtF32Bf16Hi (d a : Opd) (s : State) : Host.Outcome State Fault Refusal :=
  issue (.cvtF32Bf16Hi d a) (perSlice (vecF d a .zero (fun f a _ _ => widen bf16 f true a))) s

/-- R207: `cvt.f16.f32.lo`. -/
def execCvtF16F32Lo (d a : Opd) (s : State) : Host.Outcome State Fault Refusal :=
  issue (.cvtF16F32Lo d a) (perSlice (vecF d a .zero (fun f a _ d => narrow f16 f false a d))) s

/-- R207: `cvt.f32.f16.lo`. -/
def execCvtF32F16Lo (d a : Opd) (s : State) : Host.Outcome State Fault Refusal :=
  issue (.cvtF32F16Lo d a) (perSlice (vecF d a .zero (fun f a _ _ => widen f16 f false a))) s

/-- R207: `cvt.f16.f32.hi`. -/
def execCvtF16F32Hi (d a : Opd) (s : State) : Host.Outcome State Fault Refusal :=
  issue (.cvtF16F32Hi d a) (perSlice (vecF d a .zero (fun f a _ d => narrow f16 f true a d))) s

/-- R207: `cvt.f32.f16.hi`. -/
def execCvtF32F16Hi (d a : Opd) (s : State) : Host.Outcome State Fault Refusal :=
  issue (.cvtF32F16Hi d a) (perSlice (vecF d a .zero (fun f a _ _ => widen f16 f true a))) s

/-- R110, R208: `cvt.l6.f32`. -/
def execCvtL6F32 (d a b : Opd) (s : State) : Host.Outcome State Fault Refusal :=
  issue (.cvtL6F32 d a b) (perSlice (vecF d a b (fun _ a b _ => cvtL6F32 a (sint 32 b)))) s

/-- R109, R208: `cvt.f32.l6`. -/
def execCvtF32L6 (d a b : Opd) (s : State) : Host.Outcome State Fault Refusal :=
  issue (.cvtF32L6 d a b) (perSlice (vecF d a b (fun _ a b _ => cvtF32L6 a (sint 32 b)))) s

/-- The pairs `cvt.q.l6` writes: low words, then high words, with the flags once (R208). -/
def pairL6 (d a b : Opd) (c : Nat) (sl : Slice) : Slice :=
  let q := fun l => cvtQL6 (sl.read c a l).toNat (sl.read c b l).toInt
  (sl.vmapF d q).vmap (d.plus 1) (fun l => BitVec.ofNat 32 ((q l).1 >>> 32))

/-- R111, R208: `cvt.q.l6`. -/
def execCvtQL6 (d a b : Opd) (s : State) : Host.Outcome State Fault Refusal :=
  issue (.cvtQL6 d a b) (perSlice (pairL6 d a b)) s

/-! ## TRN (R118, R119, R209) -/

/-- R118, R209: `rcp`. -/
def execRcp (d a : Opd) (s : State) : Host.Outcome State Fault Refusal :=
  issue (.rcp d a) (perSlice (vecF d a .zero (fun _ a _ _ => trnRcp a))) s

/-- R118, R209: `rsq`. -/
def execRsq (d a : Opd) (s : State) : Host.Outcome State Fault Refusal :=
  issue (.rsq d a) (perSlice (vecF d a .zero (fun _ a _ _ => trnRsq a))) s

/-- R118, R209: `sqrt`. -/
def execSqrt (d a : Opd) (s : State) : Host.Outcome State Fault Refusal :=
  issue (.sqrt d a) (perSlice (vecF d a .zero (fun f a _ _ => trnSqrt (rmOf f) a))) s

/-- R118, R209: `exp2`. -/
def execExp2 (d a : Opd) (s : State) : Host.Outcome State Fault Refusal :=
  issue (.exp2 d a) (perSlice (vecF d a .zero (fun _ a _ _ => trnExp2 a))) s

/-- R118, R209: `log2`. -/
def execLog2 (d a : Opd) (s : State) : Host.Outcome State Fault Refusal :=
  issue (.log2 d a) (perSlice (vecF d a .zero (fun _ a _ _ => trnLog2 a))) s

/-- R118, R209: `sinpi`. -/
def execSinpi (d a : Opd) (s : State) : Host.Outcome State Fault Refusal :=
  issue (.sinpi d a) (perSlice (vecF d a .zero (fun _ a _ _ => trnSinpi a))) s

/-- R118, R209: `cospi`. -/
def execCospi (d a : Opd) (s : State) : Host.Outcome State Fault Refusal :=
  issue (.cospi d a) (perSlice (vecF d a .zero (fun _ a _ _ => trnCospi a))) s

/-- R118, R209: `tanh`. -/
def execTanh (d a : Opd) (s : State) : Host.Outcome State Fault Refusal :=
  issue (.tanh d a) (perSlice (vecF d a .zero (fun _ a _ _ => trnTanh a))) s

end Sys2Proof.Machine
end

