-- ==== Sys2Proof/Machine/Dispatch.lean ====
section
/-! DEFINITION. The dispatch of every instruction to its meaning, one arm per constructor of `Instr`. -/

namespace Sys2Proof.Machine

/-- The meaning of an instruction in a state. -/
def exec (i : Instr) (s : State) : Host.Outcome State Fault Refusal :=
  match i with
  | .clause w a b l h => Sys2Proof.Machine.execClause w a b l h s
  | .iadd d a b => Sys2Proof.Machine.execIadd d a b s
  | .isub d a b => Sys2Proof.Machine.execIsub d a b s
  | .imul d a b => Sys2Proof.Machine.execImul d a b s
  | .imulhi d a b => Sys2Proof.Machine.execImulhi d a b s
  | .nmulhi d a b => Sys2Proof.Machine.execNmulhi d a b s
  | .imin d a b => Sys2Proof.Machine.execImin d a b s
  | .imax d a b => Sys2Proof.Machine.execImax d a b s
  | .nmin d a b => Sys2Proof.Machine.execNmin d a b s
  | .nmax d a b => Sys2Proof.Machine.execNmax d a b s
  | .andV d a b => Sys2Proof.Machine.execAndV d a b s
  | .orV d a b => Sys2Proof.Machine.execOrV d a b s
  | .xorV d a b => Sys2Proof.Machine.execXorV d a b s
  | .shlV d a b => Sys2Proof.Machine.execShlV d a b s
  | .shrV d a b => Sys2Proof.Machine.execShrV d a b s
  | .sarV d a b => Sys2Proof.Machine.execSarV d a b s
  | .isad d a b => Sys2Proof.Machine.execIsad d a b s
  | .popc d a => Sys2Proof.Machine.execPopc d a s
  | .clz d a => Sys2Proof.Machine.execClz d a s
  | .ctz d a => Sys2Proof.Machine.execCtz d a s
  | .brev d a => Sys2Proof.Machine.execBrev d a s
  | .bfe d a b => Sys2Proof.Machine.execBfe d a b s
  | .bfi d a b => Sys2Proof.Machine.execBfi d a b s
  | .fshl d a b => Sys2Proof.Machine.execFshl d a b s
  | .fshr d a b => Sys2Proof.Machine.execFshr d a b s
  | .rotl d a b => Sys2Proof.Machine.execRotl d a b s
  | .iabs d a => Sys2Proof.Machine.execIabs d a s
  | .ineg d a => Sys2Proof.Machine.execIneg d a s
  | .imad d a b => Sys2Proof.Machine.execImad d a b s
  | .faddF32 d a b => Sys2Proof.Machine.execFaddF32 d a b s
  | .fsubF32 d a b => Sys2Proof.Machine.execFsubF32 d a b s
  | .fmulF32 d a b => Sys2Proof.Machine.execFmulF32 d a b s
  | .fmaF32 d a b => Sys2Proof.Machine.execFmaF32 d a b s
  | .fmsF32 d a b => Sys2Proof.Machine.execFmsF32 d a b s
  | .fnmaF32 d a b => Sys2Proof.Machine.execFnmaF32 d a b s
  | .fminF32 d a b => Sys2Proof.Machine.execFminF32 d a b s
  | .fmaxF32 d a b => Sys2Proof.Machine.execFmaxF32 d a b s
  | .fabsF32 d a => Sys2Proof.Machine.execFabsF32 d a s
  | .fnegF32 d a => Sys2Proof.Machine.execFnegF32 d a s
  | .fcpsF32 d a b => Sys2Proof.Machine.execFcpsF32 d a b s
  | .ffloorF32 d a => Sys2Proof.Machine.execFfloorF32 d a s
  | .fceilF32 d a => Sys2Proof.Machine.execFceilF32 d a s
  | .ftruncF32 d a => Sys2Proof.Machine.execFtruncF32 d a s
  | .frintF32 d a => Sys2Proof.Machine.execFrintF32 d a s
  | .fclassF32 d a => Sys2Proof.Machine.execFclassF32 d a s
  | .haddBf16 d a b => Sys2Proof.Machine.execHaddBf16 d a b s
  | .hsubBf16 d a b => Sys2Proof.Machine.execHsubBf16 d a b s
  | .hmulBf16 d a b => Sys2Proof.Machine.execHmulBf16 d a b s
  | .hfmaBf16 d a b => Sys2Proof.Machine.execHfmaBf16 d a b s
  | .hminBf16 d a b => Sys2Proof.Machine.execHminBf16 d a b s
  | .hmaxBf16 d a b => Sys2Proof.Machine.execHmaxBf16 d a b s
  | .hdot2Bf16 d a b => Sys2Proof.Machine.execHdot2Bf16 d a b s
  | .haddF16 d a b => Sys2Proof.Machine.execHaddF16 d a b s
  | .hsubF16 d a b => Sys2Proof.Machine.execHsubF16 d a b s
  | .hmulF16 d a b => Sys2Proof.Machine.execHmulF16 d a b s
  | .hfmaF16 d a b => Sys2Proof.Machine.execHfmaF16 d a b s
  | .hminF16 d a b => Sys2Proof.Machine.execHminF16 d a b s
  | .hmaxF16 d a b => Sys2Proof.Machine.execHmaxF16 d a b s
  | .hdot2F16 d a b => Sys2Proof.Machine.execHdot2F16 d a b s
  | .cvtI32F32 d a => Sys2Proof.Machine.execCvtI32F32 d a s
  | .cvtN32F32 d a => Sys2Proof.Machine.execCvtN32F32 d a s
  | .cvtF32I32 d a => Sys2Proof.Machine.execCvtF32I32 d a s
  | .cvtF32N32 d a => Sys2Proof.Machine.execCvtF32N32 d a s
  | .cvtBf16F32Lo d a => Sys2Proof.Machine.execCvtBf16F32Lo d a s
  | .cvtBf16F32Hi d a => Sys2Proof.Machine.execCvtBf16F32Hi d a s
  | .cvtF32Bf16Lo d a => Sys2Proof.Machine.execCvtF32Bf16Lo d a s
  | .cvtF32Bf16Hi d a => Sys2Proof.Machine.execCvtF32Bf16Hi d a s
  | .cvtF16F32Lo d a => Sys2Proof.Machine.execCvtF16F32Lo d a s
  | .cvtF16F32Hi d a => Sys2Proof.Machine.execCvtF16F32Hi d a s
  | .cvtF32F16Lo d a => Sys2Proof.Machine.execCvtF32F16Lo d a s
  | .cvtF32F16Hi d a => Sys2Proof.Machine.execCvtF32F16Hi d a s
  | .cvtL6F32 d a b => Sys2Proof.Machine.execCvtL6F32 d a b s
  | .cvtF32L6 d a b => Sys2Proof.Machine.execCvtF32L6 d a b s
  | .cvtQL6 d a b => Sys2Proof.Machine.execCvtQL6 d a b s
  | .feq d a b => Sys2Proof.Machine.execFeq d a b s
  | .fne d a b => Sys2Proof.Machine.execFne d a b s
  | .flt d a b => Sys2Proof.Machine.execFlt d a b s
  | .fle d a b => Sys2Proof.Machine.execFle d a b s
  | .fgt d a b => Sys2Proof.Machine.execFgt d a b s
  | .fge d a b => Sys2Proof.Machine.execFge d a b s
  | .ford d a b => Sys2Proof.Machine.execFord d a b s
  | .funo d a b => Sys2Proof.Machine.execFuno d a b s
  | .ieq d a b => Sys2Proof.Machine.execIeq d a b s
  | .ine d a b => Sys2Proof.Machine.execIne d a b s
  | .ilt d a b => Sys2Proof.Machine.execIlt d a b s
  | .ile d a b => Sys2Proof.Machine.execIle d a b s
  | .nlt d a b => Sys2Proof.Machine.execNlt d a b s
  | .nle d a b => Sys2Proof.Machine.execNle d a b s
  | .fcls d a b => Sys2Proof.Machine.execFcls d a b s
  | .rcp d a => Sys2Proof.Machine.execRcp d a s
  | .rsq d a => Sys2Proof.Machine.execRsq d a s
  | .sqrt d a => Sys2Proof.Machine.execSqrt d a s
  | .exp2 d a => Sys2Proof.Machine.execExp2 d a s
  | .log2 d a => Sys2Proof.Machine.execLog2 d a s
  | .sinpi d a => Sys2Proof.Machine.execSinpi d a s
  | .cospi d a => Sys2Proof.Machine.execCospi d a s
  | .tanh d a => Sys2Proof.Machine.execTanh d a s
  | .shfl d a b => Sys2Proof.Machine.execShfl d a b s
  | .shfx d a b => Sys2Proof.Machine.execShfx d a b s
  | .shfu d a b => Sys2Proof.Machine.execShfu d a b s
  | .shfd d a b => Sys2Proof.Machine.execShfd d a b s
  | .bcast d a b => Sys2Proof.Machine.execBcast d a b s
  | .ballot d a => Sys2Proof.Machine.execBallot d a s
  | .vany d a => Sys2Proof.Machine.execVany d a s
  | .vall d a => Sys2Proof.Machine.execVall d a s
  | .redi d a => Sys2Proof.Machine.execRedi d a s
  | .redf d a => Sys2Proof.Machine.execRedf d a s
  | .redmx d a b => Sys2Proof.Machine.execRedmx d a b s
  | .scani d a b => Sys2Proof.Machine.execScani d a b s
  | .sshf d a b => Sys2Proof.Machine.execSshf d a b s
  | .sshx d a b => Sys2Proof.Machine.execSshx d a b s
  | .sbc d a b => Sys2Proof.Machine.execSbc d a b s
  | .sadd d a b => Sys2Proof.Machine.execSadd d a b s
  | .ssub d a b => Sys2Proof.Machine.execSsub d a b s
  | .smul d a b => Sys2Proof.Machine.execSmul d a b s
  | .sand d a b => Sys2Proof.Machine.execSand d a b s
  | .sor d a b => Sys2Proof.Machine.execSor d a b s
  | .sxor d a b => Sys2Proof.Machine.execSxor d a b s
  | .sshl d a b => Sys2Proof.Machine.execSshl d a b s
  | .sshr d a b => Sys2Proof.Machine.execSshr d a b s
  | .ssar d a b => Sys2Proof.Machine.execSsar d a b s
  | .smin d a b => Sys2Proof.Machine.execSmin d a b s
  | .smax d a b => Sys2Proof.Machine.execSmax d a b s
  | .snmin d a b => Sys2Proof.Machine.execSnmin d a b s
  | .snmax d a b => Sys2Proof.Machine.execSnmax d a b s
  | .scmpeq d a b => Sys2Proof.Machine.execScmpeq d a b s
  | .scmplt d a b => Sys2Proof.Machine.execScmplt d a b s
  | .scmpnlt d a b => Sys2Proof.Machine.execScmpnlt d a b s
  | .saddi d a imm => Sys2Proof.Machine.execSaddi d a imm s
  | .movi d imm => Sys2Proof.Machine.execMovi d imm s
  | .movhi d imm => Sys2Proof.Machine.execMovhi d imm s
  | .vaddi d a imm => Sys2Proof.Machine.execVaddi d a imm s
  | .ld w d a imm => Sys2Proof.Machine.execLd w d a imm s
  | .st w d a imm => Sys2Proof.Machine.execSt w d a imm s
  | .ldS8 d a b => Sys2Proof.Machine.execLdS8 d a b s
  | .ldZ8 d a b => Sys2Proof.Machine.execLdZ8 d a b s
  | .ldS16 d a b => Sys2Proof.Machine.execLdS16 d a b s
  | .ldZ16 d a b => Sys2Proof.Machine.execLdZ16 d a b s
  | .st8 d a b => Sys2Proof.Machine.execSt8 d a b s
  | .st16 d a b => Sys2Proof.Machine.execSt16 d a b s
  | .ldl w d a b => Sys2Proof.Machine.execLdl w d a b s
  | .stl w d a b => Sys2Proof.Machine.execStl w d a b s
  | .ald d a b => Sys2Proof.Machine.execAld d a b s
  | .aldUnp d a b => Sys2Proof.Machine.execAldUnp d a b s
  | .aldQnt d a b => Sys2Proof.Machine.execAldQnt d a b s
  | .aldSpec d a b => Sys2Proof.Machine.execAldSpec d a b s
  | .ast d a b => Sys2Proof.Machine.execAst d a b s
  | .astUnp d a b => Sys2Proof.Machine.execAstUnp d a b s
  | .ldi w d a b => Sys2Proof.Machine.execLdi w d a b s
  | .atomAdd w d a b => Sys2Proof.Machine.execAtomAdd w d a b s
  | .atomSub w d a b => Sys2Proof.Machine.execAtomSub w d a b s
  | .atomMin w d a b => Sys2Proof.Machine.execAtomMin w d a b s
  | .atomMax w d a b => Sys2Proof.Machine.execAtomMax w d a b s
  | .atomNmin w d a b => Sys2Proof.Machine.execAtomNmin w d a b s
  | .atomNmax w d a b => Sys2Proof.Machine.execAtomNmax w d a b s
  | .atomAnd w d a b => Sys2Proof.Machine.execAtomAnd w d a b s
  | .atomOr w d a b => Sys2Proof.Machine.execAtomOr w d a b s
  | .atomXor w d a b => Sys2Proof.Machine.execAtomXor w d a b s
  | .atomXchg w d a b => Sys2Proof.Machine.execAtomXchg w d a b s
  | .atomCas w d a b => Sys2Proof.Machine.execAtomCas w d a b s
  | .atomInc w d a b => Sys2Proof.Machine.execAtomInc w d a b s
  | .atomDec w d a b => Sys2Proof.Machine.execAtomDec w d a b s
  | .atomFadd w d a b => Sys2Proof.Machine.execAtomFadd w d a b s
  | .atomFmin w d a b => Sys2Proof.Machine.execAtomFmin w d a b s
  | .atomFmax w d a b => Sys2Proof.Machine.execAtomFmax w d a b s
  | .atom64Add w d a b => Sys2Proof.Machine.execAtom64Add w d a b s
  | .atom64Sub w d a b => Sys2Proof.Machine.execAtom64Sub w d a b s
  | .atom64Min w d a b => Sys2Proof.Machine.execAtom64Min w d a b s
  | .atom64Max w d a b => Sys2Proof.Machine.execAtom64Max w d a b s
  | .atom64Nmin w d a b => Sys2Proof.Machine.execAtom64Nmin w d a b s
  | .atom64Nmax w d a b => Sys2Proof.Machine.execAtom64Nmax w d a b s
  | .atom64And w d a b => Sys2Proof.Machine.execAtom64And w d a b s
  | .atom64Or w d a b => Sys2Proof.Machine.execAtom64Or w d a b s
  | .atom64Xor w d a b => Sys2Proof.Machine.execAtom64Xor w d a b s
  | .atom64Xchg w d a b => Sys2Proof.Machine.execAtom64Xchg w d a b s
  | .copy d a => Sys2Proof.Machine.execCopy d a s
  | .copyT2 d a => Sys2Proof.Machine.execCopyT2 d a s
  | .copyT3 d a => Sys2Proof.Machine.execCopyT3 d a s
  | .copyConv d a => Sys2Proof.Machine.execCopyConv d a s
  | .qcopy d a => Sys2Proof.Machine.execQcopy d a s
  | .catchL d a => Sys2Proof.Machine.execCatchL d a s
  | .catchT2 d a => Sys2Proof.Machine.execCatchT2 d a s
  | .pref d a => Sys2Proof.Machine.execPref d a s
  | .mload d a => Sys2Proof.Machine.execMload d a s
  | .mloop d a => Sys2Proof.Machine.execMloop d a s
  | .mloops d a => Sys2Proof.Machine.execMloops d a s
  | .mdrain d a => Sys2Proof.Machine.execMdrain d a s
  | .mdrains d a => Sys2Proof.Machine.execMdrains d a s
  | .mzero d a => Sys2Proof.Machine.execMzero d a s
  | .msig d a => Sys2Proof.Machine.execMsig d a s
  | .mskip d a => Sys2Proof.Machine.execMskip d a s
  | .mstat d a => Sys2Proof.Machine.execMstat d a s
  | .fenceSys => Sys2Proof.Machine.execFenceSys s
  | .fenceHost => Sys2Proof.Machine.execFenceHost s
  | .inval a b => Sys2Proof.Machine.execInval a b s
  | .flush a b => Sys2Proof.Machine.execFlush a b s
  | .waitf a b => Sys2Proof.Machine.execWaitf a b s
  | .lop3 t d a b => Sys2Proof.Machine.execLop3 t d a b s
  | .fshiL d a k => Sys2Proof.Machine.execFshiL d a k s
  | .fshiR d a k => Sys2Proof.Machine.execFshiR d a k s
  | .br o => Sys2Proof.Machine.execBr o s
  | .brExecz o => Sys2Proof.Machine.execBrExecz o s
  | .brExecnz o => Sys2Proof.Machine.execBrExecnz o s
  | .brScc1 o => Sys2Proof.Machine.execBrScc1 o s
  | .brScc0 o => Sys2Proof.Machine.execBrScc0 o s
  | .callW o => Sys2Proof.Machine.execCallW o s
  | .retW => Sys2Proof.Machine.execRetW s
  | .jmpi a => Sys2Proof.Machine.execJmpi a s
  | .join l => Sys2Proof.Machine.execJoin l s
  | .wnd a b => Sys2Proof.Machine.execWnd a b s
  | .endW => Sys2Proof.Machine.execEndW s
  | .svc w d a b => Sys2Proof.Machine.execSvc w d a b s
  | .trap n => Sys2Proof.Machine.execTrap n s
  | .nop => Sys2Proof.Machine.execNop s
  | .movs d imm => Sys2Proof.Machine.execMovs d imm s
  | .movt a imm => Sys2Proof.Machine.execMovt a imm s
  | .uiret => Sys2Proof.Machine.execUiret s
  | .brk n => Sys2Proof.Machine.execBrk n s
  | .yield => Sys2Proof.Machine.execYield s
  | .take d => Sys2Proof.Machine.execTake d s
  | .spawn d a => Sys2Proof.Machine.execSpawn d a s
  | .joinc a => Sys2Proof.Machine.execJoinc a s
  | .barSync b => Sys2Proof.Machine.execBarSync b s
  | .barArr d a b => Sys2Proof.Machine.execBarArr d a b s
  | .barArrG d a b => Sys2Proof.Machine.execBarArrG d a b s
  | .barWait a b => Sys2Proof.Machine.execBarWait a b s
  | .barWaitG a b => Sys2Proof.Machine.execBarWaitG a b s
  | .give n => Sys2Proof.Machine.execGive n s
  | .claim n => Sys2Proof.Machine.execClaim n s
  | .roleW a => Sys2Proof.Machine.execRoleW a s
  | .cancel a l => Sys2Proof.Machine.execCancel a l s
  | .ctr d l => Sys2Proof.Machine.execCtr d l s
  | .fret a b => Sys2Proof.Machine.execFret a b s
  | .pmap d a b => Sys2Proof.Machine.execPmap d a b s
  | .tlbi d a b => Sys2Proof.Machine.execTlbi d a b s
  | .asidr d a => Sys2Proof.Machine.execAsidr d a s
  | .sksave d a b => Sys2Proof.Machine.execSksave d a b s
  | .skload d a b => Sys2Proof.Machine.execSkload d a b s
  | .ecnt d => Sys2Proof.Machine.execEcnt d s
  | .uintr a b => Sys2Proof.Machine.execUintr a b s
  | .pstat d a imm => Sys2Proof.Machine.execPstat d a imm s
  | .pstatW d a imm => Sys2Proof.Machine.execPstatW d a imm s
  | .halt a => Sys2Proof.Machine.execHalt a s
  | .fetchEntryGrant core => Sys2Proof.Machine.execFetchEntryGrant core s
  | .fetchEntryRotation team first => Sys2Proof.Machine.execFetchEntryRotation team first s
  | .priorityAgeing team slice => Sys2Proof.Machine.execPriorityAgeing team slice s
  | .sliceEnd team slice => Sys2Proof.Machine.execSliceEnd team slice s
  | .takeRequest team => Sys2Proof.Machine.execTakeRequest team s
  | .barrierWordRecheck team slice => Sys2Proof.Machine.execBarrierWordRecheck team slice s
  | .loadComplete op => Sys2Proof.Machine.execLoadComplete op s
  | .postedWritePerformed op => Sys2Proof.Machine.execPostedWritePerformed op s
  | .pageWalkComplete cluster asid page => Sys2Proof.Machine.execPageWalkComplete cluster asid page s
  | .faultVector team slice => Sys2Proof.Machine.execFaultVector team slice s
  | .userInterruptDelivery team slice => Sys2Proof.Machine.execUserInterruptDelivery team slice s
  | .engineCommandComplete team cmd => Sys2Proof.Machine.execEngineCommandComplete team cmd s
  | .catchBurstArrival team cmd burst => Sys2Proof.Machine.execCatchBurstArrival team cmd burst s
  | .matrixQueueDispatch core => Sys2Proof.Machine.execMatrixQueueDispatch core s
  | .serviceBatchEnqueue batch => Sys2Proof.Machine.execServiceBatchEnqueue batch s
  | .serviceStatus batch status replies => Sys2Proof.Machine.execServiceStatus batch status replies s
  | .teamHold team => Sys2Proof.Machine.execTeamHold team s
  | .tail part queue value => Sys2Proof.Machine.execTail part queue value s
  | .userDoorbell part value => Sys2Proof.Machine.execUserDoorbell part value s
  | .loglost part value => Sys2Proof.Machine.execLoglost part value s
  | .partitionPageWrite part offset value => Sys2Proof.Machine.execPartitionPageWrite part offset value s
  | .nopPacket part queue => Sys2Proof.Machine.execNopPacket part queue s
  | .launch part queue => Sys2Proof.Machine.execLaunch part queue s
  | .cancelPacket part queue => Sys2Proof.Machine.execCancelPacket part queue s
  | .signal part queue => Sys2Proof.Machine.execSignal part queue s
  | .preempt part queue => Sys2Proof.Machine.execPreempt part queue s
  | .resume part queue => Sys2Proof.Machine.execResume part queue s
  | .teamStart launch core => Sys2Proof.Machine.execTeamStart launch core s
  | .preemptionHalt team granules => Sys2Proof.Machine.execPreemptionHalt team granules s
  | .contextStop team => Sys2Proof.Machine.execContextStop team s
  | .contextRestore record core => Sys2Proof.Machine.execContextRestore record core s
  | .dieFence die => Sys2Proof.Machine.execDieFence die s
  | .distributorReport die => Sys2Proof.Machine.execDistributorReport die s
  | .thermalMigration team => Sys2Proof.Machine.execThermalMigration team s
  | .checkpointIntervalClose part job => Sys2Proof.Machine.execCheckpointIntervalClose part job s
  | .arm part job core => Sys2Proof.Machine.execArm part job core s
  | .ceilingRaise part job => Sys2Proof.Machine.execCeilingRaise part job s
  | .checkpointCommit part job => Sys2Proof.Machine.execCheckpointCommit part job s
  | .saveCostRecord part job => Sys2Proof.Machine.execSaveCostRecord part job s
  | .staticEnergyTick => Sys2Proof.Machine.execStaticEnergyTick s
  | .atsTranslationCompletion die asid page granted hpa logSize r w => Sys2Proof.Machine.execAtsTranslationCompletion die asid page granted hpa logSize r w s
  | .pageResponse die asid page success => Sys2Proof.Machine.execPageResponse die asid page success s
  | .priTimeout die asid page => Sys2Proof.Machine.execPriTimeout die asid page s
  | .atsInvalidateRequest pasid va len => Sys2Proof.Machine.execAtsInvalidateRequest pasid va len s
  | .invalidateCompletion inval => Sys2Proof.Machine.execInvalidateCompletion inval s
  | .ridgeRequest source exportIdx key offset size kind fn data => Sys2Proof.Machine.execRidgeRequest source exportIdx key offset size kind fn data s
  | .ridgeErrorCompletion op lane => Sys2Proof.Machine.execRidgeErrorCompletion op lane s
  | .ingressAccess pa write size data => Sys2Proof.Machine.execIngressAccess pa write size data s
  | .tierCreditUpdate port devload => Sys2Proof.Machine.execTierCreditUpdate port devload s
  | .islandPause island => Sys2Proof.Machine.execIslandPause island s
  | .patrolScrub pa uncorrectable => Sys2Proof.Machine.execPatrolScrub pa uncorrectable s
  | .flr part => Sys2Proof.Machine.execFlr part s
  | .powerGood bootOk failedDies => Sys2Proof.Machine.execPowerGood bootOk failedDies s
  | .partAssign => Sys2Proof.Machine.execPartAssign s
  | .partSet => Sys2Proof.Machine.execPartSet s
  | .partReset => Sys2Proof.Machine.execPartReset s
  | .partFree => Sys2Proof.Machine.execPartFree s
  | .ctxpool => Sys2Proof.Machine.execCtxpool s
  | .egress => Sys2Proof.Machine.execEgress s
  | .importE => Sys2Proof.Machine.execImportE s
  | .quiesce => Sys2Proof.Machine.execQuiesce s
  | .quiesceAck port => Sys2Proof.Machine.execQuiesceAck port s
  | .extentAdd => Sys2Proof.Machine.execExtentAdd s
  | .extentRevoke => Sys2Proof.Machine.execExtentRevoke s
  | .extentRelease extent => Sys2Proof.Machine.execExtentRelease extent s
  | .fwStage => Sys2Proof.Machine.execFwStage s
  | .fwUpdate => Sys2Proof.Machine.execFwUpdate s
  | .lifecycle => Sys2Proof.Machine.execLifecycle s
  | .spare => Sys2Proof.Machine.execSpare s
  | .ckptRegion => Sys2Proof.Machine.execCkptRegion s
  | .ckptBase => Sys2Proof.Machine.execCkptBase s
  | .illegalInstruction => Sys2Proof.Machine.execIllegalInstruction s
  | .matrixCommandComplete core => Sys2Proof.Machine.execMatrixCommandComplete core s
  | .streamerWrite part job => Sys2Proof.Machine.execStreamerWrite part job s
  | .coreRelease launch team => Sys2Proof.Machine.execCoreRelease launch team s
  | .ridgeFlitRetry port => Sys2Proof.Machine.execRidgeFlitRetry port s
  | .backInvalidation pa => Sys2Proof.Machine.execBackInvalidation pa s
  | .go offset value => Sys2Proof.Machine.execGo offset value s

end Sys2Proof.Machine
end

