-- ==== Sys2Proof/Machine/Sched.lean ====
section
/-! DEFINITION. Which sub-crew a core issues next, what may happen next in the package, and the word a sub-crew reaches
(R46, R47, R49, R334, R335; log 1). -/

namespace Sys2Proof.Machine

/-! ## The sub-crew a core issues (R15, R47, R49) -/

/-- Whether a sub-crew is stalled on a word whose operation has been accepted, in a draining team: it completes (R390). -/
def Team.completes (t : Team) (b : SubCrew) : Bool := t.st == .draining && b.accepted.isSome

/-- Whether a sub-crew may be issued as far as its team goes: a team that is to halt issues no more, its handler threads and its
accepted words apart (R241, R389, R390). -/
def Team.issues (t : Team) (b : SubCrew) : Bool :=
  (t.st == .running && t.halt.isNone) || t.completes b
  || ((t.slice? (b.members.headD 0)).map (fun sl => sl.thread.isSome)).getD false

/-- Whether a tracked team stalls because the clock of its core has passed its job's ceiling, or because other cores'
quiet points are still to come (R401, R402; log 13). -/
def State.teamStalls (s : State) (t : Team) : Bool :=
  s.pastQuiet t || ((s.jobOf t).map (fun j => decide (j.ceilingOn t.core < (s.core t.core).clock))).getD false

/-- Whether a sub-crew is ready: it holds an entry, is not stalled, none of its slices is blocked, and no command of theirs waits
for a copy-queue entry (R18, R20, R47, R238). -/
def State.ready (s : State) (t : Team) (b : SubCrew) : Bool :=
  (b.entry || t.completes b) && !b.stalled && !b.members.isEmpty && t.issues b && s.mayIssue t.uid b.members
  && (t.completes b || !s.teamStalls t)
  && t.cmds.all (fun c => !b.members.contains c.slice || t.inQueue c.id)

/-- The class of a sub-crew: the lowest of its slices' (R49). -/
def Team.classOf (t : Team) (b : SubCrew) : Nat :=
  ((b.members.filterMap (fun m => t.slice? m)).map (fun sl => sl.cls)).foldl min 3

/-- The ready sub-crew a core issues: lowest class, then longest waiting (R47). -/
def State.nextSub (s : State) (core : Nat) : Option (Team × SubCrew) :=
  let all := (s.teamsOn core).flatMap (fun t => (t.subs.filter (s.ready t)).map (fun b => (t, b)))
  let top := (all.map (fun x => x.1.classOf x.2)).foldl min 3
  minBy (fun x => x.2.seq) (all.filter (fun x => x.1.classOf x.2 == top))

/-- The teams with every stalled sub-crew of those that `which` picks free to try again (R20). -/
def State.retryStalls (s : State) (which : Team → Bool) : State :=
  { s with teams := s.teams.map (fun t =>
      if which t then { t with subs := t.subs.map (fun b => { b with stalled := false }) } else t) }

/-- The state in which a core issues: its sub-crews that stalled try again, each at its place in the order, once a word has
issued on the core since they stalled, or once no other is ready (R20, R47). -/
def State.forIssue (s : State) (core : Nat) : State :=
  let s := { s with cur := none, want := none }
  if (s.core core).issued || (s.nextSub core).isNone then
    (s.retryStalls (fun t => t.core == core)).setCore core (fun c => { c with issued := false })
  else s

/-! ## The word reached (R66, R67, R334, R366) -/

/-- What a sub-crew does at its boundary: an instruction to execute, a user interrupt to a slice, or a state reached
without either. -/
inductive Reached where
  | run (i : Instr)
  | interrupt (u k : Nat)
  | moved (s : State)

/-- The state with a sub-crew issuing. -/
def State.withCur (s : State) (t : Team) (b : SubCrew) : State := { s with cur := some { team := t.uid, members := b.members, bad := b.bad } }

/-- What a word is in its place: a header opens a clause; past the header any other word is an instruction or no row of
the table (R66, R67, R71). -/
def placed (opened : Bool) (w : Word) : Option Instr :=
  if opened && isHeader w then none
  else if !opened && !isHeader w then none
  else
    match decode w with
    | .ok i => some i
    | .error _ => some .illegalInstruction

/-- What a word is to the sub-crew that has reached it: an instruction to execute, or the trap of R67. -/
def State.atWord (s : State) (p : At) (opened : Bool) (w : Word) : State × Reached :=
  match placed opened w with
  | some i => (s, .run i)
  | none => (s, .moved (s.notHeader p))

/-- What a sub-crew does next (R334): a user interrupt that is due comes first; else the word at its PC: one of the open clause
as the clause was fetched, or the header there, fetched now. A clause come back into is fetched first (R68, R151). -/
def State.reach (s : State) (t : Team) (b : SubCrew) : State × Reached :=
  match b.members.find? (fun k => s.uiDue t.uid k) with
  | some k => ({ s with cur := none }, .interrupt t.uid k)
  | none =>
    let s := s.withCur t b
    match t.slice? (b.members.headD 0), s.at? with
    | some sl, some p =>
      if sl.opened then
        match sl.code[sl.ix]? with
        | some w => s.atWord p true w
        | none => (s, .moved (s.refetch t p sl))
      else
        match s.fetch t (sl.mode == .supervisor) true (s.codeBase t sl + sl.hdr) with
        | (s, none) => (s, .moved (s.stall t.uid (b.members.headD 0)))
        | (s, some (.error c)) => (s, .moved (s.fetchFault p c))
        | (s, some (.ok w)) => s.atWord p false w
    | _, _ => (s, .moved s)

/-! ## What may happen next -/

/-- The state before an event: every sub-crew that stalled may try again (R20). -/
def State.unstall (s : State) : State := { s.retryStalls (fun _ => true) with cur := none, want := none }

/-- An event that comes from inside the package and needs no elapsed time. -/
inductive Due where
  | issue (core : Nat)
  | fetchEntryGrant (core : Nat)
  | matrixQueueDispatch (core : Nat)
  | matrixCommandComplete (core : Nat)
  | sliceEnd (team slice : Nat)
  | userInterruptDelivery (team slice : Nat)
  | barrierWordRecheck (team slice : Nat)
  | catchBurstArrival (team cmd burst : Nat)
  | engineCommandComplete (team cmd : Nat)
  | takeRequest (team : Nat)
  | pageWalkComplete (cluster asid page : Nat)
  | loadComplete (op : Nat)
  | postedWritePerformed (op : Nat)
  | serviceBatchEnqueue (batch : Nat)
  | teamHold (team : Nat)
  | preemptionHalt (team : Nat)
  | contextStop (team : Nat)
  | contextRestore (record core : Nat)
  | teamStart (launch core : Nat)
  | packet (part queue : Nat)
  | arm (part job core : Nat)
  | streamerWrite (part job : Nat)
  | checkpointCommit (part job : Nat)
  | invalidateCompletion (inval : Nat)
  | quiesceAck (port : Nat)
  | extentRelease (extent : Nat)
  | call
  /-- a copy command, or a running drain, does some of its granules (R148) -/
  | engineStep (team cmd : Nat)
  | drainStep (core : Nat)
  /-- a service batch that has its answer ends (R351) -/
  | batchEnd (batch : Nat)
  /-- what is first in the FIFOs of an update is applied (R439) -/
  | fifo
  /-- the next master is named, or a launch's next home (R34, R386) -/
  | master
  | homeMove (launch : Nat)
  /-- an act of the agenda that needs no agent outside -/
  | act (a : Act)
  deriving DecidableEq, Repr

/-- The meaning of the next packet of a queue, by its TYPE (R380). -/
def runPacket (part queue : Nat) (s : State) : Host.Outcome State Fault Refusal :=
  match (s.nextPacket part queue).map pktType with
  | some 1 => execLaunch part queue s
  | some 2 => execCancelPacket part queue s
  | some 3 => execSignal part queue s
  | some 4 => execPreempt part queue s
  | some 5 => execResume part queue s
  | some _ => execNopPacket part queue s
  | none => .next s

/-- The meaning of the running call, by its CODE (R426). -/
def runCode (s : State) : Host.Outcome State Fault Refusal :=
  match s.mgmt.code.toNat with
  | 0x01 => execPartAssign s
  | 0x02 => execPartSet s
  | 0x03 => execPartReset s
  | 0x04 => execPartFree s
  | 0x05 => execCtxpool s
  | 0x10 => execEgress s
  | 0x11 => execImportE s
  | 0x12 => execQuiesce s
  | 0x20 => execExtentAdd s
  | 0x21 => execExtentRevoke s
  | 0x30 => execFwStage s
  | 0x31 => execFwUpdate s
  | 0x32 => execLifecycle s
  | 0x33 => execSpare s
  | 0x40 => execCkptRegion s
  | 0x41 => execCkptBase s
  | _ => .next s

/-- The state after the device replaces an entry of a cache; a sector that a chip-level slice holds as its home stays (R128,
R360, R362). -/
def State.replace (s : State) (c : Cache) (i : Nat) : State :=
  match c with
  | .tlb => { s with tlb := s.tlb.eraseIdx i }
  | .walks => { s with wcache := s.wcache.eraseIdx i }
  | .ats => { s with atsc := s.atsc.eraseIdx i }
  | .sectors => if (s.rmap[i]?).any (fun r => r.home == .slice) then s else { s with rmap := s.rmap.eraseIdx i }
  | .lines => { s with ilines := s.ilines.eraseIdx i }

/-- The state after an act of the agenda that is no instruction (log 1). -/
def runAct (a : Act) (s : State) : State :=
  match a with
  | .event _ | .issue _ => s
  | .perform o i => s.performOne o i
  | .deliver o i l w => s.deliverWord o i l w
  | .combine o i o' i' => s.combine o i o' i'
  | .engineStep u c n => s.engineStep u c n
  | .drainStep c n => s.drainStep c n
  | .reveal sec => s.reveal (· == sec)
  | .replyWord b p w => s.replyWord b p w
  | .regError u k r l => s.regError u k r l
  | .scalarError u k n => s.scalarError u k n
  | .poisonTier pa => s.poisonTier pa
  | .rewrite p pa m => s.rewrite p pa m
  | .replace c i => s.replace c i
  | .tierCommit c base stream record => s.tierCommit c base stream record

/-- The state after a service batch that has its answer ends, and its team is looked at (R351). -/
def State.batchEnds (s : State) (b : Nat) : State :=
  match s.batches.find? (fun x => x.id == b) with
  | some x => (s.endBatch b).settle x.team
  | none => s

/-- The meaning of an event from inside the package: that of its instruction. An issue is not one (Step); how many
granules a halt still lets each command make, or a step of one makes, is a free value (log 2). -/
def runDue (d : Due) (s : State) : Host.Outcome State Fault Refusal :=
  match d with
  | .issue _ => .next s
  | .fetchEntryGrant c => execFetchEntryGrant c s
  | .matrixQueueDispatch c => execMatrixQueueDispatch c s
  | .matrixCommandComplete c => execMatrixCommandComplete c s
  | .sliceEnd u k => execSliceEnd u k s
  | .userInterruptDelivery u k => execUserInterruptDelivery u k s
  | .barrierWordRecheck u k => execBarrierWordRecheck u k s
  | .catchBurstArrival u c b => execCatchBurstArrival u c b s
  | .engineCommandComplete u c => execEngineCommandComplete u c s
  | .takeRequest u => execTakeRequest u s
  | .pageWalkComplete c a p => execPageWalkComplete c a p s
  | .loadComplete o => execLoadComplete o s
  | .postedWritePerformed o => execPostedWritePerformed o s
  | .serviceBatchEnqueue b => execServiceBatchEnqueue b s
  | .teamHold u => execTeamHold u s
  | .preemptionHalt u => execPreemptionHalt u (Config.choice s.nonce) { s with nonce := s.nonce + 1 }
  | .contextStop u => execContextStop u s
  | .contextRestore r c => execContextRestore r c s
  | .teamStart l c => execTeamStart l c s
  | .packet p q => runPacket p q s
  | .arm p j c => execArm p j c s
  | .streamerWrite p j => execStreamerWrite p j s
  | .checkpointCommit p j => execCheckpointCommit p j s
  | .invalidateCompletion i => execInvalidateCompletion i s
  | .quiesceAck p => execQuiesceAck p s
  | .extentRelease e => execExtentRelease e s
  | .call => runCode s
  | .engineStep u c => .next ({ s with nonce := s.nonce + 1 }.engineStep u c (Config.choice s.nonce))
  | .drainStep c => .next ({ s with nonce := s.nonce + 1 }.drainStep c (Config.choice s.nonce))
  | .batchEnd b => .next (s.batchEnds b)
  | .fifo => .next s.nextWaiting
  | .master => .next s.nameMaster
  | .homeMove l => .next (s.homeMove l)
  | .act a => .next (runAct a s)

/-- The events of a core that are due. -/
def State.coreActs (s : State) (c : Core) : List Due :=
  (if c.waiting.isEmpty || decide (fetchEntries ≤ s.entriesHeld c.id) then [] else [.fetchEntryGrant c.id])
  ++ (match s.mHead c.id with
      | some (_, m) => if m.started then [.matrixCommandComplete c.id, .drainStep c.id] else [.matrixQueueDispatch c.id]
      | none => [])

/-- The events of a slice that are due. -/
def State.sliceActs (s : State) (t : Team) (sl : Slice) : List Due :=
  (if s.endDue t.uid sl.idx then [.sliceEnd t.uid sl.idx] else [])
  ++ (if s.uiDue t.uid sl.idx && sl.block != .none then [.userInterruptDelivery t.uid sl.idx] else [])
  ++ (match sl.block with
      | .barWord va _ seen =>
        match s.leafAt t va with
        | some l => if BitVec.ofNat 32 (s.mem.nat (l.addr va + 8) 4) = seen then [] else [.barrierWordRecheck t.uid sl.idx]
        | none => []
      | .none | .flags _ | .barrier _ _ | .claim | .join _ | .takeAgain | .passed _ | .ending | .roleDrain => [])

/-- The events of a command that are due: of one that holds an entry, in a team that is not to halt (R148, R238, R241, R250,
R389). -/
def State.cmdActs (s : State) (t : Team) (c : Cmd) : List Due :=
  if (s.cmd? t.uid c.id).isNone || t.halt.isSome then []
  else if c.isCatch ∧ c.catchFails.isNone then
    (if t.freeSlot.isSome then c.arrived.map (fun b => .catchBurstArrival t.uid c.id b.burst) else [])
    ++ ((List.range c.bursts).filter (fun b => t.burstDue c b)).map (fun b => .catchBurstArrival t.uid c.id b)
  else if c.fn < 5 then [.engineCommandComplete t.uid c.id, .engineStep t.uid c.id]
  else [.engineCommandComplete t.uid c.id]

/-- The events of a team that are due. -/
def State.teamActs (s : State) (t : Team) : List Due :=
  (if s.takeDue t.uid then [.takeRequest t.uid] else [])
  ++ (if t.st = .running ∧ t.halt.isSome then [if t.holds then .teamHold t.uid else .preemptionHalt t.uid] else [])
  ++ (if s.stopDue t then [.contextStop t.uid] else [])
  ++ t.slices.flatMap (s.sliceActs t) ++ t.cmds.flatMap (s.cmdActs t)

/-- What may happen to access `i` of an operation: its event, a new try once its wait is over, the end of the walk it waits for,
or the delivery of a word (R134, R190, R220, R361). -/
def State.accActs (s : State) (op : PendOp) (i : Nat) (a : Acc) (st : AccSt) : List Due :=
  match st, s.team? op.team with
  | .walk, some t =>
    if s.waitOver op a st then [.act (.perform op.id i)]
    else (s.missAt t a).toList.map (fun va => .pageWalkComplete (clusterOf t.core) t.asid (va / 65536))
  | .ats, some _ => if s.waitOver op a st then [.act (.perform op.id i)] else []
  | .late _, some _ | .ceil, some _ | .peer _, some _ => [.act (.perform op.id i)]
  | .got v g, some _ =>
    a.lanes.flatMap (fun l => (List.range (a.words v).length).filterMap (fun w =>
      if g.contains (l, w) then none else some (.act (.deliver op.id i l w))))
  | _, _ => []

/-- The events of an outstanding operation that are due. -/
def State.opActs (s : State) (op : PendOp) : List Due :=
  ((op.accs.zip (List.range op.accs.length)).flatMap (fun x => s.accActs op x.2 x.1.1 x.1.2))
  ++ (if op.accs.any (fun x => match x.2 with
        | .walk | .ats | .ceil => true
        | .late _ | .peer _ | .got _ _ | .written | .dropped => false) then []
      else [if op.flagged then .loadComplete op.id else .postedWritePerformed op.id])

/-- The `.com` additions whose operands may be combined in the fabric, in pairs (R142, R143). -/
def State.combineActs (s : State) : List Due :=
  let l : List (Nat × Nat × List Nat) := s.pend.flatMap (fun op => (op.accs.zip (List.range op.accs.length)).filterMap (fun x =>
    match x.1.2.late? with
    | some ps => if x.1.1.order == .com && x.1.1.kind == .atom 13 then some (op.id, x.2, ps.map (fun p => p.pa)) else none
    | none => none))
  l.flatMap (fun x => (l.filter (fun y => decide ((x.1, x.2.1) ≠ (y.1, y.2.1)) && x.2.2 == y.2.2)).map (fun y =>
    .act (.combine x.1 x.2.1 y.1 y.2.1)))

/-- What may happen to a service batch: it enters its ring, a word of its answer is written, or it ends (R190, R351). -/
def State.batchActs (s : State) (b : Batch) : List Due :=
  match b.answer with
  | none => if s.batchDue b.id then [.serviceBatchEnqueue b.id] else []
  | some _ =>
    .batchEnd b.id :: (List.range b.lanes.length).flatMap (fun p => (List.range (if b.wide then 2 else 1)).filterMap (fun w =>
      if b.given.contains (p, w) then none else some (.act (.replyWord b.id p w))))

/-- The packet that the front end may read next, and those for which it waits on the host (R369, R378, R384). -/
def State.packetActs (s : State) : List Due :=
  s.nextQueue.toList.map (fun r => .packet r.1 r.2)
  ++ (s.rounds.filter (fun r => s.turnOf r.1 r.2 == .asking)).map (fun r => .packet r.1 r.2)

/-- The teams that may start (R385). -/
def State.startActs (s : State) (x : Launch) : List Due :=
  if x.toStart.isEmpty || !s.mayStart x then []
  else ((List.range 512).filter (fun c => ((x.numberFor (((s.resumeOf x.uid).map (fun p => p.has c)).getD false) c).map
    x.toStart.contains).getD false
    && s.takes x c (x.record.slices * x.record.regblk + 2 * x.record.catchSlots))).map (fun c => .teamStart x.uid c)

/-- The restores that may happen (R398). -/
def State.restoreActs (s : State) (c : Ctx) : List Due :=
  if !c.kept then []
  else ((List.range 512).filter (fun k => s.restoreDue c k
    && ((s.launch? c.team.launch).map (fun x => s.takes x k c.team.blocks)).getD false)).map (fun k => .contextRestore c.id k)

/-- The events of a job's interval that are due (R402 to R404). -/
def Job.acts (j : Job) : List Due :=
  match j.stream with
  | none => []
  | some st =>
    (st.toArm.filter (fun c => !st.arming.contains c)).map (fun c => .arm j.part j.id c)
    ++ (if st.cut.isNone then [] else if st.todo.isEmpty then [.checkpointCommit j.part j.id] else [.streamerWrite j.part j.id])

/-- The events of the firmware that are due (R426, R432, R437, R439). -/
def State.firmwareActs (s : State) : List Due :=
  (s.extents.filter (fun e => e.revoked && !s.inFlight e)).map (fun e => .extentRelease e.index)
  ++ (if !s.mgmt.go then []
      else if s.mgmt.code = 0x12 ∧ !s.quiesce.isEmpty then s.quiesce.map (fun p => .quiesceAck p)
      else if s.mgmt.code = 0x21 ∧ s.extents.any (fun e => e.revoked && e.index == s.arg 0) then []
      else if s.mgmt.st = 2 ∨ (s.mgmt.st = 4 ∧ s.mgmt.code = 0x31) then [.call] else [])

/-- What the distributors and the front end have to do: name a master or a home, and take up what waited in the FIFOs (R34, R386,
R439). -/
def State.masterActs (s : State) : List Due :=
  (if (s.mgmt.st == 2 || s.mgmt.st == 4) && s.master.isNone && (masterOf s.mgmt.fenced).isSome then [.master] else [])
  ++ (if s.master.isSome then (s.launches.filter (fun x => x.moving)).map (fun x => .homeMove x.uid) else [])
  ++ (if s.fifoDue then [.fifo] else [])

/-- Everything that may happen next when the agenda is empty. What depends on elapsed time or on an agent outside the
package happens only from the agenda (log 1). -/
def State.acts (s : State) : List Due :=
  (s.cores.filter (fun c => ((s.forIssue c.id).nextSub c.id).isSome)).map (fun c => .issue c.id)
  ++ s.cores.flatMap s.coreActs ++ s.teams.flatMap s.teamActs ++ s.pend.flatMap s.opActs
  ++ s.combineActs ++ s.batches.flatMap s.batchActs ++ s.hidden.map (fun h => .act (.reveal h.1)) ++ s.masterActs
  ++ (s.saved.filter (fun c => s.takeDue c.team.uid)).map (fun c => .takeRequest c.team.uid)
  ++ s.packetActs ++ s.launches.flatMap s.startActs ++ s.saved.flatMap s.restoreActs ++ s.jobs.flatMap Job.acts
  ++ (s.invals.filter s.invalDue).map (fun i => .invalidateCompletion i.id) ++ s.firmwareActs

/-- What comes next: an instruction of the agenda, or a due event. -/
inductive Next where
  | given (i : Instr)
  | due (d : Due)

/-- What happens next, and the state that has chosen it: the agenda first; with it empty, one of the acts that are due,
by free choice (R46, R335; log 1). -/
def State.nextAct (s : State) : Option (Next × State) :=
  match s.agenda with
  | .event i :: rest => some (.given i, { s with agenda := rest })
  | .issue core :: rest => some (.due (.issue core), { s with agenda := rest })
  | a :: rest => some (.due (.act a), { s with agenda := rest })
  | [] =>
    let l := s.acts
    let c := s.choose l.length
    (l[c.1]?).map (fun d => (.due d, c.2))

/-! ## A program in place -/

/-- The address space in which `withFetchWord` places a word. -/
def placeAsid : Nat := 1
/-- The code address of the word's clause. -/
def placeCode : Nat := 0x10000
/-- The context table, the five tables of the walk one after another, and the frame of the code, as physical
addresses. -/
def placeCtx : Nat := 0x100000

/-- The bytes of the context table, the page tables and the code of a placed word, as runs of one dword (R355, R357). -/
def placeRuns (first second : Word) : List (Nat × Nat) :=
  [(placeCtx, placeCtx + 0x1000 + 1),
   (placeCtx + 0x1000, placeCtx + 0x2000 + 3),
   (placeCtx + 0x2000, placeCtx + 0x3000 + 3),
   (placeCtx + 0x3000, placeCtx + 0x4000 + 3),
   (placeCtx + 0x4000, placeCtx + 0x5000 + 3),
   (placeCtx + 0x5008, 0x200000 + 0x40 + 0x20 + 0x10 + 0x4 + 1),
   (0x200000, first.toNat + second.toNat <<< 32)]

/-- The launch record of a placed word (R84). -/
def placeRecord : LRec where
  codebase := placeCode
  entry := 0
  catchSlots := 0
  regblk := 64
  nroles := 0
  crewlog := 0
  slices := 1
  roletab := 0
  bars := 1
  copyq := 1
  scratch := 1
  grain := 1
  lo := 0
  hi := 0
  args := 0
  track := false
  elastic := false
  coresid := false
  phase := 0
  graph := 0
  job := 0

/-- The slice of a placed word: at its header, or in its open clause of one word. -/
def placeSlice (w : Word) : Slice :=
  let hd : Word := 0xF8000000#32
  if isHeader w then Slice.blank 0 0 64
  else { Slice.blank 0 0 64 with opened := true, hw := hd, longs := longMask [w], code := [w] }

/-- The team of a placed word. -/
def placeTeam (w : Word) (uid launch : Nat) : Team where
  uid := uid
  launch := launch
  part := 0
  asid := placeAsid
  record := placeRecord
  roles := []
  no := 0
  core := 0
  st := .running
  halt := none
  owed := none
  slices := [placeSlice w]
  subs := [{ members := [0], entry := true, stalled := false, joined := false, seq := 0, wants := none, bad := [], accepted := none }]
  joins := []
  bars := [{ isOpen := false, counted := false, expected := 0, arrived := 0, comp := 0, came := [] }]
  pool := 0
  claims := []
  gather := []
  asked := []
  answer := none
  work := none
  lo := 0
  hi := 0
  cmds := []
  energy := 0
  esat := false
  scratch := spadOf 0
  lines := []
  resid := 0
  haltAt := 0

/-- The launch of a placed word. -/
def placeLaunch (uid : Nat) : Launch where
  uid := uid
  part := 0
  asid := placeAsid
  queue := 0
  index := 0
  restored := false
  record := placeRecord
  roles := []
  st := .running
  first := 0
  count := 1
  any := false
  mtx := false
  reads := []
  writes := []
  deps := []
  pass := 0
  toStart := []
  started := [0]
  nteams := 1
  nextNo := 1
  seed := none
  releasing := []
  waiters := []
  orphans := []
  conts := []
  handles := []
  opno := 0
  tasks := 0
  counted := false
  lost := false
  home := some 0
  moving := false
  exhausted := false
  named := true
  stranded := false

/-- The package with a word placed where core 0 issues it next: partition 0 with one address space, its tables and a
code page, a launch, and its one team with one slice (log 1). -/
def State.place (s : State) (w : Word) : State :=
  let u := s.fresh
  let runs := if isHeader w then placeRuns w 0 else placeRuns 0xF8000000#32 w
  let s := { s with
    fresh := u + 2,
    mgmt := { s.mgmt with st := 2, step := 7 },
    mem := runs.foldl (fun (m : Memory) (r : Nat × Nat) => m.setNat r.1 8 r.2) s.mem,
    teams := s.teams.filter (fun (t : Team) => t.core != 0) ++ [placeTeam w u (u + 1)],
    launches := s.launches ++ [placeLaunch (u + 1)],
    master := some 0,
    poison := s.poison.filter (fun u => u != 0x200000),
    ilines := s.ilines.filter (fun i => i.sector != 0x200000),
    tlb := s.tlb.filter (fun t => t.asid != placeAsid),
    wcache := s.wcache.filter (fun t => t.asid != placeAsid),
    atsc := s.atsc.filter (fun t => t.asid != placeAsid),
    agenda := [.issue 0] }
  (s.setPart 0 (fun q => { q with assigned := true, clusters := 1, asidn := 1, asid0 := 1, ctxbase := BitVec.ofNat 64 placeCtx })).setCore 0
    (fun c => { c with waiting := [] })

end Sys2Proof.Machine
end

