-- ==== Sys2Proof/Machine/Step.lean ====
section
/-! DEFINITION. One step of the package: the next act of the agenda, or one that is due, carried out (R46, R47, R335). -/

namespace Sys2Proof.Machine

/-- The issue of a core: its next sub-crew executes the word it has reached. -/
def State.issueStep (s : State) (core : Nat) : Host.Outcome State Fault Refusal :=
  match s.nextSub core with
  | none => .next s
  | some (t, b) =>
    match s.reach t b with
    | (s', .run i) => exec i s'
    | (s', .interrupt u k) => runDue (.userInterruptDelivery u k) s'
    | (_, .moved s') => .next s'

/-- One step. A package whose boot check failed has halted (R446). -/
def step (s : State) : Host.Outcome State Fault Refusal :=
  if s.mgmt.st = 3 then .fault .packageHalted
  else
    match s.nextAct with
    | none => .next s
    | some (.given i, s') => exec i s'.unstall
    | some (.due (.issue core), s') => (s'.forIssue core).issueStep core
    | some (.due d, s') => runDue d s'.unstall

/-- The state in which the next step fetches and runs a word: the load of a program stands behind it (log 1). -/
def State.withFetchWord (s : State) (_nbits w : Nat) : State := s.place (BitVec.ofNat 32 w)

end Sys2Proof.Machine
end

