-- ==== Sys2Proof/Safety.lean ====
section
/-! DEFINITION. The terms in which the statements speak: when a word executes, what its issue may touch, what its slices
hold afterwards, and the invariant of the package. -/

namespace Sys2Proof.Machine

/-! ## When a word executes -/

/-- A slice that may run a word: it has not ended (R12), it is not blocked (R20), no check of R76, R252, R253 or R331 stops
it there, and no register it reads is poisoned (R339, R445). -/
structure Slice.MayRun (sl : Slice) (i : Instr) : Prop where
  live : sl.ended = false
  free : sl.block = .none
  formed : i.wf = true
  mode : i.sys = true → sl.mode = .supervisor
  window : sl.inWindow i.vops = true
  handler : ∀ th, sl.thread = some th → th.words < 256 ∧ i.threadMay = true
  allowed : sl.thread = none → sl.mode = .supervisor → i.supNo = false
  sound : sl.consumes i = false

/-- The sub-crew that is issuing executes the word `i`, as `p` places it: every slice may run it, no slice has an access
unresolved or a fault to vector for at a convergence point (R338), and the flag of the word has room in every slice
that attaches to it (R65). -/
structure State.Executes (s : State) (i : Instr) (p : At) : Prop where
  issuing : s.at? = some p
  nonempty : p.members ≠ []
  distinct : p.members.Nodup
  slices : ∀ k ∈ p.members, ∃ sl, s.slice? p.team k = some sl ∧ sl.MayRun i
    ∧ ((i.conv = true ∨ sl.conv = true) → s.allResolved p.team k = true ∧ sl.vectors = false)
    ∧ (∀ f, p.flag = some f → sl.attaches i = true → sl.flag f ≠ 63)

/-! ## What an issue touches -/

/-- The slice as its issue leaves it before its effect: the convergence mark is spent, an aged slice is back in its
class (R49), and a handler thread has issued one more word (R252). -/
def Slice.charged (sl : Slice) : Slice :=
  { sl with conv := false, cls := sl.roleCls, thread := sl.thread.map (fun th => { th with words := th.words + 1 }) }

/-- The state `s` with the teams, the cores and the counter of names of `t`. -/
def State.withUnits (s t : State) : State := { s with teams := t.teams, cores := t.cores, fresh := t.fresh }

/-- The state `s` with the instruction lines of `t`, and the free choices `t` has used to fill them (R151). -/
def State.withCode (s t : State) : State := { s with ilines := t.ilines, nonce := t.nonce }

/-- Every team but `u` is as it was, but for the marks on the scratchpad lines of its allocation (R400). -/
def OthersKept (s t : State) (u : Nat) : Prop :=
  ∀ v, v ≠ u → (t.team? v).map (fun x => { x with lines := [] }) = (s.team? v).map (fun x => { x with lines := [] })

/-- Every team is as it was, but for the marks on the scratchpad lines of its allocation (R400). -/
def TeamsKept (s t : State) : Prop :=
  ∀ v, (t.team? v).map (fun x => { x with lines := [] }) = (s.team? v).map (fun x => { x with lines := [] })

/-- No copy of the sector of `pa` has fallen behind memory in an L1 (R126, R138). -/
def State.Fresh (s : State) (pa : Nat) : Prop := ∀ r ∈ s.rmap, r.sector = sectorOf pa → r.copy = []

/-- The capture buffer has room for every pre-image that a write at `pa` may need (R403). -/
def State.HasRoom (s : State) (pa : Nat) : Prop := ∀ t, s.captureFull pa t = false

/-- What a word that only changes its own slices leaves as it was: every other slice and team, all of memory, every
engine, and every other part of the package. The energy counter of the team rises by the word's weight for each slice
(R414) and stays at its top (R416); fetch entries, their queues and the cores' clocks may move. -/
structure WordFrame (s t : State) (i : Instr) (p : At) : Prop where
  rest : t = s.withUnits t
  memory : ∀ a, t.mem.byte a = s.mem.byte a
  teams : ∀ u, u ≠ p.team → t.team? u = s.team? u
  slices : ∀ k, k ∉ p.members → t.slice? p.team k = s.slice? p.team k
  team : ∀ x, s.team? p.team = some x → ∃ y, t.team? p.team = some y
    ∧ y = { x with slices := y.slices, subs := y.subs, energy := y.energy, esat := y.esat }
    ∧ y.energy.toNat = min (2 ^ 48 - 1) (x.energy.toNat
        + (i.energy.map (fun c => p.members.length * s.weight x.part c)).getD 0)
  engines : ∀ c, (t.core c).engine = (s.core c).engine

/-- Each slice of the sub-crew, with the team it stands in, as it was and as it is. -/
def EachSlice (s t : State) (p : At) (R : Team → Slice → Slice → Prop) : Prop :=
  ∀ k ∈ p.members, ∀ x, s.team? p.team = some x → ∀ sl, x.slice? k = some sl →
    ∃ sl', t.slice? p.team k = some sl' ∧ R x sl sl'

/-- The position after a word: the next word of the clause, or the header of the next clause, which is still to be fetched
(R66, R151). -/
structure Slice.WentOn (sl sl' : Slice) : Prop where
  inside : sl.ix < hdrLen sl.hw → sl'.hdr = sl.hdr ∧ sl'.ix = sl.ix + 1 ∧ sl'.opened = sl.opened ∧ sl'.code = sl.code
  past : hdrLen sl.hw ≤ sl.ix → sl'.hdr = sl.hdr + 4 * (hdrLen sl.hw + 2) ∧ sl'.ix = 0 ∧ sl'.opened = false ∧ sl'.code = []

/-- Whether a vector destination names physical register `n` of lane `l`, a lane of the effective mask (R51, R54,
R188). -/
def Slice.Writes (sl : Slice) (d : Opd) (n l : Nat) : Prop := (∃ r, d = .v r ∧ n = sl.wb + r.val) ∧ sl.on l = true

/-- The vector registers of a slice after the lanes of the effective mask receive `val` in `d`; every other register
and every lane outside the mask is as it was (R188). -/
def Slice.Received (sl sl' : Slice) (d : Opd) (val : Nat → Word) : Prop :=
  ∀ n l, l < 4 → (sl.Writes d n l → sl'.vget n l = val l) ∧ (¬ sl.Writes d n l → sl'.vget n l = sl.vget n l)

/-- A slice after a vector word that writes `val` to `d` and raises the flags `fl`: nothing but those registers, with their
dirty marks, FPS and the position has changed (R95, R188, R400). -/
structure Slice.VectorResult (sl sl' : Slice) (d : Opd) (val : Nat → Word) (fl : BitVec 5) : Prop where
  regs : sl.Received sl' d val
  fps : sl'.fps = sl.fps ||| fl
  went : sl.WentOn sl'
  rest : sl' = { sl.charged with vregs := sl'.vregs, marks := sl'.marks, fps := sl'.fps, hdr := sl'.hdr, ix := sl'.ix,
                                 opened := sl'.opened, code := sl'.code }

/-- The scalar registers, EXEC and convergence mark of a slice after `w` is written to a scalar, `exec` or `zero`
(R158): an EXEC that leaves no lane in the effective mask makes the next boundary a convergence point (R338). The scalar written is
no longer marked poisoned (R445). -/
structure Slice.ScalarWrite (sl sl' : Slice) (d : Opd) (w : Word) : Prop where
  named : ∀ r, d = .s r → sl'.sget r.val = w
  others : ∀ n, (∀ r, d = .s r → r.val ≠ n) → sl'.sget n = sl.sget n
  exec : sl'.exec = if d = .exec then w.setWidth 4 else sl.exec
  conv : sl'.conv = (decide (d = .exec) && sl'.eff == 0)
  sound : ∀ x, x ∈ sl'.smarred ↔ x ∈ sl.smarred ∧ ∀ r, d = .s r → x ≠ sl.skey r.val

/-- A slice after a scalar word: D, SCC, FPS and the position, and nothing else (R158). -/
structure Slice.ScalarResult (sl sl' : Slice) (d : Opd) (w : Word) (scc : Bool) (fps : BitVec 5) : Prop where
  write : sl.ScalarWrite sl' d w
  scc : sl'.scc = scc
  fps : sl'.fps = fps
  went : sl.WentOn sl'
  rest : sl' = { sl.charged with sregs := sl'.sregs, smarred := sl'.smarred, exec := sl'.exec, conv := sl'.conv, scc := sl'.scc, fps := sl'.fps,
                                 hdr := sl'.hdr, ix := sl'.ix, opened := sl'.opened, code := sl'.code }

/-- The flags that the lanes of the effective mask raise together (R95). -/
def Slice.raised (sl : Slice) (f : Nat → BitVec 5) : BitVec 5 := sl.lanes.foldl (fun a l => a ||| f l) 0

/-! ## What the vector words compute, from the tables of the spec -/

/-- A vector word by its operands D, A and B. -/
abbrev VWord := Opd → Opd → Opd → Instr

/-- What IALU gives a lane from *a*, *b* and the prior *d* (R193). -/
def ialuWords : List (VWord × (Word → Word → Word → Word)) :=
  [(.iadd, fun a b _ => BitVec.ofNat 32 (a.toNat + b.toNat)),
   (.isub, fun a b _ => BitVec.ofInt 32 (a.toInt - b.toInt)),
   (.imul, fun a b _ => BitVec.ofNat 32 (a.toNat * b.toNat)),
   (.imulhi, fun a b _ => (a.signExtend 64 * b.signExtend 64).extractLsb' 32 32),
   (.nmulhi, fun a b _ => (a.setWidth 64 * b.setWidth 64).extractLsb' 32 32),
   (.imin, fun a b _ => if a.slt b then a else b),
   (.imax, fun a b _ => if a.slt b then b else a),
   (.nmin, fun a b _ => if a.ult b then a else b),
   (.nmax, fun a b _ => if a.ult b then b else a),
   (.andV, fun a b _ => BitVec.and a b),
   (.orV, fun a b _ => BitVec.or a b),
   (.xorV, fun a b _ => BitVec.xor a b),
   (.shlV, fun a b _ => a <<< (b.extractLsb' 0 5)),
   (.shrV, fun a b _ => a >>> (b.extractLsb' 0 5)),
   (.sarV, fun a b _ => a.sshiftRight' (b.extractLsb' 0 5)),
   (.isad, fun a b d => BitVec.ofInt 32 ((d.toNat : Int) + ((a.toInt - b.toInt).natAbs : Int)))]

/-- The field that B names: its offset, its width, and its mask in 64 bits (R196). -/
def fieldOf (b : Word) : Nat × Nat × BitVec 64 :=
  let off := (b.extractLsb' 0 5).toNat
  let wid := min (b.extractLsb' 8 6).toNat (32 - off)
  (off, wid, ((1#64 <<< wid) - 1) <<< off)

/-- `bfe` as R196 writes it. -/
def bfeOf (a b : Word) : Word :=
  let (off, wid, mask) := fieldOf b
  if wid = 0 then 0
  else
    let t := (a.setWidth 64 &&& mask) >>> off
    let t := if b.getLsbD 15 ∧ t.getLsbD (wid - 1) then t ||| ~~~((1#64 <<< wid) - 1) else t
    t.setWidth 32

/-- `bfi` as R196 writes it. -/
def bfiOf (d a b : Word) : Word :=
  let (off, _, mask) := fieldOf b
  (d &&& ~~~(mask.setWidth 32)) ||| ((a <<< off) &&& mask.setWidth 32)

/-- What IBIT gives a lane (R195, R196). A one-operand word takes no B. -/
def ibitWords : List (VWord × (Word → Word → Word → Word)) :=
  [(fun d a _ => .popc d a, fun a _ _ => a.cpop),
   (fun d a _ => .clz d a, fun a _ _ => a.clz),
   (fun d a _ => .ctz d a, fun a _ _ => a.ctz),
   (fun d a _ => .brev d a, fun a _ _ => a.reverse),
   (.bfe, fun a b _ => bfeOf a b),
   (.bfi, fun a b d => bfiOf d a b),
   (.fshl, fun a b d => ((d ++ a) <<< (b.extractLsb' 0 5)).extractLsb' 32 32),
   (.fshr, fun a b d => ((a ++ d) >>> (b.extractLsb' 0 5)).extractLsb' 0 32),
   (.rotl, fun a b _ => a.rotateLeft (b.extractLsb' 0 5).toNat),
   (fun d a _ => .iabs d a, fun a _ _ => a.abs),
   (fun d a _ => .ineg d a, fun a _ _ => 0 - a),
   (.imad, fun a b d => BitVec.ofNat 32 (a.toNat * b.toNat + d.toNat))]

/-- The class sets, rounding forms and arithmetic of FALU: the code and flags of a lane from FPC.RM and the codes of A, B
and the prior D (R199 to R203). -/
def faluWords : List (VWord × (Rm → Nat → Nat → Nat → Nat × BitVec 5)) :=
  let v := f32.decode
  [(.faddF32, fun rm a b _ => f32.add rm (v a) (v b)),
   (.fsubF32, fun rm a b _ => f32.add rm (v a) (v b).neg),
   (.fmulF32, fun rm a b _ => f32.mul rm (v a) (v b)),
   (.fmaF32, fun rm a b d => f32.fma rm (v a) (v b) (v d)),
   (.fmsF32, fun rm a b d => f32.fma rm (v a) (v b) (v d).neg),
   (.fnmaF32, fun rm a b d => f32.fma rm (v a).neg (v b) (v d)),
   (.fminF32, fun _ a b _ => f32.minmax false a b),
   (.fmaxF32, fun _ a b _ => f32.minmax true a b),
   (fun d a _ => .fabsF32 d a, fun _ a _ _ => if (v a).isNan then (0x7FC00000, snanFlag [v a]) else (a % 2 ^ 31, 0)),
   (fun d a _ => .fnegF32 d a, fun _ a _ _ => if (v a).isNan then (0x7FC00000, snanFlag [v a]) else ((a + 2 ^ 31) % 2 ^ 32, 0)),
   (.fcpsF32, fun _ a b _ => if (v a).isNan then (0x7FC00000, snanFlag [v a]) else (a % 2 ^ 31 + b / 2 ^ 31 * 2 ^ 31, 0)),
   (fun d a _ => .ffloorF32 d a, fun _ a _ _ => roundIntegral .rdn false a),
   (fun d a _ => .fceilF32 d a, fun _ a _ _ => roundIntegral .rup false a),
   (fun d a _ => .ftruncF32 d a, fun _ a _ _ => roundIntegral .rtz false a),
   (fun d a _ => .frintF32 d a, fun rm a _ _ => roundIntegral rm true a),
   (fun d a _ => .fclassF32 d a, fun _ a _ _ => (f32.classOf a, 0))]

/-- The halves of a packed word as a HALU word takes them: low half, then high half (R204). -/
def halfOf (high : Bool) (x : Nat) : Nat := if high then x / 2 ^ 16 % 2 ^ 16 else x % 2 ^ 16

/-- A packed word of two results, with the flags of both (R204). -/
def packed (r : Bool → Nat × BitVec 5) : Nat × BitVec 5 := ((r true).1 * 2 ^ 16 + (r false).1, (r false).2 ||| (r true).2)

/-- A function of the halves, on inputs that a flush bit may clear and with a result that it may clear (R91, R204). -/
def eachHalf (fm : Fmt) (z : Bool) (op : Nat → Nat → Nat → Nat × BitVec 5) (a b d : Nat) : Nat × BitVec 5 :=
  packed (fun h => fm.flushOut z (op (fm.flushIn z (halfOf h a)) (fm.flushIn z (halfOf h b)) (fm.flushIn z (halfOf h d))))

/-- The six lane functions of HALU on one half (R204). -/
def haluOps (fm : Fmt) : List (Rm → Nat → Nat → Nat → Nat × BitVec 5) :=
  [fun rm x y _ => fm.add rm (fm.decode x) (fm.decode y),
   fun rm x y _ => fm.add rm (fm.decode x) (fm.decode y).neg,
   fun rm x y _ => fm.mul rm (fm.decode x) (fm.decode y),
   fun rm x y z => fm.fma rm (fm.decode x) (fm.decode y) (fm.decode z),
   fun _ x y _ => fm.minmax false x y,
   fun _ x y _ => fm.minmax true x y]

/-- HALU on both formats: the flush bit is FPC.BFZ for bf16 and FPC.HFZ for binary16 (R56, R91, R204, R205). -/
def haluWords : List (VWord × (BitVec 4 → Nat → Nat → Nat → Nat × BitVec 5)) :=
  ([Instr.haddBf16, .hsubBf16, .hmulBf16, .hfmaBf16, .hminBf16, .hmaxBf16].zip (haluOps bf16)).map
    (fun e => (e.1, fun f a b d => eachHalf bf16 (f.getLsbD 2) (e.2 (rmOf f)) a b d))
  ++ ([Instr.haddF16, .hsubF16, .hmulF16, .hfmaF16, .hminF16, .hmaxF16].zip (haluOps f16)).map
    (fun e => (e.1, fun f a b d => eachHalf f16 (f.getLsbD 3) (e.2 (rmOf f)) a b d))
  ++ [(.hdot2Bf16, dot2 bf16), (.hdot2F16, dot2 f16)]

/-- CVT but for `cvt.q.l6` (R94, R206 to R208): a narrowing writes one half of D and keeps the other; a widening reads
one half of A; a scale is B as a signed number. -/
def cvtWords : List (VWord × (BitVec 4 → Nat → Nat → Nat → Nat × BitVec 5)) :=
  let low := fun (r : Nat × BitVec 5) d => (d / 2 ^ 16 * 2 ^ 16 + r.1, r.2)
  let high := fun (r : Nat × BitVec 5) d => (r.1 * 2 ^ 16 + d % 2 ^ 16, r.2)
  let bz := fun (f : BitVec 4) => f.getLsbD 2
  let hz := fun (f : BitVec 4) => f.getLsbD 3
  let down := fun (fm : Fmt) z f a => fm.flushOut z (fm.round (rmOf f) (f32.decode a))
  let up := fun (fm : Fmt) z f a => f32.round (rmOf f) (fm.decode (fm.flushIn z a))
  [(fun d a _ => .cvtI32F32 d a, fun f a _ _ => cvtToInt true (rmOf f) a),
   (fun d a _ => .cvtN32F32 d a, fun f a _ _ => cvtToInt false (rmOf f) a),
   (fun d a _ => .cvtF32I32 d a, fun f a _ _ => cvtFromInt (rmOf f) (BitVec.ofNat 32 a).toInt),
   (fun d a _ => .cvtF32N32 d a, fun f a _ _ => cvtFromInt (rmOf f) a),
   (fun d a _ => .cvtBf16F32Lo d a, fun f a _ d => low (down bf16 (bz f) f a) d),
   (fun d a _ => .cvtBf16F32Hi d a, fun f a _ d => high (down bf16 (bz f) f a) d),
   (fun d a _ => .cvtF16F32Lo d a, fun f a _ d => low (down f16 (hz f) f a) d),
   (fun d a _ => .cvtF16F32Hi d a, fun f a _ d => high (down f16 (hz f) f a) d),
   (fun d a _ => .cvtF32Bf16Lo d a, fun f a _ _ => up bf16 (bz f) f (halfOf false a)),
   (fun d a _ => .cvtF32Bf16Hi d a, fun f a _ _ => up bf16 (bz f) f (halfOf true a)),
   (fun d a _ => .cvtF32F16Lo d a, fun f a _ _ => up f16 (hz f) f (halfOf false a)),
   (fun d a _ => .cvtF32F16Hi d a, fun f a _ _ => up f16 (hz f) f (halfOf true a)),
   (.cvtL6F32, fun _ a b _ => cvtL6F32 a (BitVec.ofNat 32 b).toInt),
   (.cvtF32L6, fun _ a b _ => cvtF32L6 a (BitVec.ofNat 32 b).toInt)]

/-- TRN (R118, R209): only `sqrt` depends on FPC.RM. -/
def trnWords : List ((Opd → Opd → Instr) × (Rm → Nat → Nat × BitVec 5)) :=
  [(.rcp, fun _ => trnRcp), (.rsq, fun _ => trnRsq), (.sqrt, trnSqrt), (.exp2, fun _ => trnExp2), (.log2, fun _ => trnLog2),
   (.sinpi, fun _ => trnSinpi), (.cospi, fun _ => trnCospi), (.tanh, fun _ => trnTanh)]

/-! ## What the scalar words compute -/

/-- The SCC of most scalar functions: the result is not 0 (R159). -/
def nonzero (w : Word) : Word × Bool := (w, w != 0)

/-- SALU: the result and SCC from *a* and *b* (R159). -/
def saluWords : List (VWord × (Word → Word → Word × Bool)) :=
  [(.sadd, fun a b => (BitVec.ofNat 32 (a.toNat + b.toNat), (a.setWidth 33 + b.setWidth 33).getLsbD 32)),
   (.ssub, fun a b => (BitVec.ofInt 32 (a.toInt - b.toInt), a.ult b)),
   (.smul, fun a b => (BitVec.ofInt 32 (a.toInt * b.toInt),
      a.signExtend 64 * b.signExtend 64 != (BitVec.ofInt 32 (a.toInt * b.toInt)).signExtend 64)),
   (.sand, fun a b => nonzero (BitVec.and a b)),
   (.sor, fun a b => nonzero (BitVec.or a b)),
   (.sxor, fun a b => nonzero (BitVec.xor a b)),
   (.sshl, fun a b => nonzero (a <<< (b.extractLsb' 0 5))),
   (.sshr, fun a b => nonzero (a >>> (b.extractLsb' 0 5))),
   (.ssar, fun a b => nonzero (a.sshiftRight' (b.extractLsb' 0 5))),
   (.smin, fun a b => nonzero (if a.slt b then a else b)),
   (.smax, fun a b => nonzero (if a.slt b then b else a)),
   (.snmin, fun a b => nonzero (if a.ult b then a else b)),
   (.snmax, fun a b => nonzero (if a.ult b then b else a)),
   (.scmpeq, fun a b => (BitVec.ofNat 32 (decide (a = b)).toNat, decide (a = b))),
   (.scmplt, fun a b => (BitVec.ofNat 32 (decide (a.toInt < b.toInt)).toNat, decide (a.toInt < b.toInt))),
   (.scmpnlt, fun a b => (BitVec.ofNat 32 (decide (a.toNat < b.toNat)).toNat, decide (a.toNat < b.toNat)))]

/-- CMP on integers: when the bit of a lane is set (R163, R164). -/
def intCompares : List (VWord × (Word → Word → Bool)) :=
  [(.ieq, fun a b => decide (a = b)), (.ine, fun a b => decide (a ≠ b)),
   (.ilt, fun a b => decide (a.toInt < b.toInt)), (.ile, fun a b => decide (a.toInt ≤ b.toInt)),
   (.nlt, fun a b => decide (a.toNat < b.toNat)), (.nle, fun a b => decide (a.toNat ≤ b.toNat)),
   (.fcls, fun a b => b.getLsbD (f32.classOf a.toNat))]

/-- CMP on binary32: the predicate on two numbers, its value when an input is a NaN, and whether a quiet NaN sets NV
too (R163). -/
def floatCompares : List (VWord × (Fp → Fp → Bool) × Bool × Bool) :=
  [(.feq, fun x y => !x.lt y && !y.lt x, false, false), (.fne, fun x y => x.lt y || y.lt x, true, false),
   (.flt, fun x y => x.lt y, false, true), (.fle, fun x y => !y.lt x, false, true),
   (.fgt, fun x y => y.lt x, false, true), (.fge, fun x y => !x.lt y, false, true),
   (.ford, fun _ _ => true, false, false), (.funo, fun _ _ => false, true, false)]

/-- The NV that a compare of two codes raises (R163). -/
def compareNv (quiet : Bool) (x y : Fp) : BitVec 5 :=
  if x.isNan || y.isNan then (if quiet || x.isSnan || y.isSnan then flagNV else 0) else 0

/-- A slice after a compare whose bit for lane `l` is `holds l`: the mask is written by `write_result`, SCC says whether
it is not 0, and lanes outside the effective mask read 0 (R162). -/
def Slice.CompareResult (sl sl' : Slice) (d : Opd) (holds : Nat → Bool) (fl : BitVec 5) : Prop :=
  ∃ m : Word, (∀ j, m.getLsbD j = (decide (j < 4) && sl.on j && holds j))
    ∧ sl.ScalarResult sl' d m (m != 0) (sl.fps ||| fl)

/-! ## Cross-lane words (R210 to R217) -/

/-- The slices of a sub-crew as a list (R13). -/
def Team.crewOfSlices (t : Team) (ms : List Nat) : List Slice := ms.filterMap (fun m => t.slice? m)

/-- N: four lanes for each slice of a crew; a handler thread is a crew of one (R210, R211). -/
def Team.crewN (t : Team) (ms : List Nat) : Nat :=
  if (t.crewOfSlices ms).any (fun sl => sl.thread.isSome) then 4 else 4 * 2 ^ t.record.crewlog

/-- *a*(*p*) and *b*(*p*) of a present crew lane; `none` when lane *p* is not present (R210, R212). -/
def Team.crewLane (t : Team) (ms : List Nat) (a b : Opd) (p : Nat) : Option (Word × Word) :=
  (t.crewOfSlices ms).findSome? (fun sl =>
    if sl.pos t.record.crewlog = p / 4 ∧ sl.on (p % 4) = true ∧ sl.ended = false then
      some (sl.read t.record.crewlog a (p % 4), sl.read t.record.crewlog b (p % 4))
    else none)

/-- A uniform B: that of the lowest-numbered present lane (R212). -/
def Team.crewUniform (t : Team) (ms : List Nat) (a b : Opd) : Word :=
  (((List.range (t.crewN ms)).findSome? (t.crewLane ms a b)).map (·.2)).getD 0

/-- The lane that each crew-scope move reads for lane *p* (R213). -/
def crewSources : List (VWord × (Nat → Nat → Word → Word → Nat)) :=
  [(.shfl, fun n _ b _ => b.toNat % n),
   (.shfx, fun n p b _ => (p ^^^ b.toNat) % n),
   (.shfu, fun _ p b _ => if p < b.toNat then p else p - b.toNat),
   (.shfd, fun n p b _ => if n - p ≤ b.toNat then p else p + b.toNat),
   (.bcast, fun n _ _ low => low.toNat % n)]

/-- The A values of the present lanes, in crew-lane order (R214). -/
def Team.crewValues (t : Team) (ms : List Nat) (a b : Opd) : List Word :=
  (List.range (t.crewN ms)).filterMap (fun p => (t.crewLane ms a b p).map (·.1))

/-- A node of the binary32 tree: level 0 holds the lanes, and a node above adds its two children when both hold a value
and passes on the one that does; with the flags raised below it (R116). -/
def treeNode (rm : Rm) (leaf : Nat → Option Nat) : Nat → Nat → Option Nat × BitVec 5
  | 0, p => (leaf p, 0)
  | k + 1, p =>
    let l := treeNode rm leaf k (2 * p)
    let r := treeNode rm leaf k (2 * p + 1)
    match l.1, r.1 with
    | some x, some y =>
      let v := f32.add rm (f32.decode x) (f32.decode y)
      (some v.1, l.2 ||| r.2 ||| v.2)
    | some x, none => (some x, l.2 ||| r.2)
    | none, y => (y, l.2 ||| r.2)

/-- `redf`: the root of the tree over the N crew lanes, a NaN as the default NaN, and NV for a signalling NaN among the
present lanes (R116, R214). -/
def Team.crewTree (t : Team) (ms : List Nat) (a : Opd) (rm : Rm) : Nat × BitVec 5 :=
  let root := treeNode rm (fun p => (t.crewLane ms a .zero p).map (fun x => x.1.toNat)) (t.crewN ms).log2 0
  let v := root.1.getD 0
  (if (f32.decode v).isNan then 0x7FC00000 else v,
    root.2 ||| snanFlag ((t.crewValues ms a .zero).map (fun x => f32.decode x.toNat)))

/-- FPC.RM of the slice that holds the lowest present lane (R214). -/
def Team.crewRm (t : Team) (ms : List Nat) : Rm :=
  match (t.crewOfSlices ms).find? (fun sl => sl.eff != 0) with
  | some sl => rmOf sl.fpc
  | none => .rne

/-- What `redmx` may give for its selector (R214): the greatest or least value, a bitwise combination, or by R201 the
greatest or least number, a NaN only when no lane holds a number. -/
def maxResult (sel : Nat) (vs : List Word) (r : Word) : Prop :=
  let num := fun (v : Word) => (f32.decode v.toNat).isNan = false
  match sel with
  | 0 => r ∈ vs ∧ ∀ v ∈ vs, v.toInt ≤ r.toInt
  | 1 => r ∈ vs ∧ ∀ v ∈ vs, r.toInt ≤ v.toInt
  | 2 => r ∈ vs ∧ ∀ v ∈ vs, v.toNat ≤ r.toNat
  | 3 => r ∈ vs ∧ ∀ v ∈ vs, r.toNat ≤ v.toNat
  | 4 => (∀ v ∈ vs, num v → num r ∧ r ∈ vs ∧ (f32.decode r.toNat).lt (f32.decode v.toNat) = false)
      ∧ ((∀ v ∈ vs, ¬ num v) → r = 0x7FC00000)
  | 5 => (∀ v ∈ vs, num v → num r ∧ r ∈ vs ∧ (f32.decode v.toNat).lt (f32.decode r.toNat) = false)
      ∧ ((∀ v ∈ vs, ¬ num v) → r = 0x7FC00000)
  | 6 => ∀ j, j < 32 → (r.getLsbD j = true ↔ ∀ v ∈ vs, v.getLsbD j = true)
  | _ => ∀ j, j < 32 → (r.getLsbD j = true ↔ ∃ v ∈ vs, v.getLsbD j = true)

/-- A slice after a word that may join first: registers and flags as given, the position moved, and nothing else but what
an issue and a completed join leave (R25, R211). -/
structure Slice.CrewRest (sl sl' : Slice) : Prop where
  went : sl.WentOn sl'
  rest : sl' = { sl with vregs := sl'.vregs, marks := sl'.marks, sregs := sl'.sregs, smarred := sl'.smarred, exec := sl'.exec, scc := sl'.scc, fps := sl'.fps,
                         hdr := sl'.hdr, ix := sl'.ix, opened := sl'.opened, code := sl'.code, conv := sl'.conv, cls := sl'.cls,
                         thread := sl'.thread, waitLevel := none, block := .none }

/-- How a crew-scope word comes to execute at once: in a handler thread; in a sub-crew whose implicit join has
completed; or where the whole crew reaches it together, with no entry of the crew pending (R22, R24, R25, R211). -/
def State.CrewHere (s : State) (p : At) (x : Team) : Prop :=
  (∃ k sl th, p.members = [k] ∧ x.slice? k = some sl ∧ sl.thread = some th ∧ sl.waitLevel = none
    ∧ ∀ b ∈ x.subs, b.joined = true → k ∉ b.members)
  ∨ (∃ crew mode, (∀ k ∈ p.members, x.crewOf k = crew) ∧ p.members.Pairwise (· < ·)
    ∧ (∀ k ∈ p.members, ∀ sl, x.slice? k = some sl → sl.thread = none ∧ sl.mode = mode)
    ∧ ((∃ b, s.ganged p = some b ∧ b.members = p.members
          ∧ ∀ k ∈ p.members, ∀ sl, x.slice? k = some sl → sl.waitLevel = none)
      ∨ ((∀ k ∈ x.expects crew 0, k ∈ p.members) ∧ (∀ e ∈ x.joins, e.crew ≠ crew)
          ∧ (∀ b ∈ x.subs, b.joined = true → ∀ k ∈ p.members, k ∉ b.members))))

/-- What a cross-lane word leaves outside its slices. -/
structure CrewFrame (s t : State) (p : At) : Prop where
  rest : t = s.withUnits t
  memory : ∀ a, t.mem.byte a = s.mem.byte a
  teams : ∀ u, u ≠ p.team → t.team? u = s.team? u
  slices : ∀ k, k ∉ p.members → t.slice? p.team k = s.slice? p.team k
  team : ∀ x, s.team? p.team = some x → ∃ y, t.team? p.team = some y
    ∧ y = { x with slices := y.slices, subs := y.subs, energy := y.energy, esat := y.esat }
  engines : ∀ c, (t.core c).engine = (s.core c).engine

/-! ## Control transfers and traps -/

/-- A code word whose translation a TLB or ATS cache holds, fetchable in the slice's mode, with no poison and no instruction
line that has fallen behind memory (R151, R366, R445). -/
structure State.HeldWord (s : State) (t : Team) (sup : Bool) (va : Nat) (w : Word) : Prop where
  canonical : canonicalRange va 4 = true
  held : ∃ l, s.lookUp t.core t.asid va .fetch sup = .hit l ∧ beyond (l.addr va) = false
    ∧ inRange .fabric (l.addr va) = false ∧ s.poisoned (l.addr va) 4 = false ∧ s.mem.nat (l.addr va) 4 = w.toNat
    ∧ ∀ i ∈ s.ilines, i.place = t.core ∨ i.place = 512 + clusterOf t.core → i.sector = sectorOf (l.addr va) → i.bytes = []

/-- A target that passes the check of R170: inside the code range, on a word, and a clause header, `w`. -/
structure State.Target (s : State) (t : Team) (sl : Slice) (va : Nat) (w : Word) : Prop where
  above : s.codeBase t sl ≤ va
  below : va < s.codeBase t sl + 2 ^ 26
  aligned : (va - s.codeBase t sl) % 4 = 0
  word : s.HeldWord t (sl.mode == .supervisor) va w
  header : isHeader w = true

/-- A slice after a control transfer: at the header of `va`, with nothing else changed but scalars given by `regs`. -/
def Slice.Transferred (sl sl' : Slice) (base va : Nat) : Prop :=
  sl' = { sl.charged with hdr := va - base, ix := 0, opened := false, code := [], sregs := sl'.sregs, smarred := sl'.smarred }

/-- The relative branches with the condition each tests (R73, R167). -/
def branchWords : List ((BitVec 24 → Instr) × (Slice → Bool)) :=
  [(.br, fun _ => true), (.brExecz, fun sl => sl.exec &&& ~~~sl.park == 0), (.brExecnz, fun sl => sl.exec &&& ~~~sl.park != 0),
   (.brScc1, fun sl => sl.scc), (.brScc0, fun sl => !sl.scc)]

/-- A slice after a vector to the supervisor handler: `hdr` and `ix` are the resumption point, `whdr`, `wix` and `flag`
the trapping word (R336, R340). -/
structure Slice.Vectored (sl sl' : Slice) (cause sub hdr ix whdr wix flag : Nat) : Prop where
  sepc : sl'.sepc = BitVec.ofNat 32 (hdr / 4 * 2 ^ 8 + ix * 2 ^ 5 + sl.exec.toNat)
  scause : sl'.scause = BitVec.ofNat 32 (cause * 2 ^ 24 + sub * 2 ^ 16 + sl.flanes)
  sfpc : sl'.sfpc = BitVec.ofNat 32 (whdr / 4 * 2 ^ 8 + wix * 2 ^ 5 + flag)
  banks : ∀ i, i < 8 → sl'.sget (16 + i) = nget sl.bank (16 + i) ∧ nget sl'.bank (16 + i) = sl.sget (16 + i)
  low : ∀ n, n < 16 → sl'.sget n = sl.sget n
  scc : sl'.scc = sl.bankScc ∧ sl'.bankScc = sl.scc
  mode : sl'.mode = .supervisor
  lane : 0x10 ≤ cause ∧ cause ≤ 0x17 → sl'.exec = sl.park ∧ sl'.park = 0
  other : ¬ (0x10 ≤ cause ∧ cause ≤ 0x17) → sl'.exec = 0b1111 ∧ sl'.park = sl.park
  pc : sl'.hdr = 0 ∧ sl'.ix = 0 ∧ sl'.opened = false ∧ sl'.code = []
  rest : sl' = { sl with sregs := sl'.sregs, bank := sl'.bank, scc := sl'.scc, bankScc := sl'.bankScc, sepc := sl'.sepc,
                         scause := sl'.scause, sfpc := sl'.sfpc, mode := sl'.mode, exec := sl'.exec, park := sl'.park,
                         conv := sl'.conv, hdr := sl'.hdr, ix := sl'.ix, opened := sl'.opened, code := sl'.code, cls := sl'.cls }

/-- The sub-crew that is issuing has reached a word with slices that all run in user mode, none a handler thread, none
at a convergence point that holds it up. -/
structure State.AtWord (s : State) (p : At) (conv : Bool) : Prop where
  issuing : s.at? = some p
  nonempty : p.members ≠ []
  distinct : p.members.Nodup
  slices : ∀ k ∈ p.members, ∃ sl, s.slice? p.team k = some sl ∧ sl.ended = false ∧ sl.block = .none ∧ sl.mode = .user
    ∧ sl.thread = none
    ∧ ((conv = true ∨ sl.conv = true) → s.allResolved p.team k = true ∧ sl.vectors = false)

/-! ## A word that one slice executes by itself -/

/-- The word `i` executes with slice `k` of team `x` as its whole sub-crew, no handler thread. -/
structure State.Alone (s : State) (i : Instr) (p : At) (x : Team) (k : Nat) (sl : Slice) : Prop where
  executes : s.Executes i p
  one : p.members = [k]
  team : s.team? p.team = some x
  slice : x.slice? k = some sl
  plain : sl.thread = none

/-- No relaxed access of the slices that issue is still to be performed at an ordering point; the unpaired ones count only at a
fence or `end` (R139). -/
def State.NoneLate (s : State) (p : At) (fence : Bool) : Prop := ∀ k ∈ p.members, s.lateLeft p.team k fence = false

/-- A slice with no memory operation of its own outstanding (R64). -/
def State.Idle (s : State) (u k : Nat) : Prop := ∀ op ∈ s.pend, ¬ (op.team = u ∧ op.slice = k)

/-- What stays as it was outside the slices `ms` of team `u`: memory, the other teams, the other slices. -/
structure Elsewhere (s t : State) (u : Nat) (ms : List Nat) : Prop where
  memory : ∀ a, t.mem.byte a = s.mem.byte a
  teams : ∀ v, v ≠ u → t.team? v = s.team? v
  slices : ∀ m, m ∉ ms → t.slice? u m = s.slice? u m

/-- The flags after a word attaches to the flag it is assigned (R65). -/
structure Slice.Attached (sl sl' : Slice) (flag : Option Nat) : Prop where
  named : ∀ f, flag = some f → sl'.flag f = sl.flag f + 1
  others : ∀ g, flag ≠ some g → sl'.flag g = sl.flag g

/-- The flags after the flag of a finished operation falls, which never goes below 0 (R65). -/
structure Slice.Dropped (sl sl' : Slice) (flag : Option Nat) : Prop where
  named : ∀ f, flag = some f → (sl'.flag f).toNat = (sl.flag f).toNat - 1
  others : ∀ g, flag ≠ some g → sl'.flag g = sl.flag g

/-- The slices that wait, each alone in its sub-crew, for a generation of barrier `n` that has completed when COMP reads `comp`, go
on to the next word (R20, R303, R304). -/
def Team.Released (x y : Team) (n : Nat) (comp : BitVec 16) : Prop :=
  (x.slices.map (fun z => z.idx)).Nodup → ∀ (m : Nat) (z : Slice) (c : SubCrew) (g : BitVec 16), x.slice? m = some z →
    z.block = .barrier n g → 1 ≤ (comp - g).toNat → (comp - g).toNat ≤ 32768 → x.sub? m = some c → c.members = [m] →
    ∃ z', y.slice? m = some z' ∧ z.WentOn z'
      ∧ z' = { z with block := .none, hdr := z'.hdr, ix := z'.ix, opened := z'.opened, code := z'.code }

/-! ## Memory words (R223 to R231) -/

/-- What a memory word asks of each lane: kind, place in S, bytes, alignment, whether it addresses the scratchpad
allocation, its exact effective address and its data, from the crew size, the slice, the operands and the lane. -/
structure MemRow where
  kind : AccKind
  order : Order
  size : Nat
  align : Nat
  loc : Bool := false
  uniform : Opd → Opd → Bool
  ea : Nat → Slice → Opd → Opd → Nat → Int
  /-- D or B, and how many of its words, when the word carries data -/
  data : Opd → Opd → Option (Opd × Nat)

/-- A 64-bit number from a register and the one above it (R53). -/
def Slice.pairOf (c : Nat) (sl : Slice) (o : Opd) (l : Nat) : Nat :=
  (sl.read c o l).toNat + 2 ^ 32 * (sl.read c (o.plus 1) l).toNat

/-- pair(A) + sext(b) (R225). -/
def indexed (c : Nat) (sl : Slice) (a b : Opd) (l : Nat) : Int := (sl.pairOf c a l : Int) + (sl.read c b l).toInt

/-- The loads and stores of LDX (R225 to R228). -/
def ldxRows : List (VWord × MemRow) :=
  let u := fun (a b : Opd) => !a.isV && !b.isV
  let load := fun sgn o n => ({ kind := .load sgn, order := o, size := n, align := n, uniform := u, ea := indexed,
                                data := fun _ _ => none } : MemRow)
  let store := fun o n => ({ kind := .store, order := o, size := n, align := n, uniform := u, ea := indexed,
                             data := fun d _ => some (d, 1) } : MemRow)
  [(.ldS8, load true .ord 1), (.ldZ8, load false .ord 1), (.ldS16, load true .ord 2), (.ldZ16, load false .ord 2),
   (.ald, load false .ord 4), (.aldUnp, load false .unp 4), (.aldQnt, load false .qnt 4), (.aldSpec, load false .spec 4),
   (.st8, store .ord 1), (.st16, store .ord 2), (.ast, store .ord 4), (.astUnp, store .unp 4)]
  ++ [0, 1, 2, 3].flatMap (fun (w : BitVec 2) =>
    let n := 2 ^ w.toNat
    [(.ldl w, { kind := .load false, order := .ord, size := 4 * n, align := 4, loc := true, uniform := u, data := fun _ _ => none,
                ea := fun c sl a b l => ((sl.read c a l).toNat + (sl.read c b l).toNat : Nat) }),
     (.stl w, { kind := .store, order := .ord, size := 4 * n, align := 4, loc := true, uniform := u, data := fun d _ => some (d, n),
                ea := fun c sl a b l => ((sl.read c a l).toNat + (sl.read c b l).toNat : Nat) }),
     (.ldi w, { kind := .load false, order := .ord, size := 4 * n, align := 4, uniform := u, data := fun _ _ => none,
                ea := fun c sl a b l => (sl.pairOf c a l + 4 * n * (sl.read c b l).toNat : Nat) })])

/-- `ld` and `st` with an immediate: 1, 2, 4 or 8 registers at pair(A) + 4 sext(IMM11) (R223). -/
def ldstRows (imm : BitVec 11) : List (VWord × MemRow) :=
  let row := fun kind n data =>
    ({ kind := kind, order := .ord, size := 4 * n, align := 4, uniform := fun a _ => !a.isV, data := data,
       ea := fun c sl a _ l => (sl.pairOf c a l : Int) + 4 * imm.toInt } : MemRow)
  [0, 1, 2, 3].flatMap (fun (w : BitVec 2) =>
    [(fun d a _ => .ld w d a imm, row (.load false) (2 ^ w.toNat) (fun _ _ => none)),
     (fun d a _ => .st w d a imm, row .store (2 ^ w.toNat) (fun d _ => some (d, 2 ^ w.toNat)))])

/-- The place in S of a declared use (R231). -/
def declaredUse (w : BitVec 2) : Order := if w = 0 then .ord else if w = 1 then .com else if w = 2 then .nord else .unp

/-- The ten functions that ATOM and ATOM64 share, by FN (R230): the new value from the old one and *b*. -/
def atomFns (n : Nat) : List (BitVec n → BitVec n → BitVec n) :=
  [fun x b => x + b, fun x b => x - b, fun x b => if x.sle b then x else b, fun x b => if b.sle x then x else b,
   fun x b => if x.ule b then x else b, fun x b => if b.ule x then x else b, fun x b => BitVec.and x b,
   fun x b => BitVec.or x b, fun x b => BitVec.xor x b, fun _ b => b]

/-- The constructors of ATOM and ATOM64 with those functions, by the order of FN. -/
def atomShared : List ((BitVec 2 → VWord) × (BitVec 2 → VWord)) :=
  [(.atomAdd, .atom64Add), (.atomSub, .atom64Sub), (.atomMin, .atom64Min), (.atomMax, .atom64Max),
   (.atomNmin, .atom64Nmin), (.atomNmax, .atom64Nmax), (.atomAnd, .atom64And), (.atomOr, .atom64Or),
   (.atomXor, .atom64Xor), (.atomXchg, .atom64Xchg)]

/-- The functions of ATOM alone (R230): `cas` on a pair, the circular counters, binary32. -/
def atomAlone : List ((BitVec 2 → VWord) × Nat × Nat × (Nat → Nat → Nat)) :=
  [(.atomCas, 10, 2, fun x b => if x = b % 2 ^ 32 then b / 2 ^ 32 % 2 ^ 32 else x),
   (.atomInc, 11, 1, fun x b => if b ≤ x then 0 else x + 1),
   (.atomDec, 12, 1, fun x b => if x = 0 ∨ b < x then b else x - 1),
   (.atomFadd, 13, 1, fun x b => (f32.add .rne (f32.decode x) (f32.decode b)).1),
   (.atomFmin, 14, 1, fun x b => (f32.minmax false x b).1), (.atomFmax, 15, 1, fun x b => (f32.minmax true x b).1)]

/-- The row of an atomic of FN `fn`, `size` bytes, an operand of `n` words (R229 to R231). -/
def atomRow (fn size n : Nat) (w : BitVec 2) : MemRow where
  kind := .atom fn
  order := declaredUse w
  size := size
  align := size
  uniform := fun _ _ => false
  ea := fun c sl a _ l => (sl.pairOf c a l : Int)
  data := fun _ b => some (b, n)

/-- Every atomic with its row and what it makes of the old value and the operand, as numbers (R230). -/
def atomRows : List (VWord × MemRow × (Nat → Nat → Nat)) :=
  [0, 1, 2, 3].flatMap (fun (w : BitVec 2) =>
    ((atomShared.zip ((atomFns 32).zip (atomFns 64))).zip (List.range 10)).flatMap (fun e =>
      [(e.1.1.1 w, atomRow e.2 4 1 w, fun x b => (e.1.2.1 (BitVec.ofNat 32 x) (BitVec.ofNat 32 b)).toNat),
       (e.1.1.2 w, atomRow e.2 8 2 w, fun x b => (e.1.2.2 (BitVec.ofNat 64 x) (BitVec.ofNat 64 b)).toNat)])
    ++ atomAlone.map (fun e => (e.1 w, atomRow e.2.1 4 e.2.2.1 w, e.2.2.2)))

/-- Every memory word with its row. -/
def memRows (imm : BitVec 11) : List (VWord × MemRow) := ldxRows ++ ldstRows imm ++ atomRows.map (fun e => (e.1, e.2.1))

/-- The access that a memory word makes for lane `l` of a slice: everything is captured as it issues; a uniform access
takes its address and data from the lowest lane (R219, R221, R337). -/
structure MemRow.Captures (r : MemRow) (i : Instr) (p : At) (c : Nat) (sl : Slice) (d a b : Opd) (l : Nat) (x : Acc) : Prop where
  kind : x.kind = r.kind ∧ x.order = r.order ∧ x.uniform = r.uniform a b
  shape : x.size = r.size ∧ x.align = r.align ∧ x.loc = r.loc
  lanes : x.lanes = if r.uniform a b then sl.lanes else [l]
  apart : x.comb = false
  ea : 0 ≤ r.ea c sl a b (x.lanes.headD 0) → (x.ea : Int) = r.ea c sl a b (x.lanes.headD 0)
  data : ∀ o n, r.data d b = some (o, n) →
    x.data = ((List.range n).map (fun j => (sl.read c (o.plus j) (x.lanes.headD 0)).toNat * 2 ^ (32 * j))).sum
      % 2 ^ (if r.size < 4 then 8 * r.size else 32 * n)
  dst : x.dst = match r.kind, d with
    | .store, _ => []
    | _, .v n => (List.range ((r.size + 3) / 4)).map (fun j => sl.wb + n.val + j)
    | _, _ => []
  word : x.hdr = p.hdr ∧ x.ix = p.ix ∧ x.flag = (if i.long then p.flag else none) ∧ x.sup = (sl.mode == .supervisor)

/-! ## Commands and tasks -/

/-- Where an ENG command's number stands, word by word (R237, R242 to R249). -/
def engWords : List ((Opd → Opd → Instr) × Nat) :=
  [(.copy, 0), (.copyT2, 1), (.copyT3, 2), (.copyConv, 3), (.qcopy, 4), (.catchL, 5), (.catchT2, 6), (.pref, 7)]

/-- The MTX words that queue a command: number, and whether A is an octet (R266, R267). -/
def mtxWords : List ((Opd → Opd → Instr) × Nat × Bool) :=
  [(.mloop, 0, true), (.mloops, 1, true), (.mdrain, 2, true), (.mdrains, 3, true), (.mzero, 4, false), (.msig, 5, true),
   (.mskip, 6, true)]

/-- An access that a held translation carries to `pa`, on memory of the package or of its links that no check of policy, no
poison, no checkpoint ceiling and no full capture buffer keeps it from, and of which no copy has fallen behind (R126, R137,
R138, R219, R240, R403, R445). -/
structure State.Reaches (s : State) (t : Team) (n : Need) (sup : Bool) (va len : Nat) (l : Leaf) : Prop where
  canonical : canonicalRange va len = true
  within : 0 < len ∧ va % 128 + len ≤ 128
  held : s.lookUp t.core t.asid va n sup = .hit l
  allowed : s.policyFault t.core l (l.addr va) n false = none
  plain : l.share ≠ .dev ∧ beyond (l.addr va) = false ∧ inRange .fabric (l.addr va) = false
  fresh : s.Fresh (l.addr va)
  room : s.HasRoom (l.addr va)
  free : s.ceiling t.core = none
  clean : s.poisoned (l.addr va) len = false

/-- The words of an octet of scalars, in order (R53). -/
def Slice.OctetOf (sl : Slice) (a : Opd) (o : List Word) : Prop := o.length = 8 ∧ ∀ j, j < 8 → o[j]? = some (sl.readS (a.plus j))

/-! ## Packets, the host page and the firmware -/

/-- The front end reads the packet `x` of a queue: it is next, the turn is its queue's, and its checks pass with `r` read
(R378 to R381, R384). -/
structure State.Reads (s : State) (part queue x : Nat) (r : Read) (s' : State) : Prop where
  next : s.nextPacket part queue = some x
  turn : s.nextQueue = some (part, queue)
  checks : s.checkPacket part x = (s', .ok r)

/-- The address of the completion entry of the next packet of a queue (R382, R423). -/
def State.entryAddr (s : State) (part queue : Nat) : Nat :=
  let q := (s.part part).queue queue
  q.cbase.toNat + 16 * (q.head.toNat % q.size)

/-- The completion entry of the next packet of a queue stands in one sector that can be written. -/
structure State.EntryFree (s : State) (part queue : Nat) : Prop where
  sector : s.entryAddr part queue % 128 + 16 ≤ 128
  placed : s.revoked (s.entryAddr part queue) = false

/-- The next packet of a queue has been read: HEAD has moved past it (R378). -/
def State.Passed (s t : State) (part queue : Nat) : Prop :=
  ((t.part part).queue queue).head = ((s.part part).queue queue).head + 1

/-- The next packet of a queue has completed: its entry holds INDEX, STATUS and INFO, and the message is sent (R382,
R422). -/
structure State.Completed (s t : State) (part queue status info : Nat) : Prop where
  entry : t.mem.nat (s.entryAddr part queue) 16 =
    ((s.part part).queue queue).head.toNat % ((s.part part).queue queue).size + status * 2 ^ 64 + info * 2 ^ 96
  message : Sent.msix (part + 1) ((s.part part).queue queue).vec.toNat ∈ t.sent

/-- The launches after the packet `x` of a queue is read: the one that a LAUNCH packet's ring position named before is no longer
named by it (R448). -/
def State.Renamed (s : State) (part queue x : Nat) : List Launch :=
  let q := (s.part part).queue queue
  s.launches.map (fun L =>
    if pktType x = 1 ∧ L.part = part ∧ L.queue = queue ∧ L.index = q.head.toNat % q.size then { L with named := false } else L)

/-- Memory as it was but for the completion entry of the next packet of a queue. -/
def State.OnlyEntry (s t : State) (part queue : Nat) : Prop :=
  ∀ m, m < s.entryAddr part queue ∨ s.entryAddr part queue + 16 ≤ m → t.mem.byte m = s.mem.byte m

/-- Two lists of ranges share a byte (R383). -/
def RangesShare (a b : List (Nat × Nat)) : Prop := ∃ x ∈ a, ∃ y ∈ b, x.1 < y.1 + y.2 ∧ y.1 < x.1 + x.2

/-- Nothing but the page and resources of one partition changes. -/
structure PageOnly (s t : State) (part : Nat) : Prop where
  rest : t = { s with parts := t.parts }
  parts : ∀ m, m ≠ part → t.part m = s.part m

/-- A call of the management page has completed with a result, and its message is sent (R425, R426). -/
structure State.CallDone (t : State) (r : BitVec 8) : Prop where
  go : t.mgmt.go = false
  result : t.mgmt.result = r
  message : Sent.msix 0 0 ∈ t.sent

/-- Slices as they were but for what they wait in (R398). -/
def SlicesKept (a b : List Slice) : Prop :=
  b.length = a.length ∧ ∀ (j : Nat) (sl : Slice), a[j]? = some sl → ∃ sl' : Slice, b[j]? = some sl' ∧ sl' = { sl with block := sl'.block }
    ∧ (sl.block = .none → sl'.block = .none)

/-- A slice as R87 starts it: `no` and `n` are s2 and s3, `i` its number, `e` its role's number and entry. -/
structure Slice.Started (sl : Slice) (r : LRec) (no n i role : Nat) : Prop where
  pc : sl.hdr = r.entry ∧ sl.ix = 0 ∧ sl.opened = false
  args : (sl.sget 0).toNat = r.args % 2 ^ 32 ∧ (sl.sget 1).toNat = r.args / 2 ^ 32 % 2 ^ 32
  names : sl.sget 2 = BitVec.ofNat 32 no ∧ sl.sget 3 = BitVec.ofNat 32 n ∧ sl.sget 4 = BitVec.ofNat 32 i
    ∧ sl.sget 5 = BitVec.ofNat 32 role
  zero : (∀ m, 6 ≤ m → sl.sget m = 0) ∧ (∀ m l, sl.vget m l = 0) ∧ ∀ f, sl.flag f = 0
  lanes : sl.exec = 0b1111 ∧ sl.park = 0 ∧ sl.scc = false ∧ sl.mode = .user
  place : sl.alloc = r.regblk ∧ sl.fpc = 0 ∧ sl.fps = 0 ∧ sl.uiv = 0 ∧ sl.recs = [] ∧ sl.block = .none ∧ sl.ended = false

/-- The running command `c` at the head of its core's queue, issued by the one slice `k` with flag `f` and destination `d`, while
that slice goes on with its program (R267, R268). -/
structure State.Sequences (s : State) (x : Team) (c : MCmd) (k : Nat) (d : Opd) (f : Option Nat) (sl : Slice) : Prop where
  head : s.mHead x.core = some (x, c)
  team : s.team? x.uid = some x
  started : c.started = true
  issuer : ∃ wb, c.slices = [(k, d, f, wb)]
  slice : x.slice? k = some sl
  running : sl.mode = .user ∧ sl.thread = none ∧ sl.ended = false ∧ sl.block = .none

/-- The command has ended: D receives `w`, the flag falls, and the command leaves the queue (R267 to R269). -/
structure State.Sequenced (t : State) (x : Team) (c : MCmd) (k : Nat) (d : Opd) (f : Option Nat) (sl : Slice) (w : Word) : Prop where
  ended : ∃ sl', t.slice? x.uid k = some sl' ∧ (∀ r, d = .s r → sl'.sget r.val = w)
    ∧ (∀ n, (∀ r, d = .s r → r.val ≠ n) → sl'.sget n = sl.sget n) ∧ sl.Dropped sl' f
  left : ∀ y ∈ (t.core x.core).engine.queue, y.id ≠ c.id

/-- The step of the command is counted, and after the last of `steps` the command has ended with them all (R269, R271). -/
def State.StepCounted (t : State) (x : Team) (c : MCmd) (k : Nat) (d : Opd) (f : Option Nat) (sl : Slice) (steps : Nat) : Prop :=
  (c.step + 1 < steps → ∃ y ∈ (t.core x.core).engine.queue,
    y.id = c.id ∧ y.octet = c.octet ∧ y.slices = c.slices ∧ y.step = c.step + 1 ∧ y.count = c.step + 1)
  ∧ (c.step + 1 = steps → t.Sequenced x c k d f sl (BitVec.ofNat 32 steps))

/-- The accumulators after a step of a group into the tile at block `tile`: each takes its row and its column, from +0 with ZF, and
a BF16 group leaves the columns 32 to 63 to ZF alone (R271). -/
def StepAccs (m m' : NMap 32) (g : Group) (zf : Bool) (tile : Nat) (rows : List (List Cell)) : Prop :=
  let w := if g.bf16 then 32 else 64
  ∀ b r j, b < 16 → r < 16 → j < 64 →
    let old := if zf then 0 else (nget m (accKey b r j)).toNat
    nget m' (accKey b r j) =
      if b < tile ∨ tile + g.n ≤ b then nget m (accKey b r j)
      else if w ≤ j then BitVec.ofNat 32 old
      else BitVec.ofNat 32 (accumulate g.bf16 old (rows.getD r []) (g.cells.getD (w * (b - tile) + j) []))

/-- One write of 16 bytes of an engine that no checkpoint ceiling and no full capture buffer keeps from memory (R147, R403). -/
structure State.Writes16 (s : State) (x : Team) (c : MCmd) (va : Nat) (p : Piece) (s' : State) : Prop where
  checked : s.engCheck x c.bad .store va 16 = (s', .ok [p])
  sound : p.size = 16 ∧ beyond p.pa = false ∧ s'.revoked p.pa = false
  now : s'.engPast x c.owner [p] true = false

/-- The size of a finite code of a format, in units of 2^-K (R90). -/
def Fmt.units (f : Fmt) (K c : Nat) : Nat :=
  match f.decode c with
  | .num _ m e => m * 2 ^ (e + K).toNat
  | .nan _ | .inf _ => 0

end Sys2Proof.Machine
end

