-- ==== Sys2Proof/Certificates/Slice0/Obligations.lean ====
section
/-! DEFINITION. The statements for the provers. -/

open Sys2Proof
open Sys2Proof.Machine

/-! ## The vector classes -/

/-- R188, R193, R195, R196: every IALU and IBIT word that executes gives each lane of the effective mask the value of its
row in D, and changes nothing else of its slices but their position. -/
def Obligations.IntegerArithmeticResults : Prop :=
  ∀ e ∈ ialuWords ++ ibitWords, ∀ (s : State) (p : At) (d a b : Opd), s.Executes (e.1 d a b) p →
    ∃ t, exec (e.1 d a b) s = .next t ∧ WordFrame s t (e.1 d a b) p ∧ EachSlice s t p (fun x sl sl' =>
      let c := x.record.crewlog
      sl.VectorResult sl' d (fun l => e.2 (sl.read c a l) (sl.read c b l) (sl.read c d l)) 0)

/-- R194, R197, R198: `vaddi`, the funnel shifts by an immediate, and `lop3` bit by bit. -/
def Obligations.ImmediateVectorResults : Prop :=
  (∀ (s : State) (p : At) (d a : Opd) (n : BitVec 11), s.Executes (.vaddi d a n) p →
    ∃ t, exec (.vaddi d a n) s = .next t ∧ WordFrame s t (.vaddi d a n) p ∧ EachSlice s t p (fun x sl sl' =>
      sl.VectorResult sl' d (fun l => BitVec.ofInt 32 ((sl.read x.record.crewlog a l).toInt + n.toInt)) 0))
  ∧ (∀ (s : State) (p : At) (d a : Opd) (k : BitVec 5), s.Executes (.fshiL d a k) p →
    ∃ t, exec (.fshiL d a k) s = .next t ∧ WordFrame s t (.fshiL d a k) p ∧ EachSlice s t p (fun x sl sl' =>
      sl.VectorResult sl' d (fun l => (BitVec.ofNat 64 (sl.pair x.record.crewlog a l) <<< k).extractLsb' 32 32) 0))
  ∧ (∀ (s : State) (p : At) (d a : Opd) (k : BitVec 5), s.Executes (.fshiR d a k) p →
    ∃ t, exec (.fshiR d a k) s = .next t ∧ WordFrame s t (.fshiR d a k) p ∧ EachSlice s t p (fun x sl sl' =>
      sl.VectorResult sl' d (fun l => (BitVec.ofNat 64 (sl.pair x.record.crewlog a l) >>> k).extractLsb' 0 32) 0))
  ∧ (∀ (s : State) (p : At) (w : BitVec 8) (d a b : BitVec 6), s.Executes (.lop3 w d a b) p →
    ∃ t, exec (.lop3 w d a b) s = .next t ∧ WordFrame s t (.lop3 w d a b) p ∧ EachSlice s t p (fun _ sl sl' =>
      ∃ val : Nat → Word, sl.VectorResult sl' (.v ⟨d.toNat, by omega⟩) val 0
        ∧ ∀ l j, j < 32 → (val l).getLsbD j = w.getLsbD (4 * ((sl.vget (sl.wb + d.toNat) l).getLsbD j).toNat
            + 2 * ((sl.vget (sl.wb + a.toNat) l).getLsbD j).toNat + ((sl.vget (sl.wb + b.toNat) l).getLsbD j).toNat)))

/-- R199 to R203: every FALU word writes D lane by lane and ORs the flags of its lanes into FPS. -/
def Obligations.FloatResults : Prop :=
  ∀ e ∈ faluWords, ∀ (s : State) (p : At) (d a b : Opd), s.Executes (e.1 d a b) p →
    ∃ t, exec (e.1 d a b) s = .next t ∧ WordFrame s t (e.1 d a b) p ∧ EachSlice s t p (fun x sl sl' =>
      let c := x.record.crewlog
      let r := fun l => e.2 (rmOf sl.fpc) (sl.read c a l).toNat (sl.read c b l).toNat (sl.read c d l).toNat
      sl.VectorResult sl' d (fun l => BitVec.ofNat 32 (r l).1) (sl.raised (fun l => (r l).2)))

/-- R204, R205: the same of every HALU word, half by half, with the flush bits of FPC. The NV that `hdot2` raises for an infinity
times zero, or for opposite infinite products, beside a NaN is the model's reading (log 51). -/
def Obligations.HalfResults : Prop :=
  ∀ e ∈ haluWords, ∀ (s : State) (p : At) (d a b : Opd), s.Executes (e.1 d a b) p →
    ∃ t, exec (e.1 d a b) s = .next t ∧ WordFrame s t (e.1 d a b) p ∧ EachSlice s t p (fun x sl sl' =>
      let c := x.record.crewlog
      let r := fun l => e.2 sl.fpc (sl.read c a l).toNat (sl.read c b l).toNat (sl.read c d l).toNat
      sl.VectorResult sl' d (fun l => BitVec.ofNat 32 (r l).1) (sl.raised (fun l => (r l).2)))

/-- R206 to R208: the same of every CVT word but `cvt.q.l6`. -/
def Obligations.ConversionResults : Prop :=
  ∀ e ∈ cvtWords, ∀ (s : State) (p : At) (d a b : Opd), s.Executes (e.1 d a b) p →
    ∃ t, exec (e.1 d a b) s = .next t ∧ WordFrame s t (e.1 d a b) p ∧ EachSlice s t p (fun x sl sl' =>
      let c := x.record.crewlog
      let r := fun l => e.2 sl.fpc (sl.read c a l).toNat (sl.read c b l).toNat (sl.read c d l).toNat
      sl.VectorResult sl' d (fun l => BitVec.ofNat 32 (r l).1) (sl.raised (fun l => (r l).2)))

/-- R111, R208: `cvt.q.l6` writes the Q31.32 value of each lane as a pair, low word in the lower register, and raises
its flags once. -/
def Obligations.QuantumPairResult : Prop :=
  ∀ (s : State) (p : At) (n : Fin 96) (a b : Opd), s.Executes (.cvtQL6 (.v n) a b) p →
    ∃ t, exec (.cvtQL6 (.v n) a b) s = .next t ∧ WordFrame s t (.cvtQL6 (.v n) a b) p ∧ EachSlice s t p (fun x sl sl' =>
      let q := fun l => cvtQL6 (sl.read x.record.crewlog a l).toNat (sl.read x.record.crewlog b l).toInt
      (∀ l, l < 4 → sl.on l = true →
        ((sl'.vget (sl.wb + n.val) l).toNat + 2 ^ 32 * (sl'.vget (sl.wb + n.val + 1) l).toNat = (q l).1))
      ∧ (∀ k l, l < 4 → (sl.on l = false ∨ (k ≠ sl.wb + n.val ∧ k ≠ sl.wb + n.val + 1)) → sl'.vget k l = sl.vget k l)
      ∧ sl'.fps = sl.fps ||| sl.raised (fun l => (q l).2) ∧ sl.WentOn sl'
      ∧ sl' = { sl.charged with vregs := sl'.vregs, marks := sl'.marks, fps := sl'.fps, hdr := sl'.hdr, ix := sl'.ix,
                                opened := sl'.opened, code := sl'.code })

/-- R118, R119, R209: every TRN word gives each lane the one result that the function of its row has for that input, the default
NaN for a NaN, and ORs the flags of the lanes into FPS. The special results and the exact ones are those of R118; `sqrt` is
correctly rounded, and `rcp` and `rsq` lie within 1 ulp of the exact result and are inexact. Which value within the bounds of R118
a result is, is the model's choice (log 10); the bounds of `exp2`, `log2`, `sinpi`, `cospi` and `tanh` are not stated here. Sizes
are counted in units of 2^-150 (`Fmt.units`). -/
def Obligations.TranscendentalResults : Prop :=
  ∀ e ∈ trnWords, ∀ (s : State) (p : At) (d a : Opd), s.Executes (e.1 d a) p →
    ∃ t, exec (e.1 d a) s = .next t ∧ WordFrame s t (e.1 d a) p ∧ EachSlice s t p (fun x sl sl' =>
      let r := fun l => e.2 (rmOf sl.fpc) (sl.read x.record.crewlog a l).toNat
      sl.VectorResult sl' d (fun l => BitVec.ofNat 32 (r l).1) (sl.raised (fun l => (r l).2))
      ∧ ∀ l, (f32.decode (sl.read x.record.crewlog a l).toNat).isNan = true →
          r l = (0x7FC00000, snanFlag [f32.decode (sl.read x.record.crewlog a l).toNat]))
  -- zeros and infinities
  ∧ (trnRcp 0 = (0x7F800000, flagDZ) ∧ trnRcp 0x80000000 = (0xFF800000, flagDZ) ∧ trnRcp 0x7F800000 = (0, 0)
    ∧ trnRcp 0xFF800000 = (0x80000000, 0)
    ∧ trnRsq 0 = (0x7F800000, flagDZ) ∧ trnRsq 0x80000000 = (0xFF800000, flagDZ) ∧ trnRsq 0x7F800000 = (0, 0)
    ∧ trnRsq 0xFF800000 = (0x7FC00000, flagNV)
    ∧ (∀ rm, trnSqrt rm 0 = (0, 0) ∧ trnSqrt rm 0x80000000 = (0x80000000, 0) ∧ trnSqrt rm 0x7F800000 = (0x7F800000, 0)
      ∧ trnSqrt rm 0xFF800000 = (0x7FC00000, flagNV))
    ∧ trnExp2 0x7F800000 = (0x7F800000, 0) ∧ trnExp2 0xFF800000 = (0, 0)
    ∧ trnLog2 0 = (0xFF800000, flagDZ) ∧ trnLog2 0x80000000 = (0xFF800000, flagDZ) ∧ trnLog2 0x7F800000 = (0x7F800000, 0)
    ∧ trnLog2 0xFF800000 = (0x7FC00000, flagNV) ∧ trnLog2 0x3F800000 = (0, 0)
    ∧ (∀ x, x = 0x7F800000 ∨ x = 0xFF800000 → trnSinpi x = (0x7FC00000, flagNV) ∧ trnCospi x = (0x7FC00000, flagNV))
    ∧ trnTanh 0 = (0, 0) ∧ trnTanh 0x80000000 = (0x80000000, 0) ∧ trnTanh 0x7F800000 = (0x3F800000, 0)
    ∧ trnTanh 0xFF800000 = (0xBF800000, 0))
  ∧ ∀ (x : Nat) (n : Bool) (m : Nat) (e : Int), x < 2 ^ 32 → f32.decode x = .num n m e →
    -- |x| in units of 2^-149 and of 2^-300, and whole
    let X := m * 2 ^ (e + 149).toNat
    let Y := m * 2 ^ (e + 300).toNat
    let q := X / 2 ^ 149
    let sign := fun (b : Bool) => if b then 2 ^ 31 else 0
    let pow := fun (r : Nat × BitVec 5) (b : Bool) (k : Int) => ∃ c, c < 2 ^ 31 ∧ r = (sign b + c, 0) ∧ f32.units 150 c = 2 ^ (k + 150).toNat
    -- less than zero
    (n = true → m ≠ 0 → trnRsq x = (0x7FC00000, flagNV) ∧ (∀ rm, trnSqrt rm x = (0x7FC00000, flagNV)) ∧ trnLog2 x = (0x7FC00000, flagNV))
    -- past the ends of exp2
    ∧ (n = false → 128 * 2 ^ 149 ≤ X → trnExp2 x = (0x7F800000, flagOF ||| flagNX))
    ∧ (n = true → 150 * 2 ^ 149 < X → trnExp2 x = (0, flagUF ||| flagNX))
    -- whole and half multiples of π
    ∧ (X % 2 ^ 149 = 0 → trnSinpi x = (sign n, 0) ∧ trnCospi x = (0x3F800000 + sign (q % 2 == 1), 0))
    ∧ (X % 2 ^ 149 = 2 ^ 148 → trnSinpi x = (0x3F800000 + sign (n != (q % 2 == 1)), 0) ∧ trnCospi x = (0, 0))
    -- exact results
    ∧ (∀ k : Int, -127 ≤ k → X = 2 ^ (k + 149).toNat → pow (trnRcp x) n (-k) ∧ (n = false → k % 2 = 0 → pow (trnRsq x) false (-(k / 2))))
    ∧ (∀ k : Nat, X = k * 2 ^ 149 → (n = false → k ≤ 127 → pow (trnExp2 x) false k) ∧ (n = true → k ≤ 149 → pow (trnExp2 x) false (-k)))
    ∧ (∀ k : Int, -149 ≤ k → n = false → X = 2 ^ (k + 149).toNat → ∃ c, c < 2 ^ 31 ∧ trnLog2 x = (sign (k < 0) + c, 0)
        ∧ f32.units 150 c = k.natAbs * 2 ^ 150)
    -- `sqrt`
    ∧ (n = false → m ≠ 0 → ∀ rm, ∃ c, c < 0x7F800000 ∧ 0 < c ∧ (trnSqrt rm x).1 = c
      ∧ (rm = .rne → (f32.units 150 (c - 1) + f32.units 150 c) ^ 2 ≤ 4 * Y ∧ 4 * Y ≤ (f32.units 150 c + f32.units 150 (c + 1)) ^ 2)
      ∧ (rm = .rtz ∨ rm = .rdn → f32.units 150 c ^ 2 ≤ Y ∧ Y < f32.units 150 (c + 1) ^ 2)
      ∧ (rm = .rup → f32.units 150 (c - 1) ^ 2 < Y ∧ Y ≤ f32.units 150 c ^ 2)
      ∧ (trnSqrt rm x).2 = if f32.units 150 c ^ 2 = Y then 0 else flagNX)
    -- `rcp` and `rsq` within 1 ulp
    ∧ (2 ^ 21 < X → (∀ k : Nat, X ≠ 2 ^ k) → ∃ c, c < 0x7F800000 ∧ (trnRcp x).1 = sign n + c
      ∧ (trnRcp x).2 = (if c < 2 ^ 23 then flagUF ||| flagNX else flagNX)
      ∧ ∀ k : Nat, 2 ^ k * X ≤ 2 ^ 299 → 2 ^ 299 < 2 ^ (k + 1) * X →
          let u := 2 ^ (max k 24 - 23)
          f32.units 150 c * X ≤ 2 ^ 299 + u * X ∧ 2 ^ 299 ≤ (f32.units 150 c + u) * X)
    ∧ (n = false → m ≠ 0 → (∀ k : Nat, X ≠ 2 ^ (2 * k + 1)) → ∃ c, c < 0x7F800000 ∧ trnRsq x = (c, flagNX)
      ∧ ∀ k : Nat, 2 ^ (2 * k) * X ≤ 2 ^ 449 → 2 ^ 449 < 2 ^ (2 * k + 2) * X →
          (f32.units 150 c - 2 ^ (k - 23)) ^ 2 * X ≤ 2 ^ 449 ∧ 2 ^ 449 ≤ (f32.units 150 c + 2 ^ (k - 23)) ^ 2 * X)

/-- R162 to R164: the integer compares and `fcls` write the mask of the lanes where they hold, and leave FPS. -/
def Obligations.IntegerCompareResults : Prop :=
  ∀ e ∈ intCompares, ∀ (s : State) (p : At) (d a b : Opd), s.Executes (e.1 d a b) p →
    ∃ t, exec (e.1 d a b) s = .next t ∧ WordFrame s t (e.1 d a b) p ∧ EachSlice s t p (fun x sl sl' =>
      let c := x.record.crewlog
      sl.CompareResult sl' d (fun l => e.2 (sl.read c a l) (sl.read c b l)) 0)

/-- R162, R163: the binary32 compares, with what they give on a NaN and the NV they raise. -/
def Obligations.FloatCompareResults : Prop :=
  ∀ e ∈ floatCompares, ∀ (s : State) (p : At) (d a b : Opd), s.Executes (e.1 d a b) p →
    ∃ t, exec (e.1 d a b) s = .next t ∧ WordFrame s t (e.1 d a b) p ∧ EachSlice s t p (fun x sl sl' =>
      let c := x.record.crewlog
      let v := fun o l => f32.decode (sl.read c o l).toNat
      sl.CompareResult sl' d (fun l => if (v a l).isNan || (v b l).isNan then e.2.2.1 else e.2.1 (v a l) (v b l))
        (sl.raised (fun l => compareNv e.2.2.2 (v a l) (v b l))))

/-! ## The scalar class -/

/-- R158 to R160, R171: every SALU word and `saddi` write the result to a scalar, `exec` or nowhere, and SCC; `movi` and
`movhi` write their 18 bits to a vector register or a scalar. -/
def Obligations.ScalarResults : Prop :=
  (∀ e ∈ saluWords, ∀ (s : State) (p : At) (d a b : Opd), s.Executes (e.1 d a b) p →
    ∃ t, exec (e.1 d a b) s = .next t ∧ WordFrame s t (e.1 d a b) p ∧ EachSlice s t p (fun _ sl sl' =>
      sl.ScalarResult sl' d (e.2 (sl.readS a) (sl.readS b)).1 (e.2 (sl.readS a) (sl.readS b)).2 sl.fps))
  ∧ (∀ (s : State) (p : At) (d a : Opd) (n : BitVec 11), s.Executes (.saddi d a n) p →
    ∃ t, exec (.saddi d a n) s = .next t ∧ WordFrame s t (.saddi d a n) p ∧ EachSlice s t p (fun _ sl sl' =>
      let w := BitVec.ofInt 32 ((sl.readS a).toInt + n.toInt)
      sl.ScalarResult sl' d w (w != 0) sl.fps))
  ∧ (∀ e ∈ [((fun d n => Instr.movi d n : Opd → BitVec 18 → Instr), (fun (n : BitVec 18) (_ : Word) => BitVec.ofInt 32 n.toInt)),
           (fun d n => .movhi d n, fun n x => n ++ x.extractLsb' 0 14)],
    ∀ (s : State) (p : At) (d : Opd) (n : BitVec 18), s.Executes (e.1 d n) p →
      ∃ t, exec (e.1 d n) s = .next t ∧ WordFrame s t (e.1 d n) p ∧ EachSlice s t p (fun x sl sl' =>
        (d.vdst = true → sl.VectorResult sl' d (fun l => e.2 n (sl.read x.record.crewlog d l)) 0)
        ∧ (d.sdst = true → sl.ScalarResult sl' d (e.2 n (sl.readS d)) sl.scc sl.fps)))

/-! ## The cross-lane class -/

/-- R213: a crew-scope move gives each present lane the A of its source lane, or 0 where that lane is not present. -/
def Obligations.CrewMoveResults : Prop :=
  ∀ e ∈ crewSources, ∀ (s : State) (p : At) (x : Team) (d a b : Opd), s.Executes (e.1 d a b) p →
    s.team? p.team = some x → s.CrewHere p x →
    ∃ t, exec (e.1 d a b) s = .next t ∧ CrewFrame s t p ∧ EachSlice s t p (fun _ sl sl' =>
      sl.CrewRest sl' ∧ sl'.fps = sl.fps ∧ sl'.sregs = sl.sregs ∧ sl'.exec = sl.exec ∧ sl'.scc = sl.scc
      ∧ sl.Received sl' d (fun l =>
        let q := 4 * sl.pos x.record.crewlog + l
        let src := e.2 (x.crewN p.members) q (sl.read x.record.crewlog b l) (x.crewUniform p.members a b)
        ((x.crewLane p.members a b src).map (·.1)).getD 0))

/-- R214, R216: the reductions and the scan give every present lane their value; only slices that hold a present lane
receive the flags. -/
def Obligations.CrewReduceResults : Prop :=
  (∀ (s : State) (p : At) (x : Team) (d a : Opd), s.Executes (.redi d a) p → s.team? p.team = some x → s.CrewHere p x →
    ∃ t, exec (.redi d a) s = .next t ∧ CrewFrame s t p ∧ EachSlice s t p (fun _ sl sl' =>
      sl.CrewRest sl' ∧ sl'.fps = sl.fps ∧ sl'.sregs = sl.sregs ∧ sl'.exec = sl.exec ∧ sl'.scc = sl.scc
      ∧ sl.Received sl' d (fun _ => BitVec.ofNat 32 ((x.crewValues p.members a .zero).map BitVec.toNat).sum)))
  ∧ (∀ (s : State) (p : At) (x : Team) (d a : Opd), s.Executes (.redf d a) p → s.team? p.team = some x → s.CrewHere p x →
    ∃ t, exec (.redf d a) s = .next t ∧ CrewFrame s t p ∧ EachSlice s t p (fun _ sl sl' =>
      let r := x.crewTree p.members a (x.crewRm p.members)
      sl.CrewRest sl' ∧ sl'.fps = (if sl.eff = 0 then sl.fps else sl.fps ||| r.2) ∧ sl'.sregs = sl.sregs
      ∧ sl'.exec = sl.exec ∧ sl'.scc = sl.scc ∧ sl.Received sl' d (fun _ => BitVec.ofNat 32 r.1)))
  ∧ (∀ (s : State) (p : At) (x : Team) (d a b : Opd), s.Executes (.redmx d a b) p → s.team? p.team = some x → s.CrewHere p x →
    ∃ t, exec (.redmx d a b) s = .next t ∧ CrewFrame s t p ∧ ∃ r fl,
      (x.crewValues p.members a b ≠ [] →
        maxResult ((x.crewUniform p.members a b).toNat % 8) (x.crewValues p.members a b) r)
      ∧ fl = (if (x.crewUniform p.members a b).toNat % 8 = 4 ∨ (x.crewUniform p.members a b).toNat % 8 = 5 then
          snanFlag ((x.crewValues p.members a b).map (fun v => f32.decode v.toNat)) else 0)
      ∧ EachSlice s t p (fun _ sl sl' =>
        sl.CrewRest sl' ∧ sl'.fps = (if sl.eff = 0 then sl.fps else sl.fps ||| fl) ∧ sl'.sregs = sl.sregs
        ∧ sl'.exec = sl.exec ∧ sl'.scc = sl.scc ∧ sl.Received sl' d (fun _ => r)))
  ∧ (∀ (s : State) (p : At) (x : Team) (d a b : Opd), s.Executes (.scani d a b) p → s.team? p.team = some x → s.CrewHere p x →
    ∃ t, exec (.scani d a b) s = .next t ∧ CrewFrame s t p ∧ EachSlice s t p (fun _ sl sl' =>
      sl.CrewRest sl' ∧ sl'.fps = sl.fps ∧ sl'.sregs = sl.sregs ∧ sl'.exec = sl.exec ∧ sl'.scc = sl.scc
      ∧ sl.Received sl' d (fun l =>
        let q := 4 * sl.pos x.record.crewlog + l
        let last := if (x.crewUniform p.members a b).getLsbD 0 then q else q + 1
        BitVec.ofNat 32 (((List.range last).filterMap (fun j => (x.crewLane p.members a b j).map (fun v => v.1.toNat))).sum))))

/-- R215: `ballot`, `vany` and `vall` write D and SCC in every slice of the sub-crew. -/
def Obligations.CrewVoteResults : Prop :=
  ∀ e ∈ [((fun d a => Instr.ballot d a : Opd → Opd → Instr), 0), (fun d a => .vany d a, 1), (fun d a => .vall d a, 2)],
  ∀ (s : State) (p : At) (x : Team) (d a : Opd), s.Executes (e.1 d a) p → s.team? p.team = some x → s.CrewHere p x →
    ∃ t, exec (e.1 d a) s = .next t ∧ CrewFrame s t p ∧ ∃ m : Word,
      (∀ j, m.getLsbD j = (decide (j < x.crewN p.members) && ((x.crewLane p.members a .zero j).map (fun v => v.1 != 0)).getD false))
      ∧ EachSlice s t p (fun _ sl sl' =>
        let all := decide (∀ j, j < x.crewN p.members → (x.crewLane p.members a .zero j).isSome = true → m.getLsbD j = true)
        let w : Word := if e.2 = 0 then m else if e.2 = 1 then (if m = 0 then 0 else 1) else (if all then 1 else 0)
        sl.CrewRest sl' ∧ sl'.fps = sl.fps ∧ sl'.vregs = sl.vregs ∧ sl'.scc = (w != 0)
        ∧ (∀ r, d = .s r → sl'.sget r.val = w) ∧ (∀ n, (∀ r, d = .s r → r.val ≠ n) → sl'.sget n = sl.sget n)
        ∧ (d ≠ .exec → sl'.exec = sl.exec)
        ∧ (d = .exec → e.2 = 0 → sl'.exec = (m >>> (4 * sl.pos x.record.crewlog)).setWidth 4)
        ∧ (d = .exec → e.2 ≠ 0 → sl'.exec = if w = 0 then 0 else 0b1111))

/-- R217: a slice-scope move reads only its own slice's lanes, 0 for a source outside the effective mask. -/
def Obligations.SliceMoveResults : Prop :=
  ∀ e ∈ [(Instr.sshf, fun (_ : Nat) (b _ : Word) => (b.extractLsb' 0 2).toNat),
         (.sshx, fun l b _ => l ^^^ (b.extractLsb' 0 2).toNat), (.sbc, fun _ _ low => (low.extractLsb' 0 2).toNat)],
  ∀ (s : State) (p : At) (d a b : Opd), s.Executes (e.1 d a b) p →
    ∃ t, exec (e.1 d a b) s = .next t ∧ WordFrame s t (e.1 d a b) p ∧ EachSlice s t p (fun x sl sl' =>
      let c := x.record.crewlog
      let low := sl.read c b (sl.lanes.headD 0)
      sl.VectorResult sl' d (fun l =>
        let src := e.2 l (sl.read c b l) low
        if sl.on src then sl.read c a src else 0) 0)

/-! ## Control -/

/-- R167: each slice evaluates its own condition; where it holds the slice goes to the header at the address of the
branch word plus four times the offset, and where not, on; but for the instruction lines that the fetch of the target fills,
nothing else changes. -/
def Obligations.BranchResults : Prop :=
  ∀ e ∈ branchWords, ∀ (s : State) (p : At) (x : Team) (o : BitVec 24), s.Executes (e.1 o) p → s.team? p.team = some x →
    (∀ k ∈ p.members, ∀ sl, x.slice? k = some sl → e.2 sl = true → ∃ va w, s.Target x sl va w
      ∧ (va : Int) = s.codeBase x sl + p.hdr + 4 * (1 + p.ix) + 4 * o.toInt) →
    ∃ t, exec (e.1 o) s = .next t ∧ WordFrame (s.withCode t) t (e.1 o) p ∧ EachSlice s t p (fun _ sl sl' =>
      (e.2 sl = true → sl'.sregs = sl.sregs ∧ ∃ va : Nat,
        (va : Int) = s.codeBase x sl + p.hdr + 4 * (1 + p.ix) + 4 * o.toInt ∧ sl.Transferred sl' (s.codeBase x sl) va)
      ∧ (e.2 sl = false → sl.WentOn sl' ∧ sl' = { sl.charged with hdr := sl'.hdr, ix := sl'.ix, opened := sl'.opened, code := sl'.code }))

/-- R168, R169: `call` also writes the address of the word after the calling clause to `s[22:23]`; `ret` and `jmpi` go to
the address that their scalar pair holds; but for the instruction lines that the fetch of the target fills, nothing else
changes. -/
def Obligations.CallReturnResults : Prop :=
  (∀ (s : State) (p : At) (x : Team) (o : BitVec 24), s.Executes (.callW o) p → s.team? p.team = some x →
    (∀ k ∈ p.members, ∀ sl, x.slice? k = some sl → ∃ va w, s.Target x sl va w
      ∧ (va : Int) = s.codeBase x sl + p.hdr + 4 * (1 + p.ix) + 4 * o.toInt) →
    ∃ t, exec (.callW o) s = .next t ∧ WordFrame (s.withCode t) t (.callW o) p ∧ EachSlice s t p (fun _ sl sl' =>
      (∃ va : Nat, (va : Int) = s.codeBase x sl + p.hdr + 4 * (1 + p.ix) + 4 * o.toInt
        ∧ sl.Transferred sl' (s.codeBase x sl) va)
      ∧ (sl'.sget 22).toNat + 2 ^ 32 * (sl'.sget 23).toNat
          = (s.codeBase x sl + p.hdr + 4 * (hdrLen sl.hw + 2)) % 2 ^ 64
      ∧ ∀ n, n ≠ 22 → n ≠ 23 → sl'.sget n = sl.sget n))
  ∧ (∀ (s : State) (p : At) (x : Team) (i : Instr) (n : Nat), ((i = .retW ∧ n = 22) ∨ ∃ m : Fin 24, i = .jmpi (.s m) ∧ n = m.val) →
    s.Executes i p → s.team? p.team = some x →
    (∀ k ∈ p.members, ∀ sl, x.slice? k = some sl → ∃ w,
      s.Target x sl ((sl.sget n).toNat + 2 ^ 32 * (sl.sget (n + 1)).toNat) w) →
    ∃ t, exec i s = .next t ∧ WordFrame (s.withCode t) t i p ∧ EachSlice s t p (fun _ sl sl' =>
      sl.Transferred sl' (s.codeBase x sl) ((sl.sget n).toNat + 2 ^ 32 * (sl.sget (n + 1)).toNat)
      ∧ sl'.sregs = sl.sregs))

/-- R173, R177 to R179: `wnd` and `movt` to WB move the window inside the allocation, the other writable special indices
take their bits, `movs` reads one, `nop` and `yield` change no register. -/
def Obligations.SpecialRegisterResults : Prop :=
  (∀ (s : State) (p : At) (a : Opd) (n : BitVec 6), s.Executes (.wnd a n) p →
    (∀ k ∈ p.members, ∀ sl, s.slice? p.team k = some sl →
      (sl.readS a + 8 * n.setWidth 32).toNat % 8 = 0 ∧ (sl.readS a + 8 * n.setWidth 32).toNat < 8 * sl.alloc) →
    ∃ t, exec (.wnd a n) s = .next t ∧ WordFrame s t (.wnd a n) p ∧ EachSlice s t p (fun _ sl sl' =>
      sl'.wb = (sl.readS a + 8 * n.setWidth 32).toNat ∧ sl.WentOn sl'
      ∧ sl' = { sl.charged with wb := sl'.wb, hdr := sl'.hdr, ix := sl'.ix, opened := sl'.opened, code := sl'.code }))
  ∧ (∀ (s : State) (p : At) (a : Opd) (n : BitVec 7), s.Executes (.movt a n) p →
    (n = 0 → ∀ k ∈ p.members, ∀ sl, s.slice? p.team k = some sl →
      (sl.readS a).toNat % 8 = 0 ∧ (sl.readS a).toNat % 512 < 8 * sl.alloc) →
    ∃ t, exec (.movt a n) s = .next t ∧ WordFrame s t (.movt a n) p ∧ EachSlice s t p (fun _ sl sl' =>
      sl.WentOn sl'
      ∧ (n = 0 → sl'.wb = (sl.readS a).toNat % 512) ∧ (n ≠ 0 → sl'.wb = sl.wb)
      ∧ sl'.fpc = (if n = 1 then (sl.readS a).setWidth 4 else sl.fpc)
      ∧ sl'.fps = (if n = 2 then (sl.readS a).setWidth 5 else sl.fps)
      ∧ (∀ l, l < 4 → sl'.park.getLsbD l = if n = 3 then (sl.readS a).getLsbD l || (sl.recs.any (fun r => r.lane == l))
          else sl.park.getLsbD l)
      ∧ (∀ j, j < 32 → sl'.uiv.getLsbD j = if n = 5 then ((2 ≤ j && j < 26) || j == 0) && (sl.readS a).getLsbD j
          else sl.uiv.getLsbD j)
      ∧ (∀ j, j < 32 → sl'.uisv.getLsbD j = if n = 6 then j != 4 && (sl.readS a).getLsbD j else sl.uisv.getLsbD j)
      ∧ sl' = { sl.charged with wb := sl'.wb, fpc := sl'.fpc, fps := sl'.fps, park := sl'.park, uiv := sl'.uiv,
                                uisv := sl'.uisv, conv := sl'.conv, hdr := sl'.hdr, ix := sl'.ix, opened := sl'.opened, code := sl'.code }))
  ∧ (∀ (s : State) (p : At) (d : Opd) (n : BitVec 7), s.Executes (.movs d n) p →
    ∃ t, exec (.movs d n) s = .next t ∧ WordFrame s t (.movs d n) p ∧ EachSlice s t p (fun x sl sl' => ∃ w : Word,
      sl.ScalarResult sl' d w sl.scc sl.fps
      ∧ (n = 0 → w = BitVec.ofNat 32 sl.wb) ∧ (n = 1 → w = sl.fpc.setWidth 32) ∧ (n = 2 → w = sl.fps.setWidth 32)
      ∧ (n = 3 → w = sl.park.setWidth 32)
      ∧ (n = 4 → sl.thread.isSome = true → w = 1)
      ∧ (n = 4 → sl.thread = none → ∀ j, j < 32 → w.getLsbD j =
          (((x.sub? sl.idx).map (·.members)).getD [sl.idx]).any (fun m => m % 2 ^ x.record.crewlog == j))
      ∧ (n = 5 → w = sl.uiv) ∧ (n = 6 → w = sl.uisv)
      ∧ (n = 7 → w = BitVec.ofNat 32 x.record.phase) ∧ (n = 8 → w = BitVec.ofNat 32 x.no)
      ∧ (n = 9 → w = BitVec.ofNat 32 (x.pool * 2 ^ 16 + sl.alloc))
      ∧ (n = 10 → w = BitVec.ofNat 32 (x.record.crewlog * 16 + x.record.track.toNat * 4 + x.record.elastic.toNat * 2
          + x.record.coresid.toNat))
      ∧ (11 ≤ n.toNat → w = 0)))
  ∧ (∀ i, i = Instr.nop ∨ i = .yield → ∀ (s : State) (p : At), s.Executes i p →
    ∃ t, exec i s = .next t ∧ WordFrame s t i p ∧ EachSlice s t p (fun _ sl sl' =>
      sl.WentOn sl' ∧ sl' = { sl.charged with hdr := sl'.hdr, ix := sl'.ix, opened := sl'.opened, code := sl'.code }))

/-- R176, R336, R340: `trap` and `brk` take their effect and vector each slice, with the next word as the resumption
point and the code as SUB. -/
def Obligations.SoftwareTrapEntry : Prop :=
  ∀ e ∈ [(Instr.trap, 0x09), (Instr.brk, 0x0A)], ∀ (s : State) (p : At) (n : BitVec 7), s.Executes (e.1 n) p →
    ∃ t, exec (e.1 n) s = .next t ∧ WordFrame s t (e.1 n) p ∧ EachSlice s t p (fun _ sl sl' =>
      ∃ hdr ix, (sl.ix < hdrLen sl.hw → hdr = sl.hdr ∧ ix = sl.ix + 1)
        ∧ (hdrLen sl.hw ≤ sl.ix → hdr = sl.hdr + 4 * (hdrLen sl.hw + 2) ∧ ix = 0)
        ∧ sl.Vectored sl' e.2 n.toNat hdr ix p.hdr p.ix 0x1F)

/-- R76, R332, R340: in user mode a word that no row encodes, a SYS word, and a word with a vector operand outside the
window raise the illegal-instruction, privilege and window traps, each at the word itself and with no other effect. -/
def Obligations.DecodeTrapEntry : Prop :=
  (∀ (s : State) (p : At), s.AtWord p ((((s.slice? p.team (p.members.headD 0)).bind (fun sl => sl.code[p.ix]?)).map opConverges).getD false) →
    ∃ t, exec .illegalInstruction s = .next t ∧ CrewFrame s t p ∧ EachSlice s t p (fun _ sl sl' =>
      sl.Vectored sl' 0x01 0 p.hdr p.ix p.hdr p.ix (p.flag.getD 0x1F)))
  ∧ (∀ (s : State) (p : At) (i : Instr), s.AtWord p i.conv → i.wf = true → i.sys = true →
    ∃ t, exec i s = .next t ∧ CrewFrame s t p ∧ EachSlice s t p (fun _ sl sl' =>
      sl.Vectored sl' 0x02 0 p.hdr p.ix p.hdr p.ix (p.flag.getD 0x1F)))
  ∧ (∀ (s : State) (p : At) (i : Instr), s.AtWord p i.conv → s.NoneLate p false → i.wf = true → i.sys = false →
    (∀ k ∈ p.members, ∀ sl, s.slice? p.team k = some sl → sl.inWindow i.vops = false) →
    ∃ t, exec i s = .next t ∧ CrewFrame s t p ∧ EachSlice s t p (fun _ sl sl' =>
      sl.Vectored sl' 0x03 0 p.hdr p.ix p.hdr p.ix (p.flag.getD 0x1F)))

/-! ## Joins, ends, user interrupts, clauses -/

/-- R22, R25, R172: a sub-crew that is all that the join level waits for passes at once, its wait level clear; one slice
of a crew that others have still to reach waits there. -/
def Obligations.JoinResults : Prop :=
  (∀ (s : State) (p : At) (x : Team) (l : BitVec 7) (crew : Nat), s.Executes (.join l) p → s.team? p.team = some x →
    (∀ e ∈ x.joins, e.crew ≠ crew) → (∀ k ∈ x.expects crew l.toNat, k ∈ p.members) →
    (∀ k ∈ p.members, x.crewOf k = crew ∧ ∀ sl, x.slice? k = some sl → sl.waitLevel = none) →
    ∃ t, exec (.join l) s = .next t ∧ CrewFrame s t p ∧ EachSlice s t p (fun _ sl sl' => sl.WentOn sl'
      ∧ sl' = { sl.charged with hdr := sl'.hdr, ix := sl'.ix, opened := sl'.opened, code := sl'.code }))
  ∧ (∀ (s : State) (p : At) (x : Team) (k : Nat) (sl : Slice) (l : BitVec 7), s.Alone (.join l) p x k sl →
    (∀ e ∈ x.joins, e.crew ≠ x.crewOf k) → (∃ m ∈ x.expects (x.crewOf k) l.toNat, m ≠ k) →
    ∃ t y, exec (.join l) s = .next t ∧ t.team? p.team = some y
      ∧ y.slice? k = some { sl.charged with waitLevel := some l.toNat, block := .join l.toNat }
      ∧ { crew := x.crewOf k, level := l.toNat, xlane := false, sup := false, hdr := p.hdr, ix := p.ix,
          expected := x.expects (x.crewOf k) l.toNat, arrived := [k] } ∈ y.joins
      ∧ OthersKept s t p.team ∧ ∀ m, m ≠ k → y.slice? m = x.slice? m)

/-- R12, R29, R174, R253: `end`, and the end of a slice that waited in it, take effect once every flag reads zero: the
slice has ended; the team leaves its core when it was the last; a handler thread leaves its catch slot. -/
def Obligations.EndResults : Prop :=
  ∀ (s : State) (p : At) (x : Team) (k : Nat) (sl : Slice) (i : Instr), s.team? p.team = some x → x.slice? k = some sl →
    (∀ f, f < 12 → sl.flag f = 0) → s.Idle p.team k →
    ((i = .endW ∧ s.Executes .endW p ∧ p.members = [k]) ∨ (i = .sliceEnd p.team k ∧ sl.block = .ending
      ∧ (∀ th, sl.thread = some th → th.fail = none) ∧ (sl.thread = none → x.st = .running ∧ x.halt = none))) →
    ∃ t, exec i s = .next t
      ∧ (sl.thread = none → (∃ z ∈ x.slices, z.idx ≠ k ∧ z.ended = false ∧ z.thread = none) →
          ∃ sl', t.slice? p.team k = some sl' ∧ sl'.ended = true)
      ∧ ((∀ z ∈ x.slices, z.thread = none ∧ (z.idx = k ∨ z.ended = true)) → t.team? p.team = none)
      ∧ (sl.thread.isSome = true → t.slice? p.team k = none)

/-- R180 to R183, R345: a user interrupt that is due in one slice of its sub-crew saves PC, index and EXEC in UISV, clears UIV.EN and goes to the handler with
every lane enabled; `uiret` goes back; `uintr` marks one pending in the live slice it names and says in SCC whether
there was one, while no firmware update holds it up. -/
def Obligations.UserInterruptResults : Prop :=
  (∀ (s : State) (u k : Nat) (x : Team) (sl : Slice) (w : Word), s.uiDue u k = true → s.team? u = some x →
    x.slice? k = some sl → s.Target x sl (x.record.codebase + (sl.uiv &&& 0x03FFFFFC#32).toNat) w →
    s.uiMates u k = [k] →
    ∃ t sl', exec (.userInterruptDelivery u k) s = .next t ∧ t.slice? u k = some sl'
      ∧ sl' = { sl with uisv := BitVec.ofNat 32 (sl.hdr / 4 * 2 ^ 8 + sl.ix * 2 ^ 5 + sl.exec.toNat),
                        uiv := sl.uiv &&& 0xFFFFFFFE#32, uiPend := false, block := .none, exec := 0b1111,
                        hdr := (sl.uiv &&& 0x03FFFFFC#32).toNat, ix := 0, opened := false, code := [] }
      ∧ ∀ v, v ≠ u → t.team? v = s.team? v)
  ∧ (∀ (s : State) (p : At) (x : Team) (k : Nat) (sl : Slice) (w : Word), s.Alone .uiret p x k sl →
    s.Target x sl (s.codeBase x sl + (sl.uisv.extractLsb' 8 24).toNat * 4) w →
    (sl.uisv.extractLsb' 5 3).toNat ≤ hdrLen w →
    ∃ t sl', exec .uiret s = .next t ∧ CrewFrame (s.withCode t) t p ∧ t.slice? p.team k = some sl'
      ∧ sl'.hdr = (sl.uisv.extractLsb' 8 24).toNat * 4 ∧ sl'.ix = (sl.uisv.extractLsb' 5 3).toNat
      ∧ sl'.opened = decide (sl'.ix ≠ 0) ∧ sl'.code = [] ∧ sl'.exec = sl.uisv.setWidth 4 ∧ sl'.uiv = sl.uiv ||| 1
      ∧ sl' = { sl.charged with hdr := sl'.hdr, ix := sl'.ix, opened := sl'.opened, code := sl'.code, exec := sl'.exec, uiv := sl'.uiv,
                                conv := sl'.conv, hw := sl'.hw, longs := sl'.longs })
  ∧ (∀ (s : State) (p : At) (x : Team) (k : Nat) (sl : Slice) (a b : Opd), s.Alone (.uintr a b) p x k sl →
      s.queued = false →
      (∀ u z tl, s.teamNo x.launch (sl.readS a).toNat = some u → s.team? u = some z → (sl.readS b).getLsbD 6 = false →
        z.slice? ((sl.readS b).toNat % 64) = some tl → tl.ended = false → tl.thread = none →
        ∃ t sl' tl', exec (.uintr a b) s = .next t ∧ t.slice? p.team k = some sl' ∧ sl'.scc = true ∧ sl.WentOn sl'
          ∧ t.slice? u ((sl.readS b).toNat % 64) = some tl' ∧ tl'.uiPend = true ∧ ∀ m, t.mem.byte m = s.mem.byte m)
      ∧ (s.teamNo x.launch (sl.readS a).toNat = none →
        ∃ t sl', exec (.uintr a b) s = .next t ∧ WordFrame s t (.uintr a b) p ∧ t.slice? p.team k = some sl' ∧ sl.WentOn sl'
          ∧ sl' = { sl.charged with scc := false, hdr := sl'.hdr, ix := sl'.ix, opened := sl'.opened, code := sl'.code }))

/-- R63, R67, R15: a well-formed clause whose WAIT holds opens with nothing else changed but instruction lines; where a flag of WAIT is above
zero the slice waits; a malformed clause raises the clause trap at its header. -/
def Obligations.ClauseResults : Prop :=
  ∀ (s : State) (p : At) (x : Team) (k : Nat) (sl : Slice) (w : BitVec 12) (a b : BitVec 4) (l : BitVec 3) (h : BitVec 4)
    (ws : List Word), s.AtWord p false → p.members = [k] → s.team? p.team = some x → x.slice? k = some sl → p.ix = 0 →
    (∀ op ∈ s.pend, op.team = p.team → op.slice = k → ∀ y ∈ op.accs, y.2.resolved = true) → sl.vectors = false →
    ws.length = l.toNat + 1 →
    (∀ j v, ws[j]? = some v → s.HeldWord x false (s.codeBase x sl + p.hdr + 4 * (1 + j)) v) →
    ∃ t sl', exec (.clause w a b l h) s = .next t ∧ t.slice? p.team k = some sl'
      ∧ (clauseBad (headerWord w a b l h) ws = true → CrewFrame (s.withCode t) t p ∧ sl.Vectored sl' 0x04 0 p.hdr 0 p.hdr 0 0x1F)
      ∧ (clauseBad (headerWord w a b l h) ws = false → (∀ f, f < 12 → w.getLsbD f = true → sl.flag f = 0) →
          CrewFrame (s.withCode t) t p ∧ sl' = { sl with opened := true, ix := 0, hw := headerWord w a b l h, longs := longMask ws,
                                                         code := ws, conv := false })
      ∧ (clauseBad (headerWord w a b l h) ws = false → (∃ f, f < 12 ∧ w.getLsbD f = true ∧ sl.flag f ≠ 0) →
          sl' = { sl with block := .flags w })

/-! ## Memory -/

/-- R219, R221, R337: a memory word issues one operation, an access for each lane of the effective mask or one for the
slice, with everything captured; it attaches to its flag and the slice goes on. With no lane enabled it does nothing. -/
def Obligations.MemoryRequests : Prop :=
  ∀ (imm : BitVec 11), ∀ e ∈ memRows imm, ∀ (s : State) (p : At) (x : Team) (k : Nat) (sl : Slice) (d a b : Opd),
    s.Alone (e.1 d a b) p x k sl →
    ∃ t sl', exec (e.1 d a b) s = .next t ∧ t.slice? p.team k = some sl' ∧ sl.WentOn sl'
      ∧ sl' = { sl.charged with hdr := sl'.hdr, ix := sl'.ix, opened := sl'.opened, code := sl'.code, flags := sl'.flags, park := sl'.park,
                                recs := sl'.recs, marks := sl'.marks }
      ∧ (sl.eff = 0 → sl' = { sl.charged with hdr := sl'.hdr, ix := sl'.ix, opened := sl'.opened, code := sl'.code } ∧ t.pend = s.pend
          ∧ ∀ n, t.mem.byte n = s.mem.byte n)
      ∧ (sl.eff ≠ 0 → sl.Attached sl' (if (e.1 d a b).long then p.flag else none)
          ∧ ∃ op ∈ t.pend, op.team = p.team ∧ op.slice = k
            ∧ op.accs.length = (if e.2.uniform a b then 1 else sl.lanes.length)
            ∧ ∀ l, l < 4 → sl.on l = true → ∃ y ∈ op.accs,
                e.2.Captures (e.1 d a b) p x.record.crewlog sl d a b l y.1)

/-- R131, R220, R223, R225, R226: an access that passes its checks on one sector that is no device's and no peer's, with its
place in S its own, no checkpoint ceiling in force, room for a pre-image, and no copy of the sector behind memory: a load finds the bytes in memory, a store replaces exactly them. -/
def Obligations.LoadStoreResults : Prop :=
  ∀ (imm : BitVec 11), ∀ e ∈ ldxRows ++ ldstRows imm, ∀ (s : State) (p : At) (x : Team) (k l : Nat) (sl : Slice)
    (d a b : Opd) (y : Acc) (q : Piece), s.Alone (e.1 d a b) p x k sl → sl.lanes = [l] → e.2.order = .ord →
    e.2.Captures (e.1 d a b) p x.record.crewlog sl d a b l y → (∀ sg, e.2.kind = .load sg → y.data = 0) →
    0 ≤ e.2.ea x.record.crewlog sl a b l → s.attempt x y = .go [q] → q.leaf.share ≠ .dev → beyond q.pa = false →
    inRange .fabric q.pa = false → s.Fresh q.pa → s.HasRoom q.pa →
    s.ceiling x.core = none → s.poisoned q.pa q.size = false → s.Idle p.team k →
    ∃ t, exec (e.1 d a b) s = .next t ∧ OthersKept s t p.team
      ∧ (∀ m, m ≠ k → t.slice? p.team m = s.slice? p.team m)
      ∧ (∀ sg, e.2.kind = .load sg → (∀ n, t.mem.byte n = s.mem.byte n)
          ∧ ∃ op ∈ t.pend, op.team = p.team ∧ op.slice = k ∧ op.accs = [(y, .got (s.mem.nat q.pa q.size) [])])
      ∧ (e.2.kind = .store → t.mem.nat q.pa q.size = y.data % 2 ^ (8 * q.size)
          ∧ (∀ n, n < q.pa ∨ q.pa + q.size ≤ n → t.mem.byte n = s.mem.byte n)
          ∧ ∃ op ∈ t.pend, op.team = p.team ∧ op.slice = k ∧ op.accs = [(y, .written)])

/-- R230: an atomic of ordered use that passes its checks replaces the old value by the function of its row, and keeps
the old one for D when it has a flag. -/
def Obligations.AtomicResults : Prop :=
  ∀ e ∈ atomRows, ∀ (s : State) (p : At) (x : Team) (k l : Nat) (sl : Slice) (d a b : Opd) (y : Acc) (q : Piece),
    s.Alone (e.1 d a b) p x k sl → sl.lanes = [l] → e.2.1.order = .ord →
    e.2.1.Captures (e.1 d a b) p x.record.crewlog sl d a b l y → s.attempt x y = .go [q] → beyond q.pa = false →
    inRange .fabric q.pa = false → s.HasRoom q.pa → q.size = e.2.1.size → s.ceiling x.core = none → s.poisoned q.pa q.size = false → s.Idle p.team k →
    ∃ t, exec (e.1 d a b) s = .next t ∧ OthersKept s t p.team
      ∧ (∀ m, m ≠ k → t.slice? p.team m = s.slice? p.team m)
      ∧ t.mem.nat q.pa q.size = e.2.2 (s.mem.nat q.pa q.size) y.data % 2 ^ (8 * q.size)
      ∧ (∀ n, n < q.pa ∨ q.pa + q.size ≤ n → t.mem.byte n = s.mem.byte n)
      ∧ ∃ op ∈ t.pend, op.team = p.team ∧ op.slice = k
        ∧ op.accs = [(y, if y.flag.isSome then .got (s.mem.nat q.pa q.size) [] else .written)]

/-- R219, R337: an access that fails a check is not performed: its lane is parked with one record of the cause, the
address and the access, and memory stays. The checks come in their order: canonical form, then alignment, then the
scratchpad's size or the translation. -/
def Obligations.LaneFaultResults : Prop :=
  (∀ (imm : BitVec 11), ∀ e ∈ memRows imm, ∀ (s : State) (p : At) (x : Team) (k l : Nat) (sl : Slice) (d a b : Opd) (y : Acc)
    (c va : Nat), s.Alone (e.1 d a b) p x k sl → sl.mode = .user → sl.lanes = [l] →
    e.2.Captures (e.1 d a b) p x.record.crewlog sl d a b l y → (e.2.data d b = none → y.data = 0) →
    0 ≤ e.2.ea x.record.crewlog sl a b l → s.attempt x y = .fault c va → s.Idle p.team k → sl.rec? l = none →
    ∃ t sl', exec (e.1 d a b) s = .next t ∧ Elsewhere s t p.team [k] ∧ t.slice? p.team k = some sl'
      ∧ sl'.park = sl.park ||| 1#4 <<< l ∧ sl'.recs = sl.recs ++ [{ lane := l, cause := c, va := va, acc := y }]
      ∧ sl'.vregs = sl.vregs ∧ sl'.sregs = sl.sregs ∧ sl'.exec = sl.exec)
  ∧ (∀ (s : State) (t : Team) (a : Acc),
      (a.loc = false → canonicalRange a.ea a.size = false → s.attempt t a = .fault 0x10 a.ea)
      ∧ (a.loc = false → canonicalRange a.ea a.size = true → a.ea % a.align ≠ 0 → s.attempt t a = .fault 0x11 a.ea)
      ∧ (a.loc = true → a.ea % 4 ≠ 0 → s.attempt t a = .fault 0x11 a.ea)
      ∧ (a.loc = true → a.ea % 4 = 0 → 128 * t.record.scratch < a.ea + a.size → s.attempt t a = .fault 0x12 a.ea)
      ∧ (∀ l, a.loc = false → canonicalRange a.ea a.size = true → a.ea % a.align = 0 → 0 < a.size →
          (∀ q ∈ pieces 128 a.ea a.size, s.lookUp t.core t.asid q.1 a.need a.sup ≠ .miss) →
          (∀ q ∈ pieces 128 a.ea a.size, ∀ c, s.lookUp t.core t.asid q.1 a.need a.sup = .fault c → l ≤ c) →
          s.lookUp t.core t.asid a.ea a.need a.sup = .fault l → s.attempt t a = .fault l a.ea))

/-- R65, R190, R220, R222, R225: a finished load writes the value it found to the registers it captured, where no instruction has
written them since, bytes and halves extended, its flag falls and the operation is gone; a posted access is performed and gone. -/
def Obligations.AccessCompletionResults : Prop :=
  (∀ (s : State) (n : Nat) (op : PendOp) (a : Acc) (v : Nat) (x : Team) (sl : Slice),
    s.pend.find? (fun o => o.id == n) = some op → op.accs = [(a, .got v [])] → a.flag.isSome = true →
    s.team? op.team = some x → x.slice? op.slice = some sl → sl.thread = none → (∀ l ∈ a.lanes, l < 4) → a.dst.Nodup →
    (∀ l ∈ a.lanes, ∀ r ∈ a.dst, sl.marks.since (4 * r + l) = false) →
    ∃ t sl', exec (.loadComplete n) s = .next t ∧ t.slice? op.team op.slice = some sl'
      ∧ (∀ l ∈ a.lanes, ∀ j r, a.dst[j]? = some r → (a.kind = .load true → j = 0) → sl'.vget r l =
          (if a.kind = .load true then (BitVec.ofNat (8 * a.size) v).signExtend 32 else BitVec.ofNat 32 (v / 2 ^ (32 * j))))
      ∧ (∀ r l, l < 4 → (l ∉ a.lanes ∨ r ∉ a.dst) → sl'.vget r l = sl.vget r l)
      ∧ sl.Dropped sl' a.flag ∧ (∀ o ∈ t.pend, o.id ≠ n)
      ∧ sl' = { sl with vregs := sl'.vregs, marks := sl'.marks, flags := sl'.flags, block := sl'.block })
  ∧ (∀ (s : State) (n : Nat) (op : PendOp) (a : Acc) (st : AccSt) (x : Team) (sl : Slice),
    s.pend.find? (fun o => o.id == n) = some op → op.accs = [(a, st)] → a.flag = none →
    s.team? op.team = some x → x.slice? op.slice = some sl → sl.thread = none → sl.block = .none → sl.ended = false →
    (st = .written ∨ ∃ q, st = .late [q] ∧ a.kind = .store ∧ a.comb = false ∧ q.leaf.share ≠ .dev ∧ beyond q.pa = false
      ∧ inRange .fabric q.pa = false ∧ s.revoked q.pa = false ∧ s.HasRoom q.pa ∧ s.ceiling x.core = none
      ∧ ∀ o ∈ s.pend, o.team = op.team → o.slice = op.slice → o.id = n) →
    ∃ t, exec (.postedWritePerformed n) s = .next t ∧ t.slice? op.team op.slice = some sl
      ∧ (∀ o ∈ t.pend, o.id ≠ n)
      ∧ (st = .written → ∀ m, t.mem.byte m = s.mem.byte m)
      ∧ (∀ q, st = .late [q] → t.mem.nat q.pa q.size = a.data % 2 ^ (8 * q.size)
          ∧ ∀ m, m < q.pa ∨ q.pa + q.size ≤ m → t.mem.byte m = s.mem.byte m))

/-- R19, R139, R151, R154, R233 to R235, R390: a fence performs the late accesses of its slice, where no checkpoint interval and no
peer holds one up, waits while one is left, and makes the package's writes visible outside; `inval` and `flush` stall when their
operation is accepted and, complete, say in SCC whether the range was acceptable, leave no dirty copy of it and, for `inval`,
no cached copy and no instruction line; `waitf` passes when its flags read zero and waits when one does not. -/
def Obligations.FenceMaintenanceResults : Prop :=
  (∀ i, i = Instr.fenceSys ∨ i = .fenceHost → ∀ (s : State) (p : At) (x : Team) (k : Nat) (sl : Slice), s.Alone i p x k sl →
    let seen := fun (t : State) => (i = .fenceSys → t.hidden = []) ∧ (i = .fenceHost → ∀ h ∈ t.hidden, inRange .host h.1 = false)
      ∧ ∀ r ∈ t.rmap, r.place = clusterOf x.core → r.share = .coh → r.copy = []
    let done := fun (t : State) => ∀ o ∈ t.pend, o.team = p.team → o.slice = k → ∀ y ∈ o.accs, y.2.late? = none
    (s.NoneLate p true → ∃ t sl', exec i s = .next t ∧ t.slice? p.team k = some sl' ∧ sl.WentOn sl' ∧ seen t
      ∧ Elsewhere s t p.team [k] ∧ t.pend = s.pend
      ∧ sl' = { sl.charged with hdr := sl'.hdr, ix := sl'.ix, opened := sl'.opened, code := sl'.code })
    ∧ (s.pend.Pairwise (fun o o' => o.id < o'.id) → (∀ j ∈ s.jobs, j.stream = none) → s.ceiling x.core = none →
      (∀ o ∈ s.pend, o.team = p.team → o.slice = k → ∀ y ∈ o.accs, y.1.comb = false ∧ ∀ ps, y.2.coming? = some ps →
        y.2 = .late ps ∧ ∀ q ∈ ps, inRange .fabric q.pa = false) →
      ∃ t sl', exec i s = .next t ∧ t.slice? p.team k = some sl' ∧ sl.WentOn sl' ∧ seen t ∧ done t)
    ∧ (∀ t sl', exec i s = .next t → t.slice? p.team k = some sl' → sl.WentOn sl' → done t))
  ∧ (∀ e ∈ [((fun a b => Instr.inval a b : Opd → Opd → Instr), true), (fun a b => .flush a b, false)],
    ∀ (s : State) (p : At) (x : Team) (k : Nat) (sl : Slice) (a b : Opd) (u : SubCrew), s.Alone (e.1 a b) p x k sl →
    x.sub? k = some u → u.members = [k] →
    (u.accepted = none → ∃ t y v, exec (e.1 a b) s = .next t ∧ Elsewhere s t p.team [] ∧ t.team? p.team = some y
      ∧ y.sub? k = some v ∧ v.members = [k] ∧ v.stalled = true ∧ v.accepted = some .lines ∧ t.rmap = s.rmap ∧ t.ilines = s.ilines)
    ∧ (u.accepted ≠ none →
    let n := (sl.readS b).toNat
    let good := decide (n ≤ 0x1000000 ∧ (n = 0 ∨ canonicalRange (sl.pairOf 0 a 0) n = true))
    ∃ t sl', exec (e.1 a b) s = .next t ∧ Elsewhere s t p.team [k] ∧ t.slice? p.team k = some sl' ∧ sl.WentOn sl'
      ∧ sl' = { sl.charged with scc := good, hdr := sl'.hdr, ix := sl'.ix, opened := sl'.opened, code := sl'.code }
      ∧ (good = false → t.rmap = s.rmap)
      ∧ (good = true → ∀ r ∈ s.mappedRanges x (sl.pairOf 0 a 0) n, ∀ c ∈ t.rmap, r.1 ≤ c.sector → c.sector < r.2 →
          c.dirty = false ∧ (e.2 = true → c.home = .slice ∨ c.home = .spad))
      ∧ (good = true → e.2 = true → ∀ r ∈ s.mappedRanges x (sl.pairOf 0 a 0) n, ∀ c ∈ t.ilines, c.sector < r.1 ∨ r.2 ≤ c.sector)))
  ∧ (∀ (s : State) (p : At) (a b : BitVec 6), s.Executes (.waitf a b) p →
    (∀ k ∈ p.members, ∀ sl, s.slice? p.team k = some sl → ∀ f, f < 12 → (a ++ b).getLsbD f = true → sl.flag f = 0) →
    ∃ t, exec (.waitf a b) s = .next t ∧ WordFrame (s.withCode t) t (.waitf a b) p ∧ EachSlice s t p (fun _ sl sl' =>
      sl.WentOn sl' ∧ sl' = { sl.charged with hdr := sl'.hdr, ix := sl'.ix, opened := sl'.opened, code := sl'.code }))
  ∧ (∀ (s : State) (p : At) (x : Team) (k : Nat) (sl : Slice) (a b : BitVec 6), s.Alone (.waitf a b) p x k sl →
    (∃ f, f < 12 ∧ (a ++ b).getLsbD f = true ∧ sl.flag f ≠ 0) →
    ∃ t, exec (.waitf a b) s = .next t ∧ t.slice? p.team k = some { sl with block := .flags (a ++ b) })

/-! ## Services and engines -/

/-- R175, R190, R349 to R351: `svc` of a class that is served leaves one batch with a record of each lane of the effective mask
and attaches to its flag; of a class that is not, every such lane reads all-ones; a batch takes a free slot of its die's ring,
where its record then stands; when its server writes STATUS 1 the replies are held for its lanes, and when the batch ends they
have been written, one register or a pair to each lane, and the flag falls. Where the ring stands and the place of a record in it
are the model's choice (log 67), and so is the argument that stands for a reply its server did not write (log 48). -/
def Obligations.ServiceResults : Prop :=
  (∀ (s : State) (p : At) (x : Team) (k : Nat) (sl : Slice) (w : BitVec 1) (d a b : Opd), s.Alone (.svc w d a b) p x k sl →
    s.NoneLate p false → sl.eff ≠ 0 →
    let c := x.record.crewlog
    let dst := match d with
      | .v n => some (sl.wb + n.val)
      | _ => none
    ∃ t sl', exec (.svc w d a b) s = .next t ∧ t.slice? p.team k = some sl' ∧ sl.WentOn sl' ∧ sl'.sregs = sl.sregs
      ∧ ((s.part x.part).svcmask.getLsbD ((sl.readS a).toNat / 2 ^ 24) = true → sl.Attached sl' p.flag ∧ sl'.vregs = sl.vregs
          ∧ ∃ bt, t.batches = s.batches ++ [bt] ∧ bt.team = p.team ∧ bt.word = sl.readS a ∧ bt.slot = none ∧ bt.wide = (w == 1)
            ∧ bt.flags = [(k, p.flag)] ∧ bt.answer = none ∧ bt.given = []
            ∧ bt.lanes = sl.lanes.map (fun l => (4 * sl.pos c + l, k, l,
                BitVec.ofNat 64 (if w = 1 then sl.pairOf c b l else (sl.read c b l).toNat), dst)))
      ∧ ((s.part x.part).svcmask.getLsbD ((sl.readS a).toNat / 2 ^ 24) = false → sl'.flags = sl.flags ∧ t.batches = s.batches
          ∧ ∀ n l, d = .v n → l < 4 → sl.on l = true → sl'.vget (sl.wb + n.val) l = BitVec.allOnes 32
            ∧ (w = 1 → sl'.vget (sl.wb + n.val + 1) l = BitVec.allOnes 32)))
  ∧ (∀ (s : State) (n : Nat), s.batchDue n = true →
    ∃ t b slot, s.batches.find? (fun y => y.id == n) = some b ∧ slot < 4096
      ∧ (∀ y ∈ s.batches, s.batchDie y = s.batchDie b → y.slot ≠ some slot)
      ∧ exec (.serviceBatchEnqueue n) s = .next t
      ∧ t.batches = s.batches.map (fun (y : Batch) => if y.id = n then { y with slot := some slot } else y)
      ∧ (let r := serviceSlot (s.batchDie b) slot
         (s.team? b.team).isSome = true → (∀ m, r ≤ m → m < r + 512 → s.revoked m = false) →
          (∀ y ∈ b.lanes, y.1 < 32) → (b.lanes.map (fun y => y.1)).Nodup →
          t.mem.nat r 4 = b.word.toNat ∧ (∀ j, j < 32 → bit (t.mem.nat (r + 4) 4) j = b.lanes.any (fun y => y.1 == j))
          ∧ t.mem.nat (r + 8) 4 = b.pc.toNat ∧ t.mem.nat (r + 0x20) 4 = 0
          ∧ (∀ y ∈ b.lanes, t.mem.nat (r + 0x40 + 8 * y.1) 8 = y.2.2.2.1.toNat)
          ∧ ∀ m, m < r ∨ r + 0x140 ≤ m → t.mem.byte m = s.mem.byte m))
  ∧ (∀ (s : State) (n slot : Nat) (b : Batch) (rs : List Dword),
    s.batches.find? (fun y => y.id == n && y.answer.isNone) = some b → b.slot = some slot →
    s.poisoned (serviceSlot (s.batchDie b) slot) 0x140 = false →
    ∃ t r, exec (.serviceStatus n 1 rs) s = .next t ∧ (∀ u k, t.slice? u k = s.slice? u k)
      ∧ t.batches = s.batches.map (fun (y : Batch) => if y.id = n then { y with answer := some r } else y)
      ∧ ∀ (i : Nat) (y : Nat × Nat × Nat × Dword × Option Nat), b.lanes[i]? = some y → r[i]? = some ((rs[i]?).getD y.2.2.2.1))
  ∧ (∀ (s : State) (n : Nat) (b : Batch) (r : List Dword) (x : Team) (k q : Nat) (sl : Slice) (f : Option Nat),
    s.batches.find? (fun y => y.id == n) = some b → b.answer = some r → r.length = b.lanes.length → b.given = [] → b.flags = [(k, f)] →
    (∀ y ∈ b.lanes, y.2.1 = k ∧ y.2.2.1 < 4 ∧ y.2.2.2.2 = some q) → (b.lanes.map (fun y => y.2.2.1)).Nodup →
    s.team? b.team = some x → x.slice? k = some sl → (∀ m, sl.marks.since m = false) →
    ∃ sl', (s.batchEnds n).slice? b.team k = some sl' ∧ sl.Dropped sl' f
      ∧ (∀ (i : Nat) (y : Nat × Nat × Nat × Dword × Option Nat) (v : Dword), b.lanes[i]? = some y → r[i]? = some v →
          sl'.vget q y.2.2.1 = v.setWidth 32 ∧ (b.wide = true → sl'.vget (q + 1) y.2.2.1 = v.extractLsb' 32 32))
      ∧ (∀ m j, j < 4 → ((m ≠ q ∧ (b.wide = false ∨ m ≠ q + 1)) ∨ ∀ y ∈ b.lanes, y.2.2.1 ≠ j) → sl'.vget m j = sl.vget m j)
      ∧ ∀ y ∈ (s.batchEnds n).batches, y.id ≠ n)

/-- R236 to R238, R249: an ENG word with room in the copy queue queues one command of the slice with its octet as it is, attaches
to its flag, and goes on; a team with no copy queue gets the status NOQ at once. -/
def Obligations.EngineCommandResults : Prop :=
  ∀ e ∈ engWords, ∀ (s : State) (p : At) (x : Team) (k : Nat) (sl : Slice) (d a : Opd), s.Alone (e.1 d a) p x k sl →
    (∀ n, (s.part x.part).reserve n (bitmapRoom e.2 (sl.octet a)) ≠ none) →
    (x.cmds.length + 1 ≤ x.record.copyq → (e.2 = 5 ∨ e.2 = 6 → x.record.catchSlots ≠ 0) →
      ∃ t y sl' c, exec (e.1 d a) s = .next t ∧ Elsewhere s t p.team [k] ∧ t.team? p.team = some y ∧ y.slice? k = some sl'
        ∧ y.cmds = x.cmds ++ [c] ∧ c.slice = k ∧ c.fn = e.2 ∧ sl.OctetOf a c.octet ∧ c.dst = d ∧ c.flag = p.flag
        ∧ c.progress = 0 ∧ c.finished = [] ∧ c.failed = 0
        ∧ sl.WentOn sl' ∧ sl.Attached sl' p.flag
        ∧ sl' = { sl.charged with hdr := sl'.hdr, ix := sl'.ix, opened := sl'.opened, code := sl'.code, flags := sl'.flags })
    ∧ (x.record.copyq = 0 →
      ∃ t y sl', exec (e.1 d a) s = .next t ∧ t.team? p.team = some y ∧ y.slice? k = some sl' ∧ sl.WentOn sl'
        ∧ (∀ f, sl'.flag f = sl.flag f) ∧ (∀ n, d = .s n → sl'.sget n.val = 0x04000000)
        ∧ ∀ n, (∀ r, d = .s r → r.val ≠ n) → sl'.sget n = sl.sget n)

/-- R238 to R242: a `copy` that has not begun, of words that lie in one sector of memory at each end, under held translations:
those bytes are replaced and no others, D reads status 0, the flag falls, and the command leaves the queue. One with a bad octet
writes the descriptor status to D, its flag falls, and it leaves the queue; where the fault log has no ring that an entry could
be written to, no byte of memory changes. -/
def Obligations.EngineCompletionResults : Prop :=
  ∀ (s : State) (n : Nat) (x : Team) (c : Cmd) (sl : Slice), s.cmd? x.uid n = some (x, c) → x.slice? c.slice = some sl →
    sl.mode = .user → sl.thread = none → sl.ended = false → sl.block = .none → s.Idle x.uid c.slice → c.fn = 0 →
    c.plan = none → c.progress = 0 →
    let src := octP c.octet 0
    let dst := octP c.octet 2
    let len := octW c.octet 4
    (∀ l m, src % 4 = 0 → dst % 4 = 0 → len % 4 = 0 → octW c.octet 5 = 0 → octW c.octet 6 = 0 → octW c.octet 7 = 0 →
      s.Reaches x .load false src len l → s.Reaches x .store false dst len m →
      (l = m ∨ (l.covers dst = false ∧ m.covers src = false)) → inRange .fabric l.pa = false → inRange .fabric m.pa = false →
      ∃ t sl', exec (.engineCommandComplete x.uid n) s = .next t ∧ t.slice? x.uid c.slice = some sl'
        ∧ t.mem.nat (m.addr dst) len = s.mem.nat (l.addr src) len
        ∧ (∀ a, a < m.addr dst ∨ m.addr dst + len ≤ a → t.mem.byte a = s.mem.byte a)
        ∧ (∀ r, c.dst = .s r → sl'.sget r.val = 0) ∧ sl.Dropped sl' c.flag ∧ sl'.vregs = sl.vregs
        ∧ ∀ y, t.team? x.uid = some y → ∀ z ∈ y.cmds, z.id ≠ n)
    ∧ ((src % 4 ≠ 0 ∨ dst % 4 ≠ 0 ∨ len % 4 ≠ 0 ∨ len = 0 ∨ octW c.octet 5 ≠ 0 ∨ octW c.octet 6 ≠ 0 ∨ octW c.octet 7 ≠ 0) →
      ∃ t sl', exec (.engineCommandComplete x.uid n) s = .next t ∧ t.slice? x.uid c.slice = some sl'
        ∧ (∀ r, c.dst = .s r → sl'.sget r.val = 0x01000000) ∧ sl.Dropped sl' c.flag ∧ sl'.vregs = sl.vregs
        ∧ (∀ y, t.team? x.uid = some y → ∀ z ∈ y.cmds, z.id ≠ n)
        ∧ ((s.part x.part).logn.toNat < 6 → ∀ a, t.mem.byte a = s.mem.byte a))

/-- R250, R251, R87: a burst that arrives whole starts a handler thread in a free catch slot: 128 bytes in `v0` to `v7`, the burst
coordinates, `s0`, and the handler's entry. -/
def Obligations.CatchBurstResults : Prop :=
  ∀ (s : State) (n burst e idx : Nat) (x : Team) (c : Cmd) (sl : Slice) (l : Leaf), s.cmd? x.uid n = some (x, c) →
    x.slice? c.slice = some sl → s.Idle x.uid c.slice → x.burstDue c burst = true → x.freeSlot = some idx →
    let size := bits (octW c.octet 4) 25 16
    let q := burst / size
    let va := c.itemAddr q e + 128 * (burst % size)
    ((c.fn = 6 ∧ e = q) ∨ (c.fn = 5 ∧ c.items.find? (fun y => y.1 == q) = some (q, 0, e))) →
    s.Reaches x .load false va 128 l →
    ∃ t th, exec (.catchBurstArrival x.uid n burst) s = .next t ∧ t.slice? x.uid idx = some th
      ∧ (∀ m, t.mem.byte m = s.mem.byte m) ∧ (∀ m, m ≠ idx → t.slice? x.uid m = s.slice? x.uid m)
      ∧ (∀ i, i < 32 → (th.vget (i % 8) (i / 8)).toNat = s.mem.nat (l.addr va) 128 / 2 ^ (32 * i) % 2 ^ 32)
      ∧ th.thread = some { cmd := c.id, burst := burst, bc0 := BitVec.ofNat 32 q, bc1 := BitVec.ofNat 32 (128 * (burst % size)),
                           bc2 := BitVec.ofNat 32 e, owner := c.slice, words := 0, fail := none }
      ∧ th.sget 0 = BitVec.ofNat 32 (octW c.octet 6) ∧ (∀ r, r ≠ 0 → th.sget r = 0) ∧ th.hdr = octW c.octet 5 % 2 ^ 26
      ∧ th.ix = 0 ∧ th.alloc = 2 ∧ th.wb = 0 ∧ th.exec = 0b1111 ∧ th.park = 0 ∧ th.mode = .user ∧ th.role = sl.role

/-- R258, R262, R266 to R268, R285: an MTX word queues one command for its sub-crew and `mload` one for its slice, each with its
octet, its destinations and flags, and the team then holds the engine; `mstat` samples it. -/
def Obligations.MatrixCommandResults : Prop :=
  (∀ e ∈ mtxWords, ∀ (s : State) (p : At) (x : Team) (sl0 : Slice) (d a : Opd), s.Executes (e.1 d a) p → s.team? p.team = some x →
    x.slice? (p.members.headD 0) = some sl0 →
    let g := (s.core x.core).engine
    (g.holder = none ∨ g.holder = some p.team) → g.queue.length ≤ 7 →
    (g.queue.filter (fun c => decide (c.fn < 2))).length + (if e.2.1 < 2 then 1 else 0) ≤ 4 →
    ∃ t c, exec (e.1 d a) s = .next t ∧ Elsewhere s t p.team p.members
      ∧ (t.core x.core).engine = { g with holder := some p.team, queue := g.queue ++ [c] }
      ∧ c.fn = e.2.1 ∧ (e.2.2 = true → sl0.OctetOf a c.octet) ∧ (e.2.2 = false → c.octet = [sl0.readS a])
      ∧ c.slices.map (fun y => (y.1, y.2.1, y.2.2.1)) = p.members.map (fun m => (m, d, p.flag))
      ∧ c.started = false ∧ c.step = 0 ∧ c.count = 0 ∧ c.progress = 0
      ∧ EachSlice s t p (fun _ sl sl' => sl.WentOn sl' ∧ sl.Attached sl' p.flag
          ∧ sl' = { sl.charged with hdr := sl'.hdr, ix := sl'.ix, opened := sl'.opened, code := sl'.code, flags := sl'.flags,
                                    marks := sl'.marks }))
  ∧ (∀ (s : State) (p : At) (x : Team) (k : Nat) (sl : Slice) (d a : Opd), s.Alone (.mload d a) p x k sl →
    let g := (s.core x.core).engine
    (g.holder = none ∨ g.holder = some p.team) → g.queue.length ≤ 7 →
    (g.queue.filter (fun c => decide (c.fn < 2))).length ≤ 4 →
    ∃ t c sl', exec (.mload d a) s = .next t ∧ Elsewhere s t p.team [k] ∧ t.slice? p.team k = some sl'
      ∧ (t.core x.core).engine = { g with holder := some p.team, queue := g.queue ++ [c] }
      ∧ c.fn = 8 ∧ sl.OctetOf a c.octet ∧ c.slices = [(k, d, p.flag, sl.wb)] ∧ c.started = false
      ∧ sl.WentOn sl' ∧ sl.Attached sl' p.flag
      ∧ sl' = { sl.charged with hdr := sl'.hdr, ix := sl'.ix, opened := sl'.opened, code := sl'.code, flags := sl'.flags })
  ∧ (∀ (s : State) (p : At) (x : Team) (k : Nat) (sl : Slice) (d a : Opd), s.Alone (.mstat d a) p x k sl →
    ∃ t sl' w, exec (.mstat d a) s = .next t ∧ WordFrame s t (.mstat d a) p ∧ t.slice? p.team k = some sl'
      ∧ sl.ScalarResult sl' d w sl.scc sl.fps
      ∧ let g := (s.core x.core).engine
        let loops := (g.queue.filter (fun c => decide (c.fn < 2))).length
        (sl.readS a = 0 → w = BitVec.ofNat 32 ((if g.holder = some p.team then 2 ^ 31 else 0)
            + (if g.holder ≠ none ∧ g.holder ≠ some p.team then 2 ^ 30 else 0) + 16 * loops + (g.queue.length - loops)))
        ∧ (4 ≤ (sl.readS a).toNat → w = 0)
        ∧ (1 ≤ (sl.readS a).toNat → g.holder ≠ some p.team → w = 0))

/-- R263, R268 to R284: the sequencer begins the head of its queue; a running `mzero` clears the accumulators of the blocks its mask
names and no other, writes status 0, lets its flag fall, and leaves the queue; a command whose octet fails a check ends with
BADDESC and nothing else; `mload` fills its slot and empties the others it overlaps; a step of `mloop` accumulates the rows it has
read, one of `mloops` decides, marks its row-tile and accumulates only where it computes, and one of `msig` writes the signature;
`mdrain` gives the accumulators to registers, or `mdrain` and `mdrains` to rows of one page, and clears them where CLEAR says so;
`mdrains` writes no skipped row-tile; `mskip` reads, writes and releases skip bits. The clauses of the loops take the rows, and
that of `mload` the table and the cells, as the model reads them (`stepRows`, `loadSources`, `fillCells`; logs 40 and 73). -/
def Obligations.MatrixSequencerResults : Prop :=
  (∀ (s : State) (core : Nat) (x : Team) (c : MCmd), s.mHead core = some (x, c) → c.started = false →
    (∀ y ∈ c.slices, s.Idle x.uid y.1) → (s.pend.map (fun o => o.id)).Nodup →
    ∃ t, exec (.matrixQueueDispatch core) s = .next t ∧ (∀ m, t.mem.byte m = s.mem.byte m) ∧ t.teams = s.teams
      ∧ (t.core core).engine = { (s.core core).engine with queue := (s.core core).engine.queue.map (fun y =>
          if y.id = c.id then { y with started := true } else y) })
  ∧ (∀ (s : State) (x : Team) (c : MCmd) (k : Nat) (d : Opd) (f : Option Nat) (wb : Nat) (m : Word) (sl : Slice),
    s.mHead x.core = some (x, c) → s.team? x.uid = some x → c.started = true → c.fn = 4 → c.octet = [m] → m.toNat < 2 ^ 16 →
    c.slices = [(k, d, f, wb)] → x.slice? k = some sl → sl.mode = .user → sl.thread = none → sl.ended = false → sl.block = .none →
    ∃ t sl', exec (.matrixCommandComplete x.core) s = .next t ∧ t.slice? x.uid k = some sl'
      ∧ (∀ r, d = .s r → sl'.sget r.val = 0) ∧ (∀ n, (∀ r, d = .s r → r.val ≠ n) → sl'.sget n = sl.sget n) ∧ sl.Dropped sl' f
      ∧ (∀ b r j, b < 16 → r < 16 → j < 64 → nget (t.core x.core).engine.accs (accKey b r j) =
          if m.getLsbD b then 0 else nget (s.core x.core).engine.accs (accKey b r j))
      ∧ (∀ y ∈ (t.core x.core).engine.queue, y.id ≠ c.id)
      ∧ (t.core x.core).engine.groups = (s.core x.core).engine.groups ∧ ∀ n, t.mem.byte n = s.mem.byte n)
  ∧ (∀ (s : State) (x : Team) (c : MCmd) (k : Nat) (d : Opd) (f : Option Nat) (sl : Slice), s.Sequences x c k d f sl →
    let o := c.octet
    let e := (s.core x.core).engine
    let l := loopOf o
    let run := fun (P : State → Prop) => ∃ t, exec (.matrixCommandComplete x.core) s = .next t ∧ P t
    let same := fun (t : State) => ∀ n, t.mem.byte n = s.mem.byte n
    -- R263, R271, R275, R281 to R284: a bad octet
    ((c.fn = 8 ∧ loadOk o = false ∨ (c.fn = 0 ∨ c.fn = 1 ∨ c.fn = 5) ∧ c.step = 0 ∧ c.desc = none ∧ loopBad c.fn o = true
        ∨ c.fn = 2 ∧ drainBad o = true ∨ c.fn = 3 ∧ drainsBad o = true
        ∨ c.fn = 6 ∧ (octW o 3 % 4 = 3 ∨ octW o 3 % 4 ≠ 0 ∧ (octW o 3 / 4 ≠ 0 ∨ octW o 5 ≠ 0 ∨ octW o 6 ≠ 0 ∨ octW o 7 ≠ 0
            ∨ octW o 2 % 32 ≠ 0 ∨ 4096 ≤ octW o 2 ∨ octP o 0 % 64 ≠ 0))) →
      run (fun t => t.Sequenced x c k d f sl 0x01000000
        ∧ (t.core x.core).engine = { e with queue := e.queue.filter (fun y => y.id != c.id) }
        ∧ ((s.part x.part).logn.toNat < 6 → same t)))
    -- R263: `mload`
    ∧ (∀ s1 s2 s3 srcs ls cells, c.fn = 8 → s.loadSources x c.owner c.bad o = (s1, .ok srcs) →
      s1.engCheckAll x c.bad (loadRanges o srcs) = (s2, .ok ls) → s2.fillCells x c.owner c.bad o srcs = (s3, .ok cells) →
      let m := loadMacros o
      let grp := bits (octW o 5) 3 0
      (octP o 2 = 0 → srcs = (List.range (256 * m.2.1)).map (fun j => octW o 6 + j))
      ∧ run (fun t => t.Sequenced x c k d f sl 0 ∧ same t ∧ (t.core x.core).engine.accs = e.accs
        ∧ (t.core x.core).engine.skips = e.skips
        ∧ ∀ y, y ∈ (t.core x.core).engine.groups ↔
            y = (grp, { mbase := m.1, k := m.2.1, n := m.2.2, bf16 := bit (octW o 5) 24, octet := o, cells := cells })
            ∨ (y ∈ e.groups ∧ y.1 ≠ grp ∧ (y.2.mbase + y.2.k * y.2.n ≤ m.1 ∨ m.1 + m.2.1 * m.2.2 ≤ y.2.mbase))))
    -- R271: a step of `mloop`
    ∧ (∀ s1 g rows, c.fn = 0 → loopBad 0 o = false → c.step < l.steps → e.slot (l.grp + (if l.ginc then c.step else 0)) = some g →
      g.cells.length = (if g.bf16 then 32 else 64) * g.n → l.acc + c.step * l.accinc + g.n ≤ 16 →
      s.stepRows x c l c.step g = (s1, .ok rows) →
      run (fun t => t.StepCounted x c k d f sl l.steps ∧ same t ∧ (t.core x.core).engine.groups = e.groups
        ∧ (t.core x.core).engine.skips = e.skips
        ∧ StepAccs e.accs (t.core x.core).engine.accs g l.zf (l.acc + c.step * l.accinc) rows))
    -- R279 to R281: a step of `mloops` without a memory copy of the skip map
    ∧ (∀ s1 s2 g rows rg n b v, c.fn = 1 → c.desc.bind regionOf = some rg → rg.skip = 0 → c.step < l.steps → l.t0 + c.step < 4096 →
      e.slot (l.grp + (if l.ginc then c.step else 0)) = some g → g.cells.length = (if g.bf16 then 32 else 64) * g.n →
      l.acc + c.step * l.accinc + g.n ≤ 16 → e.bound l.region = some (n, b) →
      (∀ y ∈ e.skips, y.2.region = l.region → y = (n, b)) → s.stepRows x c l c.step g = (s1, .ok rows) →
      let tt := l.t0 + c.step
      let entry := rg.sig + 16 * tt
      s1.engRead x c.owner c.bad entry 16 = (s2, .ok v) →
      let sg := signature g.bf16 rows
      let sk := skips rg.force sg.1 sg.2 (v % 2 ^ 64) (v / 2 ^ 64) rg.thv rg.tha
      let marked := fun (t : State) => ∃ b', (t.core x.core).engine.bound l.region = some (n, b') ∧ b'.phase = b.phase
        ∧ ∀ u, b'.bits.getLsbD u = if u = tt then sk else b.bits.getLsbD u
      (sk = true → run (fun t => t.StepCounted x c k d f sl l.steps ∧ same t ∧ marked t ∧ (t.core x.core).engine.accs = e.accs))
      ∧ ∀ s3 p, sk = false → s2.Writes16 x c entry p s3 →
          run (fun t => t.StepCounted x c k d f sl l.steps ∧ marked t
            ∧ t.mem.nat p.pa 8 = sg.1 % 2 ^ 64 ∧ t.mem.nat (p.pa + 8) 8 = sg.2 % 2 ^ 64
            ∧ (∀ a, a < p.pa ∨ p.pa + 16 ≤ a → t.mem.byte a = s.mem.byte a)
            ∧ StepAccs e.accs (t.core x.core).engine.accs g l.zf (l.acc + c.step * l.accinc) rows))
    -- R283: a step of `msig`
    ∧ (∀ s1 s2 g rows rg p, c.fn = 5 → c.desc.bind regionOf = some rg → c.step < l.steps →
      e.slot (l.grp + (if l.ginc then c.step else 0)) = some g → s.stepRows x c l c.step g = (s1, .ok rows) →
      s1.Writes16 x c (rg.sig + 16 * (l.t0 + c.step)) p s2 →
      run (fun t => t.StepCounted x c k d f sl l.steps ∧ (t.core x.core).engine.accs = e.accs ∧ (t.core x.core).engine.skips = e.skips
        ∧ t.mem.nat p.pa 8 = (signature g.bf16 rows).1 % 2 ^ 64 ∧ t.mem.nat (p.pa + 8) 8 = (signature g.bf16 rows).2 % 2 ^ 64
        ∧ ∀ a, a < p.pa ∨ p.pa + 16 ≤ a → t.mem.byte a = s.mem.byte a))
    -- R276: `mdrain` to registers
    ∧ (∀ wb, c.fn = 2 → drainBad o = false → bit (octW o 3) 12 = true → c.lanes = none → x.drainOut c = false → c.slices = [(k, d, f, wb)] →
      (∀ r, sl.marks.since r = false) →
      let acc := fun j i => nget e.accs (drainKey o (sl.pos x.record.crewlog) j i)
      let vd := wb + bits (octW o 4) 6 0
      run (fun t => t.Sequenced x c k d f sl 0 ∧ same t
        ∧ (∃ sl', t.slice? x.uid k = some sl'
          ∧ (∀ j i, j < 8 → i < 4 → sl'.vget (vd + j) i = if bits (octW o 3) 15 13 = 0 then acc j i
              else BitVec.ofNat 32 (cvtFmt f32 bf16 .rne (acc j i).toNat).1)
          ∧ ∀ r i, (r < vd ∨ vd + 8 ≤ r) → i < 4 → sl'.vget r i = sl.vget r i)
        ∧ ∀ key, let drained := bit (octW o 3) 16 = true ∧ ∃ j i, j < 8 ∧ i < 4 ∧ key = drainKey o (sl.pos x.record.crewlog) j i
          (drained → nget (t.core x.core).engine.accs key = 0) ∧ (¬ drained → nget (t.core x.core).engine.accs key = nget e.accs key)))
    -- R276, R282: `mdrain`, and `mdrains` of one row-tile that was not skipped, to rows of one page
    ∧ (∀ nb block dest pitch w (leaf : Leaf), c.held = none → c.count = 0 → c.progress = 0 → (∀ j ∈ s.jobs, j.stream = none) →
      ((c.fn = 2 ∧ drainBad o = false ∧ bit (octW o 3) 12 = false ∧ nb = bits (octW o 3) 8 4 ∧ block = bits (octW o 3) 3 0
          ∧ dest = octP o 0 ∧ pitch = octW o 2 ∧ w = (0 : Word))
        ∨ (c.fn = 3 ∧ drainsBad o = false ∧ octW o 2 % 2 ^ 16 = 1 ∧ nb = bits (octW o 3) 12 8 ∧ block = bits (octW o 3) 3 0
          ∧ block + nb ≤ 16 ∧ w = 1 ∧ ∃ rg n b, c.desc.bind regionOf = some rg ∧ e.bound (octP o 0) = some (n, b)
            ∧ b.phase.toNat = rg.phase ∧ octW o 2 / 2 ^ 16 + 1 ≤ rg.tiles ∧ b.bits.getLsbD (octW o 2 / 2 ^ 16) = false
            ∧ dest = rg.out + 16 * (octW o 2 / 2 ^ 16) * rg.pitch ∧ pitch = rg.pitch)) →
      let fmt := bits (octW o 3) 15 13
      let len := nb * rowBytes fmt
      let row := fun r => (List.range nb).flatMap (fun y =>
        drainRow fmt ((List.range 64).map (fun j => (nget e.accs (accKey (block + y) r j)).toNat)))
      len ≤ pitch → (∀ r, r < 16 → canonicalRange (dest + r * pitch) len = true
        ∧ ∀ q ∈ pieces 128 (dest + r * pitch) len, s.Reaches x .store false q.1 q.2 leaf) →
      run (fun t => t.Sequenced x c k d f sl w ∧ (t.core x.core).engine.groups = e.groups ∧ (t.core x.core).engine.skips = e.skips
        ∧ (∀ r, r < 16 → t.mem.nat (leaf.addr (dest + r * pitch)) len = natOfBytes (row r))
        ∧ (∀ a, (∀ r, r < 16 → a < leaf.addr (dest + r * pitch) ∨ leaf.addr (dest + r * pitch) + len ≤ a) → t.mem.byte a = s.mem.byte a)
        ∧ ∀ b r j, b < 16 → r < 16 → j < 64 → nget (t.core x.core).engine.accs (accKey b r j) =
            if bit (octW o 3) 16 = true ∧ block ≤ b ∧ b < block + nb then 0 else nget e.accs (accKey b r j)))
    -- R282: `mdrains` of row-tiles that were all skipped
    ∧ (∀ rg n b, c.fn = 3 → drainsBad o = false → c.desc.bind regionOf = some rg → e.bound (octP o 0) = some (n, b) →
      b.phase.toNat = rg.phase → octW o 2 / 2 ^ 16 + octW o 2 % 2 ^ 16 ≤ rg.tiles →
      bits (octW o 3) 3 0 + (octW o 2 % 2 ^ 16 - 1) * bits (octW o 3) 7 4 + bits (octW o 3) 12 8 ≤ 16 →
      (∀ i, i < octW o 2 % 2 ^ 16 → b.bits.getLsbD (octW o 2 / 2 ^ 16 + i) = true) →
      run (fun t => t.Sequenced x c k d f sl 0 ∧ same t ∧ (t.core x.core).engine.accs = e.accs))
    -- R284: `mskip`
    ∧ (∀ s1 at_ rg, c.fn = 6 → octW o 3 < 3 → octW o 2 % 32 = 0 → octW o 2 < 4096 → octP o 0 % 64 = 0 →
      octW o 5 = 0 → octW o 6 = 0 → octW o 7 = 0 → s.readRegion x c (octP o 0) = (s1, .ok (at_, rg)) →
      (octW o 3 = 0 → run (fun t => same t ∧ (t.core x.core).engine.skips = e.skips ∧ t.Sequenced x c k d f sl
        (match e.bound (octP o 0) with
         | some (_, b) => if b.phase.toNat = rg.phase then (b.bits >>> octW o 2).setWidth 32 else 0
         | none => 0)))
      ∧ (∀ n b, octW o 3 = 1 → e.bound (octP o 0) = some (n, b) → b.phase.toNat = rg.phase →
        (∀ y ∈ e.skips, y.2.region = octP o 0 → y = (n, b)) →
        run (fun t => t.Sequenced x c k d f sl 0 ∧ same t ∧ ∃ b', (t.core x.core).engine.bound (octP o 0) = some (n, b')
          ∧ b'.phase = b.phase ∧ ∀ u, u < 4096 → b'.bits.getLsbD u =
              if octW o 2 ≤ u ∧ u < octW o 2 + 32 then (BitVec.ofNat 32 (octW o 4)).getLsbD (u - octW o 2) else b.bits.getLsbD u))
      ∧ (octW o 3 = 2 → run (fun t => t.Sequenced x c k d f sl 0 ∧ same t
        ∧ (t.core x.core).engine.skips = e.skips.filter (fun y => y.2.region != octP o 0)))))

/-! ## Tasks -/

/-- R32, R293 to R295: an arrival in `take` joins the gather, and the request goes to the cox when every live slice has arrived, the
task in hand being counted; a request that the team's own range can supply is answered with its next grain. -/
def Obligations.TakeResults : Prop :=
  (∀ (s : State) (p : At) (x : Team) (k : Nat) (sl : Slice) (d : Opd) (L : Launch), s.Alone (.take d) p x k sl → s.Idle p.team k →
    (∀ a ∈ x.gather ++ x.asked, a.slice ≠ k) → s.launch? x.launch = some L →
    ∃ t y sl' n, exec (.take d) s = .next t ∧ Elsewhere s t p.team [k] ∧ t.team? p.team = some y ∧ y.slice? k = some sl' ∧ d = .s n
      ∧ sl.WentOn sl' ∧ sl.Attached sl' p.flag
      ∧ sl' = { sl.charged with hdr := sl'.hdr, ix := sl'.ix, opened := sl'.opened, code := sl'.code, flags := sl'.flags }
      ∧ let all := x.gather ++ [{ slice := k, octet := n.val, flag := p.flag }]
        let whole := x.asked = [] ∧ ∀ z ∈ x.slices, z.ended = false → z.thread = none → ∃ a ∈ all, a.slice = z.idx
        (whole → y.asked = all ∧ y.gather = [] ∧ y.work = none
          ∧ ∃ L', t.launch? x.launch = some L' ∧ L' = { L with tasks := if x.work.isSome ∧ L.tasks ≠ BitVec.allOnes 64
              then L.tasks + 1 else L.tasks })
        ∧ (¬ whole → y.asked = x.asked ∧ y.gather = all ∧ y.work = x.work ∧ t.launch? x.launch = some L))
  ∧ (∀ (s : State) (u : Nat) (x : Team) (L : Launch) (a : Arrival) (sl : Slice), s.takeDue u = true → s.team? u = some x →
    s.launch? x.launch = some L → x.answer = none → u ∉ L.releasing → L.st ≠ .cancelled → L.exhausted = false → L.moving = false → L.readyCont = none →
    x.lo < x.hi → L.waiters = [] → s.pastQuiet x = false → x.asked = [a] → x.slice? a.slice = some sl → sl.mode = .user →
    a.octet + 8 ≤ 24 →
    let e := min (x.lo + L.record.grain) x.hi
    ∃ t y sl', exec (.takeRequest u) s = .next t ∧ t.team? u = some y ∧ y.slice? a.slice = some sl'
      ∧ y.lo = e ∧ y.hi = x.hi ∧ y.asked = [] ∧ y.work = some (.range x.lo e)
      ∧ (∀ j w, [1, 0, x.lo % 2 ^ 32, x.lo / 2 ^ 32 % 2 ^ 32, e % 2 ^ 32, e / 2 ^ 32 % 2 ^ 32, 0, 0][j]? = some w →
          (sl'.sget (a.octet + j)).toNat = w)
      ∧ (∀ n, n < a.octet ∨ a.octet + 8 ≤ n → sl'.sget n = sl.sget n) ∧ sl.Dropped sl' a.flag
      ∧ (∀ m, t.mem.byte m = s.mem.byte m) ∧ ∀ v, v ≠ u → t.team? v = s.team? v)

/-- R45, R298, R299: `spawn` makes a record with a new nonzero handle, ready when its count is 0, or gives 0 with SCC clear when it
may not; `joinc` lowers the count of a pending record, which becomes ready at 0. The record keeps the latest time of the events that
its task is to follow (R141). -/
def Obligations.ContinuationResults : Prop :=
  (∀ (s : State) (p : At) (x : Team) (k : Nat) (sl : Slice) (d a : Opd) (L : Launch), s.Alone (.spawn d a) p x k sl → s.Idle p.team k →
    s.launch? x.launch = some L → L.moving = false → L.waiters = [] → L.st ≠ .cancelled →
    let off := (sl.readS (a.plus 2)).toNat
    let cnt := (sl.readS (a.plus 3)).toNat
    ∃ t sl' h, exec (.spawn d a) s = .next t ∧ Elsewhere s t p.team [k] ∧ t.slice? p.team k = some sl'
      ∧ sl.ScalarResult sl' d h (h != 0) sl.fps
      ∧ (L.spawnFails off = true → h = 0 ∧ t.launches = s.launches)
      ∧ (L.spawnFails off = false → h ≠ 0 ∧ h.toNat ∉ L.handles ∧ ∃ L', t.launch? x.launch = some L'
          ∧ ∃ now, (s.core x.core).clock ≤ now ∧ L' = { L with handles := L.handles ++ [h.toNat], opno := L.opno + 1, conts := L.conts ++
              [{ frame := sl.pairOf 0 a 0, codeoff := off, count := cnt, handle := h.toNat,
                 st := if cnt = 0 then .ready else .pending, readyseq := L.opno, takenBy := 0, time := now }] }))
  ∧ (∀ (s : State) (p : At) (x : Team) (k : Nat) (sl : Slice) (a : Opd) (L : Launch), s.Alone (.joinc a) p x k sl → s.Idle p.team k →
    s.launch? x.launch = some L → L.moving = false → L.waiters = [] →
    ∃ t sl', exec (.joinc a) s = .next t ∧ Elsewhere s t p.team [k] ∧ t.slice? p.team k = some sl' ∧ sl.WentOn sl'
      ∧ sl' = { sl.charged with hdr := sl'.hdr, ix := sl'.ix, opened := sl'.opened, code := sl'.code }
      ∧ ∃ L' now, t.launch? x.launch = some L' ∧ L' = { L with opno := L.opno + 1, conts := L'.conts } ∧ (s.core x.core).clock ≤ now
        ∧ L'.conts = L.conts.map (fun (c : Cont) =>
          if c.handle = (sl.readS a).toNat ∧ c.st = .pending then
            { c with count := c.count - 1, st := if c.count ≤ 1 then .ready else .pending,
                     readyseq := if c.count ≤ 1 then L.opno else c.readyseq, time := max c.time now }
          else c))

/-- R44, R45, R300, R301, R448: `cancel` of the own launch cancels it and says in SCC whether it was still open; of a record, cancels a
pending or ready one and counts it, or one that a team still runs; of a graph, a phase or the job, cancels every launch of the unit
that is not counted, and says in SCC whether the unit had something open and was not cancelled already. `ctr` reads the counter of a
level into a pair. Which job, graph and phase key the counters of the levels is the model's reading (log 23), and so is that a unit
lies in one address space (log 65). -/
def Obligations.CancelCounterResults : Prop :=
  (∀ (s : State) (p : At) (x : Team) (k : Nat) (sl : Slice) (a : Opd) (L : Launch), s.Alone (.cancel a 1) p x k sl →
    s.queued = false → s.launch? x.launch = some L → (∀ y ∈ s.launches, p.team ∉ y.waiters) →
    let fresh := decide (L.counted = false ∧ L.st ≠ .cancelled)
    ∃ t sl', exec (.cancel a 1) s = .next t ∧ t.slice? p.team k = some sl' ∧ sl.WentOn sl'
      ∧ sl' = { sl.charged with scc := fresh, hdr := sl'.hdr, ix := sl'.ix, opened := sl'.opened, code := sl'.code }
      ∧ (fresh = true → t.isCancelled x.launch = true) ∧ (fresh = false → t.launch? x.launch = some L))
  ∧ (∀ (s : State) (p : At) (x : Team) (k : Nat) (sl : Slice) (a : Opd) (L : Launch), s.Alone (.cancel a 0) p x k sl →
    s.launch? x.launch = some L → L.moving = false → L.waiters = [] →
    let open_ := (L.conts.find? (fun c => c.handle == (sl.readS a).toNat)).any (fun c => c.st == .ready || c.st == .pending)
    let runs := (L.conts.find? (fun c => c.handle == (sl.readS a).toNat)).any (fun c => c.st == .taken)
      && s.runsCont x.launch (sl.readS a).toNat
    let hit := open_ || runs
    ∃ t sl', exec (.cancel a 0) s = .next t ∧ Elsewhere s t p.team [k] ∧ t.slice? p.team k = some sl' ∧ sl.WentOn sl'
      ∧ sl' = { sl.charged with scc := hit, hdr := sl'.hdr, ix := sl'.ix, opened := sl'.opened, code := sl'.code }
      ∧ (hit = false → t.launch? x.launch = some L)
      ∧ (hit = true → ∃ L', t.launch? x.launch = some L' ∧ L'.tasks = (if open_ then countUp L.tasks else L.tasks)
          ∧ ∀ c ∈ L'.conts, c.handle = (sl.readS a).toNat → c.st = .cancelled))
  ∧ (∀ (s : State) (p : At) (x : Team) (k : Nat) (sl : Slice) (a : Opd) (l : BitVec 7), s.Alone (.cancel a l) p x k sl →
    2 ≤ l.toNat → s.queued = false → (∀ y ∈ s.launches, p.team ∉ y.waiters) →
    let id := if l = 2 then (sl.readS a).toNat % 2 ^ 16 else if l = 3 then (sl.readS a).toNat % 2 ^ 24 else 0
    let mark : Cancel := { part := x.part, asid := x.asid, job := x.record.job, level := l.toNat, id := id }
    let mine := fun (y : Launch) => y.part = x.part ∧ y.asid = x.asid ∧ y.record.job = x.record.job
      ∧ (l = 2 → y.record.graph = id) ∧ (l = 3 → y.record.phase = id)
    let fresh := (∃ y ∈ s.launches, mine y ∧ s.passCounted y = false) ∧ mark ∉ s.cancels
    ∃ t sl', exec (.cancel a l) s = .next t ∧ t.slice? p.team k = some sl' ∧ sl.WentOn sl' ∧ (sl'.scc = true ↔ fresh)
      ∧ sl' = { sl.charged with scc := sl'.scc, hdr := sl'.hdr, ix := sl'.ix, opened := sl'.opened, code := sl'.code }
      ∧ (fresh → ∀ y ∈ s.launches, mine y → s.launch? y.uid = some y → y.counted = false → t.isCancelled y.uid = true)
      ∧ (¬ fresh → t.launches = s.launches))
  ∧ (∀ (s : State) (p : At) (x : Team) (n : Fin 24) (l : BitVec 7) (L : Launch), s.Executes (.ctr (.s n) l) p → s.team? p.team = some x →
    s.launch? x.launch = some L →
    ∃ t, exec (.ctr (.s n) l) s = .next t ∧ WordFrame s t (.ctr (.s n) l) p ∧ EachSlice s t p (fun _ sl sl' =>
      let key := if l = 1 then (L.record.job, L.record.graph, 0) else if l = 2 then (L.record.job, L.record.graph, L.record.phase)
        else if l = 3 then (L.record.job, 0, 0) else (0, 0, 0)
      let v := if l = 0 then L.tasks else s.counter L.part l.toNat key.1 key.2.1 key.2.2
      (sl'.sget n.val).toNat + 2 ^ 32 * (sl'.sget (n.val + 1)).toNat = v.toNat
      ∧ (∀ m, m ≠ n.val → m ≠ n.val + 1 → sl'.sget m = sl.sget m) ∧ sl.WentOn sl'
      ∧ sl' = { sl.charged with sregs := sl'.sregs, smarred := sl'.smarred, hdr := sl'.hdr, ix := sl'.ix, opened := sl'.opened,
                                code := sl'.code }))

/-- R302 to R305: an arrival at a team barrier counts one; the last that the generation expects completes it, every slice that waits
for it then passes, `bar.sync` itself with them, which otherwise waits; `bar.arr` gives the generation joined; `bar.wait` passes a generation that has completed and waits for one
that has not. -/
def Obligations.TeamBarrierResults : Prop :=
  (∀ (s : State) (p : At) (x : Team) (k : Nat) (sl : Slice) (n : BitVec 7) (b : Barrier) (c : SubCrew), s.Alone (.barSync n) p x k sl →
    s.Idle p.team k → x.bars[n.toNat]? = some b → x.sub? k = some c → c.members = [k] →
    let exp := if b.isOpen then b.expected.toNat else x.live.length % 2 ^ 12
    let arr := if b.isOpen then (b.arrived + 1).toNat else 1
    ∃ t y sl' b', exec (.barSync n) s = .next t ∧ t.team? p.team = some y ∧ y.slice? k = some sl' ∧ y.bars[n.toNat]? = some b'
      ∧ OthersKept s t p.team ∧ (∀ m, m ≠ n.toNat → y.bars[m]? = x.bars[m]?)
      ∧ (exp ≤ arr → sl.WentOn sl' ∧ sl' = { sl.charged with hdr := sl'.hdr, ix := sl'.ix, opened := sl'.opened, code := sl'.code }
          ∧ b'.isOpen = false ∧ b'.comp = b.comp + 1 ∧ x.Released y n.toNat b'.comp)
      ∧ (arr < exp → sl' = { sl.charged with block := .barrier n.toNat b.comp } ∧ b'.isOpen = true ∧ b'.comp = b.comp
          ∧ b'.arrived.toNat = arr ∧ b'.expected.toNat = exp ∧ k ∈ b'.came))
  ∧ (∀ (s : State) (p : At) (x : Team) (k : Nat) (sl : Slice) (d a : Opd) (n : BitVec 7) (b : Barrier), s.Alone (.barArr d a n) p x k sl →
    s.Idle p.team k → x.bars[n.toNat]? = some b → 1 ≤ (sl.readS a).toNat → (sl.readS a).toNat ≤ 4095 →
    let exp := if b.isOpen then b.expected.toNat else (sl.readS a).toNat
    let arr := if b.isOpen then (b.arrived + 1).toNat else 1
    ∃ t y sl' b', exec (.barArr d a n) s = .next t ∧ t.team? p.team = some y ∧ y.slice? k = some sl' ∧ y.bars[n.toNat]? = some b'
      ∧ sl.ScalarResult sl' d (b.comp.setWidth 32) sl.scc sl.fps ∧ (∀ u, u ≠ p.team → t.team? u = s.team? u)
      ∧ (∀ m, t.mem.byte m = s.mem.byte m)
      ∧ (exp ≤ arr → b'.isOpen = false ∧ b'.comp = b.comp + 1 ∧ x.Released y n.toNat b'.comp)
      ∧ (arr < exp → b'.isOpen = true ∧ b'.comp = b.comp ∧ b'.arrived.toNat = arr ∧ b'.expected.toNat = exp ∧ k ∈ b'.came))
  ∧ (∀ (s : State) (p : At) (x : Team) (k : Nat) (sl : Slice) (a : Opd) (n : BitVec 7) (b : Barrier) (c : SubCrew),
    s.Alone (.barWait a n) p x k sl → s.Idle p.team k → x.bars[n.toNat]? = some b → x.sub? k = some c → c.members = [k] →
    let g := (sl.readS a).setWidth 16
    let gone := (b.comp - g).toNat
    ∃ t sl', exec (.barWait a n) s = .next t ∧ t.slice? p.team k = some sl'
      ∧ (1 ≤ gone ∧ gone ≤ 32768 → Elsewhere s t p.team [k] ∧ sl.WentOn sl'
          ∧ sl' = { sl.charged with hdr := sl'.hdr, ix := sl'.ix, opened := sl'.opened, code := sl'.code })
      ∧ (gone = 0 ∨ 32768 < gone → sl' = { sl.charged with block := .barrier n.toNat g }))

/-- R306: an arrival at a barrier word is one access: it adds to ARRIVED, sets EXPECTED on the first, starts the next generation on
the last, and gives the generation joined; a waiting slice passes when its generation has gone by, at once or on a later look. -/
def Obligations.BarrierWordResults : Prop :=
  (∀ (s : State) (p : At) (x : Team) (k : Nat) (sl : Slice) (d a b : Opd) (l : Leaf), s.Alone (.barArrG d a b) p x k sl →
    s.Idle p.team k → x.record.coresid = true → sl.readS b ≠ 0 → sl.pairOf 0 a 0 % 16 = 0 →
    s.Reaches x .atomic false (sl.pairOf 0 a 0) 16 l →
    let pa := l.addr (sl.pairOf 0 a 0)
    let word := fun (s : State) j => s.mem.nat (pa + 4 * j) 4
    let arrived := word s 0
    let expected := if arrived = 0 then (sl.readS b).toNat else word s 1
    ∃ t sl', exec (.barArrG d a b) s = .next t ∧ t.slice? p.team k = some sl'
      ∧ sl.ScalarResult sl' d (BitVec.ofNat 32 (word s 2)) sl.scc sl.fps
      ∧ word t 0 = (if expected ≤ arrived + 1 then 0 else arrived + 1) ∧ word t 1 = expected
      ∧ word t 2 = (if expected ≤ arrived + 1 then (word s 2 + 1) % 2 ^ 32 else word s 2) ∧ word t 3 = word s 3
      ∧ (∀ m, m < pa ∨ pa + 16 ≤ m → t.mem.byte m = s.mem.byte m)
      ∧ OthersKept s t p.team ∧ ∀ m, m ≠ k → t.slice? p.team m = s.slice? p.team m)
  ∧ (∀ (s : State) (p : At) (x : Team) (k : Nat) (sl : Slice) (a b : Opd) (l : Leaf) (c : SubCrew), s.Alone (.barWaitG a b) p x k sl →
    s.Idle p.team k → x.record.coresid = true → sl.pairOf 0 a 0 % 16 = 0 → s.Reaches x .load false (sl.pairOf 0 a 0) 16 l →
    x.sub? k = some c → c.members = [k] →
    let gen := BitVec.ofNat 32 (s.mem.nat (l.addr (sl.pairOf 0 a 0) + 8) 4)
    let gone := (gen - sl.readS b).toNat
    ∃ t sl', exec (.barWaitG a b) s = .next t ∧ t.slice? p.team k = some sl'
      ∧ (1 ≤ gone ∧ gone ≤ 2 ^ 31 → Elsewhere s t p.team [k] ∧ sl.WentOn sl'
          ∧ sl' = { sl.charged with hdr := sl'.hdr, ix := sl'.ix, opened := sl'.opened, code := sl'.code })
      ∧ (gone = 0 ∨ 2 ^ 31 < gone → sl' = { sl.charged with block := .barWord (sl.pairOf 0 a 0) (sl.readS b) gen }))
  ∧ (∀ (s : State) (u k va : Nat) (g seen : Word) (x : Team) (sl : Slice) (l : Leaf) (c : SubCrew), s.team? u = some x →
    x.slice? k = some sl → sl.block = .barWord va g seen → sl.mode = .user → sl.thread = none → sl.ended = false →
    va % 16 = 0 → s.Reaches x .load false va 16 l → x.sub? k = some c → c.members = [k] →
    (∀ z ∈ x.slices, ∀ w, z.block ≠ .passed w) →
    let gen := BitVec.ofNat 32 (s.mem.nat (l.addr va + 8) 4)
    let gone := (gen - g).toNat
    ∃ t sl', exec (.barrierWordRecheck u k) s = .next t ∧ t.slice? u k = some sl'
      ∧ (1 ≤ gone ∧ gone ≤ 2 ^ 31 → Elsewhere s t u [k] ∧ sl.WentOn sl'
          ∧ sl' = { sl with block := .none, hdr := sl'.hdr, ix := sl'.ix, opened := sl'.opened, code := sl'.code })
      ∧ (gone = 0 ∨ 2 ^ 31 < gone → sl' = { sl with block := .barWord va g gen }))

/-- R307 to R310, R312: `give` moves blocks from the slice to its team's loan pool; a `claim` that the pools can supply at once appends
blocks that read 0; `role` starts the slice at its role's entry with the role's window and class. -/
def Obligations.LoanRoleResults : Prop :=
  (∀ (s : State) (p : At) (x : Team) (k : Nat) (sl : Slice) (n : BitVec 7), s.Alone (.give n) p x k sl → x.claims = [] →
    n.toNat < sl.alloc → sl.wb < 8 * (sl.alloc - n.toNat) →
    ∃ t y sl', exec (.give n) s = .next t ∧ Elsewhere s t p.team [k] ∧ t.team? p.team = some y ∧ y.slice? k = some sl'
      ∧ y.pool = x.pool + n.toNat ∧ sl'.alloc = sl.alloc - n.toNat ∧ sl.WentOn sl'
      ∧ sl' = { sl.charged with alloc := sl'.alloc, hdr := sl'.hdr, ix := sl'.ix, opened := sl'.opened, code := sl'.code })
  ∧ (∀ (s : State) (p : At) (x : Team) (k : Nat) (sl : Slice) (n : BitVec 7) (c : SubCrew), s.Alone (.claim n) p x k sl → x.claims = [] →
    sl.alloc + n.toNat ≤ 64 → n.toNat ≤ x.pool + s.freeBlocks x.core → x.sub? k = some c → c.members = [k] →
    ∃ t y sl', exec (.claim n) s = .next t ∧ Elsewhere s t p.team [k] ∧ t.team? p.team = some y ∧ y.slice? k = some sl'
      ∧ y.pool = x.pool - min x.pool n.toNat ∧ y.claims = [] ∧ sl'.alloc = sl.alloc + n.toNat ∧ sl.WentOn sl'
      ∧ (∀ r l, l < 4 → 8 * sl.alloc ≤ r → r < 8 * sl'.alloc → sl'.vget r l = 0)
      ∧ (∀ r l, l < 4 → r < 8 * sl.alloc → sl'.vget r l = sl.vget r l)
      ∧ sl' = { sl.charged with alloc := sl'.alloc, vregs := sl'.vregs, marks := sl'.marks, hdr := sl'.hdr, ix := sl'.ix, opened := sl'.opened, code := sl'.code })
  ∧ (∀ (s : State) (p : At) (x : Team) (k : Nat) (sl : Slice) (n : BitVec 7), s.Alone (.claim n) p x k sl → x.claims = [] →
    sl.alloc + n.toNat ≤ 64 → x.pool + s.freeBlocks x.core < n.toNat →
    ∃ t y q, exec (.claim n) s = .next t ∧ t.team? p.team = some y ∧ y.slice? k = some { sl.charged with block := .claim }
      ∧ y.pool = x.pool ∧ y.claims = [{ seq := q, members := [k], n := n.toNat }])
  ∧ (∀ (s : State) (p : At) (x : Team) (k : Nat) (sl : Slice) (a : Opd) (e : RoleEnt) (w : Word), s.Alone (.roleW a) p x k sl →
    s.Idle p.team k → x.role? (sl.readS a).toNat = some e → e.wbblk < sl.alloc → (∀ f, f < 12 → sl.flag f = 0) →
    s.Target x sl (x.record.codebase + e.entry) w → (∀ j ∈ x.joins, k ∉ j.expected ∧ k ∉ j.arrived) →
    ∃ t sl', exec (.roleW a) s = .next t ∧ (∀ m, t.mem.byte m = s.mem.byte m) ∧ (∀ u, u ≠ p.team → t.team? u = s.team? u)
      ∧ t.slice? p.team k = some sl'
      ∧ sl' = { sl.charged with role := (sl.readS a).toNat, wb := 8 * e.wbblk, cls := e.cls, roleCls := e.cls, hdr := e.entry, ix := 0,
                                opened := false, code := [] })

/-! ## Supervisor words -/

/-- R331, R336, R344: `fret` returns to the clause and word of SEPC in user mode: the banks are exchanged, EXEC comes from SEPC, the
records it names are gone and their lanes run again, and an access it replays is issued anew; a record of poison is not
replayed (the model's reading, log 17). -/
def Obligations.SupervisorReturnResults : Prop :=
  ∀ (s : State) (p : At) (x : Team) (k : Nat) (sl : Slice) (a b : Opd) (w : Word), s.Alone (.fret a b) p x k sl →
    let hdr := (sl.sepc.extractLsb' 8 24).toNat * 4
    let ix := (sl.sepc.extractLsb' 5 3).toNat
    s.HeldWord x false (x.record.codebase + hdr) w → isHeader w = true → ix ≤ hdrLen w →
    ((∀ r ∈ sl.recs, r.lane < 4 ∧ (sl.readS a).getLsbD r.lane = false) →
      ∃ t sl', exec (.fret a b) s = .next t ∧ CrewFrame (s.withCode t) t p ∧ t.slice? p.team k = some sl'
        ∧ sl'.mode = .user ∧ sl'.hdr = hdr ∧ sl'.ix = ix ∧ sl'.opened = decide (ix ≠ 0) ∧ sl'.code = [] ∧ sl'.exec = sl.sepc.setWidth 4
        ∧ (∀ i, i < 8 → sl'.sget (16 + i) = nget sl.bank (16 + i) ∧ nget sl'.bank (16 + i) = sl.sget (16 + i))
        ∧ (∀ n, n < 16 → sl'.sget n = sl.sget n) ∧ sl'.scc = sl.bankScc ∧ sl'.bankScc = sl.scc
        ∧ sl'.recs = sl.recs.filter (fun r => !(sl.readS b).getLsbD r.lane)
        ∧ (∀ l, l < 4 → sl'.park.getLsbD l = if sl.recs.any (fun r => r.lane == l) then sl'.recs.any (fun r => r.lane == l)
            else sl.park.getLsbD l)
        ∧ sl' = { sl.charged with mode := sl'.mode, hdr := sl'.hdr, ix := sl'.ix, opened := sl'.opened, code := sl'.code, exec := sl'.exec,
                                  sregs := sl'.sregs, bank := sl'.bank, scc := sl'.scc, bankScc := sl'.bankScc, recs := sl'.recs,
                                  park := sl'.park, conv := sl'.conv, hw := sl'.hw, longs := sl'.longs })
    ∧ (∀ r, sl.recs = [r] → r.lane < 4 → (sl.readS a).getLsbD r.lane = true → r.cause ≠ 0x18 → r.acc.kind ≠ .barWord →
      (∀ f, r.acc.flag = some f → sl.flag f ≠ 63) →
      ∃ t sl', exec (.fret a b) s = .next t ∧ t.slice? p.team k = some sl' ∧ sl'.mode = .user
        ∧ sl.Attached sl' r.acc.flag
        ∧ ∃ op ∈ t.pend, op.team = p.team ∧ op.slice = k ∧ op.accs.map Prod.fst = [{ r.acc with lanes := [r.lane] }])

/-- R336, R342, R346, R444: `pstat` reads a supervisor index; `pstat.w` also writes SEPC, with bit 4 zero; `halt` holds the team;
`ecnt` reads the team's energy as it was before the word's own charge. -/
def Obligations.SupervisorStateResults : Prop :=
  (∀ (s : State) (p : At) (x : Team) (k : Nat) (sl : Slice) (d a : Opd) (i : BitVec 7), s.Alone (.pstat d a i) p x k sl →
    ∃ t sl' w, exec (.pstat d a i) s = .next t ∧ WordFrame s t (.pstat d a i) p ∧ t.slice? p.team k = some sl'
      ∧ sl.ScalarResult sl' d w sl.scc sl.fps
      ∧ let n := (i.toNat + (sl.readS a).toNat) % 128
        let q := s.part x.part
        (n = 0 → w = sl.scause) ∧ (n = 1 → w = sl.sepc) ∧ (n = 2 → w = sl.sfpc)
        ∧ (n = 3 → w = BitVec.ofNat 32 (x.asid * 2 ^ 16 + x.part))
        ∧ (n = 4 → w = q.scode.extractLsb' 0 32) ∧ (n = 5 → w = q.scode.extractLsb' 32 32)
        ∧ (∀ l r, l < 4 → sl.recs.find? (fun r => r.lane == l) = some r →
            (n = 16 + 4 * l → w = BitVec.ofNat 32 r.va) ∧ (n = 17 + 4 * l → w = BitVec.ofNat 32 (r.va / 2 ^ 32))
            ∧ (n = 18 + 4 * l → r.acc.size < 2 ^ 16 → w.extractLsb' 24 8 = BitVec.ofNat 8 r.cause ∧ w.getLsbD 0 = true))
        ∧ (∀ l, l < 4 → sl.recs.find? (fun r => r.lane == l) = none → 16 + 4 * l ≤ n → n ≤ 19 + 4 * l → w = 0)
        ∧ ((7 ≤ n ∧ n < 16) ∨ 32 ≤ n → w = 0))
  ∧ (∀ (s : State) (p : At) (x : Team) (k : Nat) (sl : Slice) (d a : Opd) (i : BitVec 7), s.Alone (.pstatW d a i) p x k sl →
    ∃ t sl', exec (.pstatW d a i) s = .next t ∧ WordFrame s t (.pstatW d a i) p ∧ t.slice? p.team k = some sl' ∧ sl.WentOn sl'
      ∧ (∀ j, j < 32 → sl'.sepc.getLsbD j = if i = 1 then j != 4 && (sl.readS a).getLsbD j else sl.sepc.getLsbD j)
      ∧ (∀ n, d = .s n → (i = 0 → sl'.sget n.val = sl.scause) ∧ (i = 1 → sl'.sget n.val = sl.sepc) ∧ (i = 2 → sl'.sget n.val = sl.sfpc))
      ∧ (∀ n, (∀ r, d = .s r → r.val ≠ n) → sl'.sget n = sl.sget n)
      ∧ sl' = { sl.charged with sepc := sl'.sepc, sregs := sl'.sregs, smarred := sl'.smarred, hdr := sl'.hdr, ix := sl'.ix,
                                opened := sl'.opened, code := sl'.code })
  ∧ (∀ (s : State) (p : At) (x : Team) (k : Nat) (sl : Slice) (a : Opd), s.Alone (.halt a) p x k sl →
    ∃ t y sl', exec (.halt a) s = .next t ∧ t.team? p.team = some y ∧ y.slice? k = some sl' ∧ sl.WentOn sl'
      ∧ sl' = { sl.charged with hdr := sl'.hdr, ix := sl'.ix, opened := sl'.opened, code := sl'.code }
      ∧ (x.halt = none → y.halt = some (.hold 0x22 [k]))
      ∧ (∀ c l, x.halt = some (.hold c l) → y.halt = some (.hold c (l ++ [k])))
      ∧ (x.halt = some .preempt ∨ (∃ hot, x.halt = some (.migrate hot)) ∨ x.halt = some .quiet → y.halt = x.halt ∧ ∃ c l, y.owed = some (c, l) ∧ k ∈ l)
      ∧ OthersKept s t p.team)
  ∧ (∀ (s : State) (p : At) (x : Team) (n : Fin 24), s.Executes (.ecnt (.s n)) p → s.team? p.team = some x →
    ∃ t, exec (.ecnt (.s n)) s = .next t ∧ WordFrame s t (.ecnt (.s n)) p ∧ EachSlice s t p (fun _ sl sl' =>
      (sl'.sget n.val).toNat + 2 ^ 32 * (sl'.sget (n.val + 1)).toNat = x.energy.toNat + (if x.esat then 2 ^ 48 else 0)
      ∧ (∀ m, m ≠ n.val → m ≠ n.val + 1 → sl'.sget m = sl.sget m) ∧ sl.WentOn sl'
      ∧ sl' = { sl.charged with sregs := sl'.sregs, smarred := sl'.smarred, hdr := sl'.hdr, ix := sl'.ix, opened := sl'.opened,
                                code := sl'.code }))

/-- R240, R343, R357, R363 to R365: `pmap` takes a frame and writes the leaf that maps it where the tables end at a free entry of its level,
with status 0, and gives status 1 to 4 with only its slice changed where R343 says so; `tlbi` of a bad range gives 3; of a good one
it removes the translations of its ASID that meet the range and keeps the others, or waits, accepted, while a command holds one;
`asidr` moves the epoch of an ASID of the partition that no team runs in. That the frame is the lowest that fits (log 11), that an entry which no walk goes
through is a conflict (log 42), and that `tlbi` is accepted when it is first issued, its removals being one event (logs 44 and 64),
is the model's choice. -/
def Obligations.MappingResults : Prop :=
  (∀ (s : State) (p : At) (x : Team) (k : Nat) (sl : Slice) (d a b : Opd), s.Alone (.pmap d a b) p x k sl →
    let va := sl.pairOf 0 a 0
    let v := (sl.readS b).toNat
    let leaf := 4 - bits v 11 10
    let size := 2 ^ pageLog (bits v 11 10)
    let found := s.spot va leaf levels (s.ctxEntry x.part x.asid).root
    let pool := (s.part x.part).pool
    let ok := pmapBad va v = false ∧ (s.ctxEntry x.part x.asid).valid = true
    (∀ entry frame rest, ok → x.part < s.parts.length → found = .free entry 0 →
      takeFrames pool (dieOf x.core) size size = some (frame, rest) → entry % 128 + 8 ≤ 128 → s.revoked entry = false →
      frame % size = 0 → frame < 2 ^ 51 →
      ∃ t sl', exec (.pmap d a b) s = .next t ∧ t.slice? p.team k = some sl' ∧ sl.ScalarResult sl' d 0 sl.scc sl.fps
        ∧ (t.part x.part).pool = rest
        ∧ (let e := t.mem.nat entry 8
           bits e 51 8 * 2 ^ 8 = frame ∧ bits e 1 0 = 1 ∧ bit e 2 = bit v 5 ∧ bit e 3 = bit v 4 ∧ bit e 4 = bit v 3 ∧ bit e 5 = bit v 2
            ∧ bits e 7 6 = bits v 7 6 ∧ bits e 53 52 = bits v 9 8 ∧ bits e 63 54 = 0)
        ∧ ∀ m, m < entry ∨ entry + 8 ≤ m → t.mem.byte m = s.mem.byte m)
    ∧ (∀ st : Word, (¬ ok ∧ st = 3) ∨ (ok ∧ found = .present ∧ st = 1) ∨ (ok ∧ found = .conflict ∧ st = 4)
        ∨ (ok ∧ (∃ entry n, found = .free entry n) ∧ takeFrames pool (dieOf x.core) size size = none ∧ st = 2) →
      ∃ t sl', exec (.pmap d a b) s = .next t ∧ WordFrame s t (.pmap d a b) p ∧ t.slice? p.team k = some sl'
        ∧ sl.ScalarResult sl' d st sl.scc sl.fps))
  ∧ (∀ (s : State) (p : At) (x : Team) (k : Nat) (sl : Slice) (d a b : Opd), s.Alone (.tlbi d a b) p x k sl →
    (∀ op ∈ s.pend, ∀ y ∈ op.accs, y.2.coming? = none) →
    let va := sl.pairOf 0 a 0
    let n := (sl.readS b).toNat
    let lo := if n = 0 then 0 else va
    let len := if n = 0 then 2 ^ 64 else 65536 * n
    let good := n = 0 ∨ (va % 65536 = 0 ∧ canonicalRange va (65536 * n) = true)
    let apart := fun (asid : Nat) (l : Leaf) => asid ≠ x.asid ∨ l.va + 2 ^ l.log ≤ lo ∨ lo + len ≤ l.va
    (¬ good → ∃ t sl', exec (.tlbi d a b) s = .next t ∧ WordFrame s t (.tlbi d a b) p ∧ t.slice? p.team k = some sl'
      ∧ sl.ScalarResult sl' d 3 sl.scc sl.fps)
    ∧ (good → s.heldBy (fun _ => true) x.asid lo len = false →
      ∃ t sl', exec (.tlbi d a b) s = .next t ∧ t.slice? p.team k = some sl' ∧ sl.ScalarResult sl' d 0 sl.scc sl.fps
        ∧ (∀ e, e ∈ t.tlb ↔ e ∈ s.tlb ∧ apart e.asid e.leaf) ∧ (∀ e, e ∈ t.atsc ↔ e ∈ s.atsc ∧ apart e.asid e.leaf)
        ∧ t.mem = s.mem)
    ∧ (∀ c, good → s.heldBy (fun _ => true) x.asid lo len = true → x.sub? k = some c → c.members = [k] →
      ∃ t y c', exec (.tlbi d a b) s = .next t ∧ t.team? p.team = some y ∧ y.slice? k = some sl ∧ y.sub? k = some c'
        ∧ c'.stalled = true ∧ c'.accepted = some (.pages [(lo, len)])))
  ∧ (∀ (s : State) (p : At) (x : Team) (k : Nat) (sl : Slice) (d a : Opd), s.Alone (.asidr d a) p x k sl →
    let n := (sl.readS a).toNat
    let lo := (s.part x.part).asid0.toNat
    let own := decide (n < 2 ^ 16 ∧ lo ≤ n ∧ n < lo + (s.part x.part).asidn.toNat)
    let busy := s.teams.any (fun z => z.asid == n)
    ∃ t sl', exec (.asidr d a) s = .next t ∧ Elsewhere s t p.team [k] ∧ t.slice? p.team k = some sl'
      ∧ sl.ScalarResult sl' d (if own then (if busy then 5 else 0) else 3) sl.scc sl.fps
      ∧ (own = true → busy = false → t.epoch n = s.epoch n + 1) ∧ (own = false ∨ busy = true → t.epoch n = s.epoch n)
      ∧ ∀ m, m ≠ n → t.epoch m = s.epoch m)

/-- R409: `sksave` writes the 576-byte image of a skip slot and `skload` binds a slot from one, the team then holding the engine; a slot
number above 7 or an address off 64 bytes gives status 3, an engine that another team holds status 6. -/
def Obligations.SkipImageResults : Prop :=
  (∀ (s : State) (p : At) (x : Team) (k : Nat) (sl : Slice) (d a b : Opd) (l : Leaf), s.Alone (.sksave d a b) p x k sl →
    s.Idle p.team k → (sl.readS b).toNat ≤ 7 → sl.pairOf 0 a 0 % 64 = 0 → canonicalRange (sl.pairOf 0 a 0) 576 = true →
    let g := (s.core x.core).engine
    (g.holder = none ∨ g.holder = some p.team) → g.queue = [] →
    (∀ q ∈ pieces 128 (sl.pairOf 0 a 0) 576, s.Reaches x .store true q.1 q.2 l) → l.va ≤ sl.pairOf 0 a 0 →
    ∃ t sl', exec (.sksave d a b) s = .next t ∧ t.slice? p.team k = some sl' ∧ sl.ScalarResult sl' d 0 sl.scc sl.fps
      ∧ (t.core x.core).engine = { g with holder := some p.team }
      ∧ t.mem.nat (l.addr (sl.pairOf 0 a 0)) 576 =
          (match g.skips.find? (fun y => y.1 == (sl.readS b).toNat) with
           | some y => (y.2.region + y.2.phase.toNat * 2 ^ 64 + 2 ^ 96 + y.2.bits.toNat * 2 ^ 512) % 2 ^ 4608
           | none => 0)
      ∧ ∀ m, m < l.addr (sl.pairOf 0 a 0) ∨ l.addr (sl.pairOf 0 a 0) + 576 ≤ m → t.mem.byte m = s.mem.byte m)
  ∧ (∀ (s : State) (p : At) (x : Team) (k : Nat) (sl : Slice) (d a b : Opd) (l : Leaf), s.Alone (.skload d a b) p x k sl →
    s.Idle p.team k → (sl.readS b).toNat ≤ 7 → sl.pairOf 0 a 0 % 64 = 0 → canonicalRange (sl.pairOf 0 a 0) 576 = true →
    let g := (s.core x.core).engine
    (g.holder = none ∨ g.holder = some p.team) → g.queue = [] →
    (∀ q ∈ pieces 128 (sl.pairOf 0 a 0) 576, s.Reaches x .load true q.1 q.2 l) → l.va ≤ sl.pairOf 0 a 0 →
    let v := s.mem.nat (l.addr (sl.pairOf 0 a 0)) 576
    bits v 95 88 = 0 → bits v 127 96 = 1 → bits v 511 128 = 0 → bits v 63 0 % 64 = 0 →
    ∃ t sl' z, exec (.skload d a b) s = .next t ∧ (∀ m, t.mem.byte m = s.mem.byte m) ∧ t.slice? p.team k = some sl'
      ∧ sl.ScalarResult sl' d 0 sl.scc sl.fps ∧ (t.core x.core).engine.holder = some p.team
      ∧ (t.core x.core).engine.skips.find? (fun y => y.1 == (sl.readS b).toNat) = some ((sl.readS b).toNat, z)
      ∧ z.region = bits v 63 0 ∧ z.phase.toNat = bits v 87 64 ∧ z.bits.toNat = v / 2 ^ 512)
  ∧ (∀ i ∈ [Instr.sksave, Instr.skload], ∀ (s : State) (p : At) (x : Team) (k : Nat) (sl : Slice) (d a b : Opd),
    s.Alone (i d a b) p x k sl →
    let bad := decide (7 < (sl.readS b).toNat ∨ sl.pairOf 0 a 0 % 64 ≠ 0)
    (bad = true ∨ ∃ u, (s.core x.core).engine.holder = some u ∧ u ≠ p.team) →
    ∃ t sl', exec (i d a b) s = .next t ∧ WordFrame s t (i d a b) p ∧ t.slice? p.team k = some sl'
      ∧ sl.ScalarResult sl' d (if bad then 3 else 6) sl.scc sl.fps)

/-! ## What a running core does by itself -/

/-- R18, R19, R50, R340, R361, R415: a free fetch entry goes to the first sub-crew that waits; rotation takes one back; ageing
lowers the class; a tick charges each team its share; a walk puts its leaf in the cluster's TLB, or parks the lanes it has
none for; a fault vector enters the handler for the lowest lane that holds a record. That of several records the lowest lane's is
reported is the model's reading (log 18). -/
def Obligations.CoreEventResults : Prop :=
  (∀ (s : State) (c u k : Nat) (rest : List (Nat × Nat)) (x : Team) (b : SubCrew), (s.core c).waiting = (u, k) :: rest →
    s.entriesHeld c < 48 → s.team? u = some x → x.sub? k = some b →
    ∃ t y, exec (.fetchEntryGrant c) s = .next t ∧ (t.core c).waiting = rest ∧ t.team? u = some y
      ∧ y.sub? k = some { b with entry := true } ∧ y.slices = x.slices ∧ Elsewhere s t u [])
  ∧ (∀ (s : State) (u k : Nat) (x : Team) (b : SubCrew) (sl : Slice), s.team? u = some x → x.sub? k = some b → x.slice? k = some sl →
    b.entry = true → (sl.opened = false ∨ b.accepted = some .lines) → x.st = .running → (s.core x.core).waiting ≠ [] →
    (∀ w ∈ (s.core x.core).waiting, w.1 = u → w.2 ∉ b.members) →
    ∃ t y b' m, exec (.fetchEntryRotation u k) s = .next t ∧ t.team? u = some y ∧ y.sub? k = some b' ∧ b'.entry = false
      ∧ b'.members = b.members ∧ m ∈ b.members ∧ (t.core x.core).waiting = (s.core x.core).waiting ++ [(u, m)]
      ∧ y.slices = x.slices ∧ Elsewhere s t u [])
  ∧ (∀ (s : State) (u k : Nat) (sl : Slice), s.slice? u k = some sl → sl.ended = false →
    ∃ t, exec (.priorityAgeing u k) s = .next t ∧ Elsewhere s t u [k] ∧ t.slice? u k = some { sl with cls := sl.cls - 1 })
  ∧ (∀ s : State, ∃ t, exec .staticEnergyTick s = .next t ∧ t = { s with teams := t.teams }
      ∧ ∀ (u : Nat) (x : Team), s.team? u = some x → ∃ y, t.team? u = some y ∧ y.resid = x.resid + 1
        ∧ y = { x with energy := y.energy, esat := y.esat, resid := y.resid }
        ∧ y.energy.toNat = min (2 ^ 48 - 1) (x.energy.toNat + (Config.stat x.core).toNat * x.record.slices
            / ((s.teams.filter (fun z => z.core == x.core)).map (fun z => z.record.slices)).sum))
  ∧ (∀ (s : State) (c asid page va : Nat) (op : PendOp) (a : Acc) (x : Team) (sl : Slice), s.pend = [op] → op.accs = [(a, .walk)] →
    s.team? op.team = some x → x.slice? op.slice = some sl → x.asid = asid → clusterOf x.core = c → s.missAt x a = some va →
    va / 65536 = page → sl.thread = none → sl.mode = .user →
    let leaf := (s.walk (s.partOfAsid asid) c asid (65536 * page)).1
    ∃ t sl', exec (.pageWalkComplete c asid page) s = .next t ∧ t.slice? op.team op.slice = some sl'
      ∧ (∀ l, leaf = some l → l.ats = false → ∃ e ∈ t.tlb, e.place = c ∧ e.asid = asid ∧ e.epoch = s.epoch asid ∧ e.leaf = l)
      ∧ (leaf = none → ∀ n ∈ a.lanes, n < 4 → sl.rec? n = none → sl'.park.getLsbD n = true
          ∧ ∃ r ∈ sl'.recs, r.lane = n ∧ r.cause = 0x13 ∧ r.acc = { a with lanes := [n] }))
  ∧ (∀ (s : State) (u k : Nat) (x : Team) (sl : Slice) (r : FaultRec), s.vectorDue u k = true → s.team? u = some x →
    x.slice? k = some sl → sl.vectorRec = some r →
    ∃ t sl', exec (.faultVector u k) s = .next t ∧ Elsewhere s t u [k] ∧ t.slice? u k = some sl'
      ∧ sl.Vectored sl' r.cause 0 sl.hdr sl.ix r.acc.hdr r.acc.ix (r.acc.flag.getD 0x1F))

/-! ## Teams on and off cores -/

/-- R30, R31, R38, R87, R241, R385, R388, R389, R391, R394, R398: a team starts with the state of R87 on a core that takes it; a
removed core is marked; a migration asks every team it moves to halt; a halt or hold takes the team's fetch entries and drains
it; a drained team leaves its core for a record, or goes on after a quiet point; a record is restored on its core. -/
def Obligations.TeamLifeResults : Prop :=
  (∀ (s : State) (l c no off : Nat) (L : Launch) (q : Part), s.launch? l = some L → s.mayStart L = true →
    L.numberFor (((s.resumeOf l).map (fun p => p.has c)).getD false) c = some no →
    s.findScratch c (128 * L.record.scratch) = some off →
    s.takes L c (L.record.slices * L.record.regblk + 2 * L.record.catchSlots) = true →
    (s.part L.part).reserveAll (L.record.rooms s.fresh) = some q → L.waiters = [] →
    (L.record.coresid = false ∨ (L.toStart = [no] ∧ s.master.isSome = true)) →
    ∃ t y L', exec (.teamStart l c) s = .next t ∧ y ∈ t.teams ∧ y.launch = L.uid ∧ y.core = c ∧ y.no = no ∧ y.st = .running ∧ y.halt = none
      ∧ y.record = L.record ∧ (y.lo, y.hi) = (if no = 0 then L.seed.getD (0, 0) else (0, 0)) ∧ y.slices.length = L.record.slices
      ∧ (∀ (j : Nat) (sl : Slice), y.slices[j]? = some sl → sl.idx = j ∧ sl.Started L.record no L.nteams j sl.role
          ∧ (L.roles = [] → sl.role = 0 ∧ sl.wb = 0 ∧ sl.cls = 2)
          ∧ (∀ (m : Nat) (e : RoleEnt), L.roles[m]? = some e → e.first ≤ j → j < e.first + e.count →
              (∀ (m' : Nat) (e' : RoleEnt), L.roles[m']? = some e' → e'.first ≤ j → j < e'.first + e'.count → m' = m) →
              sl.role = m ∧ sl.wb = 8 * e.wbblk ∧ sl.cls = e.cls))
      ∧ (∀ a, a < 128 * L.record.scratch → t.mem.byte (y.scratch + a) = 0)
      ∧ t.launch? l = some L' ∧ no ∉ L'.toStart ∧ c ∈ L'.started ∧ L'.st = .running)
  ∧ (∀ (s : State) (l u : Nat) (L : Launch) (x : Team), s.launch? l = some L → s.team? u = some x → L.record.elastic = true → x.launch = l →
    L.waiters = [] →
    ∃ t L', exec (.coreRelease l u) s = .next t ∧ t = { s with launches := t.launches } ∧ t.launch? l = some L'
      ∧ L' = { L with releasing := L'.releasing } ∧ ∀ v, v ∈ L'.releasing ↔ v = u ∨ v ∈ L.releasing)
  ∧ (∀ (s : State) (u : Nat) (x : Team), s.team? u = some x → (s.teams.map (fun z => z.uid)).Nodup → s.mgmt.st ≠ 4 →
    (∀ z ∈ s.teams, z.core = x.core → s.mayMove z = true → s.ctxBytes x ≤ s.ctxBytes z) →
    (∀ z ∈ s.teams, (z.uid = u ∨ (x.record.coresid = true ∧ z.launch = x.launch)) → 200 ≤ z.resid ∧ z.st = .running ∧ z.halt = none) →
    ∃ t, exec (.thermalMigration u) s = .next t ∧ t = { s with teams := t.teams } ∧ ∀ v y, s.team? v = some y →
      t.team? v = some (if v = u ∨ (x.record.coresid = true ∧ y.launch = x.launch) then { y with halt := some (.migrate x.core) } else y))
  ∧ (∀ (s : State) (u n : Nat) (x : Team) (i : Instr), s.team? u = some x → x.st = .running →
    ((i = .teamHold u ∧ ∃ c l, x.halt = some (.hold c l))
      ∨ (i = .preemptionHalt u n ∧ (x.halt = some .preempt ∨ (∃ hot, x.halt = some (.migrate hot)) ∨ x.halt = some .quiet))) →
    ∃ t y, exec i s = .next t ∧ t.team? u = some y ∧ y.st = .draining
      ∧ (∀ b ∈ y.subs, (∃ m ∈ b.members, m < 64) → b.entry = false)
      ∧ (∀ w ∈ (t.core x.core).waiting, w.1 = u → 64 ≤ w.2)
      ∧ (x.cmds = [] → (s.core x.core).engine.holder ≠ some u → y.slices = x.slices ∧ y.haltAt = (s.core x.core).clock))
  ∧ (∀ (s : State) (u : Nat) (x : Team), s.team? u = some x → s.stopDue x = true → (∀ op ∈ s.pend, op.team ≠ u) →
    (∀ L ∈ s.launches, u ∉ L.waiters) → (∀ y m, s.mHead x.core = some (y, m) → m.started = false) →
    (x.halt ≠ some .quiet → (x.holds = true → s.isCancelled x.launch = false) →
      ∃ t c, exec (.contextStop u) s = .next t ∧ t.team? u = none ∧ (t.core x.core).engine.holder ≠ some u ∧ c ∈ t.saved
        ∧ c.snap = false ∧ c.st = (if x.holds then .held else .complete) ∧ c.part = x.part ∧ c.asid = x.asid ∧ c.ltime = x.haltAt
        ∧ c.team.uid = u ∧ c.team.no = x.no ∧ c.team.slices = x.slices ∧ c.team.bars = x.bars ∧ c.team.energy = x.energy
        ∧ (x.holds = false → ∀ a, a < 128 * x.record.scratch → c.scratch.byte a = s.mem.byte (x.scratch + a)))
    ∧ (∀ j st, x.halt = some .quiet → s.jobOf x = some j → j.stream = some st → x.core ∈ st.arming →
      ∃ t y c, exec (.contextStop u) s = .next t ∧ t.team? u = some y ∧ y.st = .running ∧ c ∈ t.saved ∧ c.snap = true
        ∧ c.ltime = x.haltAt ∧ c.team.uid = u ∧ c.team.slices = x.slices))
  ∧ (∀ (s : State) (n core asid off : Nat) (c : Ctx) (L : Launch) (q : Part), s.saved.find? (fun y => y.id == n) = some c →
    s.restoreDue c core = true → s.restoreTo c core = some asid → s.launch? c.team.launch = some L → s.team? c.team.uid = none →
    c.team.record.coresid = false → c.engine = none → c.team.claims = [] → s.takes L core c.team.blocks = true →
    s.findScratch core (128 * c.team.record.scratch) = some off →
    ((s.unreserve c.part c.team.uid).part c.part).reserveAll (s.roomsOf c) = some q →
    c.pend = [] → (∀ op ∈ s.pend, op.team ≠ c.team.uid) → (∀ sl ∈ c.team.slices, ∀ w, sl.block ≠ .passed w) →
    ∃ t y, exec (.contextRestore n core) s = .next t ∧ t.team? c.team.uid = some y ∧ y.core = core ∧ y.asid = asid ∧ y.st = .running
      ∧ y.no = c.team.no ∧ y.lo = c.team.lo ∧ y.hi = c.team.hi ∧ y.energy = c.team.energy ∧ y.bars = c.team.bars
      ∧ SlicesKept c.team.slices y.slices ∧ c.ltime < (t.core core).clock
      ∧ ∃ c' ∈ t.saved, c'.id = n ∧ c'.st = .restored)

/-! ## Packets -/

/-- R379 to R383, R448: a packet that fails a check completes with STATUS 1 and the check's number, and leaves the teams, the records
and the packets that wait as they are; a NOP completes; a LAUNCH enters with the launches its ranges meet as dependences; a CANCEL cancels its unit and completes; a SIGNAL
stores VALUE and completes; a PREEMPT asks the teams of its unit to halt and awaits their records, or completes; a RESUME awaits
the records of its unit, or the launches of its commit record, or completes. A team whose hold is due is pre-empted first, the
hold staying due. That HEAD and TAIL run freely, a position being the remainder by the ring's size (log 28), and that a PREEMPT of a
unit with open launches and no resident team completes with STATUS 4 (log 26), is the model's reading. -/
def Obligations.PacketResults : Prop :=
  (∀ (s s' : State) (part queue x c a : Nat), s.nextPacket part queue = some x →
    s.nextQueue = some (part, queue) → s.checkPacket part x = (s', .bad c a) → s.EntryFree part queue →
    let i := if pktType x = 1 then Instr.launch part queue else if pktType x = 2 then .cancelPacket part queue
      else if pktType x = 3 then .signal part queue else if pktType x = 4 then .preempt part queue
      else if pktType x = 5 then .resume part queue else .nopPacket part queue
    ∃ t, exec i s = .next t ∧ s.Passed t part queue ∧ s.Completed t part queue 1 c ∧ s.OnlyEntry t part queue ∧ TeamsKept s t
      ∧ t.launches = s.Renamed part queue x ∧ t.saved = s.saved ∧ t.packets = s.packets)
  ∧ (∀ (s s' : State) (part queue x : Nat) (r : Read), s.Reads part queue x r s' → s.EntryFree part queue →
    let v := pktValue x
    let q := (s.part part).queue queue
    let unit := s.unitOf part x
    (pktType x = 0 → ∃ t, exec (.nopPacket part queue) s = .next t ∧ s.Passed t part queue ∧ s.Completed t part queue 0 0
      ∧ s.OnlyEntry t part queue ∧ TeamsKept s t ∧ t.launches = s.launches ∧ t.saved = s.saved ∧ t.packets = s.packets)
    ∧ (pktType x = 1 → (∀ y ∈ s.launches, y.st ≠ .cancelled) → s.inCancelled part (pktAsid x) r.record = false →
      ∃ t L, exec (.launch part queue) s = .next t ∧ s.Passed t part queue ∧ t.launches = s.Renamed part queue x ++ [L] ∧ t.teams = s.teams
        ∧ (∀ m, t.mem.byte m = s.mem.byte m) ∧ L.st = .waiting ∧ L.counted = false ∧ L.record = r.record ∧ L.roles = r.roles
        ∧ L.part = part ∧ L.asid = pktAsid x ∧ L.queue = queue ∧ L.index = q.head.toNat % q.size ∧ L.first = pktFirst x
        ∧ L.count = pktCount x ∧ L.nteams = pktCount x ∧ L.any = bit x 10 ∧ L.mtx = bit x 9 ∧ L.toStart = List.range (pktCount x)
        ∧ L.named = true ∧ L.home = (if bit x 10 then none else some (clusterOf (pktFirst x)))
        ∧ L.seed = (if r.record.lo < r.record.hi then some (r.record.lo, r.record.hi) else none)
        ∧ (∀ d, d ∈ L.deps ↔ ∃ y ∈ s.launches, y.uid = d ∧ y.part = part ∧ y.asid = pktAsid x ∧ y.restored = false ∧ y.counted = false
            ∧ (RangesShare r.reads y.writes ∨ RangesShare r.writes y.reads ∨ RangesShare r.writes y.writes))
        ∧ ∃ k ∈ t.packets, k.part = part ∧ k.queue = queue ∧ k.index = q.head.toNat % q.size ∧ k.await = .launch L.uid)
    ∧ (pktType x = 2 → ∃ t, exec (.cancelPacket part queue) s = .next t ∧ s.Passed t part queue ∧ s.Completed t part queue 0 0
      ∧ (pktLevel x = 1 → ∀ L ∈ unit, s.launch? L.uid = some L → L.counted = false → t.isCancelled L.uid = true)
      ∧ (2 ≤ pktLevel x → (∃ L ∈ unit, s.passCounted L = false) →
          ({ part := part, asid := pktAsid x, job := pktJob x, level := pktLevel x, id := if pktLevel x = 4 then 0 else v } : Cancel)
            ∉ s.cancels →
          ∀ L ∈ unit, s.launch? L.uid = some L → L.counted = false → t.isCancelled L.uid = true))
    ∧ (∀ pa l, pktType x = 3 → r.target = some (pa, l) → l.share ≠ .dev → beyond pa = false → inRange .fabric pa = false →
      pa % 128 + 8 ≤ 128 → s.revoked pa = false → (pa + 8 ≤ s.entryAddr part queue ∨ s.entryAddr part queue + 16 ≤ pa) →
      ∃ t, exec (.signal part queue) s = .next t ∧ s.Passed t part queue ∧ s.Completed t part queue 0 0 ∧ t.mem.nat pa 8 = v
        ∧ (∀ m, (m < pa ∨ pa + 8 ≤ m) → (m < s.entryAddr part queue ∨ s.entryAddr part queue + 16 ≤ m) → t.mem.byte m = s.mem.byte m)
        ∧ TeamsKept s t ∧ t.launches = s.launches)
    ∧ (pktType x = 4 → (s.teams.map (fun z => z.uid)).Nodup →
      let hit := fun (z : Team) => ∃ L ∈ unit, L.counted = false ∧ L.uid = z.launch
      ∃ t, exec (.preempt part queue) s = .next t ∧ s.Passed t part queue ∧ t.launches = s.launches ∧ t.saved = s.saved
        ∧ ((∀ z ∈ s.teams, ¬ hit z) → s.OnlyEntry t part queue ∧ TeamsKept s t ∧ t.packets = s.packets
            ∧ s.Completed t part queue (if unit.all (fun L => L.counted) then 0 else 4) 0)
        ∧ ((∃ z ∈ s.teams, hit z) → ∀ u z, s.team? u = some z →
            (hit z ∧ z.holds = false → t.team? u = some { z with halt := some .preempt })
            ∧ (∀ c l, hit z → z.halt = some (.hold c l) →
                t.team? u = some (if z.st = .draining then z else { z with halt := some .preempt, owed := some (c, l) }))
            ∧ (¬ hit z → t.team? u = some z))
        ∧ ((∃ z ∈ s.teams, hit z) → ∃ k us, t.packets = s.packets ++ [k] ∧ k.part = part ∧ k.queue = queue
            ∧ k.index = q.head.toNat % q.size ∧ k.await = .saves us 0 ∧ ∀ u, u ∈ us ↔ ∃ z ∈ s.teams, z.uid = u ∧ hit z))
    ∧ (pktType x = 5 → pktAddr x = 0 → (s.launches.map (fun y => y.uid)).Nodup → (∀ L ∈ unit, L.record.elastic = false) →
      let hit := fun (c : Ctx) => c.kept = true ∧ ∃ L ∈ unit, L.uid = c.team.launch
      ∃ t, exec (.resume part queue) s = .next t ∧ s.Passed t part queue ∧ t.saved = s.saved ∧ TeamsKept s t
        ∧ ((∀ c ∈ s.saved, ¬ hit c) → s.Completed t part queue 0 0 ∧ t.packets = s.packets)
        ∧ ((∃ c ∈ s.saved, hit c) → ∃ k rs, t.packets = s.packets ++ [k] ∧ k.part = part ∧ k.queue = queue
            ∧ k.index = q.head.toNat % q.size ∧ k.asid = pktAsid x ∧ k.await = .restores rs
            ∧ ∀ n, n ∈ rs ↔ ∃ c ∈ s.saved, c.id = n ∧ hit c))
    ∧ (∀ chain c s1, pktType x = 5 → pktAddr x ≠ 0 → (s'.pass part queue x).chainOf (pktAddr x) = some chain →
      chain.getLast? = some c → (s'.pass part queue x).rebuild part (pktAsid x) chain = some s1 →
      ∃ t, exec (.resume part queue) s = .next t ∧ s.Passed t part queue
        ∧ (c.launches = [] → t.packets = s.packets ∧ Sent.msix (part + 1) q.vec.toNat ∈ t.sent)
        ∧ ∀ y ∈ c.launches, ∃ L ∈ t.launches, L.uid = y.uid + s1.fresh ∧ L.part = part ∧ L.asid = pktAsid x ∧ L.record = y.record
          ∧ L.restored = true ∧ L.first = pktFirst x ∧ L.count = pktCount x ∧ L.any = bit x 10))

/-! ## The host's pages -/

/-- R421, R423, R425, R429, R439: a write of TAIL, of LOGLOST, of a log tail or of a queue's fields changes that field of that page
as R423 says, and a write of any other offset of the page nothing; the user doorbell marks an interrupt pending; during an update of
the firmware a doorbell goes into its FIFO. A write of GO starts a known call, gives NOCALL for another, and does nothing while a call
runs. A function-level reset leaves a partition with nothing resident, its queues and logs at reset and its frames wiped. That an
offset inside a field, such as 0x029 to 0x02B, is none that has an effect is the model's reading (log 29). -/
def Obligations.HostPageResults : Prop :=
  (∀ (s : State) (part queue : Nat) (v : Word) (u : Dword), s.queued = true →
    exec (.tail part queue v) s = .next { s with fifo := s.fifo ++ [.tail part queue v] }
    ∧ exec (.userDoorbell part u) s = .next { s with fifo := s.fifo ++ [.user part u] })
  ∧ (∀ (s : State) (part queue : Nat) (v : Word), s.queued = false → part < s.parts.length →
    queue < (s.part part).queues.length →
    ∃ t, exec (.tail part queue v) s = .next t ∧ PageOnly s t part
      ∧ t.part part = { s.part part with queues := (t.part part).queues }
      ∧ (t.part part).queue queue = { (s.part part).queue queue with tail := v }
      ∧ ∀ n, n ≠ queue → (t.part part).queue n = (s.part part).queue n)
  ∧ (∀ (s : State) (part : Nat) (v : Word), part < s.parts.length →
    ∃ t, exec (.loglost part v) s = .next t ∧ PageOnly s t part
      ∧ t.part part = { s.part part with loglost := if v = 0 then 0 else (s.part part).loglost })
  ∧ (∀ (s : State) (part o : Nat) (v : Dword), part < s.parts.length → (s.part part).queues.length = 16 →
    (o = 0x02C → exec (.partitionPageWrite part o v) s = exec (.loglost part (v.setWidth 32)) s)
    ∧ (o = 0x080 → exec (.partitionPageWrite part o v) s = exec (.userDoorbell part v) s)
    ∧ (∀ n, n < 16 → o = 0x114 + 0x40 * n → exec (.partitionPageWrite part o v) s = exec (.tail part n (v.setWidth 32)) s)
    ∧ (o ≠ 0x02C → o ≠ 0x080 → (∀ n, n < 16 → o ≠ 0x114 + 0x40 * n) →
      ∃ t, exec (.partitionPageWrite part o v) s = .next t ∧ PageOnly s t part
      ∧ (o = 0x028 → t.part part = { s.part part with logtail := v.setWidth 32 })
      ∧ (o = 0x07C → t.part part = { s.part part with elogtail := v.setWidth 32 })
      ∧ (∀ n, n < 16 →
          let q := (s.part part).queue n
          let q' := (t.part part).queue n
          (o = 0x100 + 0x40 * n → q' = { q with qbase := if q.en then q.qbase else v })
          ∧ (o = 0x108 + 0x40 * n → q' = { q with cbase := if q.en then q.cbase else v })
          ∧ (o = 0x110 + 0x40 * n → q' = { q with en := v.getLsbD 31, vec := v.extractLsb' 4 7,
                                                       log2n := if q.en = true ∨ 12 < v.toNat % 16 then q.log2n else v.setWidth 4 })
          ∧ (o < 0x100 + 0x40 * n ∨ 0x140 + 0x40 * n ≤ o → q' = q))
      ∧ ((o < 0x100 ∧ o ≠ 0x028 ∧ o ≠ 0x07C) ∨ 0x500 ≤ o
          ∨ (0x100 ≤ o ∧ o % 0x40 ≠ 0x00 ∧ o % 0x40 ≠ 0x08 ∧ o % 0x40 ≠ 0x10) → t = s)))
  ∧ (∀ (s : State) (part u : Nat) (v : Dword) (L : Launch) (z : Team) (k : Nat) (sl : Slice), s.queued = false →
    s.launchAt part (v.extractLsb' 60 4).toNat (v.extractLsb' 44 16).toNat = some L →
    s.teamNo L.uid (v.extractLsb' 12 32).toNat = some u → s.team? u = some z → z.slice? k = some sl → sl.ended = false →
    sl.thread = none → (v.getLsbD 6 = true ∨ k = v.toNat % 64) →
    ∃ t, exec (.userDoorbell part v) s = .next t ∧ t.slice? u k = some { sl with uiPend := true }
      ∧ (∀ m, t.mem.byte m = s.mem.byte m) ∧ ∀ w, w ≠ u → t.team? w = s.team? w)
  ∧ (∀ (s : State) (o : Nat) (v : Dword),
    (s.mgmt.go = true → exec (.go o v) s = .next s)
    ∧ (s.mgmt.go = false → o = 0x100 → (v.getLsbD 31 = false ∨ v.toNat % 256 ∈ callCodes) →
      exec (.go o v) s = .next { s with mgmt := { s.mgmt with code := v.setWidth 8, go := v.getLsbD 31 } })
    ∧ (s.mgmt.go = false → o = 0x100 → v.getLsbD 31 = true → v.toNat % 256 ∉ callCodes →
      ∃ t, exec (.go o v) s = .next t ∧ t.CallDone 5 ∧ t.mgmt.outs = s.mgmt.outs ∧ t = { s with mgmt := t.mgmt, sent := t.sent })
    ∧ (∀ n, n < 8 → s.mgmt.go = false → o = 0x108 + 8 * n →
      exec (.go o v) s = .next { s with mgmt := { s.mgmt with args := s.mgmt.args.set n v } }))
  ∧ (∀ (s : State) (part : Nat), part < 16 → part < s.parts.length →
    ∃ t, exec (.flr part) s = .next t ∧ (∀ z ∈ t.teams, z.part ≠ part) ∧ (∀ L ∈ t.launches, L.part ≠ part)
      ∧ (∀ c ∈ t.saved, c.part ≠ part) ∧ (∀ k ∈ t.packets, k.part ≠ part)
      ∧ (∀ f ∈ (s.part part).frames, ∀ a, f.1 ≤ a → a < f.1 + 65536 * f.2 → t.mem.byte a = 0)
      ∧ (∀ c, c < 512 → s.owns part c = true → ∀ a, a < 2 ^ 19 → t.mem.byte (spadOf c + a) = 0)
      ∧ (∀ m, m < 16 → (t.part part).queue m = { qbase := 0, cbase := 0, en := false, vec := 0, log2n := 0, tail := 0, head := 0 })
      ∧ (t.part part).loghead = 0 ∧ (t.part part).logtail = 0 ∧ (t.part part).loglost = 0
      ∧ (t.part part).assigned = (s.part part).assigned ∧ (t.part part).clusters = (s.part part).clusters
      ∧ (t.part part).ctxbase = (s.part part).ctxbase ∧ (t.part part).asid0 = (s.part part).asid0)

/-! ## Links and dies -/

/-- R152, R153, R376, R386, R387, R431, R433, R437, R442, R445: a peer request is performed and answered when its import entry
admits it, answered with poison when what it reads is poisoned, and refused and counted otherwise; an error completion parks the
lanes; an external agent's access reads memory, and the present bytes unless a write of the package there is still hidden from it,
or writes it; a port's credits follow its worst DevLoad; a back-invalidation drops the sector from the caches and goes out; a flit
that failed is retried; a pause changes nothing; the scrubber counts a corrected error and marks an uncorrectable one; a report of
a die that is not fenced is counted; a die's fence takes its teams, its translations and its mastership, and sets the homes on it
moving. That a read which meets poison is answered with poison, and
that an atomic on poison is not performed, is the model's reading (log 17). -/
def Obligations.LinkResults : Prop :=
  (∀ (s : State) (src n key off size : Nat) (kind : BitVec 2) (fn : BitVec 4) (data : List (BitVec 8)),
    let e := s.import n
    let pa := e.base + off
    let ok := n < 4096 ∧ e.valid = true ∧ (e.source = 0xFFFF ∨ e.source = src) ∧ e.key = key ∧ off + size ≤ e.limit
      ∧ (kind = 0 ∨ (kind = 1 ∧ e.write = true) ∨ (kind = 2 ∧ e.atom = true))
    (ok → kind = 0 → s.poisoned pa size = false →
      ∃ t, exec (.ridgeRequest src n key off size kind fn data) s = .next t ∧ t.mem = s.mem ∧ t.teams = s.teams
        ∧ t.sent = s.sent ++ [.ridgeReply src (s.mem.bytes pa size)])
    ∧ (ok → kind = 1 → data.length = size → pa % 128 + size ≤ 128 → s.revoked pa = false →
      ∃ t, exec (.ridgeRequest src n key off size kind fn data) s = .next t ∧ t.mem.bytes pa size = data ∧ TeamsKept s t
        ∧ (∀ m, m < pa ∨ pa + size ≤ m → t.mem.byte m = s.mem.byte m) ∧ .ridgeReply src [] ∈ t.sent)
    ∧ (ok → kind = 2 → (size = 4 ∨ size = 8) → pa % 128 + size ≤ 128 → s.poisoned pa size = false →
      ∃ t, exec (.ridgeRequest src n key off size kind fn data) s = .next t ∧ TeamsKept s t
        ∧ t.mem.nat pa size = atomNew fn.toNat size (s.mem.nat pa size) (natOfBytes data) % 2 ^ (8 * size)
        ∧ (∀ m, m < pa ∨ pa + size ≤ m → t.mem.byte m = s.mem.byte m)
        ∧ .ridgeReply src (s.mem.bytes pa size) ∈ t.sent)
    ∧ (ok → kind ≠ 1 → s.poisoned pa size = true →
      ∃ t, exec (.ridgeRequest src n key off size kind fn data) s = .next t ∧ t.mem = s.mem ∧ t.teams = s.teams
        ∧ t.sent = s.sent ++ [.ridgePoison src])
    ∧ (¬ ok → ∃ t, exec (.ridgeRequest src n key off size kind fn data) s = .next t
        ∧ t = { s with parts := t.parts, sent := s.sent ++ [.ridgeError src] }
        ∧ (∀ p, p ≠ e.part → t.part p = s.part p)
        ∧ (e.part < s.parts.length → t.part e.part = { s.part e.part with peerErrors := (s.part e.part).peerErrors + 1 })))
  ∧ (∀ (s : State) (n l : Nat) (op : PendOp) (a : Acc) (ps : List Piece) (x : Team) (sl : Slice), s.pend = [op] → op.id = n →
    op.accs = [(a, .peer ps)] → l ∈ a.lanes → s.team? op.team = some x → x.slice? op.slice = some sl → sl.thread = none →
    sl.mode = .user →
    ∃ t sl', exec (.ridgeErrorCompletion n l) s = .next t ∧ t.slice? op.team op.slice = some sl'
      ∧ ∀ m ∈ a.lanes, m < 4 → sl.rec? m = none → sl'.park.getLsbD m = true
        ∧ ∃ r ∈ sl'.recs, r.lane = m ∧ r.cause = 0x14 ∧ r.va = a.ea)
  ∧ (∀ (s : State) (pa size : Nat) (data : List (BitVec 8)), reachable pa = true → rangeFits pa size = true →
    (s.poisoned pa size = false →
      ∃ t b, exec (.ingressAccess pa false size data) s = .next t ∧ t.mem = s.mem ∧ t.teams = s.teams
        ∧ t.sent = s.sent ++ [.ingressData pa b]
        ∧ ((∀ q ∈ pieces 128 pa size, ∀ h ∈ s.hidden, h.1 ≠ sectorOf q.1) → b = s.mem.bytes pa size))
    ∧ (s.poisoned pa size = true → ∃ t, exec (.ingressAccess pa false size data) s = .next t ∧ t.mem = s.mem ∧ t.teams = s.teams
        ∧ t.sent = s.sent ++ [.ingressPoison pa])
    ∧ (data.length = size → pa % 128 + size ≤ 128 → s.revoked pa = false →
      ∃ t, exec (.ingressAccess pa true size data) s = .next t ∧ t.mem.bytes pa size = data ∧ TeamsKept s t
        ∧ ∀ m, m < pa ∨ pa + size ≤ m → t.mem.byte m = s.mem.byte m))
  ∧ (∀ (s : State) (pa : Nat) (e : Extent), s.extentAt pa = some e →
    (e.shared = true → ∃ t, exec (.backInvalidation pa) s = .next t ∧ t = { s with rmap := t.rmap, hidden := t.hidden, sent := t.sent }
      ∧ (∀ r, r ∈ t.rmap ↔ r ∈ s.rmap ∧ r.sector ≠ pa / 128 * 128) ∧ (∀ h, h ∈ t.hidden ↔ h ∈ s.hidden ∧ h.1 ≠ pa / 128 * 128)
      ∧ t.sent = s.sent ++ [.backInvalidate (pa / 128 * 128)])
    ∧ (e.shared = false → exec (.backInvalidation pa) s = .next s))
  ∧ (∀ (s : State) (port : Nat), exec (.ridgeFlitRetry port) s = .next { s with sent := s.sent ++ [.flitRetry port] })
  ∧ (∀ (s : State) (port c : Nat) (d : BitVec 2), s.ports[port]? = some c →
    ∃ t, exec (.tierCreditUpdate port d) s = .next t ∧ t = { s with ports := t.ports } ∧ t.ports.length = s.ports.length
      ∧ (∀ n, n ≠ port → t.ports[n]? = s.ports[n]?)
      ∧ (d = 0 → t.ports[port]? = some (min 512 (c + c / 16))) ∧ (d = 1 → t.ports[port]? = some c)
      ∧ (d = 2 → t.ports[port]? = some (max 8 (c - c / 8))) ∧ (d = 3 → t.ports[port]? = some (max 8 (c / 2))))
  ∧ (∀ (s : State) (n : Nat), exec (.islandPause n) s = .next s)
  ∧ (∀ (s : State) (pa : Nat),
    (s.scrubs pa = false → ∀ u, exec (.patrolScrub pa u) s = .next s)
    ∧ (s.scrubs pa = true → exec (.patrolScrub pa false) s = .next { s with corrected := s.corrected + 1 })
    ∧ (s.scrubs pa = true → ∃ t, exec (.patrolScrub pa true) s = .next t ∧ t = { s with poison := t.poison }
      ∧ ∀ a, a ∈ t.poison ↔ a = (if inRange .spad pa then pa / 4 * 4 else pa / 128 * 128) ∨ a ∈ s.poison))
  ∧ (∀ (s : State) (d : Nat), d < 4 →
    ∃ t, exec (.dieFence d) s = .next t ∧ t.mgmt.fenced.getLsbD d = true ∧ (∀ z ∈ t.teams, dieOf z.core ≠ d)
      ∧ (∀ n, n < 4 → n ≠ d → t.mgmt.fenced.getLsbD n = s.mgmt.fenced.getLsbD n)
      ∧ (∀ e ∈ t.tlb, e.place ≠ 2 * d ∧ e.place ≠ 2 * d + 1 ∧ e.place ≠ 8 + d)
      ∧ t.master = (if s.master = some d then none else s.master)
      ∧ ∀ L ∈ s.launches, ∀ c, L.counted = false → L.home = some c → c / 2 = d → ∃ L' ∈ t.launches, L'.uid = L.uid ∧ L'.moving = true)
  ∧ (∀ (s : State) (d : Nat), d < 4 →
    (s.mgmt.fenced.getLsbD d = true → exec (.distributorReport d) s = .next s)
    ∧ (s.mgmt.fenced.getLsbD d = false → ∃ t, exec (.distributorReport d) s = .next t ∧ t = { s with reports := t.reports }
      ∧ nget t.reports d = nget s.reports d + 1 ∧ ∀ n, n ≠ d → nget t.reports n = nget s.reports n))

/-! ## Host translations -/

/-- R354, R367 to R370: a reply that grants what was asked and what waits for it, in a frame of the host link window, enters the die's
ATS cache with the host's permissions and those of the entry that was read, ends the request, and the accesses that waited for the page
go on; one that does not grant it sends a Page Request, or, on a repeat or outside the window, ends the request and fails the page; a
Page Response repeats the request, or fails the page as a timeout does, and the lanes that waited for it are parked; an invalidation
removes the entries it meets at once, with the L1 sectors of host memory held under them, and its completion is sent once the
operations and commands that went through them are over. That a page the host refused is kept as untranslated in each engine command
that waited for it is the model's reading (log 34). -/
def Obligations.HostTranslationResults : Prop :=
  (∀ (s : State) (d asid page hpa log : Nat) (g r w : Bool) (q : AtsReq), s.atsReq? d asid page false = some q →
    let n := max 12 log
    let l := q.entry
    let idle := ∀ op ∈ s.pend, ∀ y ∈ op.accs, y.2 ≠ .ats ∧ y.2 ≠ .walk
    let grants := g = true ∧ (if q.write then w = true else r = true)
    let inside := g = true → inHostWindow hpa n = true
    (grants → inside → (s.pend.map (fun o => o.id)).Nodup →
      (∀ op ∈ s.pend, ∀ y ∈ op.accs, s.waitsHost q op y.1 y.2 = true →
        y.1.need.granted r w = true ∧ (pieces 128 y.1.ea y.1.size).length = 1) →
      (∀ x ∈ s.wanted d asid, q.serves x = true → x.2.granted r w = true) →
      ∃ t, exec (.atsTranslationCompletion d asid page g hpa log r w) s = .next t ∧ (∀ x ∈ t.atsq, x ≠ q)
        ∧ (∃ e ∈ t.atsc, e.die = d ∧ e.asid = asid ∧ e.epoch = s.epoch asid ∧ e.hostR = r ∧ e.hostW = w
          ∧ e.leaf.covers (4096 * page) = true ∧ e.leaf.log = n ∧ e.leaf.pa = 0x080000000000 + hpa / 2 ^ n * 2 ^ n
          ∧ e.leaf.r = (l.r && r) ∧ e.leaf.w = (l.w && w) ∧ e.leaf.share = l.share ∧ e.leaf.home = l.home)
        ∧ ∀ op ∈ s.pend, ∀ y ∈ op.accs, s.waitsHost q op y.1 y.2 = true →
            ∀ o ∈ t.pend, o.id = op.id → ∀ z ∈ o.accs, z.1 = y.1 → z.2 ≠ .ats)
    ∧ (idle → ¬ grants → inside → q.again = false →
      ∃ t, exec (.atsTranslationCompletion d asid page g hpa log r w) s = .next t ∧ { q with pri := true } ∈ t.atsq
        ∧ ((∀ x ∈ s.atsq, x.die = d → x.pri = false) → .pageRequest d (s.pasidOf asid) page q.write ∈ t.sent))
    ∧ (idle → (¬ inside ∨ (¬ grants ∧ q.again = true)) →
      ∃ t, exec (.atsTranslationCompletion d asid page g hpa log r w) s = .next t ∧ (∀ x ∈ t.atsq, x ≠ q)
        ∧ ∀ u z, s.team? u = some z → z.asid = asid → dieOf z.core = d → ∃ z', t.team? u = some z'
          ∧ ∀ (i : Nat) (c : Cmd), z.cmds[i]? = some c → ∃ c', z'.cmds[i]? = some c' ∧ c' = { c with wants := c'.wants, bad := c'.bad }
            ∧ (∀ m, (page, m) ∈ c.wants → m.writes = q.write → (inside → g = true → m.granted r w = false) → (page, m) ∈ c'.bad)
            ∧ (∀ y ∈ c.bad, y ∈ c'.bad) ∧ ∀ y ∈ c'.bad, y ∈ c.bad ∨ (y ∈ c.wants ∧ y.1 = page ∧ y.2.writes = q.write)))
  ∧ (∀ (s : State) (d asid page : Nat) (q : AtsReq), s.atsReq? d asid page true = some q → q ∈ s.priOut d →
    ∃ t, exec (.pageResponse d asid page true) s = .next t ∧ { q with pri := false, again := true } ∈ t.atsq
      ∧ .atsRequest d (s.pasidOf asid) page q.write ∈ t.sent ∧ t = { s with atsq := t.atsq, sent := t.sent })
  ∧ (∀ (s : State) (d asid page : Nat) (q : AtsReq) (op : PendOp) (a : Acc) (x : Team) (sl : Slice) (i : Instr),
    s.atsReq? d asid page true = some q → q ∈ s.priOut d → s.pend = [op] → op.accs = [(a, .ats)] →
    s.waitsHost q op a .ats = true → s.team? op.team = some x → x.slice? op.slice = some sl → sl.thread = none →
    sl.mode = .user → (i = .pageResponse d asid page false ∨ i = .priTimeout d asid page) →
    ∃ t sl', exec i s = .next t ∧ (∀ y ∈ t.atsq, y ≠ q) ∧ t.slice? op.team op.slice = some sl'
      ∧ ∀ n ∈ a.lanes, n < 4 → sl.rec? n = none → sl'.park.getLsbD n = true ∧ ∃ r ∈ sl'.recs, r.lane = n ∧ r.cause = 0x13)
  ∧ (∀ (s : State) (pasid va len : Nat),
    ∃ t v, exec (.atsInvalidateRequest pasid va len) s = .next t ∧ t.invals = s.invals ++ [v] ∧ v.pasid = pasid
      ∧ v.ops = s.opsThrough pasid va len ∧ v.cmds = s.cmdsThrough pasid va len
      ∧ t = { s with invals := t.invals, atsc := t.atsc, rmap := t.rmap, ilines := t.ilines, fresh := t.fresh }
      ∧ (∀ e, e ∈ t.atsc ↔ e ∈ s.atsc ∧ ¬ (s.bound e.asid pasid = true ∧ e.leaf.va < va + len ∧ va < e.leaf.va + 2 ^ e.leaf.log))
      ∧ (∀ r ∈ t.rmap, r ∈ s.rmap ∧ (r.place < 8 → inRange .host r.sector = true → s.bound r.asid pasid = true →
          ∀ e ∈ s.atsc, e.asid = r.asid → e ∉ t.atsc → r.vtag + 128 ≤ e.leaf.va ∨ e.leaf.va + 2 ^ e.leaf.log ≤ r.vtag)))
  ∧ (∀ (s : State) (n : Nat) (v : Inval), s.invals.find? (fun i => i.id == n) = some v →
    let due := (∀ op ∈ s.pend, op.id ∉ v.ops) ∧ ∀ c ∈ s.liveCmds, c ∉ v.cmds
    (due → ∃ t, exec (.invalidateCompletion n) s = .next t ∧ t = { s with invals := t.invals, sent := t.sent }
      ∧ t.sent = s.sent ++ [.invalidateCompletion v.pasid] ∧ ∀ i ∈ t.invals, i.id ≠ n)
    ∧ (¬ due → exec (.invalidateCompletion n) s = .next s))

/-! ## Checkpoints -/

/-- R400 to R407: closing an interval opens the stream of the next number at the ceiling, with its header at the first free 4 KiB of
the region; ARM asks the job's running teams on a core for a quiet point, or ends the core's when it runs none; between intervals
the ceiling rises; the streamer writes items one behind another; the commit record stands behind a stream that has ended; the
save-cost record holds the bytes marked dirty, which with no record and no launch are 128 for each dirty sector that the job's address
space reaches and what its resident teams hold dirty, the size of the teams' contexts, and its last word. The places of the header's
fields, and that the commit record stands at the next multiple of 64, are the model's choice (log 14). -/
def Obligations.CheckpointResults : Prop :=
  (∀ (s : State) (p n : Nat) (j : Job), s.job? p n = some j → j.based = true → j.stream = none → s.mgmt.st = 2 →
    let base := (j.region + j.used + 4095) / 4096 * 4096
    base + 128 ≤ j.region + j.bytes → s.revoked base = false →
    ∃ t j' st, exec (.checkpointIntervalClose p n) s = .next t ∧ t.job? p n = some j' ∧ j'.stream = some st
      ∧ j'.nextK = j.nextK + 1 ∧ j'.closed = j.ceiling ∧ j'.ceiling = j.ceiling + 2 ^ 20 ∧ st.k = j.nextK ∧ st.tk = j.ceiling
      ∧ st.base = base ∧ st.prev = (if j.fullNext then 0 else j.lastCommit)
      ∧ (∀ c, c ∈ st.toArm ↔ ∃ z ∈ s.teams, z.core = c ∧ z.part = p ∧ z.record.job = n ∧ z.record.track = true)
      ∧ ((∀ L ∈ s.launches, L.waiters = []) → t.mem.nat base 8 = 0x4E524943 ∧ t.mem.nat (base + 8) 8 = j.nextK % 2 ^ 64
          ∧ t.mem.nat (base + 16) 8 = j.ceiling % 2 ^ 64 ∧ ∀ m, m < base ∨ base + 64 ≤ m → t.mem.byte m = s.mem.byte m))
  ∧ (∀ (s : State) (p n core : Nat) (j : Job) (st : Stream), s.job? p n = some j → j.stream = some st → core ∈ st.toArm →
    core ∉ st.arming → (s.teams.map (fun z => z.uid)).Nodup →
    let mine := fun (z : Team) => z.core = core ∧ z.part = p ∧ z.record.job = n ∧ z.record.track = true
    ((∃ z ∈ s.teams, mine z) → (∀ z ∈ s.teams, mine z → z.st = .running ∧ z.halt = none) →
      ∃ t, exec (.arm p n core) s = .next t ∧ t.mem = s.mem ∧ ∀ u z, s.team? u = some z →
        (mine z → t.team? u = some { z with halt := some .quiet }) ∧ (¬ mine z → t.team? u = some z))
    ∧ ((∀ z ∈ s.teams, ¬ mine z) → ∃ t j' st', exec (.arm p n core) s = .next t ∧ t.job? p n = some j' ∧ j'.stream = some st'
        ∧ core ∉ st'.toArm ∧ st.tk < (t.core core).clock))
  ∧ (∀ (s : State) (p n : Nat) (j : Job), s.job? p n = some j → j.based = true → (∀ st, j.stream = some st → st.toArm = []) →
    ∃ t j', exec (.ceilingRaise p n) s = .next t ∧ t.job? p n = some j' ∧ j'.ceiling = j.ceiling + 2 ^ 20 ∧ j'.nextK = j.nextK)
  ∧ (∀ (s : State) (p n : Nat) (j : Job) (st : Stream) (c : Commit) (i : Item), s.nextItem p n = some (j, st, c, i) →
    let b := s.itemBytes st c i
    let a := st.base + st.bytes.length
    (∀ op ∈ s.pend, ∀ y ∈ op.accs, y.2 ≠ .ceil) → (∀ z ∈ s.teams, z.deadlocked = false) →
    (∀ m, .sector m ∈ st.todo → s.cutPoisoned st m = false) →
    (a + b.length + 63) / 64 * 64 + 64 ≤ j.region + j.bytes → (∀ m, a ≤ m → m ≤ a + b.length → s.revoked m = false) →
    ∃ t j' st', exec (.streamerWrite p n) s = .next t ∧ t.job? p n = some j' ∧ j'.stream = some st' ∧ st'.bytes = st.bytes ++ b
      ∧ st'.items = st.items + 1 ∧ t.mem.bytes a b.length = b ∧ (∀ m, m < a ∨ a + b.length ≤ m → t.mem.byte m = s.mem.byte m)
      ∧ i ∉ st'.todo)
  ∧ (∀ (s : State) (p n : Nat) (j : Job) (st : Stream) (c : Commit), s.job? p n = some j → j.stream = some st → st.cut = some c →
    st.todo = [] →
    let a := (st.base + st.bytes.length + 63) / 64 * 64
    s.revoked a = false →
    ∃ t j', exec (.checkpointCommit p n) s = .next t ∧ t.job? p n = some j' ∧ j'.stream = none ∧ j'.lastCommit = a ∧ j'.lastK = st.k
      ∧ j'.aborted = false ∧ t.mem.nat a 4 = 0x4D43524E ∧ t.mem.nat (a + 8) 8 = st.k % 2 ^ 64 ∧ t.mem.nat (a + 0x10) 8 = st.tk % 2 ^ 64
      ∧ t.mem.nat (a + 0x18) 8 = st.prev % 2 ^ 64 ∧ t.mem.nat (a + 0x20) 8 = st.base % 2 ^ 64 ∧ t.mem.nat (a + 0x3C) 4 = 1
      ∧ (∀ m, m < a ∨ a + 64 ≤ m → t.mem.byte m = s.mem.byte m) ∧ ∃ x ∈ t.commits, x.pa = a ∧ x.k = c.k)
  ∧ (∀ (s : State) (p n : Nat) (j : Job) (l : List Nat), s.job? p n = some j → j.status % 32 = 0 → s.revoked j.status = false →
    s.revoked (j.status + 24) = false → l.Nodup →
    (∀ a, a ∈ l ↔ tracks (s.maps p j.asid) a = true ∧ (a ∈ j.dirty ∨ ∃ st, j.stream = some st ∧ a ∈ st.marks)) →
    let ts := s.teams.filter (fun z => z.part == p && z.record.job == n && z.record.track)
    let engine := fun (z : Team) => if (s.core z.core).engine.holder = some z.uid then some (s.core z.core).engine else none
    ∃ t, exec (.saveCostRecord p n) s = .next t ∧ t.mem.nat j.status 8 = s.dirtyBytes j % 2 ^ 64
      ∧ (s.saved = [] → s.launches = [] → s.dirtyBytes j = 128 * l.length + (ts.map (fun z => z.dirtyBytes (engine z))).sum)
      ∧ t.mem.nat (j.status + 16) 8 = (ts.map s.ctxBytes).sum % 2 ^ 64
      ∧ t.mem.nat (j.status + 24) 8 = j.lastK % 2 ^ 32 * 2 ^ 32 + (if j.aborted then 2 else 0) + (if j.full then 1 else 0)
      ∧ (∀ m, m < j.status ∨ j.status + 32 ≤ m → t.mem.byte m = s.mem.byte m) ∧ TeamsKept s t)

/-! ## Firmware -/

/-- R330, R374, R375, R407, R426 to R432, R437, R439, R441, R446: bring-up ends READY or FAIL, with the memories of the package at 0 and
those outside it as they were; each call of the management page has its effect and completes, or gives its result code and has none of
it. That bring-up keeps the memories outside the package (log 31), that a call on an unassigned partition is done (log 30), that
FW_UPDATE is two events (log 32), and that a SPARE retires the core it names (log 33), is the model's choice. -/
def Obligations.FirmwareCallResults : Prop :=
  (∀ (s : State) (ok : Bool) (dies : BitVec 4), ∃ t, exec (.powerGood ok dies) s = .next t ∧ t.teams = [] ∧ t.launches = []
    ∧ t.parts = State.reset.parts ∧ (∀ a, inRange .hbm a = true ∨ inRange .spad a = true → t.mem.byte a = 0)
    ∧ (∀ a, external a = true → t.mem.byte a = s.mem.byte a)
    ∧ (ok = true → t.mgmt.st = 2 ∧ t.mgmt.step = 7 ∧ t.mgmt.fenced = dies)
    ∧ (ok = false → t.mgmt.st = 3))
  ∧ (∀ (s : State), s.calling 0x01 = true → s.parts.length = 16 →
    let p := s.arg 0
    (16 ≤ p → ∃ t, exec .partAssign s = .next t ∧ t.CallDone 1 ∧ t.parts = s.parts)
    ∧ (p < 16 → s.arg 1 < 256 → s.arg 6 < 2 ^ 32 → s.arg 6 % 2 ^ 16 + s.arg 6 / 2 ^ 16 ≤ 2 ^ 16 → (s.part p).assigned = true →
      ∃ t, exec .partAssign s = .next t ∧ t.CallDone 2 ∧ t.parts = s.parts)
    ∧ (∀ runs, p < 16 → s.arg 1 < 256 → s.arg 6 < 2 ^ 32 → s.arg 6 % 2 ^ 16 + s.arg 6 / 2 ^ 16 ≤ 2 ^ 16 → (s.part p).assigned = false →
      s.ownedElsewhere (s.arg 1) (s.arg 6 % 2 ^ 16) (s.arg 6 / 2 ^ 16) = false →
      s.freeRuns [(0, s.arg 2), (1, s.arg 3), (2, s.arg 4), (3, s.arg 5)] = some runs →
      ∃ t, exec .partAssign s = .next t ∧ t.CallDone 0 ∧ (t.part p).assigned = true
        ∧ (t.part p).clusters.toNat = s.arg 1 ∧ (t.part p).frames = runs ∧ (t.part p).pool = runs
        ∧ (t.part p).asid0.toNat = s.arg 6 % 2 ^ 16 ∧ (t.part p).asidn.toNat = s.arg 6 / 2 ^ 16
        ∧ (∀ m, m ≠ p → t.part m = s.part m)
        ∧ ∀ f ∈ runs, ∀ a, f.1 ≤ a → a < f.1 + 65536 * f.2 → t.mem.byte a = 0))
  ∧ (∀ (s : State), s.calling 0x02 = true → s.parts.length = 16 → s.arg 0 < 16 →
    let p := s.arg 0
    let v := s.arg 2 + 2 ^ 64 * s.arg 3 + 2 ^ 128 * s.arg 4 + 2 ^ 192 * s.arg 5
    ((∀ z ∈ s.teams, z.part ≠ p) → s.saved = [] →
      ∃ t, exec .partSet s = .next t
        ∧ (s.arg 1 = 0x000 → v < 2 ^ 64 → t.CallDone 0 ∧ t.part p = { s.part p with ctxbase := BitVec.ofNat 64 v })
        ∧ (s.arg 1 = 0x008 → v < 2 ^ 64 → v % 256 = 0 → canonical v = true →
            t.CallDone 0 ∧ t.part p = { s.part p with scode := BitVec.ofNat 64 v })
        ∧ (s.arg 1 = 0x070 → v < 2 ^ 64 → bits v 11 5 = 0 → 7 ≤ v % 32 → v % 32 ≤ 16 →
            t.CallDone 0 ∧ t.part p = { s.part p with elogbase := BitVec.ofNat 64 (v / 4096 * 4096), elogn := BitVec.ofNat 5 (v % 32) })
        ∧ (s.arg 1 ∉ [0x000, 0x008, 0x018, 0x020, 0x030, 0x050, 0x070] → t.CallDone 1 ∧ t.parts = s.parts)
        ∧ (s.arg 1 = 0x018 → v < 2 ^ 64 → v % 4096 = 0 → t.CallDone 0 ∧ t.part p = { s.part p with logbase := BitVec.ofNat 64 v })
        ∧ (s.arg 1 = 0x020 → 6 ≤ v → v ≤ 16 → t.CallDone 0 ∧ t.part p = { s.part p with logn := BitVec.ofNat 5 v })
        ∧ (s.arg 1 = 0x030 → t.CallDone 0 ∧ t.part p = { s.part p with svcmask := BitVec.ofNat 256 v })
        ∧ (s.arg 1 = 0x050 → t.CallDone 0 ∧ t.part p = { s.part p with ewgt := BitVec.ofNat 256 v }))
    ∧ (s.arg 1 = 0x030 → (∃ z ∈ s.teams, z.part = p) → ∃ t, exec .partSet s = .next t ∧ t.CallDone 2 ∧ t.parts = s.parts))
  ∧ (∀ (s : State), s.parts.length = 16 → s.arg 0 < 16 →
    let p := s.arg 0
    let gone := fun (t : State) => (∀ z ∈ t.teams, z.part ≠ p) ∧ (∀ L ∈ t.launches, L.part ≠ p) ∧ ∀ c ∈ t.saved, c.part ≠ p
    (s.calling 0x03 = true → ∃ t, exec .partReset s = .next t ∧ t.CallDone 0 ∧ gone t
      ∧ (t.part p).clusters = (s.part p).clusters ∧ (t.part p).frames = (s.part p).frames)
    ∧ (s.calling 0x04 = true → ∃ t, exec .partFree s = .next t ∧ t.CallDone 0 ∧ gone t ∧ t.part p = Part.reset)
    ∧ (s.calling 0x05 = true → s.arg 1 % 65536 = 0 → s.arg 2 % 65536 = 0 → inRange .hbm (s.arg 1) = true →
      ((s.part p).resv ≠ [] → ∃ t, exec .ctxpool s = .next t ∧ t.CallDone 2 ∧ t.parts = s.parts)
      ∧ ((s.part p).resv = [] → rangeFits (s.arg 1) (s.arg 2) = true →
        (∃ m r, m < 16 ∧ m ≠ p ∧ r ∈ (s.part m).owned ∧ runsMeet (s.arg 1, s.arg 2 / 65536) r = true) →
        ∃ t, exec .ctxpool s = .next t ∧ t.CallDone 2 ∧ t.parts = s.parts)
      ∧ ((s.part p).resv = [] → rangeFits (s.arg 1) (s.arg 2) = true →
        (∀ m r, m < 16 → m ≠ p → r ∈ (s.part m).owned → runsMeet (s.arg 1, s.arg 2 / 65536) r = false) →
        ∃ t, exec .ctxpool s = .next t ∧ t.CallDone 0 ∧ t.part p = { s.part p with ctxpool := some (s.arg 1, s.arg 2) })
      ∧ ((s.part p).resv = [] → rangeFits (s.arg 1) (s.arg 2) = false →
        ∃ t, exec .ctxpool s = .next t ∧ t.CallDone 4 ∧ t.parts = s.parts)))
  ∧ (∀ (s : State),
    (s.calling 0x10 = true → s.arg 0 < 2048 → bits (s.arg 1) 15 12 = 0 → s.arg 2 < 8 →
      ∃ t, exec .egress s = .next t ∧ t.CallDone 0 ∧ (nget t.egress (s.arg 0)).toNat = s.arg 1 + 2 ^ 64 * s.arg 2
        ∧ ∀ n, n ≠ s.arg 0 → nget t.egress n = nget s.egress n)
    ∧ (s.calling 0x10 = true → 2048 ≤ s.arg 0 → ∃ t, exec .egress s = .next t ∧ t.CallDone 1 ∧ t.egress = s.egress)
    ∧ (s.calling 0x11 = true → s.arg 0 < 4096 → s.arg 1 < 2 ^ 52 → s.arg 1 % 2 ^ 16 = 0 → s.arg 2 % 65536 = 0 → s.arg 3 % 2 ^ 16 < 16 →
      s.arg 4 < 8 → (inRange .hbm (s.arg 1) = true ∨ inRange .spad (s.arg 1) = true) → rangeFits (s.arg 1) (s.arg 2) = true →
      ∃ t, exec .importE s = .next t ∧ t.CallDone 0 ∧ (∀ n, n ≠ s.arg 0 → nget t.imports n = nget s.imports n)
        ∧ (nget t.imports (s.arg 0)).toNat = s.arg 1 + 2 ^ 64 * s.arg 2 + 2 ^ 128 * s.arg 3 + 2 ^ 192 * s.arg 4)
    ∧ (s.calling 0x11 = true → inRange .hbm (s.arg 1) = false → inRange .spad (s.arg 1) = false →
      ∃ t, exec .importE s = .next t ∧ t.CallDone 1 ∧ t.imports = s.imports)
    ∧ (s.calling 0x11 = true → 4096 ≤ s.arg 0 → ∃ t, exec .importE s = .next t ∧ t.CallDone 1 ∧ t.imports = s.imports)
    ∧ (s.calling 0x12 = true → s.arg 0 < 12 → ∃ t, exec .quiesce s = .next t ∧ t = { s with quiesce := t.quiesce } ∧ s.arg 0 ∈ t.quiesce)
    ∧ (s.calling 0x12 = true → 12 ≤ s.arg 0 → ∃ t, exec .quiesce s = .next t ∧ t.CallDone 1 ∧ t.quiesce = s.quiesce)
    ∧ (∀ port, s.calling 0x12 = true → port ∈ s.quiesce → ∃ t, exec (.quiesceAck port) s = .next t ∧ t.CallDone 0 ∧ port ∉ t.quiesce))
  ∧ (∀ (s : State),
    let base := s.arg 1
    let n := s.arg 2
    (s.calling 0x20 = true → s.arg 0 < 2 ^ 18 → bits (s.arg 0) 15 10 = 0 → (s.arg 3 / 2 ^ 16 = 1 ∨ ∃ k, k < 16 ∧ s.arg 3 = 2 ^ k) →
      base % 2 ^ 30 = 0 → n % 2 ^ 30 = 0 → 0 < n → rangeFits base n = true → inRange .tier base = true →
      (∀ e ∈ s.extents, e.index ≠ s.arg 0 % 1024 ∧ (base + n ≤ e.base ∨ e.base + e.bytes ≤ base)) →
      ∃ t, exec .extentAdd s = .next t ∧ t.CallDone 0 ∧ t.extents = s.extents ++
        [{ index := s.arg 0 % 1024, port := s.arg 0 / 2 ^ 16, base := base, bytes := n, shared := decide (s.arg 3 / 2 ^ 16 = 1),
           mask := BitVec.ofNat 16 (s.arg 3), revoked := false, dropped := 0, firstDrop := 0 }])
    ∧ (s.calling 0x20 = true → base % 2 ^ 30 ≠ 0 → ∃ t, exec .extentAdd s = .next t ∧ t.CallDone 1 ∧ t.extents = s.extents)
    ∧ (∀ e, s.calling 0x21 = true → s.extents.find? (fun x => x.index == s.arg 0) = some e →
      ∃ t e', exec .extentRevoke s = .next t ∧ t.extents.find? (fun x => x.index == s.arg 0) = some e' ∧ e' = { e with revoked := true }
        ∧ t.mgmt = s.mgmt ∧ t.mem = s.mem)
    ∧ (s.calling 0x21 = true → (∀ e ∈ s.extents, e.index ≠ s.arg 0) → ∃ t, exec .extentRevoke s = .next t ∧ t.CallDone 1)
    ∧ (∀ k e, s.extents.find? (fun x => x.index == k && x.revoked) = some e →
      ∃ t, exec (.extentRelease k) s = .next t ∧ (∀ x ∈ t.extents, x.index ≠ k) ∧ .extentReleased k ∈ t.sent
        ∧ (s.calling 0x21 = true → t.CallDone 0)))
  ∧ (∀ (s : State),
    (s.calling 0x30 = true → inRange .host (0x080000000000 + s.arg 0) = true → rangeFits (0x080000000000 + s.arg 0) (s.arg 1) = true → ∃ t, exec .fwStage s = .next t ∧ t.CallDone 0
      ∧ t.staged = some (s.mem.bytes (0x080000000000 + s.arg 0) (s.arg 1)))
    ∧ (s.calling 0x30 = true → inRange .host (0x080000000000 + s.arg 0) = false → ∃ t, exec .fwStage s = .next t ∧ t.CallDone 1
      ∧ t.staged = s.staged)
    ∧ (s.calling 0x30 = true → inRange .host (0x080000000000 + s.arg 0) = true →
      rangeFits (0x080000000000 + s.arg 0) (s.arg 1) = false → ∃ t, exec .fwStage s = .next t ∧ t.CallDone 4
      ∧ t.staged = s.staged)
    ∧ (s.calling 0x31 = true → s.staged = none → ∃ t, exec .fwUpdate s = .next t ∧ t.CallDone 3 ∧ t.mgmt.fwver = s.mgmt.fwver)
    ∧ (∀ b, s.calling 0x31 = true → s.staged = some b →
      (Config.signatureOk b = true ∧ s.mgmt.fwver ≤ Config.imageVersion b →
        exec .fwUpdate s = .next { s with mgmt := { s.mgmt with st := 4 } })
      ∧ (Config.signatureOk b = false ∨ ¬ s.mgmt.fwver ≤ Config.imageVersion b →
        ∃ t, exec .fwUpdate s = .next t ∧ t.CallDone 3 ∧ t.mgmt.fwver = s.mgmt.fwver))
    ∧ (∀ b, s.mgmt.go = true → s.mgmt.code = 0x31 → s.mgmt.st = 4 → s.staged = some b →
      ∃ t, exec .fwUpdate s = .next t ∧ t.CallDone 0 ∧ t.mgmt.st = 2 ∧ t.mgmt.fwver = Config.imageVersion b
        ∧ t.mgmt.errata = Config.imageErrata b ∧ t.mgmt.outs.head? = some t.mgmt.fwver ∧ t.teams = s.teams ∧ t.mem = s.mem)
    ∧ (s.calling 0x32 = true → s.arg 0 < 3 → inRange .host (0x080000000000 + s.arg 1) = true → rangeFits (0x080000000000 + s.arg 1) (s.arg 2) = true →
      let b := s.mem.bytes (0x080000000000 + s.arg 1) (s.arg 2)
      (Config.commandOk b (BitVec.ofNat 2 (s.arg 0)) = true → ∃ t, exec .lifecycle s = .next t ∧ t.CallDone 0 ∧ t.mgmt.lcs.toNat = s.arg 0
        ∧ t.teams = [] ∧ t.launches = [] ∧ t.saved = [] ∧ ∀ a, inRange .hbm a = true ∨ inRange .spad a = true → t.mem.byte a = 0)
      ∧ (Config.commandOk b (BitVec.ofNat 2 (s.arg 0)) = false → ∃ t, exec .lifecycle s = .next t ∧ t.CallDone 3 ∧ t.mgmt.lcs = s.mgmt.lcs
        ∧ t.mem = s.mem))
    ∧ (s.calling 0x33 = true → s.arg 0 < 512 → s.arg 1 < 512 → s.arg 0 ≠ s.arg 1 → dieOf (s.arg 0) = dieOf (s.arg 1) →
      (∀ p, p < 16 → s.owns p (s.arg 1) = false) → (∀ r ∈ s.retired, r.1 ≠ s.arg 1 ∧ r.2 ≠ s.arg 1 ∧ r.1 ≠ s.arg 0) → (∀ z ∈ s.teams, z.core ≠ s.arg 0) →
      ∃ t, exec .spare s = .next t ∧ t.CallDone 0 ∧ t.retired = s.retired ++ [(s.arg 0, s.arg 1)]
        ∧ (∀ a, a < 2 ^ 19 → t.mem.byte (spadOf (s.arg 1) + a) = 0) ∧ t.teams = s.teams)
    ∧ (let old := s.arg 0 % 512 / 64
       let new := s.arg 1 % 512 / 64
       let core := fun (c i : Nat) => 64 * c + i
       s.calling 0x33 = true → 512 ≤ s.arg 0 → s.arg 0 < 1024 → 512 ≤ s.arg 1 → s.arg 1 < 1024 → old ≠ new → old / 2 = new / 2 →
      (∀ i, i < 64 → (∀ p, p < 16 → s.owns p (core new i) = false)
        ∧ ∀ r ∈ s.retired, r.1 ≠ core new i ∧ r.2 ≠ core new i ∧ r.1 ≠ core old i) → (∀ z ∈ s.teams, z.core / 64 ≠ old) →
      ∃ t, exec .spare s = .next t ∧ t.CallDone 0 ∧ t.retired = s.retired ++ (List.range 64).map (fun i => (core old i, core new i))
        ∧ (∀ i a, i < 64 → a < 2 ^ 19 → t.mem.byte (spadOf (core new i) + a) = 0)
        ∧ (∀ r ∈ t.rmap, r.place ≠ new) ∧ (∀ e ∈ t.tlb, e.place ≠ new) ∧ t.teams = s.teams))
  ∧ (∀ (s : State),
    let p := s.arg 0 / 2 ^ 16
    let n := s.arg 0 % 2 ^ 16
    (s.calling 0x40 = true → s.arg 0 < 2 ^ 20 → s.arg 1 % 4096 = 0 → s.arg 2 % 4096 = 0 → s.arg 3 % 32 = 0 → s.statusOk p (s.arg 3) = true →
      s.regionOk p (s.arg 1) (s.arg 2) = true →
      ∃ t j, exec .ckptRegion s = .next t ∧ t.CallDone 0 ∧ t.job? p n = some j ∧ j.region = s.arg 1 ∧ j.bytes = s.arg 2
        ∧ j.status = s.arg 3 ∧ j.used = 0 ∧ t.mem = s.mem)
    ∧ (s.calling 0x40 = true → s.regionOk p (s.arg 1) (s.arg 2) = false → ∃ t, exec .ckptRegion s = .next t ∧ t.CallDone 1 ∧ t.jobs = s.jobs)
    ∧ (∀ s', s.calling 0x41 = true → s.arg 0 < 2 ^ 20 → s.arg 1 < 2 ^ 16 → (s.ctxEntry p (s.arg 1)).valid = true →
      (∀ z ∈ s.teams, ¬ (z.part = p ∧ z.record.job = n)) → s.saved = [] → (∃ j, s.job? p n = some j ∧ j.stream = none) →
      s.takeBase p n (s.arg 1) = some s' →
      ∃ t j, exec .ckptBase s = .next t ∧ t.CallDone 0 ∧ t.job? p n = some j ∧ j.based = true ∧ j.asid = s.arg 1 ∧ j.stream = none
        ∧ j.nextK = 1 ∧ t.mgmt.outs[0]? = some (BitVec.ofNat 64 j.lastCommit) ∧ t.mgmt.outs[1]? = some (BitVec.ofNat 64 j.closed))
    ∧ (s.calling 0x41 = true → s.arg 0 < 2 ^ 20 → s.arg 1 < 2 ^ 16 → s.job? p n = none →
      ∃ t, exec .ckptBase s = .next t ∧ t.CallDone 1 ∧ t.jobs = s.jobs))

/-! ## Numbers -/

/-- R93, R95: an exact nonzero value written in a format is the representable value that the rounding mode names: the greatest
not above it in size, the least not below it, or the nearest, a tie going to the even code; past the largest finite value it is
that value or an infinity, as the mode says. NX is clear exactly when the value is written exactly. Sizes are counted in units
of 2^-K. -/
def Obligations.RoundingResults : Prop :=
  ∀ f ∈ [f32, f16, bf16], ∀ (rm : Rm) (neg : Bool) (m : Nat) (e : Int) (K : Nat), 0 < m → 0 ≤ e + K → 0 ≤ f.emin - f.fb + K →
    let v := m * 2 ^ (e + K).toNat
    let r := f.roundNum rm neg m e
    let top := f.infCode
    let gap := fun c => (v - f.units K c) + (f.units K c - v)
    ∃ c, r.1 = f.signCode neg + c ∧ c ≤ top
      ∧ (rm = .rtz ∨ (rm = .rdn ∧ neg = false) ∨ (rm = .rup ∧ neg = true) →
          c < top ∧ f.units K c ≤ v ∧ ∀ d, d < top → f.units K d ≤ v → f.units K d ≤ f.units K c)
      ∧ ((rm = .rup ∧ neg = false) ∨ (rm = .rdn ∧ neg = true) →
          (c < top → v ≤ f.units K c ∧ ∀ d, d < top → v ≤ f.units K d → f.units K c ≤ f.units K d)
          ∧ (c = top → ∀ d, d < top → f.units K d < v))
      ∧ (rm = .rne → (c < top → ∀ d, d < top → gap c ≤ gap d ∧ (d ≠ c → gap d = gap c → c % 2 = 0))
          ∧ (c = top ↔ 3 * f.units K (top - 1) ≤ 2 * v + f.units K (top - 2)))
      ∧ (r.2.getLsbD 4 = false ↔ c < top ∧ f.units K c = v)

/-! ## The machine as a whole -/

/-- R58, R72 to R75: every instruction that a word encodes, its operands in their classes, decodes to itself from the word that
encodes it. -/
def Obligations.DecodeEncode : Prop := ∀ (i : Instr) (w : Word), i.wf = true → encode i = some w → decode w = .ok i

/-- The sample encodings of the spec decode to the instructions they stand for, and its illegal ones to none. -/
def Obligations.SampleWords : Prop :=
  (∀ e ∈ [(0x1020169B#32, Instr.imad (.v 8) (.v 2) (.s 9)), (0x180C0823#32, .fmaF32 (.v 3) (.v 1) (.v 2)),
          (0x201C2056#32, .hdot2Bf16 (.v 7) (.v 4) (.v 5)), (0x38244800#32, .rcp (.v 9) (.v 9)),
          (0x40182009#32, .redf (.v 6) (.v 4)), (0xB4B04002#32, .lop3 0x96 2 0 1),
          (0x742017FF#32, .ld 2 (.v 8) (.v 2) 0x7FF), (0x78171004#32, .st 0 (.v 5) (.s 2) 4),
          (0x881C104A#32, .atomCas 0 (.v 7) (.v 2) (.v 4)), (0x9FD34001#32, .copyT2 (.s 20) (.s 8)),
          (0xA7D34000#32, .mloop (.s 20) (.s 8)), (0xDFC00000#32, .take (.s 16)), (0xD0000012#32, .join 1)],
    decode e.1 = .ok e.2 ∧ e.2.wf = true)
  ∧ (∀ w ∈ [0x2828163E#32, 0xBA0C0425#32, 0xB4B04003#32, 0x38244850#32, 0x12000000#32, 0xA8020214#32], ∀ i, decode w ≠ .ok i)

/-- R15, R46, R66, R151, R446: a step carries out the event, or the other act, that the agenda gives; where it gives a core to issue,
the next sub-crew's word is decoded and executed: a header fetched at its address, in the state that the fetch leaves, where only
instruction lines and the free choices used to fill them have moved, or a word of the open clause as the clause was fetched; a
package whose boot failed has halted. That there is an agenda, that with it empty one of the acts that are due is carried out by
free choice, and that with none due nothing changes, is the model's choice (log 1). -/
def Obligations.StepRunsDecoded : Prop :=
  (∀ (s : State) (i : Instr) (rest : List Act), s.mgmt.st ≠ 3 → s.agenda = .event i :: rest →
    step s = exec i { s with agenda := rest }.unstall)
  ∧ (∀ (s : State) (a : Act) (rest : List Act), s.mgmt.st ≠ 3 → s.agenda = a :: rest → (∀ i, a ≠ .event i) → (∀ c, a ≠ .issue c) →
    step s = .next (runAct a { s with agenda := rest }.unstall))
  ∧ (∀ (s : State) (core : Nat) (rest : List Act) (x : Team) (b : SubCrew) (sl : Slice) (w : Word) (i : Instr), s.mgmt.st ≠ 3 →
    s.agenda = .issue core :: rest →
    let r := { s with agenda := rest }.forIssue core
    r.nextSub core = some (x, b) → r.team? x.uid = some x → (∀ k ∈ b.members, r.uiDue x.uid k = false) →
    x.slice? (b.members.headD 0) = some sl → (sl.opened = true → sl.code[sl.ix]? = some w) →
    (sl.opened = false → r.HeldWord x (sl.mode == .supervisor) (r.codeBase x sl + sl.hdr) w) →
    isHeader w = (!sl.opened) → decode w = .ok i →
    ∃ t : State, step s = exec i ({ r with cur := some { team := x.uid, members := b.members, bad := b.bad } }.withCode t))
  ∧ (∀ s : State, s.mgmt.st ≠ 3 → s.agenda = [] →
    (s.acts = [] → step s = .next s)
    ∧ (s.acts ≠ [] → ∃ d ∈ s.acts, ∃ s' : State, s' = { s with nonce := s'.nonce }
      ∧ ((∃ c, d = .issue c ∧ step s = (s'.forIssue c).issueStep c) ∨ ((∀ c, d ≠ .issue c) ∧ step s = runDue d s'.unstall))))
  ∧ (∀ s : State, s.mgmt.st = 3 → step s = .fault .packageHalted)

/-- R423, R425, R427, R428, R446: after reset the boot has not run, no call is running, every partition is unassigned with every
field of its page at its reset value and every queue off, nothing is resident, and memory is wiped and in its canonical form.
That a byte no store has reached reads 0 before the wipe of bring-up is the model's choice (log 3). -/
def Obligations.ResetState : Prop :=
  State.reset.mgmt.st = 0 ∧ State.reset.mgmt.step = 0 ∧ State.reset.mgmt.fenced = 0 ∧ State.reset.mgmt.go = false
  ∧ State.reset.parts.length = 16
  ∧ (∀ q ∈ State.reset.parts, q.assigned = false ∧ q.clusters = 0 ∧ q.frames = [] ∧ q.ctxbase = 0 ∧ q.scode = 0 ∧ q.asidn = 0
      ∧ q.asid0 = 0 ∧ q.logbase = 0 ∧ q.logn = 0 ∧ q.loghead = 0 ∧ q.logtail = 0 ∧ q.loglost = 0 ∧ q.svcmask = 0 ∧ q.ewgt = 0
      ∧ q.elogbase = 0 ∧ q.elogn = 0 ∧ q.eloghead = 0 ∧ q.elogtail = 0 ∧ q.queues.length = 16
      ∧ ∀ z ∈ q.queues, z.en = false ∧ z.qbase = 0 ∧ z.cbase = 0 ∧ z.vec = 0 ∧ z.log2n = 0 ∧ z.tail = 0 ∧ z.head = 0)
  ∧ State.reset.teams = [] ∧ State.reset.launches = [] ∧ State.reset.saved = [] ∧ State.reset.extents = []
  ∧ (∀ c, (State.reset.core c).engine.holder = none)
  ∧ State.reset.mem.wf = true ∧ ∀ a, State.reset.mem.byte a = 0

/-- The model's own invariant (no rule of the spec): every step keeps memory in its canonical form, so that equal memories are
equal data. -/
def Obligations.MemoryStaysCanonical : Prop :=
  ∀ (s t : State), s.mem.wf = true → step s = .next t → t.mem.wf = true

/-- R2, R131, R432: a write of the device puts its bytes where it says, little-endian and nowhere else; into a revoked extent it is
dropped and counted, and changes no byte. That a tier address in no extent counts as revoked is the model's reading (log 16). -/
def Obligations.DeviceWriteResults : Prop :=
  ∀ (s : State) (a : Nat) (bs : List Byte),
    ((∀ m, a ≤ m → m < a + bs.length → s.revoked m = false) →
      (s.devWrite a bs).mem.bytes a bs.length = bs ∧ ∀ m, m < a ∨ a + bs.length ≤ m → (s.devWrite a bs).mem.byte m = s.mem.byte m)
    ∧ ((∀ m, a ≤ m → m < a + bs.length → s.revoked m = true) → 0 < bs.length → a % 128 + bs.length ≤ 128 →
      (∀ m, (s.devWrite a bs).mem.byte m = s.mem.byte m)
      ∧ ∀ e, s.extentAt a = some e → ∃ e', (s.devWrite a bs).extentAt a = some e' ∧ e'.dropped = e.dropped + 1
          ∧ e' = { e with dropped := e'.dropped, firstDrop := if e.dropped = 0 then a else e.firstDrop })
end

