-- ==== Sys2Proof/Laws/Map.lean ====
section
/-! SUPPORT. The laws of the sparse maps and of memory: a read after a write, and the canonical form. -/

namespace Sys2Proof.Machine

variable {w : Nat}

theorem nget_nerase (m : NMap w) (a b : Nat) : nget (nerase m a) b = if a = b then 0 else nget m b := by
  induction m with
  | nil => simp [nerase, nget]
  | cons e r ih =>
    obtain ⟨k, v⟩ := e
    simp only [nerase]
    split
    · next h => subst h; rw [ih]; split <;> simp_all [nget]
    · next h =>
      simp only [nget, ih]
      split <;> split <;> simp_all

theorem nget_ninsert (m : NMap w) (a b : Nat) (v : BitVec w) (hm : ∀ e ∈ m, e.1 ≠ a) :
    nget (ninsert m a v) b = if a = b then v else nget m b := by
  induction m with
  | nil => simp [ninsert, nget]
  | cons e r ih =>
    obtain ⟨k, x⟩ := e
    have hk : k ≠ a := hm (k, x) (by simp)
    have hr : ∀ e ∈ r, e.1 ≠ a := fun e he => hm e (by simp [he])
    simp only [ninsert]
    split
    · simp only [nget]
    · simp only [nget, ih hr]
      split <;> split <;> simp_all

theorem nerase_keys (m : NMap w) (a : Nat) : ∀ e ∈ nerase m a, e.1 ≠ a ∧ e ∈ m := by
  induction m with
  | nil => simp [nerase]
  | cons e r ih =>
    obtain ⟨k, x⟩ := e
    simp only [nerase]
    split
    · intro e he; have := ih e he; simp [this]
    · next h =>
      intro e he
      rcases List.mem_cons.1 he with rfl | he
      · simp [h]
      · have := ih e he; simp [this]

/-- A read after a write gives what was written at its key, and at any other what stood there. -/
theorem nget_nset (m : NMap w) (a b : Nat) (v : BitVec w) : nget (nset m a v) b = if a = b then v else nget m b := by
  unfold nset
  split
  · next h => rw [nget_nerase]; simp [h]
  · rw [nget_ninsert _ _ _ _ (fun e he => (nerase_keys m a e he).1), nget_nerase]
    split <;> simp_all

@[simp] theorem nget_nset_self (m : NMap w) (a : Nat) (v : BitVec w) : nget (nset m a v) a = v := by simp [nget_nset]

theorem nget_nset_ne (m : NMap w) {a b : Nat} (v : BitVec w) (h : a ≠ b) : nget (nset m a v) b = nget m b := by
  simp [nget_nset, h]

/-! ## The canonical form -/

theorem nwf_iff (m : NMap w) : nwf m = true ↔ m.Pairwise (fun x y => x.1 < y.1) ∧ ∀ e ∈ m, e.2 ≠ 0 := by
  induction m with
  | nil => simp [nwf]
  | cons e r ih =>
    obtain ⟨k, v⟩ := e
    cases r with
    | nil => simp [nwf]
    | cons e' r =>
      obtain ⟨k', v'⟩ := e'
      simp only [nwf, Bool.and_eq_true, decide_eq_true_eq, bne_iff_ne, ih]
      constructor
      · rintro ⟨⟨h1, h2⟩, h3, h4⟩
        refine ⟨?_, ?_⟩
        · rw [List.pairwise_cons]
          refine ⟨?_, h3⟩
          intro e he
          rcases List.mem_cons.1 he with rfl | he
          · exact h1
          · exact lt_trans h1 ((List.pairwise_cons.1 h3).1 e he)
        · intro e he
          rcases List.mem_cons.1 he with rfl | he
          · exact h2
          · exact h4 e he
      · rintro ⟨h1, h2⟩
        rw [List.pairwise_cons] at h1
        exact ⟨⟨h1.1 (k', v') (by simp), h2 (k, v) (by simp)⟩, h1.2, fun e he => h2 e (by simp [he])⟩

theorem nerase_nwf (m : NMap w) (a : Nat) (h : nwf m = true) : nwf (nerase m a) = true := by
  rw [nwf_iff] at *
  refine ⟨?_, fun e he => h.2 e (nerase_keys m a e he).2⟩
  have : (nerase m a).Sublist m := by
    clear h
    induction m with
    | nil => simp [nerase]
    | cons e r ih =>
      obtain ⟨k, x⟩ := e
      simp only [nerase]
      split
      · exact ih.trans (List.sublist_cons_self _ _)
      · exact ih.cons_cons _
  exact h.1.sublist this

theorem mem_ninsert (m : NMap w) (a : Nat) (v : BitVec w) (e : Nat × BitVec w) :
    e ∈ ninsert m a v ↔ e = (a, v) ∨ e ∈ m := by
  induction m with
  | nil => simp [ninsert]
  | cons x r ih =>
    obtain ⟨k, y⟩ := x
    simp only [ninsert]
    split <;> simp [ih]
    tauto

theorem ninsert_nwf (m : NMap w) (a : Nat) (v : BitVec w) (h : nwf m = true) (hv : v ≠ 0) (hm : ∀ e ∈ m, e.1 ≠ a) :
    nwf (ninsert m a v) = true := by
  rw [nwf_iff] at *
  obtain ⟨h1, h2⟩ := h
  refine ⟨?_, fun e he => ?_⟩
  · induction m with
    | nil => simp [ninsert]
    | cons x r ih =>
      obtain ⟨k, y⟩ := x
      rw [List.pairwise_cons] at h1
      have hk : k ≠ a := hm (k, y) (by simp)
      simp only [ninsert]
      split
      · next hlt =>
        rw [List.pairwise_cons, List.pairwise_cons]
        refine ⟨?_, h1⟩
        intro e he
        rcases List.mem_cons.1 he with rfl | he
        · exact hlt
        · exact lt_trans hlt (h1.1 e he)
      · next hlt =>
        rw [List.pairwise_cons]
        refine ⟨?_, ih (fun e he => hm e (by simp [he])) h1.2 (fun e he => h2 e (by simp [he]))⟩
        intro e he
        rcases (mem_ninsert r a v e).1 he with rfl | he
        · simp only; omega
        · exact h1.1 e he
  · rcases (mem_ninsert m a v e).1 he with rfl | he
    · exact hv
    · exact h2 e he

/-- A write keeps the canonical form. -/
theorem nset_nwf (m : NMap w) (a : Nat) (v : BitVec w) (h : nwf m = true) : nwf (nset m a v) = true := by
  unfold nset
  split
  · exact nerase_nwf m a h
  · next hv => exact ninsert_nwf _ a v (nerase_nwf m a h) hv (fun e he => (nerase_keys m a e he).1)

theorem ndrop_nwf (m : NMap w) (lo hi : Nat) (h : nwf m = true) : nwf (ndrop m lo hi) = true := by
  rw [nwf_iff] at *
  exact ⟨h.1.sublist List.filter_sublist, fun e he => h.2 e (List.mem_of_mem_filter he)⟩

/-- Two canonical maps that read alike are equal. -/
theorem nwf_ext (m n : NMap w) (hm : nwf m = true) (hn : nwf n = true) (h : ∀ a, nget m a = nget n a) : m = n := by
  rw [nwf_iff] at hm hn
  induction m generalizing n with
  | nil =>
    cases n with
    | nil => rfl
    | cons e r =>
      have := h e.1
      simp [nget] at this
      exact absurd this.symm (hn.2 e (by simp))
  | cons e r ih =>
    obtain ⟨k, v⟩ := e
    cases n with
    | nil =>
      have := h k
      simp [nget] at this
      exact absurd this (hm.2 (k, v) (by simp))
    | cons e' r' =>
      obtain ⟨k', v'⟩ := e'
      have low : ∀ (r : NMap w) (k a : Nat), (∀ e ∈ r, k < e.1) → a ≤ k → nget r a = 0 := by
        intro r k a hr ha
        induction r with
        | nil => rfl
        | cons e r ih2 =>
          obtain ⟨q, x⟩ := e
          have := hr (q, x) (by simp)
          simp only [nget]
          rw [if_neg (by simp only at this; omega)]
          exact ih2 (fun e he => hr e (by simp [he]))
      have h1 := List.pairwise_cons.1 hm.1
      have h2 := List.pairwise_cons.1 hn.1
      have hk : k = k' := by
        rcases lt_trichotomy k k' with hlt | he | hlt
        · have := h k
          simp only [nget, if_true] at this
          rw [if_neg (by omega), low r' k' k h2.1 (by omega)] at this
          exact absurd this (hm.2 (k, v) (by simp))
        · exact he
        · have := h k'
          simp only [nget, if_true] at this
          rw [if_neg (by omega), low r k k' h1.1 (by omega)] at this
          exact absurd this.symm (hn.2 (k', v') (by simp))
      subst hk
      have hv : v = v' := by have := h k; simpa [nget] using this
      subst hv
      congr 1
      apply ih r' ⟨h1.2, fun e he => hm.2 e (by simp [he])⟩ ⟨h2.2, fun e he => hn.2 e (by simp [he])⟩
      intro a
      by_cases ha : k = a
      · subst ha; rw [low r k k h1.1 le_rfl, low r' k k h2.1 le_rfl]
      · have := h a; simpa [nget, ha] using this

/-! ## Memory -/

theorem Memory.byte_setByte (m : Memory) (a b : Nat) (v : Byte) :
    (m.setByte a v).byte b = if a = b then v else m.byte b := nget_nset m a b v

/-- A byte outside a written range is as it was; one inside is the byte written there. -/
theorem Memory.byte_setBytes (m : Memory) (a b : Nat) (l : List Byte) :
    (m.setBytes a l).byte b = if a ≤ b ∧ b < a + l.length then (l.drop (b - a)).headD 0 else m.byte b := by
  induction l generalizing m a with
  | nil => simp only [setBytes, List.length_nil]; rw [if_neg (by omega)]
  | cons x r ih =>
    simp only [setBytes, ih, byte_setByte, List.length_cons]
    by_cases h : a = b
    · subst h
      rw [if_neg (by omega), if_pos rfl, if_pos (by omega)]; simp
    · rw [if_neg h]
      by_cases h2 : a + 1 ≤ b ∧ b < a + 1 + r.length
      · rw [if_pos h2, if_pos (by omega)]
        have : b - a = (b - (a + 1)) + 1 := by omega
        rw [this, List.drop_succ_cons]
      · rw [if_neg h2, if_neg (by omega)]

theorem bytesOfNat_length (n x : Nat) : (bytesOfNat n x).length = n := by
  induction n generalizing x with
  | zero => rfl
  | succ n ih => simp [bytesOfNat, ih]

theorem Memory.byte_setNat_out (m : Memory) (a n x b : Nat) (h : b < a ∨ a + n ≤ b) :
    (m.setNat a n x).byte b = m.byte b := by
  rw [setNat, byte_setBytes, bytesOfNat_length, if_neg (by omega)]

theorem Memory.setByte_wf (m : Memory) (a : Nat) (v : Byte) (h : m.wf = true) : (m.setByte a v).wf = true := nset_nwf m a v h

theorem Memory.setBytes_wf (m : Memory) (a : Nat) (l : List Byte) (h : m.wf = true) : (m.setBytes a l).wf = true := by
  induction l generalizing m a with
  | nil => exact h
  | cons x r ih => exact ih _ _ (setByte_wf m a x h)

theorem Memory.setNat_wf (m : Memory) (a n x : Nat) (h : m.wf = true) : (m.setNat a n x).wf = true := setBytes_wf _ _ _ h

theorem Memory.wipe_wf (m : Memory) (a n : Nat) (h : m.wf = true) : (m.wipe a n).wf = true := ndrop_nwf m _ _ h

theorem natOfBytes_bytesOfNat (n x : Nat) : natOfBytes (bytesOfNat n x) = x % 256 ^ n := by
  induction n generalizing x with
  | zero => simp [bytesOfNat, natOfBytes, Nat.mod_one]
  | succ n ih =>
    simp only [bytesOfNat, natOfBytes, ih, BitVec.toNat_ofNat]
    have h8 : (2 : Nat) ^ 8 = 256 := rfl
    rw [h8, show (256 : Nat) ^ (n + 1) = 256 * 256 ^ n from by ring, Nat.mod_mul]

theorem Memory.bytes_setBytes (m : Memory) (a : Nat) (l : List Byte) : (m.setBytes a l).bytes a l.length = l := by
  induction l generalizing m a with
  | nil => rfl
  | cons x r ih =>
    simp only [List.length_cons, bytes, setBytes, ih, byte_setBytes, byte_setByte]
    rw [if_neg (by omega)]; simp

/-- A number read where it was written. -/
theorem Memory.nat_setNat (m : Memory) (a n x : Nat) : (m.setNat a n x).nat a n = x % 256 ^ n := by
  rw [nat, setNat]
  have := bytes_setBytes m a (bytesOfNat n x)
  rw [bytesOfNat_length] at this
  rw [this, natOfBytes_bytesOfNat]

end Sys2Proof.Machine
end

