-- ==== Sys2Proof/Laws/State.lean ====
section
/-! SUPPORT. What each plain update of the state leaves of each field. -/

namespace Sys2Proof.Machine

/-! ## State.setTeam -/

@[simp] theorem State.setTeam_mem (s : State) (u : Nat) (f : Team → Team) : (s.setTeam u f).mem = s.mem := rfl
@[simp] theorem State.setTeam_poison (s : State) (u : Nat) (f : Team → Team) : (s.setTeam u f).poison = s.poison := rfl
@[simp] theorem State.setTeam_hist (s : State) (u : Nat) (f : Team → Team) : (s.setTeam u f).hist = s.hist := rfl
@[simp] theorem State.setTeam_nonce (s : State) (u : Nat) (f : Team → Team) : (s.setTeam u f).nonce = s.nonce := rfl
@[simp] theorem State.setTeam_agenda (s : State) (u : Nat) (f : Team → Team) : (s.setTeam u f).agenda = s.agenda := rfl
@[simp] theorem State.setTeam_cur (s : State) (u : Nat) (f : Team → Team) : (s.setTeam u f).cur = s.cur := rfl
@[simp] theorem State.setTeam_mgmt (s : State) (u : Nat) (f : Team → Team) : (s.setTeam u f).mgmt = s.mgmt := rfl
@[simp] theorem State.setTeam_staged (s : State) (u : Nat) (f : Team → Team) : (s.setTeam u f).staged = s.staged := rfl
@[simp] theorem State.setTeam_parts (s : State) (u : Nat) (f : Team → Team) : (s.setTeam u f).parts = s.parts := rfl
@[simp] theorem State.setTeam_cores (s : State) (u : Nat) (f : Team → Team) : (s.setTeam u f).cores = s.cores := rfl
@[simp] theorem State.setTeam_saved (s : State) (u : Nat) (f : Team → Team) : (s.setTeam u f).saved = s.saved := rfl
@[simp] theorem State.setTeam_launches (s : State) (u : Nat) (f : Team → Team) : (s.setTeam u f).launches = s.launches := rfl
@[simp] theorem State.setTeam_counters (s : State) (u : Nat) (f : Team → Team) : (s.setTeam u f).counters = s.counters := rfl
@[simp] theorem State.setTeam_passes (s : State) (u : Nat) (f : Team → Team) : (s.setTeam u f).passes = s.passes := rfl
@[simp] theorem State.setTeam_cancels (s : State) (u : Nat) (f : Team → Team) : (s.setTeam u f).cancels = s.cancels := rfl
@[simp] theorem State.setTeam_packets (s : State) (u : Nat) (f : Team → Team) : (s.setTeam u f).packets = s.packets := rfl
@[simp] theorem State.setTeam_pend (s : State) (u : Nat) (f : Team → Team) : (s.setTeam u f).pend = s.pend := rfl
@[simp] theorem State.setTeam_batches (s : State) (u : Nat) (f : Team → Team) : (s.setTeam u f).batches = s.batches := rfl
@[simp] theorem State.setTeam_tlb (s : State) (u : Nat) (f : Team → Team) : (s.setTeam u f).tlb = s.tlb := rfl
@[simp] theorem State.setTeam_wcache (s : State) (u : Nat) (f : Team → Team) : (s.setTeam u f).wcache = s.wcache := rfl
@[simp] theorem State.setTeam_atsc (s : State) (u : Nat) (f : Team → Team) : (s.setTeam u f).atsc = s.atsc := rfl
@[simp] theorem State.setTeam_atsq (s : State) (u : Nat) (f : Team → Team) : (s.setTeam u f).atsq = s.atsq := rfl
@[simp] theorem State.setTeam_feBad (s : State) (u : Nat) (f : Team → Team) : (s.setTeam u f).feBad = s.feBad := rfl
@[simp] theorem State.setTeam_epochs (s : State) (u : Nat) (f : Team → Team) : (s.setTeam u f).epochs = s.epochs := rfl
@[simp] theorem State.setTeam_rmap (s : State) (u : Nat) (f : Team → Team) : (s.setTeam u f).rmap = s.rmap := rfl
@[simp] theorem State.setTeam_policy (s : State) (u : Nat) (f : Team → Team) : (s.setTeam u f).policy = s.policy := rfl
@[simp] theorem State.setTeam_owners (s : State) (u : Nat) (f : Team → Team) : (s.setTeam u f).owners = s.owners := rfl
@[simp] theorem State.setTeam_wts (s : State) (u : Nat) (f : Team → Team) : (s.setTeam u f).wts = s.wts := rfl
@[simp] theorem State.setTeam_rts (s : State) (u : Nat) (f : Team → Team) : (s.setTeam u f).rts = s.rts := rfl
@[simp] theorem State.setTeam_egress (s : State) (u : Nat) (f : Team → Team) : (s.setTeam u f).egress = s.egress := rfl
@[simp] theorem State.setTeam_imports (s : State) (u : Nat) (f : Team → Team) : (s.setTeam u f).imports = s.imports := rfl
@[simp] theorem State.setTeam_extents (s : State) (u : Nat) (f : Team → Team) : (s.setTeam u f).extents = s.extents := rfl
@[simp] theorem State.setTeam_ports (s : State) (u : Nat) (f : Team → Team) : (s.setTeam u f).ports = s.ports := rfl
@[simp] theorem State.setTeam_jobs (s : State) (u : Nat) (f : Team → Team) : (s.setTeam u f).jobs = s.jobs := rfl
@[simp] theorem State.setTeam_commits (s : State) (u : Nat) (f : Team → Team) : (s.setTeam u f).commits = s.commits := rfl
@[simp] theorem State.setTeam_invals (s : State) (u : Nat) (f : Team → Team) : (s.setTeam u f).invals = s.invals := rfl
@[simp] theorem State.setTeam_quiesce (s : State) (u : Nat) (f : Team → Team) : (s.setTeam u f).quiesce = s.quiesce := rfl
@[simp] theorem State.setTeam_retired (s : State) (u : Nat) (f : Team → Team) : (s.setTeam u f).retired = s.retired := rfl
@[simp] theorem State.setTeam_reports (s : State) (u : Nat) (f : Team → Team) : (s.setTeam u f).reports = s.reports := rfl
@[simp] theorem State.setTeam_sent (s : State) (u : Nat) (f : Team → Team) : (s.setTeam u f).sent = s.sent := rfl
@[simp] theorem State.setTeam_fresh (s : State) (u : Nat) (f : Team → Team) : (s.setTeam u f).fresh = s.fresh := rfl
@[simp] theorem State.setTeam_ilines (s : State) (u : Nat) (f : Team → Team) : (s.setTeam u f).ilines = s.ilines := rfl
@[simp] theorem State.setTeam_hidden (s : State) (u : Nat) (f : Team → Team) : (s.setTeam u f).hidden = s.hidden := rfl
@[simp] theorem State.setTeam_master (s : State) (u : Nat) (f : Team → Team) : (s.setTeam u f).master = s.master := rfl
@[simp] theorem State.setTeam_lostTeams (s : State) (u : Nat) (f : Team → Team) : (s.setTeam u f).lostTeams = s.lostTeams := rfl
@[simp] theorem State.setTeam_turn (s : State) (u : Nat) (f : Team → Team) : (s.setTeam u f).turn = s.turn := rfl
@[simp] theorem State.setTeam_turns (s : State) (u : Nat) (f : Team → Team) : (s.setTeam u f).turns = s.turns := rfl
@[simp] theorem State.setTeam_fifo (s : State) (u : Nat) (f : Team → Team) : (s.setTeam u f).fifo = s.fifo := rfl
@[simp] theorem State.setTeam_images (s : State) (u : Nat) (f : Team → Team) : (s.setTeam u f).images = s.images := rfl
@[simp] theorem State.setTeam_corrected (s : State) (u : Nat) (f : Team → Team) : (s.setTeam u f).corrected = s.corrected := rfl
@[simp] theorem State.setTeam_want (s : State) (u : Nat) (f : Team → Team) : (s.setTeam u f).want = s.want := rfl
@[simp] theorem State.setTeam_svcRing (s : State) (u : Nat) (f : Team → Team) : (s.setTeam u f).svcRing = s.svcRing := rfl
@[simp] theorem State.setTeam_agents (s : State) (u : Nat) (f : Team → Team) : (s.setTeam u f).agents = s.agents := rfl

/-! ## State.setSlice -/

@[simp] theorem State.setSlice_mem (s : State) (u k : Nat) (f : Slice → Slice) : (s.setSlice u k f).mem = s.mem := rfl
@[simp] theorem State.setSlice_poison (s : State) (u k : Nat) (f : Slice → Slice) : (s.setSlice u k f).poison = s.poison := rfl
@[simp] theorem State.setSlice_hist (s : State) (u k : Nat) (f : Slice → Slice) : (s.setSlice u k f).hist = s.hist := rfl
@[simp] theorem State.setSlice_nonce (s : State) (u k : Nat) (f : Slice → Slice) : (s.setSlice u k f).nonce = s.nonce := rfl
@[simp] theorem State.setSlice_agenda (s : State) (u k : Nat) (f : Slice → Slice) : (s.setSlice u k f).agenda = s.agenda := rfl
@[simp] theorem State.setSlice_cur (s : State) (u k : Nat) (f : Slice → Slice) : (s.setSlice u k f).cur = s.cur := rfl
@[simp] theorem State.setSlice_mgmt (s : State) (u k : Nat) (f : Slice → Slice) : (s.setSlice u k f).mgmt = s.mgmt := rfl
@[simp] theorem State.setSlice_staged (s : State) (u k : Nat) (f : Slice → Slice) : (s.setSlice u k f).staged = s.staged := rfl
@[simp] theorem State.setSlice_parts (s : State) (u k : Nat) (f : Slice → Slice) : (s.setSlice u k f).parts = s.parts := rfl
@[simp] theorem State.setSlice_cores (s : State) (u k : Nat) (f : Slice → Slice) : (s.setSlice u k f).cores = s.cores := rfl
@[simp] theorem State.setSlice_saved (s : State) (u k : Nat) (f : Slice → Slice) : (s.setSlice u k f).saved = s.saved := rfl
@[simp] theorem State.setSlice_launches (s : State) (u k : Nat) (f : Slice → Slice) : (s.setSlice u k f).launches = s.launches := rfl
@[simp] theorem State.setSlice_counters (s : State) (u k : Nat) (f : Slice → Slice) : (s.setSlice u k f).counters = s.counters := rfl
@[simp] theorem State.setSlice_passes (s : State) (u k : Nat) (f : Slice → Slice) : (s.setSlice u k f).passes = s.passes := rfl
@[simp] theorem State.setSlice_cancels (s : State) (u k : Nat) (f : Slice → Slice) : (s.setSlice u k f).cancels = s.cancels := rfl
@[simp] theorem State.setSlice_packets (s : State) (u k : Nat) (f : Slice → Slice) : (s.setSlice u k f).packets = s.packets := rfl
@[simp] theorem State.setSlice_pend (s : State) (u k : Nat) (f : Slice → Slice) : (s.setSlice u k f).pend = s.pend := rfl
@[simp] theorem State.setSlice_batches (s : State) (u k : Nat) (f : Slice → Slice) : (s.setSlice u k f).batches = s.batches := rfl
@[simp] theorem State.setSlice_tlb (s : State) (u k : Nat) (f : Slice → Slice) : (s.setSlice u k f).tlb = s.tlb := rfl
@[simp] theorem State.setSlice_wcache (s : State) (u k : Nat) (f : Slice → Slice) : (s.setSlice u k f).wcache = s.wcache := rfl
@[simp] theorem State.setSlice_atsc (s : State) (u k : Nat) (f : Slice → Slice) : (s.setSlice u k f).atsc = s.atsc := rfl
@[simp] theorem State.setSlice_atsq (s : State) (u k : Nat) (f : Slice → Slice) : (s.setSlice u k f).atsq = s.atsq := rfl
@[simp] theorem State.setSlice_feBad (s : State) (u k : Nat) (f : Slice → Slice) : (s.setSlice u k f).feBad = s.feBad := rfl
@[simp] theorem State.setSlice_epochs (s : State) (u k : Nat) (f : Slice → Slice) : (s.setSlice u k f).epochs = s.epochs := rfl
@[simp] theorem State.setSlice_rmap (s : State) (u k : Nat) (f : Slice → Slice) : (s.setSlice u k f).rmap = s.rmap := rfl
@[simp] theorem State.setSlice_policy (s : State) (u k : Nat) (f : Slice → Slice) : (s.setSlice u k f).policy = s.policy := rfl
@[simp] theorem State.setSlice_owners (s : State) (u k : Nat) (f : Slice → Slice) : (s.setSlice u k f).owners = s.owners := rfl
@[simp] theorem State.setSlice_wts (s : State) (u k : Nat) (f : Slice → Slice) : (s.setSlice u k f).wts = s.wts := rfl
@[simp] theorem State.setSlice_rts (s : State) (u k : Nat) (f : Slice → Slice) : (s.setSlice u k f).rts = s.rts := rfl
@[simp] theorem State.setSlice_egress (s : State) (u k : Nat) (f : Slice → Slice) : (s.setSlice u k f).egress = s.egress := rfl
@[simp] theorem State.setSlice_imports (s : State) (u k : Nat) (f : Slice → Slice) : (s.setSlice u k f).imports = s.imports := rfl
@[simp] theorem State.setSlice_extents (s : State) (u k : Nat) (f : Slice → Slice) : (s.setSlice u k f).extents = s.extents := rfl
@[simp] theorem State.setSlice_ports (s : State) (u k : Nat) (f : Slice → Slice) : (s.setSlice u k f).ports = s.ports := rfl
@[simp] theorem State.setSlice_jobs (s : State) (u k : Nat) (f : Slice → Slice) : (s.setSlice u k f).jobs = s.jobs := rfl
@[simp] theorem State.setSlice_commits (s : State) (u k : Nat) (f : Slice → Slice) : (s.setSlice u k f).commits = s.commits := rfl
@[simp] theorem State.setSlice_invals (s : State) (u k : Nat) (f : Slice → Slice) : (s.setSlice u k f).invals = s.invals := rfl
@[simp] theorem State.setSlice_quiesce (s : State) (u k : Nat) (f : Slice → Slice) : (s.setSlice u k f).quiesce = s.quiesce := rfl
@[simp] theorem State.setSlice_retired (s : State) (u k : Nat) (f : Slice → Slice) : (s.setSlice u k f).retired = s.retired := rfl
@[simp] theorem State.setSlice_reports (s : State) (u k : Nat) (f : Slice → Slice) : (s.setSlice u k f).reports = s.reports := rfl
@[simp] theorem State.setSlice_sent (s : State) (u k : Nat) (f : Slice → Slice) : (s.setSlice u k f).sent = s.sent := rfl
@[simp] theorem State.setSlice_fresh (s : State) (u k : Nat) (f : Slice → Slice) : (s.setSlice u k f).fresh = s.fresh := rfl
@[simp] theorem State.setSlice_ilines (s : State) (u k : Nat) (f : Slice → Slice) : (s.setSlice u k f).ilines = s.ilines := rfl
@[simp] theorem State.setSlice_hidden (s : State) (u k : Nat) (f : Slice → Slice) : (s.setSlice u k f).hidden = s.hidden := rfl
@[simp] theorem State.setSlice_master (s : State) (u k : Nat) (f : Slice → Slice) : (s.setSlice u k f).master = s.master := rfl
@[simp] theorem State.setSlice_lostTeams (s : State) (u k : Nat) (f : Slice → Slice) : (s.setSlice u k f).lostTeams = s.lostTeams := rfl
@[simp] theorem State.setSlice_turn (s : State) (u k : Nat) (f : Slice → Slice) : (s.setSlice u k f).turn = s.turn := rfl
@[simp] theorem State.setSlice_turns (s : State) (u k : Nat) (f : Slice → Slice) : (s.setSlice u k f).turns = s.turns := rfl
@[simp] theorem State.setSlice_fifo (s : State) (u k : Nat) (f : Slice → Slice) : (s.setSlice u k f).fifo = s.fifo := rfl
@[simp] theorem State.setSlice_images (s : State) (u k : Nat) (f : Slice → Slice) : (s.setSlice u k f).images = s.images := rfl
@[simp] theorem State.setSlice_corrected (s : State) (u k : Nat) (f : Slice → Slice) : (s.setSlice u k f).corrected = s.corrected := rfl
@[simp] theorem State.setSlice_want (s : State) (u k : Nat) (f : Slice → Slice) : (s.setSlice u k f).want = s.want := rfl
@[simp] theorem State.setSlice_svcRing (s : State) (u k : Nat) (f : Slice → Slice) : (s.setSlice u k f).svcRing = s.svcRing := rfl
@[simp] theorem State.setSlice_agents (s : State) (u k : Nat) (f : Slice → Slice) : (s.setSlice u k f).agents = s.agents := rfl

/-! ## State.setLaunch -/

@[simp] theorem State.setLaunch_mem (s : State) (l : Nat) (f : Launch → Launch) : (s.setLaunch l f).mem = s.mem := rfl
@[simp] theorem State.setLaunch_poison (s : State) (l : Nat) (f : Launch → Launch) : (s.setLaunch l f).poison = s.poison := rfl
@[simp] theorem State.setLaunch_hist (s : State) (l : Nat) (f : Launch → Launch) : (s.setLaunch l f).hist = s.hist := rfl
@[simp] theorem State.setLaunch_nonce (s : State) (l : Nat) (f : Launch → Launch) : (s.setLaunch l f).nonce = s.nonce := rfl
@[simp] theorem State.setLaunch_agenda (s : State) (l : Nat) (f : Launch → Launch) : (s.setLaunch l f).agenda = s.agenda := rfl
@[simp] theorem State.setLaunch_cur (s : State) (l : Nat) (f : Launch → Launch) : (s.setLaunch l f).cur = s.cur := rfl
@[simp] theorem State.setLaunch_mgmt (s : State) (l : Nat) (f : Launch → Launch) : (s.setLaunch l f).mgmt = s.mgmt := rfl
@[simp] theorem State.setLaunch_staged (s : State) (l : Nat) (f : Launch → Launch) : (s.setLaunch l f).staged = s.staged := rfl
@[simp] theorem State.setLaunch_parts (s : State) (l : Nat) (f : Launch → Launch) : (s.setLaunch l f).parts = s.parts := rfl
@[simp] theorem State.setLaunch_cores (s : State) (l : Nat) (f : Launch → Launch) : (s.setLaunch l f).cores = s.cores := rfl
@[simp] theorem State.setLaunch_teams (s : State) (l : Nat) (f : Launch → Launch) : (s.setLaunch l f).teams = s.teams := rfl
@[simp] theorem State.setLaunch_saved (s : State) (l : Nat) (f : Launch → Launch) : (s.setLaunch l f).saved = s.saved := rfl
@[simp] theorem State.setLaunch_counters (s : State) (l : Nat) (f : Launch → Launch) : (s.setLaunch l f).counters = s.counters := rfl
@[simp] theorem State.setLaunch_passes (s : State) (l : Nat) (f : Launch → Launch) : (s.setLaunch l f).passes = s.passes := rfl
@[simp] theorem State.setLaunch_cancels (s : State) (l : Nat) (f : Launch → Launch) : (s.setLaunch l f).cancels = s.cancels := rfl
@[simp] theorem State.setLaunch_packets (s : State) (l : Nat) (f : Launch → Launch) : (s.setLaunch l f).packets = s.packets := rfl
@[simp] theorem State.setLaunch_pend (s : State) (l : Nat) (f : Launch → Launch) : (s.setLaunch l f).pend = s.pend := rfl
@[simp] theorem State.setLaunch_batches (s : State) (l : Nat) (f : Launch → Launch) : (s.setLaunch l f).batches = s.batches := rfl
@[simp] theorem State.setLaunch_tlb (s : State) (l : Nat) (f : Launch → Launch) : (s.setLaunch l f).tlb = s.tlb := rfl
@[simp] theorem State.setLaunch_wcache (s : State) (l : Nat) (f : Launch → Launch) : (s.setLaunch l f).wcache = s.wcache := rfl
@[simp] theorem State.setLaunch_atsc (s : State) (l : Nat) (f : Launch → Launch) : (s.setLaunch l f).atsc = s.atsc := rfl
@[simp] theorem State.setLaunch_atsq (s : State) (l : Nat) (f : Launch → Launch) : (s.setLaunch l f).atsq = s.atsq := rfl
@[simp] theorem State.setLaunch_feBad (s : State) (l : Nat) (f : Launch → Launch) : (s.setLaunch l f).feBad = s.feBad := rfl
@[simp] theorem State.setLaunch_epochs (s : State) (l : Nat) (f : Launch → Launch) : (s.setLaunch l f).epochs = s.epochs := rfl
@[simp] theorem State.setLaunch_rmap (s : State) (l : Nat) (f : Launch → Launch) : (s.setLaunch l f).rmap = s.rmap := rfl
@[simp] theorem State.setLaunch_policy (s : State) (l : Nat) (f : Launch → Launch) : (s.setLaunch l f).policy = s.policy := rfl
@[simp] theorem State.setLaunch_owners (s : State) (l : Nat) (f : Launch → Launch) : (s.setLaunch l f).owners = s.owners := rfl
@[simp] theorem State.setLaunch_wts (s : State) (l : Nat) (f : Launch → Launch) : (s.setLaunch l f).wts = s.wts := rfl
@[simp] theorem State.setLaunch_rts (s : State) (l : Nat) (f : Launch → Launch) : (s.setLaunch l f).rts = s.rts := rfl
@[simp] theorem State.setLaunch_egress (s : State) (l : Nat) (f : Launch → Launch) : (s.setLaunch l f).egress = s.egress := rfl
@[simp] theorem State.setLaunch_imports (s : State) (l : Nat) (f : Launch → Launch) : (s.setLaunch l f).imports = s.imports := rfl
@[simp] theorem State.setLaunch_extents (s : State) (l : Nat) (f : Launch → Launch) : (s.setLaunch l f).extents = s.extents := rfl
@[simp] theorem State.setLaunch_ports (s : State) (l : Nat) (f : Launch → Launch) : (s.setLaunch l f).ports = s.ports := rfl
@[simp] theorem State.setLaunch_jobs (s : State) (l : Nat) (f : Launch → Launch) : (s.setLaunch l f).jobs = s.jobs := rfl
@[simp] theorem State.setLaunch_commits (s : State) (l : Nat) (f : Launch → Launch) : (s.setLaunch l f).commits = s.commits := rfl
@[simp] theorem State.setLaunch_invals (s : State) (l : Nat) (f : Launch → Launch) : (s.setLaunch l f).invals = s.invals := rfl
@[simp] theorem State.setLaunch_quiesce (s : State) (l : Nat) (f : Launch → Launch) : (s.setLaunch l f).quiesce = s.quiesce := rfl
@[simp] theorem State.setLaunch_retired (s : State) (l : Nat) (f : Launch → Launch) : (s.setLaunch l f).retired = s.retired := rfl
@[simp] theorem State.setLaunch_reports (s : State) (l : Nat) (f : Launch → Launch) : (s.setLaunch l f).reports = s.reports := rfl
@[simp] theorem State.setLaunch_sent (s : State) (l : Nat) (f : Launch → Launch) : (s.setLaunch l f).sent = s.sent := rfl
@[simp] theorem State.setLaunch_fresh (s : State) (l : Nat) (f : Launch → Launch) : (s.setLaunch l f).fresh = s.fresh := rfl
@[simp] theorem State.setLaunch_ilines (s : State) (l : Nat) (f : Launch → Launch) : (s.setLaunch l f).ilines = s.ilines := rfl
@[simp] theorem State.setLaunch_hidden (s : State) (l : Nat) (f : Launch → Launch) : (s.setLaunch l f).hidden = s.hidden := rfl
@[simp] theorem State.setLaunch_master (s : State) (l : Nat) (f : Launch → Launch) : (s.setLaunch l f).master = s.master := rfl
@[simp] theorem State.setLaunch_lostTeams (s : State) (l : Nat) (f : Launch → Launch) : (s.setLaunch l f).lostTeams = s.lostTeams := rfl
@[simp] theorem State.setLaunch_turn (s : State) (l : Nat) (f : Launch → Launch) : (s.setLaunch l f).turn = s.turn := rfl
@[simp] theorem State.setLaunch_turns (s : State) (l : Nat) (f : Launch → Launch) : (s.setLaunch l f).turns = s.turns := rfl
@[simp] theorem State.setLaunch_fifo (s : State) (l : Nat) (f : Launch → Launch) : (s.setLaunch l f).fifo = s.fifo := rfl
@[simp] theorem State.setLaunch_images (s : State) (l : Nat) (f : Launch → Launch) : (s.setLaunch l f).images = s.images := rfl
@[simp] theorem State.setLaunch_corrected (s : State) (l : Nat) (f : Launch → Launch) : (s.setLaunch l f).corrected = s.corrected := rfl
@[simp] theorem State.setLaunch_want (s : State) (l : Nat) (f : Launch → Launch) : (s.setLaunch l f).want = s.want := rfl
@[simp] theorem State.setLaunch_svcRing (s : State) (l : Nat) (f : Launch → Launch) : (s.setLaunch l f).svcRing = s.svcRing := rfl
@[simp] theorem State.setLaunch_agents (s : State) (l : Nat) (f : Launch → Launch) : (s.setLaunch l f).agents = s.agents := rfl

/-! ## State.setPart -/

@[simp] theorem State.setPart_mem (s : State) (p : Nat) (f : Part → Part) : (s.setPart p f).mem = s.mem := rfl
@[simp] theorem State.setPart_poison (s : State) (p : Nat) (f : Part → Part) : (s.setPart p f).poison = s.poison := rfl
@[simp] theorem State.setPart_hist (s : State) (p : Nat) (f : Part → Part) : (s.setPart p f).hist = s.hist := rfl
@[simp] theorem State.setPart_nonce (s : State) (p : Nat) (f : Part → Part) : (s.setPart p f).nonce = s.nonce := rfl
@[simp] theorem State.setPart_agenda (s : State) (p : Nat) (f : Part → Part) : (s.setPart p f).agenda = s.agenda := rfl
@[simp] theorem State.setPart_cur (s : State) (p : Nat) (f : Part → Part) : (s.setPart p f).cur = s.cur := rfl
@[simp] theorem State.setPart_mgmt (s : State) (p : Nat) (f : Part → Part) : (s.setPart p f).mgmt = s.mgmt := rfl
@[simp] theorem State.setPart_staged (s : State) (p : Nat) (f : Part → Part) : (s.setPart p f).staged = s.staged := rfl
@[simp] theorem State.setPart_cores (s : State) (p : Nat) (f : Part → Part) : (s.setPart p f).cores = s.cores := rfl
@[simp] theorem State.setPart_teams (s : State) (p : Nat) (f : Part → Part) : (s.setPart p f).teams = s.teams := rfl
@[simp] theorem State.setPart_saved (s : State) (p : Nat) (f : Part → Part) : (s.setPart p f).saved = s.saved := rfl
@[simp] theorem State.setPart_launches (s : State) (p : Nat) (f : Part → Part) : (s.setPart p f).launches = s.launches := rfl
@[simp] theorem State.setPart_counters (s : State) (p : Nat) (f : Part → Part) : (s.setPart p f).counters = s.counters := rfl
@[simp] theorem State.setPart_passes (s : State) (p : Nat) (f : Part → Part) : (s.setPart p f).passes = s.passes := rfl
@[simp] theorem State.setPart_cancels (s : State) (p : Nat) (f : Part → Part) : (s.setPart p f).cancels = s.cancels := rfl
@[simp] theorem State.setPart_packets (s : State) (p : Nat) (f : Part → Part) : (s.setPart p f).packets = s.packets := rfl
@[simp] theorem State.setPart_pend (s : State) (p : Nat) (f : Part → Part) : (s.setPart p f).pend = s.pend := rfl
@[simp] theorem State.setPart_batches (s : State) (p : Nat) (f : Part → Part) : (s.setPart p f).batches = s.batches := rfl
@[simp] theorem State.setPart_tlb (s : State) (p : Nat) (f : Part → Part) : (s.setPart p f).tlb = s.tlb := rfl
@[simp] theorem State.setPart_wcache (s : State) (p : Nat) (f : Part → Part) : (s.setPart p f).wcache = s.wcache := rfl
@[simp] theorem State.setPart_atsc (s : State) (p : Nat) (f : Part → Part) : (s.setPart p f).atsc = s.atsc := rfl
@[simp] theorem State.setPart_atsq (s : State) (p : Nat) (f : Part → Part) : (s.setPart p f).atsq = s.atsq := rfl
@[simp] theorem State.setPart_feBad (s : State) (p : Nat) (f : Part → Part) : (s.setPart p f).feBad = s.feBad := rfl
@[simp] theorem State.setPart_epochs (s : State) (p : Nat) (f : Part → Part) : (s.setPart p f).epochs = s.epochs := rfl
@[simp] theorem State.setPart_rmap (s : State) (p : Nat) (f : Part → Part) : (s.setPart p f).rmap = s.rmap := rfl
@[simp] theorem State.setPart_policy (s : State) (p : Nat) (f : Part → Part) : (s.setPart p f).policy = s.policy := rfl
@[simp] theorem State.setPart_owners (s : State) (p : Nat) (f : Part → Part) : (s.setPart p f).owners = s.owners := rfl
@[simp] theorem State.setPart_wts (s : State) (p : Nat) (f : Part → Part) : (s.setPart p f).wts = s.wts := rfl
@[simp] theorem State.setPart_rts (s : State) (p : Nat) (f : Part → Part) : (s.setPart p f).rts = s.rts := rfl
@[simp] theorem State.setPart_egress (s : State) (p : Nat) (f : Part → Part) : (s.setPart p f).egress = s.egress := rfl
@[simp] theorem State.setPart_imports (s : State) (p : Nat) (f : Part → Part) : (s.setPart p f).imports = s.imports := rfl
@[simp] theorem State.setPart_extents (s : State) (p : Nat) (f : Part → Part) : (s.setPart p f).extents = s.extents := rfl
@[simp] theorem State.setPart_ports (s : State) (p : Nat) (f : Part → Part) : (s.setPart p f).ports = s.ports := rfl
@[simp] theorem State.setPart_jobs (s : State) (p : Nat) (f : Part → Part) : (s.setPart p f).jobs = s.jobs := rfl
@[simp] theorem State.setPart_commits (s : State) (p : Nat) (f : Part → Part) : (s.setPart p f).commits = s.commits := rfl
@[simp] theorem State.setPart_invals (s : State) (p : Nat) (f : Part → Part) : (s.setPart p f).invals = s.invals := rfl
@[simp] theorem State.setPart_quiesce (s : State) (p : Nat) (f : Part → Part) : (s.setPart p f).quiesce = s.quiesce := rfl
@[simp] theorem State.setPart_retired (s : State) (p : Nat) (f : Part → Part) : (s.setPart p f).retired = s.retired := rfl
@[simp] theorem State.setPart_reports (s : State) (p : Nat) (f : Part → Part) : (s.setPart p f).reports = s.reports := rfl
@[simp] theorem State.setPart_sent (s : State) (p : Nat) (f : Part → Part) : (s.setPart p f).sent = s.sent := rfl
@[simp] theorem State.setPart_fresh (s : State) (p : Nat) (f : Part → Part) : (s.setPart p f).fresh = s.fresh := rfl
@[simp] theorem State.setPart_ilines (s : State) (p : Nat) (f : Part → Part) : (s.setPart p f).ilines = s.ilines := rfl
@[simp] theorem State.setPart_hidden (s : State) (p : Nat) (f : Part → Part) : (s.setPart p f).hidden = s.hidden := rfl
@[simp] theorem State.setPart_master (s : State) (p : Nat) (f : Part → Part) : (s.setPart p f).master = s.master := rfl
@[simp] theorem State.setPart_lostTeams (s : State) (p : Nat) (f : Part → Part) : (s.setPart p f).lostTeams = s.lostTeams := rfl
@[simp] theorem State.setPart_turn (s : State) (p : Nat) (f : Part → Part) : (s.setPart p f).turn = s.turn := rfl
@[simp] theorem State.setPart_turns (s : State) (p : Nat) (f : Part → Part) : (s.setPart p f).turns = s.turns := rfl
@[simp] theorem State.setPart_fifo (s : State) (p : Nat) (f : Part → Part) : (s.setPart p f).fifo = s.fifo := rfl
@[simp] theorem State.setPart_images (s : State) (p : Nat) (f : Part → Part) : (s.setPart p f).images = s.images := rfl
@[simp] theorem State.setPart_corrected (s : State) (p : Nat) (f : Part → Part) : (s.setPart p f).corrected = s.corrected := rfl
@[simp] theorem State.setPart_want (s : State) (p : Nat) (f : Part → Part) : (s.setPart p f).want = s.want := rfl
@[simp] theorem State.setPart_svcRing (s : State) (p : Nat) (f : Part → Part) : (s.setPart p f).svcRing = s.svcRing := rfl
@[simp] theorem State.setPart_agents (s : State) (p : Nat) (f : Part → Part) : (s.setPart p f).agents = s.agents := rfl

/-! ## State.msix -/

@[simp] theorem State.msix_mem (s : State) (fn v : Nat) : (s.msix fn v).mem = s.mem := rfl
@[simp] theorem State.msix_poison (s : State) (fn v : Nat) : (s.msix fn v).poison = s.poison := rfl
@[simp] theorem State.msix_hist (s : State) (fn v : Nat) : (s.msix fn v).hist = s.hist := rfl
@[simp] theorem State.msix_nonce (s : State) (fn v : Nat) : (s.msix fn v).nonce = s.nonce := rfl
@[simp] theorem State.msix_agenda (s : State) (fn v : Nat) : (s.msix fn v).agenda = s.agenda := rfl
@[simp] theorem State.msix_cur (s : State) (fn v : Nat) : (s.msix fn v).cur = s.cur := rfl
@[simp] theorem State.msix_mgmt (s : State) (fn v : Nat) : (s.msix fn v).mgmt = s.mgmt := rfl
@[simp] theorem State.msix_staged (s : State) (fn v : Nat) : (s.msix fn v).staged = s.staged := rfl
@[simp] theorem State.msix_parts (s : State) (fn v : Nat) : (s.msix fn v).parts = s.parts := rfl
@[simp] theorem State.msix_cores (s : State) (fn v : Nat) : (s.msix fn v).cores = s.cores := rfl
@[simp] theorem State.msix_teams (s : State) (fn v : Nat) : (s.msix fn v).teams = s.teams := rfl
@[simp] theorem State.msix_saved (s : State) (fn v : Nat) : (s.msix fn v).saved = s.saved := rfl
@[simp] theorem State.msix_launches (s : State) (fn v : Nat) : (s.msix fn v).launches = s.launches := rfl
@[simp] theorem State.msix_counters (s : State) (fn v : Nat) : (s.msix fn v).counters = s.counters := rfl
@[simp] theorem State.msix_passes (s : State) (fn v : Nat) : (s.msix fn v).passes = s.passes := rfl
@[simp] theorem State.msix_cancels (s : State) (fn v : Nat) : (s.msix fn v).cancels = s.cancels := rfl
@[simp] theorem State.msix_packets (s : State) (fn v : Nat) : (s.msix fn v).packets = s.packets := rfl
@[simp] theorem State.msix_pend (s : State) (fn v : Nat) : (s.msix fn v).pend = s.pend := rfl
@[simp] theorem State.msix_batches (s : State) (fn v : Nat) : (s.msix fn v).batches = s.batches := rfl
@[simp] theorem State.msix_tlb (s : State) (fn v : Nat) : (s.msix fn v).tlb = s.tlb := rfl
@[simp] theorem State.msix_wcache (s : State) (fn v : Nat) : (s.msix fn v).wcache = s.wcache := rfl
@[simp] theorem State.msix_atsc (s : State) (fn v : Nat) : (s.msix fn v).atsc = s.atsc := rfl
@[simp] theorem State.msix_atsq (s : State) (fn v : Nat) : (s.msix fn v).atsq = s.atsq := rfl
@[simp] theorem State.msix_feBad (s : State) (fn v : Nat) : (s.msix fn v).feBad = s.feBad := rfl
@[simp] theorem State.msix_epochs (s : State) (fn v : Nat) : (s.msix fn v).epochs = s.epochs := rfl
@[simp] theorem State.msix_rmap (s : State) (fn v : Nat) : (s.msix fn v).rmap = s.rmap := rfl
@[simp] theorem State.msix_policy (s : State) (fn v : Nat) : (s.msix fn v).policy = s.policy := rfl
@[simp] theorem State.msix_owners (s : State) (fn v : Nat) : (s.msix fn v).owners = s.owners := rfl
@[simp] theorem State.msix_wts (s : State) (fn v : Nat) : (s.msix fn v).wts = s.wts := rfl
@[simp] theorem State.msix_rts (s : State) (fn v : Nat) : (s.msix fn v).rts = s.rts := rfl
@[simp] theorem State.msix_egress (s : State) (fn v : Nat) : (s.msix fn v).egress = s.egress := rfl
@[simp] theorem State.msix_imports (s : State) (fn v : Nat) : (s.msix fn v).imports = s.imports := rfl
@[simp] theorem State.msix_extents (s : State) (fn v : Nat) : (s.msix fn v).extents = s.extents := rfl
@[simp] theorem State.msix_ports (s : State) (fn v : Nat) : (s.msix fn v).ports = s.ports := rfl
@[simp] theorem State.msix_jobs (s : State) (fn v : Nat) : (s.msix fn v).jobs = s.jobs := rfl
@[simp] theorem State.msix_commits (s : State) (fn v : Nat) : (s.msix fn v).commits = s.commits := rfl
@[simp] theorem State.msix_invals (s : State) (fn v : Nat) : (s.msix fn v).invals = s.invals := rfl
@[simp] theorem State.msix_quiesce (s : State) (fn v : Nat) : (s.msix fn v).quiesce = s.quiesce := rfl
@[simp] theorem State.msix_retired (s : State) (fn v : Nat) : (s.msix fn v).retired = s.retired := rfl
@[simp] theorem State.msix_reports (s : State) (fn v : Nat) : (s.msix fn v).reports = s.reports := rfl
@[simp] theorem State.msix_fresh (s : State) (fn v : Nat) : (s.msix fn v).fresh = s.fresh := rfl
@[simp] theorem State.msix_ilines (s : State) (fn v : Nat) : (s.msix fn v).ilines = s.ilines := rfl
@[simp] theorem State.msix_hidden (s : State) (fn v : Nat) : (s.msix fn v).hidden = s.hidden := rfl
@[simp] theorem State.msix_master (s : State) (fn v : Nat) : (s.msix fn v).master = s.master := rfl
@[simp] theorem State.msix_lostTeams (s : State) (fn v : Nat) : (s.msix fn v).lostTeams = s.lostTeams := rfl
@[simp] theorem State.msix_turn (s : State) (fn v : Nat) : (s.msix fn v).turn = s.turn := rfl
@[simp] theorem State.msix_turns (s : State) (fn v : Nat) : (s.msix fn v).turns = s.turns := rfl
@[simp] theorem State.msix_fifo (s : State) (fn v : Nat) : (s.msix fn v).fifo = s.fifo := rfl
@[simp] theorem State.msix_images (s : State) (fn v : Nat) : (s.msix fn v).images = s.images := rfl
@[simp] theorem State.msix_corrected (s : State) (fn v : Nat) : (s.msix fn v).corrected = s.corrected := rfl
@[simp] theorem State.msix_want (s : State) (fn v : Nat) : (s.msix fn v).want = s.want := rfl
@[simp] theorem State.msix_svcRing (s : State) (fn v : Nat) : (s.msix fn v).svcRing = s.svcRing := rfl
@[simp] theorem State.msix_agents (s : State) (fn v : Nat) : (s.msix fn v).agents = s.agents := rfl

/-! ## Team.setSlice -/

@[simp] theorem Team.setSlice_uid (t : Team) (k : Nat) (f : Slice → Slice) : (t.setSlice k f).uid = t.uid := rfl
@[simp] theorem Team.setSlice_launch (t : Team) (k : Nat) (f : Slice → Slice) : (t.setSlice k f).launch = t.launch := rfl
@[simp] theorem Team.setSlice_part (t : Team) (k : Nat) (f : Slice → Slice) : (t.setSlice k f).part = t.part := rfl
@[simp] theorem Team.setSlice_asid (t : Team) (k : Nat) (f : Slice → Slice) : (t.setSlice k f).asid = t.asid := rfl
@[simp] theorem Team.setSlice_record (t : Team) (k : Nat) (f : Slice → Slice) : (t.setSlice k f).record = t.record := rfl
@[simp] theorem Team.setSlice_roles (t : Team) (k : Nat) (f : Slice → Slice) : (t.setSlice k f).roles = t.roles := rfl
@[simp] theorem Team.setSlice_no (t : Team) (k : Nat) (f : Slice → Slice) : (t.setSlice k f).no = t.no := rfl
@[simp] theorem Team.setSlice_core (t : Team) (k : Nat) (f : Slice → Slice) : (t.setSlice k f).core = t.core := rfl
@[simp] theorem Team.setSlice_st (t : Team) (k : Nat) (f : Slice → Slice) : (t.setSlice k f).st = t.st := rfl
@[simp] theorem Team.setSlice_halt (t : Team) (k : Nat) (f : Slice → Slice) : (t.setSlice k f).halt = t.halt := rfl
@[simp] theorem Team.setSlice_subs (t : Team) (k : Nat) (f : Slice → Slice) : (t.setSlice k f).subs = t.subs := rfl
@[simp] theorem Team.setSlice_joins (t : Team) (k : Nat) (f : Slice → Slice) : (t.setSlice k f).joins = t.joins := rfl
@[simp] theorem Team.setSlice_bars (t : Team) (k : Nat) (f : Slice → Slice) : (t.setSlice k f).bars = t.bars := rfl
@[simp] theorem Team.setSlice_pool (t : Team) (k : Nat) (f : Slice → Slice) : (t.setSlice k f).pool = t.pool := rfl
@[simp] theorem Team.setSlice_claims (t : Team) (k : Nat) (f : Slice → Slice) : (t.setSlice k f).claims = t.claims := rfl
@[simp] theorem Team.setSlice_gather (t : Team) (k : Nat) (f : Slice → Slice) : (t.setSlice k f).gather = t.gather := rfl
@[simp] theorem Team.setSlice_asked (t : Team) (k : Nat) (f : Slice → Slice) : (t.setSlice k f).asked = t.asked := rfl
@[simp] theorem Team.setSlice_answer (t : Team) (k : Nat) (f : Slice → Slice) : (t.setSlice k f).answer = t.answer := rfl
@[simp] theorem Team.setSlice_work (t : Team) (k : Nat) (f : Slice → Slice) : (t.setSlice k f).work = t.work := rfl
@[simp] theorem Team.setSlice_lo (t : Team) (k : Nat) (f : Slice → Slice) : (t.setSlice k f).lo = t.lo := rfl
@[simp] theorem Team.setSlice_hi (t : Team) (k : Nat) (f : Slice → Slice) : (t.setSlice k f).hi = t.hi := rfl
@[simp] theorem Team.setSlice_cmds (t : Team) (k : Nat) (f : Slice → Slice) : (t.setSlice k f).cmds = t.cmds := rfl
@[simp] theorem Team.setSlice_energy (t : Team) (k : Nat) (f : Slice → Slice) : (t.setSlice k f).energy = t.energy := rfl
@[simp] theorem Team.setSlice_esat (t : Team) (k : Nat) (f : Slice → Slice) : (t.setSlice k f).esat = t.esat := rfl
@[simp] theorem Team.setSlice_scratch (t : Team) (k : Nat) (f : Slice → Slice) : (t.setSlice k f).scratch = t.scratch := rfl
@[simp] theorem Team.setSlice_resid (t : Team) (k : Nat) (f : Slice → Slice) : (t.setSlice k f).resid = t.resid := rfl
@[simp] theorem Team.setSlice_haltAt (t : Team) (k : Nat) (f : Slice → Slice) : (t.setSlice k f).haltAt = t.haltAt := rfl
@[simp] theorem Team.setSlice_owed (t : Team) (k : Nat) (f : Slice → Slice) : (t.setSlice k f).owed = t.owed := rfl
@[simp] theorem Team.setSlice_lines (t : Team) (k : Nat) (f : Slice → Slice) : (t.setSlice k f).lines = t.lines := rfl

/-! ## Team.onMembers -/

@[simp] theorem Team.onMembers_uid (t : Team) (ms : List Nat) (f : Slice → Slice) : (t.onMembers ms f).uid = t.uid := rfl
@[simp] theorem Team.onMembers_launch (t : Team) (ms : List Nat) (f : Slice → Slice) : (t.onMembers ms f).launch = t.launch := rfl
@[simp] theorem Team.onMembers_part (t : Team) (ms : List Nat) (f : Slice → Slice) : (t.onMembers ms f).part = t.part := rfl
@[simp] theorem Team.onMembers_asid (t : Team) (ms : List Nat) (f : Slice → Slice) : (t.onMembers ms f).asid = t.asid := rfl
@[simp] theorem Team.onMembers_record (t : Team) (ms : List Nat) (f : Slice → Slice) : (t.onMembers ms f).record = t.record := rfl
@[simp] theorem Team.onMembers_roles (t : Team) (ms : List Nat) (f : Slice → Slice) : (t.onMembers ms f).roles = t.roles := rfl
@[simp] theorem Team.onMembers_no (t : Team) (ms : List Nat) (f : Slice → Slice) : (t.onMembers ms f).no = t.no := rfl
@[simp] theorem Team.onMembers_core (t : Team) (ms : List Nat) (f : Slice → Slice) : (t.onMembers ms f).core = t.core := rfl
@[simp] theorem Team.onMembers_st (t : Team) (ms : List Nat) (f : Slice → Slice) : (t.onMembers ms f).st = t.st := rfl
@[simp] theorem Team.onMembers_halt (t : Team) (ms : List Nat) (f : Slice → Slice) : (t.onMembers ms f).halt = t.halt := rfl
@[simp] theorem Team.onMembers_subs (t : Team) (ms : List Nat) (f : Slice → Slice) : (t.onMembers ms f).subs = t.subs := rfl
@[simp] theorem Team.onMembers_joins (t : Team) (ms : List Nat) (f : Slice → Slice) : (t.onMembers ms f).joins = t.joins := rfl
@[simp] theorem Team.onMembers_bars (t : Team) (ms : List Nat) (f : Slice → Slice) : (t.onMembers ms f).bars = t.bars := rfl
@[simp] theorem Team.onMembers_pool (t : Team) (ms : List Nat) (f : Slice → Slice) : (t.onMembers ms f).pool = t.pool := rfl
@[simp] theorem Team.onMembers_claims (t : Team) (ms : List Nat) (f : Slice → Slice) : (t.onMembers ms f).claims = t.claims := rfl
@[simp] theorem Team.onMembers_gather (t : Team) (ms : List Nat) (f : Slice → Slice) : (t.onMembers ms f).gather = t.gather := rfl
@[simp] theorem Team.onMembers_asked (t : Team) (ms : List Nat) (f : Slice → Slice) : (t.onMembers ms f).asked = t.asked := rfl
@[simp] theorem Team.onMembers_answer (t : Team) (ms : List Nat) (f : Slice → Slice) : (t.onMembers ms f).answer = t.answer := rfl
@[simp] theorem Team.onMembers_work (t : Team) (ms : List Nat) (f : Slice → Slice) : (t.onMembers ms f).work = t.work := rfl
@[simp] theorem Team.onMembers_lo (t : Team) (ms : List Nat) (f : Slice → Slice) : (t.onMembers ms f).lo = t.lo := rfl
@[simp] theorem Team.onMembers_hi (t : Team) (ms : List Nat) (f : Slice → Slice) : (t.onMembers ms f).hi = t.hi := rfl
@[simp] theorem Team.onMembers_cmds (t : Team) (ms : List Nat) (f : Slice → Slice) : (t.onMembers ms f).cmds = t.cmds := rfl
@[simp] theorem Team.onMembers_energy (t : Team) (ms : List Nat) (f : Slice → Slice) : (t.onMembers ms f).energy = t.energy := rfl
@[simp] theorem Team.onMembers_esat (t : Team) (ms : List Nat) (f : Slice → Slice) : (t.onMembers ms f).esat = t.esat := rfl
@[simp] theorem Team.onMembers_scratch (t : Team) (ms : List Nat) (f : Slice → Slice) : (t.onMembers ms f).scratch = t.scratch := rfl
@[simp] theorem Team.onMembers_resid (t : Team) (ms : List Nat) (f : Slice → Slice) : (t.onMembers ms f).resid = t.resid := rfl
@[simp] theorem Team.onMembers_haltAt (t : Team) (ms : List Nat) (f : Slice → Slice) : (t.onMembers ms f).haltAt = t.haltAt := rfl
@[simp] theorem Team.onMembers_owed (t : Team) (ms : List Nat) (f : Slice → Slice) : (t.onMembers ms f).owed = t.owed := rfl
@[simp] theorem Team.onMembers_lines (t : Team) (ms : List Nat) (f : Slice → Slice) : (t.onMembers ms f).lines = t.lines := rfl

/-! ## Team.setSub -/

@[simp] theorem Team.setSub_uid (t : Team) (k : Nat) (f : SubCrew → SubCrew) : (t.setSub k f).uid = t.uid := rfl
@[simp] theorem Team.setSub_launch (t : Team) (k : Nat) (f : SubCrew → SubCrew) : (t.setSub k f).launch = t.launch := rfl
@[simp] theorem Team.setSub_part (t : Team) (k : Nat) (f : SubCrew → SubCrew) : (t.setSub k f).part = t.part := rfl
@[simp] theorem Team.setSub_asid (t : Team) (k : Nat) (f : SubCrew → SubCrew) : (t.setSub k f).asid = t.asid := rfl
@[simp] theorem Team.setSub_record (t : Team) (k : Nat) (f : SubCrew → SubCrew) : (t.setSub k f).record = t.record := rfl
@[simp] theorem Team.setSub_roles (t : Team) (k : Nat) (f : SubCrew → SubCrew) : (t.setSub k f).roles = t.roles := rfl
@[simp] theorem Team.setSub_no (t : Team) (k : Nat) (f : SubCrew → SubCrew) : (t.setSub k f).no = t.no := rfl
@[simp] theorem Team.setSub_core (t : Team) (k : Nat) (f : SubCrew → SubCrew) : (t.setSub k f).core = t.core := rfl
@[simp] theorem Team.setSub_st (t : Team) (k : Nat) (f : SubCrew → SubCrew) : (t.setSub k f).st = t.st := rfl
@[simp] theorem Team.setSub_halt (t : Team) (k : Nat) (f : SubCrew → SubCrew) : (t.setSub k f).halt = t.halt := rfl
@[simp] theorem Team.setSub_slices (t : Team) (k : Nat) (f : SubCrew → SubCrew) : (t.setSub k f).slices = t.slices := rfl
@[simp] theorem Team.setSub_joins (t : Team) (k : Nat) (f : SubCrew → SubCrew) : (t.setSub k f).joins = t.joins := rfl
@[simp] theorem Team.setSub_bars (t : Team) (k : Nat) (f : SubCrew → SubCrew) : (t.setSub k f).bars = t.bars := rfl
@[simp] theorem Team.setSub_pool (t : Team) (k : Nat) (f : SubCrew → SubCrew) : (t.setSub k f).pool = t.pool := rfl
@[simp] theorem Team.setSub_claims (t : Team) (k : Nat) (f : SubCrew → SubCrew) : (t.setSub k f).claims = t.claims := rfl
@[simp] theorem Team.setSub_gather (t : Team) (k : Nat) (f : SubCrew → SubCrew) : (t.setSub k f).gather = t.gather := rfl
@[simp] theorem Team.setSub_asked (t : Team) (k : Nat) (f : SubCrew → SubCrew) : (t.setSub k f).asked = t.asked := rfl
@[simp] theorem Team.setSub_answer (t : Team) (k : Nat) (f : SubCrew → SubCrew) : (t.setSub k f).answer = t.answer := rfl
@[simp] theorem Team.setSub_work (t : Team) (k : Nat) (f : SubCrew → SubCrew) : (t.setSub k f).work = t.work := rfl
@[simp] theorem Team.setSub_lo (t : Team) (k : Nat) (f : SubCrew → SubCrew) : (t.setSub k f).lo = t.lo := rfl
@[simp] theorem Team.setSub_hi (t : Team) (k : Nat) (f : SubCrew → SubCrew) : (t.setSub k f).hi = t.hi := rfl
@[simp] theorem Team.setSub_cmds (t : Team) (k : Nat) (f : SubCrew → SubCrew) : (t.setSub k f).cmds = t.cmds := rfl
@[simp] theorem Team.setSub_energy (t : Team) (k : Nat) (f : SubCrew → SubCrew) : (t.setSub k f).energy = t.energy := rfl
@[simp] theorem Team.setSub_esat (t : Team) (k : Nat) (f : SubCrew → SubCrew) : (t.setSub k f).esat = t.esat := rfl
@[simp] theorem Team.setSub_scratch (t : Team) (k : Nat) (f : SubCrew → SubCrew) : (t.setSub k f).scratch = t.scratch := rfl
@[simp] theorem Team.setSub_resid (t : Team) (k : Nat) (f : SubCrew → SubCrew) : (t.setSub k f).resid = t.resid := rfl
@[simp] theorem Team.setSub_haltAt (t : Team) (k : Nat) (f : SubCrew → SubCrew) : (t.setSub k f).haltAt = t.haltAt := rfl
@[simp] theorem Team.setSub_owed (t : Team) (k : Nat) (f : SubCrew → SubCrew) : (t.setSub k f).owed = t.owed := rfl
@[simp] theorem Team.setSub_lines (t : Team) (k : Nat) (f : SubCrew → SubCrew) : (t.setSub k f).lines = t.lines := rfl

/-! ## Slice.vset -/

@[simp] theorem Slice.vset_idx (sl : Slice) (p l : Nat) (w : Word) : (sl.vset p l w).idx = sl.idx := rfl
@[simp] theorem Slice.vset_hdr (sl : Slice) (p l : Nat) (w : Word) : (sl.vset p l w).hdr = sl.hdr := rfl
@[simp] theorem Slice.vset_ix (sl : Slice) (p l : Nat) (w : Word) : (sl.vset p l w).ix = sl.ix := rfl
@[simp] theorem Slice.vset_opened (sl : Slice) (p l : Nat) (w : Word) : (sl.vset p l w).opened = sl.opened := rfl
@[simp] theorem Slice.vset_hw (sl : Slice) (p l : Nat) (w : Word) : (sl.vset p l w).hw = sl.hw := rfl
@[simp] theorem Slice.vset_longs (sl : Slice) (p l : Nat) (w : Word) : (sl.vset p l w).longs = sl.longs := rfl
@[simp] theorem Slice.vset_conv (sl : Slice) (p l : Nat) (w : Word) : (sl.vset p l w).conv = sl.conv := rfl
@[simp] theorem Slice.vset_sregs (sl : Slice) (p l : Nat) (w : Word) : (sl.vset p l w).sregs = sl.sregs := rfl
@[simp] theorem Slice.vset_exec (sl : Slice) (p l : Nat) (w : Word) : (sl.vset p l w).exec = sl.exec := rfl
@[simp] theorem Slice.vset_park (sl : Slice) (p l : Nat) (w : Word) : (sl.vset p l w).park = sl.park := rfl
@[simp] theorem Slice.vset_scc (sl : Slice) (p l : Nat) (w : Word) : (sl.vset p l w).scc = sl.scc := rfl
@[simp] theorem Slice.vset_wb (sl : Slice) (p l : Nat) (w : Word) : (sl.vset p l w).wb = sl.wb := rfl
@[simp] theorem Slice.vset_alloc (sl : Slice) (p l : Nat) (w : Word) : (sl.vset p l w).alloc = sl.alloc := rfl
@[simp] theorem Slice.vset_flags (sl : Slice) (p l : Nat) (w : Word) : (sl.vset p l w).flags = sl.flags := rfl
@[simp] theorem Slice.vset_role (sl : Slice) (p l : Nat) (w : Word) : (sl.vset p l w).role = sl.role := rfl
@[simp] theorem Slice.vset_cls (sl : Slice) (p l : Nat) (w : Word) : (sl.vset p l w).cls = sl.cls := rfl
@[simp] theorem Slice.vset_roleCls (sl : Slice) (p l : Nat) (w : Word) : (sl.vset p l w).roleCls = sl.roleCls := rfl
@[simp] theorem Slice.vset_waitLevel (sl : Slice) (p l : Nat) (w : Word) : (sl.vset p l w).waitLevel = sl.waitLevel := rfl
@[simp] theorem Slice.vset_fpc (sl : Slice) (p l : Nat) (w : Word) : (sl.vset p l w).fpc = sl.fpc := rfl
@[simp] theorem Slice.vset_fps (sl : Slice) (p l : Nat) (w : Word) : (sl.vset p l w).fps = sl.fps := rfl
@[simp] theorem Slice.vset_uiv (sl : Slice) (p l : Nat) (w : Word) : (sl.vset p l w).uiv = sl.uiv := rfl
@[simp] theorem Slice.vset_uisv (sl : Slice) (p l : Nat) (w : Word) : (sl.vset p l w).uisv = sl.uisv := rfl
@[simp] theorem Slice.vset_uiPend (sl : Slice) (p l : Nat) (w : Word) : (sl.vset p l w).uiPend = sl.uiPend := rfl
@[simp] theorem Slice.vset_mode (sl : Slice) (p l : Nat) (w : Word) : (sl.vset p l w).mode = sl.mode := rfl
@[simp] theorem Slice.vset_bank (sl : Slice) (p l : Nat) (w : Word) : (sl.vset p l w).bank = sl.bank := rfl
@[simp] theorem Slice.vset_bankScc (sl : Slice) (p l : Nat) (w : Word) : (sl.vset p l w).bankScc = sl.bankScc := rfl
@[simp] theorem Slice.vset_sepc (sl : Slice) (p l : Nat) (w : Word) : (sl.vset p l w).sepc = sl.sepc := rfl
@[simp] theorem Slice.vset_scause (sl : Slice) (p l : Nat) (w : Word) : (sl.vset p l w).scause = sl.scause := rfl
@[simp] theorem Slice.vset_sfpc (sl : Slice) (p l : Nat) (w : Word) : (sl.vset p l w).sfpc = sl.sfpc := rfl
@[simp] theorem Slice.vset_recs (sl : Slice) (p l : Nat) (w : Word) : (sl.vset p l w).recs = sl.recs := rfl
@[simp] theorem Slice.vset_block (sl : Slice) (p l : Nat) (w : Word) : (sl.vset p l w).block = sl.block := rfl
@[simp] theorem Slice.vset_ended (sl : Slice) (p l : Nat) (w : Word) : (sl.vset p l w).ended = sl.ended := rfl
@[simp] theorem Slice.vset_thread (sl : Slice) (p l : Nat) (w : Word) : (sl.vset p l w).thread = sl.thread := rfl
@[simp] theorem Slice.vset_code (sl : Slice) (p l : Nat) (w : Word) : (sl.vset p l w).code = sl.code := rfl
@[simp] theorem Slice.vset_smarred (sl : Slice) (p l : Nat) (w : Word) : (sl.vset p l w).smarred = sl.smarred := rfl

/-! ## Slice.sset -/

@[simp] theorem Slice.sset_idx (sl : Slice) (n : Nat) (w : Word) : (sl.sset n w).idx = sl.idx := rfl
@[simp] theorem Slice.sset_hdr (sl : Slice) (n : Nat) (w : Word) : (sl.sset n w).hdr = sl.hdr := rfl
@[simp] theorem Slice.sset_ix (sl : Slice) (n : Nat) (w : Word) : (sl.sset n w).ix = sl.ix := rfl
@[simp] theorem Slice.sset_opened (sl : Slice) (n : Nat) (w : Word) : (sl.sset n w).opened = sl.opened := rfl
@[simp] theorem Slice.sset_hw (sl : Slice) (n : Nat) (w : Word) : (sl.sset n w).hw = sl.hw := rfl
@[simp] theorem Slice.sset_longs (sl : Slice) (n : Nat) (w : Word) : (sl.sset n w).longs = sl.longs := rfl
@[simp] theorem Slice.sset_conv (sl : Slice) (n : Nat) (w : Word) : (sl.sset n w).conv = sl.conv := rfl
@[simp] theorem Slice.sset_exec (sl : Slice) (n : Nat) (w : Word) : (sl.sset n w).exec = sl.exec := rfl
@[simp] theorem Slice.sset_park (sl : Slice) (n : Nat) (w : Word) : (sl.sset n w).park = sl.park := rfl
@[simp] theorem Slice.sset_scc (sl : Slice) (n : Nat) (w : Word) : (sl.sset n w).scc = sl.scc := rfl
@[simp] theorem Slice.sset_wb (sl : Slice) (n : Nat) (w : Word) : (sl.sset n w).wb = sl.wb := rfl
@[simp] theorem Slice.sset_alloc (sl : Slice) (n : Nat) (w : Word) : (sl.sset n w).alloc = sl.alloc := rfl
@[simp] theorem Slice.sset_vregs (sl : Slice) (n : Nat) (w : Word) : (sl.sset n w).vregs = sl.vregs := rfl
@[simp] theorem Slice.sset_flags (sl : Slice) (n : Nat) (w : Word) : (sl.sset n w).flags = sl.flags := rfl
@[simp] theorem Slice.sset_role (sl : Slice) (n : Nat) (w : Word) : (sl.sset n w).role = sl.role := rfl
@[simp] theorem Slice.sset_cls (sl : Slice) (n : Nat) (w : Word) : (sl.sset n w).cls = sl.cls := rfl
@[simp] theorem Slice.sset_roleCls (sl : Slice) (n : Nat) (w : Word) : (sl.sset n w).roleCls = sl.roleCls := rfl
@[simp] theorem Slice.sset_waitLevel (sl : Slice) (n : Nat) (w : Word) : (sl.sset n w).waitLevel = sl.waitLevel := rfl
@[simp] theorem Slice.sset_fpc (sl : Slice) (n : Nat) (w : Word) : (sl.sset n w).fpc = sl.fpc := rfl
@[simp] theorem Slice.sset_fps (sl : Slice) (n : Nat) (w : Word) : (sl.sset n w).fps = sl.fps := rfl
@[simp] theorem Slice.sset_uiv (sl : Slice) (n : Nat) (w : Word) : (sl.sset n w).uiv = sl.uiv := rfl
@[simp] theorem Slice.sset_uisv (sl : Slice) (n : Nat) (w : Word) : (sl.sset n w).uisv = sl.uisv := rfl
@[simp] theorem Slice.sset_uiPend (sl : Slice) (n : Nat) (w : Word) : (sl.sset n w).uiPend = sl.uiPend := rfl
@[simp] theorem Slice.sset_mode (sl : Slice) (n : Nat) (w : Word) : (sl.sset n w).mode = sl.mode := rfl
@[simp] theorem Slice.sset_bank (sl : Slice) (n : Nat) (w : Word) : (sl.sset n w).bank = sl.bank := rfl
@[simp] theorem Slice.sset_bankScc (sl : Slice) (n : Nat) (w : Word) : (sl.sset n w).bankScc = sl.bankScc := rfl
@[simp] theorem Slice.sset_sepc (sl : Slice) (n : Nat) (w : Word) : (sl.sset n w).sepc = sl.sepc := rfl
@[simp] theorem Slice.sset_scause (sl : Slice) (n : Nat) (w : Word) : (sl.sset n w).scause = sl.scause := rfl
@[simp] theorem Slice.sset_sfpc (sl : Slice) (n : Nat) (w : Word) : (sl.sset n w).sfpc = sl.sfpc := rfl
@[simp] theorem Slice.sset_recs (sl : Slice) (n : Nat) (w : Word) : (sl.sset n w).recs = sl.recs := rfl
@[simp] theorem Slice.sset_block (sl : Slice) (n : Nat) (w : Word) : (sl.sset n w).block = sl.block := rfl
@[simp] theorem Slice.sset_ended (sl : Slice) (n : Nat) (w : Word) : (sl.sset n w).ended = sl.ended := rfl
@[simp] theorem Slice.sset_thread (sl : Slice) (n : Nat) (w : Word) : (sl.sset n w).thread = sl.thread := rfl
@[simp] theorem Slice.sset_marks (sl : Slice) (n : Nat) (w : Word) : (sl.sset n w).marks = sl.marks := rfl
@[simp] theorem Slice.sset_code (sl : Slice) (n : Nat) (w : Word) : (sl.sset n w).code = sl.code := rfl

/-! ## Slice.setFlag -/

@[simp] theorem Slice.setFlag_idx (sl : Slice) (k : Nat) (v : BitVec 6) : (sl.setFlag k v).idx = sl.idx := rfl
@[simp] theorem Slice.setFlag_hdr (sl : Slice) (k : Nat) (v : BitVec 6) : (sl.setFlag k v).hdr = sl.hdr := rfl
@[simp] theorem Slice.setFlag_ix (sl : Slice) (k : Nat) (v : BitVec 6) : (sl.setFlag k v).ix = sl.ix := rfl
@[simp] theorem Slice.setFlag_opened (sl : Slice) (k : Nat) (v : BitVec 6) : (sl.setFlag k v).opened = sl.opened := rfl
@[simp] theorem Slice.setFlag_hw (sl : Slice) (k : Nat) (v : BitVec 6) : (sl.setFlag k v).hw = sl.hw := rfl
@[simp] theorem Slice.setFlag_longs (sl : Slice) (k : Nat) (v : BitVec 6) : (sl.setFlag k v).longs = sl.longs := rfl
@[simp] theorem Slice.setFlag_conv (sl : Slice) (k : Nat) (v : BitVec 6) : (sl.setFlag k v).conv = sl.conv := rfl
@[simp] theorem Slice.setFlag_sregs (sl : Slice) (k : Nat) (v : BitVec 6) : (sl.setFlag k v).sregs = sl.sregs := rfl
@[simp] theorem Slice.setFlag_exec (sl : Slice) (k : Nat) (v : BitVec 6) : (sl.setFlag k v).exec = sl.exec := rfl
@[simp] theorem Slice.setFlag_park (sl : Slice) (k : Nat) (v : BitVec 6) : (sl.setFlag k v).park = sl.park := rfl
@[simp] theorem Slice.setFlag_scc (sl : Slice) (k : Nat) (v : BitVec 6) : (sl.setFlag k v).scc = sl.scc := rfl
@[simp] theorem Slice.setFlag_wb (sl : Slice) (k : Nat) (v : BitVec 6) : (sl.setFlag k v).wb = sl.wb := rfl
@[simp] theorem Slice.setFlag_alloc (sl : Slice) (k : Nat) (v : BitVec 6) : (sl.setFlag k v).alloc = sl.alloc := rfl
@[simp] theorem Slice.setFlag_vregs (sl : Slice) (k : Nat) (v : BitVec 6) : (sl.setFlag k v).vregs = sl.vregs := rfl
@[simp] theorem Slice.setFlag_role (sl : Slice) (k : Nat) (v : BitVec 6) : (sl.setFlag k v).role = sl.role := rfl
@[simp] theorem Slice.setFlag_cls (sl : Slice) (k : Nat) (v : BitVec 6) : (sl.setFlag k v).cls = sl.cls := rfl
@[simp] theorem Slice.setFlag_roleCls (sl : Slice) (k : Nat) (v : BitVec 6) : (sl.setFlag k v).roleCls = sl.roleCls := rfl
@[simp] theorem Slice.setFlag_waitLevel (sl : Slice) (k : Nat) (v : BitVec 6) : (sl.setFlag k v).waitLevel = sl.waitLevel := rfl
@[simp] theorem Slice.setFlag_fpc (sl : Slice) (k : Nat) (v : BitVec 6) : (sl.setFlag k v).fpc = sl.fpc := rfl
@[simp] theorem Slice.setFlag_fps (sl : Slice) (k : Nat) (v : BitVec 6) : (sl.setFlag k v).fps = sl.fps := rfl
@[simp] theorem Slice.setFlag_uiv (sl : Slice) (k : Nat) (v : BitVec 6) : (sl.setFlag k v).uiv = sl.uiv := rfl
@[simp] theorem Slice.setFlag_uisv (sl : Slice) (k : Nat) (v : BitVec 6) : (sl.setFlag k v).uisv = sl.uisv := rfl
@[simp] theorem Slice.setFlag_uiPend (sl : Slice) (k : Nat) (v : BitVec 6) : (sl.setFlag k v).uiPend = sl.uiPend := rfl
@[simp] theorem Slice.setFlag_mode (sl : Slice) (k : Nat) (v : BitVec 6) : (sl.setFlag k v).mode = sl.mode := rfl
@[simp] theorem Slice.setFlag_bank (sl : Slice) (k : Nat) (v : BitVec 6) : (sl.setFlag k v).bank = sl.bank := rfl
@[simp] theorem Slice.setFlag_bankScc (sl : Slice) (k : Nat) (v : BitVec 6) : (sl.setFlag k v).bankScc = sl.bankScc := rfl
@[simp] theorem Slice.setFlag_sepc (sl : Slice) (k : Nat) (v : BitVec 6) : (sl.setFlag k v).sepc = sl.sepc := rfl
@[simp] theorem Slice.setFlag_scause (sl : Slice) (k : Nat) (v : BitVec 6) : (sl.setFlag k v).scause = sl.scause := rfl
@[simp] theorem Slice.setFlag_sfpc (sl : Slice) (k : Nat) (v : BitVec 6) : (sl.setFlag k v).sfpc = sl.sfpc := rfl
@[simp] theorem Slice.setFlag_recs (sl : Slice) (k : Nat) (v : BitVec 6) : (sl.setFlag k v).recs = sl.recs := rfl
@[simp] theorem Slice.setFlag_block (sl : Slice) (k : Nat) (v : BitVec 6) : (sl.setFlag k v).block = sl.block := rfl
@[simp] theorem Slice.setFlag_ended (sl : Slice) (k : Nat) (v : BitVec 6) : (sl.setFlag k v).ended = sl.ended := rfl
@[simp] theorem Slice.setFlag_thread (sl : Slice) (k : Nat) (v : BitVec 6) : (sl.setFlag k v).thread = sl.thread := rfl
@[simp] theorem Slice.setFlag_marks (sl : Slice) (k : Nat) (v : BitVec 6) : (sl.setFlag k v).marks = sl.marks := rfl
@[simp] theorem Slice.setFlag_code (sl : Slice) (k : Nat) (v : BitVec 6) : (sl.setFlag k v).code = sl.code := rfl
@[simp] theorem Slice.setFlag_smarred (sl : Slice) (k : Nat) (v : BitVec 6) : (sl.setFlag k v).smarred = sl.smarred := rfl

/-! ## Slice.jump -/

@[simp] theorem Slice.jump_idx (sl : Slice) (hdr : Nat) : (sl.jump hdr).idx = sl.idx := rfl
@[simp] theorem Slice.jump_hw (sl : Slice) (hdr : Nat) : (sl.jump hdr).hw = sl.hw := rfl
@[simp] theorem Slice.jump_longs (sl : Slice) (hdr : Nat) : (sl.jump hdr).longs = sl.longs := rfl
@[simp] theorem Slice.jump_conv (sl : Slice) (hdr : Nat) : (sl.jump hdr).conv = sl.conv := rfl
@[simp] theorem Slice.jump_sregs (sl : Slice) (hdr : Nat) : (sl.jump hdr).sregs = sl.sregs := rfl
@[simp] theorem Slice.jump_exec (sl : Slice) (hdr : Nat) : (sl.jump hdr).exec = sl.exec := rfl
@[simp] theorem Slice.jump_park (sl : Slice) (hdr : Nat) : (sl.jump hdr).park = sl.park := rfl
@[simp] theorem Slice.jump_scc (sl : Slice) (hdr : Nat) : (sl.jump hdr).scc = sl.scc := rfl
@[simp] theorem Slice.jump_wb (sl : Slice) (hdr : Nat) : (sl.jump hdr).wb = sl.wb := rfl
@[simp] theorem Slice.jump_alloc (sl : Slice) (hdr : Nat) : (sl.jump hdr).alloc = sl.alloc := rfl
@[simp] theorem Slice.jump_vregs (sl : Slice) (hdr : Nat) : (sl.jump hdr).vregs = sl.vregs := rfl
@[simp] theorem Slice.jump_flags (sl : Slice) (hdr : Nat) : (sl.jump hdr).flags = sl.flags := rfl
@[simp] theorem Slice.jump_role (sl : Slice) (hdr : Nat) : (sl.jump hdr).role = sl.role := rfl
@[simp] theorem Slice.jump_cls (sl : Slice) (hdr : Nat) : (sl.jump hdr).cls = sl.cls := rfl
@[simp] theorem Slice.jump_roleCls (sl : Slice) (hdr : Nat) : (sl.jump hdr).roleCls = sl.roleCls := rfl
@[simp] theorem Slice.jump_waitLevel (sl : Slice) (hdr : Nat) : (sl.jump hdr).waitLevel = sl.waitLevel := rfl
@[simp] theorem Slice.jump_fpc (sl : Slice) (hdr : Nat) : (sl.jump hdr).fpc = sl.fpc := rfl
@[simp] theorem Slice.jump_fps (sl : Slice) (hdr : Nat) : (sl.jump hdr).fps = sl.fps := rfl
@[simp] theorem Slice.jump_uiv (sl : Slice) (hdr : Nat) : (sl.jump hdr).uiv = sl.uiv := rfl
@[simp] theorem Slice.jump_uisv (sl : Slice) (hdr : Nat) : (sl.jump hdr).uisv = sl.uisv := rfl
@[simp] theorem Slice.jump_uiPend (sl : Slice) (hdr : Nat) : (sl.jump hdr).uiPend = sl.uiPend := rfl
@[simp] theorem Slice.jump_mode (sl : Slice) (hdr : Nat) : (sl.jump hdr).mode = sl.mode := rfl
@[simp] theorem Slice.jump_bank (sl : Slice) (hdr : Nat) : (sl.jump hdr).bank = sl.bank := rfl
@[simp] theorem Slice.jump_bankScc (sl : Slice) (hdr : Nat) : (sl.jump hdr).bankScc = sl.bankScc := rfl
@[simp] theorem Slice.jump_sepc (sl : Slice) (hdr : Nat) : (sl.jump hdr).sepc = sl.sepc := rfl
@[simp] theorem Slice.jump_scause (sl : Slice) (hdr : Nat) : (sl.jump hdr).scause = sl.scause := rfl
@[simp] theorem Slice.jump_sfpc (sl : Slice) (hdr : Nat) : (sl.jump hdr).sfpc = sl.sfpc := rfl
@[simp] theorem Slice.jump_recs (sl : Slice) (hdr : Nat) : (sl.jump hdr).recs = sl.recs := rfl
@[simp] theorem Slice.jump_block (sl : Slice) (hdr : Nat) : (sl.jump hdr).block = sl.block := rfl
@[simp] theorem Slice.jump_ended (sl : Slice) (hdr : Nat) : (sl.jump hdr).ended = sl.ended := rfl
@[simp] theorem Slice.jump_thread (sl : Slice) (hdr : Nat) : (sl.jump hdr).thread = sl.thread := rfl
@[simp] theorem Slice.jump_marks (sl : Slice) (hdr : Nat) : (sl.jump hdr).marks = sl.marks := rfl
@[simp] theorem Slice.jump_smarred (sl : Slice) (hdr : Nat) : (sl.jump hdr).smarred = sl.smarred := rfl

end Sys2Proof.Machine
end

