-- ==== Sys2Proof/Laws/Ops.lean ====
section
/-! SUPPORT. What the named operations over teams, slices and cores do, and what the parting of sub-crews leaves. -/

namespace Sys2Proof.Machine

/-! ## Finding after a change -/

theorem find?_map_key {α : Type} (l : List α) (key : α → Nat) (k u : Nat) (f : α → α) (hf : ∀ a, key (f a) = key a) :
    (l.map (fun a => if key a = u then f a else a)).find? (fun a => key a == k)
      = (l.find? (fun a => key a == k)).map (fun a => if k = u then f a else a) := by
  induction l with
  | nil => rfl
  | cons a r ih =>
    simp only [List.map_cons, List.find?_cons]
    have h1 : key (if key a = u then f a else a) = key a := by split <;> simp [hf]
    rw [h1]
    by_cases h : key a = k
    · simp [h]
    · have h' : (key a == k) = false := by simpa using h
      simp only [h', ih]

theorem find?_map_mem {α : Type} (l : List α) (key : α → Nat) (k : Nat) (ms : List Nat) (f : α → α)
    (hf : ∀ a, key (f a) = key a) :
    (l.map (fun a => if key a ∈ ms then f a else a)).find? (fun a => key a == k)
      = (l.find? (fun a => key a == k)).map (fun a => if k ∈ ms then f a else a) := by
  induction l with
  | nil => rfl
  | cons a r ih =>
    simp only [List.map_cons, List.find?_cons]
    have h1 : key (if key a ∈ ms then f a else a) = key a := by split <;> simp [hf]
    rw [h1]
    by_cases h : key a = k
    · simp [h]
    · have h' : (key a == k) = false := by simpa using h
      simp only [h', ih]

theorem State.team?_setTeam (s : State) (u v : Nat) (f : Team → Team) (hf : ∀ t, (f t).uid = t.uid) :
    (s.setTeam u f).team? v = (s.team? v).map (fun t => if v = u then f t else t) :=
  find?_map_key s.teams (·.uid) v u f hf

theorem State.team?_setTeam_ne (s : State) {u v : Nat} (f : Team → Team) (hf : ∀ t, (f t).uid = t.uid) (h : v ≠ u) :
    (s.setTeam u f).team? v = s.team? v := by
  rw [team?_setTeam s u v f hf]; simp [h]

theorem State.team?_setTeam_self (s : State) (u : Nat) (f : Team → Team) (hf : ∀ t, (f t).uid = t.uid) :
    (s.setTeam u f).team? u = (s.team? u).map f := by
  rw [team?_setTeam s u u f hf]; simp

theorem State.team?_uid (s : State) (u : Nat) (t : Team) (h : s.team? u = some t) : t.uid = u := by
  have := List.find?_some h; simpa using this

theorem Team.slice?_setSlice (t : Team) (k j : Nat) (f : Slice → Slice) (hf : ∀ sl, (f sl).idx = sl.idx) :
    (t.setSlice k f).slice? j = (t.slice? j).map (fun sl => if j = k then f sl else sl) :=
  find?_map_key t.slices (·.idx) j k f hf

theorem Team.slice?_onMembers (t : Team) (ms : List Nat) (j : Nat) (f : Slice → Slice) (hf : ∀ sl, (f sl).idx = sl.idx) :
    (t.onMembers ms f).slice? j = (t.slice? j).map (fun sl => if j ∈ ms then f sl else sl) :=
  find?_map_mem t.slices (·.idx) j ms f hf

theorem Team.slice?_idx (t : Team) (k : Nat) (sl : Slice) (h : t.slice? k = some sl) : sl.idx = k := by
  have := List.find?_some h; simpa using this

theorem State.slice?_eq (s : State) (u k : Nat) (t : Team) (h : s.team? u = some t) : s.slice? u k = t.slice? k := by
  simp [State.slice?, h]

/-! ## Cores -/

theorem find?_insertBy {α : Type} (l : List α) (key : α → Nat) (a : α) (k : Nat) (h : ∀ b ∈ l, key b ≠ key a) :
    (insertBy key a l).find? (fun b => key b == k) = if key a = k then some a else l.find? (fun b => key b == k) := by
  induction l with
  | nil => by_cases hk : key a = k <;> simp [insertBy, hk]
  | cons b r ih =>
    have hb : key b ≠ key a := h b (by simp)
    have hr : ∀ c ∈ r, key c ≠ key a := fun c hc => h c (by simp [hc])
    simp only [insertBy]
    split
    · simp only [List.find?_cons]
      by_cases hk : key a = k
      · simp [hk]
      · have hk' : (key a == k) = false := by simpa using hk
        simp only [hk', if_neg hk]
    · simp only [List.find?_cons, ih hr]
      by_cases hk : key b = k
      · have hk' : (key b == k) = true := by simpa using hk
        simp only [hk']
        rw [if_neg (by omega)]
      · have hk' : (key b == k) = false := by simpa using hk
        simp only [hk']

/-- Core `k` after a change of core `j` that keeps its name. -/
theorem State.core_setCore (s : State) (j k : Nat) (f : Core → Core) (hf : ∀ c, (f c).id = c.id) :
    (s.setCore j f).core k = if k = j then f (s.core k) else s.core k := by
  unfold State.setCore State.core
  split
  · next h =>
    simp only
    rw [find?_map_key s.cores (·.id) k j f hf]
    by_cases hk : k = j
    · subst hk
      obtain ⟨c, hc, hid⟩ := List.any_eq_true.1 h
      cases hfind : s.cores.find? (fun c => c.id == k) with
      | none => exact absurd hid (by simpa using List.find?_eq_none.1 hfind c hc)
      | some c => simp
    · simp [hk]
  · next h =>
    simp only
    have hne : ∀ b ∈ s.cores, b.id ≠ j := by
      intro b hb he
      exact h (List.any_eq_true.2 ⟨b, hb, by simp [he]⟩)
    rw [find?_insertBy s.cores (fun c => c.id) (f (Core.idle j)) k (by rw [hf]; exact hne), hf]
    by_cases hk : k = j
    · subst hk
      have : s.cores.find? (fun c => c.id == k) = none := by
        rw [List.find?_eq_none]; intro b hb; simpa using hne b hb
      simp [this, Core.idle]
    · have : (Core.idle j).id ≠ k := fun he => hk he.symm
      simp [this, hk]

theorem State.withUnits_trans {a b c : State} (h : b = a.withUnits b) (g : c = b.withUnits c) : c = a.withUnits c := by
  rw [g, h]; rfl

theorem State.setCore_units (s : State) (k : Nat) (f : Core → Core) : s.setCore k f = s.withUnits (s.setCore k f) := by
  unfold State.setCore; split <;> rfl

theorem State.setCore_team? (s : State) (k u : Nat) (f : Core → Core) : (s.setCore k f).team? u = s.team? u := by
  unfold State.setCore State.team?; split <;> rfl

/-! ## What moves only fetch entries -/

/-- Nothing but the sub-crews of team `u`, entry queues and the counter of names differs. -/
structure SubsOnly (u : Nat) (s t : State) : Prop where
  rest : t = s.withUnits t
  teams : ∀ v, t.team? v = (s.team? v).map (fun x => { x with subs := (((t.team? v).map (·.subs)).getD []) })
  others : ∀ v, v ≠ u → t.team? v = s.team? v
  cores : ∀ c, t.core c = { s.core c with waiting := (t.core c).waiting }

theorem SubsOnly.refl (u : Nat) (s : State) : SubsOnly u s s :=
  ⟨rfl, fun v => by cases s.team? v <;> rfl, fun _ _ => rfl, fun _ => rfl⟩

theorem SubsOnly.trans {u : Nat} {a b c : State} (h : SubsOnly u a b) (g : SubsOnly u b c) : SubsOnly u a c := by
  refine ⟨?_, fun u => ?_, fun v hv => (g.others v hv).trans (h.others v hv), fun k => ?_⟩
  · exact State.withUnits_trans h.rest g.rest
  · have h1 := h.teams u
    have h2 := g.teams u
    cases ha : a.team? u with
    | none => rw [ha] at h1; rw [h1] at h2; simpa using h2
    | some x =>
      rw [ha] at h1
      rw [h1] at h2
      simp only [Option.map_some] at h2 ⊢
      rw [h2]
      simp
  · rw [g.cores k, h.cores k]

theorem SubsOnly.slice? {v : Nat} {s t : State} (h : SubsOnly v s t) (u k : Nat) : t.slice? u k = s.slice? u k := by
  have := h.teams u
  cases ht : s.team? u with
  | none =>
    have hn : t.team? u = none := by rw [this, ht]; rfl
    simp only [State.slice?, ht, hn, Option.bind_none]
  | some x =>
    obtain ⟨y, hy, hs⟩ : ∃ y, t.team? u = some y ∧ y.slices = x.slices := by
      rw [ht] at this; exact ⟨_, this, rfl⟩
    simp only [State.slice?, ht, hy, Option.bind_some, Team.slice?, hs]

/-- A change of one team's sub-crews. -/
theorem SubsOnly.setTeam (s : State) (u : Nat) (f : Team → Team) (hf : ∀ t, f t = { t with subs := (f t).subs }) :
    SubsOnly u s (s.setTeam u f) := by
  have hid : ∀ t, (f t).uid = t.uid := fun t => by rw [hf t]
  refine ⟨rfl, fun v => ?_, fun v hv => State.team?_setTeam_ne s f hid hv, fun _ => rfl⟩
  rw [State.team?_setTeam s u v f hid]
  cases s.team? v with
  | none => rfl
  | some t =>
    simp only [Option.map_some]
    congr 1
    split
    · exact hf t
    · rfl

theorem SubsOnly.setCore (u : Nat) (s : State) (k : Nat) (f : Core → Core) (hf : ∀ c, f c = { c with waiting := (f c).waiting }) :
    SubsOnly u s (s.setCore k f) := by
  have hid : ∀ c, (f c).id = c.id := fun c => by rw [hf c]
  refine ⟨?_, fun v => ?_, fun v _ => State.setCore_team? s k v f, fun c => ?_⟩
  · exact State.setCore_units s k f
  · rw [State.setCore_team?]; cases s.team? v <;> rfl
  · rw [State.core_setCore s k c f hid]
    split
    · exact hf _
    · rfl

theorem SubsOnly.fresh (u : Nat) (s : State) (n : Nat) : SubsOnly u s { s with fresh := n } :=
  ⟨rfl, fun v => (SubsOnly.refl u s).teams v, fun _ _ => rfl, fun _ => rfl⟩

theorem Team.setSub_subs (t : Team) (k : Nat) (f : SubCrew → SubCrew) : t.setSub k f = { t with subs := (t.setSub k f).subs } := rfl

/-- Asking for a fetch entry moves only sub-crews and entry queues (R18). -/
theorem State.askEntry_subs (s : State) (u k : Nat) : SubsOnly u s (s.askEntry u k) := by
  unfold State.askEntry
  split
  · exact .refl u s
  · split
    · exact .refl u s
    · simp only
      split
      · exact .refl u s
      · have h1 : SubsOnly u s (s.setTeam u (fun t => t.setSub k (fun b => { b with seq := s.fresh }))) :=
          .setTeam s u _ (fun t => t.setSub_subs _ _)
        have h2 := h1.trans (.fresh u _ ((s.setTeam u (fun t => t.setSub k (fun b => { b with seq := s.fresh }))).fresh + 1))
        split
        · exact h2.trans (.setTeam _ u _ (fun t => t.setSub_subs _ _))
        · exact h2.trans (.setCore u _ _ _ (fun _ => rfl))

theorem SubsOnly.foldl {α : Type} (u : Nat) (f : State → α → State) (h : ∀ s a, SubsOnly u s (f s a)) (l : List α) (s : State) :
    SubsOnly u s (l.foldl f s) := by
  induction l generalizing s with
  | nil => exact .refl _ s
  | cons a r ih => exact (h s a).trans (ih _)

/-- Parting moves only sub-crews and entry queues (R16). -/
theorem State.regroup_subs (s : State) (u : Nat) : SubsOnly u s (s.regroup u) := by
  unfold State.regroup
  split
  · exact .refl u s
  · simp only
    refine SubsOnly.trans (.setTeam s u _ (fun _ => rfl)) (SubsOnly.foldl u _ (fun s g => ?_) _ _)
    split
    · exact State.askEntry_subs _ _ _
    · exact .refl u _

end Sys2Proof.Machine
end

