-- ==== Sys2Proof/Laws/Issue.lean ====
section
/-! SUPPORT. What the issue of a word does when nothing stops it: the charge, the effect, and the parting. -/

namespace Sys2Proof.Machine

theorem State.Executes.team {s : State} {i : Instr} {p : At} (h : s.Executes i p) : ∃ t, s.team? p.team = Option.some t := by
  obtain ⟨k, hk⟩ := List.exists_mem_of_ne_nil _ h.nonempty
  obtain ⟨sl, hsl, -⟩ := h.slices k hk
  cases ht : s.team? p.team with
  | none => simp [State.slice?, ht] at hsl
  | some t => exact ⟨t, rfl⟩

theorem Slice.MayRun.decodeTrap {sl : Slice} {i : Instr} (h : sl.MayRun i) : sl.decodeTrap i = none := by
  unfold Slice.decodeTrap
  rw [h.formed, h.window]
  cases hs : i.sys with
  | false => simp
  | true => simp [h.mode hs]

theorem State.Executes.converge {s : State} {i : Instr} {p : At} (h : s.Executes i p) : s.converge p i.conv = none := by
  obtain ⟨t, ht⟩ := h.team
  unfold State.converge
  rw [ht]
  simp only
  have hm : ∀ m ∈ t.convMembers p.members i.conv, s.allResolved p.team m = true ∧ ∃ sl, t.slice? m = some sl ∧ sl.vectors = false := by
    intro m hm
    obtain ⟨hmem, hc⟩ := List.mem_filter.1 hm
    obtain ⟨sl, hsl, -, hconv, -⟩ := h.slices m hmem
    rw [State.slice?_eq s p.team m t ht] at hsl
    rw [hsl] at hc
    simp only [Bool.or_eq_true] at hc
    exact ⟨(hconv hc).1, sl, hsl, (hconv hc).2⟩
  rw [if_neg, if_pos]
  · simp only [List.isEmpty_iff, List.filter_eq_nil_iff]
    intro m hmm
    obtain ⟨-, sl, hsl, hv⟩ := hm m hmm
    simp [hsl, hv]
  · simp only [List.any_eq_true, not_exists, not_and]
    intro m hmm
    simp [(hm m hmm).1]

theorem State.Executes.refuse {s : State} {i : Instr} {p : At} (h : s.Executes i p) : s.refuse p i = none := by
  obtain ⟨t, ht⟩ := h.team
  unfold State.refuse
  rw [ht]
  simp only
  rw [if_pos]
  simp only [List.isEmpty_iff, List.filter_eq_nil_iff]
  intro m hmem
  obtain ⟨sl, hsl, hr, -⟩ := h.slices m hmem
  rw [State.slice?_eq s p.team m t ht] at hsl
  simp only [hsl, hr.decodeTrap, hr.sound, Option.isSome_none, Bool.or_false]
  cases hth : sl.thread with
  | none =>
    cases hmode : sl.mode with
    | user => simp
    | supervisor => simp [hr.allowed hth hmode]
  | some th =>
    have := hr.handler th hth
    simp only [this.2, Bool.not_true, Bool.or_false, decide_eq_true_eq]
    omega

theorem State.Executes.flagRoom {s : State} {i : Instr} {p : At} {t : Team} (h : s.Executes i p)
    (ht : s.team? p.team = some t) : t.flagFull p i = false := by
  unfold Team.flagFull
  cases hf : p.flag with
  | none => rfl
  | some f =>
    simp only [List.any_eq_false]
    intro m hmem
    obtain ⟨sl, hsl, -, -, hfl⟩ := h.slices m hmem
    rw [State.slice?_eq s p.team m t ht] at hsl
    simp only [hsl]
    cases ha : sl.attaches i with
    | false => simp
    | true => simpa using hfl f hf ha

/-- The issue of a word that nothing stops. -/
theorem issueWith_executes {i : Instr} {s : State} {p : At} (h : s.Executes i p) (pre : At → State → Option State)
    (body : At → State → State) (hpre : pre p s = none) :
    issueWith i pre body s = .next ((body p (s.chargeWord p i)).settle p.team) := by
  obtain ⟨t, ht⟩ := h.team
  unfold issueWith
  rw [h.issuing]
  simp only [h.converge, h.refuse, ht, h.flagRoom ht, hpre, Bool.false_eq_true, if_false]

theorem issue_executes {i : Instr} {s : State} {p : At} (h : s.Executes i p) (body : At → State → State) :
    issue i body s = .next ((body p (s.chargeWord p i)).settle p.team) := issueWith_executes h _ body rfl

/-! ## Settling -/

/-- No claim-deadlock fault while some slice of the team is neither blocked nor ended. -/
theorem State.deadlock_runs (s : State) (u k : Nat) (sl : Slice) (hs : s.slice? u k = some sl) (hl : sl.ended = false)
    (hb : sl.block = .none) : s.deadlock u = s := by
  unfold State.deadlock
  cases ht : s.team? u with
  | none => rfl
  | some t =>
    simp only
    rw [State.slice?_eq s u k t ht] at hs
    have hmem : sl ∈ t.slices := List.mem_of_find?_eq_some hs
    rw [if_neg]
    simp only [Bool.and_eq_true, not_and]
    intro _
    unfold Team.deadlocked
    cases hth : sl.thread with
    | none =>
      have hlive : sl ∈ t.live := by simp [Team.live, hmem, hl, hth]
      have : t.live.all (fun sl => t.deadState sl != 0) = false := by
        rw [List.all_eq_false]
        exact ⟨sl, hlive, by simp [Team.deadState, hb]⟩
      simp [this]
    | some th =>
      have : t.slices.all (fun sl => sl.thread.isNone) = false := by
        rw [List.all_eq_false]
        exact ⟨sl, hmem, by simp [hth]⟩
      simp [this]

/-- Settling only parts sub-crews while some slice of the team runs. -/
theorem State.settle_runs (s : State) (u k : Nat) (sl : Slice) (hs : s.slice? u k = some sl) (hl : sl.ended = false)
    (hb : sl.block = .none) : s.settle u = s.regroup u := by
  unfold State.settle
  exact State.deadlock_runs _ u k sl (by rw [(s.regroup_subs u).slice?]; exact hs) hl hb

/-! ## The charge -/

/-- What the charge of a word changes (R47, R49, R137, R252, R414, R416). -/
structure Charged (s t : State) (i : Instr) (p : At) : Prop where
  rest : t = s.withUnits t
  others : ∀ u, u ≠ p.team → t.team? u = s.team? u
  team : ∀ x, s.team? p.team = some x → ∃ y, t.team? p.team = some y
    ∧ y = { x with slices := y.slices, subs := y.subs, energy := y.energy, esat := y.esat }
    ∧ y.slices = x.slices.map (fun sl => if sl.idx ∈ p.members then sl.charged else sl)
    ∧ y.energy.toNat = min (2 ^ 48 - 1) (x.energy.toNat
        + (i.energy.map (fun c => p.members.length * s.weight x.part c)).getD 0)
  engines : ∀ c, (t.core c).engine = (s.core c).engine

theorem Team.addEnergy_energy (t : Team) (c : Nat) : (t.addEnergy c).energy.toNat = min (2 ^ 48 - 1) (t.energy.toNat + c) := by
  unfold Team.addEnergy
  simp only
  split
  · simp; omega
  · simp only [BitVec.toNat_ofNat]
    rw [Nat.mod_eq_of_lt (by omega), min_eq_right (by omega)]

theorem Team.addEnergy_rest (t : Team) (c : Nat) :
    t.addEnergy c = { t with energy := (t.addEnergy c).energy, esat := (t.addEnergy c).esat } := by
  unfold Team.addEnergy; simp only; split <;> rfl

/-- Going to the back of the class leaves every engine alone. -/
theorem State.lastInClass_engine (s : State) (u : Nat) (ms : List Nat) (c : Nat) :
    ((s.lastInClass u ms).core c).engine = (s.core c).engine := by
  unfold State.lastInClass
  exact ((State.core_setCore _ _ c (fun x => { x with issued := true }) (fun _ => rfl)).trans (by rfl) ▸ by split <;> rfl)

theorem State.chargeWord_charged (s : State) (i : Instr) (p : At) : Charged s (s.chargeWord p i) i p := by
  unfold State.chargeWord
  cases ht : s.team? p.team with
  | none => exact ⟨rfl, fun _ _ => rfl, fun x hx => by simp [ht] at hx, fun _ => rfl⟩
  | some t =>
    simp only
    set ch := (match i.energy with | some c => p.members.length * s.weight t.part c | none => 0) with hch
    set g : Team → Team := fun t => (t.addEnergy ch).onMembers p.members (fun sl =>
      { sl with conv := false, cls := sl.roleCls, thread := sl.thread.map (fun th => { th with words := th.words + 1 }) }) with hg
    have hgid : ∀ t, (g t).uid = t.uid := fun t => by
      simp only [hg, Team.onMembers_uid]; rw [Team.addEnergy_rest]
    -- the state after the charge itself, and its place at the back of its class
    have key : ∀ z : State, z = (s.setTeam p.team g).lastInClass p.team p.members →
        z = s.withUnits z ∧ (∀ u, u ≠ p.team → z.team? u = s.team? u)
        ∧ (∃ y, z.team? p.team = some y ∧ y = { t with slices := y.slices, subs := y.subs, energy := y.energy, esat := y.esat }
            ∧ y.slices = t.slices.map (fun sl => if sl.idx ∈ p.members then sl.charged else sl)
            ∧ y.energy.toNat = min (2 ^ 48 - 1) (t.energy.toNat
                + (i.energy.map (fun c => p.members.length * s.weight t.part c)).getD 0))
        ∧ (∀ c, (z.core c).engine = (s.core c).engine) := by
      intro z hz
      subst hz
      refine ⟨State.withUnits_trans (b := { s.setTeam p.team g with teams := _, fresh := _ }) rfl (State.setCore_units _ _ _),
        fun u hu => ?_, ?_, fun c => ?_⟩
      · unfold State.lastInClass
        rw [State.setCore_team?]
        change ((s.setTeam p.team g).setTeam p.team _).team? u = _
        rw [State.team?_setTeam_ne _ _ (fun t => Team.setSub_uid t _ _) hu, State.team?_setTeam_ne _ _ hgid hu]
      · refine ⟨(g t).setSub (p.members.headD 0) (fun b => { b with seq := (s.setTeam p.team g).fresh, wants := none, bad := [], accepted := none }), ?_, ?_, ?_, ?_⟩
        · unfold State.lastInClass
          rw [State.setCore_team?]
          change ((s.setTeam p.team g).setTeam p.team _).team? p.team = _
          rw [State.team?_setTeam_self _ _ _ (fun t => Team.setSub_uid t _ _), State.team?_setTeam_self _ _ _ hgid, ht]
          rfl
        · simp only [hg, Team.setSub, Team.onMembers]
          rw [Team.addEnergy_rest]
        · simp only [hg, Team.setSub, Team.onMembers]
          have : (t.addEnergy ch).slices = t.slices := by rw [Team.addEnergy_rest]
          rw [this]; rfl
        · simp only [hg, Team.setSub_energy, Team.onMembers_energy, Team.addEnergy_energy, hch]
          cases i.energy <;> rfl
      · rw [State.lastInClass_engine]; rfl
    obtain ⟨k1, k2, k3, k4⟩ := key _ rfl
    set z := (s.setTeam p.team g).lastInClass p.team p.members with hz
    have fin : ∀ f : Core → Core, (∀ c, f c = { c with clock := (f c).clock }) → Charged s (z.setCore t.core f) i p := by
      intro f hf
      have hid : ∀ c, (f c).id = c.id := fun c => by rw [hf c]
      refine ⟨?_, fun u hu => ?_, fun x hx => ?_, fun c => ?_⟩
      · exact State.withUnits_trans k1 (State.setCore_units z t.core f)
      · rw [State.setCore_team?]; exact k2 u hu
      · rw [ht] at hx; cases hx
        rw [State.setCore_team?]; exact k3
      · rw [State.core_setCore z _ _ _ hid]
        split
        · rw [hf]; simp [k4]
        · rw [k4]
    split
    · exact fin _ (fun c => rfl)
    · exact fin _ (fun c => rfl)

theorem Charged.slice? {s t : State} {i : Instr} {p : At} (h : Charged s t i p) (x : Team) (hx : s.team? p.team = some x)
    (k : Nat) : t.slice? p.team k = (x.slice? k).map (fun sl => if k ∈ p.members then sl.charged else sl) := by
  obtain ⟨y, hy, -, hsl, -⟩ := h.team x hx
  rw [State.slice?_eq t p.team k y hy]
  simp only [Team.slice?, hsl]
  exact find?_map_mem x.slices (·.idx) k p.members Slice.charged (fun _ => rfl)

end Sys2Proof.Machine
end

