-- ==== Sys2Proof/Laws/PerInstr.lean ====
section
/-! SUPPORT. The round trip of every encoding, constructor by constructor: a well-formed instruction is what its own
word decodes to (R58, R71 to R75). -/

namespace Sys2Proof.Laws

/-- Bits above the lower part of a word are bits of the upper part. -/
theorem extract_high {m n : Nat} (x : BitVec m) (y : BitVec n) (k l : Nat) (h : n ≤ k) :
    (x ++ y).extractLsb' k l = x.extractLsb' (k - n) l := by
  apply BitVec.eq_of_getLsbD_eq
  intro i hi
  simp only [BitVec.getLsbD_extractLsb', BitVec.getLsbD_append, show ¬ k + i < n by omega, if_false]
  rw [show k + i - n = k - n + i by omega]

/-- Bits inside the lower part of a word are its own. -/
theorem extract_low {m n : Nat} (x : BitVec m) (y : BitVec n) (k l : Nat) (h : k + l ≤ n) :
    (x ++ y).extractLsb' k l = y.extractLsb' k l := by
  apply BitVec.eq_of_getLsbD_eq
  intro i hi
  simp only [BitVec.getLsbD_extractLsb', BitVec.getLsbD_append, show k + i < n by omega, if_true]

/-- All of a vector. -/
theorem extract_all {l : Nat} (x : BitVec l) : x.extractLsb' 0 l = x := by
  apply BitVec.eq_of_getLsbD_eq
  intro i hi
  simp [hi]

/-- Each operand has one code (R51). -/
theorem ofCode_code (o : Opd) : Opd.ofCode o.code = o := by
  cases o with
  | v n => revert n; decide
  | s n => revert n; decide
  | bc n => revert n; decide
  | zero | exec | lane | slice | role => decide

section Fields

variable (op : BitVec 5) (w : BitVec 2) (d a b : BitVec 7) (fn : BitVec 4)

theorem encR_op : wordOp (encR op w d a b fn) = op := by
  simp (disch := decide) only [encR, wordOp, extract_high, extract_all, Nat.reduceSub]

theorem encR_w : wordW (encR op w d a b fn) = w := by
  simp (disch := decide) only [encR, wordW, extract_high, extract_low, extract_all, Nat.reduceSub]

theorem encR_d : wordD (encR op w d a b fn) = d := by
  simp (disch := decide) only [encR, wordD, extract_high, extract_low, extract_all, Nat.reduceSub]

theorem encR_a : wordA (encR op w d a b fn) = a := by
  simp (disch := decide) only [encR, wordA, extract_high, extract_low, extract_all, Nat.reduceSub]

theorem encR_b : wordB (encR op w d a b fn) = b := by
  simp (disch := decide) only [encR, wordB, extract_high, extract_low, extract_all, Nat.reduceSub]

theorem encR_fn : wordFn (encR op w d a b fn) = fn := by
  simp (disch := decide) only [encR, wordFn, extract_low, extract_all]

end Fields

theorem fshiL_fields : ∀ k : BitVec 5, BitVec.extractLsb' 5 5 (0#6 ++ k) = 0#5 ∧ (0#6 ++ k)[10] = false ∧
    BitVec.setWidth 5 (0#6 ++ k) = k := by decide

theorem fshiR_fields : ∀ k : BitVec 5, BitVec.extractLsb' 5 5 (32#6 ++ k) = 0#5 ∧ (32#6 ++ k)[10] = true ∧
    BitVec.setWidth 5 (32#6 ++ k) = k := by decide

theorem encI_op (op : BitVec 5) (w : BitVec 2) (d a : BitVec 7) (i : BitVec 11) : wordOp (encI op w d a i) = op := by
  simp (disch := decide) only [encI, wordOp, extract_high, extract_all, Nat.reduceSub]

theorem encI_w (op : BitVec 5) (w : BitVec 2) (d a : BitVec 7) (i : BitVec 11) : wordW (encI op w d a i) = w := by
  simp (disch := decide) only [encI, wordW, extract_high, extract_low, extract_all, Nat.reduceSub]

theorem encI_d (op : BitVec 5) (w : BitVec 2) (d a : BitVec 7) (i : BitVec 11) : wordD (encI op w d a i) = d := by
  simp (disch := decide) only [encI, wordD, extract_high, extract_low, extract_all, Nat.reduceSub]

theorem encI_a (op : BitVec 5) (w : BitVec 2) (d a : BitVec 7) (i : BitVec 11) : wordA (encI op w d a i) = a := by
  simp (disch := decide) only [encI, wordA, extract_high, extract_low, extract_all, Nat.reduceSub]

theorem encI_i (op : BitVec 5) (w : BitVec 2) (d a : BitVec 7) (i : BitVec 11) : (encI op w d a i).extractLsb' 0 11 = i := by
  simp (disch := decide) only [encI, extract_low, extract_all]

theorem encL_op (op : BitVec 5) (w : BitVec 2) (d : BitVec 7) (i : BitVec 18) : wordOp (encL op w d i) = op := by
  simp (disch := decide) only [encL, wordOp, extract_high, extract_all, Nat.reduceSub]

theorem encL_w (op : BitVec 5) (w : BitVec 2) (d : BitVec 7) (i : BitVec 18) : wordW (encL op w d i) = w := by
  simp (disch := decide) only [encL, wordW, extract_high, extract_low, extract_all, Nat.reduceSub]

theorem encL_d (op : BitVec 5) (w : BitVec 2) (d : BitVec 7) (i : BitVec 18) : wordD (encL op w d i) = d := by
  simp (disch := decide) only [encL, wordD, extract_high, extract_low, extract_all, Nat.reduceSub]

theorem encL_i (op : BitVec 5) (w : BitVec 2) (d : BitVec 7) (i : BitVec 18) : (encL op w d i).extractLsb' 0 18 = i := by
  simp (disch := decide) only [encL, extract_low, extract_all]

theorem encJ_op (op : BitVec 5) (c : BitVec 3) (o : BitVec 24) : wordOp (encJ op c o) = op := by
  simp (disch := decide) only [encJ, wordOp, extract_high, extract_all, Nat.reduceSub]

theorem encJ_c (op : BitVec 5) (c : BitVec 3) (o : BitVec 24) : (encJ op c o).extractLsb' 24 3 = c := by
  simp (disch := decide) only [encJ, extract_high, extract_low, extract_all, Nat.reduceSub]

theorem encJ_o (op : BitVec 5) (c : BitVec 3) (o : BitVec 24) : (encJ op c o).extractLsb' 0 24 = o := by
  simp (disch := decide) only [encJ, extract_low, extract_all]

theorem encT_op (t : BitVec 8) (d a b : BitVec 6) : wordOp (encT t d a b) = 0x16#5 := by
  simp (disch := decide) only [encT, wordOp, extract_high, extract_all, Nat.reduceSub]

theorem encT_t (t : BitVec 8) (d a b : BitVec 6) : (encT t d a b).extractLsb' 19 8 = t := by
  simp (disch := decide) only [encT, extract_high, extract_low, extract_all, Nat.reduceSub]

theorem encT_d (t : BitVec 8) (d a b : BitVec 6) : (encT t d a b).extractLsb' 13 6 = d := by
  simp (disch := decide) only [encT, extract_high, extract_low, extract_all, Nat.reduceSub]

theorem encT_a (t : BitVec 8) (d a b : BitVec 6) : (encT t d a b).extractLsb' 7 6 = a := by
  simp (disch := decide) only [encT, extract_high, extract_low, extract_all, Nat.reduceSub]

theorem encT_b (t : BitVec 8) (d a b : BitVec 6) : (encT t d a b).extractLsb' 1 6 = b := by
  simp (disch := decide) only [encT, extract_high, extract_low, extract_all, Nat.reduceSub]

theorem encT_z (t : BitVec 8) (d a b : BitVec 6) : (encT t d a b)[0] = false := by
  rw [← BitVec.getLsbD_eq_getElem, encT, BitVec.getLsbD_append]; simp

theorem encH_op (x : BitVec 12) (a b : BitVec 4) (l : BitVec 3) (h : BitVec 4) : wordOp (encH x a b l h) = 0x1F#5 := by
  simp (disch := decide) only [encH, wordOp, extract_high, extract_all, Nat.reduceSub]

theorem encH_wait (x : BitVec 12) (a b : BitVec 4) (l : BitVec 3) (h : BitVec 4) : (encH x a b l h).extractLsb' 15 12 = x := by
  simp (disch := decide) only [encH, extract_high, extract_low, extract_all, Nat.reduceSub]

theorem encH_seta (x : BitVec 12) (a b : BitVec 4) (l : BitVec 3) (h : BitVec 4) : (encH x a b l h).extractLsb' 11 4 = a := by
  simp (disch := decide) only [encH, extract_high, extract_low, extract_all, Nat.reduceSub]

theorem encH_setb (x : BitVec 12) (a b : BitVec 4) (l : BitVec 3) (h : BitVec 4) : (encH x a b l h).extractLsb' 7 4 = b := by
  simp (disch := decide) only [encH, extract_high, extract_low, extract_all, Nat.reduceSub]

theorem encH_len (x : BitVec 12) (a b : BitVec 4) (l : BitVec 3) (h : BitVec 4) : (encH x a b l h).extractLsb' 4 3 = l := by
  simp (disch := decide) only [encH, extract_high, extract_low, extract_all, Nat.reduceSub]

theorem encH_hint (x : BitVec 12) (a b : BitVec 4) (l : BitVec 3) (h : BitVec 4) : (encH x a b l h).extractLsb' 0 4 = h := by
  simp (disch := decide) only [encH, extract_low, extract_all]



section Classes

variable (w : BitVec 2) (d a b : BitVec 7) (fn : BitVec 4)

theorem decode_ialu : decode (encR 0x01#5 w d a b fn) = decodeIalu w d a b fn := by
  simp [decode, encR_op, encR_w, encR_d, encR_a, encR_b, encR_fn]

theorem decode_ibit : decode (encR 0x02#5 w d a b fn) = decodeIbit w d a b fn := by
  simp [decode, encR_op, encR_w, encR_d, encR_a, encR_b, encR_fn]

theorem decode_falu : decode (encR 0x03#5 w d a b fn) = decodeFalu w d a b fn := by
  simp [decode, encR_op, encR_w, encR_d, encR_a, encR_b, encR_fn]

theorem decode_halu : decode (encR 0x04#5 w d a b fn) = decodeHalu w d a b fn := by
  simp [decode, encR_op, encR_w, encR_d, encR_a, encR_b, encR_fn]

theorem decode_cvt : decode (encR 0x05#5 w d a b fn) = decodeCvt w d a b fn := by
  simp [decode, encR_op, encR_w, encR_d, encR_a, encR_b, encR_fn]

theorem decode_cmp : decode (encR 0x06#5 w d a b fn) = decodeCmp w d a b fn := by
  simp [decode, encR_op, encR_w, encR_d, encR_a, encR_b, encR_fn]

theorem decode_trn : decode (encR 0x07#5 w d a b fn) = decodeTrn w d a b fn := by
  simp [decode, encR_op, encR_w, encR_d, encR_a, encR_b, encR_fn]

theorem decode_xlane : decode (encR 0x08#5 w d a b fn) = decodeXlane w d a b fn := by
  simp [decode, encR_op, encR_w, encR_d, encR_a, encR_b, encR_fn]

theorem decode_salu : decode (encR 0x09#5 w d a b fn) = decodeSalu w d a b fn := by
  simp [decode, encR_op, encR_w, encR_d, encR_a, encR_b, encR_fn]

theorem decode_ldx : decode (encR 0x10#5 w d a b fn) = decodeLdx w d a b fn := by
  simp [decode, encR_op, encR_w, encR_d, encR_a, encR_b, encR_fn]

theorem decode_atom : decode (encR 0x11#5 w d a b fn) = decodeAtom w d a b fn := by
  simp [decode, encR_op, encR_w, encR_d, encR_a, encR_b, encR_fn]

theorem decode_atom64 : decode (encR 0x12#5 w d a b fn) = decodeAtom64 w d a b fn := by
  simp [decode, encR_op, encR_w, encR_d, encR_a, encR_b, encR_fn]

theorem decode_eng : decode (encR 0x13#5 w d a b fn) = decodeEng w d a b fn := by
  simp [decode, encR_op, encR_w, encR_d, encR_a, encR_b, encR_fn]

theorem decode_mtx : decode (encR 0x14#5 w d a b fn) = decodeMtx w d a b fn := by
  simp [decode, encR_op, encR_w, encR_d, encR_a, encR_b, encR_fn]

theorem decode_mctl : decode (encR 0x15#5 w d a b fn) = decodeMctl w d a b fn := by
  simp [decode, encR_op, encR_w, encR_d, encR_a, encR_b, encR_fn]

theorem decode_ctl : decode (encR 0x1A#5 w d a b fn) = decodeCtl w d a b fn := by
  simp [decode, encR_op, encR_w, encR_d, encR_a, encR_b, encR_fn]

theorem decode_task : decode (encR 0x1B#5 w d a b fn) = decodeTask w d a b fn := by
  simp [decode, encR_op, encR_w, encR_d, encR_a, encR_b, encR_fn]

theorem decode_sys : decode (encR 0x1C#5 w d a b fn) = decodeSys w d a b fn := by
  simp [decode, encR_op, encR_w, encR_d, encR_a, encR_b, encR_fn]

end Classes

/-- A well-formed instruction that has a word decodes from it. -/
def Encoded.Statement (i : Instr) : Prop := ∀ w, i.wf = true → encode i = some w → decode w = .ok i

theorem Encoded.clause (x : BitVec 12) (a : BitVec 4) (b : BitVec 4) (l : BitVec 3) (h : BitVec 4) : Encoded.Statement (.clause x a b l h) := by
  rintro w hw ⟨⟩
  simp [decode, encH_op, encH_wait, encH_seta, encH_setb, encH_len, encH_hint]

theorem Encoded.iadd (d : Opd) (a : Opd) (b : Opd) : Encoded.Statement (.iadd d a b) := by
  rintro w hw ⟨⟩
  simp [decode_ialu, decodeIalu, ofCode_code]

theorem Encoded.isub (d : Opd) (a : Opd) (b : Opd) : Encoded.Statement (.isub d a b) := by
  rintro w hw ⟨⟩
  simp [decode_ialu, decodeIalu, ofCode_code]

theorem Encoded.imul (d : Opd) (a : Opd) (b : Opd) : Encoded.Statement (.imul d a b) := by
  rintro w hw ⟨⟩
  simp [decode_ialu, decodeIalu, ofCode_code]

theorem Encoded.imulhi (d : Opd) (a : Opd) (b : Opd) : Encoded.Statement (.imulhi d a b) := by
  rintro w hw ⟨⟩
  simp [decode_ialu, decodeIalu, ofCode_code]

theorem Encoded.nmulhi (d : Opd) (a : Opd) (b : Opd) : Encoded.Statement (.nmulhi d a b) := by
  rintro w hw ⟨⟩
  simp [decode_ialu, decodeIalu, ofCode_code]

theorem Encoded.imin (d : Opd) (a : Opd) (b : Opd) : Encoded.Statement (.imin d a b) := by
  rintro w hw ⟨⟩
  simp [decode_ialu, decodeIalu, ofCode_code]

theorem Encoded.imax (d : Opd) (a : Opd) (b : Opd) : Encoded.Statement (.imax d a b) := by
  rintro w hw ⟨⟩
  simp [decode_ialu, decodeIalu, ofCode_code]

theorem Encoded.nmin (d : Opd) (a : Opd) (b : Opd) : Encoded.Statement (.nmin d a b) := by
  rintro w hw ⟨⟩
  simp [decode_ialu, decodeIalu, ofCode_code]

theorem Encoded.nmax (d : Opd) (a : Opd) (b : Opd) : Encoded.Statement (.nmax d a b) := by
  rintro w hw ⟨⟩
  simp [decode_ialu, decodeIalu, ofCode_code]

theorem Encoded.andV (d : Opd) (a : Opd) (b : Opd) : Encoded.Statement (.andV d a b) := by
  rintro w hw ⟨⟩
  simp [decode_ialu, decodeIalu, ofCode_code]

theorem Encoded.orV (d : Opd) (a : Opd) (b : Opd) : Encoded.Statement (.orV d a b) := by
  rintro w hw ⟨⟩
  simp [decode_ialu, decodeIalu, ofCode_code]

theorem Encoded.xorV (d : Opd) (a : Opd) (b : Opd) : Encoded.Statement (.xorV d a b) := by
  rintro w hw ⟨⟩
  simp [decode_ialu, decodeIalu, ofCode_code]

theorem Encoded.shlV (d : Opd) (a : Opd) (b : Opd) : Encoded.Statement (.shlV d a b) := by
  rintro w hw ⟨⟩
  simp [decode_ialu, decodeIalu, ofCode_code]

theorem Encoded.shrV (d : Opd) (a : Opd) (b : Opd) : Encoded.Statement (.shrV d a b) := by
  rintro w hw ⟨⟩
  simp [decode_ialu, decodeIalu, ofCode_code]

theorem Encoded.sarV (d : Opd) (a : Opd) (b : Opd) : Encoded.Statement (.sarV d a b) := by
  rintro w hw ⟨⟩
  simp [decode_ialu, decodeIalu, ofCode_code]

theorem Encoded.isad (d : Opd) (a : Opd) (b : Opd) : Encoded.Statement (.isad d a b) := by
  rintro w hw ⟨⟩
  simp [decode_ialu, decodeIalu, ofCode_code]

theorem Encoded.popc (d : Opd) (a : Opd) : Encoded.Statement (.popc d a) := by
  rintro w hw ⟨⟩
  simp [decode_ibit, decodeIbit, ifZero, ofCode_code]

theorem Encoded.clz (d : Opd) (a : Opd) : Encoded.Statement (.clz d a) := by
  rintro w hw ⟨⟩
  simp [decode_ibit, decodeIbit, ifZero, ofCode_code]

theorem Encoded.ctz (d : Opd) (a : Opd) : Encoded.Statement (.ctz d a) := by
  rintro w hw ⟨⟩
  simp [decode_ibit, decodeIbit, ifZero, ofCode_code]

theorem Encoded.brev (d : Opd) (a : Opd) : Encoded.Statement (.brev d a) := by
  rintro w hw ⟨⟩
  simp [decode_ibit, decodeIbit, ifZero, ofCode_code]

theorem Encoded.bfe (d : Opd) (a : Opd) (b : Opd) : Encoded.Statement (.bfe d a b) := by
  rintro w hw ⟨⟩
  simp [decode_ibit, decodeIbit, ofCode_code]

theorem Encoded.bfi (d : Opd) (a : Opd) (b : Opd) : Encoded.Statement (.bfi d a b) := by
  rintro w hw ⟨⟩
  simp [decode_ibit, decodeIbit, ofCode_code]

theorem Encoded.fshl (d : Opd) (a : Opd) (b : Opd) : Encoded.Statement (.fshl d a b) := by
  rintro w hw ⟨⟩
  simp [decode_ibit, decodeIbit, ofCode_code]

theorem Encoded.fshr (d : Opd) (a : Opd) (b : Opd) : Encoded.Statement (.fshr d a b) := by
  rintro w hw ⟨⟩
  simp [decode_ibit, decodeIbit, ofCode_code]

theorem Encoded.rotl (d : Opd) (a : Opd) (b : Opd) : Encoded.Statement (.rotl d a b) := by
  rintro w hw ⟨⟩
  simp [decode_ibit, decodeIbit, ofCode_code]

theorem Encoded.iabs (d : Opd) (a : Opd) : Encoded.Statement (.iabs d a) := by
  rintro w hw ⟨⟩
  simp [decode_ibit, decodeIbit, ifZero, ofCode_code]

theorem Encoded.ineg (d : Opd) (a : Opd) : Encoded.Statement (.ineg d a) := by
  rintro w hw ⟨⟩
  simp [decode_ibit, decodeIbit, ifZero, ofCode_code]

theorem Encoded.imad (d : Opd) (a : Opd) (b : Opd) : Encoded.Statement (.imad d a b) := by
  rintro w hw ⟨⟩
  simp [decode_ibit, decodeIbit, ofCode_code]

theorem Encoded.faddF32 (d : Opd) (a : Opd) (b : Opd) : Encoded.Statement (.faddF32 d a b) := by
  rintro w hw ⟨⟩
  simp [decode_falu, decodeFalu, ofCode_code]

theorem Encoded.fsubF32 (d : Opd) (a : Opd) (b : Opd) : Encoded.Statement (.fsubF32 d a b) := by
  rintro w hw ⟨⟩
  simp [decode_falu, decodeFalu, ofCode_code]

theorem Encoded.fmulF32 (d : Opd) (a : Opd) (b : Opd) : Encoded.Statement (.fmulF32 d a b) := by
  rintro w hw ⟨⟩
  simp [decode_falu, decodeFalu, ofCode_code]

theorem Encoded.fmaF32 (d : Opd) (a : Opd) (b : Opd) : Encoded.Statement (.fmaF32 d a b) := by
  rintro w hw ⟨⟩
  simp [decode_falu, decodeFalu, ofCode_code]

theorem Encoded.fmsF32 (d : Opd) (a : Opd) (b : Opd) : Encoded.Statement (.fmsF32 d a b) := by
  rintro w hw ⟨⟩
  simp [decode_falu, decodeFalu, ofCode_code]

theorem Encoded.fnmaF32 (d : Opd) (a : Opd) (b : Opd) : Encoded.Statement (.fnmaF32 d a b) := by
  rintro w hw ⟨⟩
  simp [decode_falu, decodeFalu, ofCode_code]

theorem Encoded.fminF32 (d : Opd) (a : Opd) (b : Opd) : Encoded.Statement (.fminF32 d a b) := by
  rintro w hw ⟨⟩
  simp [decode_falu, decodeFalu, ofCode_code]

theorem Encoded.fmaxF32 (d : Opd) (a : Opd) (b : Opd) : Encoded.Statement (.fmaxF32 d a b) := by
  rintro w hw ⟨⟩
  simp [decode_falu, decodeFalu, ofCode_code]

theorem Encoded.fabsF32 (d : Opd) (a : Opd) : Encoded.Statement (.fabsF32 d a) := by
  rintro w hw ⟨⟩
  simp [decode_falu, decodeFalu, ifZero, ofCode_code]

theorem Encoded.fnegF32 (d : Opd) (a : Opd) : Encoded.Statement (.fnegF32 d a) := by
  rintro w hw ⟨⟩
  simp [decode_falu, decodeFalu, ifZero, ofCode_code]

theorem Encoded.fcpsF32 (d : Opd) (a : Opd) (b : Opd) : Encoded.Statement (.fcpsF32 d a b) := by
  rintro w hw ⟨⟩
  simp [decode_falu, decodeFalu, ofCode_code]

theorem Encoded.ffloorF32 (d : Opd) (a : Opd) : Encoded.Statement (.ffloorF32 d a) := by
  rintro w hw ⟨⟩
  simp [decode_falu, decodeFalu, ifZero, ofCode_code]

theorem Encoded.fceilF32 (d : Opd) (a : Opd) : Encoded.Statement (.fceilF32 d a) := by
  rintro w hw ⟨⟩
  simp [decode_falu, decodeFalu, ifZero, ofCode_code]

theorem Encoded.ftruncF32 (d : Opd) (a : Opd) : Encoded.Statement (.ftruncF32 d a) := by
  rintro w hw ⟨⟩
  simp [decode_falu, decodeFalu, ifZero, ofCode_code]

theorem Encoded.frintF32 (d : Opd) (a : Opd) : Encoded.Statement (.frintF32 d a) := by
  rintro w hw ⟨⟩
  simp [decode_falu, decodeFalu, ifZero, ofCode_code]

theorem Encoded.fclassF32 (d : Opd) (a : Opd) : Encoded.Statement (.fclassF32 d a) := by
  rintro w hw ⟨⟩
  simp [decode_falu, decodeFalu, ifZero, ofCode_code]

theorem Encoded.haddBf16 (d : Opd) (a : Opd) (b : Opd) : Encoded.Statement (.haddBf16 d a b) := by
  rintro w hw ⟨⟩
  simp [decode_halu, decodeHalu, ofCode_code]

theorem Encoded.hsubBf16 (d : Opd) (a : Opd) (b : Opd) : Encoded.Statement (.hsubBf16 d a b) := by
  rintro w hw ⟨⟩
  simp [decode_halu, decodeHalu, ofCode_code]

theorem Encoded.hmulBf16 (d : Opd) (a : Opd) (b : Opd) : Encoded.Statement (.hmulBf16 d a b) := by
  rintro w hw ⟨⟩
  simp [decode_halu, decodeHalu, ofCode_code]

theorem Encoded.hfmaBf16 (d : Opd) (a : Opd) (b : Opd) : Encoded.Statement (.hfmaBf16 d a b) := by
  rintro w hw ⟨⟩
  simp [decode_halu, decodeHalu, ofCode_code]

theorem Encoded.hminBf16 (d : Opd) (a : Opd) (b : Opd) : Encoded.Statement (.hminBf16 d a b) := by
  rintro w hw ⟨⟩
  simp [decode_halu, decodeHalu, ofCode_code]

theorem Encoded.hmaxBf16 (d : Opd) (a : Opd) (b : Opd) : Encoded.Statement (.hmaxBf16 d a b) := by
  rintro w hw ⟨⟩
  simp [decode_halu, decodeHalu, ofCode_code]

theorem Encoded.hdot2Bf16 (d : Opd) (a : Opd) (b : Opd) : Encoded.Statement (.hdot2Bf16 d a b) := by
  rintro w hw ⟨⟩
  simp [decode_halu, decodeHalu, ofCode_code]

theorem Encoded.haddF16 (d : Opd) (a : Opd) (b : Opd) : Encoded.Statement (.haddF16 d a b) := by
  rintro w hw ⟨⟩
  simp [decode_halu, decodeHalu, ofCode_code]

theorem Encoded.hsubF16 (d : Opd) (a : Opd) (b : Opd) : Encoded.Statement (.hsubF16 d a b) := by
  rintro w hw ⟨⟩
  simp [decode_halu, decodeHalu, ofCode_code]

theorem Encoded.hmulF16 (d : Opd) (a : Opd) (b : Opd) : Encoded.Statement (.hmulF16 d a b) := by
  rintro w hw ⟨⟩
  simp [decode_halu, decodeHalu, ofCode_code]

theorem Encoded.hfmaF16 (d : Opd) (a : Opd) (b : Opd) : Encoded.Statement (.hfmaF16 d a b) := by
  rintro w hw ⟨⟩
  simp [decode_halu, decodeHalu, ofCode_code]

theorem Encoded.hminF16 (d : Opd) (a : Opd) (b : Opd) : Encoded.Statement (.hminF16 d a b) := by
  rintro w hw ⟨⟩
  simp [decode_halu, decodeHalu, ofCode_code]

theorem Encoded.hmaxF16 (d : Opd) (a : Opd) (b : Opd) : Encoded.Statement (.hmaxF16 d a b) := by
  rintro w hw ⟨⟩
  simp [decode_halu, decodeHalu, ofCode_code]

theorem Encoded.hdot2F16 (d : Opd) (a : Opd) (b : Opd) : Encoded.Statement (.hdot2F16 d a b) := by
  rintro w hw ⟨⟩
  simp [decode_halu, decodeHalu, ofCode_code]

theorem Encoded.cvtI32F32 (d : Opd) (a : Opd) : Encoded.Statement (.cvtI32F32 d a) := by
  rintro w hw ⟨⟩
  simp [decode_cvt, decodeCvt, ifZero, ofCode_code]

theorem Encoded.cvtN32F32 (d : Opd) (a : Opd) : Encoded.Statement (.cvtN32F32 d a) := by
  rintro w hw ⟨⟩
  simp [decode_cvt, decodeCvt, ifZero, ofCode_code]

theorem Encoded.cvtF32I32 (d : Opd) (a : Opd) : Encoded.Statement (.cvtF32I32 d a) := by
  rintro w hw ⟨⟩
  simp [decode_cvt, decodeCvt, ifZero, ofCode_code]

theorem Encoded.cvtF32N32 (d : Opd) (a : Opd) : Encoded.Statement (.cvtF32N32 d a) := by
  rintro w hw ⟨⟩
  simp [decode_cvt, decodeCvt, ifZero, ofCode_code]

theorem Encoded.cvtBf16F32Lo (d : Opd) (a : Opd) : Encoded.Statement (.cvtBf16F32Lo d a) := by
  rintro w hw ⟨⟩
  simp [decode_cvt, decodeCvt, ifZero, ofCode_code]

theorem Encoded.cvtBf16F32Hi (d : Opd) (a : Opd) : Encoded.Statement (.cvtBf16F32Hi d a) := by
  rintro w hw ⟨⟩
  simp [decode_cvt, decodeCvt, ifZero, ofCode_code]

theorem Encoded.cvtF32Bf16Lo (d : Opd) (a : Opd) : Encoded.Statement (.cvtF32Bf16Lo d a) := by
  rintro w hw ⟨⟩
  simp [decode_cvt, decodeCvt, ifZero, ofCode_code]

theorem Encoded.cvtF32Bf16Hi (d : Opd) (a : Opd) : Encoded.Statement (.cvtF32Bf16Hi d a) := by
  rintro w hw ⟨⟩
  simp [decode_cvt, decodeCvt, ifZero, ofCode_code]

theorem Encoded.cvtF16F32Lo (d : Opd) (a : Opd) : Encoded.Statement (.cvtF16F32Lo d a) := by
  rintro w hw ⟨⟩
  simp [decode_cvt, decodeCvt, ifZero, ofCode_code]

theorem Encoded.cvtF16F32Hi (d : Opd) (a : Opd) : Encoded.Statement (.cvtF16F32Hi d a) := by
  rintro w hw ⟨⟩
  simp [decode_cvt, decodeCvt, ifZero, ofCode_code]

theorem Encoded.cvtF32F16Lo (d : Opd) (a : Opd) : Encoded.Statement (.cvtF32F16Lo d a) := by
  rintro w hw ⟨⟩
  simp [decode_cvt, decodeCvt, ifZero, ofCode_code]

theorem Encoded.cvtF32F16Hi (d : Opd) (a : Opd) : Encoded.Statement (.cvtF32F16Hi d a) := by
  rintro w hw ⟨⟩
  simp [decode_cvt, decodeCvt, ifZero, ofCode_code]

theorem Encoded.cvtL6F32 (d : Opd) (a : Opd) (b : Opd) : Encoded.Statement (.cvtL6F32 d a b) := by
  rintro w hw ⟨⟩
  simp [decode_cvt, decodeCvt, ofCode_code]

theorem Encoded.cvtF32L6 (d : Opd) (a : Opd) (b : Opd) : Encoded.Statement (.cvtF32L6 d a b) := by
  rintro w hw ⟨⟩
  simp [decode_cvt, decodeCvt, ofCode_code]

theorem Encoded.cvtQL6 (d : Opd) (a : Opd) (b : Opd) : Encoded.Statement (.cvtQL6 d a b) := by
  rintro w hw ⟨⟩
  simp [decode_cvt, decodeCvt, ofCode_code]

theorem Encoded.feq (d : Opd) (a : Opd) (b : Opd) : Encoded.Statement (.feq d a b) := by
  rintro w hw ⟨⟩
  simp [decode_cmp, decodeCmp, ofCode_code]

theorem Encoded.fne (d : Opd) (a : Opd) (b : Opd) : Encoded.Statement (.fne d a b) := by
  rintro w hw ⟨⟩
  simp [decode_cmp, decodeCmp, ofCode_code]

theorem Encoded.flt (d : Opd) (a : Opd) (b : Opd) : Encoded.Statement (.flt d a b) := by
  rintro w hw ⟨⟩
  simp [decode_cmp, decodeCmp, ofCode_code]

theorem Encoded.fle (d : Opd) (a : Opd) (b : Opd) : Encoded.Statement (.fle d a b) := by
  rintro w hw ⟨⟩
  simp [decode_cmp, decodeCmp, ofCode_code]

theorem Encoded.fgt (d : Opd) (a : Opd) (b : Opd) : Encoded.Statement (.fgt d a b) := by
  rintro w hw ⟨⟩
  simp [decode_cmp, decodeCmp, ofCode_code]

theorem Encoded.fge (d : Opd) (a : Opd) (b : Opd) : Encoded.Statement (.fge d a b) := by
  rintro w hw ⟨⟩
  simp [decode_cmp, decodeCmp, ofCode_code]

theorem Encoded.ford (d : Opd) (a : Opd) (b : Opd) : Encoded.Statement (.ford d a b) := by
  rintro w hw ⟨⟩
  simp [decode_cmp, decodeCmp, ofCode_code]

theorem Encoded.funo (d : Opd) (a : Opd) (b : Opd) : Encoded.Statement (.funo d a b) := by
  rintro w hw ⟨⟩
  simp [decode_cmp, decodeCmp, ofCode_code]

theorem Encoded.ieq (d : Opd) (a : Opd) (b : Opd) : Encoded.Statement (.ieq d a b) := by
  rintro w hw ⟨⟩
  simp [decode_cmp, decodeCmp, ofCode_code]

theorem Encoded.ine (d : Opd) (a : Opd) (b : Opd) : Encoded.Statement (.ine d a b) := by
  rintro w hw ⟨⟩
  simp [decode_cmp, decodeCmp, ofCode_code]

theorem Encoded.ilt (d : Opd) (a : Opd) (b : Opd) : Encoded.Statement (.ilt d a b) := by
  rintro w hw ⟨⟩
  simp [decode_cmp, decodeCmp, ofCode_code]

theorem Encoded.ile (d : Opd) (a : Opd) (b : Opd) : Encoded.Statement (.ile d a b) := by
  rintro w hw ⟨⟩
  simp [decode_cmp, decodeCmp, ofCode_code]

theorem Encoded.nlt (d : Opd) (a : Opd) (b : Opd) : Encoded.Statement (.nlt d a b) := by
  rintro w hw ⟨⟩
  simp [decode_cmp, decodeCmp, ofCode_code]

theorem Encoded.nle (d : Opd) (a : Opd) (b : Opd) : Encoded.Statement (.nle d a b) := by
  rintro w hw ⟨⟩
  simp [decode_cmp, decodeCmp, ofCode_code]

theorem Encoded.fcls (d : Opd) (a : Opd) (b : Opd) : Encoded.Statement (.fcls d a b) := by
  rintro w hw ⟨⟩
  simp [decode_cmp, decodeCmp, ofCode_code]

theorem Encoded.rcp (d : Opd) (a : Opd) : Encoded.Statement (.rcp d a) := by
  rintro w hw ⟨⟩
  simp [decode_trn, decodeTrn, ifZero, ofCode_code]

theorem Encoded.rsq (d : Opd) (a : Opd) : Encoded.Statement (.rsq d a) := by
  rintro w hw ⟨⟩
  simp [decode_trn, decodeTrn, ifZero, ofCode_code]

theorem Encoded.sqrt (d : Opd) (a : Opd) : Encoded.Statement (.sqrt d a) := by
  rintro w hw ⟨⟩
  simp [decode_trn, decodeTrn, ifZero, ofCode_code]

theorem Encoded.exp2 (d : Opd) (a : Opd) : Encoded.Statement (.exp2 d a) := by
  rintro w hw ⟨⟩
  simp [decode_trn, decodeTrn, ifZero, ofCode_code]

theorem Encoded.log2 (d : Opd) (a : Opd) : Encoded.Statement (.log2 d a) := by
  rintro w hw ⟨⟩
  simp [decode_trn, decodeTrn, ifZero, ofCode_code]

theorem Encoded.sinpi (d : Opd) (a : Opd) : Encoded.Statement (.sinpi d a) := by
  rintro w hw ⟨⟩
  simp [decode_trn, decodeTrn, ifZero, ofCode_code]

theorem Encoded.cospi (d : Opd) (a : Opd) : Encoded.Statement (.cospi d a) := by
  rintro w hw ⟨⟩
  simp [decode_trn, decodeTrn, ifZero, ofCode_code]

theorem Encoded.tanh (d : Opd) (a : Opd) : Encoded.Statement (.tanh d a) := by
  rintro w hw ⟨⟩
  simp [decode_trn, decodeTrn, ifZero, ofCode_code]

theorem Encoded.shfl (d : Opd) (a : Opd) (b : Opd) : Encoded.Statement (.shfl d a b) := by
  rintro w hw ⟨⟩
  simp [decode_xlane, decodeXlane, ofCode_code]

theorem Encoded.shfx (d : Opd) (a : Opd) (b : Opd) : Encoded.Statement (.shfx d a b) := by
  rintro w hw ⟨⟩
  simp [decode_xlane, decodeXlane, ofCode_code]

theorem Encoded.shfu (d : Opd) (a : Opd) (b : Opd) : Encoded.Statement (.shfu d a b) := by
  rintro w hw ⟨⟩
  simp [decode_xlane, decodeXlane, ofCode_code]

theorem Encoded.shfd (d : Opd) (a : Opd) (b : Opd) : Encoded.Statement (.shfd d a b) := by
  rintro w hw ⟨⟩
  simp [decode_xlane, decodeXlane, ofCode_code]

theorem Encoded.bcast (d : Opd) (a : Opd) (b : Opd) : Encoded.Statement (.bcast d a b) := by
  rintro w hw ⟨⟩
  simp [decode_xlane, decodeXlane, ofCode_code]

theorem Encoded.ballot (d : Opd) (a : Opd) : Encoded.Statement (.ballot d a) := by
  rintro w hw ⟨⟩
  simp [decode_xlane, decodeXlane, ifZero, ofCode_code]

theorem Encoded.vany (d : Opd) (a : Opd) : Encoded.Statement (.vany d a) := by
  rintro w hw ⟨⟩
  simp [decode_xlane, decodeXlane, ifZero, ofCode_code]

theorem Encoded.vall (d : Opd) (a : Opd) : Encoded.Statement (.vall d a) := by
  rintro w hw ⟨⟩
  simp [decode_xlane, decodeXlane, ifZero, ofCode_code]

theorem Encoded.redi (d : Opd) (a : Opd) : Encoded.Statement (.redi d a) := by
  rintro w hw ⟨⟩
  simp [decode_xlane, decodeXlane, ifZero, ofCode_code]

theorem Encoded.redf (d : Opd) (a : Opd) : Encoded.Statement (.redf d a) := by
  rintro w hw ⟨⟩
  simp [decode_xlane, decodeXlane, ifZero, ofCode_code]

theorem Encoded.redmx (d : Opd) (a : Opd) (b : Opd) : Encoded.Statement (.redmx d a b) := by
  rintro w hw ⟨⟩
  simp [decode_xlane, decodeXlane, ofCode_code]

theorem Encoded.scani (d : Opd) (a : Opd) (b : Opd) : Encoded.Statement (.scani d a b) := by
  rintro w hw ⟨⟩
  simp [decode_xlane, decodeXlane, ofCode_code]

theorem Encoded.sshf (d : Opd) (a : Opd) (b : Opd) : Encoded.Statement (.sshf d a b) := by
  rintro w hw ⟨⟩
  simp [decode_xlane, decodeXlane, ofCode_code]

theorem Encoded.sshx (d : Opd) (a : Opd) (b : Opd) : Encoded.Statement (.sshx d a b) := by
  rintro w hw ⟨⟩
  simp [decode_xlane, decodeXlane, ofCode_code]

theorem Encoded.sbc (d : Opd) (a : Opd) (b : Opd) : Encoded.Statement (.sbc d a b) := by
  rintro w hw ⟨⟩
  simp [decode_xlane, decodeXlane, ofCode_code]

theorem Encoded.sadd (d : Opd) (a : Opd) (b : Opd) : Encoded.Statement (.sadd d a b) := by
  rintro w hw ⟨⟩
  simp [decode_salu, decodeSalu, ofCode_code]

theorem Encoded.ssub (d : Opd) (a : Opd) (b : Opd) : Encoded.Statement (.ssub d a b) := by
  rintro w hw ⟨⟩
  simp [decode_salu, decodeSalu, ofCode_code]

theorem Encoded.smul (d : Opd) (a : Opd) (b : Opd) : Encoded.Statement (.smul d a b) := by
  rintro w hw ⟨⟩
  simp [decode_salu, decodeSalu, ofCode_code]

theorem Encoded.sand (d : Opd) (a : Opd) (b : Opd) : Encoded.Statement (.sand d a b) := by
  rintro w hw ⟨⟩
  simp [decode_salu, decodeSalu, ofCode_code]

theorem Encoded.sor (d : Opd) (a : Opd) (b : Opd) : Encoded.Statement (.sor d a b) := by
  rintro w hw ⟨⟩
  simp [decode_salu, decodeSalu, ofCode_code]

theorem Encoded.sxor (d : Opd) (a : Opd) (b : Opd) : Encoded.Statement (.sxor d a b) := by
  rintro w hw ⟨⟩
  simp [decode_salu, decodeSalu, ofCode_code]

theorem Encoded.sshl (d : Opd) (a : Opd) (b : Opd) : Encoded.Statement (.sshl d a b) := by
  rintro w hw ⟨⟩
  simp [decode_salu, decodeSalu, ofCode_code]

theorem Encoded.sshr (d : Opd) (a : Opd) (b : Opd) : Encoded.Statement (.sshr d a b) := by
  rintro w hw ⟨⟩
  simp [decode_salu, decodeSalu, ofCode_code]

theorem Encoded.ssar (d : Opd) (a : Opd) (b : Opd) : Encoded.Statement (.ssar d a b) := by
  rintro w hw ⟨⟩
  simp [decode_salu, decodeSalu, ofCode_code]

theorem Encoded.smin (d : Opd) (a : Opd) (b : Opd) : Encoded.Statement (.smin d a b) := by
  rintro w hw ⟨⟩
  simp [decode_salu, decodeSalu, ofCode_code]

theorem Encoded.smax (d : Opd) (a : Opd) (b : Opd) : Encoded.Statement (.smax d a b) := by
  rintro w hw ⟨⟩
  simp [decode_salu, decodeSalu, ofCode_code]

theorem Encoded.snmin (d : Opd) (a : Opd) (b : Opd) : Encoded.Statement (.snmin d a b) := by
  rintro w hw ⟨⟩
  simp [decode_salu, decodeSalu, ofCode_code]

theorem Encoded.snmax (d : Opd) (a : Opd) (b : Opd) : Encoded.Statement (.snmax d a b) := by
  rintro w hw ⟨⟩
  simp [decode_salu, decodeSalu, ofCode_code]

theorem Encoded.scmpeq (d : Opd) (a : Opd) (b : Opd) : Encoded.Statement (.scmpeq d a b) := by
  rintro w hw ⟨⟩
  simp [decode_salu, decodeSalu, ofCode_code]

theorem Encoded.scmplt (d : Opd) (a : Opd) (b : Opd) : Encoded.Statement (.scmplt d a b) := by
  rintro w hw ⟨⟩
  simp [decode_salu, decodeSalu, ofCode_code]

theorem Encoded.scmpnlt (d : Opd) (a : Opd) (b : Opd) : Encoded.Statement (.scmpnlt d a b) := by
  rintro w hw ⟨⟩
  simp [decode_salu, decodeSalu, ofCode_code]

theorem Encoded.saddi (d : Opd) (a : Opd) (i : BitVec 11) : Encoded.Statement (.saddi d a i) := by
  rintro w hw ⟨⟩
  simp [decode, decodeI, encI_op, encI_w, encI_d, encI_a, encI_i, ofCode_code]

theorem Encoded.movi (d : Opd) (i : BitVec 18) : Encoded.Statement (.movi d i) := by
  rintro w hw ⟨⟩
  simp [decode, decodeL, encL_op, encL_w, encL_d, encL_i, ofCode_code]

theorem Encoded.movhi (d : Opd) (i : BitVec 18) : Encoded.Statement (.movhi d i) := by
  rintro w hw ⟨⟩
  simp [decode, decodeL, encL_op, encL_w, encL_d, encL_i, ofCode_code]

theorem Encoded.vaddi (d : Opd) (a : Opd) (i : BitVec 11) : Encoded.Statement (.vaddi d a i) := by
  rintro w hw ⟨⟩
  simp [decode, decodeI, encI_op, encI_w, encI_d, encI_a, encI_i, ofCode_code]

theorem Encoded.ld (x : BitVec 2) (d : Opd) (a : Opd) (i : BitVec 11) : Encoded.Statement (.ld x d a i) := by
  rintro w hw ⟨⟩
  simp [decode, decodeI, encI_op, encI_w, encI_d, encI_a, encI_i, ofCode_code]

theorem Encoded.st (x : BitVec 2) (d : Opd) (a : Opd) (i : BitVec 11) : Encoded.Statement (.st x d a i) := by
  rintro w hw ⟨⟩
  simp [decode, decodeI, encI_op, encI_w, encI_d, encI_a, encI_i, ofCode_code]

theorem Encoded.ldS8 (d : Opd) (a : Opd) (b : Opd) : Encoded.Statement (.ldS8 d a b) := by
  rintro w hw ⟨⟩
  simp [decode_ldx, decodeLdx, ofCode_code]

theorem Encoded.ldZ8 (d : Opd) (a : Opd) (b : Opd) : Encoded.Statement (.ldZ8 d a b) := by
  rintro w hw ⟨⟩
  simp [decode_ldx, decodeLdx, ofCode_code]

theorem Encoded.ldS16 (d : Opd) (a : Opd) (b : Opd) : Encoded.Statement (.ldS16 d a b) := by
  rintro w hw ⟨⟩
  simp [decode_ldx, decodeLdx, ofCode_code]

theorem Encoded.ldZ16 (d : Opd) (a : Opd) (b : Opd) : Encoded.Statement (.ldZ16 d a b) := by
  rintro w hw ⟨⟩
  simp [decode_ldx, decodeLdx, ofCode_code]

theorem Encoded.st8 (d : Opd) (a : Opd) (b : Opd) : Encoded.Statement (.st8 d a b) := by
  rintro w hw ⟨⟩
  simp [decode_ldx, decodeLdx, ofCode_code]

theorem Encoded.st16 (d : Opd) (a : Opd) (b : Opd) : Encoded.Statement (.st16 d a b) := by
  rintro w hw ⟨⟩
  simp [decode_ldx, decodeLdx, ofCode_code]

theorem Encoded.ldl (x : BitVec 2) (d : Opd) (a : Opd) (b : Opd) : Encoded.Statement (.ldl x d a b) := by
  rintro w hw ⟨⟩
  simp [decode_ldx, decodeLdx, ofCode_code]

theorem Encoded.stl (x : BitVec 2) (d : Opd) (a : Opd) (b : Opd) : Encoded.Statement (.stl x d a b) := by
  rintro w hw ⟨⟩
  simp [decode_ldx, decodeLdx, ofCode_code]

theorem Encoded.ald (d : Opd) (a : Opd) (b : Opd) : Encoded.Statement (.ald d a b) := by
  rintro w hw ⟨⟩
  simp [decode_ldx, decodeLdx, ofCode_code]

theorem Encoded.aldUnp (d : Opd) (a : Opd) (b : Opd) : Encoded.Statement (.aldUnp d a b) := by
  rintro w hw ⟨⟩
  simp [decode_ldx, decodeLdx, ofCode_code]

theorem Encoded.aldQnt (d : Opd) (a : Opd) (b : Opd) : Encoded.Statement (.aldQnt d a b) := by
  rintro w hw ⟨⟩
  simp [decode_ldx, decodeLdx, ofCode_code]

theorem Encoded.aldSpec (d : Opd) (a : Opd) (b : Opd) : Encoded.Statement (.aldSpec d a b) := by
  rintro w hw ⟨⟩
  simp [decode_ldx, decodeLdx, ofCode_code]

theorem Encoded.ast (d : Opd) (a : Opd) (b : Opd) : Encoded.Statement (.ast d a b) := by
  rintro w hw ⟨⟩
  simp [decode_ldx, decodeLdx, ofCode_code]

theorem Encoded.astUnp (d : Opd) (a : Opd) (b : Opd) : Encoded.Statement (.astUnp d a b) := by
  rintro w hw ⟨⟩
  simp [decode_ldx, decodeLdx, ofCode_code]

theorem Encoded.ldi (x : BitVec 2) (d : Opd) (a : Opd) (b : Opd) : Encoded.Statement (.ldi x d a b) := by
  rintro w hw ⟨⟩
  simp [decode_ldx, decodeLdx, ofCode_code]

theorem Encoded.atomAdd (x : BitVec 2) (d : Opd) (a : Opd) (b : Opd) : Encoded.Statement (.atomAdd x d a b) := by
  rintro w hw ⟨⟩
  simp [decode_atom, decodeAtom, ofCode_code]

theorem Encoded.atomSub (x : BitVec 2) (d : Opd) (a : Opd) (b : Opd) : Encoded.Statement (.atomSub x d a b) := by
  rintro w hw ⟨⟩
  simp [decode_atom, decodeAtom, ofCode_code]

theorem Encoded.atomMin (x : BitVec 2) (d : Opd) (a : Opd) (b : Opd) : Encoded.Statement (.atomMin x d a b) := by
  rintro w hw ⟨⟩
  simp [decode_atom, decodeAtom, ofCode_code]

theorem Encoded.atomMax (x : BitVec 2) (d : Opd) (a : Opd) (b : Opd) : Encoded.Statement (.atomMax x d a b) := by
  rintro w hw ⟨⟩
  simp [decode_atom, decodeAtom, ofCode_code]

theorem Encoded.atomNmin (x : BitVec 2) (d : Opd) (a : Opd) (b : Opd) : Encoded.Statement (.atomNmin x d a b) := by
  rintro w hw ⟨⟩
  simp [decode_atom, decodeAtom, ofCode_code]

theorem Encoded.atomNmax (x : BitVec 2) (d : Opd) (a : Opd) (b : Opd) : Encoded.Statement (.atomNmax x d a b) := by
  rintro w hw ⟨⟩
  simp [decode_atom, decodeAtom, ofCode_code]

theorem Encoded.atomAnd (x : BitVec 2) (d : Opd) (a : Opd) (b : Opd) : Encoded.Statement (.atomAnd x d a b) := by
  rintro w hw ⟨⟩
  simp [decode_atom, decodeAtom, ofCode_code]

theorem Encoded.atomOr (x : BitVec 2) (d : Opd) (a : Opd) (b : Opd) : Encoded.Statement (.atomOr x d a b) := by
  rintro w hw ⟨⟩
  simp [decode_atom, decodeAtom, ofCode_code]

theorem Encoded.atomXor (x : BitVec 2) (d : Opd) (a : Opd) (b : Opd) : Encoded.Statement (.atomXor x d a b) := by
  rintro w hw ⟨⟩
  simp [decode_atom, decodeAtom, ofCode_code]

theorem Encoded.atomXchg (x : BitVec 2) (d : Opd) (a : Opd) (b : Opd) : Encoded.Statement (.atomXchg x d a b) := by
  rintro w hw ⟨⟩
  simp [decode_atom, decodeAtom, ofCode_code]

theorem Encoded.atomCas (x : BitVec 2) (d : Opd) (a : Opd) (b : Opd) : Encoded.Statement (.atomCas x d a b) := by
  rintro w hw ⟨⟩
  simp [decode_atom, decodeAtom, ofCode_code]

theorem Encoded.atomInc (x : BitVec 2) (d : Opd) (a : Opd) (b : Opd) : Encoded.Statement (.atomInc x d a b) := by
  rintro w hw ⟨⟩
  simp [decode_atom, decodeAtom, ofCode_code]

theorem Encoded.atomDec (x : BitVec 2) (d : Opd) (a : Opd) (b : Opd) : Encoded.Statement (.atomDec x d a b) := by
  rintro w hw ⟨⟩
  simp [decode_atom, decodeAtom, ofCode_code]

theorem Encoded.atomFadd (x : BitVec 2) (d : Opd) (a : Opd) (b : Opd) : Encoded.Statement (.atomFadd x d a b) := by
  rintro w hw ⟨⟩
  simp [decode_atom, decodeAtom, ofCode_code]

theorem Encoded.atomFmin (x : BitVec 2) (d : Opd) (a : Opd) (b : Opd) : Encoded.Statement (.atomFmin x d a b) := by
  rintro w hw ⟨⟩
  simp [decode_atom, decodeAtom, ofCode_code]

theorem Encoded.atomFmax (x : BitVec 2) (d : Opd) (a : Opd) (b : Opd) : Encoded.Statement (.atomFmax x d a b) := by
  rintro w hw ⟨⟩
  simp [decode_atom, decodeAtom, ofCode_code]

theorem Encoded.atom64Add (x : BitVec 2) (d : Opd) (a : Opd) (b : Opd) : Encoded.Statement (.atom64Add x d a b) := by
  rintro w hw ⟨⟩
  simp [decode_atom64, decodeAtom64, ofCode_code]

theorem Encoded.atom64Sub (x : BitVec 2) (d : Opd) (a : Opd) (b : Opd) : Encoded.Statement (.atom64Sub x d a b) := by
  rintro w hw ⟨⟩
  simp [decode_atom64, decodeAtom64, ofCode_code]

theorem Encoded.atom64Min (x : BitVec 2) (d : Opd) (a : Opd) (b : Opd) : Encoded.Statement (.atom64Min x d a b) := by
  rintro w hw ⟨⟩
  simp [decode_atom64, decodeAtom64, ofCode_code]

theorem Encoded.atom64Max (x : BitVec 2) (d : Opd) (a : Opd) (b : Opd) : Encoded.Statement (.atom64Max x d a b) := by
  rintro w hw ⟨⟩
  simp [decode_atom64, decodeAtom64, ofCode_code]

theorem Encoded.atom64Nmin (x : BitVec 2) (d : Opd) (a : Opd) (b : Opd) : Encoded.Statement (.atom64Nmin x d a b) := by
  rintro w hw ⟨⟩
  simp [decode_atom64, decodeAtom64, ofCode_code]

theorem Encoded.atom64Nmax (x : BitVec 2) (d : Opd) (a : Opd) (b : Opd) : Encoded.Statement (.atom64Nmax x d a b) := by
  rintro w hw ⟨⟩
  simp [decode_atom64, decodeAtom64, ofCode_code]

theorem Encoded.atom64And (x : BitVec 2) (d : Opd) (a : Opd) (b : Opd) : Encoded.Statement (.atom64And x d a b) := by
  rintro w hw ⟨⟩
  simp [decode_atom64, decodeAtom64, ofCode_code]

theorem Encoded.atom64Or (x : BitVec 2) (d : Opd) (a : Opd) (b : Opd) : Encoded.Statement (.atom64Or x d a b) := by
  rintro w hw ⟨⟩
  simp [decode_atom64, decodeAtom64, ofCode_code]

theorem Encoded.atom64Xor (x : BitVec 2) (d : Opd) (a : Opd) (b : Opd) : Encoded.Statement (.atom64Xor x d a b) := by
  rintro w hw ⟨⟩
  simp [decode_atom64, decodeAtom64, ofCode_code]

theorem Encoded.atom64Xchg (x : BitVec 2) (d : Opd) (a : Opd) (b : Opd) : Encoded.Statement (.atom64Xchg x d a b) := by
  rintro w hw ⟨⟩
  simp [decode_atom64, decodeAtom64, ofCode_code]

theorem Encoded.copy (d : Opd) (a : Opd) : Encoded.Statement (.copy d a) := by
  rintro w hw ⟨⟩
  simp [decode_eng, decodeEng, ifZero, ofCode_code]

theorem Encoded.copyT2 (d : Opd) (a : Opd) : Encoded.Statement (.copyT2 d a) := by
  rintro w hw ⟨⟩
  simp [decode_eng, decodeEng, ifZero, ofCode_code]

theorem Encoded.copyT3 (d : Opd) (a : Opd) : Encoded.Statement (.copyT3 d a) := by
  rintro w hw ⟨⟩
  simp [decode_eng, decodeEng, ifZero, ofCode_code]

theorem Encoded.copyConv (d : Opd) (a : Opd) : Encoded.Statement (.copyConv d a) := by
  rintro w hw ⟨⟩
  simp [decode_eng, decodeEng, ifZero, ofCode_code]

theorem Encoded.qcopy (d : Opd) (a : Opd) : Encoded.Statement (.qcopy d a) := by
  rintro w hw ⟨⟩
  simp [decode_eng, decodeEng, ifZero, ofCode_code]

theorem Encoded.catchL (d : Opd) (a : Opd) : Encoded.Statement (.catchL d a) := by
  rintro w hw ⟨⟩
  simp [decode_eng, decodeEng, ifZero, ofCode_code]

theorem Encoded.catchT2 (d : Opd) (a : Opd) : Encoded.Statement (.catchT2 d a) := by
  rintro w hw ⟨⟩
  simp [decode_eng, decodeEng, ifZero, ofCode_code]

theorem Encoded.pref (d : Opd) (a : Opd) : Encoded.Statement (.pref d a) := by
  rintro w hw ⟨⟩
  simp [decode_eng, decodeEng, ifZero, ofCode_code]

theorem Encoded.mload (d : Opd) (a : Opd) : Encoded.Statement (.mload d a) := by
  rintro w hw ⟨⟩
  simp [decode_eng, decodeEng, ifZero, ofCode_code]

theorem Encoded.mloop (d : Opd) (a : Opd) : Encoded.Statement (.mloop d a) := by
  rintro w hw ⟨⟩
  simp [decode_mtx, decodeMtx, ifZero, ofCode_code]

theorem Encoded.mloops (d : Opd) (a : Opd) : Encoded.Statement (.mloops d a) := by
  rintro w hw ⟨⟩
  simp [decode_mtx, decodeMtx, ifZero, ofCode_code]

theorem Encoded.mdrain (d : Opd) (a : Opd) : Encoded.Statement (.mdrain d a) := by
  rintro w hw ⟨⟩
  simp [decode_mtx, decodeMtx, ifZero, ofCode_code]

theorem Encoded.mdrains (d : Opd) (a : Opd) : Encoded.Statement (.mdrains d a) := by
  rintro w hw ⟨⟩
  simp [decode_mtx, decodeMtx, ifZero, ofCode_code]

theorem Encoded.mzero (d : Opd) (a : Opd) : Encoded.Statement (.mzero d a) := by
  rintro w hw ⟨⟩
  simp [decode_mtx, decodeMtx, ifZero, ofCode_code]

theorem Encoded.msig (d : Opd) (a : Opd) : Encoded.Statement (.msig d a) := by
  rintro w hw ⟨⟩
  simp [decode_mtx, decodeMtx, ifZero, ofCode_code]

theorem Encoded.mskip (d : Opd) (a : Opd) : Encoded.Statement (.mskip d a) := by
  rintro w hw ⟨⟩
  simp [decode_mtx, decodeMtx, ifZero, ofCode_code]

theorem Encoded.mstat (d : Opd) (a : Opd) : Encoded.Statement (.mstat d a) := by
  rintro w hw ⟨⟩
  simp [decode_mtx, decodeMtx, ifZero, ofCode_code]

theorem Encoded.fenceSys : Encoded.Statement (.fenceSys) := by
  rintro w hw ⟨⟩
  simp [decode_mctl, decodeMctl, ifZero]

theorem Encoded.fenceHost : Encoded.Statement (.fenceHost) := by
  rintro w hw ⟨⟩
  simp [decode_mctl, decodeMctl, ifZero]

theorem Encoded.inval (a : Opd) (b : Opd) : Encoded.Statement (.inval a b) := by
  rintro w hw ⟨⟩
  simp [decode_mctl, decodeMctl, ifZero, ofCode_code]

theorem Encoded.flush (a : Opd) (b : Opd) : Encoded.Statement (.flush a b) := by
  rintro w hw ⟨⟩
  simp [decode_mctl, decodeMctl, ifZero, ofCode_code]

theorem Encoded.waitf (a : BitVec 6) (b : BitVec 6) : Encoded.Statement (.waitf a b) := by
  rintro w hw ⟨⟩
  simp [decode_mctl, decodeMctl, ifZero]; omega

theorem Encoded.lop3 (t : BitVec 8) (d : BitVec 6) (a : BitVec 6) (b : BitVec 6) : Encoded.Statement (.lop3 t d a b) := by
  rintro w hw ⟨⟩
  simp [decode, encT_op, encT_t, encT_d, encT_a, encT_b, encT_z, ifZero]

theorem Encoded.fshiL (d : Opd) (a : Opd) (k : BitVec 5) : Encoded.Statement (.fshiL d a k) := by
  rintro w hw ⟨⟩
  simp [decode, decodeI, encI_op, encI_w, encI_d, encI_a, encI_i, ifZero, ofCode_code]
  simp [fshiL_fields k]

theorem Encoded.fshiR (d : Opd) (a : Opd) (k : BitVec 5) : Encoded.Statement (.fshiR d a k) := by
  rintro w hw ⟨⟩
  simp [decode, decodeI, encI_op, encI_w, encI_d, encI_a, encI_i, ifZero, ofCode_code]
  simp [fshiR_fields k]

theorem Encoded.br (o : BitVec 24) : Encoded.Statement (.br o) := by
  rintro w hw ⟨⟩
  simp [decode, decodeJ, encJ_op, encJ_c, encJ_o]

theorem Encoded.brExecz (o : BitVec 24) : Encoded.Statement (.brExecz o) := by
  rintro w hw ⟨⟩
  simp [decode, decodeJ, encJ_op, encJ_c, encJ_o]

theorem Encoded.brExecnz (o : BitVec 24) : Encoded.Statement (.brExecnz o) := by
  rintro w hw ⟨⟩
  simp [decode, decodeJ, encJ_op, encJ_c, encJ_o]

theorem Encoded.brScc1 (o : BitVec 24) : Encoded.Statement (.brScc1 o) := by
  rintro w hw ⟨⟩
  simp [decode, decodeJ, encJ_op, encJ_c, encJ_o]

theorem Encoded.brScc0 (o : BitVec 24) : Encoded.Statement (.brScc0 o) := by
  rintro w hw ⟨⟩
  simp [decode, decodeJ, encJ_op, encJ_c, encJ_o]

theorem Encoded.callW (o : BitVec 24) : Encoded.Statement (.callW o) := by
  rintro w hw ⟨⟩
  simp [decode, decodeJ, encJ_op, encJ_c, encJ_o]

theorem Encoded.retW : Encoded.Statement (.retW) := by
  rintro w hw ⟨⟩
  simp [decode_ctl, decodeCtl, ifZero]

theorem Encoded.jmpi (a : Opd) : Encoded.Statement (.jmpi a) := by
  rintro w hw ⟨⟩
  simp [decode_ctl, decodeCtl, ifZero, ofCode_code]

theorem Encoded.join (l : BitVec 7) : Encoded.Statement (.join l) := by
  rintro w hw ⟨⟩
  simp [decode_ctl, decodeCtl, ifZero]

theorem Encoded.wnd (a : Opd) (b : BitVec 6) : Encoded.Statement (.wnd a b) := by
  rintro w hw ⟨⟩
  simp [decode_ctl, decodeCtl, ifZero, ofCode_code]; omega

theorem Encoded.endW : Encoded.Statement (.endW) := by
  rintro w hw ⟨⟩
  simp [decode_ctl, decodeCtl, ifZero]

theorem Encoded.svc (x : BitVec 1) (d : Opd) (a : Opd) (b : Opd) : Encoded.Statement (.svc x d a b) := by
  rintro w hw ⟨⟩
  simp [decode_ctl, decodeCtl, ofCode_code]; omega

theorem Encoded.trap (n : BitVec 7) : Encoded.Statement (.trap n) := by
  rintro w hw ⟨⟩
  simp [decode_ctl, decodeCtl, ifZero]

theorem Encoded.nop : Encoded.Statement (.nop) := by
  rintro w hw ⟨⟩
  simp [decode_ctl, decodeCtl, ifZero]

theorem Encoded.movs (d : Opd) (i : BitVec 7) : Encoded.Statement (.movs d i) := by
  rintro w hw ⟨⟩
  simp [decode_ctl, decodeCtl, ifZero, ofCode_code]

theorem Encoded.movt (a : Opd) (i : BitVec 7) : Encoded.Statement (.movt a i) := by
  rintro w hw ⟨⟩
  simp [decode_ctl, decodeCtl, ifZero, ofCode_code]

theorem Encoded.uiret : Encoded.Statement (.uiret) := by
  rintro w hw ⟨⟩
  simp [decode_ctl, decodeCtl, ifZero]

theorem Encoded.brk (n : BitVec 7) : Encoded.Statement (.brk n) := by
  rintro w hw ⟨⟩
  simp [decode_ctl, decodeCtl, ifZero]

theorem Encoded.yield : Encoded.Statement (.yield) := by
  rintro w hw ⟨⟩
  simp [decode_ctl, decodeCtl, ifZero]

theorem Encoded.take (d : Opd) : Encoded.Statement (.take d) := by
  rintro w hw ⟨⟩
  simp [decode_task, decodeTask, ifZero, ofCode_code]

theorem Encoded.spawn (d : Opd) (a : Opd) : Encoded.Statement (.spawn d a) := by
  rintro w hw ⟨⟩
  simp [decode_task, decodeTask, ifZero, ofCode_code]

theorem Encoded.joinc (a : Opd) : Encoded.Statement (.joinc a) := by
  rintro w hw ⟨⟩
  simp [decode_task, decodeTask, ifZero, ofCode_code]

theorem Encoded.barSync (b : BitVec 7) : Encoded.Statement (.barSync b) := by
  rintro w hw ⟨⟩
  simp [decode_task, decodeTask, ifZero]

theorem Encoded.barArr (d : Opd) (a : Opd) (b : BitVec 7) : Encoded.Statement (.barArr d a b) := by
  rintro w hw ⟨⟩
  simp [decode_task, decodeTask, ofCode_code]

theorem Encoded.barArrG (d : Opd) (a : Opd) (b : Opd) : Encoded.Statement (.barArrG d a b) := by
  rintro w hw ⟨⟩
  simp [decode_task, decodeTask, ofCode_code]

theorem Encoded.barWait (a : Opd) (b : BitVec 7) : Encoded.Statement (.barWait a b) := by
  rintro w hw ⟨⟩
  simp [decode_task, decodeTask, ifZero, ofCode_code]

theorem Encoded.barWaitG (a : Opd) (b : Opd) : Encoded.Statement (.barWaitG a b) := by
  rintro w hw ⟨⟩
  simp [decode_task, decodeTask, ifZero, ofCode_code]

theorem Encoded.give (n : BitVec 7) : Encoded.Statement (.give n) := by
  rintro w hw ⟨⟩
  simp [decode_task, decodeTask, ifZero]

theorem Encoded.claim (n : BitVec 7) : Encoded.Statement (.claim n) := by
  rintro w hw ⟨⟩
  simp [decode_task, decodeTask, ifZero]

theorem Encoded.roleW (a : Opd) : Encoded.Statement (.roleW a) := by
  rintro w hw ⟨⟩
  simp [decode_task, decodeTask, ifZero, ofCode_code]

theorem Encoded.cancel (a : Opd) (l : BitVec 7) : Encoded.Statement (.cancel a l) := by
  rintro w hw ⟨⟩
  simp [decode_task, decodeTask, ifZero, ofCode_code]

theorem Encoded.ctr (d : Opd) (l : BitVec 7) : Encoded.Statement (.ctr d l) := by
  rintro w hw ⟨⟩
  simp [decode_task, decodeTask, ifZero, ofCode_code]

theorem Encoded.fret (a : Opd) (b : Opd) : Encoded.Statement (.fret a b) := by
  rintro w hw ⟨⟩
  simp [decode_sys, decodeSys, ifZero, ofCode_code]

theorem Encoded.pmap (d : Opd) (a : Opd) (b : Opd) : Encoded.Statement (.pmap d a b) := by
  rintro w hw ⟨⟩
  simp [decode_sys, decodeSys, ofCode_code]

theorem Encoded.tlbi (d : Opd) (a : Opd) (b : Opd) : Encoded.Statement (.tlbi d a b) := by
  rintro w hw ⟨⟩
  simp [decode_sys, decodeSys, ofCode_code]

theorem Encoded.asidr (d : Opd) (a : Opd) : Encoded.Statement (.asidr d a) := by
  rintro w hw ⟨⟩
  simp [decode_sys, decodeSys, ifZero, ofCode_code]

theorem Encoded.sksave (d : Opd) (a : Opd) (b : Opd) : Encoded.Statement (.sksave d a b) := by
  rintro w hw ⟨⟩
  simp [decode_sys, decodeSys, ofCode_code]

theorem Encoded.skload (d : Opd) (a : Opd) (b : Opd) : Encoded.Statement (.skload d a b) := by
  rintro w hw ⟨⟩
  simp [decode_sys, decodeSys, ofCode_code]

theorem Encoded.ecnt (d : Opd) : Encoded.Statement (.ecnt d) := by
  rintro w hw ⟨⟩
  simp [decode_sys, decodeSys, ifZero, ofCode_code]

theorem Encoded.uintr (a : Opd) (b : Opd) : Encoded.Statement (.uintr a b) := by
  rintro w hw ⟨⟩
  simp [decode_sys, decodeSys, ifZero, ofCode_code]

theorem Encoded.pstat (d : Opd) (a : Opd) (i : BitVec 7) : Encoded.Statement (.pstat d a i) := by
  rintro w hw ⟨⟩
  simp [decode_sys, decodeSys, ofCode_code]

theorem Encoded.pstatW (d : Opd) (a : Opd) (i : BitVec 7) : Encoded.Statement (.pstatW d a i) := by
  rintro w hw ⟨⟩
  simp [decode_sys, decodeSys, ofCode_code]

theorem Encoded.halt (a : Opd) : Encoded.Statement (.halt a) := by
  rintro w hw ⟨⟩
  simp [decode_sys, decodeSys, ifZero, ofCode_code]

theorem Encoded.fetchEntryGrant (core : Nat) : Encoded.Statement (.fetchEntryGrant core) := by
  rintro w - ⟨⟩

theorem Encoded.fetchEntryRotation (team : Nat) (first : Nat) : Encoded.Statement (.fetchEntryRotation team first) := by
  rintro w - ⟨⟩

theorem Encoded.priorityAgeing (team : Nat) (slice : Nat) : Encoded.Statement (.priorityAgeing team slice) := by
  rintro w - ⟨⟩

theorem Encoded.sliceEnd (team : Nat) (slice : Nat) : Encoded.Statement (.sliceEnd team slice) := by
  rintro w - ⟨⟩

theorem Encoded.takeRequest (team : Nat) : Encoded.Statement (.takeRequest team) := by
  rintro w - ⟨⟩

theorem Encoded.barrierWordRecheck (team : Nat) (slice : Nat) : Encoded.Statement (.barrierWordRecheck team slice) := by
  rintro w - ⟨⟩

theorem Encoded.loadComplete (op : Nat) : Encoded.Statement (.loadComplete op) := by
  rintro w - ⟨⟩

theorem Encoded.postedWritePerformed (op : Nat) : Encoded.Statement (.postedWritePerformed op) := by
  rintro w - ⟨⟩

theorem Encoded.pageWalkComplete (cluster : Nat) (asid : Nat) (page : Nat) : Encoded.Statement (.pageWalkComplete cluster asid page) := by
  rintro w - ⟨⟩

theorem Encoded.faultVector (team : Nat) (slice : Nat) : Encoded.Statement (.faultVector team slice) := by
  rintro w - ⟨⟩

theorem Encoded.userInterruptDelivery (team : Nat) (slice : Nat) : Encoded.Statement (.userInterruptDelivery team slice) := by
  rintro w - ⟨⟩

theorem Encoded.engineCommandComplete (team : Nat) (cmd : Nat) : Encoded.Statement (.engineCommandComplete team cmd) := by
  rintro w - ⟨⟩

theorem Encoded.catchBurstArrival (team : Nat) (cmd : Nat) (burst : Nat) : Encoded.Statement (.catchBurstArrival team cmd burst) := by
  rintro w - ⟨⟩

theorem Encoded.matrixQueueDispatch (core : Nat) : Encoded.Statement (.matrixQueueDispatch core) := by
  rintro w - ⟨⟩

theorem Encoded.serviceBatchEnqueue (batch : Nat) : Encoded.Statement (.serviceBatchEnqueue batch) := by
  rintro w - ⟨⟩

theorem Encoded.serviceStatus (batch : Nat) (status : BitVec 32) (replies : List (BitVec 64)) : Encoded.Statement (.serviceStatus batch status replies) := by
  rintro w - ⟨⟩

theorem Encoded.teamHold (team : Nat) : Encoded.Statement (.teamHold team) := by
  rintro w - ⟨⟩

theorem Encoded.tail (part : Nat) (queue : Nat) (value : BitVec 32) : Encoded.Statement (.tail part queue value) := by
  rintro w - ⟨⟩

theorem Encoded.userDoorbell (part : Nat) (value : BitVec 64) : Encoded.Statement (.userDoorbell part value) := by
  rintro w - ⟨⟩

theorem Encoded.loglost (part : Nat) (value : BitVec 32) : Encoded.Statement (.loglost part value) := by
  rintro w - ⟨⟩

theorem Encoded.partitionPageWrite (part : Nat) (offset : Nat) (value : BitVec 64) : Encoded.Statement (.partitionPageWrite part offset value) := by
  rintro w - ⟨⟩

theorem Encoded.nopPacket (part : Nat) (queue : Nat) : Encoded.Statement (.nopPacket part queue) := by
  rintro w - ⟨⟩

theorem Encoded.launch (part : Nat) (queue : Nat) : Encoded.Statement (.launch part queue) := by
  rintro w - ⟨⟩

theorem Encoded.cancelPacket (part : Nat) (queue : Nat) : Encoded.Statement (.cancelPacket part queue) := by
  rintro w - ⟨⟩

theorem Encoded.signal (part : Nat) (queue : Nat) : Encoded.Statement (.signal part queue) := by
  rintro w - ⟨⟩

theorem Encoded.preempt (part : Nat) (queue : Nat) : Encoded.Statement (.preempt part queue) := by
  rintro w - ⟨⟩

theorem Encoded.resume (part : Nat) (queue : Nat) : Encoded.Statement (.resume part queue) := by
  rintro w - ⟨⟩

theorem Encoded.teamStart (launch : Nat) (core : Nat) : Encoded.Statement (.teamStart launch core) := by
  rintro w - ⟨⟩

theorem Encoded.preemptionHalt (team : Nat) (granules : Nat) : Encoded.Statement (.preemptionHalt team granules) := by
  rintro w - ⟨⟩

theorem Encoded.contextStop (team : Nat) : Encoded.Statement (.contextStop team) := by
  rintro w - ⟨⟩

theorem Encoded.contextRestore (record : Nat) (core : Nat) : Encoded.Statement (.contextRestore record core) := by
  rintro w - ⟨⟩

theorem Encoded.dieFence (die : Nat) : Encoded.Statement (.dieFence die) := by
  rintro w - ⟨⟩

theorem Encoded.distributorReport (die : Nat) : Encoded.Statement (.distributorReport die) := by
  rintro w - ⟨⟩

theorem Encoded.thermalMigration (team : Nat) : Encoded.Statement (.thermalMigration team) := by
  rintro w - ⟨⟩

theorem Encoded.checkpointIntervalClose (part : Nat) (job : Nat) : Encoded.Statement (.checkpointIntervalClose part job) := by
  rintro w - ⟨⟩

theorem Encoded.arm (part : Nat) (job : Nat) (core : Nat) : Encoded.Statement (.arm part job core) := by
  rintro w - ⟨⟩

theorem Encoded.ceilingRaise (part : Nat) (job : Nat) : Encoded.Statement (.ceilingRaise part job) := by
  rintro w - ⟨⟩

theorem Encoded.checkpointCommit (part : Nat) (job : Nat) : Encoded.Statement (.checkpointCommit part job) := by
  rintro w - ⟨⟩

theorem Encoded.saveCostRecord (part : Nat) (job : Nat) : Encoded.Statement (.saveCostRecord part job) := by
  rintro w - ⟨⟩

theorem Encoded.staticEnergyTick : Encoded.Statement (.staticEnergyTick) := by
  rintro w - ⟨⟩

theorem Encoded.atsTranslationCompletion (die : Nat) (asid : Nat) (page : Nat) (granted : Bool) (hpa : Nat) (logSize : Nat) (r : Bool) (x : Bool) : Encoded.Statement (.atsTranslationCompletion die asid page granted hpa logSize r x) := by
  rintro w - ⟨⟩

theorem Encoded.pageResponse (die : Nat) (asid : Nat) (page : Nat) (success : Bool) : Encoded.Statement (.pageResponse die asid page success) := by
  rintro w - ⟨⟩

theorem Encoded.priTimeout (die : Nat) (asid : Nat) (page : Nat) : Encoded.Statement (.priTimeout die asid page) := by
  rintro w - ⟨⟩

theorem Encoded.atsInvalidateRequest (pasid : Nat) (va : Nat) (len : Nat) : Encoded.Statement (.atsInvalidateRequest pasid va len) := by
  rintro w - ⟨⟩

theorem Encoded.invalidateCompletion (inval : Nat) : Encoded.Statement (.invalidateCompletion inval) := by
  rintro w - ⟨⟩

theorem Encoded.ridgeRequest (source : Nat) (exportIdx : Nat) (key : Nat) (offset : Nat) (size : Nat) (kind : BitVec 2) (fn : BitVec 4) (data : List (BitVec 8)) : Encoded.Statement (.ridgeRequest source exportIdx key offset size kind fn data) := by
  rintro w - ⟨⟩

theorem Encoded.ridgeErrorCompletion (op : Nat) (lane : Nat) : Encoded.Statement (.ridgeErrorCompletion op lane) := by
  rintro w - ⟨⟩

theorem Encoded.ingressAccess (pa : Nat) (write : Bool) (size : Nat) (data : List (BitVec 8)) : Encoded.Statement (.ingressAccess pa write size data) := by
  rintro w - ⟨⟩

theorem Encoded.tierCreditUpdate (port : Nat) (devload : BitVec 2) : Encoded.Statement (.tierCreditUpdate port devload) := by
  rintro w - ⟨⟩

theorem Encoded.islandPause (island : Nat) : Encoded.Statement (.islandPause island) := by
  rintro w - ⟨⟩

theorem Encoded.patrolScrub (pa : Nat) (uncorrectable : Bool) : Encoded.Statement (.patrolScrub pa uncorrectable) := by
  rintro w - ⟨⟩

theorem Encoded.flr (part : Nat) : Encoded.Statement (.flr part) := by
  rintro w - ⟨⟩

theorem Encoded.powerGood (bootOk : Bool) (failedDies : BitVec 4) : Encoded.Statement (.powerGood bootOk failedDies) := by
  rintro w - ⟨⟩

theorem Encoded.partAssign : Encoded.Statement (.partAssign) := by
  rintro w - ⟨⟩

theorem Encoded.partSet : Encoded.Statement (.partSet) := by
  rintro w - ⟨⟩

theorem Encoded.partReset : Encoded.Statement (.partReset) := by
  rintro w - ⟨⟩

theorem Encoded.partFree : Encoded.Statement (.partFree) := by
  rintro w - ⟨⟩

theorem Encoded.ctxpool : Encoded.Statement (.ctxpool) := by
  rintro w - ⟨⟩

theorem Encoded.egress : Encoded.Statement (.egress) := by
  rintro w - ⟨⟩

theorem Encoded.importE : Encoded.Statement (.importE) := by
  rintro w - ⟨⟩

theorem Encoded.quiesce : Encoded.Statement (.quiesce) := by
  rintro w - ⟨⟩

theorem Encoded.quiesceAck (port : Nat) : Encoded.Statement (.quiesceAck port) := by
  rintro w - ⟨⟩

theorem Encoded.extentAdd : Encoded.Statement (.extentAdd) := by
  rintro w - ⟨⟩

theorem Encoded.extentRevoke : Encoded.Statement (.extentRevoke) := by
  rintro w - ⟨⟩

theorem Encoded.extentRelease (extent : Nat) : Encoded.Statement (.extentRelease extent) := by
  rintro w - ⟨⟩

theorem Encoded.fwStage : Encoded.Statement (.fwStage) := by
  rintro w - ⟨⟩

theorem Encoded.fwUpdate : Encoded.Statement (.fwUpdate) := by
  rintro w - ⟨⟩

theorem Encoded.lifecycle : Encoded.Statement (.lifecycle) := by
  rintro w - ⟨⟩

theorem Encoded.spare : Encoded.Statement (.spare) := by
  rintro w - ⟨⟩

theorem Encoded.ckptRegion : Encoded.Statement (.ckptRegion) := by
  rintro w - ⟨⟩

theorem Encoded.ckptBase : Encoded.Statement (.ckptBase) := by
  rintro w - ⟨⟩

theorem Encoded.illegalInstruction : Encoded.Statement (.illegalInstruction) := by
  rintro w - ⟨⟩

theorem Encoded.matrixCommandComplete (core : Nat) : Encoded.Statement (.matrixCommandComplete core) := by
  rintro w - ⟨⟩

theorem Encoded.streamerWrite (part : Nat) (job : Nat) : Encoded.Statement (.streamerWrite part job) := by
  rintro w - ⟨⟩

theorem Encoded.coreRelease (launch : Nat) (team : Nat) : Encoded.Statement (.coreRelease launch team) := by
  rintro w - ⟨⟩

theorem Encoded.ridgeFlitRetry (port : Nat) : Encoded.Statement (.ridgeFlitRetry port) := by
  rintro w - ⟨⟩

theorem Encoded.backInvalidation (pa : Nat) : Encoded.Statement (.backInvalidation pa) := by
  rintro w - ⟨⟩

theorem Encoded.go (offset : Nat) (value : BitVec 64) : Encoded.Statement (.go offset value) := by
  rintro w - ⟨⟩

end Sys2Proof.Laws
end

