-- ==== Sys2Proof/Laws/Words.lean ====
section
/-! SUPPORT. The words that change each slice of their sub-crew by itself: their effect once for all of them, and what
the vector and scalar effects leave in a slice. -/

namespace Sys2Proof.Machine

@[simp] theorem Slice.advance_idx (sl : Slice) : sl.advance.idx = sl.idx := by unfold Slice.advance; split <;> rfl
@[simp] theorem Slice.advance_ended (sl : Slice) : sl.advance.ended = sl.ended := by unfold Slice.advance; split <;> rfl
@[simp] theorem Slice.advance_block (sl : Slice) : sl.advance.block = sl.block := by unfold Slice.advance; split <;> rfl

/-- An effect on one slice that leaves its number, its end and its blocked state alone. -/
structure Slice.Plain (sl sl' : Slice) : Prop where
  idx : sl'.idx = sl.idx
  ended : sl'.ended = sl.ended
  block : sl'.block = sl.block

theorem State.settle_frame {s t : State} {p : At} (x : Team) (hx : s.team? p.team = some x) (k : Nat) (sl : Slice)
    (hk : x.slice? k = some sl) (hl : sl.ended = false) (hb : sl.block = .none) (ht : t = s.settle p.team) : SubsOnly p.team s t := by
  subst ht
  rw [State.settle_runs s p.team k sl (by rw [State.slice?_eq s p.team k x hx]; exact hk) hl hb]
  exact s.regroup_subs _

/-- A word that gives each slice of its sub-crew a new content by itself, `f` being given the team: the slice as
charged is what it works on. -/
theorem onMembers_effect {s : State} {i : Instr} {p : At} (h : s.Executes i p) (body : At → State → State)
    (f : Team → Slice → Slice)
    (hbody : ∀ z, body p z = z.setTeam p.team (fun t => t.onMembers p.members (f t)))
    (hf : ∀ t sl, (f t sl).idx = sl.idx)
    (hp : ∀ t k sl, k ∈ p.members → t.slice? k = some sl → (f t sl).ended = sl.ended ∧ (f t sl).block = sl.block) :
    ∃ t, issue i body s = .next t ∧ WordFrame s t i p
      ∧ EachSlice s t p (fun x sl sl' => ∃ y : Team, y.record = x.record ∧ y = { x with slices := y.slices, subs := y.subs, energy := y.energy, esat := y.esat }
          ∧ y.slices = x.slices.map (fun sl => if sl.idx ∈ p.members then sl.charged else sl) ∧ sl' = f y sl.charged) := by
  rw [issue_executes h body]
  obtain ⟨x, hx⟩ := h.team
  have hc := s.chargeWord_charged i p
  set z := s.chargeWord p i with hz
  obtain ⟨y, hy, hyr, hysl, hyen⟩ := hc.team x hx
  rw [hbody z]
  set g : Team → Team := fun t => t.onMembers p.members (f t) with hg
  set w := z.setTeam p.team g with hw
  have hwy : w.team? p.team = some (g y) := by
    rw [hw, State.team?_setTeam_self z p.team g (fun _ => rfl), hy]; rfl
  have hzsl := fun k => hc.slice? x hx k
  have hwsl : ∀ k, (g y).slice? k = (x.slice? k).map (fun sl => if k ∈ p.members then f y sl.charged else sl) := by
    intro k
    have h1 : y.slice? k = (x.slice? k).map (fun sl => if k ∈ p.members then sl.charged else sl) := by
      rw [← hzsl k, State.slice?_eq z p.team k y hy]
    rw [hg]
    simp only
    rw [Team.slice?_onMembers y p.members k (f y) (hf y), h1, Option.map_map]
    congr 1
    funext sl
    simp only [Function.comp]
    split <;> rfl
  -- some slice of the sub-crew runs afterwards
  obtain ⟨k0, hk0⟩ := List.exists_mem_of_ne_nil _ h.nonempty
  obtain ⟨sl0, hsl0, hr0, -⟩ := h.slices k0 hk0
  rw [State.slice?_eq s p.team k0 x hx] at hsl0
  have hw0 : (g y).slice? k0 = some (f y sl0.charged) := by rw [hwsl, hsl0]; simp [hk0]
  have hy0 : y.slice? k0 = some sl0.charged := by
    rw [← State.slice?_eq z p.team k0 y hy, hzsl k0, hsl0]; simp [hk0]
  have hp0 := hp y k0 _ hk0 hy0
  have hsub : SubsOnly p.team w (w.settle p.team) :=
    State.settle_frame (g y) hwy k0 _ hw0 (by rw [hp0.1]; exact hr0.live) (by rw [hp0.2]; exact hr0.free) rfl
  set t := w.settle p.team with ht
  have hrest : t = s.withUnits t :=
    State.withUnits_trans (State.withUnits_trans hc.rest (show w = z.withUnits w from rfl)) hsub.rest
  refine ⟨t, rfl, ?_, ?_⟩
  · refine ⟨hrest, fun a => by rw [hrest]; rfl, fun u hu => ?_, fun k hk => ?_, fun x' hx' => ?_, fun c => ?_⟩
    · rw [hsub.others u hu, hw, State.team?_setTeam_ne z g (fun _ => rfl) hu]; exact hc.others u hu
    · rw [hsub.slice?, State.slice?_eq w p.team k _ hwy, hwsl, State.slice?_eq s p.team k x hx]
      simp [hk]
    · rw [hx] at hx'; cases hx'
      have h1 := hsub.teams p.team
      rw [hwy] at h1
      refine ⟨_, h1, ?_, ?_⟩
      · simp only [hg, Team.onMembers]; rw [hyr]
      · simpa [hg] using hyen
    · rw [hsub.cores c]
      exact hc.engines c
  · intro k hk x' hx' sl hsl
    rw [hx] at hx'; cases hx'
    refine ⟨f y sl.charged, ?_, y, ?_, hyr, hysl, rfl⟩
    · rw [hsub.slice?, State.slice?_eq w p.team k _ hwy, hwsl, hsl]; simp [hk]
    · rw [hyr]

/-- The word of a sub-crew whose effect in a slice looks at nothing but the slice and the crew size. -/
theorem perSlice_effect {s : State} {i : Instr} {p : At} (h : s.Executes i p) (f : Nat → Slice → Slice)
    (hf : ∀ c sl, Slice.Plain sl (f c sl)) :
    ∃ t, issue i (perSlice f) s = .next t ∧ WordFrame s t i p
      ∧ EachSlice s t p (fun x sl sl' => sl' = (f x.record.crewlog sl.charged).advance) := by
  obtain ⟨t, h1, h2, h3⟩ := onMembers_effect h (perSlice f) (fun t sl => (f t.record.crewlog sl).advance) (fun _ => rfl)
    (fun t sl => by simp [(hf _ sl).idx]) (fun t k sl _ _ => by simp [(hf _ sl).ended, (hf _ sl).block])
  refine ⟨t, h1, h2, fun k hk x hx sl hsl => ?_⟩
  obtain ⟨sl', e1, y, e2, -, -, e3⟩ := h3 k hk x hx sl hsl
  exact ⟨sl', e1, by rw [e3, e2]⟩

/-! ## Registers -/

theorem Slice.vget_vset (sl : Slice) (p q l m : Nat) (w : Word) (hl : l < 4) (hm : m < 4) :
    (sl.vset p l w).vget q m = if p = q ∧ l = m then w else sl.vget q m := by
  simp only [vget, vset, nget_nset]
  have : (4 * p + l = 4 * q + m) ↔ (p = q ∧ l = m) := by omega
  simp only [this]

@[simp] theorem Slice.charged_vget (sl : Slice) (p l : Nat) : sl.charged.vget p l = sl.vget p l := rfl
@[simp] theorem Slice.charged_sget (sl : Slice) (n : Nat) : sl.charged.sget n = sl.sget n := rfl
@[simp] theorem Slice.charged_on (sl : Slice) (l : Nat) : sl.charged.on l = sl.on l := rfl
@[simp] theorem Slice.charged_lanes (sl : Slice) : sl.charged.lanes = sl.lanes := rfl
@[simp] theorem Slice.charged_wb (sl : Slice) : sl.charged.wb = sl.wb := rfl
@[simp] theorem Slice.charged_fps (sl : Slice) : sl.charged.fps = sl.fps := rfl
@[simp] theorem Slice.charged_fpc (sl : Slice) : sl.charged.fpc = sl.fpc := rfl
@[simp] theorem Slice.charged_eff (sl : Slice) : sl.charged.eff = sl.eff := rfl

@[simp] theorem Slice.charged_pos (sl : Slice) (c : Nat) : sl.charged.pos c = sl.pos c := by
  cases h : sl.thread <;> simp [Slice.pos, Slice.charged, h]

@[simp] theorem Slice.charged_sliceNo (sl : Slice) : sl.charged.sliceNo = sl.sliceNo := by
  cases h : sl.thread <;> simp [Slice.sliceNo, Slice.charged, h]

@[simp] theorem Slice.charged_bcVal (sl : Slice) (k : Nat) : sl.charged.bcVal k = sl.bcVal k := by
  cases h : sl.thread <;> simp [Slice.bcVal, Slice.charged, h]

/-- The charge of a word changes no operand. -/
@[simp] theorem Slice.charged_read (sl : Slice) (c : Nat) (o : Opd) (l : Nat) : sl.charged.read c o l = sl.read c o l := by
  cases o <;> simp [Slice.read] <;> rfl

@[simp] theorem Slice.charged_readS (sl : Slice) (o : Opd) : sl.charged.readS o = sl.readS o := by simp [Slice.readS]

@[simp] theorem Slice.charged_readN (sl : Slice) (c : Nat) (o : Opd) (l n : Nat) : sl.charged.readN c o l n = sl.readN c o l n := by
  induction n with
  | zero => rfl
  | succ n ih => simp [Slice.readN, ih]

@[simp] theorem Slice.charged_pair (sl : Slice) (c : Nat) (o : Opd) (l : Nat) : sl.charged.pair c o l = sl.pair c o l := by
  simp [Slice.pair]

@[simp] theorem Slice.advance_vget (sl : Slice) (p l : Nat) : sl.advance.vget p l = sl.vget p l := by
  unfold Slice.advance; split <;> rfl
@[simp] theorem Slice.advance_sget (sl : Slice) (n : Nat) : sl.advance.sget n = sl.sget n := by
  unfold Slice.advance; split <;> rfl

/-- `advance` moves the position and nothing else (R66). -/
theorem Slice.advance_rest (sl : Slice) :
    sl.advance = { sl with hdr := sl.advance.hdr, ix := sl.advance.ix, opened := sl.advance.opened, code := sl.advance.code } := by
  unfold Slice.advance; split <;> rfl

/-- `advance` is the move of R66. -/
theorem Slice.advance_went (a b : Slice) (h1 : b.hdr = a.hdr) (h2 : b.ix = a.ix) (h3 : b.opened = a.opened) (h4 : b.hw = a.hw)
    (h5 : b.code = a.code) : a.WentOn b.advance := by
  refine ⟨fun h => ?_, fun h => ?_⟩
  · unfold Slice.advance; rw [h4, h2, if_pos h]; simp [h1, h3, h5]
  · unfold Slice.advance; rw [h4, h2, if_neg (by omega)]; simp [h1]

/-! ## Vector results -/

theorem Slice.write_vregs (sl : Slice) (d : Opd) (l : Nat) (w : Word) :
    sl.write d l w = { sl with vregs := (sl.write d l w).vregs, marks := (sl.write d l w).marks } := by
  cases d <;> rfl

theorem Slice.write_vget (sl : Slice) (d : Opd) (l q m : Nat) (w : Word) (hl : l < 4) (hm : m < 4) :
    (sl.write d l w).vget q m = if (∃ r, d = .v r ∧ q = sl.wb + r.val) ∧ l = m then w else sl.vget q m := by
  cases d with
  | v r =>
    simp only [Slice.write, vget_vset _ _ _ _ _ _ hl hm]
    have : (sl.wb + r.val = q ∧ l = m) ↔ ((∃ r', Opd.v r = .v r' ∧ q = sl.wb + r'.val) ∧ l = m) := by
      constructor
      · rintro ⟨h1, h2⟩; exact ⟨⟨r, rfl, h1.symm⟩, h2⟩
      · rintro ⟨⟨r', h1, h2⟩, h3⟩; cases h1; exact ⟨h2.symm, h3⟩
    simp only [this]
  | s _ | zero | exec | lane | slice | bc _ | role => simp [Slice.write]

/-- A slice with the vector registers of another, and their marks. -/
def Slice.withVregs (a r : Slice) : Slice := { a with vregs := r.vregs, marks := r.marks }

theorem Slice.withVregs_trans {a b r : Slice} (h : b = a.withVregs b) (g : r = b.withVregs r) : r = a.withVregs r := by
  rw [g, h]; rfl

theorem Slice.vmap_aux (sl : Slice) (d : Opd) (f : Nat → Word) (ls : List Nat) (hls : ∀ l ∈ ls, l < 4) (hnd : ls.Nodup) (a : Slice)
    (ha : a.wb = sl.wb) :
    let r := ls.foldl (fun a l => if sl.on l then a.write d l (f l) else a) a
    r = a.withVregs r ∧ ∀ q m, m < 4 →
      r.vget q m = if (∃ x, d = .v x ∧ q = sl.wb + x.val) ∧ sl.on m = true ∧ m ∈ ls then f m else a.vget q m := by
  induction ls generalizing a with
  | nil => exact ⟨rfl, fun q m _ => by simp⟩
  | cons l r ih =>
    simp only [List.foldl_cons]
    have hl : l < 4 := hls l (by simp)
    have hr : ∀ m ∈ r, m < 4 := fun m hm => hls m (by simp [hm])
    rw [List.nodup_cons] at hnd
    set b := (if sl.on l then a.write d l (f l) else a) with hb
    have hbv : b = a.withVregs b := by
      rw [hb]; split
      · exact Slice.write_vregs _ _ _ _
      · rfl
    have hbw : b.wb = sl.wb := by rw [hbv]; exact ha
    obtain ⟨i1, i2⟩ := ih hr hnd.2 b hbw
    refine ⟨?_, fun q m hm => ?_⟩
    · exact Slice.withVregs_trans hbv i1
    · rw [i2 q m hm]
      have hbg : b.vget q m = if (∃ x, d = .v x ∧ q = sl.wb + x.val) ∧ l = m ∧ sl.on l = true then f l else a.vget q m := by
        rw [hb]
        by_cases ho : sl.on l = true
        · rw [if_pos ho, Slice.write_vget _ _ _ _ _ _ hl hm, ha]; simp [ho]
        · rw [if_neg ho]; simp [ho]
      rw [hbg]
      by_cases hx : ∃ x, d = .v x ∧ q = sl.wb + x.val
      · by_cases hml : l = m
        · subst hml
          by_cases ho : sl.on l = true
          · simp [hx, ho, hnd.1]
          · simp [ho]
        · by_cases ho : sl.on m = true
          · simp [hx, ho, hml, Ne.symm hml]
          · simp [ho, hml]
      · simp [hx]

theorem Slice.vmap_rest (sl : Slice) (d : Opd) (f : Nat → Word) :
    sl.vmap d f = { sl with vregs := (sl.vmap d f).vregs, marks := (sl.vmap d f).marks } :=
  (Slice.vmap_aux sl d f [0, 1, 2, 3] (by decide) (by decide) sl rfl).1

/-- `vmap` gives the lanes of the effective mask their values, and changes no other register. -/
theorem Slice.vmap_received (sl : Slice) (d : Opd) (f : Nat → Word) : sl.Received (sl.vmap d f) d f := by
  intro q m hm
  have h := (Slice.vmap_aux sl d f [0, 1, 2, 3] (by decide) (by decide) sl rfl).2 q m hm
  have hmem : m ∈ [0, 1, 2, 3] := by simp; omega
  refine ⟨fun hw => ?_, fun hw => ?_⟩
  · change (sl.vmap d f).vget q m = _ at h
    rw [h, if_pos ⟨hw.1, hw.2, hmem⟩]
  · change (sl.vmap d f).vget q m = _ at h
    rw [h, if_neg (fun hc => hw ⟨hc.1, hc.2.1⟩)]

theorem Slice.raised_foldl (sl : Slice) (f : Nat → BitVec 5) (z : BitVec 5) (ls : List Nat) :
    ls.foldl (fun a l => if sl.on l then a ||| f l else a) z = z ||| (ls.filter sl.on).foldl (fun a l => a ||| f l) 0 := by
  have aux : ∀ (ls : List Nat) (z : BitVec 5), ls.foldl (fun a l => a ||| f l) z = z ||| ls.foldl (fun a l => a ||| f l) 0 := by
    intro ls
    induction ls with
    | nil => simp
    | cons l r ih => intro z; simp only [List.foldl_cons]; rw [ih (z ||| f l), ih (0 ||| f l)]; simp [BitVec.or_assoc]
  induction ls generalizing z with
  | nil => simp
  | cons l r ih =>
    simp only [List.foldl_cons, List.filter_cons]
    by_cases h : sl.on l = true
    · simp only [h, if_true, List.foldl_cons]
      rw [ih, aux _ (0 ||| f l)]
      simp [BitVec.or_assoc]
    · simp only [h]; simpa using ih z

/-- The slice after a vector word with flags. -/
theorem Slice.vmapF_result (sl : Slice) (d : Opd) (f : Nat → Nat × BitVec 5) :
    sl.VectorResult (sl.charged.vmapF d f).advance d (fun l => BitVec.ofNat 32 (f l).1) (sl.raised (fun l => (f l).2)) := by
  set g : Nat → Word := fun l => BitVec.ofNat 32 (f l).1 with hg
  have hrest := sl.charged.vmap_rest d g
  have hrec := sl.charged.vmap_received d g
  have hvf : sl.charged.vmapF d f = { sl.charged.vmap d g with
      fps := [0, 1, 2, 3].foldl (fun a l => if sl.on l then a ||| (f l).2 else a) sl.fps } := rfl
  set r := sl.charged.vmap d g with hr
  refine ⟨?_, ?_, ?_, ?_⟩
  · intro n l hl
    have := hrec n l hl
    rw [Slice.advance_vget, hvf]
    exact this
  · have : (sl.charged.vmapF d f).advance.fps = (sl.charged.vmapF d f).fps := by rw [Slice.advance_rest]
    rw [this, hvf]
    exact Slice.raised_foldl sl _ _ _
  · apply Slice.advance_went <;> rw [hvf, hrest] <;> rfl
  · rw [Slice.advance_rest]
    simp only [hvf]
    rw [hrest]

/-- The slice after a vector word without flags. -/
theorem Slice.vmap_result (sl : Slice) (d : Opd) (f : Nat → Word) : sl.VectorResult (sl.charged.vmap d f).advance d f 0 := by
  have hrest := sl.charged.vmap_rest d f
  have hrec := sl.charged.vmap_received d f
  set r := sl.charged.vmap d f with hr
  refine ⟨?_, ?_, ?_, ?_⟩
  · intro n l hl; rw [Slice.advance_vget]; exact hrec n l hl
  · rw [Slice.advance_rest, hrest]; simp
  · apply Slice.advance_went <;> rw [hrest] <;> rfl
  · rw [Slice.advance_rest, hrest]

theorem Slice.vmap_plain (sl : Slice) (d : Opd) (f : Nat → Word) : Slice.Plain sl (sl.vmap d f) := by
  rw [Slice.vmap_rest]; exact ⟨rfl, rfl, rfl⟩

theorem Slice.vmapF_plain (sl : Slice) (d : Opd) (f : Nat → Nat × BitVec 5) : Slice.Plain sl (sl.vmapF d f) := by
  have := sl.vmap_plain d (fun l => BitVec.ofNat 32 (f l).1)
  exact ⟨this.idx, this.ended, this.block⟩

/-! ## Scalar results -/

theorem Slice.writeS_plain (sl : Slice) (d : Opd) (w : Word) : Slice.Plain sl (sl.writeS d w) := by
  cases d <;> simp only [Slice.writeS] <;> first | exact ⟨rfl, rfl, rfl⟩ | (unfold Slice.setExec; simp only; split <;> exact ⟨rfl, rfl, rfl⟩)

/-- What `write_result` leaves (R158). -/
theorem Slice.writeS_write (sl : Slice) (d : Opd) (w : Word) (hd : d.sdst = true) :
    sl.ScalarWrite (sl.charged.writeS d w) d w
      ∧ sl.charged.writeS d w = { sl.charged with sregs := (sl.charged.writeS d w).sregs, smarred := (sl.charged.writeS d w).smarred, exec := (sl.charged.writeS d w).exec,
                                                  conv := (sl.charged.writeS d w).conv } := by
  cases d with
  | v _ | lane | slice | bc _ | role => simp [Opd.sdst] at hd
  | zero => exact ⟨⟨fun r hr => by simp at hr, fun n _ => rfl, by simp [Slice.writeS, Slice.charged], by simp [Slice.writeS, Slice.charged], by simp [Slice.writeS, Slice.charged]⟩, rfl⟩
  | s n =>
    refine ⟨⟨fun r hr => ?_, fun m hm => ?_, by simp [Slice.writeS, Slice.charged], by simp [Slice.writeS, Slice.charged], fun x => ?_⟩, rfl⟩
    · cases hr; simp [Slice.writeS, Slice.sget, Slice.sset]
    · have := hm n rfl
      simp only [Slice.writeS, Slice.sget, Slice.sset, nget_nset, if_neg this]; rfl
    · simp only [Slice.writeS, Slice.sset, Slice.charged, Slice.skey, List.mem_filter, bne_iff_ne, ne_eq, Opd.s.injEq]
      exact and_congr_right fun _ => ⟨fun h r hr => hr ▸ h, fun h => h n rfl⟩
  | exec =>
    have hne : (Opd.exec = Opd.exec) := rfl
    by_cases he : ({ sl.charged with exec := w.setWidth 4 } : Slice).eff = 0
    · have e : sl.charged.writeS .exec w = { sl.charged with exec := w.setWidth 4, conv := true } := by
        simp only [Slice.writeS, Slice.setExec]; rw [if_pos he]
      rw [e]
      refine ⟨⟨fun r hr => by simp at hr, fun n _ => rfl, by simp, ?_, by simp [Slice.charged]⟩, rfl⟩
      rw [decide_eq_true rfl, Bool.true_and]
      exact (beq_iff_eq.2 he).symm
    · have e : sl.charged.writeS .exec w = { sl.charged with exec := w.setWidth 4 } := by
        simp only [Slice.writeS, Slice.setExec]; rw [if_neg he]
      rw [e]
      refine ⟨⟨fun r hr => by simp at hr, fun n _ => rfl, by simp, ?_, by simp [Slice.charged]⟩, rfl⟩
      rw [decide_eq_true rfl, Bool.true_and]
      exact (beq_eq_false_iff_ne.2 he).symm

/-- The slice after a scalar word. -/
theorem Slice.scalar_result (sl : Slice) (d : Opd) (w : Word) (c : Bool) (fl : BitVec 5) (hd : d.sdst = true) (r : Slice)
    (hr : r = { sl.charged.writeS d w with scc := c, fps := fl }) : sl.ScalarResult r.advance d w c fl := by
  obtain ⟨h1, h2⟩ := sl.writeS_write d w hd
  set q := sl.charged.writeS d w with hq
  refine ⟨⟨fun x hx => ?_, fun n hn => ?_, ?_, ?_, fun x => ?_⟩, ?_, ?_, ?_, ?_⟩
  · rw [Slice.advance_sget, hr]; exact h1.named x hx
  · rw [Slice.advance_sget, hr]; exact h1.others n hn
  · rw [Slice.advance_rest, hr]; exact h1.exec
  · have e1 : r.advance.conv = q.conv := by rw [Slice.advance_rest, hr]
    have e2 : r.advance.eff = q.eff := by rw [Slice.advance_rest, hr]; rfl
    rw [e1, e2]; exact h1.conv
  · rw [Slice.advance_rest, hr]; exact h1.sound x
  · rw [Slice.advance_rest, hr]
  · rw [Slice.advance_rest, hr]
  · apply Slice.advance_went <;> rw [hr, h2] <;> rfl
  · rw [Slice.advance_rest, hr]
    simp only
    rw [h2]

end Sys2Proof.Machine
end

