-- ==== Sys2Proof/Tests/Slice0.lean ====
section
/-! SUPPORT. Tests: ill-formed terms that the check refuses, the decoding of a word of every constructor, one state or more for
the hypotheses of every statement, and small steps whose results are the spec's own examples. -/

open Sys2Proof
open Sys2Proof.Machine

namespace Sys2Proof.Tests

-- one theorem after another: each evaluation in the kernel holds a thread
set_option Elab.async false

/-! ## The check of operand classes -/

/-- One ill-formed term for each check (R53, R74, R75 and the tables of each class). -/
theorem test_wf_refuses : ∀ i ∈ ([
    .iadd (.s 0) (.v 0) (.v 0), .cvtQL6 (.v 1) (.v 0) .zero, .cvtQL6 .zero (.v 0) .zero, .feq (.v 0) (.v 1) (.v 2),
    .sadd (.v 0) .zero .zero, .sadd .zero (.v 0) .zero, .sadd .zero .zero .lane, .saddi (.bc 0) .zero 0, .saddi .zero .lane 0,
    .movi .role 0, .ld 1 (.v 1) (.v 0) 0, .ld 1 .zero (.v 0) 0, .ld 0 (.v 1) (.v 1) 0, .st 2 (.s 2) (.s 0) 0, .st 0 (.s 2) .zero 0,
    .ldS8 (.s 0) (.v 0) .zero, .st8 (.v 0) (.s 1) .zero, .ldl 3 (.v 4) .zero .zero, .stl 1 .zero .zero .zero,
    .ldi 0 (.v 0) (.v 2) .zero, .atomAdd 1 (.v 0) (.v 2) .zero, .atomAdd 0 (.v 0) .zero .zero, .atomXchg 1 .zero (.v 2) .zero,
    .atomCas 0 (.v 0) (.v 2) (.v 5), .atom64Add 0 (.v 1) (.v 2) (.v 4), .atom64Add 0 (.v 2) (.v 2) (.s 3),
    .atom64Xchg 1 .zero (.v 2) (.v 4), .copy (.v 0) (.s 0), .copy .zero (.s 4), .mzero .zero (.v 0), .inval (.s 1) .zero,
    .inval (.s 0) (.v 0), .fshiL (.v 0) (.v 1) 0, .fshiL (.s 0) (.v 2) 0, .jmpi (.s 1), .wnd (.v 0) 0, .svc 1 (.v 1) .zero (.v 0),
    .svc 0 (.v 1) (.v 0) (.v 0), .svc 1 (.v 2) .zero (.v 1), .take (.s 4), .spawn .zero (.s 2), .spawn .exec (.s 4),
    .barArrG .zero (.s 1) .zero, .give 0, .claim 64, .cancel .zero 5, .ctr (.s 1) 0, .ctr (.s 0) 5, .fret (.v 0) .zero,
    .ecnt (.s 23)] : List Instr), i.wf = false := by decide

/-! ## Decoding: a word of every constructor, its fields in the places of the opcode table -/

theorem test_decode_branch : ∀ e ∈ ([
    (0xFD29D2B9#32, .clause 2643 10 5 3 9), (0xC0ABCDE5#32, .br 11259365), (0xC1ABCDE5#32, .brExecz 11259365),
    (0xC2ABCDE5#32, .brExecnz 11259365), (0xC3ABCDE5#32, .brScc1 11259365), (0xC4ABCDE5#32, .brScc0 11259365),
    (0xC8ABCDE5#32, .callW 11259365)] : List (Word × Instr)),
    (decode e.1).toOption = some e.2 ∧ encode e.2 = some e.1 ∧ e.2.wf = true := by decide +kernel

theorem test_decode_ialu : ∀ e ∈ ([
    (0x08201040#32, .iadd (.v 8) (.v 2) (.v 4)), (0x08201041#32, .isub (.v 8) (.v 2) (.v 4)),
    (0x08201042#32, .imul (.v 8) (.v 2) (.v 4)), (0x08201043#32, .imulhi (.v 8) (.v 2) (.v 4)),
    (0x08201044#32, .nmulhi (.v 8) (.v 2) (.v 4)), (0x08201045#32, .imin (.v 8) (.v 2) (.v 4)),
    (0x08201046#32, .imax (.v 8) (.v 2) (.v 4)), (0x08201047#32, .nmin (.v 8) (.v 2) (.v 4)),
    (0x08201048#32, .nmax (.v 8) (.v 2) (.v 4)), (0x08201049#32, .andV (.v 8) (.v 2) (.v 4)),
    (0x0820104A#32, .orV (.v 8) (.v 2) (.v 4)), (0x0820104B#32, .xorV (.v 8) (.v 2) (.v 4)),
    (0x0820104C#32, .shlV (.v 8) (.v 2) (.v 4)), (0x0820104D#32, .shrV (.v 8) (.v 2) (.v 4)),
    (0x0820104E#32, .sarV (.v 8) (.v 2) (.v 4)), (0x0820104F#32, .isad (.v 8) (.v 2) (.v 4))] : List (Word × Instr)),
    (decode e.1).toOption = some e.2 ∧ encode e.2 = some e.1 ∧ e.2.wf = true := by decide +kernel

theorem test_decode_ibit : ∀ e ∈ ([
    (0x10201000#32, .popc (.v 8) (.v 2)), (0x10201001#32, .clz (.v 8) (.v 2)), (0x10201002#32, .ctz (.v 8) (.v 2)),
    (0x10201003#32, .brev (.v 8) (.v 2)), (0x10201044#32, .bfe (.v 8) (.v 2) (.v 4)),
    (0x10201045#32, .bfi (.v 8) (.v 2) (.v 4)), (0x10201046#32, .fshl (.v 8) (.v 2) (.v 4)),
    (0x10201047#32, .fshr (.v 8) (.v 2) (.v 4)), (0x10201048#32, .rotl (.v 8) (.v 2) (.v 4)),
    (0x10201009#32, .iabs (.v 8) (.v 2)), (0x1020100A#32, .ineg (.v 8) (.v 2)),
    (0x1020104B#32, .imad (.v 8) (.v 2) (.v 4))] : List (Word × Instr)),
    (decode e.1).toOption = some e.2 ∧ encode e.2 = some e.1 ∧ e.2.wf = true := by decide +kernel

theorem test_decode_falu : ∀ e ∈ ([
    (0x18201040#32, .faddF32 (.v 8) (.v 2) (.v 4)), (0x18201041#32, .fsubF32 (.v 8) (.v 2) (.v 4)),
    (0x18201042#32, .fmulF32 (.v 8) (.v 2) (.v 4)), (0x18201043#32, .fmaF32 (.v 8) (.v 2) (.v 4)),
    (0x18201044#32, .fmsF32 (.v 8) (.v 2) (.v 4)), (0x18201045#32, .fnmaF32 (.v 8) (.v 2) (.v 4)),
    (0x18201046#32, .fminF32 (.v 8) (.v 2) (.v 4)), (0x18201047#32, .fmaxF32 (.v 8) (.v 2) (.v 4)),
    (0x18201008#32, .fabsF32 (.v 8) (.v 2)), (0x18201009#32, .fnegF32 (.v 8) (.v 2)),
    (0x1820104A#32, .fcpsF32 (.v 8) (.v 2) (.v 4)), (0x1820100B#32, .ffloorF32 (.v 8) (.v 2)),
    (0x1820100C#32, .fceilF32 (.v 8) (.v 2)), (0x1820100D#32, .ftruncF32 (.v 8) (.v 2)),
    (0x1820100E#32, .frintF32 (.v 8) (.v 2)), (0x1820100F#32, .fclassF32 (.v 8) (.v 2))] : List (Word × Instr)),
    (decode e.1).toOption = some e.2 ∧ encode e.2 = some e.1 ∧ e.2.wf = true := by decide +kernel

theorem test_decode_halu : ∀ e ∈ ([
    (0x20201040#32, .haddBf16 (.v 8) (.v 2) (.v 4)), (0x20201041#32, .hsubBf16 (.v 8) (.v 2) (.v 4)),
    (0x20201042#32, .hmulBf16 (.v 8) (.v 2) (.v 4)), (0x20201043#32, .hfmaBf16 (.v 8) (.v 2) (.v 4)),
    (0x20201044#32, .hminBf16 (.v 8) (.v 2) (.v 4)), (0x20201045#32, .hmaxBf16 (.v 8) (.v 2) (.v 4)),
    (0x20201046#32, .hdot2Bf16 (.v 8) (.v 2) (.v 4)), (0x20201048#32, .haddF16 (.v 8) (.v 2) (.v 4)),
    (0x20201049#32, .hsubF16 (.v 8) (.v 2) (.v 4)), (0x2020104A#32, .hmulF16 (.v 8) (.v 2) (.v 4)),
    (0x2020104B#32, .hfmaF16 (.v 8) (.v 2) (.v 4)), (0x2020104C#32, .hminF16 (.v 8) (.v 2) (.v 4)),
    (0x2020104D#32, .hmaxF16 (.v 8) (.v 2) (.v 4)), (0x2020104E#32, .hdot2F16 (.v 8) (.v 2) (.v 4))] : List (Word × Instr)),
    (decode e.1).toOption = some e.2 ∧ encode e.2 = some e.1 ∧ e.2.wf = true := by decide +kernel

theorem test_decode_cvt : ∀ e ∈ ([
    (0x28201000#32, .cvtI32F32 (.v 8) (.v 2)), (0x28201001#32, .cvtN32F32 (.v 8) (.v 2)),
    (0x28201002#32, .cvtF32I32 (.v 8) (.v 2)), (0x28201003#32, .cvtF32N32 (.v 8) (.v 2)),
    (0x28201004#32, .cvtBf16F32Lo (.v 8) (.v 2)), (0x28201005#32, .cvtBf16F32Hi (.v 8) (.v 2)),
    (0x28201006#32, .cvtF32Bf16Lo (.v 8) (.v 2)), (0x28201007#32, .cvtF32Bf16Hi (.v 8) (.v 2)),
    (0x28201008#32, .cvtF16F32Lo (.v 8) (.v 2)), (0x28201009#32, .cvtF16F32Hi (.v 8) (.v 2)),
    (0x2820100A#32, .cvtF32F16Lo (.v 8) (.v 2)), (0x2820100B#32, .cvtF32F16Hi (.v 8) (.v 2)),
    (0x2820104C#32, .cvtL6F32 (.v 8) (.v 2) (.v 4)), (0x2820104D#32, .cvtF32L6 (.v 8) (.v 2) (.v 4)),
    (0x2A20104E#32, .cvtQL6 (.v 8) (.v 2) (.v 4))] : List (Word × Instr)),
    (decode e.1).toOption = some e.2 ∧ encode e.2 = some e.1 ∧ e.2.wf = true := by decide +kernel

theorem test_decode_cmp : ∀ e ∈ ([
    (0x31C01040#32, .feq (.s 16) (.v 2) (.v 4)), (0x31C01041#32, .fne (.s 16) (.v 2) (.v 4)),
    (0x31C01042#32, .flt (.s 16) (.v 2) (.v 4)), (0x31C01043#32, .fle (.s 16) (.v 2) (.v 4)),
    (0x31C01044#32, .fgt (.s 16) (.v 2) (.v 4)), (0x31C01045#32, .fge (.s 16) (.v 2) (.v 4)),
    (0x31C01046#32, .ford (.s 16) (.v 2) (.v 4)), (0x31C01047#32, .funo (.s 16) (.v 2) (.v 4)),
    (0x31C01048#32, .ieq (.s 16) (.v 2) (.v 4)), (0x31C01049#32, .ine (.s 16) (.v 2) (.v 4)),
    (0x31C0104A#32, .ilt (.s 16) (.v 2) (.v 4)), (0x31C0104B#32, .ile (.s 16) (.v 2) (.v 4)),
    (0x31C0104C#32, .nlt (.s 16) (.v 2) (.v 4)), (0x31C0104D#32, .nle (.s 16) (.v 2) (.v 4)),
    (0x31C0104E#32, .fcls (.s 16) (.v 2) (.v 4))] : List (Word × Instr)),
    (decode e.1).toOption = some e.2 ∧ encode e.2 = some e.1 ∧ e.2.wf = true := by decide +kernel

theorem test_decode_trn : ∀ e ∈ ([
    (0x38201000#32, .rcp (.v 8) (.v 2)), (0x38201001#32, .rsq (.v 8) (.v 2)), (0x38201002#32, .sqrt (.v 8) (.v 2)),
    (0x38201003#32, .exp2 (.v 8) (.v 2)), (0x38201004#32, .log2 (.v 8) (.v 2)), (0x38201005#32, .sinpi (.v 8) (.v 2)),
    (0x38201006#32, .cospi (.v 8) (.v 2)), (0x38201007#32, .tanh (.v 8) (.v 2))] : List (Word × Instr)),
    (decode e.1).toOption = some e.2 ∧ encode e.2 = some e.1 ∧ e.2.wf = true := by decide +kernel

theorem test_decode_xlane : ∀ e ∈ ([
    (0x40201040#32, .shfl (.v 8) (.v 2) (.v 4)), (0x40201041#32, .shfx (.v 8) (.v 2) (.v 4)),
    (0x40201042#32, .shfu (.v 8) (.v 2) (.v 4)), (0x40201043#32, .shfd (.v 8) (.v 2) (.v 4)),
    (0x40201044#32, .bcast (.v 8) (.v 2) (.v 4)), (0x41C01005#32, .ballot (.s 16) (.v 2)),
    (0x41C01006#32, .vany (.s 16) (.v 2)), (0x41C01007#32, .vall (.s 16) (.v 2)), (0x40201008#32, .redi (.v 8) (.v 2)),
    (0x40201009#32, .redf (.v 8) (.v 2)), (0x4020104A#32, .redmx (.v 8) (.v 2) (.v 4)),
    (0x4020104B#32, .scani (.v 8) (.v 2) (.v 4)), (0x4020104C#32, .sshf (.v 8) (.v 2) (.v 4)),
    (0x4020104D#32, .sshx (.v 8) (.v 2) (.v 4)), (0x4020104E#32, .sbc (.v 8) (.v 2) (.v 4))] : List (Word × Instr)),
    (decode e.1).toOption = some e.2 ∧ encode e.2 = some e.1 ∧ e.2.wf = true := by decide +kernel

theorem test_decode_salu : ∀ e ∈ ([
    (0x49C34740#32, .sadd (.s 16) (.s 8) (.s 20)), (0x49C34741#32, .ssub (.s 16) (.s 8) (.s 20)),
    (0x49C34742#32, .smul (.s 16) (.s 8) (.s 20)), (0x49C34743#32, .sand (.s 16) (.s 8) (.s 20)),
    (0x49C34744#32, .sor (.s 16) (.s 8) (.s 20)), (0x49C34745#32, .sxor (.s 16) (.s 8) (.s 20)),
    (0x49C34746#32, .sshl (.s 16) (.s 8) (.s 20)), (0x49C34747#32, .sshr (.s 16) (.s 8) (.s 20)),
    (0x49C34748#32, .ssar (.s 16) (.s 8) (.s 20)), (0x49C34749#32, .smin (.s 16) (.s 8) (.s 20)),
    (0x49C3474A#32, .smax (.s 16) (.s 8) (.s 20)), (0x49C3474B#32, .snmin (.s 16) (.s 8) (.s 20)),
    (0x49C3474C#32, .snmax (.s 16) (.s 8) (.s 20)), (0x49C3474D#32, .scmpeq (.s 16) (.s 8) (.s 20)),
    (0x49C3474E#32, .scmplt (.s 16) (.s 8) (.s 20)), (0x49C3474F#32, .scmpnlt (.s 16) (.s 8) (.s 20))] : List (Word × Instr)),
    (decode e.1).toOption = some e.2 ∧ encode e.2 = some e.1 ∧ e.2.wf = true := by decide +kernel

theorem test_decode_imm : ∀ e ∈ ([
    (0x51C34405#32, .saddi (.s 16) (.s 8) 1029), (0x5822A5C7#32, .movi (.v 8) 173511), (0x6022A5C7#32, .movhi (.v 8) 173511),
    (0x68201405#32, .vaddi (.v 8) (.v 2) 1029), (0xB654352A#32, .lop3 202 33 42 21), (0xBA201015#32, .fshiL (.v 8) (.v 2) 21),
    (0xBA201415#32, .fshiR (.v 8) (.v 2) 21)] : List (Word × Instr)),
    (decode e.1).toOption = some e.2 ∧ encode e.2 = some e.1 ∧ e.2.wf = true := by decide +kernel

theorem test_decode_ldst : ∀ e ∈ ([
    (0x74201405#32, .ld 2 (.v 8) (.v 2) 1029), (0x7C201405#32, .st 2 (.v 8) (.v 2) 1029)] : List (Word × Instr)),
    (decode e.1).toOption = some e.2 ∧ encode e.2 = some e.1 ∧ e.2.wf = true := by decide +kernel

theorem test_decode_ldx : ∀ e ∈ ([
    (0x80201040#32, .ldS8 (.v 8) (.v 2) (.v 4)), (0x80201041#32, .ldZ8 (.v 8) (.v 2) (.v 4)),
    (0x80201042#32, .ldS16 (.v 8) (.v 2) (.v 4)), (0x80201043#32, .ldZ16 (.v 8) (.v 2) (.v 4)),
    (0x80201044#32, .st8 (.v 8) (.v 2) (.v 4)), (0x80201045#32, .st16 (.v 8) (.v 2) (.v 4)),
    (0x84201046#32, .ldl 2 (.v 8) (.v 2) (.v 4)), (0x84201047#32, .stl 2 (.v 8) (.v 2) (.v 4)),
    (0x80201048#32, .ald (.v 8) (.v 2) (.v 4)), (0x80201049#32, .aldUnp (.v 8) (.v 2) (.v 4)),
    (0x8020104A#32, .aldQnt (.v 8) (.v 2) (.v 4)), (0x8020104B#32, .aldSpec (.v 8) (.v 2) (.v 4)),
    (0x8020104C#32, .ast (.v 8) (.v 2) (.v 4)), (0x8020104D#32, .astUnp (.v 8) (.v 2) (.v 4)),
    (0x8423404E#32, .ldi 2 (.v 8) (.s 8) (.v 4))] : List (Word × Instr)),
    (decode e.1).toOption = some e.2 ∧ encode e.2 = some e.1 ∧ e.2.wf = true := by decide +kernel

theorem test_decode_atom : ∀ e ∈ ([
    (0x8C201040#32, .atomAdd 2 (.v 8) (.v 2) (.v 4)), (0x8C201041#32, .atomSub 2 (.v 8) (.v 2) (.v 4)),
    (0x8C201042#32, .atomMin 2 (.v 8) (.v 2) (.v 4)), (0x8C201043#32, .atomMax 2 (.v 8) (.v 2) (.v 4)),
    (0x8C201044#32, .atomNmin 2 (.v 8) (.v 2) (.v 4)), (0x8C201045#32, .atomNmax 2 (.v 8) (.v 2) (.v 4)),
    (0x8C201046#32, .atomAnd 2 (.v 8) (.v 2) (.v 4)), (0x8C201047#32, .atomOr 2 (.v 8) (.v 2) (.v 4)),
    (0x8C201048#32, .atomXor 2 (.v 8) (.v 2) (.v 4)), (0x8C201049#32, .atomXchg 2 (.v 8) (.v 2) (.v 4)),
    (0x8C20104A#32, .atomCas 2 (.v 8) (.v 2) (.v 4)), (0x8C20104B#32, .atomInc 2 (.v 8) (.v 2) (.v 4)),
    (0x8C20104C#32, .atomDec 2 (.v 8) (.v 2) (.v 4)), (0x8C20104D#32, .atomFadd 2 (.v 8) (.v 2) (.v 4)),
    (0x8C20104E#32, .atomFmin 2 (.v 8) (.v 2) (.v 4)),
    (0x8C20104F#32, .atomFmax 2 (.v 8) (.v 2) (.v 4))] : List (Word × Instr)),
    (decode e.1).toOption = some e.2 ∧ encode e.2 = some e.1 ∧ e.2.wf = true := by decide +kernel

theorem test_decode_atom64 : ∀ e ∈ ([
    (0x94201040#32, .atom64Add 2 (.v 8) (.v 2) (.v 4)), (0x94201041#32, .atom64Sub 2 (.v 8) (.v 2) (.v 4)),
    (0x94201042#32, .atom64Min 2 (.v 8) (.v 2) (.v 4)), (0x94201043#32, .atom64Max 2 (.v 8) (.v 2) (.v 4)),
    (0x94201044#32, .atom64Nmin 2 (.v 8) (.v 2) (.v 4)), (0x94201045#32, .atom64Nmax 2 (.v 8) (.v 2) (.v 4)),
    (0x94201046#32, .atom64And 2 (.v 8) (.v 2) (.v 4)), (0x94201047#32, .atom64Or 2 (.v 8) (.v 2) (.v 4)),
    (0x94201048#32, .atom64Xor 2 (.v 8) (.v 2) (.v 4)),
    (0x94201049#32, .atom64Xchg 2 (.v 8) (.v 2) (.v 4))] : List (Word × Instr)),
    (decode e.1).toOption = some e.2 ∧ encode e.2 = some e.1 ∧ e.2.wf = true := by decide +kernel

theorem test_decode_eng : ∀ e ∈ ([
    (0x9FC34000#32, .copy (.s 16) (.s 8)), (0x9FC34001#32, .copyT2 (.s 16) (.s 8)), (0x9FC34002#32, .copyT3 (.s 16) (.s 8)),
    (0x9FC34003#32, .copyConv (.s 16) (.s 8)), (0x9FC34004#32, .qcopy (.s 16) (.s 8)), (0x9FC34005#32, .catchL (.s 16) (.s 8)),
    (0x9FC34006#32, .catchT2 (.s 16) (.s 8)), (0x9FC34007#32, .pref (.s 16) (.s 8)),
    (0x9FC34008#32, .mload (.s 16) (.s 8))] : List (Word × Instr)),
    (decode e.1).toOption = some e.2 ∧ encode e.2 = some e.1 ∧ e.2.wf = true := by decide +kernel

theorem test_decode_mtx : ∀ e ∈ ([
    (0xA7C34000#32, .mloop (.s 16) (.s 8)), (0xA7C34001#32, .mloops (.s 16) (.s 8)), (0xA7C34002#32, .mdrain (.s 16) (.s 8)),
    (0xA7C34003#32, .mdrains (.s 16) (.s 8)), (0xA1C34004#32, .mzero (.s 16) (.s 8)), (0xA7C34005#32, .msig (.s 16) (.s 8)),
    (0xA7C34006#32, .mskip (.s 16) (.s 8)), (0xA1C34007#32, .mstat (.s 16) (.s 8))] : List (Word × Instr)),
    (decode e.1).toOption = some e.2 ∧ encode e.2 = some e.1 ∧ e.2.wf = true := by decide +kernel

theorem test_decode_mctl : ∀ e ∈ ([
    (0xA8000000#32, .fenceSys), (0xA8000001#32, .fenceHost), (0xA8034742#32, .inval (.s 8) (.s 20)),
    (0xA8034743#32, .flush (.s 8) (.s 20)), (0xA8015154#32, .waitf 42 21)] : List (Word × Instr)),
    (decode e.1).toOption = some e.2 ∧ encode e.2 = some e.1 ∧ e.2.wf = true := by decide +kernel

theorem test_decode_ctl : ∀ e ∈ ([
    (0xD0000000#32, .retW), (0xD2034001#32, .jmpi (.s 8)), (0xD0000032#32, .join 3), (0xD0034153#32, .wnd (.s 8) 21),
    (0xD0000004#32, .endW), (0xD0234045#32, .svc 0 (.v 8) (.s 8) (.v 4)), (0xD0000056#32, .trap 5), (0xD0000007#32, .nop),
    (0xD1C00478#32, .movs (.s 16) 71), (0xD0034479#32, .movt (.s 8) 71), (0xD000000A#32, .uiret), (0xD000005B#32, .brk 5),
    (0xD000000C#32, .yield)] : List (Word × Instr)),
    (decode e.1).toOption = some e.2 ∧ encode e.2 = some e.1 ∧ e.2.wf = true := by decide +kernel

theorem test_decode_task : ∀ e ∈ ([
    (0xDFC00000#32, .take (.s 16)), (0xDDC34001#32, .spawn (.s 16) (.s 8)), (0xD8034002#32, .joinc (.s 8)),
    (0xD8000153#32, .barSync 21), (0xD9C34154#32, .barArr (.s 16) (.s 8) 21), (0xDBC34744#32, .barArrG (.s 16) (.s 8) (.s 20)),
    (0xD8034155#32, .barWait (.s 8) 21), (0xDA034745#32, .barWaitG (.s 8) (.s 20)), (0xD8000056#32, .give 5),
    (0xD8000057#32, .claim 5), (0xD8034008#32, .roleW (.s 8)), (0xD8034039#32, .cancel (.s 8) 3),
    (0xDBC0003A#32, .ctr (.s 16) 3)] : List (Word × Instr)),
    (decode e.1).toOption = some e.2 ∧ encode e.2 = some e.1 ∧ e.2.wf = true := by decide +kernel

theorem test_decode_sys : ∀ e ∈ ([
    (0xE0034740#32, .fret (.s 8) (.s 20)), (0xE3C34741#32, .pmap (.s 16) (.s 8) (.s 20)),
    (0xE3C34742#32, .tlbi (.s 16) (.s 8) (.s 20)), (0xE1C34003#32, .asidr (.s 16) (.s 8)),
    (0xE3C34744#32, .sksave (.s 16) (.s 8) (.s 20)), (0xE3C34745#32, .skload (.s 16) (.s 8) (.s 20)),
    (0xE3C00006#32, .ecnt (.s 16)), (0xE0034747#32, .uintr (.s 8) (.s 20)), (0xE1C34478#32, .pstat (.s 16) (.s 8) 71),
    (0xE3C34478#32, .pstatW (.s 16) (.s 8) 71), (0xE0034009#32, .halt (.s 8))] : List (Word × Instr)),
    (decode e.1).toOption = some e.2 ∧ encode e.2 = some e.1 ∧ e.2.wf = true := by decide +kernel

/-- Reserved codes, a reserved W, a nonzero unused field, and too few bytes are no instruction (R71 to R76). -/
theorem test_decode_rejects :
    (decode 0x00000000#32).toOption = none ∧ (decode 0x1000000C#32).toOption = none ∧ (decode 0x0A000000#32).toOption = none
    ∧ (decode 0xC5000000#32).toOption = none ∧ (decode 0x38244850#32).toOption = none ∧ (decode 0xB0000001#32).toOption = none
    ∧ (decodeBytes [0x12#8, 0x00#8, 0x00#8]).toOption = none
    ∧ (decodeBytes [0x12#8, 0x00#8, 0x00#8, 0xD0#8, 0x77#8]).toOption = some (.join 1, [0x77#8]) := by decide +kernel

/-! ## States for the hypotheses -/

/-- `State.Executes` as a check that can be evaluated. -/
def executes (s : State) (i : Instr) (p : At) : Bool :=
  decide (s.at? = some p) && !p.members.isEmpty && decide p.members.Nodup && p.members.all (fun k =>
    match s.slice? p.team k with
    | none => false
    | some sl =>
      !sl.ended && decide (sl.block = .none) && i.wf && (!i.sys || sl.mode == .supervisor) && sl.inWindow i.vops
      && (match sl.thread with
          | some th => decide (th.words < 256) && i.threadMay
          | none => sl.mode == .user || !i.supNo)
      && !sl.consumes i && (!(i.conv || sl.conv) || (s.allResolved p.team k && !sl.vectors))
      && (match p.flag with
          | none => true
          | some f => !sl.attaches i || sl.flag f != 63))

theorem executes_of {s : State} {i : Instr} {p : At} (h : executes s i p = true) : s.Executes i p := by
  unfold executes at h
  simp only [Bool.and_eq_true, decide_eq_true_eq, Bool.not_eq_true', List.all_eq_true] at h
  obtain ⟨⟨⟨h1, h2⟩, h3⟩, h4⟩ := h
  refine ⟨h1, by intro e; simp [e] at h2, h3, fun k hk => ?_⟩
  have h5 := h4 k hk
  revert h5
  cases hs : s.slice? p.team k with
  | none => simp
  | some sl =>
    intro h5
    simp only [Bool.and_eq_true, decide_eq_true_eq, Bool.not_eq_true', Bool.or_eq_true, beq_iff_eq] at h5
    obtain ⟨⟨⟨⟨⟨⟨⟨⟨a1, a2⟩, a3⟩, a4⟩, a5⟩, a6⟩, a8⟩, a9⟩, a7⟩ := h5
    refine ⟨sl, rfl, ⟨a1, a2, a3, ?_, a5, ?_, ?_, a8⟩, ?_, ?_⟩
    · intro hy; simpa [hy] using a4
    · intro th hth; simpa [hth] using a6
    · intro hth hm
      rw [hth] at a6
      simp only [Bool.or_eq_true, Bool.not_eq_true', beq_iff_eq] at a6
      rcases a6 with h6 | h6
      · rw [hm] at h6; cases h6
      · exact h6
    · intro hc
      rcases a9 with h6 | h6
      · rcases hc with hc | hc <;> simp [hc] at h6
      · simpa using h6
    · intro f hf ha
      rw [hf] at a7
      simpa [ha] using a7

/-- A page of plain memory: 64 KiB of HBM at `pa` under `va`, with every permission. -/
def page (va pa : Nat) : Leaf where
  va := va
  pa := pa
  log := 16
  share := .coh
  home := .cached
  u := true
  x := true
  w := true
  r := true
  ats := false

/-- A translation of ASID 1 that the TLB of cluster 0 holds. -/
def held (l : Leaf) : TlbEnt where
  place := 0
  asid := 1
  epoch := 0
  leaf := l

/-- Core 0 with team 1, whose code is one clause at 0x10000 and whose page at 0x20000 lies at 0x400000; `ms` is issuing. -/
def state (x : Team) (ms : List Nat) : State :=
  { State.reset.place 0 with
    agenda := []
    cur := some { team := 1, members := ms, bad := [] }
    teams := [x]
    tlb := [held (page 0x10000 0x200000), held (page 0x20000 0x400000)] }

/-- Slice `k` of a team in the open clause of one long-latency word, its flag `f0`. -/
def slice (k : Nat) : Slice := { placeSlice 0 with idx := k, longs := 1, wb := 0 }

/-- Team 1 of launch 2 on core 0. -/
def team (l : List Slice) : Team :=
  { placeTeam 0 1 2 with
    slices := l
    record := { placeRecord with slices := l.length }
    subs := [{ members := l.map (fun s => s.idx), entry := true, stalled := false, joined := false, seq := 0, wants := none, bad := [], accepted := none }] }

/-- Slice 0 in supervisor mode. -/
def sup : Slice := { slice 0 with mode := .supervisor }

/-- Slice 0 alone, as `sl`. -/
def one (sl : Slice) : State := state (team [sl]) [0]

/-- Where slice 0 alone stands. -/
def place0 : At := { team := 1, members := [0], hdr := 0, ix := 0, flag := some 0, energy := 0, esat := false }

theorem state_idle (x : Team) (ms : List Nat) (u k : Nat) : (state x ms).Idle u k := by
  intro op h; exact absurd (show op ∈ [] from h) (by simp)

/-- No slice of `state` has a relaxed access to come. -/
theorem none_late (x : Team) (ms : List Nat) (p : At) (fence : Bool) : (state x ms).NoneLate p fence := fun _ _ => rfl

/-- Where no job closes a checkpoint interval, a write needs no room in the capture buffer. -/
theorem roomy {s : State} (h : s.jobs = []) (pa : Nat) : s.HasRoom pa := by
  intro t
  simp [State.captureFull, h]

/-- No L1 of `state` holds a copy. -/
theorem state_fresh (x : Team) (ms : List Nat) (pa : Nat) : (state x ms).Fresh pa := by
  intro r h; cases h

theorem alone_of {s : State} {i : Instr} {p : At} {x : Team} {k : Nat} {sl : Slice} (h : executes s i p = true)
    (h1 : p.members = [k] ∧ s.team? p.team = some x ∧ x.slice? k = some sl ∧ sl.thread = none) : s.Alone i p x k sl :=
  ⟨executes_of h, h1.1, h1.2.1, h1.2.2.1, h1.2.2.2⟩

/-! ## Witnesses -/

theorem witness_IntegerArithmeticResults : ∃ s p, State.Executes s (.bfe (.v 8) (.v 2) (.v 4)) p :=
  ⟨one (slice 0), place0, executes_of (by decide +kernel)⟩

theorem witness_ImmediateVectorResults :
    (∃ s p, State.Executes s (.vaddi (.v 8) (.v 2) 0x400) p) ∧ (∃ s p, State.Executes s (.fshiL (.v 95) (.v 94) 0) p)
    ∧ (∃ s p, State.Executes s (.fshiR (.v 0) (.v 0) 31) p) ∧ ∃ s p, State.Executes s (.lop3 0x96 0 63 1) p :=
  ⟨⟨one (slice 0), place0, executes_of (by decide +kernel)⟩, ⟨one (slice 0), place0, executes_of (by decide +kernel)⟩,
   ⟨one (slice 0), place0, executes_of (by decide +kernel)⟩, ⟨one (slice 0), place0, executes_of (by decide +kernel)⟩⟩
theorem witness_FloatResults : ∃ s p, State.Executes s (.fmaF32 (.v 3) (.v 1) (.s 2)) p :=
  ⟨one (slice 0), place0, executes_of (by decide +kernel)⟩

theorem witness_HalfResults : ∃ s p, State.Executes s (.hdot2F16 (.v 7) (.v 4) (.v 5)) p :=
  ⟨one (slice 0), place0, executes_of (by decide +kernel)⟩

theorem witness_ConversionResults : ∃ s p, State.Executes s (.cvtF32L6 (.v 7) (.v 4) (.s 5)) p :=
  ⟨one (slice 0), place0, executes_of (by decide +kernel)⟩

theorem witness_QuantumPairResult : ∃ s p, State.Executes s (.cvtQL6 (.v 94) (.v 4) (.s 5)) p :=
  ⟨one (slice 0), place0, executes_of (by decide +kernel)⟩

theorem witness_TranscendentalResults : (∃ s p, State.Executes s (.tanh (.v 94) (.lane)) p)
    ∧ f32.decode 0x80000001 = .num true 1 (-149)
    ∧ (f32.decode 0x43000000 = .num false 0x800000 (-16) ∧ 128 * 2 ^ 149 ≤ 0x800000 * 2 ^ ((-16 : Int) + 149).toNat)
    ∧ (f32.decode 0xC3160001 = .num true 0x960001 (-16) ∧ 150 * 2 ^ 149 < 0x960001 * 2 ^ ((-16 : Int) + 149).toNat)
    ∧ (f32.decode 0xC0400000 = .num true 0xC00000 (-22) ∧ 0xC00000 * 2 ^ ((-22 : Int) + 149).toNat % 2 ^ 149 = 0)
    ∧ (f32.decode 0xBF000000 = .num true 0x800000 (-24) ∧ 0x800000 * 2 ^ ((-24 : Int) + 149).toNat % 2 ^ 149 = 2 ^ 148)
    ∧ (f32.decode 0x00400000 = .num false 0x400000 (-149) ∧ 0x400000 * 2 ^ ((-149 : Int) + 149).toNat = 2 ^ ((-127 : Int) + 149).toNat)
    ∧ (f32.decode 0x7E800000 = .num false 0x800000 103 ∧ 0x800000 * 2 ^ ((103 : Int) + 149).toNat = 2 ^ ((126 : Int) + 149).toNat
      ∧ (126 : Int) % 2 = 0)
    ∧ (f32.decode 0x42FE0000 = .num false 0xFE0000 (-17) ∧ 0xFE0000 * 2 ^ ((-17 : Int) + 149).toNat = 127 * 2 ^ 149)
    ∧ (f32.decode 0xC3150000 = .num true 0x950000 (-16) ∧ 0x950000 * 2 ^ ((-16 : Int) + 149).toNat = 149 * 2 ^ 149)
    ∧ (f32.decode 1 = .num false 1 (-149) ∧ 1 * 2 ^ ((-149 : Int) + 149).toNat = 2 ^ ((-149 : Int) + 149).toNat)
    ∧ f32.decode 0x200001 = .num false 2097153 (-149) ∧ 2 ^ 21 < 2097153 * 2 ^ ((-149 : Int) + 149).toNat
    ∧ (∀ k : Nat, 2097153 * 2 ^ ((-149 : Int) + 149).toNat ≠ 2 ^ k)
    ∧ (2 ^ 277 * (2097153 * 2 ^ ((-149 : Int) + 149).toNat) ≤ 2 ^ 299 ∧ 2 ^ 299 < 2 ^ (277 + 1) * (2097153 * 2 ^ ((-149 : Int) + 149).toNat))
    ∧ 2 ^ (2 * 213) * (2097153 * 2 ^ ((-149 : Int) + 149).toNat) ≤ 2 ^ 449
    ∧ 2 ^ 449 < 2 ^ (2 * 213 + 2) * (2097153 * 2 ^ ((-149 : Int) + 149).toNat) := by
  refine ⟨⟨one (slice 0), place0, executes_of (by decide +kernel)⟩, by decide +kernel, by decide +kernel, by decide +kernel,
    by decide +kernel, by decide +kernel, by decide +kernel, by decide +kernel, by decide +kernel, by decide +kernel, by decide +kernel,
    by decide +kernel, by decide +kernel, ?_, by decide +kernel, by decide +kernel, by decide +kernel⟩
  intro k h
  have h' : 2097153 = 2 ^ k := by simpa using h
  rcases k with _ | k
  · simp at h'
  · have h2 := congrArg (· % 2) h'
    simp [Nat.pow_succ, Nat.mul_mod_left] at h2

theorem witness_IntegerCompareResults : ∃ s p, State.Executes s (.fcls (.s 9) (.v 3) (.s 10)) p :=
  ⟨one (slice 0), place0, executes_of (by decide +kernel)⟩

theorem witness_FloatCompareResults : ∃ s p, State.Executes s (.flt .exec (.v 3) (.s 10)) p :=
  ⟨one (slice 0), place0, executes_of (by decide +kernel)⟩

theorem witness_ScalarResults :
    (∃ s p, State.Executes s (.sadd .zero (.s 23) .exec) p) ∧ (∃ s p, State.Executes s (.saddi (.s 0) .role 0x7FF) p)
    ∧ (∃ s p, State.Executes s (.movi (.v 95) 0x20000) p) ∧ ∃ s p, State.Executes s (.movhi (.s 23) 0x3FFFF) p :=
  ⟨⟨one (slice 0), place0, executes_of (by decide +kernel)⟩, ⟨one (slice 0), place0, executes_of (by decide +kernel)⟩,
   ⟨one (slice 0), place0, executes_of (by decide +kernel)⟩, ⟨one (slice 0), place0, executes_of (by decide +kernel)⟩⟩

/-- A crew of two slices. -/
def crew : Team :=
  { team [slice 0, { slice 1 with exec := 0b0110 }] with record := { placeRecord with slices := 2, crewlog := 1 } }

/-- Where that crew stands. -/
def placeCrew : At := { place0 with members := [0, 1] }

/-- A handler thread of slice 0 in catch slot 0. -/
def handler : Slice :=
  { slice 64 with thread := some { cmd := 9, burst := 0, bc0 := 0, bc1 := 0, bc2 := 0, owner := 0, words := 255, fail := none } }

/-- A team with that thread. -/
def handlers : Team :=
  { team [slice 0, handler] with subs := [
      { members := [0], entry := true, stalled := false, joined := false, seq := 0, wants := none, bad := [], accepted := none },
      { members := [64], entry := true, stalled := false, joined := false, seq := 1, wants := none, bad := [], accepted := none }] }

theorem crew_here : State.CrewHere (state crew [0, 1]) placeCrew crew := by
  refine .inr ⟨0, .user, by decide +kernel, by decide +kernel, ?_, .inr ⟨by decide +kernel, by decide +kernel, by decide +kernel⟩⟩
  intro k hk sl h
  simp only [placeCrew, place0, List.mem_cons, List.not_mem_nil, or_false] at hk
  rcases hk with rfl | rfl <;> (cases h; exact ⟨rfl, rfl⟩)

theorem handler_here : State.CrewHere (state handlers [64]) { place0 with members := [64] } handlers :=
  .inl ⟨64, handler, _, rfl, by decide +kernel, rfl, rfl, by decide +kernel⟩

theorem witness_CrewMoveResults :
    (∃ s p x, State.Executes s (.shfl (.v 4) (.v 4) (.v 5)) p ∧ s.team? p.team = some x ∧ s.CrewHere p x)
    ∧ ∃ s p x, State.Executes s (.bcast .zero (.v 4) .zero) p ∧ s.team? p.team = some x ∧ s.CrewHere p x :=
  ⟨⟨state crew [0, 1], placeCrew, crew, executes_of (by decide +kernel), by decide +kernel, crew_here⟩,
   ⟨state handlers [64], { place0 with members := [64] }, handlers, executes_of (by decide +kernel), by decide +kernel, handler_here⟩⟩

theorem witness_CrewReduceResults :
    (∃ s p x, State.Executes s (.redi (.v 4) (.v 4)) p ∧ s.team? p.team = some x ∧ s.CrewHere p x)
    ∧ (∃ s p x, State.Executes s (.redf (.v 6) (.v 4)) p ∧ s.team? p.team = some x ∧ s.CrewHere p x)
    ∧ (∃ s p x, State.Executes s (.redmx (.v 6) (.v 4) (.s 1)) p ∧ s.team? p.team = some x ∧ s.CrewHere p x)
    ∧ ∃ s p x, State.Executes s (.scani (.v 6) (.v 4) (.s 1)) p ∧ s.team? p.team = some x ∧ s.CrewHere p x :=
  ⟨⟨_, _, _, executes_of (by decide +kernel), by decide +kernel, crew_here⟩,
   ⟨_, _, _, executes_of (by decide +kernel), by decide +kernel, crew_here⟩,
   ⟨_, _, _, executes_of (by decide +kernel), by decide +kernel, crew_here⟩,
   ⟨_, _, _, executes_of (by decide +kernel), by decide +kernel, crew_here⟩⟩

theorem witness_CrewVoteResults :
    ∃ s p x, State.Executes s (.ballot .exec (.v 4)) p ∧ s.team? p.team = some x ∧ s.CrewHere p x :=
  ⟨_, _, _, executes_of (by decide +kernel), by decide +kernel, crew_here⟩

theorem witness_SliceMoveResults : ∃ s p, State.Executes s (.sbc (.v 8) (.v 2) (.v 4)) p :=
  ⟨state crew [0, 1], placeCrew, executes_of (by decide +kernel)⟩

/-- The state that an outcome leaves. -/
def after (o : Host.Outcome State Fault Refusal) : State :=
  match o with
  | .next t => t
  | .fault _ | .refused _ => State.reset

theorem next_of {o : Host.Outcome State Fault Refusal} (h : (match o with | .next _ => true | .fault _ | .refused _ => false) = true) :
    o = .next (after o) := by
  cases o <;> simp_all [after]

/-- Whether `state` holds the word `w` at `va` in its code page. -/
def codeAt (va : Nat) (w : Word) : Bool :=
  let b := state (team []) []
  let pa := (page 0x10000 0x200000).addr va
  canonicalRange va 4 && decide (b.lookUp 0 1 va .fetch false = .hit (page 0x10000 0x200000)) && !beyond pa && !inRange .fabric pa
    && !b.poisoned pa 4 && decide (b.mem.nat pa 4 = w.toNat)

theorem word_held (x : Team) (ms : List Nat) (h : x.core = 0 ∧ x.asid = 1) {va : Nat} {w : Word} (h1 : codeAt va w = true) :
    State.HeldWord (state x ms) x false va w := by
  simp only [codeAt, Bool.and_eq_true, decide_eq_true_eq, Bool.not_eq_true'] at h1
  obtain ⟨⟨⟨⟨⟨a1, a2⟩, a3⟩, a4⟩, a5⟩, a6⟩ := h1
  refine ⟨a1, page 0x10000 0x200000, ?_, a3, a4, a5, a6, by intro i h; cases h⟩
  rw [h.1, h.2]; exact a2

theorem target_held (x : Team) (ms : List Nat) (sl : Slice) (h : x.core = 0 ∧ x.asid = 1) (h1 : x.record.codebase = 0x10000)
    (h2 : sl.mode = .user) : State.Target (state x ms) x sl 0x10000 0xF8000000#32 := by
  have hb : (state x ms).codeBase x sl = 0x10000 := by simp [State.codeBase, h1, h2]
  refine ⟨Nat.le_of_eq hb, by rw [hb]; decide, by rw [hb], ?_, by decide⟩
  rw [h2]; exact word_held x ms h (by decide +kernel)

theorem witness_BranchResults : ∃ s p x, State.Executes s (.brScc1 0xFFFFFF) p ∧ s.team? p.team = some x
    ∧ (∀ k ∈ p.members, ∀ sl, x.slice? k = some sl → ∃ va w, s.Target x sl va w
      ∧ (va : Int) = s.codeBase x sl + p.hdr + 4 * (1 + p.ix) + 4 * (0xFFFFFF#24).toInt)
    ∧ ∃ k ∈ p.members, ∃ sl, x.slice? k = some sl ∧ sl.scc = true := by
  refine ⟨one { slice 0 with scc := true }, place0, team [{ slice 0 with scc := true }], executes_of (by decide +kernel),
    by decide +kernel, ?_, 0, by decide, _, rfl, rfl⟩
  intro k hk sl h
  simp only [place0, List.mem_cons, List.not_mem_nil, or_false] at hk
  subst hk; cases h
  exact ⟨_, _, target_held _ _ _ ⟨rfl, rfl⟩ rfl rfl, by decide +kernel⟩

theorem witness_CallReturnResults :
    (∃ s p x, State.Executes s (.callW 0xFFFFFF) p ∧ s.team? p.team = some x
      ∧ ∀ k ∈ p.members, ∀ sl, x.slice? k = some sl → ∃ va w, s.Target x sl va w
        ∧ (va : Int) = s.codeBase x sl + p.hdr + 4 * (1 + p.ix) + 4 * (0xFFFFFF#24).toInt)
    ∧ (∃ s p x, State.Executes s .retW p ∧ s.team? p.team = some x
      ∧ ∀ k ∈ p.members, ∀ sl, x.slice? k = some sl → ∃ w, s.Target x sl ((sl.sget 22).toNat + 2 ^ 32 * (sl.sget 23).toNat) w)
    ∧ ∃ s p x, State.Executes s (.jmpi (.s 0)) p ∧ s.team? p.team = some x
      ∧ ∀ k ∈ p.members, ∀ sl, x.slice? k = some sl → ∃ w, s.Target x sl ((sl.sget 0).toNat + 2 ^ 32 * (sl.sget 1).toNat) w := by
  refine ⟨⟨one (slice 0), place0, team [slice 0], executes_of (by decide +kernel), by decide +kernel, ?_⟩,
    ⟨one { slice 0 with sregs := [(22, 0x10000#32)] }, place0, team [{ slice 0 with sregs := [(22, 0x10000#32)] }],
      executes_of (by decide +kernel), by decide +kernel, ?_⟩,
    ⟨one { slice 0 with sregs := [(0, 0x10000#32)] }, place0, team [{ slice 0 with sregs := [(0, 0x10000#32)] }],
      executes_of (by decide +kernel), by decide +kernel, ?_⟩⟩ <;>
  · intro k hk sl h
    simp only [place0, List.mem_cons, List.not_mem_nil, or_false] at hk
    subst hk; cases h
    first
    | exact ⟨_, _, target_held _ _ _ ⟨rfl, rfl⟩ rfl rfl, by decide +kernel⟩
    | exact ⟨_, target_held _ _ _ ⟨rfl, rfl⟩ rfl rfl⟩

theorem witness_SpecialRegisterResults :
    (∃ s p, State.Executes s (.wnd (.s 1) 63) p ∧ ∀ k ∈ p.members, ∀ sl, s.slice? p.team k = some sl →
      (sl.readS (.s 1) + 8 * (63#6).setWidth 32).toNat % 8 = 0 ∧ (sl.readS (.s 1) + 8 * (63#6).setWidth 32).toNat < 8 * sl.alloc)
    ∧ (∃ s p, State.Executes s (.movt (.s 1) 0) p ∧ ∀ k ∈ p.members, ∀ sl, s.slice? p.team k = some sl →
      (sl.readS (.s 1)).toNat % 8 = 0 ∧ (sl.readS (.s 1)).toNat % 512 < 8 * sl.alloc)
    ∧ (∃ s p, State.Executes s (.movt (.s 1) 3) p) ∧ (∃ s p, State.Executes s (.movs .exec 127) p)
    ∧ (∃ s p, State.Executes s (.movs (.s 6) 0) p) ∧ ∃ s p, State.Executes s .yield p := by
  refine ⟨⟨one (slice 0), place0, executes_of (by decide +kernel), ?_⟩, ⟨one (slice 0), place0, executes_of (by decide +kernel), ?_⟩,
    ⟨one (slice 0), place0, executes_of (by decide +kernel)⟩, ⟨one (slice 0), place0, executes_of (by decide +kernel)⟩,
    ⟨one (slice 0), place0, executes_of (by decide +kernel)⟩, ⟨one (slice 0), place0, executes_of (by decide +kernel)⟩⟩ <;>
  · intro k hk sl h
    simp only [place0, List.mem_cons, List.not_mem_nil, or_false] at hk
    subst hk; cases h
    decide +kernel

theorem witness_SoftwareTrapEntry : ∃ s p, State.Executes s (.trap 127) p :=
  ⟨one (slice 0), place0, executes_of (by decide +kernel)⟩

theorem at_word (sl : Slice) (conv : Bool) (h : (one sl).at? = some place0 ∧ sl.idx = 0) (h1 : sl.ended = false)
    (h2 : sl.block = .none) (h3 : sl.mode = .user) (h4 : sl.thread = none) (h5 : sl.vectors = false) :
    State.AtWord (one sl) place0 conv := by
  refine ⟨h.1, by simp [place0], by simp [place0], fun k hk => ?_⟩
  simp only [place0, List.mem_cons, List.not_mem_nil, or_false] at hk
  subst hk
  refine ⟨sl, ?_, h1, h2, h3, h4, fun _ => ⟨rfl, h5⟩⟩
  simp [State.slice?, State.team?, one, state, team, placeTeam, place0, Team.slice?, h.2]

theorem witness_DecodeTrapEntry :
    (∃ s p, State.AtWord s p ((((s.slice? p.team (p.members.headD 0)).bind (fun sl => sl.code[p.ix]?)).map opConverges).getD false))
    ∧ (∃ s p, State.AtWord s p ((((s.slice? p.team (p.members.headD 0)).bind (fun sl => sl.code[p.ix]?)).map opConverges).getD false)
      ∧ (((s.slice? p.team (p.members.headD 0)).bind (fun sl => sl.code[p.ix]?)).map opConverges).getD false = true)
    ∧ (∃ s p i, State.AtWord s p (Instr.conv i) ∧ i.wf = true ∧ i.sys = true)
    ∧ ∃ s p i, State.AtWord s p (Instr.conv i) ∧ s.NoneLate p false ∧ i.wf = true ∧ i.sys = false
      ∧ ∀ k ∈ p.members, ∀ sl, s.slice? p.team k = some sl → sl.inWindow i.vops = false := by
  refine ⟨⟨_, _, at_word (slice 0) _ ⟨by decide +kernel, rfl⟩ rfl rfl rfl rfl rfl⟩,
    ⟨_, _, at_word { slice 0 with code := [0x40000000#32] } _ ⟨by decide +kernel, rfl⟩ rfl rfl rfl rfl rfl, by decide +kernel⟩,
    ⟨_, _, .fret .zero .zero, at_word (slice 0) _ ⟨by decide +kernel, rfl⟩ rfl rfl rfl rfl rfl, by decide, by decide⟩,
    ⟨_, _, .iadd (.v 7) (.v 8) (.v 0), at_word { slice 0 with alloc := 1 } _ ⟨by decide +kernel, rfl⟩ rfl rfl rfl rfl rfl,
      none_late _ _ _ _, by decide, by decide, ?_⟩⟩
  intro k hk sl h
  simp only [place0, List.mem_cons, List.not_mem_nil, or_false] at hk
  subst hk; cases h
  decide +kernel

/-- Slices 0 and 1 of that crew in sub-crews of their own. -/
def parted : Team :=
  { crew with slices := [slice 0, slice 1], subs := [
      { members := [0], entry := true, stalled := false, joined := false, seq := 0, wants := none, bad := [], accepted := none },
      { members := [1], entry := true, stalled := false, joined := false, seq := 1, wants := none, bad := [], accepted := none }] }

theorem witness_JoinResults :
    (∃ (s : State) (p : At) (x : Team) (crew : Nat), s.Executes (.join 127) p ∧ s.team? p.team = some x ∧ (∀ e ∈ x.joins, e.crew ≠ crew)
      ∧ (∀ k ∈ x.expects crew 127, k ∈ p.members)
      ∧ ∀ k ∈ p.members, x.crewOf k = crew ∧ ∀ sl, x.slice? k = some sl → sl.waitLevel = none)
    ∧ ∃ (s : State) (p : At) (x : Team) (k : Nat) (sl : Slice), s.Alone (.join 0) p x k sl ∧ (∀ e ∈ x.joins, e.crew ≠ x.crewOf k)
      ∧ ∃ m ∈ x.expects (x.crewOf k) 0, m ≠ k := by
  refine ⟨⟨state crew [0, 1], placeCrew, crew, 0, executes_of (by decide +kernel), by decide +kernel, by decide +kernel,
    by decide +kernel, ?_⟩, ⟨state parted [0], place0, parted, 0, slice 0, alone_of (by decide +kernel) (by decide +kernel),
    by decide +kernel, 1, by decide +kernel, by decide⟩⟩
  intro k hk
  simp only [placeCrew, place0, List.mem_cons, List.not_mem_nil, or_false] at hk
  rcases hk with rfl | rfl <;> exact ⟨by decide +kernel, by rintro sl h; cases h; rfl⟩

/-- A handler thread whose `end` waits. -/
def endingHandler : Slice := { handler with block := .ending }

theorem witness_EndResults :
    (∃ (s : State) (p : At) (x : Team) (k : Nat) (sl : Slice), s.team? p.team = some x ∧ x.slice? k = some sl ∧ (∀ f, f < 12 → sl.flag f = 0) ∧ s.Idle p.team k
      ∧ s.Executes .endW p ∧ p.members = [k] ∧ sl.thread = none ∧ ∃ z ∈ x.slices, z.idx ≠ k ∧ z.ended = false ∧ z.thread = none)
    ∧ (∃ (s : State) (p : At) (x : Team) (k : Nat) (sl : Slice), s.team? p.team = some x ∧ x.slice? k = some sl ∧ (∀ f, f < 12 → sl.flag f = 0) ∧ s.Idle p.team k
      ∧ s.Executes .endW p ∧ p.members = [k] ∧ ∀ z ∈ x.slices, z.thread = none ∧ (z.idx = k ∨ z.ended = true))
    ∧ (∃ (s : State) (p : At) (x : Team) (k : Nat) (sl : Slice), s.team? p.team = some x ∧ x.slice? k = some sl ∧ (∀ f, f < 12 → sl.flag f = 0) ∧ s.Idle p.team k
      ∧ sl.block = .ending ∧ sl.thread = none ∧ x.st = .running ∧ x.halt = none)
    ∧ ∃ (s : State) (p : At) (x : Team) (k : Nat) (sl : Slice), s.team? p.team = some x ∧ x.slice? k = some sl ∧ (∀ f, f < 12 → sl.flag f = 0) ∧ s.Idle p.team k
      ∧ sl.block = .ending ∧ sl.thread.isSome = true ∧ ∀ th, sl.thread = some th → th.fail = none :=
  ⟨⟨state parted [0], place0, parted, 0, slice 0, by decide +kernel, by decide +kernel, by decide +kernel, state_idle _ _ _ _,
      executes_of (by decide +kernel), rfl, rfl, slice 1, by decide +kernel, by decide +kernel⟩,
    ⟨one (slice 0), place0, team [slice 0], 0, slice 0, by decide +kernel, by decide +kernel, by decide +kernel,
      state_idle _ _ _ _, executes_of (by decide +kernel), rfl, by decide +kernel⟩,
    ⟨one { slice 0 with block := .ending }, place0, team [{ slice 0 with block := .ending }], 0, { slice 0 with block := .ending },
      by decide +kernel, by decide +kernel, by decide +kernel, state_idle _ _ _ _, rfl, rfl, rfl, rfl⟩,
    ⟨state (team [slice 0, endingHandler]) [0], place0, team [slice 0, endingHandler], 64, endingHandler, by decide +kernel,
      by decide +kernel, by decide +kernel, state_idle _ _ _ _, rfl, rfl, by rintro th h; cases h; rfl⟩⟩

theorem witness_UserInterruptResults :
    (∃ (s : State) (u k : Nat) (x : Team) (sl : Slice) (w : Word), s.uiDue u k = true ∧ s.team? u = some x ∧ x.slice? k = some sl
      ∧ s.Target x sl (x.record.codebase + (sl.uiv &&& 0x03FFFFFC#32).toNat) w ∧ s.uiMates u k = [k])
    ∧ (∃ (s : State) (p : At) (x : Team) (k : Nat) (sl : Slice) (w : Word), s.Alone .uiret p x k sl
      ∧ s.Target x sl (s.codeBase x sl + (sl.uisv.extractLsb' 8 24).toNat * 4) w ∧ (sl.uisv.extractLsb' 5 3).toNat ≤ hdrLen w)
    ∧ (∃ (s : State) (p : At) (x : Team) (k : Nat) (sl : Slice) (u : Nat) (z : Team) (tl : Slice), s.Alone (.uintr .zero (.s 1)) p x k sl
      ∧ s.queued = false ∧ s.teamNo x.launch (sl.readS .zero).toNat = some u ∧ s.team? u = some z ∧ (sl.readS (.s 1)).getLsbD 6 = false
      ∧ z.slice? ((sl.readS (.s 1)).toNat % 64) = some tl ∧ tl.ended = false ∧ tl.thread = none)
    ∧ ∃ (s : State) (p : At) (x : Team) (k : Nat) (sl : Slice), s.Alone (.uintr (.s 0) .zero) p x k sl
      ∧ s.queued = false ∧ s.teamNo x.launch (sl.readS (.s 0)).toNat = none := by
  refine ⟨⟨one { slice 0 with uiv := 1, uiPend := true }, 1, 0, team [{ slice 0 with uiv := 1, uiPend := true }],
      { slice 0 with uiv := 1, uiPend := true }, 0xF8000000#32, by decide +kernel, by decide +kernel, by decide +kernel, ?_, by decide +kernel⟩,
    ⟨one { slice 0 with uisv := 0xF }, place0, team [{ slice 0 with uisv := 0xF }], 0, { slice 0 with uisv := 0xF }, 0xF8000000#32,
      alone_of (by decide +kernel) (by decide +kernel), ?_, by decide⟩,
    ⟨one sup, place0, team [sup], 0, sup, 1, team [sup], sup, alone_of (by decide +kernel) (by decide +kernel), by decide +kernel,
      by decide +kernel, by decide +kernel, by decide +kernel, by decide +kernel, rfl, rfl⟩,
    ⟨one { sup with sregs := [(0, 1)] }, place0, team [{ sup with sregs := [(0, 1)] }], 0, { sup with sregs := [(0, 1)] },
      alone_of (by decide +kernel) (by decide +kernel), by decide +kernel, by decide +kernel⟩⟩
  · exact target_held _ _ _ ⟨rfl, rfl⟩ rfl rfl
  · exact target_held _ _ _ ⟨rfl, rfl⟩ rfl rfl

/-- Slice 0 at a header it has not opened. -/
def shut : Slice := { slice 0 with opened := false }

/-- `shut` with the words of its clause in memory, one after another from its header. -/
def coded (sl : Slice) (first second : Nat) : State :=
  { one sl with mem := ((one sl).mem.setNat 0x200000 8 first).setNat 0x200008 8 second }

theorem coded_at (sl : Slice) (m n : Nat) (h : sl.idx = 0 ∧ sl.hdr = 0 ∧ sl.ix = 0 ∧ sl.assigned 0 = some 0)
    (h1 : sl.ended = false ∧ sl.block = .none ∧ sl.mode = .user ∧ sl.thread = none ∧ sl.vectors = false) :
    State.AtWord (coded sl m n) place0 false := by
  refine ⟨?_, by simp [place0], by simp [place0], fun k hk => ?_⟩
  · simp [State.at?, coded, one, state, team, placeTeam, State.team?, Team.slice?, h, place0]
  · simp only [place0, List.mem_cons, List.not_mem_nil, or_false] at hk
    subst hk
    refine ⟨sl, ?_, h1.1, h1.2.1, h1.2.2.1, h1.2.2.2.1, fun _ => ⟨rfl, h1.2.2.2.2⟩⟩
    simp [State.slice?, State.team?, coded, one, state, team, placeTeam, place0, Team.slice?, h.1]

theorem coded_held (sl : Slice) (m n va : Nat) (w : Word)
    (h : (coded (slice 0) m n).mem.nat ((page 0x10000 0x200000).addr va) 4 = w.toNat)
    (h1 : codeAt va (BitVec.ofNat 32 ((state (team []) []).mem.nat ((page 0x10000 0x200000).addr va) 4)) = true) :
    State.HeldWord (coded sl m n) (team [sl]) false va w := by
  simp only [codeAt, Bool.and_eq_true, decide_eq_true_eq, Bool.not_eq_true'] at h1
  obtain ⟨⟨⟨⟨⟨b1, b2⟩, b3⟩, b4⟩, b5⟩, -⟩ := h1
  exact ⟨b1, page 0x10000 0x200000, b2, b3, b4, b5, h, by intro i h; cases h⟩

/-- A clause whose branch is not its last word, one whose WAIT holds, and one that waits for f11. -/
theorem witness_ClauseResults :
    (∃ (s : State) (p : At) (x : Team) (k : Nat) (sl : Slice) (ws : List Word), s.AtWord p false ∧ p.members = [k]
      ∧ s.team? p.team = some x ∧ x.slice? k = some sl ∧ p.ix = 0 ∧ s.pend = [] ∧ sl.vectors = false ∧ ws.length = 2
      ∧ (∀ j v, ws[j]? = some v → s.HeldWord x false (s.codeBase x sl + p.hdr + 4 * (1 + j)) v)
      ∧ clauseBad (headerWord 0 0 0 1 0) ws = true)
    ∧ (∃ (s : State) (p : At) (x : Team) (k : Nat) (sl : Slice) (ws : List Word), s.AtWord p false ∧ p.members = [k]
      ∧ s.team? p.team = some x ∧ x.slice? k = some sl ∧ p.ix = 0 ∧ s.pend = [] ∧ sl.vectors = false ∧ ws.length = 1
      ∧ (∀ j v, ws[j]? = some v → s.HeldWord x false (s.codeBase x sl + p.hdr + 4 * (1 + j)) v)
      ∧ clauseBad (headerWord 0xFFF 0 0 0 0) ws = false ∧ ∀ f, f < 12 → (0xFFF#12).getLsbD f = true → sl.flag f = 0)
    ∧ ∃ (s : State) (p : At) (x : Team) (k : Nat) (sl : Slice) (ws : List Word), s.AtWord p false ∧ p.members = [k]
      ∧ s.team? p.team = some x ∧ x.slice? k = some sl ∧ p.ix = 0 ∧ s.pend = [] ∧ sl.vectors = false ∧ ws.length = 1
      ∧ (∀ j v, ws[j]? = some v → s.HeldWord x false (s.codeBase x sl + p.hdr + 4 * (1 + j)) v)
      ∧ clauseBad (headerWord 0x800 0 0 0 0) ws = false ∧ ∃ f, f < 12 ∧ (0x800#12).getLsbD f = true ∧ sl.flag f ≠ 0 := by
  refine ⟨⟨coded shut (0xF8000010 + 0xC0000000 * 2 ^ 32) 0xD0000007, place0, team [shut], 0, shut, [0xC0000000#32, 0xD0000007#32],
      coded_at _ _ _ (by decide +kernel) (by decide +kernel), rfl, by decide +kernel, by decide +kernel, rfl, rfl, rfl, rfl, ?_,
      by decide +kernel⟩,
    ⟨coded shut (0xFFFF8000 + 0xD0000007 * 2 ^ 32) 0, place0, team [shut], 0, shut, [0xD0000007#32],
      coded_at _ _ _ (by decide +kernel) (by decide +kernel), rfl, by decide +kernel, by decide +kernel, rfl, rfl, rfl, rfl, ?_,
      by decide +kernel, by decide +kernel⟩,
    ⟨coded { shut with flags := [(11, 1)] } (0xFC000000 + 0xD0000007 * 2 ^ 32) 0, place0, team [{ shut with flags := [(11, 1)] }], 0,
      { shut with flags := [(11, 1)] }, [0xD0000007#32],
      coded_at _ _ _ (by decide +kernel) (by decide +kernel), rfl, by decide +kernel, by decide +kernel, rfl, rfl, rfl, rfl, ?_,
      by decide +kernel, 11, by decide, by decide, by decide +kernel⟩⟩
  · intro j v h
    rcases j with _ | _ | j
    · cases h; exact coded_held _ _ _ _ _ (by decide +kernel) (by decide +kernel)
    · cases h; exact coded_held _ _ _ _ _ (by decide +kernel) (by decide +kernel)
    · cases h
  all_goals
    intro j v h
    rcases j with _ | j
    · cases h; exact coded_held _ _ _ _ _ (by decide +kernel) (by decide +kernel)
    · cases h

/-- Slice 0 with its lowest lane alone enabled and the address 0x2007C, the last word of a sector, in `s[2:3]`. -/
def lane0 : Slice := { slice 0 with exec := 1, sregs := [(2, 0x2007C)] }

/-- The load of one word there into `v8`. -/
def loadAcc : Acc where
  kind := .load false
  order := .ord
  lanes := [0]
  uniform := true
  ea := 0x2007C
  size := 4
  align := 4
  loc := false
  comb := false
  data := 0
  dst := [8]
  hdr := 0
  ix := 0
  flag := some 0
  sup := false

/-- The store of `s2` there. -/
def storeAcc : Acc := { loadAcc with kind := .store, data := 0x2007C, dst := [] }

/-- Its place in memory. -/
def piece : Piece where
  va := 0x2007C
  pa := 0x40007C
  size := 4
  leaf := page 0x20000 0x400000

theorem witness_MemoryRequests :
    (∃ e ∈ memRows 0x400, ∃ (s : State) (p : At) (x : Team) (k : Nat) (sl : Slice), s.Alone (e.1 (.v 8) (.s 2) .zero) p x k sl ∧ sl.eff = 0)
    ∧ ∃ e ∈ memRows 0x400, ∃ (s : State) (p : At) (x : Team) (k : Nat) (sl : Slice),
      s.Alone (e.1 (.v 8) (.s 2) .zero) p x k sl ∧ sl.eff ≠ 0 :=
  ⟨⟨_, List.mem_of_getElem? (i := 0) rfl, one { slice 0 with exec := 0 }, place0, team [{ slice 0 with exec := 0 }], 0,
      { slice 0 with exec := 0 }, alone_of (by decide +kernel) (by decide +kernel), by decide⟩,
    ⟨_, List.mem_of_getElem? (i := 0) rfl, one (slice 0), place0, team [slice 0], 0, slice 0,
      alone_of (by decide +kernel) (by decide +kernel), by decide⟩⟩

theorem witness_LoadStoreResults :
    (∃ e ∈ ldxRows ++ ldstRows 0, ∃ (s : State) (p : At) (x : Team) (k l : Nat) (sl : Slice) (d a b : Opd) (y : Acc) (q : Piece),
      s.Alone (e.1 d a b) p x k sl ∧ sl.lanes = [l] ∧ e.2.order = .ord ∧ e.2.Captures (e.1 d a b) p x.record.crewlog sl d a b l y
      ∧ y.data = 0 ∧ 0 ≤ e.2.ea x.record.crewlog sl a b l ∧ s.attempt x y = .go [q] ∧ q.leaf.share ≠ .dev ∧ beyond q.pa = false
      ∧ inRange .fabric q.pa = false ∧ s.Fresh q.pa ∧ s.HasRoom q.pa ∧ s.ceiling x.core = none ∧ s.poisoned q.pa q.size = false ∧ s.Idle p.team k ∧ e.2.kind = .load false)
    ∧ ∃ e ∈ ldxRows ++ ldstRows 0, ∃ (s : State) (p : At) (x : Team) (k l : Nat) (sl : Slice) (d a b : Opd) (y : Acc) (q : Piece),
      s.Alone (e.1 d a b) p x k sl ∧ sl.lanes = [l] ∧ e.2.order = .ord ∧ e.2.Captures (e.1 d a b) p x.record.crewlog sl d a b l y
      ∧ 0 ≤ e.2.ea x.record.crewlog sl a b l ∧ s.attempt x y = .go [q] ∧ q.leaf.share ≠ .dev ∧ beyond q.pa = false
      ∧ inRange .fabric q.pa = false ∧ s.Fresh q.pa ∧ s.HasRoom q.pa ∧ s.ceiling x.core = none ∧ s.poisoned q.pa q.size = false ∧ s.Idle p.team k ∧ e.2.kind = .store :=
  ⟨⟨_, List.mem_of_getElem? (i := 24) rfl, one lane0, place0, team [lane0], 0, 0, lane0, .v 8, .s 2, .zero, loadAcc, piece,
      alone_of (by decide +kernel) (by decide +kernel), by decide +kernel, rfl,
      ⟨⟨rfl, rfl, rfl⟩, ⟨rfl, rfl, rfl⟩, by decide +kernel, rfl, fun _ => by decide +kernel, fun _ _ h => (by cases h), rfl, by decide +kernel⟩,
      rfl, by decide +kernel, by decide +kernel, by decide, by decide +kernel, by decide +kernel, state_fresh _ _ _, roomy rfl _,
      by decide +kernel, by decide +kernel, state_idle _ _ _ _, rfl⟩,
    ⟨_, List.mem_of_getElem? (i := 25) rfl, one lane0, place0, team [lane0], 0, 0, lane0, .s 2, .s 2, .zero,
      { storeAcc with flag := none }, piece,
      alone_of (by decide +kernel) (by decide +kernel), by decide +kernel, rfl,
      ⟨⟨rfl, rfl, rfl⟩, ⟨rfl, rfl, rfl⟩, by decide +kernel, rfl, fun _ => by decide +kernel,
        fun _ _ h => by cases h; decide +kernel, rfl, by decide +kernel⟩,
      by decide +kernel, by decide +kernel, by decide, by decide +kernel, by decide +kernel, state_fresh _ _ _, roomy rfl _,
      by decide +kernel, by decide +kernel, state_idle _ _ _ _, rfl⟩⟩

/-- The compare-and-swap of that word: `v6` is replaced by `v7`. -/
def casAcc : Acc := { loadAcc with kind := .atom 10, uniform := false, data := 5 * 2 ^ 32, flag := some 0 }

/-- `lane0` with 0 and 5 in `v6` and `v7`. -/
def lane1 : Slice := lane0.vset 7 0 5

theorem witness_AtomicResults :
    ∃ e ∈ atomRows, ∃ (s : State) (p : At) (x : Team) (k l : Nat) (sl : Slice) (d a b : Opd) (y : Acc) (q : Piece),
      s.Alone (e.1 d a b) p x k sl ∧ sl.lanes = [l] ∧ e.2.1.order = .ord ∧ e.2.1.Captures (e.1 d a b) p x.record.crewlog sl d a b l y
      ∧ s.attempt x y = .go [q] ∧ beyond q.pa = false ∧ inRange .fabric q.pa = false ∧ s.HasRoom q.pa ∧ q.size = e.2.1.size ∧ s.ceiling x.core = none
      ∧ s.poisoned q.pa q.size = false ∧ s.Idle p.team k :=
  ⟨_, List.mem_of_getElem? (i := 20) rfl, one lane1, place0, team [lane1], 0, 0, lane1, .v 8, .s 2, .v 6, casAcc, piece,
    alone_of (by decide +kernel) (by decide +kernel), by decide +kernel, rfl,
    ⟨⟨rfl, rfl, rfl⟩, ⟨rfl, rfl, rfl⟩, by decide +kernel, rfl, fun _ => by decide +kernel, fun _ _ h => (by cases h; decide +kernel), rfl,
      by decide +kernel⟩,
    by decide +kernel, by decide +kernel, by decide +kernel, roomy rfl _, rfl, by decide +kernel, by decide +kernel,
    state_idle _ _ _ _⟩

/-- `lane0` with an address off 4, and with the last address below the canonical hole. -/
def lane2 (va : Word) : Slice := { lane0 with sregs := [(2, va)] }

theorem witness_LaneFaultResults :
    (∃ e ∈ memRows 0, ∃ (s : State) (p : At) (x : Team) (k l : Nat) (sl : Slice) (d a b : Opd) (y : Acc) (c va : Nat),
      s.Alone (e.1 d a b) p x k sl ∧ sl.mode = .user ∧ sl.lanes = [l] ∧ e.2.Captures (e.1 d a b) p x.record.crewlog sl d a b l y
      ∧ y.data = 0 ∧ 0 ≤ e.2.ea x.record.crewlog sl a b l ∧ s.attempt x y = .fault c va ∧ s.Idle p.team k ∧ sl.rec? l = none)
    ∧ (∃ a : Acc, a.loc = false ∧ canonicalRange a.ea a.size = false)
    ∧ (∃ a : Acc, a.loc = false ∧ canonicalRange a.ea a.size = true ∧ a.ea % a.align ≠ 0)
    ∧ (∃ a : Acc, a.loc = true ∧ a.ea % 4 ≠ 0)
    ∧ (∃ (t : Team) (a : Acc), a.loc = true ∧ a.ea % 4 = 0 ∧ 128 * t.record.scratch < a.ea + a.size)
    ∧ ∃ (s : State) (t : Team) (a : Acc) (l : Nat), a.loc = false ∧ canonicalRange a.ea a.size = true ∧ a.ea % a.align = 0 ∧ 0 < a.size
      ∧ (∀ q ∈ pieces 128 a.ea a.size, s.lookUp t.core t.asid q.1 a.need a.sup ≠ .miss)
      ∧ (∀ q ∈ pieces 128 a.ea a.size, ∀ c, s.lookUp t.core t.asid q.1 a.need a.sup = .fault c → l ≤ c)
      ∧ s.lookUp t.core t.asid a.ea a.need a.sup = .fault l := by
  have hp : pieces 128 loadAcc.ea loadAcc.size = [(0x2007C, 4)] := by decide +kernel
  have hf : State.lookUp { one (slice 0) with tlb := [held { page 0x20000 0x400000 with r := false }] } (team []).core (team []).asid 0x2007C
      loadAcc.need loadAcc.sup = .fault 0x14 := by decide +kernel
  exact
  ⟨⟨_, List.mem_of_getElem? (i := 24) rfl, one (lane2 0x2007E), place0, team [lane2 0x2007E], 0, 0, lane2 0x2007E, .v 8, .s 2, .zero,
      { loadAcc with ea := 0x2007E }, 0x11, 0x2007E, alone_of (by decide +kernel) (by decide +kernel), rfl, by decide +kernel,
      ⟨⟨rfl, rfl, rfl⟩, ⟨rfl, rfl, rfl⟩, by decide +kernel, rfl, fun _ => by decide +kernel, fun _ _ h => (by cases h), rfl, by decide +kernel⟩,
      rfl, by decide +kernel, by decide +kernel, state_idle _ _ _ _, by decide +kernel⟩,
    ⟨{ loadAcc with ea := 2 ^ 56 - 2 }, rfl, by decide +kernel⟩, ⟨{ loadAcc with ea := 0x2007E }, rfl, by decide +kernel, by decide⟩,
    ⟨{ loadAcc with ea := 2, loc := true }, rfl, by decide⟩, ⟨team [], { loadAcc with ea := 128, loc := true }, rfl, by decide, by decide⟩,
    ⟨{ one (slice 0) with tlb := [held { page 0x20000 0x400000 with r := false }] }, team [], loadAcc, 0x14, rfl, by decide +kernel,
      by decide, by decide, by decide +kernel, (by
        intro q hq c hc
        rw [hp, List.mem_singleton] at hq
        subst hq
        rw [hf] at hc
        cases hc
        exact Nat.le_refl _), hf⟩⟩

/-- One outstanding operation of slice 0 of team 1. -/
def pending (a : Acc) (st : AccSt) : PendOp where
  id := 7
  team := 1
  slice := 0
  accs := [(a, st)]
  lag := false

theorem witness_AccessCompletionResults :
    (∃ (s : State) (n : Nat) (op : PendOp) (a : Acc) (v : Nat) (x : Team) (sl : Slice), s.pend.find? (fun o => o.id == n) = some op
      ∧ op.accs = [(a, .got v [])] ∧ a.flag.isSome = true ∧ s.team? op.team = some x ∧ x.slice? op.slice = some sl ∧ sl.thread = none
      ∧ (∀ l ∈ a.lanes, l < 4) ∧ a.dst.Nodup ∧ (∀ l ∈ a.lanes, ∀ r ∈ a.dst, sl.marks.since (4 * r + l) = false) ∧ 0 < a.dst.length)
    ∧ (∃ (s : State) (n : Nat) (op : PendOp) (a : Acc) (x : Team) (sl : Slice), s.pend.find? (fun o => o.id == n) = some op
      ∧ op.accs = [(a, .written)] ∧ a.flag = none ∧ s.team? op.team = some x ∧ x.slice? op.slice = some sl ∧ sl.thread = none
      ∧ sl.block = .none ∧ sl.ended = false)
    ∧ ∃ (s : State) (n : Nat) (op : PendOp) (a : Acc) (x : Team) (sl : Slice) (q : Piece),
      s.pend.find? (fun o => o.id == n) = some op ∧ op.accs = [(a, .late [q])] ∧ a.flag = none ∧ s.team? op.team = some x
      ∧ x.slice? op.slice = some sl ∧ sl.thread = none ∧ sl.block = .none ∧ sl.ended = false ∧ a.kind = .store ∧ a.comb = false
      ∧ q.leaf.share ≠ .dev ∧ beyond q.pa = false ∧ inRange .fabric q.pa = false ∧ s.revoked q.pa = false ∧ s.HasRoom q.pa
      ∧ s.ceiling x.core = none ∧ ∀ o ∈ s.pend, o.team = op.team → o.slice = op.slice → o.id = n :=
  ⟨⟨{ one (slice 0) with pend := [pending loadAcc (.got 0x80 [])] }, 7, pending loadAcc (.got 0x80 []), loadAcc, 0x80, team [slice 0],
      slice 0, by decide +kernel, rfl, rfl, by decide +kernel, by decide +kernel, rfl, by decide, by decide, by decide +kernel, by decide⟩,
    ⟨{ one (slice 0) with pend := [pending { storeAcc with flag := none } .written] }, 7, pending { storeAcc with flag := none } .written,
      { storeAcc with flag := none }, team [slice 0], slice 0, by decide +kernel, rfl, rfl, by decide +kernel, by decide +kernel, rfl, rfl, rfl⟩,
    ⟨{ one (slice 0) with pend := [pending { storeAcc with flag := none } (.late [piece])] }, 7,
      pending { storeAcc with flag := none } (.late [piece]), { storeAcc with flag := none }, team [slice 0], slice 0, piece,
      by decide +kernel, rfl, rfl, by decide +kernel, by decide +kernel, rfl, rfl, rfl, rfl, rfl, by decide, by decide +kernel,
      by decide +kernel, by decide +kernel, roomy rfl _, by decide +kernel, by decide⟩⟩

/-- Slice 0 with a range in `s2` and `s4`, and its team while the operation of its word is in progress, or not yet accepted. -/
def ranged (va n : Word) : Slice := { slice 0 with sregs := [(2, va), (4, n)] }

/-- The team of `ranged`, with what its sub-crew has accepted. -/
def ranging (va n : Word) (a : Option Accepted) : Team :=
  { team [ranged va n] with subs := [
      { members := [0], entry := true, stalled := a.isSome, joined := false, seq := 0, wants := none, bad := [], accepted := a }] }

theorem witness_FenceMaintenanceResults :
    (∃ (s : State) (p : At) (x : Team) (k : Nat) (sl : Slice), s.Alone .fenceSys p x k sl ∧ s.NoneLate p true
      ∧ ∃ t sl', exec .fenceSys s = .next t ∧ t.slice? p.team k = some sl' ∧ sl.WentOn sl')
    ∧ (∃ (s : State) (p : At) (x : Team) (k : Nat) (sl : Slice), s.Alone .fenceSys p x k sl
      ∧ s.pend.Pairwise (fun o o' => o.id < o'.id) ∧ (∀ j ∈ s.jobs, j.stream = none) ∧ s.ceiling x.core = none
      ∧ (∀ o ∈ s.pend, o.team = p.team → o.slice = k → ∀ y ∈ o.accs, y.1.comb = false ∧ ∀ ps, y.2.coming? = some ps →
            y.2 = .late ps ∧ ∀ q ∈ ps, inRange .fabric q.pa = false)
      ∧ ∃ o ∈ s.pend, o.team = p.team ∧ o.slice = k ∧ ∃ y ∈ o.accs, y.2.late? ≠ none)
    ∧ (∃ (s : State) (p : At) (x : Team) (k : Nat) (sl : Slice), s.Alone .fenceHost p x k sl ∧ s.NoneLate p true)
    ∧ (∃ (s : State) (p : At) (x : Team) (k : Nat) (sl : Slice) (u : SubCrew), s.Alone (.inval (.s 2) (.s 4)) p x k sl
      ∧ x.sub? k = some u ∧ u.members = [k] ∧ u.accepted = none)
    ∧ (∃ (s : State) (p : At) (x : Team) (k : Nat) (sl : Slice) (u : SubCrew), s.Alone (.inval (.s 2) (.s 4)) p x k sl
      ∧ x.sub? k = some u ∧ u.members = [k] ∧ u.accepted ≠ none ∧ 0x1000000 < (sl.readS (.s 4)).toNat)
    ∧ (∃ (s : State) (p : At) (x : Team) (k : Nat) (sl : Slice) (u : SubCrew), s.Alone (.flush (.s 2) (.s 4)) p x k sl
      ∧ x.sub? k = some u ∧ u.members = [k] ∧ u.accepted ≠ none
      ∧ (sl.readS (.s 4)).toNat ≤ 0x1000000 ∧ canonicalRange (sl.pairOf 0 (.s 2) 0) (sl.readS (.s 4)).toNat = true
      ∧ 0 < (sl.readS (.s 4)).toNat)
    ∧ (∃ (s : State) (p : At), s.Executes (.waitf 0x3F 0x3F) p ∧ ∀ k ∈ p.members, ∀ sl, s.slice? p.team k = some sl →
      ∀ f, f < 12 → ((0x3F#6) ++ (0x3F#6)).getLsbD f = true → sl.flag f = 0)
    ∧ ∃ (s : State) (p : At) (x : Team) (k : Nat) (sl : Slice), s.Alone (.waitf 0x20 0) p x k sl
      ∧ ∃ f, f < 12 ∧ ((0x20#6) ++ (0#6)).getLsbD f = true ∧ sl.flag f ≠ 0 := by
  refine ⟨⟨one (slice 0), place0, team [slice 0], 0, slice 0, alone_of (by decide +kernel) (by decide +kernel), none_late _ _ _ _, _, _,
      next_of (by decide +kernel), (Option.some_get (by decide +kernel)).symm, ⟨by decide +kernel, by decide +kernel⟩⟩,
    ⟨{ one (slice 0) with pend := [pending { storeAcc with flag := none, order := .unp } (.late [piece])] },
      place0, team [slice 0], 0, slice 0, alone_of (by decide +kernel) (by decide +kernel), by decide +kernel,
      (by intro j h; cases h), by decide +kernel, ?_, ?_⟩,
    ⟨one (slice 0), place0, team [slice 0], 0, slice 0, alone_of (by decide +kernel) (by decide +kernel), none_late _ _ _ _⟩,
    ⟨state (ranging 0 0x1000000 none) [0], place0, ranging 0 0x1000000 none, 0, ranged 0 0x1000000, _,
      alone_of (by decide +kernel) (by decide +kernel), rfl, rfl, rfl⟩,
    ⟨state (ranging 0 0x1000001 (some .lines)) [0], place0, ranging 0 0x1000001 (some .lines), 0, ranged 0 0x1000001, _,
      alone_of (by decide +kernel) (by decide +kernel), rfl, rfl, by decide, by decide +kernel⟩,
    ⟨state (ranging 0x20000 0x1000000 (some .lines)) [0], place0, ranging 0x20000 0x1000000 (some .lines), 0,
      ranged 0x20000 0x1000000, _, alone_of (by decide +kernel) (by decide +kernel), rfl, rfl, by decide, by decide +kernel,
      by decide +kernel, by decide +kernel⟩,
    ⟨one (slice 0), place0, executes_of (by decide +kernel), ?_⟩,
    ⟨one { slice 0 with flags := [(11, 63)] }, place0, team [{ slice 0 with flags := [(11, 63)] }], 0, { slice 0 with flags := [(11, 63)] },
      alone_of (by decide +kernel) (by decide +kernel), 11, by decide, by decide, by decide +kernel⟩⟩
  · intro o ho _ _ y hy
    have ho : o ∈ [pending { storeAcc with flag := none, order := .unp } (.late [piece])] := ho
    simp only [List.mem_cons, List.not_mem_nil, or_false] at ho
    subst ho
    simp only [pending, List.mem_cons, List.not_mem_nil, or_false] at hy
    subst hy
    exact ⟨rfl, fun ps hp => by cases hp; exact ⟨rfl, by decide +kernel⟩⟩
  · exact ⟨_, List.mem_cons_self, rfl, rfl, _, List.mem_cons_self, by decide⟩
  · intro k hk sl h
    simp only [place0, List.mem_cons, List.not_mem_nil, or_false] at hk
    subst hk; cases h
    decide +kernel

/-- A team of the partition that serves service class 255. -/
def served : Slice := { slice 0 with sregs := [(1, 0xFF000000)] }

/-- The package with that class served, or not. -/
def serving (m : BitVec 256) : State := (one served).setPart 0 (fun q => { q with svcmask := m })

/-- A batch of one lane of slice 0. -/
def batch (slot : Option Nat) (answer : Option (List Dword)) : Batch where
  id := 8
  team := 1
  word := 0xFF000000
  pc := 0
  wide := false
  dst := .v 8
  crew := 0
  lanes := [(3, 0, 3, 5, some 8)]
  flags := [(0, some 0)]
  slot := slot
  answer := answer
  given := []

/-- A wide batch of two lanes of slice 0, answered. -/
def batch2 : Batch :=
  { batch (some 4095) (some [9, 10]) with wide := true, lanes := [(2, 0, 2, 5, some 8), (3, 0, 3, 5, some 8)] }

/-- The slots of die 0's service ring lie in its HBM. -/
theorem slot_low (k : Nat) (h : k < 4096) : serviceSlot 0 k < 0x1800000000 := by
  have : Config.serviceRing 0 % 201322496 < 201322496 := Nat.mod_lt _ (by decide)
  simp only [serviceSlot, dieBytes]
  omega

theorem slot_sound (k : Nat) (h : k < 4096) {s : State} (h1 : s.poison = []) (h2 : s.extents = []) :
    s.poisoned (serviceSlot 0 k) 0x140 = false := by
  have := slot_low k h
  have h3 : rangeOf (serviceSlot 0 k) = some (.hbm, 0x6000000000) := if_pos (by omega)
  simp [State.poisoned, State.revoked, State.extentAt, inRange, h1, h2, h3]

theorem witness_ServiceResults :
    (∃ (s : State) (p : At) (x : Team) (k : Nat) (sl : Slice), s.Alone (.svc 0 (.v 8) (.s 1) .zero) p x k sl ∧ s.NoneLate p false ∧ sl.eff ≠ 0
      ∧ (s.part x.part).svcmask.getLsbD ((sl.readS (.s 1)).toNat / 2 ^ 24) = true)
    ∧ (∃ (s : State) (p : At) (x : Team) (k : Nat) (sl : Slice), s.Alone (.svc 1 (.v 8) (.s 1) (.v 4)) p x k sl ∧ s.NoneLate p false ∧ sl.eff ≠ 0
      ∧ (s.part x.part).svcmask.getLsbD ((sl.readS (.s 1)).toNat / 2 ^ 24) = false)
    ∧ (∃ (s : State) (n : Nat), s.batchDue n = true)
    ∧ (∃ (s : State) (n : Nat) (b : Batch), s.batchDue n = true ∧ s.batches.find? (fun y => y.id == n) = some b
      ∧ (s.team? b.team).isSome = true ∧ (∀ y ∈ b.lanes, y.1 < 32) ∧ (b.lanes.map (fun y => y.1)).Nodup)
    ∧ (∃ (s : State) (n slot : Nat) (b : Batch), s.batches.find? (fun y => y.id == n && y.answer.isNone) = some b
      ∧ b.slot = some slot ∧ s.poisoned (serviceSlot (s.batchDie b) slot) 0x140 = false)
    ∧ ∃ (s : State) (n : Nat) (b : Batch) (r : List Dword) (x : Team) (k q : Nat) (sl : Slice) (f : Option Nat),
      s.batches.find? (fun y => y.id == n) = some b ∧ b.answer = some r ∧ r.length = b.lanes.length ∧ b.given = [] ∧ b.flags = [(k, f)]
      ∧ (∀ y ∈ b.lanes, y.2.1 = k ∧ y.2.2.1 < 4 ∧ y.2.2.2.2 = some q) ∧ (b.lanes.map (fun y => y.2.2.1)).Nodup
      ∧ s.team? b.team = some x ∧ x.slice? k = some sl ∧ (∀ m, sl.marks.since m = false) ∧ b.wide = true ∧ 2 ≤ b.lanes.length :=
  ⟨⟨serving (1 <<< 255), place0, team [served], 0, served, alone_of (by decide +kernel) (by decide +kernel), fun _ _ => rfl, by decide, by decide +kernel⟩,
    ⟨serving ((BitVec.allOnes 255).setWidth 256), place0, team [served], 0, served, alone_of (by decide +kernel) (by decide +kernel), fun _ _ => rfl, by decide, by decide +kernel⟩,
    ⟨{ one (slice 0) with batches := [batch none none] }, 8, by decide +kernel⟩,
    ⟨{ one (slice 0) with batches := [batch none none] }, 8, batch none none, by decide +kernel, by decide +kernel, by decide +kernel,
      by decide, by decide⟩,
    ⟨{ one (slice 0) with batches := [batch (some 4095) none] }, 8, 4095, batch (some 4095) none, by decide +kernel, rfl,
      slot_sound 4095 (by decide) rfl rfl⟩,
    ⟨{ one (slice 0) with batches := [batch2] }, 8, batch2, [9, 10], team [slice 0], 0, 8, slice 0, some 0, by decide +kernel, rfl, rfl, rfl,
      rfl, by decide, by decide, by decide +kernel, by decide +kernel, fun _ => rfl, rfl, by decide⟩⟩

/-! ### Engines -/

/-- Slice 0 with an octet in `s8` to `s15`: one sector from 0x20000 to 0x20080. -/
def copier (sz : Word) : Slice := { slice 0 with sregs := [(8, 0x20000), (10, 0x20080), (12, sz)] }

theorem witness_EngineCommandResults :
    (∃ e ∈ engWords, ∃ (s : State) (p : At) (x : Team) (k : Nat) (sl : Slice) (d a : Opd), s.Alone (e.1 d a) p x k sl
      ∧ (∀ n, (s.part x.part).reserve n (bitmapRoom e.2 (sl.octet a)) ≠ none) ∧ x.cmds.length + 1 = x.record.copyq
      ∧ (e.2 = 5 ∨ e.2 = 6 → x.record.catchSlots ≠ 0))
    ∧ ∃ e ∈ engWords, ∃ (s : State) (p : At) (x : Team) (k : Nat) (sl : Slice) (d a : Opd), s.Alone (e.1 d a) p x k sl
      ∧ (∀ n, (s.part x.part).reserve n (bitmapRoom e.2 (sl.octet a)) ≠ none) ∧ x.record.copyq = 0 := by
  refine ⟨⟨_, List.mem_of_getElem? (i := 0) rfl, one (copier 128), place0, team [copier 128], 0, copier 128, .s 16, .s 8,
      alone_of (by decide +kernel) (by decide +kernel), ?_, rfl, fun h => absurd h (by decide)⟩,
    ⟨_, List.mem_of_getElem? (i := 0) rfl, state { team [copier 128] with record := { placeRecord with copyq := 0 } } [0], place0,
      { team [copier 128] with record := { placeRecord with copyq := 0 } }, 0, copier 128, .s 16, .s 8,
      alone_of (by decide +kernel) (by decide +kernel), ?_, rfl⟩⟩ <;>
  · intro n h
    exact absurd h (by simp [Part.reserve, bitmapRoom])

/-- A copy command of slice 0 with that octet. -/
def copyCmd (sz : Word) : Cmd where
  id := 9
  slice := 0
  fn := 0
  octet := [0x20000, 0, 0x20080, 0, sz, 0, 0, 0]
  dst := .s 16
  flag := some 0
  cls := 2
  progress := 0
  finished := []
  failed := 0
  code := 0
  items := []
  pc := 0
  wants := []
  bad := []
  plan := none
  held := []
  arrived := []

/-- Team 1 with a command in its copy queue. -/
def copying (c : Cmd) : Team := { team [{ slice 0 with flags := [(0, 1)] }] with cmds := [c] }

/-- A state that holds what `state` holds of translations, with no policy, mark, poison or tracked job. -/
structure Plain (s : State) (x : Team) : Prop where
  team : x.core = 0 ∧ x.asid = 1
  held : s.tlb = [held (page 0x10000 0x200000), held (page 0x20000 0x400000)] ∧ s.epochs = [] ∧ s.atsc = []
  rest : s.policy = [] ∧ s.owners = [] ∧ s.poison = [] ∧ s.jobs = [] ∧ s.extents = []
  fresh : s.rmap = []

/-- A sector of the page at 0x20000 is there for every plain access. -/
theorem reaches {s : State} {x : Team} {n : Need} {sup : Bool} {va len : Nat} (h : Plain s x)
    (h1 : canonicalRange va len = true ∧ 0 < len ∧ va % 128 + len ≤ 128)
    (h2 : State.lookUp (state (team []) []) 0 1 va n sup = .hit (page 0x20000 0x400000))
    (h4 : inRange .fabric ((page 0x20000 0x400000).addr va) = false ∧ beyond ((page 0x20000 0x400000).addr va) = false
      ∧ inRange .tier ((page 0x20000 0x400000).addr va) = false) :
    State.Reaches s x n sup va len (page 0x20000 0x400000) := by
  obtain ⟨⟨c1, c2⟩, ⟨t1, t2, t3⟩, ⟨p1, p2, p3, p4, p5⟩, p6⟩ := h
  refine ⟨h1.1, h1.2, ?_, ?_, ⟨by decide, h4.2.1, h4.1⟩, by simp [State.Fresh, p6], roomy p4 _, ?_, ?_⟩
  · rw [c1, c2, ← h2]
    have e1 : State.tlb (state (team []) []) = [held (page 0x10000 0x200000), held (page 0x20000 0x400000)] := rfl
    have e2 : State.epochs (state (team []) []) = [] := rfl
    have e3 : State.atsc (state (team []) []) = [] := rfl
    simp only [State.lookUp, State.tlbHit, State.atsHit, State.epoch, t1, t2, t3, e1, e2, e3]
  · simp only [State.policyFault, h4.1, p1, p2]; simp [page]
  · have e : ∀ l : List Team, l.filterMap (fun _ => (none : Option Nat)) = [] := fun l => by induction l <;> simp_all
    simp [State.ceiling, p4, minBy, e]
  · simp [State.poisoned, State.revoked, State.extentAt, p3, p5, h4.2.2]

theorem state_plain (x : Team) (ms : List Nat) (h : x.core = 0 ∧ x.asid = 1) : Plain (state x ms) x :=
  ⟨h, ⟨rfl, rfl, rfl⟩, ⟨rfl, rfl, rfl, rfl, rfl⟩, rfl⟩

theorem witness_EngineCompletionResults :
    (∃ (s : State) (n : Nat) (x : Team) (c : Cmd) (sl : Slice) (l : Leaf), s.cmd? x.uid n = some (x, c) ∧ x.slice? c.slice = some sl
      ∧ sl.mode = .user ∧ sl.thread = none ∧ sl.ended = false ∧ sl.block = .none ∧ s.Idle x.uid c.slice ∧ c.fn = 0 ∧ c.plan = none
      ∧ c.progress = 0 ∧ octP c.octet 0 % 4 = 0 ∧ octP c.octet 2 % 4 = 0 ∧ octW c.octet 4 % 4 = 0 ∧ octW c.octet 5 = 0 ∧ octW c.octet 6 = 0
      ∧ octW c.octet 7 = 0 ∧ s.Reaches x .load false (octP c.octet 0) (octW c.octet 4) l
      ∧ s.Reaches x .store false (octP c.octet 2) (octW c.octet 4) l ∧ inRange .fabric l.pa = false)
    ∧ ∃ (s : State) (n : Nat) (x : Team) (c : Cmd) (sl : Slice), s.cmd? x.uid n = some (x, c) ∧ x.slice? c.slice = some sl
      ∧ sl.mode = .user ∧ sl.thread = none ∧ sl.ended = false ∧ sl.block = .none ∧ s.Idle x.uid c.slice ∧ c.fn = 0
      ∧ c.plan = none ∧ c.progress = 0 ∧ octW c.octet 4 = 0 ∧ (s.part x.part).logn.toNat < 6 :=
  ⟨⟨state (copying (copyCmd 128)) [0], 9, copying (copyCmd 128), copyCmd 128, { slice 0 with flags := [(0, 1)] },
      page 0x20000 0x400000, by decide +kernel, by decide +kernel, rfl, rfl, rfl, rfl, state_idle _ _ _ _, rfl, rfl,
      rfl, by decide, by decide, by decide, by decide, by decide, by decide,
      reaches (state_plain _ _ ⟨rfl, rfl⟩) (by decide +kernel) (by decide +kernel) (by decide +kernel),
      reaches (state_plain _ _ ⟨rfl, rfl⟩) (by decide +kernel) (by decide +kernel) (by decide +kernel), by decide +kernel⟩,
    ⟨state (copying (copyCmd 0)) [0], 9, copying (copyCmd 0), copyCmd 0, { slice 0 with flags := [(0, 1)] },
      by decide +kernel, by decide +kernel, rfl, rfl, rfl, rfl, state_idle _ _ _ _, rfl, rfl, rfl, by decide, by decide +kernel⟩⟩

/-- A catch command of two items of one burst each, the items as the list gives them (`fn` 5) or tiles (`fn` 6). -/
def catchCmd (fn : Nat) : Cmd :=
  { copyCmd 0 with
    fn := fn
    octet := if fn = 6 then [0x20000, 0, 0x80, 0, 0x00010002, 0x40, 7, 0] else [0x20000, 0, 0x21000, 0, 0x00010002, 0x40, 7, 0]
    items := if fn = 6 then [] else [(1, 0, 5)] }

/-- Team 1 with that command and one catch slot. -/
def catching (fn : Nat) : Team :=
  { team [{ slice 0 with flags := [(0, 1)] }] with cmds := [catchCmd fn], record := { placeRecord with catchSlots := 1 } }

theorem witness_CatchBurstResults :
    (∃ (s : State) (n burst e idx : Nat) (x : Team) (c : Cmd) (sl : Slice) (l : Leaf), s.cmd? x.uid n = some (x, c)
      ∧ x.slice? c.slice = some sl ∧ s.Idle x.uid c.slice ∧ x.burstDue c burst = true ∧ x.freeSlot = some idx
      ∧ c.fn = 6 ∧ e = burst / bits (octW c.octet 4) 25 16
      ∧ s.Reaches x .load false (c.itemAddr (burst / bits (octW c.octet 4) 25 16) e + 128 * (burst % bits (octW c.octet 4) 25 16)) 128 l)
    ∧ ∃ (s : State) (n burst e idx : Nat) (x : Team) (c : Cmd) (sl : Slice) (l : Leaf), s.cmd? x.uid n = some (x, c)
      ∧ x.slice? c.slice = some sl ∧ s.Idle x.uid c.slice ∧ x.burstDue c burst = true ∧ x.freeSlot = some idx ∧ c.fn = 5
      ∧ c.items.find? (fun y => y.1 == burst / bits (octW c.octet 4) 25 16) = some (burst / bits (octW c.octet 4) 25 16, 0, e)
      ∧ s.Reaches x .load false (c.itemAddr (burst / bits (octW c.octet 4) 25 16) e + 128 * (burst % bits (octW c.octet 4) 25 16)) 128 l :=
  ⟨⟨state (catching 6) [0], 9, 1, 1, 64, catching 6, catchCmd 6, { slice 0 with flags := [(0, 1)] }, page 0x20000 0x400000,
      by decide +kernel, by decide +kernel, state_idle _ _ _ _, by decide +kernel, by decide +kernel, rfl, by decide +kernel,
      reaches (state_plain _ _ ⟨rfl, rfl⟩) (by decide +kernel) (by decide +kernel) (by decide +kernel)⟩,
    ⟨state (catching 5) [0], 9, 1, 5, 64, catching 5, catchCmd 5, { slice 0 with flags := [(0, 1)] }, page 0x20000 0x400000,
      by decide +kernel, by decide +kernel, state_idle _ _ _ _, by decide +kernel, by decide +kernel, rfl, by decide +kernel,
      reaches (state_plain _ _ ⟨rfl, rfl⟩) (by decide +kernel) (by decide +kernel) (by decide +kernel)⟩⟩

/-- A state whose core 0 has the matrix engine `g`. -/
def engined (sl : Slice) (g : Engine) : State := (one sl).setCore 0 (fun c => { c with engine := g })

/-- A matrix command of slice 0. -/
def mcmd (id fn : Nat) (o : List Word) (started : Bool) : MCmd where
  id := id
  fn := fn
  octet := o
  slices := [(0, .s 16, some 0, 0)]
  started := started
  desc := none
  step := 0
  count := 0
  progress := 0
  held := none
  lanes := none
  pc := 0
  wants := none
  bad := []

/-- An engine that team 1 holds, with seven commands queued, three of them loops. -/
def fullEngine : Engine :=
  { Engine.wiped with
    holder := some 1
    queue := [mcmd 10 0 [] false, mcmd 11 1 [] false, mcmd 12 0 [] false, mcmd 13 4 [] false, mcmd 14 4 [] false, mcmd 15 4 [] false,
              mcmd 16 4 [] false] }

/-- An engine that runs `mzero` of all sixteen blocks, or is about to. -/
def zeroing (started : Bool) : Engine := { Engine.wiped with holder := some 1, accs := [(5, 9)], queue := [mcmd 10 4 [0xFFFF] started] }

theorem witness_MatrixCommandResults :
    (∃ e ∈ mtxWords, ∃ (s : State) (p : At) (x : Team) (sl0 : Slice) (d a : Opd), s.Executes (e.1 d a) p ∧ s.team? p.team = some x
      ∧ x.slice? (p.members.headD 0) = some sl0
      ∧ ((s.core x.core).engine.holder = none ∨ (s.core x.core).engine.holder = some p.team) ∧ (s.core x.core).engine.queue.length = 7
      ∧ ((s.core x.core).engine.queue.filter (fun c => decide (c.fn < 2))).length + 1 = 4 ∧ e.2.1 < 2)
    ∧ (∃ (s : State) (p : At) (x : Team) (k : Nat) (sl : Slice) (d a : Opd), s.Alone (.mload d a) p x k sl
      ∧ (s.core x.core).engine.holder = none ∧ (s.core x.core).engine.queue.length ≤ 7
      ∧ ((s.core x.core).engine.queue.filter (fun c => decide (c.fn < 2))).length ≤ 4)
    ∧ (∃ (s : State) (p : At) (x : Team) (k : Nat) (sl : Slice) (d a : Opd), s.Alone (.mstat d a) p x k sl ∧ sl.readS a = 0)
    ∧ ∃ (s : State) (p : At) (x : Team) (k : Nat) (sl : Slice) (d a : Opd), s.Alone (.mstat d a) p x k sl ∧ (sl.readS a).toNat = 4 :=
  ⟨⟨_, List.mem_of_getElem? (i := 0) rfl, engined (slice 0) fullEngine, place0, team [slice 0], slice 0, .s 16, .s 8,
      executes_of (by decide +kernel), by decide +kernel, by decide +kernel, by decide +kernel, by decide +kernel, by decide +kernel,
      by decide⟩,
    ⟨one (slice 0), place0, team [slice 0], 0, slice 0, .s 16, .s 8, alone_of (by decide +kernel) (by decide +kernel), by decide +kernel,
      by decide +kernel, by decide +kernel⟩,
    ⟨engined (slice 0) fullEngine, place0, team [slice 0], 0, slice 0, .s 16, .zero, alone_of (by decide +kernel) (by decide +kernel), rfl⟩,
    ⟨one { slice 0 with sregs := [(1, 4)] }, place0, team [{ slice 0 with sregs := [(1, 4)] }], 0, { slice 0 with sregs := [(1, 4)] }, .s 16,
      .s 1, alone_of (by decide +kernel) (by decide +kernel), by decide +kernel⟩⟩

/-- Team 1's engine with `c` running, group 0 of one block in slot 3 and skip slot 2 bound to the region at 64 under phase 9, its
row-tile 5 skipped. -/
def running (c : MCmd) : State :=
  engined (slice 0) { Engine.wiped with
    holder := some 1
    groups := [(3, { mbase := 4, k := 1, n := 1, bf16 := false, octet := [], cells := List.replicate 64 [] })]
    skips := [(2, { region := 64, phase := 9, bits := 1 <<< 5 })]
    queue := [c] }

theorem running_sequences (c : MCmd) (h : c.started = true ∧ c.slices = [(0, .s 16, some 0, 0)]) :
    (running c).Sequences (team [slice 0]) c 0 (.s 16) (some 0) (slice 0) :=
  ⟨rfl, rfl, h.1, ⟨0, h.2⟩, rfl, rfl, rfl, rfl, rfl⟩

/-- A region of 4096 row-tiles, signatures from 0x20000 and output from 0x28000, pitch 256, phase 9, FORCE as `f` (R277). -/
def region (f : Nat) : Nat :=
  if f = 0 then 0x100000000090000100000000000000000000000000000000000000000000000000000000000000280000000000000020000
  else 0x100800000090000100000000000000000000000000000000000000000000000000000000000000280000000000000020000

/-- `mload` of one macro at 4 into slot 3, of the first block at 0x20000 alone, as the table at 0x21000
says. -/
def loader : MCmd := mcmd 10 8 [0x20000, 0, 0x21000, 0, 0, 0x00010143, 0, 256] true

/-- A loop of two steps from row-tile 5 on slot 3 into block 15, at its last step. -/
def looper (fn t0 : Nat) (d : Option Nat) : MCmd :=
  { mcmd 10 fn [0x20000, 0, 0x100, 0, BitVec.ofNat 32 (t0 * 2 ^ 16 + 2), 0xF03, if fn = 0 then 0 else 64, 0] true with
    step := 1, count := 1, desc := d }

/-- `mdrain` of block 15 with CLEAR to 0x28000, a row each 256 bytes. -/
def drainer : MCmd := mcmd 10 2 [0x28000, 0, 256, 0x1001F, 0, 0, 0, 0] true

/-- `mdrains` of `n` row-tiles from `t0` with block 15. -/
def tileDrainer (t0 n : Nat) : MCmd :=
  { mcmd 10 3 [64, 0, BitVec.ofNat 32 (t0 * 2 ^ 16 + n), 0x1010F, 0, 0, 0, 0] true with desc := some (region 0) }

/-- `mskip` of the region at 0x20040, operation `op`. -/
def skipper (op : Nat) : MCmd := mcmd 10 6 [0x20040, 0, 4064, BitVec.ofNat 32 op, 0x80000001, 0, 0, 0] true

/-- An engine bound to the region at 0x20040, which memory describes. -/
def skipping (op : Nat) : State :=
  { (running (skipper op)).setEngine 0 (fun e => { e with skips := [(7, { region := 0x20040, phase := 9, bits := 1 }) ] }) with
    mem := (one (slice 0)).mem.setNat 0x400040 64 (region 0) }

theorem pair_of {α β : Type} {r : α × β} {b : β} (h : r.2 = b) : r = (r.1, b) := by cases r; cases h; rfl

/-- Whether a read of an engine answers. -/
def read {α : Type} (r : State × Eng α) : Bool := match r.2 with | .ok _ => true | .wait | .bad _ _ => false

theorem read_of {α : Type} {r : State × Eng α} (h : read r = true) : ∃ s v, r = (s, .ok v) := by
  obtain ⟨s, v⟩ := r
  cases v with
  | ok v => exact ⟨s, v, rfl⟩
  | wait => cases h
  | bad _ _ => cases h

theorem running_plain (c : MCmd) : Plain (running c) (team [slice 0]) := ⟨⟨rfl, rfl⟩, ⟨rfl, rfl, rfl⟩, ⟨rfl, rfl, rfl, rfl, rfl⟩, rfl⟩

/-- The rows of a row-tile in the page at 0x20000. -/
theorem drain_rows {s : State} (h : Plain s (team [slice 0])) (dest : Nat) (h1 : dest = 0x28000 ∨ dest = 0x29000) (r : Nat) (hr : r < 16) :
    canonicalRange (dest + r * 256) 256 = true
      ∧ ∀ q ∈ pieces 128 (dest + r * 256) 256, s.Reaches (team [slice 0]) .store false q.1 q.2 (page 0x20000 0x400000) := by
  have hp : ∀ dest ∈ [0x28000, 0x29000], ∀ r, r < 16 → canonicalRange (dest + r * 256) 256 = true
      ∧ ∀ q ∈ pieces 128 (dest + r * 256) 256, (canonicalRange q.1 q.2 = true ∧ 0 < q.2 ∧ q.1 % 128 + q.2 ≤ 128)
      ∧ State.lookUp (state (team []) []) 0 1 q.1 .store false = .hit (page 0x20000 0x400000)
      ∧ inRange .fabric ((page 0x20000 0x400000).addr q.1) = false ∧ beyond ((page 0x20000 0x400000).addr q.1) = false
      ∧ inRange .tier ((page 0x20000 0x400000).addr q.1) = false := by
    decide +kernel
  obtain ⟨c1, c2⟩ := hp dest (by simpa using h1) r hr
  refine ⟨c1, fun q hq => ?_⟩
  obtain ⟨a1, a2, a3⟩ := c2 q hq
  exact reaches h a1 a2 a3

/-- Whether the cells of an `mload` with those sources are all there. -/
def fills (s : State) (x : Team) (c : MCmd) (srcs : List Nat) : Bool :=
  match s.engCheckAll x c.bad (loadRanges c.octet srcs) with
  | (s2, .ok _) => match (s2.fillCells x c.owner c.bad c.octet srcs).2 with | .ok _ => true | .wait | .late _ _ _ => false
  | (_, _) => false

theorem fills_of {s : State} {x : Team} {c : MCmd} {srcs : List Nat} (h : fills s x c srcs = true) :
    ∃ s2 s3 ls cells, s.engCheckAll x c.bad (loadRanges c.octet srcs) = (s2, .ok ls)
      ∧ s2.fillCells x c.owner c.bad c.octet srcs = (s3, .ok cells) := by
  unfold fills at h
  split at h
  · next s2 ls h2 =>
      split at h
      · next cells h3 => exact ⟨s2, _, ls, cells, h2, pair_of h3⟩
      · cases h
      · cases h
  · cases h

theorem loader_sources : ((running loader).loadSources (team [slice 0]) loader.owner loader.bad loader.octet).2
    = .ok (List.replicate 256 0) := by decide +kernel

theorem loader_fills : fills ((running loader).loadSources (team [slice 0]) loader.owner loader.bad loader.octet).1 (team [slice 0]) loader
    (List.replicate 256 0) = true := by decide +kernel

theorem loader_loads : ∃ s1 srcs, (running loader).loadSources (team [slice 0]) loader.owner loader.bad loader.octet = (s1, .ok srcs)
    ∧ ∃ s2 s3 ls cells, s1.engCheckAll (team [slice 0]) loader.bad (loadRanges loader.octet srcs) = (s2, .ok ls)
      ∧ s2.fillCells (team [slice 0]) loader.owner loader.bad loader.octet srcs = (s3, .ok cells) :=
  ⟨_, _, pair_of loader_sources, fills_of loader_fills⟩

/-- What the descriptor of `region 0` says. -/
def region0 : Region :=
  { sig := 0x20000, out := 0x28000, skip := 0, thv := 0, tha := 0, tiles := 4096, phase := 9, force := false, pitch := 256 }

theorem skip_holds : ∀ op, op < 3 → (skipping op).mHead (team [slice 0]).core = some (team [slice 0], skipper op)
    ∧ (skipping op).team? (team [slice 0]).uid = some (team [slice 0]) ∧ octW (skipper op).octet 3 = op ∧ octW (skipper op).octet 2 % 32 = 0
    ∧ octW (skipper op).octet 2 + 32 = 4096 ∧ octP (skipper op).octet 0 % 64 = 0 ∧ octW (skipper op).octet 5 = 0
    ∧ octW (skipper op).octet 6 = 0 ∧ octW (skipper op).octet 7 = 0
    ∧ ((skipping op).core (team [slice 0]).core).engine.bound (octP (skipper op).octet 0) = some (7, { region := 0x20040, phase := 9, bits := 1 })
    ∧ ∀ y ∈ ((skipping op).core (team [slice 0]).core).engine.skips, y.2.region = octP (skipper op).octet 0 →
      y = (7, { region := 0x20040, phase := 9, bits := 1 }) := by decide +kernel

theorem skip_reads : ∀ op, op < 3 → ((skipping op).readRegion (team [slice 0]) (skipper op) (octP (skipper op).octet 0)).2 = .ok (region 0, region0) := by
  decide +kernel

/-- The signature of rows of zeros. -/
theorem signature_zero {rows : List (List Cell)} (h : rows.all (fun r => r.all (fun c => c == (0, 0))) = true) :
    signature false rows = (0, 0) := by
  have step : ∀ r : List Cell, r.all (fun c => c == (0, 0)) = true → r.foldl (fun (acc : Nat × Nat) c =>
      let v := cellValue false c
      ((f64.add .rne (f64.decode acc.1) v).1, (f64.add .rne (f64.decode acc.2) v.abs).1)) (0, 0) = (0, 0) := by
    intro r hr
    induction r with
    | nil => rfl
    | cons c r ih =>
      simp only [List.all_cons, Bool.and_eq_true, beq_iff_eq] at hr
      obtain ⟨rfl, hr⟩ := hr
      rw [List.foldl_cons]
      exact ih hr
  unfold signature
  induction rows with
  | nil => rfl
  | cons r rows ih =>
    simp only [List.all_cons, Bool.and_eq_true] at h
    rw [List.foldl_cons, step r h.1]
    exact ih h.2

/-- Whether a step of `mloops` finds rows of zeros and a signature entry of zeros that it may write, with both thresholds zero. -/
def decides (s : State) (x : Team) (c : MCmd) (g : Group) (rg : Region) : Bool :=
  match s.stepRows x c (loopOf c.octet) c.step g with
  | (s1, .ok rows) =>
    match s1.engRead x c.owner c.bad (rg.sig + 16 * ((loopOf c.octet).t0 + c.step)) 16 with
    | (s2, .ok v) =>
      let p := s2.engCheck x c.bad .store (rg.sig + 16 * ((loopOf c.octet).t0 + c.step)) 16
      match p.2 with
      | .ok [q] => rows.all (fun r => r.all (fun c => c == (0, 0))) && decide (v = 0 ∧ rg.thv = 0 ∧ rg.tha = 0 ∧ g.bf16 = false
          ∧ q.size = 16 ∧ beyond q.pa = false ∧ p.1.revoked q.pa = false ∧ p.1.engPast x c.owner [q] true = false)
      | .ok _ | .wait | .bad _ _ => false
    | (_, _) => false
  | (_, _) => false

theorem decides_of {s : State} {x : Team} {c : MCmd} {g : Group} {rg : Region} (h : decides s x c g rg = true) :
    ∃ s1 s2 s3 rows v p, s.stepRows x c (loopOf c.octet) c.step g = (s1, .ok rows)
      ∧ s1.engRead x c.owner c.bad (rg.sig + 16 * ((loopOf c.octet).t0 + c.step)) 16 = (s2, .ok v)
      ∧ skips rg.force (signature g.bf16 rows).1 (signature g.bf16 rows).2 (v % 2 ^ 64) (v / 2 ^ 64) rg.thv rg.tha = !rg.force
      ∧ s2.Writes16 x c (rg.sig + 16 * ((loopOf c.octet).t0 + c.step)) p s3 := by
  unfold decides at h
  split at h
  · next s1 rows h1 =>
      split at h
      · next s2 v h2 =>
          dsimp only at h
          split at h
          · next q h3 =>
              simp only [Bool.and_eq_true, decide_eq_true_eq] at h
              obtain ⟨h4, rfl, h5, h6, h7, h8, h9, h10, h11⟩ := h
              refine ⟨s1, s2, _, rows, 0, q, h1, h2, ?_, pair_of h3, ⟨h8, h9, h10⟩, h11⟩
              rw [h5, h6, h7, signature_zero h4]
              cases rg.force <;> decide +kernel
          · cases h
          · cases h
          · cases h
      · cases h
  · cases h

/-- Whether a step of `msig` finds its rows and may write its signature. -/
def signs (s : State) (x : Team) (c : MCmd) (g : Group) (rg : Region) : Bool :=
  match s.stepRows x c (loopOf c.octet) c.step g with
  | (s1, .ok _) =>
    let p := s1.engCheck x c.bad .store (rg.sig + 16 * ((loopOf c.octet).t0 + c.step)) 16
    match p.2 with
    | .ok [q] => decide (q.size = 16 ∧ beyond q.pa = false ∧ p.1.revoked q.pa = false ∧ p.1.engPast x c.owner [q] true = false)
    | .ok _ | .wait | .bad _ _ => false
  | (_, _) => false

theorem signs_of {s : State} {x : Team} {c : MCmd} {g : Group} {rg : Region} (h : signs s x c g rg = true) :
    ∃ s1 s2 rows p, s.stepRows x c (loopOf c.octet) c.step g = (s1, .ok rows)
      ∧ s1.Writes16 x c (rg.sig + 16 * ((loopOf c.octet).t0 + c.step)) p s2 := by
  unfold signs at h
  split at h
  · next s1 rows h1 =>
      dsimp only at h
      split at h
      · next q h3 =>
          have h4 := of_decide_eq_true h
          exact ⟨s1, _, rows, q, h1, pair_of h3, ⟨h4.1, h4.2.1, h4.2.2.1⟩, h4.2.2.2⟩
      · cases h
      · cases h
      · cases h
  · cases h

theorem witness_MatrixSequencerResults :
    (∃ (s : State) (core : Nat) (x : Team) (c : MCmd), s.mHead core = some (x, c) ∧ c.started = false
      ∧ (∀ y ∈ c.slices, s.Idle x.uid y.1) ∧ (s.pend.map (fun o => o.id)).Nodup)
    ∧ (∃ (s : State) (x : Team) (c : MCmd) (k : Nat) (d : Opd) (f : Option Nat) (wb : Nat) (m : Word) (sl : Slice),
      s.mHead x.core = some (x, c) ∧ s.team? x.uid = some x ∧ c.started = true ∧ c.fn = 4 ∧ c.octet = [m] ∧ m.toNat < 2 ^ 16
      ∧ c.slices = [(k, d, f, wb)] ∧ x.slice? k = some sl ∧ sl.mode = .user ∧ sl.thread = none ∧ sl.ended = false ∧ sl.block = .none)
    ∧ (∃ (s : State) (x : Team) (c : MCmd) (k : Nat) (d : Opd) (f : Option Nat) (sl : Slice), s.Sequences x c k d f sl
      ∧ c.fn = 8 ∧ loadOk c.octet = false)
    ∧ (∃ (s : State) (x : Team) (c : MCmd) (k : Nat) (d : Opd) (f : Option Nat) (sl : Slice), s.Sequences x c k d f sl
      ∧ c.fn = 6 ∧ octW c.octet 3 % 4 ≠ 0 ∧ 4096 ≤ octW c.octet 2)
    ∧ (∃ (s : State) (x : Team) (c : MCmd) (k : Nat) (d : Opd) (f : Option Nat) (sl : Slice), s.Sequences x c k d f sl ∧ c.fn = 8
      ∧ ∃ s1 srcs, s.loadSources x c.owner c.bad c.octet = (s1, .ok srcs) ∧ ∃ s2 s3 ls cells,
        s1.engCheckAll x c.bad (loadRanges c.octet srcs) = (s2, .ok ls)
        ∧ s2.fillCells x c.owner c.bad c.octet srcs = (s3, .ok cells))
    ∧ ∃ (s : State) (x : Team) (c : MCmd) (k : Nat) (d : Opd) (f : Option Nat) (sl : Slice) (g : Group), s.Sequences x c k d f sl
      ∧ c.fn = 0 ∧ loopBad 0 c.octet = false ∧ c.step + 1 = (loopOf c.octet).steps
      ∧ (s.core x.core).engine.slot ((loopOf c.octet).grp + (if (loopOf c.octet).ginc then c.step else 0)) = some g
      ∧ g.cells.length = (if g.bf16 then 32 else 64) * g.n ∧ (loopOf c.octet).acc + c.step * (loopOf c.octet).accinc + g.n = 16
      ∧ ∃ s1 rows, s.stepRows x c (loopOf c.octet) c.step g = (s1, .ok rows) :=
  ⟨⟨engined (slice 0) (zeroing false), 0, team [slice 0], mcmd 10 4 [0xFFFF] false, by decide +kernel, rfl,
      by intro y _ op h; exact absurd (show op ∈ [] from h) (by simp), by decide +kernel⟩,
    ⟨engined (slice 0) (zeroing true), team [slice 0], mcmd 10 4 [0xFFFF] true, 0, .s 16, some 0, 0, 0xFFFF, slice 0, by decide +kernel,
      by decide +kernel, rfl, rfl, rfl, by decide, rfl, by decide +kernel, rfl, rfl, rfl, rfl⟩,
    ⟨running (mcmd 10 8 [0x20000, 0, 0, 0, 0, 0x01110143] true), _, _, _, _, _, _, running_sequences _ ⟨rfl, rfl⟩, rfl, by decide⟩,
    ⟨running (mcmd 10 6 [0x20040, 0, 4096, 1] true), _, _, _, _, _, _, running_sequences _ ⟨rfl, rfl⟩, rfl, by decide, by decide⟩,
    ⟨running loader, _, _, _, _, _, _, running_sequences _ ⟨rfl, rfl⟩, rfl, loader_loads⟩,
    ⟨running (looper 0 0 none), _, _, _, _, _, _, _, running_sequences _ ⟨rfl, rfl⟩, rfl, by decide, by decide, rfl, rfl, by decide,
      read_of (by decide +kernel)⟩⟩

/-- The steps of `mloops` and `msig`. -/
theorem witness_MatrixSequencerResults_loops :
    (∀ sk : Bool, ∃ (s : State) (x : Team) (c : MCmd) (k : Nat) (d : Opd) (f : Option Nat) (sl : Slice) (g : Group) (rg : Region)
        (n : Nat) (b : Skip), s.Sequences x c k d f sl
      ∧ c.fn = 1 ∧ c.desc.bind regionOf = some rg ∧ rg.skip = 0 ∧ c.step < (loopOf c.octet).steps ∧ (loopOf c.octet).t0 + c.step = 4095
      ∧ (s.core x.core).engine.slot ((loopOf c.octet).grp + (if (loopOf c.octet).ginc then c.step else 0)) = some g
      ∧ g.cells.length = (if g.bf16 then 32 else 64) * g.n ∧ (loopOf c.octet).acc + c.step * (loopOf c.octet).accinc + g.n ≤ 16
      ∧ (s.core x.core).engine.bound (loopOf c.octet).region = some (n, b)
      ∧ (∀ y ∈ (s.core x.core).engine.skips, y.2.region = (loopOf c.octet).region → y = (n, b))
      ∧ ∃ s1 s2 s3 rows v p, s.stepRows x c (loopOf c.octet) c.step g = (s1, .ok rows)
        ∧ s1.engRead x c.owner c.bad (rg.sig + 16 * ((loopOf c.octet).t0 + c.step)) 16 = (s2, .ok v)
        ∧ skips rg.force (signature g.bf16 rows).1 (signature g.bf16 rows).2 (v % 2 ^ 64) (v / 2 ^ 64) rg.thv rg.tha = sk
        ∧ s2.Writes16 x c (rg.sig + 16 * ((loopOf c.octet).t0 + c.step)) p s3)
    ∧ ∃ (s : State) (x : Team) (c : MCmd) (k : Nat) (d : Opd) (f : Option Nat) (sl : Slice) (g : Group) (rg : Region),
      s.Sequences x c k d f sl ∧ c.fn = 5 ∧ c.desc.bind regionOf = some rg ∧ c.step < (loopOf c.octet).steps
      ∧ (s.core x.core).engine.slot ((loopOf c.octet).grp + (if (loopOf c.octet).ginc then c.step else 0)) = some g
      ∧ ∃ s1 s2 rows p, s.stepRows x c (loopOf c.octet) c.step g = (s1, .ok rows)
        ∧ s1.Writes16 x c (rg.sig + 16 * ((loopOf c.octet).t0 + c.step)) p s2 := by
  refine ⟨?_,
    ⟨running (looper 5 4094 (some (region 0))), _, _, _, _, _, _, _, (regionOf (region 0)).get (by decide +kernel),
      running_sequences _ ⟨rfl, rfl⟩, rfl, (Option.some_get (by decide +kernel)).symm, by decide, rfl,
      signs_of (by decide +kernel)⟩⟩
  · intro sk
    cases sk
    · exact ⟨running (looper 1 4094 (some (region 1))), _, _, _, _, _, _, _, (regionOf (region 1)).get (by decide +kernel), _, _,
        running_sequences _ ⟨rfl, rfl⟩, rfl, (Option.some_get (by decide +kernel)).symm, by decide +kernel, by decide, by decide, rfl, rfl,
        by decide, rfl, by decide +kernel, decides_of (by decide +kernel)⟩
    · exact ⟨running (looper 1 4094 (some (region 0))), _, _, _, _, _, _, _, (regionOf (region 0)).get (by decide +kernel), _, _,
        running_sequences _ ⟨rfl, rfl⟩, rfl, (Option.some_get (by decide +kernel)).symm, by decide +kernel, by decide, by decide, rfl, rfl,
        by decide, rfl, by decide +kernel, decides_of (by decide +kernel)⟩

/-- The drains. -/
theorem witness_MatrixSequencerResults_drains :
    (∃ (s : State) (x : Team) (c : MCmd) (k : Nat) (d : Opd) (f : Option Nat) (sl : Slice) (wb : Nat), s.Sequences x c k d f sl
      ∧ c.fn = 2 ∧ drainBad c.octet = false ∧ bit (octW c.octet 3) 12 = true ∧ c.lanes = none ∧ x.drainOut c = false
      ∧ c.slices = [(k, d, f, wb)] ∧ ∀ r, sl.marks.since r = false)
    ∧ (∃ (s : State) (x : Team) (c : MCmd) (k : Nat) (d : Opd) (f : Option Nat) (sl : Slice) (leaf : Leaf), s.Sequences x c k d f sl
      ∧ c.held = none ∧ c.count = 0 ∧ c.progress = 0 ∧ (∀ j ∈ s.jobs, j.stream = none) ∧ c.fn = 2 ∧ drainBad c.octet = false
      ∧ bit (octW c.octet 3) 12 = false ∧ bits (octW c.octet 3) 3 0 + bits (octW c.octet 3) 8 4 = 16
      ∧ bits (octW c.octet 3) 8 4 * rowBytes (bits (octW c.octet 3) 15 13) = octW c.octet 2
      ∧ ∀ r, r < 16 → canonicalRange (octP c.octet 0 + r * octW c.octet 2) (octW c.octet 2) = true
        ∧ ∀ q ∈ pieces 128 (octP c.octet 0 + r * octW c.octet 2) (octW c.octet 2), s.Reaches x .store false q.1 q.2 leaf)
    ∧ (∃ (s : State) (x : Team) (c : MCmd) (k : Nat) (d : Opd) (f : Option Nat) (sl : Slice) (leaf : Leaf) (rg : Region) (n : Nat) (b : Skip),
      s.Sequences x c k d f sl ∧ c.held = none ∧ c.count = 0 ∧ c.progress = 0 ∧ (∀ j ∈ s.jobs, j.stream = none) ∧ c.fn = 3
      ∧ drainsBad c.octet = false ∧ octW c.octet 2 % 2 ^ 16 = 1 ∧ bits (octW c.octet 3) 3 0 + bits (octW c.octet 3) 12 8 ≤ 16
      ∧ c.desc.bind regionOf = some rg ∧ (s.core x.core).engine.bound (octP c.octet 0) = some (n, b) ∧ b.phase.toNat = rg.phase
      ∧ octW c.octet 2 / 2 ^ 16 + 1 ≤ rg.tiles ∧ b.bits.getLsbD (octW c.octet 2 / 2 ^ 16) = false
      ∧ bits (octW c.octet 3) 12 8 * rowBytes (bits (octW c.octet 3) 15 13) = rg.pitch
      ∧ ∀ r, r < 16 → canonicalRange (rg.out + 16 * (octW c.octet 2 / 2 ^ 16) * rg.pitch + r * rg.pitch) rg.pitch = true
        ∧ ∀ q ∈ pieces 128 (rg.out + 16 * (octW c.octet 2 / 2 ^ 16) * rg.pitch + r * rg.pitch) rg.pitch,
          s.Reaches x .store false q.1 q.2 leaf)
    ∧ ∃ (s : State) (x : Team) (c : MCmd) (k : Nat) (d : Opd) (f : Option Nat) (sl : Slice) (rg : Region) (n : Nat) (b : Skip),
      s.Sequences x c k d f sl ∧ c.fn = 3 ∧ drainsBad c.octet = false ∧ c.desc.bind regionOf = some rg
      ∧ (s.core x.core).engine.bound (octP c.octet 0) = some (n, b) ∧ b.phase.toNat = rg.phase
      ∧ octW c.octet 2 / 2 ^ 16 + octW c.octet 2 % 2 ^ 16 ≤ rg.tiles
      ∧ bits (octW c.octet 3) 3 0 + (octW c.octet 2 % 2 ^ 16 - 1) * bits (octW c.octet 3) 7 4 + bits (octW c.octet 3) 12 8 ≤ 16
      ∧ ∀ i, i < octW c.octet 2 % 2 ^ 16 → b.bits.getLsbD (octW c.octet 2 / 2 ^ 16 + i) = true := by
  refine ⟨⟨running (mcmd 10 2 [0, 0, 0, 0x1101F, 60 * 2 ^ 16, 0, 0, 0] true), _, _, _, _, _, _, 0, running_sequences _ ⟨rfl, rfl⟩, rfl, by decide,
      by decide, rfl, by decide +kernel, rfl, fun _ => rfl⟩,
    ⟨running drainer, _, _, _, _, _, _, page 0x20000 0x400000, running_sequences _ ⟨rfl, rfl⟩, rfl, rfl, rfl,
      fun j h => absurd (show j ∈ ([] : List Job) from h) (by simp),
      rfl, by decide, by decide, by decide, by decide, ?_⟩,
    ⟨running (tileDrainer 1 1), _, _, _, _, _, _, page 0x20000 0x400000, (regionOf (region 0)).get (by decide +kernel), _, _,
      running_sequences _ ⟨rfl, rfl⟩, rfl, rfl, rfl, fun j h => absurd (show j ∈ ([] : List Job) from h) (by simp), rfl, by decide, by decide, by decide,
      (Option.some_get (by decide +kernel)).symm, rfl, by decide +kernel, by decide +kernel, by decide +kernel, by decide +kernel, ?_⟩,
    ⟨running (tileDrainer 5 1), _, _, _, _, _, _, (regionOf (region 0)).get (by decide +kernel), _, _,
      running_sequences _ ⟨rfl, rfl⟩, rfl, by decide, (Option.some_get (by decide +kernel)).symm, rfl, by decide +kernel, by decide +kernel,
      by decide, ?_⟩⟩
  · exact fun r hr => drain_rows (running_plain _) 0x28000 (.inl rfl) r hr
  · exact fun r hr => drain_rows (running_plain _) 0x29000 (.inr rfl) r hr
  · intro i h
    have hi : i < 1 := h
    obtain rfl : i = 0 := by omega
    decide +kernel

/-- The operations of `mskip`. -/
theorem witness_MatrixSequencerResults_skips :
    ∀ op : Nat, op < 3 → ∃ (s : State) (x : Team) (c : MCmd) (k : Nat) (d : Opd) (f : Option Nat) (sl : Slice) (rg : Region) (n : Nat)
        (b : Skip), s.Sequences x c k d f sl ∧ c.fn = 6 ∧ octW c.octet 3 = op ∧ octW c.octet 2 % 32 = 0 ∧ octW c.octet 2 + 32 = 4096
      ∧ octP c.octet 0 % 64 = 0 ∧ octW c.octet 5 = 0 ∧ octW c.octet 6 = 0 ∧ octW c.octet 7 = 0
      ∧ (∃ s1 at_, s.readRegion x c (octP c.octet 0) = (s1, .ok (at_, rg)))
      ∧ (s.core x.core).engine.bound (octP c.octet 0) = some (n, b) ∧ b.phase.toNat = rg.phase
      ∧ ∀ y ∈ (s.core x.core).engine.skips, y.2.region = octP c.octet 0 → y = (n, b) := by
  intro op h
  obtain ⟨h1, h2, h3, h4, h5, h6, h7, h8, h9, h10, h11⟩ := skip_holds op h
  exact ⟨skipping op, team [slice 0], skipper op, 0, .s 16, some 0, slice 0, region0, 7, { region := 0x20040, phase := 9, bits := 1 },
    ⟨h1, h2, rfl, ⟨0, rfl⟩, by decide, rfl, rfl, rfl, rfl⟩, rfl, h3, h4, h5, h6, h7, h8, h9,
    ⟨_, region 0, pair_of (skip_reads op h)⟩, h10, rfl, h11⟩

/-! ### Tasks -/

theorem witness_TakeResults :
    (∃ (s : State) (p : At) (x : Team) (k : Nat) (sl : Slice) (d : Opd) (L : Launch), s.Alone (.take d) p x k sl ∧ s.Idle p.team k
      ∧ (∀ a ∈ x.gather ++ x.asked, a.slice ≠ k) ∧ s.launch? x.launch = some L ∧ x.asked = []
      ∧ ∀ z ∈ x.slices, z.ended = false → z.thread = none → z.idx = k)
    ∧ (∃ (s : State) (p : At) (x : Team) (k : Nat) (sl : Slice) (d : Opd) (L : Launch), s.Alone (.take d) p x k sl ∧ s.Idle p.team k
      ∧ (∀ a ∈ x.gather ++ x.asked, a.slice ≠ k) ∧ s.launch? x.launch = some L
      ∧ ∃ z ∈ x.slices, z.ended = false ∧ z.thread = none ∧ z.idx ≠ k)
    ∧ ∃ (s : State) (u : Nat) (x : Team) (L : Launch) (a : Arrival) (sl : Slice), s.takeDue u = true ∧ s.team? u = some x
      ∧ s.launch? x.launch = some L ∧ x.answer = none ∧ u ∉ L.releasing ∧ L.st ≠ .cancelled ∧ L.exhausted = false ∧ L.moving = false
      ∧ L.readyCont = none
      ∧ x.lo < x.hi ∧ L.waiters = [] ∧ s.pastQuiet x = false ∧ x.asked = [a] ∧ x.slice? a.slice = some sl ∧ sl.mode = .user
      ∧ a.octet + 8 ≤ 24 ∧ x.hi < x.lo + L.record.grain * 2 := by
  refine ⟨⟨one (slice 0), place0, team [slice 0], 0, slice 0, .s 16, placeLaunch 2, alone_of (by decide +kernel) (by decide +kernel),
      state_idle _ _ _ _, by simp [team, placeTeam], by decide +kernel, rfl, by decide +kernel⟩,
    ⟨state parted [0], place0, parted, 0, slice 0, .s 16, placeLaunch 2, alone_of (by decide +kernel) (by decide +kernel),
      state_idle _ _ _ _, by simp [parted, crew, team, placeTeam], by decide +kernel, slice 1, by decide +kernel, by decide +kernel⟩,
    ⟨state { team [slice 0] with asked := [{ slice := 0, octet := 16, flag := some 0 }], lo := 7, hi := 8 } [0], 1,
      { team [slice 0] with asked := [{ slice := 0, octet := 16, flag := some 0 }], lo := 7, hi := 8 }, placeLaunch 2,
      { slice := 0, octet := 16, flag := some 0 }, slice 0, by decide +kernel, by decide +kernel, by decide +kernel, rfl,
      by decide +kernel, by decide +kernel, rfl, rfl, by decide +kernel, by decide, rfl, by decide +kernel, rfl, by decide +kernel, rfl,
      by decide, by decide⟩⟩

theorem witness_ContinuationResults :
    (∃ (s : State) (p : At) (x : Team) (k : Nat) (sl : Slice) (L : Launch), s.Alone (.spawn (.s 0) (.s 20)) p x k sl ∧ s.Idle p.team k
      ∧ s.launch? x.launch = some L ∧ L.moving = false ∧ L.waiters = [] ∧ L.st ≠ .cancelled
      ∧ L.spawnFails (sl.readS ((Opd.s 20).plus 2)).toNat = false)
    ∧ (∃ (s : State) (p : At) (x : Team) (k : Nat) (sl : Slice) (L : Launch), s.Alone (.spawn .zero (.s 20)) p x k sl ∧ s.Idle p.team k
      ∧ s.launch? x.launch = some L ∧ L.moving = false ∧ L.waiters = [] ∧ L.st ≠ .cancelled
      ∧ L.spawnFails (sl.readS ((Opd.s 20).plus 2)).toNat = true)
    ∧ ∃ (s : State) (p : At) (x : Team) (k : Nat) (sl : Slice) (L : Launch), s.Alone (.joinc (.s 1)) p x k sl ∧ s.Idle p.team k
      ∧ s.launch? x.launch = some L ∧ L.moving = false ∧ L.waiters = [] ∧ L.conts.any (fun c => c.handle == (sl.readS (.s 1)).toNat && c.count == 1) = true :=
  ⟨⟨one { slice 0 with sregs := [(22, 0x3FFFFFC)] }, place0, team [{ slice 0 with sregs := [(22, 0x3FFFFFC)] }], 0,
      { slice 0 with sregs := [(22, 0x3FFFFFC)] }, placeLaunch 2, alone_of (by decide +kernel) (by decide +kernel), state_idle _ _ _ _,
      by decide +kernel, rfl, rfl, by decide, by decide +kernel⟩,
    ⟨one { slice 0 with sregs := [(22, 0x4000000)] }, place0, team [{ slice 0 with sregs := [(22, 0x4000000)] }], 0,
      { slice 0 with sregs := [(22, 0x4000000)] }, placeLaunch 2, alone_of (by decide +kernel) (by decide +kernel), state_idle _ _ _ _,
      by decide +kernel, rfl, rfl, by decide, by decide +kernel⟩,
    ⟨{ one { slice 0 with sregs := [(1, 6)] } with launches := [{ placeLaunch 2 with handles := [6], conts := [
          { frame := 0, codeoff := 0, count := 1, handle := 6, st := .pending, readyseq := 0, takenBy := 0, time := 0 }] }] }, place0,
      team [{ slice 0 with sregs := [(1, 6)] }], 0, { slice 0 with sregs := [(1, 6)] }, _, alone_of (by decide +kernel) (by decide +kernel),
      fun op h => absurd (show op ∈ [] from h) (by simp), rfl, rfl, rfl, by decide +kernel⟩⟩

theorem witness_CancelCounterResults :
    (∃ (s : State) (p : At) (x : Team) (k : Nat) (sl : Slice) (L : Launch), s.Alone (.cancel .zero 1) p x k sl
      ∧ s.queued = false ∧ s.launch? x.launch = some L ∧ (∀ y ∈ s.launches, p.team ∉ y.waiters) ∧ L.counted = false ∧ L.st ≠ .cancelled)
    ∧ (∃ (s : State) (p : At) (x : Team) (k : Nat) (sl : Slice) (L : Launch), s.Alone (.cancel .zero 1) p x k sl
      ∧ s.queued = false ∧ s.launch? x.launch = some L ∧ (∀ y ∈ s.launches, p.team ∉ y.waiters) ∧ L.st = .cancelled)
    ∧ (∃ (s : State) (p : At) (x : Team) (k : Nat) (sl : Slice) (L : Launch), s.Alone (.cancel (.s 1) 0) p x k sl
      ∧ s.launch? x.launch = some L ∧ L.moving = false ∧ L.waiters = []
      ∧ (L.conts.find? (fun c => c.handle == (sl.readS (.s 1)).toNat)).any (fun c => c.st == .ready || c.st == .pending) = true)
    ∧ (∃ (s : State) (p : At) (x : Team) (k : Nat) (sl : Slice) (L : Launch), s.Alone (.cancel (.s 1) 0) p x k sl
      ∧ s.launch? x.launch = some L ∧ L.moving = false ∧ L.waiters = [] ∧ L.conts = [])
    ∧ (∃ (s : State) (p : At) (x : Team) (k : Nat) (sl : Slice) (L : Launch), s.Alone (.cancel (.s 1) 0) p x k sl
      ∧ s.launch? x.launch = some L ∧ L.moving = false ∧ L.waiters = []
      ∧ (L.conts.find? (fun c => c.handle == (sl.readS (.s 1)).toNat)).any (fun c => c.st == .taken) = true
      ∧ s.runsCont x.launch (sl.readS (.s 1)).toNat = true)
    ∧ (∃ (s : State) (p : At) (x : Team) (k : Nat) (sl : Slice), s.Alone (.cancel (.s 1) 2) p x k sl ∧ s.queued = false
      ∧ (∀ y ∈ s.launches, p.team ∉ y.waiters)
      ∧ ∃ y ∈ s.launches, y.part = x.part ∧ y.asid = x.asid ∧ y.record.job = x.record.job
        ∧ y.record.graph = (sl.readS (.s 1)).toNat % 2 ^ 16 ∧ s.passCounted y = false ∧ s.launch? y.uid = some y ∧ y.counted = false
        ∧ s.cancels = [])
    ∧ (∃ (s : State) (p : At) (x : Team) (k : Nat) (sl : Slice), s.Alone (.cancel (.s 1) 4) p x k sl ∧ s.queued = false
      ∧ (∀ y ∈ s.launches, p.team ∉ y.waiters)
      ∧ { part := x.part, asid := x.asid, job := x.record.job, level := 4, id := 0 } ∈ s.cancels)
    ∧ ∃ (s : State) (p : At) (x : Team) (L : Launch), s.Executes (.ctr (.s 22) 4) p ∧ s.team? p.team = some x ∧ s.launch? x.launch = some L :=
  ⟨⟨one (slice 0), place0, team [slice 0], 0, slice 0, placeLaunch 2, alone_of (by decide +kernel) (by decide +kernel), by decide +kernel,
      by decide +kernel, by decide +kernel, rfl, by decide⟩,
    ⟨{ one (slice 0) with launches := [{ placeLaunch 2 with st := .cancelled }] }, place0, team [slice 0], 0, slice 0, _,
      alone_of (by decide +kernel) (by decide +kernel), by decide +kernel, rfl, by decide +kernel, rfl⟩,
    ⟨{ one { slice 0 with sregs := [(1, 6)] } with launches := [{ placeLaunch 2 with handles := [6], conts := [
          { frame := 0, codeoff := 0, count := 1, handle := 6, st := .pending, readyseq := 0, takenBy := 0, time := 0 }] }] }, place0,
      team [{ slice 0 with sregs := [(1, 6)] }], 0, { slice 0 with sregs := [(1, 6)] }, _, alone_of (by decide +kernel) (by decide +kernel),
      rfl, rfl, rfl, by decide +kernel⟩,
    ⟨one (slice 0), place0, team [slice 0], 0, slice 0, placeLaunch 2, alone_of (by decide +kernel) (by decide +kernel), by decide +kernel,
      rfl, rfl, rfl⟩,
    ⟨{ state { team [{ slice 0 with sregs := [(1, 6)] }] with work := some (.cont 6) } [0] with launches := [{ placeLaunch 2 with
        handles := [6], conts := [{ frame := 0, codeoff := 0, count := 0, handle := 6, st := .taken, readyseq := 0, takenBy := 0, time := 0 }] }] },
      place0, { team [{ slice 0 with sregs := [(1, 6)] }] with work := some (.cont 6) }, 0, { slice 0 with sregs := [(1, 6)] }, _,
      alone_of (by decide +kernel) (by decide +kernel), rfl, rfl, rfl, by decide +kernel, by decide +kernel⟩,
    ⟨one (slice 0), place0, team [slice 0], 0, slice 0, alone_of (by decide +kernel) (by decide +kernel), by decide +kernel, by decide +kernel,
      _, List.mem_of_getElem? (i := 0) rfl, by decide +kernel, by decide +kernel, by decide +kernel, by decide +kernel, by decide +kernel,
      by decide +kernel, by decide +kernel, by decide +kernel⟩,
    ⟨{ one (slice 0) with cancels := [{ part := (team []).part, asid := 1, job := (team []).record.job, level := 4, id := 0 }] }, place0,
      team [slice 0], 0, slice 0, alone_of (by decide +kernel) (by decide +kernel), by decide +kernel, by decide +kernel, by decide +kernel⟩,
    ⟨one (slice 0), place0, team [slice 0], placeLaunch 2, executes_of (by decide +kernel), by decide +kernel, by decide +kernel⟩⟩

/-- A barrier with a generation open. -/
def openBarrier (e a : BitVec 12) : Barrier where
  isOpen := true
  counted := true
  expected := e
  arrived := a
  comp := 0xFFFF
  came := [1]

/-- Team 1, slice 0 as `sl`, with one barrier `b`. -/
def barred (sl : Slice) (b : Barrier) : Team := { team [sl] with bars := [b] }

/-- Slice 0 about to complete a generation that slice 1 waits for. -/
def releasing : Team :=
  { parted with slices := [slice 0, { slice 1 with block := .barrier 0 0xFFFF }], bars := [openBarrier 2 1] }

theorem witness_TeamBarrierResults :
    (∃ (s : State) (p : At) (x : Team) (k m : Nat) (sl z : Slice) (b : Barrier) (c d : SubCrew) (g : BitVec 16),
      s.Alone (.barSync 0) p x k sl ∧ s.Idle p.team k ∧ x.bars[0]? = some b ∧ x.sub? k = some c ∧ c.members = [k] ∧ b.isOpen = true
      ∧ b.expected.toNat = (b.arrived + 1).toNat ∧ (x.slices.map (fun z => z.idx)).Nodup ∧ x.slice? m = some z ∧ z.block = .barrier 0 g
      ∧ (b.comp + 1 - g).toNat = 1 ∧ x.sub? m = some d ∧ d.members = [m])
    ∧ (∃ (s : State) (p : At) (x : Team) (k : Nat) (sl : Slice) (b : Barrier) (c : SubCrew), s.Alone (.barSync 0) p x k sl ∧ s.Idle p.team k
      ∧ x.bars[0]? = some b ∧ x.sub? k = some c ∧ c.members = [k] ∧ b.isOpen = true ∧ b.expected.toNat = (b.arrived + 1).toNat)
    ∧ (∃ (s : State) (p : At) (x : Team) (k : Nat) (sl : Slice) (b : Barrier) (c : SubCrew), s.Alone (.barSync 0) p x k sl ∧ s.Idle p.team k
      ∧ x.bars[0]? = some b ∧ x.sub? k = some c ∧ c.members = [k] ∧ b.isOpen = false ∧ 1 < x.live.length)
    ∧ (∃ (s : State) (p : At) (x : Team) (k : Nat) (sl : Slice) (b : Barrier), s.Alone (.barArr (.s 9) (.s 1) 0) p x k sl ∧ s.Idle p.team k
      ∧ x.bars[0]? = some b ∧ (sl.readS (.s 1)).toNat = 1 ∧ b.isOpen = false)
    ∧ (∃ (s : State) (p : At) (x : Team) (k : Nat) (sl : Slice) (b : Barrier), s.Alone (.barArr (.s 9) (.s 1) 0) p x k sl ∧ s.Idle p.team k
      ∧ x.bars[0]? = some b ∧ (sl.readS (.s 1)).toNat = 4095 ∧ b.isOpen = true ∧ (b.arrived + 1).toNat < b.expected.toNat)
    ∧ (∃ (s : State) (p : At) (x : Team) (k : Nat) (sl : Slice) (b : Barrier) (c : SubCrew), s.Alone (.barWait (.s 1) 0) p x k sl
      ∧ s.Idle p.team k ∧ x.bars[0]? = some b ∧ x.sub? k = some c ∧ c.members = [k]
      ∧ (b.comp - (sl.readS (.s 1)).setWidth 16).toNat = 32768)
    ∧ ∃ (s : State) (p : At) (x : Team) (k : Nat) (sl : Slice) (b : Barrier) (c : SubCrew), s.Alone (.barWait (.s 1) 0) p x k sl
      ∧ s.Idle p.team k ∧ x.bars[0]? = some b ∧ x.sub? k = some c ∧ c.members = [k]
      ∧ (b.comp - (sl.readS (.s 1)).setWidth 16).toNat = 32769 :=
  ⟨⟨state releasing [0], place0, releasing, 0, 1, slice 0, { slice 1 with block := .barrier 0 0xFFFF }, openBarrier 2 1, _, _, 0xFFFF,
      alone_of (by decide +kernel) (by decide +kernel), state_idle _ _ _ _, rfl, rfl, rfl, rfl, by decide, by decide, by decide +kernel, rfl,
      by decide, rfl, rfl⟩,
    ⟨state (barred (slice 0) (openBarrier 2 1)) [0], place0, barred (slice 0) (openBarrier 2 1), 0, slice 0, openBarrier 2 1, _,
      alone_of (by decide +kernel) (by decide +kernel), state_idle _ _ _ _, rfl, rfl, rfl, rfl, by decide⟩,
    ⟨state parted [0], place0, parted, 0, slice 0, _, _,
      alone_of (by decide +kernel) (by decide +kernel), state_idle _ _ _ _, rfl, rfl, rfl, rfl, by decide +kernel⟩,
    ⟨one { slice 0 with sregs := [(1, 1)] }, place0, team [{ slice 0 with sregs := [(1, 1)] }], 0, { slice 0 with sregs := [(1, 1)] }, _,
      alone_of (by decide +kernel) (by decide +kernel), state_idle _ _ _ _, rfl, by decide +kernel, rfl⟩,
    ⟨state (barred { slice 0 with sregs := [(1, 4095)] } (openBarrier 4095 3)) [0], place0,
      barred { slice 0 with sregs := [(1, 4095)] } (openBarrier 4095 3), 0, { slice 0 with sregs := [(1, 4095)] }, openBarrier 4095 3,
      alone_of (by decide +kernel) (by decide +kernel), state_idle _ _ _ _, rfl, by decide +kernel, rfl, by decide⟩,
    ⟨state (barred { slice 0 with sregs := [(1, 0x7FFF)] } (openBarrier 2 1)) [0], place0,
      barred { slice 0 with sregs := [(1, 0x7FFF)] } (openBarrier 2 1), 0, { slice 0 with sregs := [(1, 0x7FFF)] }, openBarrier 2 1, _,
      alone_of (by decide +kernel) (by decide +kernel), state_idle _ _ _ _, rfl, rfl, rfl, by decide +kernel⟩,
    ⟨state (barred { slice 0 with sregs := [(1, 0x7FFE)] } (openBarrier 2 1)) [0], place0,
      barred { slice 0 with sregs := [(1, 0x7FFE)] } (openBarrier 2 1), 0, { slice 0 with sregs := [(1, 0x7FFE)] }, openBarrier 2 1, _,
      alone_of (by decide +kernel) (by decide +kernel), state_idle _ _ _ _, rfl, rfl, rfl, by decide +kernel⟩⟩

/-- Slice 0 with the address of a barrier word in `s[2:3]` and an operand in `s5`. -/
def atWord0 (b : Word) : Slice := { slice 0 with sregs := [(2, 0x20070), (5, b)] }

/-- Team 1 of a co-resident launch. -/
def coresident (sl : Slice) : Team := { team [sl] with record := { placeRecord with coresid := true } }

/-- A state in which the barrier word holds three arrivals of four, or none, and generation `g`. -/
def wordState (sl : Slice) (arrived g : Nat) : State :=
  { state (coresident sl) [0] with
    mem := ((state (coresident sl) [0]).mem.setNat 0x400070 8 (arrived + 4 * 2 ^ 32)).setNat 0x400078 8 g }

theorem word_plain (sl : Slice) (m g : Nat) : Plain (wordState sl m g) (coresident sl) :=
  ⟨⟨rfl, rfl⟩, ⟨rfl, rfl, rfl⟩, ⟨rfl, rfl, rfl, rfl, rfl⟩, rfl⟩

theorem witness_BarrierWordResults :
    (∃ (s : State) (p : At) (x : Team) (k : Nat) (sl : Slice) (l : Leaf), s.Alone (.barArrG (.s 9) (.s 2) (.s 5)) p x k sl
      ∧ s.Idle p.team k ∧ x.record.coresid = true ∧ sl.readS (.s 5) ≠ 0 ∧ sl.pairOf 0 (.s 2) 0 % 16 = 0
      ∧ s.Reaches x .atomic false (sl.pairOf 0 (.s 2) 0) 16 l ∧ s.mem.nat (l.addr (sl.pairOf 0 (.s 2) 0)) 4 = 3)
    ∧ (∃ (s : State) (p : At) (x : Team) (k : Nat) (sl : Slice) (l : Leaf), s.Alone (.barArrG (.s 9) (.s 2) (.s 5)) p x k sl
      ∧ s.Idle p.team k ∧ x.record.coresid = true ∧ sl.readS (.s 5) ≠ 0 ∧ sl.pairOf 0 (.s 2) 0 % 16 = 0
      ∧ s.Reaches x .atomic false (sl.pairOf 0 (.s 2) 0) 16 l ∧ s.mem.nat (l.addr (sl.pairOf 0 (.s 2) 0)) 4 = 0)
    ∧ (∃ (s : State) (p : At) (x : Team) (k : Nat) (sl : Slice) (l : Leaf) (c : SubCrew), s.Alone (.barWaitG (.s 2) (.s 5)) p x k sl
      ∧ s.Idle p.team k ∧ x.record.coresid = true ∧ sl.pairOf 0 (.s 2) 0 % 16 = 0
      ∧ s.Reaches x .load false (sl.pairOf 0 (.s 2) 0) 16 l ∧ x.sub? k = some c ∧ c.members = [k]
      ∧ (BitVec.ofNat 32 (s.mem.nat (l.addr (sl.pairOf 0 (.s 2) 0) + 8) 4) - sl.readS (.s 5)).toNat = 2 ^ 31)
    ∧ (∃ (s : State) (p : At) (x : Team) (k : Nat) (sl : Slice) (l : Leaf) (c : SubCrew), s.Alone (.barWaitG (.s 2) (.s 5)) p x k sl
      ∧ s.Idle p.team k ∧ x.record.coresid = true ∧ sl.pairOf 0 (.s 2) 0 % 16 = 0
      ∧ s.Reaches x .load false (sl.pairOf 0 (.s 2) 0) 16 l ∧ x.sub? k = some c ∧ c.members = [k]
      ∧ (BitVec.ofNat 32 (s.mem.nat (l.addr (sl.pairOf 0 (.s 2) 0) + 8) 4) - sl.readS (.s 5)).toNat = 0)
    ∧ ∃ (s : State) (u k va : Nat) (g seen : Word) (x : Team) (sl : Slice) (l : Leaf) (c : SubCrew), s.team? u = some x
      ∧ x.slice? k = some sl ∧ sl.block = .barWord va g seen ∧ sl.mode = .user ∧ sl.thread = none ∧ sl.ended = false ∧ va % 16 = 0
      ∧ s.Reaches x .load false va 16 l ∧ x.sub? k = some c ∧ c.members = [k] ∧ ∀ z ∈ x.slices, ∀ w, z.block ≠ .passed w :=
  ⟨⟨wordState (atWord0 9) 3 0xFFFFFFFF, place0, coresident (atWord0 9), 0, atWord0 9, page 0x20000 0x400000,
      alone_of (by decide +kernel) (by decide +kernel), fun op h => absurd (show op ∈ [] from h) (by simp), rfl, by decide +kernel,
      by decide +kernel, reaches (word_plain _ _ _) (by decide +kernel) (by decide +kernel) (by decide +kernel), by decide +kernel⟩,
    ⟨wordState (atWord0 1) 0 5, place0, coresident (atWord0 1), 0, atWord0 1, page 0x20000 0x400000,
      alone_of (by decide +kernel) (by decide +kernel), fun op h => absurd (show op ∈ [] from h) (by simp), rfl, by decide +kernel,
      by decide +kernel, reaches (word_plain _ _ _) (by decide +kernel) (by decide +kernel) (by decide +kernel), by decide +kernel⟩,
    ⟨wordState (atWord0 0x80000000) 0 0, place0, coresident (atWord0 0x80000000), 0, atWord0 0x80000000, page 0x20000 0x400000, _,
      alone_of (by decide +kernel) (by decide +kernel), fun op h => absurd (show op ∈ [] from h) (by simp), rfl,
      by decide +kernel, reaches (word_plain _ _ _) (by decide +kernel) (by decide +kernel) (by decide +kernel), rfl, rfl, by decide +kernel⟩,
    ⟨wordState (atWord0 7) 0 7, place0, coresident (atWord0 7), 0, atWord0 7, page 0x20000 0x400000, _,
      alone_of (by decide +kernel) (by decide +kernel), fun op h => absurd (show op ∈ [] from h) (by simp), rfl,
      by decide +kernel, reaches (word_plain _ _ _) (by decide +kernel) (by decide +kernel) (by decide +kernel), rfl, rfl, by decide +kernel⟩,
    ⟨wordState { slice 0 with block := .barWord 0x20070 7 7 } 0 8, 1, 0, 0x20070, 7, 7, coresident { slice 0 with block := .barWord 0x20070 7 7 },
      { slice 0 with block := .barWord 0x20070 7 7 }, page 0x20000 0x400000, _, rfl, rfl, rfl, rfl, rfl, rfl, rfl,
      reaches (word_plain _ _ _) (by decide +kernel) (by decide +kernel) (by decide +kernel), rfl, rfl,
      by intro z hz w; simp only [coresident, team, List.mem_cons, List.not_mem_nil, or_false] at hz; subst hz; simp⟩⟩

theorem witness_LoanRoleResults :
    (∃ (s : State) (p : At) (x : Team) (k : Nat) (sl : Slice), s.Alone (.give 63) p x k sl ∧ x.claims = [] ∧ 63 < sl.alloc
      ∧ sl.wb < 8 * (sl.alloc - 63))
    ∧ (∃ (s : State) (p : At) (x : Team) (k : Nat) (sl : Slice) (c : SubCrew), s.Alone (.claim 63) p x k sl ∧ x.claims = []
      ∧ sl.alloc + 63 ≤ 64 ∧ 63 ≤ x.pool + s.freeBlocks x.core ∧ x.sub? k = some c ∧ c.members = [k])
    ∧ (∃ (s : State) (p : At) (x : Team) (k : Nat) (sl : Slice), s.Alone (.claim 63) p x k sl ∧ x.claims = [] ∧ sl.alloc + 63 ≤ 64
      ∧ x.pool + s.freeBlocks x.core < 63)
    ∧ ∃ (s : State) (p : At) (x : Team) (k : Nat) (sl : Slice) (e : RoleEnt) (w : Word), s.Alone (.roleW .zero) p x k sl ∧ s.Idle p.team k
      ∧ x.role? (sl.readS .zero).toNat = some e ∧ e.wbblk < sl.alloc ∧ (∀ f, f < 12 → sl.flag f = 0)
      ∧ s.Target x sl (x.record.codebase + e.entry) w ∧ ∀ j ∈ x.joins, k ∉ j.expected ∧ k ∉ j.arrived :=
  ⟨⟨one (slice 0), place0, team [slice 0], 0, slice 0, alone_of (by decide +kernel) (by decide +kernel), rfl, by decide, by decide⟩,
    ⟨one { slice 0 with alloc := 1 }, place0, team [{ slice 0 with alloc := 1 }], 0, { slice 0 with alloc := 1 }, _,
      alone_of (by decide +kernel) (by decide +kernel), rfl, by decide, by decide +kernel, rfl, rfl⟩,
    ⟨{ one { slice 0 with alloc := 1 } with teams := [team [{ slice 0 with alloc := 1 }], { placeTeam 0 5 6 with slices := [], pool := 1985 }] },
      place0, team [{ slice 0 with alloc := 1 }], 0, { slice 0 with alloc := 1 }, alone_of (by decide +kernel) (by decide +kernel), rfl,
      by decide, by decide +kernel⟩,
    ⟨one (slice 0), place0, team [slice 0], 0, slice 0, _, 0xF8000000#32, alone_of (by decide +kernel) (by decide +kernel),
      state_idle _ _ _ _, rfl, by decide, by decide, target_held _ _ _ ⟨rfl, rfl⟩ rfl rfl, by simp [team, placeTeam]⟩⟩

/-! ### Supervisor words -/

/-- Slice 0 in supervisor mode, with a record of lane 3. -/
def faulted : Slice :=
  { sup with recs := [{ lane := 3, cause := 0x13, va := 0x20000, acc := { loadAcc with lanes := [3] } }], sregs := [(1, 8)] }

theorem witness_SupervisorReturnResults :
    (∃ (s : State) (p : At) (x : Team) (k : Nat) (sl : Slice) (w : Word), s.Alone (.fret .zero (.s 1)) p x k sl
      ∧ s.HeldWord x false (x.record.codebase + (sl.sepc.extractLsb' 8 24).toNat * 4) w ∧ isHeader w = true
      ∧ (sl.sepc.extractLsb' 5 3).toNat ≤ hdrLen w
      ∧ (∀ j, j ≤ hdrLen w → ∃ v, s.HeldWord x false (x.record.codebase + (sl.sepc.extractLsb' 8 24).toNat * 4 + 4 * (1 + j)) v) ∧ (∀ r ∈ sl.recs, r.lane < 4 ∧ (sl.readS .zero).getLsbD r.lane = false)
      ∧ sl.recs ≠ [])
    ∧ ∃ (s : State) (p : At) (x : Team) (k : Nat) (sl : Slice) (w : Word) (r : FaultRec), s.Alone (.fret (.s 1) .zero) p x k sl
      ∧ s.HeldWord x false (x.record.codebase + (sl.sepc.extractLsb' 8 24).toNat * 4) w ∧ isHeader w = true
      ∧ (sl.sepc.extractLsb' 5 3).toNat ≤ hdrLen w
      ∧ (∀ j, j ≤ hdrLen w → ∃ v, s.HeldWord x false (x.record.codebase + (sl.sepc.extractLsb' 8 24).toNat * 4 + 4 * (1 + j)) v) ∧ sl.recs = [r] ∧ r.lane < 4 ∧ (sl.readS (.s 1)).getLsbD r.lane = true
      ∧ r.cause ≠ 0x18 ∧ r.acc.kind ≠ .barWord ∧ ∀ f, r.acc.flag = some f → sl.flag f ≠ 63 :=
  have hw : ∀ j, j ≤ 0 → ∃ v, (one faulted).HeldWord (team [faulted]) false (0x10000 + 4 * (1 + j)) v := by
    intro j hj
    obtain rfl : j = 0 := Nat.le_zero.mp hj
    exact ⟨0, word_held _ _ ⟨rfl, rfl⟩ (by decide +kernel)⟩
  ⟨⟨one faulted, place0, team [faulted], 0, faulted, 0xF8000000#32, alone_of (by decide +kernel) (by decide +kernel),
      word_held _ _ ⟨rfl, rfl⟩ (by decide +kernel), by decide, by decide, hw, by decide +kernel, by simp [faulted]⟩,
    ⟨one faulted, place0, team [faulted], 0, faulted, 0xF8000000#32, _, alone_of (by decide +kernel) (by decide +kernel),
      word_held _ _ ⟨rfl, rfl⟩ (by decide +kernel), by decide, by decide, hw, rfl, by decide, by decide +kernel, by decide, by decide,
      by rintro f h; cases h; decide +kernel⟩⟩

theorem witness_SupervisorStateResults :
    (∃ (s : State) (p : At) (x : Team) (k : Nat) (sl : Slice), s.Alone (.pstat (.s 9) .zero 28) p x k sl
      ∧ (sl.recs.find? (fun r => r.lane == 3)).isSome = true)
    ∧ (∃ (s : State) (p : At) (x : Team) (k : Nat) (sl : Slice), s.Alone (.pstatW (.s 9) (.s 1) 1) p x k sl)
    ∧ (∃ (s : State) (p : At) (x : Team) (k : Nat) (sl : Slice), s.Alone (.halt (.s 1)) p x k sl ∧ x.halt = none)
    ∧ (∃ (s : State) (p : At) (x : Team) (k : Nat) (sl : Slice), s.Alone (.halt (.s 1)) p x k sl ∧ x.halt = some (.hold 0x22 [1]))
    ∧ (∃ (s : State) (p : At) (x : Team) (k : Nat) (sl : Slice), s.Alone (.halt (.s 1)) p x k sl ∧ x.halt = some .quiet)
    ∧ ∃ (s : State) (p : At) (x : Team), s.Executes (.ecnt (.s 22)) p ∧ s.team? p.team = some x :=
  ⟨⟨one faulted, place0, team [faulted], 0, faulted, alone_of (by decide +kernel) (by decide +kernel), by decide +kernel⟩,
    ⟨one sup, place0, team [sup], 0, sup, alone_of (by decide +kernel) (by decide +kernel)⟩,
    ⟨one sup, place0, team [sup], 0, sup, alone_of (by decide +kernel) (by decide +kernel), rfl⟩,
    ⟨state { team [sup] with halt := some (.hold 0x22 [1]) } [0], place0, { team [sup] with halt := some (.hold 0x22 [1]) }, 0, sup,
      alone_of (by decide +kernel) (by decide +kernel), rfl⟩,
    ⟨state { team [sup] with halt := some .quiet } [0], place0, { team [sup] with halt := some .quiet }, 0, sup,
      alone_of (by decide +kernel) (by decide +kernel), rfl⟩,
    ⟨one sup, place0, team [sup], executes_of (by decide +kernel), by decide +kernel⟩⟩

/-- Slice 0 in supervisor mode with an address in `s[2:3]` and an operand in `s5`. -/
def mapper (va b : Word) : Slice := { sup with sregs := [(2, va), (5, b)] }

/-- A package whose partition 0 has one frame of die 0 free. -/
def pooled (sl : Slice) : State := (one sl).setPart 0 (fun q => { q with pool := [(0x1000000, 1)] })

/-- `pmap`'s walk for an operand: where it ends. -/
def pmapSpot (s : State) (x : Team) (sl : Slice) : Spot :=
  s.spot (sl.pairOf 0 (.s 2) 0) (4 - bits (sl.readS (.s 5)).toNat 11 10) levels (s.ctxEntry x.part x.asid).root

/-- `pooled` with an entry of ASID 1's level-3 table set. -/
def leafed (sl : Slice) (e : Nat) : State := { pooled sl with mem := (pooled sl).mem.setNat 0x105018 8 e }

/-- `pooled` while a copy command of team 1 holds the translation of the page at 0x20000. -/
def holding20 (sl : Slice) : Team := { team [sl] with cmds := [{ copyCmd 128 with plan := some [], held := [page 0x20000 0x400000] }] }

theorem witness_MappingResults :
    (∃ (s : State) (p : At) (x : Team) (k : Nat) (sl : Slice) (entry frame : Nat) (pool : List (Nat × Nat)),
      s.Alone (.pmap (.s 9) (.s 2) (.s 5)) p x k sl ∧ pmapBad (sl.pairOf 0 (.s 2) 0) (sl.readS (.s 5)).toNat = false
      ∧ (s.ctxEntry x.part x.asid).valid = true ∧ x.part < s.parts.length ∧ pmapSpot s x sl = .free entry 0
      ∧ bits (sl.readS (.s 5)).toNat 11 10 = 0
      ∧ takeFrames (s.part x.part).pool (dieOf x.core) (2 ^ pageLog 0) (2 ^ pageLog 0) = some (frame, pool)
      ∧ entry % 128 + 8 ≤ 128 ∧ s.revoked entry = false ∧ frame % 2 ^ pageLog 0 = 0 ∧ frame < 2 ^ 51)
    ∧ (∃ (s : State) (p : At) (x : Team) (k : Nat) (sl : Slice), s.Alone (.pmap (.s 9) (.s 2) (.s 5)) p x k sl
      ∧ pmapBad (sl.pairOf 0 (.s 2) 0) (sl.readS (.s 5)).toNat = true)
    ∧ (∃ (s : State) (p : At) (x : Team) (k : Nat) (sl : Slice), s.Alone (.pmap (.s 9) (.s 2) (.s 5)) p x k sl
      ∧ pmapBad (sl.pairOf 0 (.s 2) 0) (sl.readS (.s 5)).toNat = false ∧ (s.ctxEntry x.part x.asid).valid = true
      ∧ pmapSpot s x sl = .present)
    ∧ (∃ (s : State) (p : At) (x : Team) (k : Nat) (sl : Slice), s.Alone (.pmap (.s 9) (.s 2) (.s 5)) p x k sl
      ∧ pmapBad (sl.pairOf 0 (.s 2) 0) (sl.readS (.s 5)).toNat = false ∧ (s.ctxEntry x.part x.asid).valid = true
      ∧ pmapSpot s x sl = .conflict)
    ∧ (∃ (s : State) (p : At) (x : Team) (k : Nat) (sl : Slice), s.Alone (.pmap (.s 9) (.s 2) (.s 5)) p x k sl
      ∧ pmapBad (sl.pairOf 0 (.s 2) 0) (sl.readS (.s 5)).toNat = false ∧ (s.ctxEntry x.part x.asid).valid = true
      ∧ (∃ entry n, pmapSpot s x sl = .free entry n) ∧ takeFrames (s.part x.part).pool (dieOf x.core) 65536 65536 = none)
    ∧ (∃ (s : State) (p : At) (x : Team) (k : Nat) (sl : Slice), s.Alone (.tlbi (.s 9) (.s 2) (.s 5)) p x k sl ∧ s.pend = []
      ∧ (sl.readS (.s 5)).toNat ≠ 0 ∧ sl.pairOf 0 (.s 2) 0 % 65536 ≠ 0)
    ∧ (∃ (s : State) (p : At) (x : Team) (k : Nat) (sl : Slice), s.Alone (.tlbi (.s 9) (.s 2) (.s 5)) p x k sl ∧ s.pend = []
      ∧ sl.pairOf 0 (.s 2) 0 % 65536 = 0 ∧ canonicalRange (sl.pairOf 0 (.s 2) 0) (65536 * (sl.readS (.s 5)).toNat) = true
      ∧ (sl.readS (.s 5)).toNat ≠ 0
      ∧ s.heldBy (fun _ => true) x.asid (sl.pairOf 0 (.s 2) 0) (65536 * (sl.readS (.s 5)).toNat) = false)
    ∧ (∃ (s : State) (p : At) (x : Team) (k : Nat) (sl : Slice) (c : SubCrew), s.Alone (.tlbi (.s 9) (.s 2) (.s 5)) p x k sl ∧ s.pend = []
      ∧ (sl.readS (.s 5)).toNat = 0 ∧ s.heldBy (fun _ => true) x.asid 0 (2 ^ 64) = true ∧ x.sub? k = some c ∧ c.members = [k])
    ∧ (∃ (s : State) (p : At) (x : Team) (k : Nat) (sl : Slice), s.Alone (.asidr (.s 9) (.s 5)) p x k sl ∧ (sl.readS (.s 5)).toNat = 1
      ∧ s.teams.any (fun z => z.asid == 1) = true)
    ∧ ∃ (s : State) (p : At) (x : Team) (k : Nat) (sl : Slice), s.Alone (.asidr (.s 9) (.s 5)) p x k sl ∧ (sl.readS (.s 5)).toNat = 2
      ∧ (s.part x.part).asidn = 2 ∧ s.teams.any (fun z => z.asid == 2) = false := by
  refine ⟨⟨pooled (mapper 0x30000 0x3C), place0, team [mapper 0x30000 0x3C], 0, mapper 0x30000 0x3C, 0x105018, 0x1000000, [],
      alone_of (by decide +kernel) (by decide +kernel), by decide +kernel, by decide +kernel, by decide +kernel, by decide +kernel,
      by decide +kernel, by decide +kernel, by decide, by decide +kernel, by decide +kernel, by decide⟩,
    ⟨pooled (mapper 0x30001 0x3C), place0, team [mapper 0x30001 0x3C], 0, mapper 0x30001 0x3C,
      alone_of (by decide +kernel) (by decide +kernel), by decide +kernel⟩,
    ⟨leafed (mapper 0x30000 0x3C) 0x3D, place0, team [mapper 0x30000 0x3C], 0, mapper 0x30000 0x3C,
      alone_of (by decide +kernel) (by decide +kernel), by decide +kernel, by decide +kernel, by decide +kernel⟩,
    ⟨pooled (mapper 0 0x43C), place0, team [mapper 0 0x43C], 0, mapper 0 0x43C,
      alone_of (by decide +kernel) (by decide +kernel), by decide +kernel, by decide +kernel, by decide +kernel⟩,
    ⟨one (mapper 0x30000 0x3C), place0, team [mapper 0x30000 0x3C], 0, mapper 0x30000 0x3C,
      alone_of (by decide +kernel) (by decide +kernel), by decide +kernel, by decide +kernel, ⟨0x105018, 0, by decide +kernel⟩,
      by decide +kernel⟩,
    ⟨one (mapper 0x20004 1), place0, team [mapper 0x20004 1], 0, mapper 0x20004 1, alone_of (by decide +kernel) (by decide +kernel), rfl,
      by decide +kernel, by decide +kernel⟩,
    ⟨one (mapper 0x20000 1), place0, team [mapper 0x20000 1], 0, mapper 0x20000 1, alone_of (by decide +kernel) (by decide +kernel), rfl,
      by decide +kernel, by decide +kernel, by decide +kernel, by decide +kernel⟩,
    ⟨state (holding20 (mapper 0 0)) [0], place0, holding20 (mapper 0 0), 0, mapper 0 0, _,
      alone_of (by decide +kernel) (by decide +kernel), rfl, by decide +kernel, by decide +kernel, rfl, rfl⟩,
    ⟨one (mapper 0 1), place0, team [mapper 0 1], 0, mapper 0 1, alone_of (by decide +kernel) (by decide +kernel), by decide +kernel,
      by decide +kernel⟩,
    ⟨(one (mapper 0 2)).setPart 0 (fun q => { q with asidn := 2 }), place0, team [mapper 0 2], 0, mapper 0 2,
      alone_of (by decide +kernel) (by decide +kernel), by decide +kernel, by decide +kernel, by decide +kernel⟩⟩

/-- An image of an empty slot bound to the region at 64 (R409). -/
def imaged (sl : Slice) : State := { one sl with mem := (one sl).mem.setNat 0x400000 16 (64 + 2 ^ 96) }

theorem witness_SkipImageResults :
    (∃ (s : State) (p : At) (x : Team) (k : Nat) (sl : Slice) (l : Leaf), s.Alone (.sksave (.s 9) (.s 2) (.s 5)) p x k sl ∧ s.Idle p.team k
      ∧ (sl.readS (.s 5)).toNat = 7 ∧ sl.pairOf 0 (.s 2) 0 % 64 = 0 ∧ canonicalRange (sl.pairOf 0 (.s 2) 0) 576 = true
      ∧ (s.core x.core).engine.holder = none ∧ (s.core x.core).engine.queue = []
      ∧ (∀ q ∈ pieces 128 (sl.pairOf 0 (.s 2) 0) 576, s.Reaches x .store true q.1 q.2 l) ∧ l.va ≤ sl.pairOf 0 (.s 2) 0)
    ∧ (∃ (s : State) (p : At) (x : Team) (k : Nat) (sl : Slice) (l : Leaf), s.Alone (.skload (.s 9) (.s 2) (.s 5)) p x k sl ∧ s.Idle p.team k
      ∧ (sl.readS (.s 5)).toNat = 7 ∧ sl.pairOf 0 (.s 2) 0 % 64 = 0 ∧ canonicalRange (sl.pairOf 0 (.s 2) 0) 576 = true
      ∧ (s.core x.core).engine.holder = none ∧ (s.core x.core).engine.queue = []
      ∧ (∀ q ∈ pieces 128 (sl.pairOf 0 (.s 2) 0) 576, s.Reaches x .load true q.1 q.2 l) ∧ l.va ≤ sl.pairOf 0 (.s 2) 0
      ∧ bits (s.mem.nat (l.addr (sl.pairOf 0 (.s 2) 0)) 576) 95 88 = 0 ∧ bits (s.mem.nat (l.addr (sl.pairOf 0 (.s 2) 0)) 576) 127 96 = 1
      ∧ bits (s.mem.nat (l.addr (sl.pairOf 0 (.s 2) 0)) 576) 511 128 = 0
      ∧ bits (s.mem.nat (l.addr (sl.pairOf 0 (.s 2) 0)) 576) 63 0 % 64 = 0)
    ∧ (∃ (s : State) (p : At) (x : Team) (k : Nat) (sl : Slice), s.Alone (.sksave (.s 9) (.s 2) (.s 5)) p x k sl
      ∧ (sl.readS (.s 5)).toNat = 8)
    ∧ ∃ (s : State) (p : At) (x : Team) (k : Nat) (sl : Slice), s.Alone (.skload (.s 9) (.s 2) (.s 5)) p x k sl
      ∧ (sl.readS (.s 5)).toNat ≤ 7 ∧ sl.pairOf 0 (.s 2) 0 % 64 = 0 ∧ ∃ u, (s.core x.core).engine.holder = some u ∧ u ≠ p.team := by
  have hp : ∀ q ∈ pieces 128 0x20000 576, (canonicalRange q.1 q.2 = true ∧ 0 < q.2 ∧ q.1 % 128 + q.2 ≤ 128)
      ∧ (∀ n ∈ [Need.load, .store], State.lookUp (state (team []) []) 0 1 q.1 n true = .hit (page 0x20000 0x400000))
      ∧ inRange .fabric ((page 0x20000 0x400000).addr q.1) = false ∧ beyond ((page 0x20000 0x400000).addr q.1) = false
      ∧ inRange .tier ((page 0x20000 0x400000).addr q.1) = false := by
    decide +kernel
  refine ⟨⟨one (mapper 0x20000 7), place0, team [mapper 0x20000 7], 0, mapper 0x20000 7, page 0x20000 0x400000,
      alone_of (by decide +kernel) (by decide +kernel), state_idle _ _ _ _, by decide +kernel, by decide +kernel, by decide +kernel,
      by decide +kernel, by decide +kernel, ?_, by decide +kernel⟩,
    ⟨imaged (mapper 0x20000 7), place0, team [mapper 0x20000 7], 0, mapper 0x20000 7, page 0x20000 0x400000,
      alone_of (by decide +kernel) (by decide +kernel), fun op h => absurd (show op ∈ [] from h) (by simp), by decide +kernel,
      by decide +kernel, by decide +kernel, by decide +kernel, by decide +kernel, ?_, by decide +kernel, by decide +kernel,
      by decide +kernel, by decide +kernel, by decide +kernel⟩,
    ⟨one (mapper 0x20000 8), place0, team [mapper 0x20000 8], 0, mapper 0x20000 8, alone_of (by decide +kernel) (by decide +kernel),
      by decide +kernel⟩,
    ⟨engined (mapper 0x20000 7) { Engine.wiped with holder := some 5 }, place0, team [mapper 0x20000 7], 0, mapper 0x20000 7,
      alone_of (by decide +kernel) (by decide +kernel), by decide +kernel, by decide +kernel, 5, by decide +kernel, by decide⟩⟩
  · intro q hq
    obtain ⟨a1, a2, a3⟩ := hp q hq
    exact reaches (state_plain _ _ ⟨rfl, rfl⟩) a1 (a2 .store (by simp)) a3
  · intro q hq
    obtain ⟨a1, a2, a3⟩ := hp q hq
    exact reaches ⟨⟨rfl, rfl⟩, ⟨rfl, rfl, rfl⟩, ⟨rfl, rfl, rfl, rfl, rfl⟩, rfl⟩ a1 (a2 .load (by simp)) a3

/-! ### Cores and teams -/

/-- Team 1 whose sub-crew of slice 0, as `sl`, holds an entry or waits for one. -/
def entered (sl : Slice) (e : Bool) : Team :=
  { team [sl] with subs := [{ members := [0], entry := e, stalled := false, joined := false, seq := 0, wants := none, bad := [], accepted := none }] }

/-- The package with an entry queue on core 0. -/
def queued (x : Team) (l : List (Nat × Nat)) : State := (state x [0]).setCore 0 (fun c => { c with waiting := l })

/-- A package with one access of slice 0 waiting for a walk of the page at 0x10000 or at 0x30000. -/
def walking (va : Nat) : State := { one (slice 0) with tlb := [], pend := [pending { loadAcc with ea := va } .walk] }

theorem witness_CoreEventResults :
    (∃ (s : State) (c u k : Nat) (rest : List (Nat × Nat)) (x : Team) (b : SubCrew), (s.core c).waiting = (u, k) :: rest
      ∧ s.entriesHeld c < 48 ∧ s.team? u = some x ∧ x.sub? k = some b)
    ∧ (∃ (s : State) (u k : Nat) (x : Team) (b : SubCrew) (sl : Slice), s.team? u = some x ∧ x.sub? k = some b ∧ x.slice? k = some sl
      ∧ b.entry = true ∧ (sl.opened = false ∨ b.accepted = some .lines) ∧ x.st = .running ∧ (s.core x.core).waiting ≠ []
      ∧ ∀ w ∈ (s.core x.core).waiting, w.1 = u → w.2 ∉ b.members)
    ∧ (∃ (s : State) (u k : Nat) (sl : Slice), s.slice? u k = some sl ∧ sl.ended = false ∧ sl.cls = 2)
    ∧ (∃ (s : State) (u : Nat) (x : Team), s.team? u = some x ∧ x.energy.toNat = 2 ^ 48 - 1)
    ∧ (∃ (s : State) (c asid page va : Nat) (op : PendOp) (a : Acc) (x : Team) (sl : Slice), s.pend = [op] ∧ op.accs = [(a, .walk)]
      ∧ s.team? op.team = some x ∧ x.slice? op.slice = some sl ∧ x.asid = asid ∧ clusterOf x.core = c ∧ s.missAt x a = some va
      ∧ va / 65536 = page ∧ sl.thread = none ∧ sl.mode = .user
      ∧ ((s.walk (s.partOfAsid asid) c asid (65536 * page)).1).isSome = true)
    ∧ (∃ (s : State) (c asid page va : Nat) (op : PendOp) (a : Acc) (x : Team) (sl : Slice), s.pend = [op] ∧ op.accs = [(a, .walk)]
      ∧ s.team? op.team = some x ∧ x.slice? op.slice = some sl ∧ x.asid = asid ∧ clusterOf x.core = c ∧ s.missAt x a = some va
      ∧ va / 65536 = page ∧ sl.thread = none ∧ sl.mode = .user ∧ (s.walk (s.partOfAsid asid) c asid (65536 * page)).1 = none)
    ∧ ∃ (s : State) (u k : Nat) (x : Team) (sl : Slice) (r : FaultRec), s.vectorDue u k = true ∧ s.team? u = some x
      ∧ x.slice? k = some sl ∧ sl.vectorRec = some r :=
  ⟨⟨queued (entered (slice 0) false) [(1, 0)], 0, 1, 0, [], entered (slice 0) false, _, by decide +kernel, by decide +kernel,
      by decide +kernel, rfl⟩,
    ⟨queued (entered shut true) [(5, 0)], 1, 0, entered shut true, _, shut, by decide +kernel, rfl, rfl, rfl, .inl rfl, rfl, by decide +kernel,
      by decide +kernel⟩,
    ⟨one (slice 0), 1, 0, slice 0, by decide +kernel, rfl, rfl⟩,
    ⟨state { team [slice 0] with energy := BitVec.allOnes 48 } [0], 1, _, rfl, by decide⟩,
    ⟨walking 0x1007C, 0, 1, 1, 0x1007C, _, _, team [slice 0], slice 0, rfl, rfl, by decide +kernel, by decide +kernel, rfl, by decide,
      by decide +kernel, by decide, rfl, rfl, by decide +kernel⟩,
    ⟨walking 0x30000, 0, 1, 3, 0x30000, _, _, team [slice 0], slice 0, rfl, rfl, by decide +kernel, by decide +kernel, rfl, by decide,
      by decide +kernel, by decide, rfl, rfl, by decide +kernel⟩,
    ⟨one { shut with recs := faulted.recs, park := 8, conv := true }, 1, 0, team [{ shut with recs := faulted.recs, park := 8, conv := true }],
      { shut with recs := faulted.recs, park := 8, conv := true }, _, by decide +kernel, by decide +kernel, by decide +kernel, rfl⟩⟩

/-- Job 0 of partition 0, whose region is the first 4 KiB of the tier, with the stream of an interval or none. -/
def job (st : Option Stream) : Job where
  part := 0
  id := 0
  asid := 1
  region := 0x100000000000
  bytes := 4096
  used := 0
  status := 0x900020
  ceiling := 0x100000
  closed := 0
  based := true
  nextK := 1
  lastK := 0
  lastCommit := 0
  aborted := false
  full := false
  fullNext := false
  dirty := [0x200000]
  stream := st

/-- The stream of interval 1, its quiet points still to come on cores `cs`, or its cut taken and `todo` still to be written. -/
def interval (cs : List Nat) (cut : Option Commit) (todo : List Item) : Stream where
  k := 1
  tk := 0x100000
  base := 0x100000000000
  prev := 0
  full := false
  bytes := streamHeader 1 0x100000 0 0
  items := 0
  toArm := cs
  arming := []
  snaps := []
  cut := cut
  todo := todo
  marks := [0x200000]
  captured := []

/-- Team 1 with its stores tracked. -/
def tracked : Team := { team [slice 0] with record := { placeRecord with track := true } }

/-- The package with a context pool for partition 0, teams `l` and records `c`. -/
def pool (l : List Team) (c : List Ctx) : State :=
  { (state (team []) []).setPart 0 (fun q => { q with ctxpool := some (0x8000000, 0x4000000) }) with teams := l, saved := c, cur := none }

/-- Launch 2 before its one team starts. -/
def unstarted : Launch := { placeLaunch 2 with st := .waiting, toStart := [0], started := [] }

/-- Team 1 as a halt has left it. -/
def halted (h : HaltReason) (st : TeamSt) : Team := { team [slice 0] with st := st, halt := some h, resid := 200 }

/-- The record of team 1, moved off core 3. -/
def moved : Ctx where
  id := 20
  st := .complete
  snap := false
  part := 0
  asid := 1
  ltime := 5
  team := { halted (.migrate 3) .draining with core := 3 }
  engine := none
  pend := []
  pa := some 0x8000000
  scratch := []

theorem witness_TeamLifeResults :
    (∃ (s : State) (l c no off : Nat) (L : Launch) (q : Part), s.launch? l = some L ∧ s.mayStart L = true ∧ L.numberFor (((s.resumeOf l).map (fun p => p.has c)).getD false) c = some no
      ∧ s.findScratch c (128 * L.record.scratch) = some off
      ∧ s.takes L c (L.record.slices * L.record.regblk + 2 * L.record.catchSlots) = true
      ∧ (s.part L.part).reserveAll (L.record.rooms s.fresh) = some q ∧ L.waiters = [] ∧ L.record.coresid = false)
    ∧ (∃ (s : State) (l c no off : Nat) (L : Launch) (q : Part), s.launch? l = some L ∧ s.mayStart L = true
      ∧ L.numberFor (((s.resumeOf l).map (fun p => p.has c)).getD false) c = some no
      ∧ s.findScratch c (128 * L.record.scratch) = some off
      ∧ s.takes L c (L.record.slices * L.record.regblk + 2 * L.record.catchSlots) = true
      ∧ (s.part L.part).reserveAll (L.record.rooms s.fresh) = some q ∧ L.waiters = [] ∧ L.record.coresid = true
      ∧ L.toStart = [no] ∧ s.master.isSome = true)
    ∧ (∃ (s : State) (l u : Nat) (L : Launch) (x : Team), s.launch? l = some L ∧ s.team? u = some x ∧ L.record.elastic = true
      ∧ x.launch = l ∧ L.waiters = [])
    ∧ (∃ (s : State) (u : Nat) (x : Team), s.team? u = some x ∧ (s.teams.map (fun z => z.uid)).Nodup ∧ s.mgmt.st ≠ 4
      ∧ (∀ z ∈ s.teams, z.core = x.core → s.mayMove z = true → s.ctxBytes x ≤ s.ctxBytes z)
      ∧ ∀ z ∈ s.teams, (z.uid = u ∨ (x.record.coresid = true ∧ z.launch = x.launch)) → 200 ≤ z.resid ∧ z.st = .running ∧ z.halt = none)
    ∧ (∃ (s : State) (u : Nat) (x : Team) (c : Nat) (l : List Nat), s.team? u = some x ∧ x.st = .running ∧ x.halt = some (.hold c l))
    ∧ (∃ (s : State) (u : Nat) (x : Team), s.team? u = some x ∧ x.st = .running ∧ x.halt = some .quiet)
    ∧ (∃ (s : State) (u : Nat) (x : Team), s.team? u = some x ∧ s.stopDue x = true ∧ (∀ op ∈ s.pend, op.team ≠ u)
      ∧ (∀ L ∈ s.launches, u ∉ L.waiters) ∧ (∀ y m, s.mHead x.core = some (y, m) → m.started = false)
      ∧ x.halt ≠ some .quiet ∧ x.holds = false)
    ∧ (∃ (s : State) (u : Nat) (x : Team), s.team? u = some x ∧ s.stopDue x = true ∧ (∀ op ∈ s.pend, op.team ≠ u)
      ∧ (∀ L ∈ s.launches, u ∉ L.waiters) ∧ (∀ y m, s.mHead x.core = some (y, m) → m.started = false)
      ∧ x.halt ≠ some .quiet ∧ x.holds = true ∧ s.isCancelled x.launch = false)
    ∧ (∃ (s : State) (u : Nat) (x : Team), s.team? u = some x ∧ s.stopDue x = true ∧ (∀ op ∈ s.pend, op.team ≠ u)
      ∧ (∀ L ∈ s.launches, u ∉ L.waiters) ∧ (∀ y m, s.mHead x.core = some (y, m) → m.started = false)
      ∧ x.halt = some .quiet
      ∧ ∃ j st, s.jobOf x = some j ∧ j.stream = some st ∧ x.core ∈ st.arming)
    ∧ ∃ (s : State) (n core asid off : Nat) (c : Ctx) (L : Launch) (q : Part), s.saved.find? (fun y => y.id == n) = some c
      ∧ s.restoreDue c core = true ∧ s.restoreTo c core = some asid ∧ s.launch? c.team.launch = some L ∧ s.team? c.team.uid = none
      ∧ c.team.record.coresid = false ∧ c.engine = none ∧ c.team.claims = [] ∧ s.takes L core c.team.blocks = true
      ∧ s.findScratch core (128 * c.team.record.scratch) = some off
      ∧ ((s.unreserve c.part c.team.uid).part c.part).reserveAll (s.roomsOf c) = some q
      ∧ c.pend = [] ∧ (∀ op ∈ s.pend, op.team ≠ c.team.uid) ∧ ∀ sl ∈ c.team.slices, ∀ w, sl.block ≠ .passed w := by
  have hn : ∀ {s : State} {c : Nat}, s.mHead c = none → ∀ y m, s.mHead c = some (y, m) → m.started = false := by
    intro s c h y m h'; rw [h] at h'; cases h'
  have hb : (slice 0).block = .none := by decide
  exact
  ⟨⟨{ pool [] [] with launches := [unstarted] }, 2, 0, 0, 0, unstarted, _, rfl, by decide +kernel, by decide +kernel, by decide +kernel,
      by decide +kernel, (Option.some_get (by decide +kernel)).symm, rfl, rfl⟩,
    ⟨{ pool [] [] with launches := [{ unstarted with record := { placeRecord with coresid := true } }] }, 2, 0, 0, 0, _, _, rfl,
      by decide +kernel, by decide +kernel, by decide +kernel, by decide +kernel, (Option.some_get (by decide +kernel)).symm, rfl, rfl, rfl,
      rfl⟩,
    ⟨{ pool [team [slice 0]] [] with launches := [{ placeLaunch 2 with record := { placeRecord with elastic := true } }] }, 2, 1, _, _, rfl, rfl,
      rfl, rfl, rfl⟩,
    ⟨pool [{ team [slice 0] with resid := 200 }] [], 1, _, rfl, by decide +kernel, by decide +kernel, by decide +kernel, by decide +kernel⟩,
    ⟨pool [halted (.hold 0x22 [0]) .running] [], 1, _, 0x22, [0], rfl, rfl, rfl⟩,
    ⟨pool [halted .quiet .running] [], 1, _, rfl, rfl, rfl⟩,
    ⟨pool [halted .preempt .draining] [], 1, _, rfl, by decide +kernel, by decide +kernel, by decide +kernel, hn (by decide +kernel), by decide, rfl⟩,
    ⟨pool [halted (.hold 0x22 [0]) .draining] [], 1, _, rfl, by decide +kernel, by decide +kernel, by decide +kernel, hn (by decide +kernel),
      by decide, rfl, by decide +kernel⟩,
    ⟨{ pool [{ halted .quiet .draining with record := tracked.record }] [] with jobs := [job (some { interval [0] none [] with arming := [0] })] },
      1, _, rfl, by decide +kernel, by decide +kernel, by decide +kernel, hn (by decide +kernel), rfl,
      job (some { interval [0] none [] with arming := [0] }), { interval [0] none [] with arming := [0] }, by decide +kernel, rfl, by decide⟩,
    ⟨pool [] [moved], 20, 0, 1, 0, moved, placeLaunch 2, _, rfl, by decide +kernel, by decide +kernel, rfl, rfl, rfl, rfl, rfl,
      by decide +kernel, by decide +kernel, (Option.some_get (by decide +kernel)).symm, rfl,
      by decide +kernel, by intro sl h w; simp only [moved, halted, team, List.mem_cons, List.not_mem_nil, or_false] at h; subst h; simp [hb]⟩⟩

/-! ### Packets and the host's pages -/

/-- The package with packet `x` at the end of the ring of queue 0 of partition 0, and teams `l`; the address space 1 has a data page
at 0x20000, and a launch record at 0x10100. -/
def packeted (l : List Team) (x : Nat) : State :=
  let s := (state (team []) []).setPart 0 (fun q => { q with
    queues := List.replicate 16 { Queue.reset with qbase := 0x700000, cbase := 0x701000, en := true, log2n := 0, vec := 5 },
    pool := [(0x1000000, 8)] })
  { s.setQueue 0 0 (fun q => { q with head := 0xFFFFFFFF }) with
    teams := l
    cur := none
    mem := (((s.mem.setNat (0x700000 + 64 * 15) 64 x).setNat 0x105010 8 0x4000AD).setNat 0x200100 16
      (0x10000 + 2 ^ 96 * (2 ^ 16 + 1))).setNat 0x20011C 20 (1 + 2 ^ 96 * 10) }

/-- A packet of TYPE `t` for ASID 1 with FIRST 0, COUNT 1 and ADDR, LEVEL, JOB and VALUE. -/
def packet (t addr level v : Nat) : Nat := t + 2 ^ 48 + addr * 2 ^ 64 + 2 ^ 144 + level * 2 ^ 160 + v * 2 ^ 256

/-- What a packet reads that points to nothing. -/
def nothing : Read := { reads := [], writes := [], record := LRec.none, roles := [], target := none }

/-- The first committed interval of job 0, with its launches. -/
def committed (l : List Launch) : Commit where
  pa := 0x100000000000
  part := 0
  job := 0
  k := 1
  prev := 0
  records := []
  launches := l
  passes := []
  counters := []
  leaves := []
  sectors := []
  cancels := []

/-- The package whose tier holds that interval's commit record and next packet `x`. -/
def resumable (l : List Launch) (x : Nat) : State :=
  { packeted [] x with
    extents := [{ index := 0, port := 0, base := 0x100000000000, bytes := 0x40000000, shared := false, mask := 1, revoked := false, dropped := 0, firstDrop := 0 }]
    commits := [committed l]
    mem := ((packeted [] x).mem.setNat 0x100000000000 8 (0x4D43524E + 2 ^ 32)).setNat 0x10000000003C 4 1 }

/-- The next packet of a queue is read with `r`, and its completion entry can be written. -/
def reads (s : State) (x : Nat) (r : Read) : Bool :=
  decide (s.nextPacket 0 0 = some x) && decide (s.nextQueue = some (0, 0)) && decide ((s.checkPacket 0 x).2 = .ok r)
  && decide (s.entryAddr 0 0 % 128 + 16 ≤ 128) && !s.revoked (s.entryAddr 0 0)

theorem reads_of {s : State} {x : Nat} {r : Read} (h : reads s x r = true) :
    s.Reads 0 0 x r (s.checkPacket 0 x).1 ∧ s.EntryFree 0 0 := by
  unfold reads at h
  simp only [Bool.and_eq_true, decide_eq_true_eq, Bool.not_eq_true'] at h
  obtain ⟨⟨⟨⟨h1, h2⟩, h3⟩, h4⟩, h5⟩ := h
  exact ⟨⟨h1, h2, by rw [← h3]⟩, h4, h5⟩

theorem witness_PacketResults :
    (∃ (s s' : State) (part queue x c a : Nat), s.nextPacket part queue = some x ∧ s.nextQueue = some (part, queue)
      ∧ s.checkPacket part x = (s', .bad c a) ∧ s.EntryFree part queue)
    ∧ (∃ (s s' : State) (part queue x : Nat) (r : Read), s.Reads part queue x r s' ∧ s.EntryFree part queue ∧ pktType x = 0)
    ∧ (∃ (s s' : State) (part queue x : Nat) (r : Read), s.Reads part queue x r s' ∧ s.EntryFree part queue ∧ pktType x = 1
      ∧ (∀ y ∈ s.launches, y.st ≠ .cancelled) ∧ s.inCancelled part (pktAsid x) r.record = false)
    ∧ (∃ (s s' : State) (part queue x : Nat) (r : Read), s.Reads part queue x r s' ∧ s.EntryFree part queue ∧ pktType x = 2
      ∧ pktLevel x = 1 ∧ ∃ L ∈ s.unitOf part x, s.launch? L.uid = some L ∧ L.counted = false)
    ∧ (∃ (s s' : State) (part queue x : Nat) (r : Read), s.Reads part queue x r s' ∧ s.EntryFree part queue ∧ pktType x = 2
      ∧ 2 ≤ pktLevel x ∧ (∃ L ∈ s.unitOf part x, s.passCounted L = false)
      ∧ ({ part := part, asid := pktAsid x, job := pktJob x, level := pktLevel x, id := if pktLevel x = 4 then 0 else pktValue x } : Cancel)
        ∉ s.cancels
      ∧ ∃ L ∈ s.unitOf part x, s.launch? L.uid = some L ∧ L.counted = false)
    ∧ (∃ (s s' : State) (part queue x : Nat) (r : Read) (pa : Nat) (l : Leaf), s.Reads part queue x r s' ∧ s.EntryFree part queue
      ∧ pktType x = 3 ∧ r.target = some (pa, l) ∧ l.share ≠ .dev ∧ beyond pa = false ∧ inRange .fabric pa = false ∧ pa % 128 + 8 ≤ 128
      ∧ s.revoked pa = false
      ∧ (pa + 8 ≤ s.entryAddr part queue ∨ s.entryAddr part queue + 16 ≤ pa))
    ∧ (∃ (s s' : State) (part queue x : Nat) (r : Read), s.Reads part queue x r s' ∧ s.EntryFree part queue ∧ pktType x = 4
      ∧ (s.teams.map (fun z => z.uid)).Nodup ∧ (∀ z ∈ s.teams, ¬ ∃ L ∈ s.unitOf part x, L.counted = false ∧ L.uid = z.launch))
    ∧ (∃ (s s' : State) (part queue x : Nat) (r : Read), s.Reads part queue x r s' ∧ s.EntryFree part queue ∧ pktType x = 4
      ∧ (s.teams.map (fun z => z.uid)).Nodup ∧ (∃ z ∈ s.teams, ∃ L ∈ s.unitOf part x, L.counted = false ∧ L.uid = z.launch))
    ∧ (∀ st ∈ [TeamSt.running, .draining], ∃ (s s' : State) (part queue x : Nat) (r : Read) (z : Team) (c : Nat) (l : List Nat),
      s.Reads part queue x r s' ∧ s.EntryFree part queue ∧ pktType x = 4 ∧ (s.teams.map (fun z => z.uid)).Nodup
      ∧ (∃ L ∈ s.unitOf part x, L.counted = false ∧ L.uid = z.launch) ∧ s.team? 1 = some z ∧ z.halt = some (.hold c l) ∧ z.st = st)
    ∧ (∃ (s s' : State) (part queue x : Nat) (r : Read), s.Reads part queue x r s' ∧ s.EntryFree part queue ∧ pktType x = 5
      ∧ pktAddr x = 0 ∧ (s.launches.map (fun y => y.uid)).Nodup ∧ (∀ L ∈ s.unitOf part x, L.record.elastic = false)
      ∧ ∀ c ∈ s.saved, ¬ (c.kept = true ∧ ∃ L ∈ s.unitOf part x, L.uid = c.team.launch))
    ∧ (∃ (s s' : State) (part queue x : Nat) (r : Read), s.Reads part queue x r s' ∧ s.EntryFree part queue ∧ pktType x = 5
      ∧ pktAddr x = 0 ∧ (s.launches.map (fun y => y.uid)).Nodup ∧ (∀ L ∈ s.unitOf part x, L.record.elastic = false)
      ∧ ∃ c ∈ s.saved, c.kept = true ∧ ∃ L ∈ s.unitOf part x, L.uid = c.team.launch)
    ∧ (∃ (s s' : State) (part queue x : Nat) (r : Read) (chain : List Commit) (c : Commit) (s1 : State), s.Reads part queue x r s'
      ∧ s.EntryFree part queue ∧ pktType x = 5 ∧ pktAddr x ≠ 0 ∧ (s'.pass part queue x).chainOf (pktAddr x) = some chain
      ∧ chain.getLast? = some c ∧ (s'.pass part queue x).rebuild part (pktAsid x) chain = some s1 ∧ c.launches = [])
    ∧ (∃ (s s' : State) (part queue x : Nat) (r : Read) (chain : List Commit) (c : Commit) (s1 : State), s.Reads part queue x r s'
      ∧ s.EntryFree part queue ∧ pktType x = 5 ∧ pktAddr x ≠ 0 ∧ (s'.pass part queue x).chainOf (pktAddr x) = some chain
      ∧ chain.getLast? = some c ∧ (s'.pass part queue x).rebuild part (pktAsid x) chain = some s1 ∧ c.launches ≠ []) := by
  have hr : ∀ (s : State) (x : Nat) (r : Read), reads s x r = true → s.Reads 0 0 x r (s.checkPacket 0 x).1 ∧ s.EntryFree 0 0 :=
    fun _ _ _ h => reads_of h
  refine ⟨⟨packeted [] (packet 6 0 0 0), packeted [] (packet 6 0 0 0), 0, 0, packet 6 0 0 0, 1, 0, by decide +kernel, by decide +kernel,
      Prod.ext rfl (by decide +kernel), by decide +kernel, by decide +kernel⟩,
    ⟨packeted [] (packet 0 0 0 0), _, 0, 0, packet 0 0 0 0, nothing, (hr _ _ _ (by decide +kernel)).1, (hr _ (packet 0 0 0 0) nothing (by decide +kernel)).2,
      by decide +kernel⟩,
    ⟨packeted [] (packet 1 0x10100 0 0), _, 0, 0, packet 1 0x10100 0 0,
      { nothing with record := { LRec.none with codebase := 0x10000, regblk := 1, slices := 1, grain := 1, hi := 10 } },
      (hr _ _ _ (by decide +kernel)).1, (hr _ (packet 1 0x10100 0 0) { nothing with record := { LRec.none with codebase := 0x10000, regblk := 1, slices := 1, grain := 1, hi := 10 } } (by decide +kernel)).2,
      by decide +kernel, by decide +kernel, by decide +kernel⟩,
    ⟨packeted [] (packet 2 0 1 0), _, 0, 0, packet 2 0 1 0, nothing, (hr _ _ _ (by decide +kernel)).1, (hr _ (packet 2 0 1 0) nothing (by decide +kernel)).2,
      by decide +kernel, by decide +kernel, by decide +kernel⟩,
    ⟨packeted [] (packet 2 0 4 0), _, 0, 0, packet 2 0 4 0, nothing, (hr _ _ _ (by decide +kernel)).1, (hr _ (packet 2 0 4 0) nothing (by decide +kernel)).2,
      by decide +kernel, by decide +kernel, by decide +kernel, by decide +kernel, by decide +kernel⟩,
    ⟨packeted [] (packet 3 0x2FFF8 0 7), _, 0, 0, packet 3 0x2FFF8 0 7, { nothing with target := some (0x40FFF8, { page 0x20000 0x400000 with x := false }) },
      0x40FFF8, { page 0x20000 0x400000 with x := false }, (hr _ _ _ (by decide +kernel)).1,
      (hr _ (packet 3 0x2FFF8 0 7) { nothing with target := some (0x40FFF8, { page 0x20000 0x400000 with x := false }) } (by decide +kernel)).2,
      by decide +kernel, rfl, by decide, by decide +kernel, by decide +kernel, by decide +kernel, by decide +kernel, by decide +kernel⟩,
    ⟨packeted [] (packet 4 0 4 0), _, 0, 0, packet 4 0 4 0, nothing, (hr _ _ _ (by decide +kernel)).1, (hr _ (packet 4 0 4 0) nothing (by decide +kernel)).2,
      by decide +kernel, by decide +kernel, by decide +kernel⟩,
    ⟨packeted [team [slice 0]] (packet 4 0 4 0), _, 0, 0, packet 4 0 4 0, nothing, (hr _ _ _ (by decide +kernel)).1,
      (hr _ (packet 4 0 4 0) nothing (by decide +kernel)).2, by decide +kernel, by decide +kernel, by decide +kernel⟩,
    fun st h => ⟨packeted [halted (.hold 0x22 [0]) st] (packet 4 0 4 0), _, 0, 0, packet 4 0 4 0, nothing, halted (.hold 0x22 [0]) st, 0x22, [0],
      (hr _ _ _ ((by decide +kernel : ∀ st ∈ [TeamSt.running, .draining],
        reads (packeted [halted (.hold 0x22 [0]) st] (packet 4 0 4 0)) (packet 4 0 4 0) nothing = true) st h)).1,
      (hr _ (packet 4 0 4 0) nothing ((by decide +kernel : ∀ st ∈ [TeamSt.running, .draining],
        reads (packeted [halted (.hold 0x22 [0]) st] (packet 4 0 4 0)) (packet 4 0 4 0) nothing = true) st h)).2, by decide +kernel,
      by simp [packeted], (by decide +kernel : ∀ st ∈ [TeamSt.running, .draining],
        ∃ L ∈ (packeted [halted (.hold 0x22 [0]) st] (packet 4 0 4 0)).unitOf 0 (packet 4 0 4 0), L.counted = false
          ∧ L.uid = (halted (.hold 0x22 [0]) st).launch) st h, rfl, rfl, rfl⟩,
    ⟨packeted [] (packet 5 0 4 0), _, 0, 0, packet 5 0 4 0, nothing, (hr _ _ _ (by decide +kernel)).1, (hr _ (packet 5 0 4 0) nothing (by decide +kernel)).2,
      by decide +kernel, by decide +kernel, by decide +kernel, by decide +kernel, by decide +kernel⟩,
    ⟨{ packeted [] (packet 5 0 4 0) with saved := [moved] }, _, 0, 0, packet 5 0 4 0, nothing, (hr _ _ _ (by decide +kernel)).1,
      (hr { packeted [] (packet 5 0 4 0) with saved := [moved] } (packet 5 0 4 0) nothing (by decide +kernel)).2,
      by decide +kernel, by decide +kernel, by decide +kernel, by decide +kernel, by decide +kernel⟩,
    ⟨resumable [] (packet 5 0x100000000000 4 0), _, 0, 0, packet 5 0x100000000000 4 0, nothing, [committed []], committed [], _,
      (hr _ _ _ (by decide +kernel)).1, (hr _ (packet 5 0x100000000000 4 0) nothing (by decide +kernel)).2,
      by decide +kernel, by decide +kernel, by decide +kernel, rfl, (Option.some_get (by decide +kernel)).symm, rfl⟩,
    ⟨resumable [placeLaunch 2] (packet 5 0x100000000000 4 0), _, 0, 0, packet 5 0x100000000000 4 0, nothing, [committed [placeLaunch 2]],
      committed [placeLaunch 2], _,
      (hr _ _ _ (by decide +kernel)).1, (hr _ (packet 5 0x100000000000 4 0) nothing (by decide +kernel)).2,
      by decide +kernel, by decide +kernel, by decide +kernel, rfl, (Option.some_get (by decide +kernel)).symm, by simp [committed]⟩⟩

/-- The package with a firmware call written: its code, whether it runs, and its arguments. -/
def called (s : State) (code : BitVec 8) (go : Bool) (args : List Dword) : State :=
  { s with mgmt := { s.mgmt with st := 2, go := go, code := code, args := args ++ List.replicate (8 - args.length) 0 } }

theorem witness_HostPageResults :
    (∃ s : State, s.queued = true) ∧ (∃ (s : State) (part queue : Nat), s.queued = false ∧ part < s.parts.length ∧ queue < (s.part part).queues.length)
    ∧ (∀ o ∈ [0x02C, 0x080, 0x114 + 0x40 * 15], ∃ (s : State) (part : Nat), part < s.parts.length ∧ (s.part part).queues.length = 16
      ∧ (o = 0x02C ∨ o = 0x080 ∨ ∃ n, n < 16 ∧ o = 0x114 + 0x40 * n))
    ∧ (∀ o ∈ [0x028, 0x029, 0x07C, 0x100, 0x108 + 0x40 * 15, 0x110 + 0x40 * 15, 0x4FC, 0x500], ∃ (s : State) (part : Nat),
      part < s.parts.length ∧ (s.part part).queues.length = 16 ∧ o ≠ 0x02C ∧ o ≠ 0x080 ∧ ∀ n, n < 16 → o ≠ 0x114 + 0x40 * n)
    ∧ (∃ (s : State) (part u : Nat) (v : Dword) (L : Launch) (z : Team) (k : Nat) (sl : Slice), s.queued = false
      ∧ s.launchAt part (v.extractLsb' 60 4).toNat (v.extractLsb' 44 16).toNat = some L
      ∧ s.teamNo L.uid (v.extractLsb' 12 32).toNat = some u ∧ s.team? u = some z ∧ z.slice? k = some sl ∧ sl.ended = false
      ∧ sl.thread = none ∧ v.getLsbD 6 = true)
    ∧ (∃ (s : State) (part u : Nat) (v : Dword) (L : Launch) (z : Team) (k : Nat) (sl : Slice), s.queued = false
      ∧ s.launchAt part (v.extractLsb' 60 4).toNat (v.extractLsb' 44 16).toNat = some L
      ∧ s.teamNo L.uid (v.extractLsb' 12 32).toNat = some u ∧ s.team? u = some z ∧ z.slice? k = some sl ∧ sl.ended = false
      ∧ sl.thread = none ∧ v.getLsbD 6 = false ∧ k = v.toNat % 64)
    ∧ (∃ (s : State), s.mgmt.go = true)
    ∧ (∃ (s : State) (v : Dword), s.mgmt.go = false ∧ v.getLsbD 31 = true ∧ v.toNat % 256 ∈ callCodes)
    ∧ (∃ (s : State) (v : Dword), s.mgmt.go = false ∧ v.getLsbD 31 = true ∧ v.toNat % 256 ∉ callCodes)
    ∧ ∃ (s : State) (part : Nat), part < 16 ∧ part < s.parts.length :=
  ⟨⟨{ State.reset with mgmt := { State.reset.mgmt with st := 4 } }, rfl⟩,
    ⟨State.reset, 15, 15, by decide +kernel, by decide +kernel, by decide +kernel⟩,
    fun o h => ⟨State.reset, 15, by decide +kernel, by decide +kernel, by
      simp only [List.mem_cons, List.not_mem_nil, or_false] at h
      rcases h with h | h | h
      · exact .inl h
      · exact .inr (.inl h)
      · exact .inr (.inr ⟨15, by decide, h⟩)⟩,
    fun o h => ⟨State.reset, 15, by decide +kernel, by decide +kernel, (by decide : ∀ o ∈ [0x028, 0x029, 0x07C, 0x100, 0x108 + 0x40 * 15,
      0x110 + 0x40 * 15, 0x4FC, 0x500], o ≠ 0x02C ∧ o ≠ 0x080 ∧ ∀ n, n < 16 → o ≠ 0x114 + 0x40 * n) o h⟩,
    ⟨one (slice 0), 0, 1, 0x40, placeLaunch 2, team [slice 0], 0, slice 0, by decide +kernel, by decide +kernel, by decide +kernel, by decide +kernel, by decide +kernel, rfl, rfl, by decide⟩,
    ⟨one (slice 63), 0, 1, 63, placeLaunch 2, team [slice 63], 63, slice 63, by decide +kernel, by decide +kernel, by decide +kernel, by decide +kernel, by decide +kernel, rfl, rfl, by decide, by decide⟩,
    ⟨called State.reset 1 true [], rfl⟩, ⟨State.reset, 0x80000041, by decide +kernel, by decide, by decide⟩,
    ⟨State.reset, 0x80000042, by decide +kernel, by decide, by decide⟩, ⟨State.reset, 15, by decide, by decide +kernel⟩⟩

/-! ### Links and host translations -/

/-- The package with import entry 4095: one sector for any source, with every permission. -/
def imported : State :=
  { State.reset with
    imports := [(4095, BitVec.ofNat 256 (0x400000 + 2 ^ 64 * 0x80 + 2 ^ 128 * 0xFFFF0000 + 2 ^ 160 * 0xFFFFFFFF + 2 ^ 192 * 7))] }

/-- The package whose tier has one extent at the start of its range. -/
def tiered (sh rev : Bool) : State :=
  { one (slice 0) with
    extents := [{ index := 1023, port := 3, base := 0x100000000000, bytes := 0x40000000, shared := sh, mask := 0x8001, revoked := rev,
                  dropped := 0, firstDrop := 0 }] }

/-- `tiered` with launch 2's home in cluster 6. -/
def homed : State := { one (slice 0) with launches := [{ placeLaunch 2 with home := some 6 }] }

theorem witness_LinkResults :
    (∃ (s : State) (src n key off size : Nat), n < 4096 ∧ (s.import n).valid = true
      ∧ ((s.import n).source = 0xFFFF ∨ (s.import n).source = src) ∧ (s.import n).key = key ∧ off + size ≤ (s.import n).limit
      ∧ (s.import n).write = true ∧ (s.import n).atom = true ∧ size = 8 ∧ ((s.import n).base + off) % 128 + size ≤ 128
      ∧ s.revoked ((s.import n).base + off) = false ∧ s.poisoned ((s.import n).base + off) size = false
      ∧ off + size = (s.import n).limit)
    ∧ (∃ (s : State) (src n key off size : Nat), n < 4096 ∧ (s.import n).valid = true
      ∧ ((s.import n).source = 0xFFFF ∨ (s.import n).source = src) ∧ (s.import n).key = key ∧ off + size ≤ (s.import n).limit
      ∧ (s.import n).atom = true ∧ s.poisoned ((s.import n).base + off) size = true)
    ∧ (∃ (s : State) (n key off size : Nat), n < 4096 ∧ (s.import n).valid = true ∧ (s.import n).key = key
      ∧ off + size = (s.import n).limit + 1)
    ∧ (∃ (s : State) (n l : Nat) (op : PendOp) (a : Acc) (ps : List Piece) (x : Team) (sl : Slice), s.pend = [op] ∧ op.id = n
      ∧ op.accs = [(a, .peer ps)] ∧ l ∈ a.lanes ∧ s.team? op.team = some x ∧ x.slice? op.slice = some sl ∧ sl.thread = none
      ∧ sl.mode = .user ∧ sl.rec? l = none ∧ l < 4)
    ∧ (∃ (s : State) (pa size : Nat) (data : List (BitVec 8)), reachable pa = true ∧ rangeFits pa size = true ∧ data.length = size
      ∧ pa % 128 + size ≤ 128 ∧ s.revoked pa = false ∧ s.poisoned pa size = false ∧ s.hidden = [] ∧ 0 < size)
    ∧ (∃ (s : State) (pa size : Nat), reachable pa = true ∧ rangeFits pa size = true ∧ s.poisoned pa size = true)
    ∧ (∃ (s : State) (pa : Nat) (e : Extent), s.extentAt pa = some e ∧ e.shared = true)
    ∧ (∃ (s : State) (pa : Nat) (e : Extent), s.extentAt pa = some e ∧ e.shared = false)
    ∧ (∃ (s : State) (port c : Nat), s.ports[port]? = some c)
    ∧ (∃ (s : State) (pa : Nat), s.scrubs pa = false) ∧ (∃ (s : State) (pa : Nat), s.scrubs pa = true ∧ inRange .hbm pa = true)
    ∧ (∃ (s : State) (pa : Nat), s.scrubs pa = true ∧ inRange .spad pa = true)
    ∧ (∃ (s : State) (d : Nat) (L : Launch) (c : Nat), d < 4 ∧ s.mgmt.fenced.getLsbD d = false ∧ L ∈ s.launches ∧ L.counted = false
      ∧ L.home = some c ∧ c / 2 = d)
    ∧ (∃ (s : State) (d : Nat), d < 4 ∧ s.mgmt.fenced.getLsbD d = true)
    ∧ ∃ (s : State) (d : Nat), d < 4 ∧ s.mgmt.fenced.getLsbD d = false := by
  refine ⟨⟨imported, 0, 4095, 0xFFFFFFFF, 0x78, 8, by decide, by decide +kernel, Or.inl (by decide +kernel), by decide +kernel,
      by decide +kernel, by decide +kernel, by decide +kernel, rfl, by decide +kernel, by decide +kernel, by decide +kernel,
      by decide +kernel⟩,
    ⟨{ imported with poison := [0x400000] }, 0, 4095, 0xFFFFFFFF, 0, 8, by decide, by decide +kernel, Or.inl (by decide +kernel),
      by decide +kernel, by decide +kernel, by decide +kernel, by decide +kernel⟩,
    ⟨imported, 4095, 0xFFFFFFFF, 0x79, 8, by decide, by decide +kernel, by decide +kernel, by decide +kernel⟩,
    ⟨{ one (slice 0) with pend := [pending { loadAcc with lanes := [3] } (.peer [])] }, 7, 3, pending { loadAcc with lanes := [3] } (.peer []),
      { loadAcc with lanes := [3] }, [], team [slice 0], slice 0, rfl, rfl, rfl, by decide, by decide +kernel, rfl, rfl, rfl,
      by decide +kernel, by decide⟩,
    ⟨State.reset, 0x5FFFFFFFFF, 1, [7], by decide +kernel, by decide +kernel, rfl, by decide, by decide +kernel, by decide +kernel, rfl,
      by decide⟩,
    ⟨{ State.reset with poison := [0x5FFFFFFF80] }, 0x5FFFFFFFFF, 1, by decide +kernel, by decide +kernel, by decide +kernel⟩,
    ⟨tiered true false, 0x10003FFFFFFF, _, rfl, rfl⟩, ⟨tiered false false, 0x10003FFFFFFF, _, rfl, rfl⟩,
    ⟨State.reset, 3, 512, by decide +kernel⟩, ⟨State.reset, 0x080000000000, by decide +kernel⟩,
    ⟨State.reset, 0x5FFFFFFFFF, by decide +kernel, by decide +kernel⟩, ⟨State.reset, 0x01000FFFFFFF, by decide +kernel, by decide +kernel⟩,
    ⟨homed, 3, _, 6, by decide, by decide +kernel, List.mem_cons_self, rfl, rfl, by decide⟩,
    ⟨{ State.reset with mgmt := { State.reset.mgmt with fenced := 8 } }, 3, by decide, by decide +kernel⟩,
    ⟨State.reset, 3, by decide, by decide +kernel⟩⟩

/-- A request for the translation of the page at 0x10000, whose ATS entry has R and X. -/
def asked (w again pri : Bool) : AtsReq where
  die := 0
  asid := 1
  page := 0x10
  write := w
  entry := { page 0x10000 0 with w := false, ats := true }
  again := again
  pri := pri

/-- The package with that request outstanding; slice 0 waits for the page. -/
def hosted (q : AtsReq) : State :=
  { one (slice 0) with tlb := [], atsq := [q], pend := [pending { loadAcc with ea := 0x1007C } .ats] }

/-- The package with that request outstanding, and a command of slice 0 waiting to write the page. -/
def wanting (q : AtsReq) : State := { state (copying { copyCmd 128 with wants := [(0x10, .store)] }) [0] with atsq := [q] }

/-- The package with that request outstanding, and nothing waiting. -/
def asking (q : AtsReq) : State := { one (slice 0) with atsq := [q] }

theorem witness_HostTranslationResults :
    (∃ (s : State) (d asid page hpa log : Nat) (g r w : Bool) (q : AtsReq), s.atsReq? d asid page false = some q
      ∧ log = 12 ∧ g = true ∧ (if q.write then w = true else r = true) ∧ inHostWindow hpa (max 12 log) = true
      ∧ (s.pend.map (fun o => o.id)).Nodup
      ∧ (∀ op ∈ s.pend, ∀ y ∈ op.accs, s.waitsHost q op y.1 y.2 = true →
        y.1.need.granted r w = true ∧ (pieces 128 y.1.ea y.1.size).length = 1)
      ∧ (∀ x ∈ s.wanted d asid, q.serves x = true → x.2.granted r w = true)
      ∧ ∃ op ∈ s.pend, ∃ y ∈ op.accs, s.waitsHost q op y.1 y.2 = true)
    ∧ (∃ (s : State) (d asid page hpa log : Nat) (q : AtsReq), s.atsReq? d asid page false = some q
      ∧ (∀ op ∈ s.pend, ∀ y ∈ op.accs, y.2 ≠ .ats ∧ y.2 ≠ .walk) ∧ inHostWindow hpa (max 12 log) = false)
    ∧ (∃ (s : State) (d asid page : Nat) (q : AtsReq), s.atsReq? d asid page false = some q
      ∧ (∀ op ∈ s.pend, ∀ y ∈ op.accs, y.2 ≠ .ats ∧ y.2 ≠ .walk) ∧ q.again = false ∧ (∀ x ∈ s.atsq, x.die = d → x.pri = false))
    ∧ (∃ (s : State) (d asid page hpa log : Nat) (g r w : Bool) (q : AtsReq), s.atsReq? d asid page false = some q
      ∧ (∀ op ∈ s.pend, ∀ y ∈ op.accs, y.2 ≠ .ats ∧ y.2 ≠ .walk)
      ∧ ¬ (g = true ∧ (if q.write then w = true else r = true)) ∧ q.again = true ∧ inHostWindow hpa (max 12 log) = true
      ∧ ∃ z c m, s.team? 1 = some z ∧ z.asid = asid ∧ dieOf z.core = d ∧ z.cmds = [c] ∧ (page, m) ∈ c.wants ∧ m.writes = q.write
        ∧ m.granted r w = false)
    ∧ (∃ (s : State) (d asid page : Nat) (q : AtsReq), s.atsReq? d asid page true = some q ∧ q ∈ s.priOut d)
    ∧ (∃ (s : State) (d asid page : Nat) (q : AtsReq) (op : PendOp) (a : Acc) (x : Team) (sl : Slice) (i : Instr),
      s.atsReq? d asid page true = some q ∧ q ∈ s.priOut d ∧ s.pend = [op] ∧ op.accs = [(a, .ats)]
      ∧ s.waitsHost q op a .ats = true ∧ s.team? op.team = some x ∧ x.slice? op.slice = some sl ∧ sl.thread = none
      ∧ sl.mode = .user ∧ (i = .pageResponse d asid page false ∨ i = .priTimeout d asid page) ∧ ∃ n ∈ a.lanes, n < 4 ∧ sl.rec? n = none)
    ∧ (∃ (s : State) (n : Nat) (v : Inval), s.invals.find? (fun i => i.id == n) = some v ∧ (∀ op ∈ s.pend, op.id ∉ v.ops)
      ∧ ∀ c ∈ s.liveCmds, c ∉ v.cmds)
    ∧ (∃ (s : State) (n : Nat) (v : Inval), s.invals.find? (fun i => i.id == n) = some v ∧ ∃ op ∈ s.pend, op.id ∈ v.ops)
    ∧ ∃ (s : State) (n : Nat) (v : Inval), s.invals.find? (fun i => i.id == n) = some v ∧ ∃ c ∈ s.liveCmds, c ∈ v.cmds := by
  refine ⟨⟨hosted (asked false false false), 0, 1, 0x10, 0x7FFFFFFF000, 12, true, true, false, asked false false false, by decide +kernel,
      rfl, rfl, rfl, by decide +kernel, by decide +kernel, by decide +kernel, by decide +kernel, by decide +kernel⟩,
    ⟨asking (asked false false false), 0, 1, 0x10, 0x80000000000, 12, asked false false false, by decide +kernel, by decide +kernel,
      by decide +kernel⟩,
    ⟨asking (asked true false false), 0, 1, 0x10, asked true false false, by decide +kernel, by decide +kernel, rfl, by decide +kernel⟩,
    ⟨wanting (asked true true false), 0, 1, 0x10, 0, 12, true, true, false, asked true true false, by decide +kernel, by decide +kernel,
      by decide, rfl, by decide +kernel, _, _, .store, rfl, rfl, by decide, rfl, by decide, by decide, by decide⟩,
    ⟨asking (asked true false true), 0, 1, 0x10, asked true false true, by decide +kernel, by decide +kernel⟩,
    ⟨hosted (asked false false true), 0, 1, 0x10, asked false false true, pending { loadAcc with ea := 0x1007C } .ats,
      { loadAcc with ea := 0x1007C }, team [slice 0], slice 0, .priTimeout 0 1 0x10, by decide +kernel, by decide +kernel, rfl, rfl,
      by decide +kernel, by decide +kernel, rfl, rfl, rfl, Or.inr rfl, 0, by decide, by decide, by decide +kernel⟩,
    ⟨{ State.reset with invals := [{ id := 4, pasid := 5, ops := [7], cmds := [9] }] }, 4, _, rfl, by decide +kernel, by decide +kernel⟩,
    ⟨{ hosted (asked false false true) with invals := [{ id := 4, pasid := 5, ops := [7], cmds := [] }] }, 4, _, rfl, by decide +kernel⟩,
    ⟨{ state (copying (copyCmd 128)) [0] with invals := [{ id := 4, pasid := 5, ops := [], cmds := [9] }] }, 4, _, rfl, by decide +kernel⟩⟩

/-! ### Checkpoints and firmware -/

/-- The package with that job, and the teams `l` on core 0. -/
def jobbed (l : List Team) (st : Option Stream) : State := { tiered false false with teams := l, jobs := [job st] }

theorem tier_stands (l : List Team) (st : Option Stream) (m : Nat) (h : 0x100000000000 ≤ m) (h' : m < 0x100040000000) :
    (jobbed l st).revoked m = false := by
  have e : (jobbed l st).extentAt m = (tiered false false).extents.head? := by
    simp only [State.extentAt, jobbed, tiered, List.find?, List.head?]
    rw [decide_eq_true h, decide_eq_true (show m < 0x100000000000 + 0x40000000 by omega)]
    rfl
  simp only [State.revoked, e]
  rfl

theorem witness_CheckpointResults :
    (∃ (s : State) (p n : Nat) (j : Job), s.job? p n = some j ∧ j.based = true ∧ j.stream = none ∧ s.mgmt.st = 2
      ∧ (j.region + j.used + 4095) / 4096 * 4096 + 128 ≤ j.region + j.bytes
      ∧ s.revoked ((j.region + j.used + 4095) / 4096 * 4096) = false ∧ ∀ L ∈ s.launches, L.waiters = [])
    ∧ (∃ (s : State) (p n core : Nat) (j : Job) (st : Stream), s.job? p n = some j ∧ j.stream = some st ∧ core ∈ st.toArm
      ∧ core ∉ st.arming ∧ (s.teams.map (fun z => z.uid)).Nodup
      ∧ (∃ z ∈ s.teams, z.core = core ∧ z.part = p ∧ z.record.job = n ∧ z.record.track = true)
      ∧ ∀ z ∈ s.teams, z.core = core ∧ z.part = p ∧ z.record.job = n ∧ z.record.track = true → z.st = .running ∧ z.halt = none)
    ∧ (∃ (s : State) (p n core : Nat) (j : Job) (st : Stream), s.job? p n = some j ∧ j.stream = some st ∧ core ∈ st.toArm
      ∧ core ∉ st.arming ∧ (s.teams.map (fun z => z.uid)).Nodup
      ∧ ∀ z ∈ s.teams, ¬ (z.core = core ∧ z.part = p ∧ z.record.job = n ∧ z.record.track = true))
    ∧ (∃ (s : State) (p n : Nat) (j : Job), s.job? p n = some j ∧ j.based = true ∧ ∀ st, j.stream = some st → st.toArm = [])
    ∧ (∃ (s : State) (p n : Nat) (j : Job) (st : Stream) (c : Commit) (i : Item), s.nextItem p n = some (j, st, c, i)
      ∧ (∀ op ∈ s.pend, ∀ y ∈ op.accs, y.2 ≠ .ceil) ∧ (∀ z ∈ s.teams, z.deadlocked = false)
      ∧ (∀ m, .sector m ∈ st.todo → s.cutPoisoned st m = false) ∧ (st.base + st.bytes.length + (s.itemBytes st c i).length + 63) / 64 * 64 + 64 ≤ j.region + j.bytes
      ∧ ∀ m, st.base + st.bytes.length ≤ m → m ≤ st.base + st.bytes.length + (s.itemBytes st c i).length → s.revoked m = false)
    ∧ (∃ (s : State) (p n : Nat) (j : Job) (st : Stream) (c : Commit), s.job? p n = some j ∧ j.stream = some st ∧ st.cut = some c
      ∧ st.todo = [] ∧ s.revoked ((st.base + st.bytes.length + 63) / 64 * 64) = false)
    ∧ ∃ (s : State) (p n : Nat) (j : Job) (l : List Nat), s.saved = [] ∧ s.launches = [] ∧ s.job? p n = some j ∧ j.status % 32 = 0 ∧ s.revoked j.status = false
      ∧ s.revoked (j.status + 24) = false ∧ l.Nodup
      ∧ (∀ a, a ∈ l ↔ tracks (s.maps p j.asid) a = true ∧ (a ∈ j.dirty ∨ ∃ st, j.stream = some st ∧ a ∈ st.marks)) := by
  have hc : State.itemBytes (jobbed [] (some (interval [] (some (committed [])) [.mapping 0x20000]))) (interval [] (some (committed [])) [.mapping 0x20000]) (committed []) (.mapping 0x20000)
      = itemRecord 8 0x20000 (bytesOfNat 16 0) := by decide +kernel
  refine ⟨⟨jobbed [] none, 0, 0, _, rfl, rfl, rfl, rfl, by decide, tier_stands _ _ _ (by decide) (by decide), by decide +kernel⟩,
    ⟨jobbed [tracked] (some (interval [0] none [])), 0, 0, 0, _, interval [0] none [], rfl, rfl, by decide, by decide, by decide +kernel,
      by decide +kernel, by decide +kernel⟩,
    ⟨jobbed [team [slice 0]] (some (interval [0] none [])), 0, 0, 0, _, interval [0] none [], rfl, rfl, by decide, by decide,
      by decide +kernel, by decide +kernel⟩,
    ⟨jobbed [] (some (interval [] (some (committed [])) [])), 0, 0, _, rfl, rfl, by rintro st ⟨⟩; rfl⟩,
    ⟨jobbed [] (some (interval [] (some (committed [])) [.mapping 0x20000])), 0, 0, _, interval [] (some (committed [])) [.mapping 0x20000],
      committed [], .mapping 0x20000, rfl, (by intro op h; cases h), (by intro z h; cases h), fun m h => absurd (show Item.sector m ∈ [Item.mapping 0x20000] from h) (by simp), by rw [hc]; decide +kernel, fun m h1 h2 => tier_stands _ _ _ ?_ ?_⟩,
    ⟨jobbed [] (some (interval [] (some (committed [])) [])), 0, 0, _, interval [] (some (committed [])) [], committed [], rfl, rfl, rfl, rfl,
      tier_stands _ _ _ (by decide +kernel) (by decide +kernel)⟩,
    ⟨{ jobbed [] (some (interval [] none [])) with mem := [], launches := [] }, 0, 0, _, [], rfl, rfl, rfl, by decide, by decide +kernel, by decide +kernel, by decide, ?_⟩⟩
  · rw [hc] at h2
    exact Nat.le_trans (by decide +kernel) h1
  · rw [hc] at h2
    exact Nat.lt_of_le_of_lt h2 (by decide +kernel)
  · intro a
    have h : tracks ([], []) a = false := rfl
    have e : State.maps { jobbed [] (some (interval [] none [])) with mem := [], launches := [] } 0 1 = ([], []) := by decide +kernel
    rw [show (job (some (interval [] none []))).asid = 1 from rfl, e, h]
    simp

/-- The package whose partition 0 has no leaf but an empty root table, and a job with a region. -/
def based (l : List Team) : State := { jobbed l none with mem := (jobbed l none).mem.setNat 0x101000 8 0 }

/-- Bring-up and the calls of a partition. -/
theorem witness_FirmwareCallResults_partitions :
    (∃ (s : State), s.calling 0x01 = true ∧ s.parts.length = 16 ∧ s.arg 0 = 16)
    ∧ (∃ (s : State), s.calling 0x01 = true ∧ s.parts.length = 16 ∧ s.arg 0 < 16 ∧ s.arg 1 < 256 ∧ s.arg 6 < 2 ^ 32
      ∧ s.arg 6 % 2 ^ 16 + s.arg 6 / 2 ^ 16 ≤ 2 ^ 16 ∧ (s.part (s.arg 0)).assigned = true)
    ∧ (∃ (s : State) (runs : List (Nat × Nat)), s.calling 0x01 = true ∧ s.parts.length = 16 ∧ s.arg 0 < 16 ∧ s.arg 1 < 256
      ∧ s.arg 6 < 2 ^ 32 ∧ s.arg 6 % 2 ^ 16 + s.arg 6 / 2 ^ 16 ≤ 2 ^ 16 ∧ (s.part (s.arg 0)).assigned = false
      ∧ s.ownedElsewhere (s.arg 1) (s.arg 6 % 2 ^ 16) (s.arg 6 / 2 ^ 16) = false
      ∧ s.freeRuns [(0, s.arg 2), (1, s.arg 3), (2, s.arg 4), (3, s.arg 5)] = some runs)
    ∧ (∃ (s : State), s.calling 0x02 = true ∧ s.parts.length = 16 ∧ s.arg 0 < 16 ∧ (∀ z ∈ s.teams, z.part ≠ s.arg 0) ∧ s.saved = []
      ∧ s.arg 1 = 0x000 ∧ s.arg 2 + 2 ^ 64 * s.arg 3 + 2 ^ 128 * s.arg 4 + 2 ^ 192 * s.arg 5 = 2 ^ 64 - 1)
    ∧ (∃ (s : State), s.calling 0x02 = true ∧ s.parts.length = 16 ∧ s.arg 0 < 16 ∧ (∀ z ∈ s.teams, z.part ≠ s.arg 0) ∧ s.saved = []
      ∧ s.arg 1 = 0x018 ∧ s.arg 2 + 2 ^ 64 * s.arg 3 + 2 ^ 128 * s.arg 4 + 2 ^ 192 * s.arg 5 = 2 ^ 64 - 4096)
    ∧ (∃ (s : State), s.calling 0x02 = true ∧ s.parts.length = 16 ∧ s.arg 0 < 16 ∧ (∀ z ∈ s.teams, z.part ≠ s.arg 0) ∧ s.saved = []
      ∧ s.arg 1 = 0x020 ∧ s.arg 2 + 2 ^ 64 * s.arg 3 + 2 ^ 128 * s.arg 4 + 2 ^ 192 * s.arg 5 = 16)
    ∧ (∃ (s : State), s.calling 0x02 = true ∧ s.parts.length = 16 ∧ s.arg 0 < 16 ∧ (∀ z ∈ s.teams, z.part ≠ s.arg 0) ∧ s.saved = []
      ∧ s.arg 1 = 0x030)
    ∧ (∃ (s : State), s.calling 0x02 = true ∧ s.parts.length = 16 ∧ s.arg 0 < 16 ∧ (∀ z ∈ s.teams, z.part ≠ s.arg 0) ∧ s.saved = []
      ∧ s.arg 1 = 0x050)
    ∧ (∃ (s : State), s.calling 0x02 = true ∧ s.parts.length = 16 ∧ s.arg 0 < 16 ∧ (∀ z ∈ s.teams, z.part ≠ s.arg 0) ∧ s.saved = []
      ∧ s.arg 1 = 0x008 ∧ s.arg 2 + 2 ^ 64 * s.arg 3 + 2 ^ 128 * s.arg 4 + 2 ^ 192 * s.arg 5 = 2 ^ 64 - 256
      ∧ canonical (2 ^ 64 - 256) = true)
    ∧ (∃ (s : State), s.calling 0x02 = true ∧ s.parts.length = 16 ∧ s.arg 0 < 16 ∧ (∀ z ∈ s.teams, z.part ≠ s.arg 0) ∧ s.saved = []
      ∧ s.arg 1 = 0x070 ∧ s.arg 2 + 2 ^ 64 * s.arg 3 + 2 ^ 128 * s.arg 4 + 2 ^ 192 * s.arg 5 = 2 ^ 64 - 4096 + 7)
    ∧ (∃ (s : State), s.calling 0x02 = true ∧ s.parts.length = 16 ∧ s.arg 0 < 16 ∧ (∀ z ∈ s.teams, z.part ≠ s.arg 0) ∧ s.saved = []
      ∧ s.arg 1 = 0x070 ∧ s.arg 2 + 2 ^ 64 * s.arg 3 + 2 ^ 128 * s.arg 4 + 2 ^ 192 * s.arg 5 = 16)
    ∧ (∃ (s : State), s.calling 0x02 = true ∧ s.parts.length = 16 ∧ s.arg 0 < 16 ∧ (∀ z ∈ s.teams, z.part ≠ s.arg 0) ∧ s.saved = []
      ∧ s.arg 1 ∉ [0x000, 0x008, 0x018, 0x020, 0x030, 0x050, 0x070])
    ∧ (∃ (s : State), s.calling 0x02 = true ∧ s.parts.length = 16 ∧ s.arg 0 < 16 ∧ s.arg 1 = 0x030 ∧ ∃ z ∈ s.teams, z.part = s.arg 0)
    ∧ (∃ (s : State), s.parts.length = 16 ∧ s.arg 0 < 16 ∧ s.calling 0x03 = true)
    ∧ (∃ (s : State), s.parts.length = 16 ∧ s.arg 0 < 16 ∧ s.calling 0x04 = true)
    ∧ (∃ (s : State), s.parts.length = 16 ∧ s.arg 0 < 16 ∧ s.calling 0x05 = true ∧ s.arg 1 % 65536 = 0 ∧ s.arg 2 % 65536 = 0
      ∧ inRange .hbm (s.arg 1) = true ∧ (s.part (s.arg 0)).resv ≠ [])
    ∧ (∃ (s : State), s.parts.length = 16 ∧ s.arg 0 < 16 ∧ s.calling 0x05 = true ∧ s.arg 1 % 65536 = 0 ∧ s.arg 2 % 65536 = 0
      ∧ inRange .hbm (s.arg 1) = true ∧ (s.part (s.arg 0)).resv = [] ∧ rangeFits (s.arg 1) (s.arg 2) = true
      ∧ ∀ m r, m < 16 → m ≠ s.arg 0 → r ∈ (s.part m).owned → runsMeet (s.arg 1, s.arg 2 / 65536) r = false)
    ∧ (∃ (s : State), s.parts.length = 16 ∧ s.arg 0 < 16 ∧ s.calling 0x05 = true ∧ s.arg 1 % 65536 = 0 ∧ s.arg 2 % 65536 = 0
      ∧ inRange .hbm (s.arg 1) = true ∧ (s.part (s.arg 0)).resv = [] ∧ rangeFits (s.arg 1) (s.arg 2) = true
      ∧ ∃ m r, m < 16 ∧ m ≠ s.arg 0 ∧ r ∈ (s.part m).owned ∧ runsMeet (s.arg 1, s.arg 2 / 65536) r = true)
    ∧ ∃ (s : State), s.parts.length = 16 ∧ s.arg 0 < 16 ∧ s.calling 0x05 = true ∧ s.arg 1 % 65536 = 0 ∧ s.arg 2 % 65536 = 0
      ∧ inRange .hbm (s.arg 1) = true ∧ (s.part (s.arg 0)).resv = [] ∧ rangeFits (s.arg 1) (s.arg 2) = false :=
  ⟨⟨called State.reset 1 true [16], by decide +kernel, by decide +kernel, by decide +kernel⟩,
    ⟨called (one (slice 0)) 1 true [0], by decide +kernel, by decide +kernel, by decide +kernel, by decide +kernel, by decide +kernel, by decide +kernel, by decide +kernel⟩,
    ⟨called State.reset 1 true [15, 0xFF, 0x180000, 0, 0, 2, 0xFFFE0002], [(0, 0x180000), (0x4800000000, 2)], by decide +kernel, by decide +kernel, by decide +kernel, by decide +kernel, by decide +kernel, by decide +kernel, by decide +kernel, by decide +kernel, by decide +kernel⟩,
    ⟨called State.reset 2 true [15, 0, 0xFFFFFFFFFFFFFFFF], by decide +kernel, by decide +kernel, by decide +kernel, by decide +kernel, by decide +kernel, by decide +kernel, by decide +kernel⟩,
    ⟨called State.reset 2 true [15, 0x18, 0xFFFFFFFFFFFFF000], by decide +kernel, by decide +kernel, by decide +kernel, by decide +kernel, by decide +kernel, by decide +kernel, by decide +kernel⟩,
    ⟨called State.reset 2 true [15, 0x20, 16], by decide +kernel, by decide +kernel, by decide +kernel, by decide +kernel, by decide +kernel, by decide +kernel, by decide +kernel⟩,
    ⟨called State.reset 2 true [15, 0x30, 1], by decide +kernel, by decide +kernel, by decide +kernel, by decide +kernel, by decide +kernel, by decide +kernel⟩,
    ⟨called State.reset 2 true [15, 0x50, 1], by decide +kernel, by decide +kernel, by decide +kernel, by decide +kernel, by decide +kernel, by decide +kernel⟩,
    ⟨called State.reset 2 true [15, 8, 0xFFFFFFFFFFFFFF00], by decide +kernel, by decide +kernel, by decide +kernel, by decide +kernel, by decide +kernel, by decide +kernel, by decide +kernel, by decide +kernel⟩,
    ⟨called State.reset 2 true [15, 0x70, 0xFFFFFFFFFFFFF007], by decide +kernel, by decide +kernel, by decide +kernel, by decide +kernel, by decide +kernel, by decide +kernel, by decide +kernel⟩,
    ⟨called State.reset 2 true [15, 0x70, 16], by decide +kernel, by decide +kernel, by decide +kernel, by decide +kernel, by decide +kernel, by decide +kernel, by decide +kernel⟩,
    ⟨called State.reset 2 true [15, 0x78, 16], by decide +kernel, by decide +kernel, by decide +kernel, by decide +kernel, by decide +kernel, by decide +kernel⟩,
    ⟨called (one (slice 0)) 2 true [0, 0x30, 1], by decide +kernel, by decide +kernel, by decide +kernel, by decide +kernel, by decide +kernel⟩,
    ⟨called (one (slice 0)) 3 true [0], by decide +kernel, by decide +kernel, by decide +kernel⟩,
    ⟨called (one (slice 0)) 4 true [0], by decide +kernel, by decide +kernel, by decide +kernel⟩,
    ⟨called (State.reset.setPart 15 (fun q => { q with resv := [(1, 0, 128)] })) 5 true [15, 0x10000, 0x10000], by decide +kernel, by decide +kernel, by decide +kernel, by decide +kernel, by decide +kernel, by decide +kernel, by decide +kernel⟩,
    ⟨called State.reset 5 true [15, 0x5FFFFF0000, 0x10000], by decide +kernel, by decide +kernel, by decide +kernel, by decide +kernel, by decide +kernel, by decide +kernel, by decide +kernel, by decide +kernel,
      fun m r h _ h' => by
        rw [(by decide +kernel : ∀ m, m < 16 → ((called State.reset 5 true [15, 0x5FFFFF0000, 0x10000]).part m).owned = []) m h] at h'
        cases h'⟩,
    ⟨called (State.reset.setPart 14 (fun q => { q with frames := [(0x5FFFFF0000, 1)] })) 5 true [15, 0x5FFFFE0000, 0x20000],
      by decide +kernel, by decide +kernel, by decide +kernel, by decide +kernel, by decide +kernel, by decide +kernel, by decide +kernel, by decide +kernel, 14, (0x5FFFFF0000, 1), by decide, by decide +kernel,
      by decide +kernel, by decide +kernel⟩,
    ⟨called State.reset 5 true [15, 0x5FFFFF0000, 0x20000], by decide +kernel, by decide +kernel, by decide +kernel, by decide +kernel, by decide +kernel, by decide +kernel, by decide +kernel, by decide +kernel⟩⟩

/-- The calls of the links and of the tier. -/
theorem witness_FirmwareCallResults_links :
    (∃ (s : State), s.calling 0x10 = true ∧ s.arg 0 < 2048 ∧ bits (s.arg 1) 15 12 = 0 ∧ s.arg 2 < 8)
    ∧ (∃ (s : State), s.calling 0x10 = true ∧ 2048 ≤ s.arg 0)
    ∧ (∃ (s : State), s.calling 0x11 = true ∧ s.arg 0 < 4096 ∧ s.arg 1 < 2 ^ 52 ∧ s.arg 1 % 2 ^ 16 = 0 ∧ s.arg 2 % 65536 = 0
      ∧ s.arg 3 % 2 ^ 16 < 16 ∧ s.arg 4 < 8 ∧ inRange .hbm (s.arg 1) = true ∧ rangeFits (s.arg 1) (s.arg 2) = true)
    ∧ (∃ (s : State), s.calling 0x11 = true ∧ s.arg 0 < 4096 ∧ s.arg 1 < 2 ^ 52 ∧ s.arg 1 % 2 ^ 16 = 0 ∧ s.arg 2 % 65536 = 0
      ∧ s.arg 3 % 2 ^ 16 < 16 ∧ s.arg 4 < 8 ∧ inRange .spad (s.arg 1) = true ∧ rangeFits (s.arg 1) (s.arg 2) = true)
    ∧ (∃ (s : State), s.calling 0x11 = true ∧ inRange .hbm (s.arg 1) = false ∧ inRange .spad (s.arg 1) = false)
    ∧ (∃ (s : State), s.calling 0x11 = true ∧ 4096 ≤ s.arg 0)
    ∧ (∃ (s : State), s.calling 0x12 = true ∧ s.arg 0 < 12)
    ∧ (∃ (s : State), s.calling 0x12 = true ∧ 12 ≤ s.arg 0)
    ∧ (∃ (s : State) (port : Nat), s.calling 0x12 = true ∧ port ∈ s.quiesce)
    ∧ (∃ (s : State), s.calling 0x20 = true ∧ s.arg 0 < 2 ^ 18 ∧ bits (s.arg 0) 15 10 = 0
      ∧ (s.arg 3 / 2 ^ 16 = 1 ∨ ∃ k, k < 16 ∧ s.arg 3 = 2 ^ k) ∧ s.arg 1 % 2 ^ 30 = 0 ∧ s.arg 2 % 2 ^ 30 = 0 ∧ 0 < s.arg 2
      ∧ rangeFits (s.arg 1) (s.arg 2) = true ∧ inRange .tier (s.arg 1) = true
      ∧ ∀ e ∈ s.extents, e.index ≠ s.arg 0 % 1024 ∧ (s.arg 1 + s.arg 2 ≤ e.base ∨ e.base + e.bytes ≤ s.arg 1))
    ∧ (∃ (s : State), s.calling 0x20 = true ∧ s.arg 1 % 2 ^ 30 ≠ 0)
    ∧ (∃ (s : State) (e : Extent), s.calling 0x21 = true ∧ s.extents.find? (fun x => x.index == s.arg 0) = some e)
    ∧ (∃ (s : State), s.calling 0x21 = true ∧ ∀ e ∈ s.extents, e.index ≠ s.arg 0)
    ∧ (∃ (s : State) (k : Nat) (e : Extent), s.extents.find? (fun x => x.index == k && x.revoked) = some e ∧ s.calling 0x21 = true)
    ∧ ∃ (s : State), s.calling 0x30 = true ∧ inRange .host (0x080000000000 + s.arg 0) = true
      ∧ rangeFits (0x080000000000 + s.arg 0) (s.arg 1) = true :=
  ⟨⟨called State.reset 0x10 true [2047, 0xFFFFFFFFFFFF0FFF, 7], by decide +kernel, by decide +kernel, by decide +kernel, by decide +kernel⟩,
    ⟨called State.reset 0x10 true [2048], by decide +kernel, by decide +kernel⟩,
    ⟨called State.reset 0x11 true [4095, 0x5FFFFF0000, 0x10000, 0xFFFFFFFFFFFF000F, 7], by decide +kernel, by decide +kernel, by decide +kernel, by decide +kernel, by decide +kernel, by decide +kernel, by decide +kernel, by decide +kernel, by decide +kernel⟩,
    ⟨called State.reset 0x11 true [4095, 0x01000FFF0000, 0x10000, 0xFFFFFFFFFFFF000F, 7], by decide +kernel, by decide +kernel, by decide +kernel, by decide +kernel, by decide +kernel, by decide +kernel, by decide +kernel, by decide +kernel, by decide +kernel⟩,
    ⟨called State.reset 0x11 true [4095, 0xFFFFFFFFF0000, 0x10000, 0xFFFFFFFFFFFF000F, 7], by decide +kernel, by decide +kernel, by decide +kernel⟩,
    ⟨called State.reset 0x11 true [4096], by decide +kernel, by decide +kernel⟩,
    ⟨called State.reset 0x12 true [11], by decide +kernel, by decide +kernel⟩,
    ⟨called State.reset 0x12 true [12], by decide +kernel, by decide +kernel⟩,
    ⟨{ called State.reset 0x12 true [11] with quiesce := [11] }, 11, by decide +kernel, by decide +kernel⟩,
    ⟨called (tiered false false) 0x20 true [0x30000, 0x100040000000, 0x6FFFC0000000, 0x8000], by decide +kernel, by decide +kernel, by decide +kernel, Or.inr ⟨15, by decide +kernel, by decide +kernel⟩, by decide +kernel, by decide +kernel, by decide +kernel, by decide +kernel, by decide +kernel, by decide +kernel⟩,
    ⟨called State.reset 0x20 true [0, 0x100000010000], by decide +kernel, by decide +kernel⟩,
    ⟨called (tiered false false) 0x21 true [1023], _, by decide +kernel, rfl⟩,
    ⟨called (tiered false false) 0x21 true [1022], by decide +kernel, by decide +kernel⟩,
    ⟨called (tiered false true) 0x21 true [1023], 1023, _, rfl, by decide +kernel⟩,
    ⟨called State.reset 0x30 true [0x7FFFFFFFFF8, 8], by decide +kernel, by decide +kernel, by decide +kernel⟩⟩

/-- The calls of firmware, of spare cores and of jobs. -/
theorem witness_FirmwareCallResults_package :
    (∃ (s : State), s.calling 0x30 = true ∧ inRange .host (0x080000000000 + s.arg 0) = true
      ∧ rangeFits (0x080000000000 + s.arg 0) (s.arg 1) = false)
    ∧ (∃ (s : State), s.calling 0x30 = true ∧ inRange .host (0x080000000000 + s.arg 0) = false)
    ∧ (∃ (s : State), s.calling 0x31 = true ∧ s.staged = none)
    ∧ (∃ (s : State) (b : List Byte), s.calling 0x31 = true ∧ s.staged = some b)
    ∧ (∃ (s : State) (b : List Byte), s.mgmt.go = true ∧ s.mgmt.code = 0x31 ∧ s.mgmt.st = 4 ∧ s.staged = some b)
    ∧ (∃ (s : State), s.calling 0x32 = true ∧ s.arg 0 < 3 ∧ inRange .host (0x080000000000 + s.arg 1) = true
      ∧ rangeFits (0x080000000000 + s.arg 1) (s.arg 2) = true)
    ∧ (∃ (s : State), s.calling 0x33 = true ∧ s.arg 0 < 512 ∧ s.arg 1 < 512 ∧ s.arg 0 ≠ s.arg 1 ∧ dieOf (s.arg 0) = dieOf (s.arg 1)
      ∧ (∀ p, p < 16 → s.owns p (s.arg 1) = false) ∧ (∀ r ∈ s.retired, r.1 ≠ s.arg 1 ∧ r.2 ≠ s.arg 1 ∧ r.1 ≠ s.arg 0)
      ∧ ∀ z ∈ s.teams, z.core ≠ s.arg 0)
    ∧ (∃ (s : State), s.calling 0x33 = true ∧ 512 ≤ s.arg 0 ∧ s.arg 0 < 1024 ∧ 512 ≤ s.arg 1 ∧ s.arg 1 < 1024
      ∧ s.arg 0 % 512 / 64 ≠ s.arg 1 % 512 / 64 ∧ s.arg 0 % 512 / 64 / 2 = s.arg 1 % 512 / 64 / 2
      ∧ (∀ i, i < 64 → (∀ p, p < 16 → s.owns p (64 * (s.arg 1 % 512 / 64) + i) = false)
        ∧ ∀ r ∈ s.retired, r.1 ≠ 64 * (s.arg 1 % 512 / 64) + i ∧ r.2 ≠ 64 * (s.arg 1 % 512 / 64) + i
          ∧ r.1 ≠ 64 * (s.arg 0 % 512 / 64) + i)
      ∧ ∀ z ∈ s.teams, z.core / 64 ≠ s.arg 0 % 512 / 64)
    ∧ (∃ (s : State), s.calling 0x40 = true ∧ s.arg 0 < 2 ^ 20 ∧ s.arg 1 % 4096 = 0 ∧ s.arg 2 % 4096 = 0 ∧ s.arg 3 % 32 = 0
      ∧ s.statusOk (s.arg 0 / 2 ^ 16) (s.arg 3) = true ∧ s.regionOk (s.arg 0 / 2 ^ 16) (s.arg 1) (s.arg 2) = true)
    ∧ (∃ (s : State), s.calling 0x40 = true ∧ s.regionOk (s.arg 0 / 2 ^ 16) (s.arg 1) (s.arg 2) = false)
    ∧ (∃ (s s' : State), s.calling 0x41 = true ∧ s.arg 0 < 2 ^ 20 ∧ s.arg 1 < 2 ^ 16
      ∧ (s.ctxEntry (s.arg 0 / 2 ^ 16) (s.arg 1)).valid = true
      ∧ (∀ z ∈ s.teams, ¬ (z.part = s.arg 0 / 2 ^ 16 ∧ z.record.job = s.arg 0 % 2 ^ 16)) ∧ s.saved = []
      ∧ (∃ j, s.job? (s.arg 0 / 2 ^ 16) (s.arg 0 % 2 ^ 16) = some j ∧ j.stream = none)
      ∧ s.takeBase (s.arg 0 / 2 ^ 16) (s.arg 0 % 2 ^ 16) (s.arg 1) = some s')
    ∧ ∃ (s : State), s.calling 0x41 = true ∧ s.arg 0 < 2 ^ 20 ∧ s.arg 1 < 2 ^ 16
      ∧ s.job? (s.arg 0 / 2 ^ 16) (s.arg 0 % 2 ^ 16) = none :=
  ⟨⟨called State.reset 0x30 true [0x7FFFFFFFFF8, 9], by decide +kernel, by decide +kernel, by decide +kernel⟩,
    ⟨called State.reset 0x30 true [0x80000000000, 9], by decide +kernel, by decide +kernel⟩,
    ⟨called State.reset 0x31 true [], by decide +kernel, by decide +kernel⟩,
    ⟨{ called State.reset 0x31 true [] with staged := some [7] }, [7], by decide +kernel, rfl⟩,
    ⟨{ called State.reset 0x31 true [] with staged := some [7], mgmt := { (called State.reset 0x31 true []).mgmt with st := 4 } }, [7], rfl, rfl, rfl, rfl⟩,
    ⟨called State.reset 0x32 true [2, 0x1000, 64], by decide +kernel, by decide +kernel, by decide +kernel, by decide +kernel⟩,
    ⟨called (one (slice 0)) 0x33 true [384, 511], by decide +kernel, by decide +kernel, by decide +kernel, by decide +kernel, by decide +kernel, by decide +kernel, by decide +kernel, by decide +kernel⟩,
    ⟨called (one (slice 0)) 0x33 true [512 + 384, 1023], by decide +kernel, by decide +kernel, by decide +kernel, by decide +kernel, by decide +kernel, by decide +kernel, by decide +kernel, by decide +kernel, by decide +kernel⟩,
    ⟨called ((tiered false false).setPart 15 (fun q => { q with frames := [(0x900000, 1)] })) 0x40 true [0xFFFFF, 0x100000000000, 0x40000000, 0x900020], by decide +kernel, by decide +kernel, by decide +kernel, by decide +kernel, by decide +kernel, by decide +kernel, by decide +kernel⟩,
    ⟨called (tiered false false) 0x40 true [0, 0x100000000000, 0x40001000, 0x900020], by decide +kernel, by decide +kernel⟩,
    ⟨called (based []) 0x41 true [0, 1], _, by decide +kernel, by decide +kernel, by decide +kernel, by decide +kernel, by decide +kernel, by decide +kernel, ⟨job none, by decide +kernel, rfl⟩, (Option.some_get (by decide +kernel)).symm⟩,
    ⟨called State.reset 0x41 true [0xFFFFF, 1], by decide +kernel, by decide +kernel, by decide +kernel, by decide +kernel⟩⟩

/-! ### Numbers, steps and memory -/

theorem witness_RoundingResults : ∃ (f : Fmt) (m : Nat) (e : Int) (K : Nat), f ∈ [f32, f16, bf16] ∧ 0 < m ∧ 0 ≤ e + K
    ∧ 0 ≤ f.emin - f.fb + K ∧ e + K = 0 := ⟨f32, 1, -150, 150, by decide, by decide, by decide, by decide, by decide⟩

theorem witness_DecodeEncode : ∃ (i : Instr) (w : Word), i.wf = true ∧ encode i = some w :=
  ⟨.imad (.v 8) (.v 2) (.s 9), 0x1020169B, by decide +kernel, by decide +kernel⟩

/-- Slice 0 in the open clause of one word, the sample `imad` of the spec. -/
def imadSlice : Slice := { slice 0 with longs := 0, code := [0x1020169B] }

/-- The package with core 0 to issue the next word of slice 0, as `sl`. -/
def issuing (sl : Slice) : State := { coded sl 0x1020169BF8000000 0 with cur := none, agenda := [.issue 0] }

theorem witness_StepRunsDecoded :
    (∃ (s : State) (i : Instr) (rest : List Act), s.mgmt.st ≠ 3 ∧ s.agenda = .event i :: rest)
    ∧ (∃ (s : State) (a : Act) (rest : List Act), s.mgmt.st ≠ 3 ∧ s.agenda = a :: rest ∧ (∀ i, a ≠ .event i) ∧ ∀ c, a ≠ .issue c)
    ∧ (∃ (s : State) (core : Nat) (rest : List Act) (x : Team) (b : SubCrew) (sl : Slice) (w : Word) (i : Instr), s.mgmt.st ≠ 3
      ∧ s.agenda = .issue core :: rest ∧ (({ s with agenda := rest } : State).forIssue core).nextSub core = some (x, b)
      ∧ (({ s with agenda := rest } : State).forIssue core).team? x.uid = some x
      ∧ (∀ k ∈ b.members, (({ s with agenda := rest } : State).forIssue core).uiDue x.uid k = false)
      ∧ x.slice? (b.members.headD 0) = some sl ∧ sl.opened = true ∧ sl.code[sl.ix]? = some w
      ∧ isHeader w = (!sl.opened) ∧ decode w = .ok i)
    ∧ (∃ (s : State) (core : Nat) (rest : List Act) (x : Team) (b : SubCrew) (sl : Slice) (w : Word) (i : Instr), s.mgmt.st ≠ 3
      ∧ s.agenda = .issue core :: rest ∧ (({ s with agenda := rest } : State).forIssue core).nextSub core = some (x, b)
      ∧ (({ s with agenda := rest } : State).forIssue core).team? x.uid = some x
      ∧ (∀ k ∈ b.members, (({ s with agenda := rest } : State).forIssue core).uiDue x.uid k = false)
      ∧ x.slice? (b.members.headD 0) = some sl ∧ sl.opened = false
      ∧ (({ s with agenda := rest } : State).forIssue core).HeldWord x (sl.mode == .supervisor)
          ((({ s with agenda := rest } : State).forIssue core).codeBase x sl + sl.hdr) w
      ∧ isHeader w = (!sl.opened) ∧ decode w = .ok i)
    ∧ (∃ s : State, s.mgmt.st ≠ 3 ∧ s.agenda = [] ∧ s.acts = [])
    ∧ (∃ s : State, s.mgmt.st ≠ 3 ∧ s.agenda = [] ∧ s.acts ≠ [])
    ∧ ∃ s : State, s.mgmt.st = 3 :=
  ⟨⟨{ State.reset with agenda := [.event (.islandPause 0)] }, _, _, by decide +kernel, rfl⟩,
    ⟨{ State.reset with agenda := [.reveal 0] }, _, _, by decide +kernel, rfl, by simp, by simp⟩,
    ⟨issuing imadSlice, 0, [], team [imadSlice], _, imadSlice, 0x1020169B, .imad (.v 8) (.v 2) (.s 9), by decide +kernel, rfl,
      (by decide +kernel : (({ issuing imadSlice with agenda := [] } : State).forIssue 0).nextSub 0 = some (team [imadSlice],
        { members := [0], entry := true, stalled := false, joined := false, seq := 0, wants := none, bad := [], accepted := none })),
      by decide +kernel, by decide +kernel, by decide +kernel, rfl, rfl, by decide +kernel, rfl⟩,
    ⟨issuing shut, 0, [], team [shut], _, shut, 0xF8000000, .clause 0 0 0 0 0, by decide +kernel, rfl,
      (by decide +kernel : (({ issuing shut with agenda := [] } : State).forIssue 0).nextSub 0 = some (team [shut],
        { members := [0], entry := true, stalled := false, joined := false, seq := 0, wants := none, bad := [], accepted := none })),
      by decide +kernel, by decide +kernel, by decide +kernel, rfl,
      ⟨by decide +kernel, page 0x10000 0x200000, by decide +kernel, by decide +kernel, by decide +kernel, by decide +kernel, by decide +kernel,
        by decide +kernel⟩, by decide +kernel, rfl⟩,
    ⟨{ called State.reset 0 false [] with master := some 0 }, by decide +kernel, rfl, by decide +kernel⟩, ⟨one (slice 0), by decide +kernel, rfl, by decide +kernel⟩,
    ⟨{ State.reset with mgmt := { State.reset.mgmt with st := 3 } }, rfl⟩⟩

theorem witness_MemoryStaysCanonical : ∃ (s t : State), s.mem.wf = true ∧ step s = .next t :=
  ⟨{ State.reset with agenda := [.event (.islandPause 0)] }, _, by decide +kernel, rfl⟩

theorem witness_DeviceWriteResults :
    (∃ (s : State) (a : Nat) (bs : List Byte), 0 < bs.length ∧ ∀ m, a ≤ m → m < a + bs.length → s.revoked m = false)
    ∧ ∃ (s : State) (a : Nat) (bs : List Byte) (e : Extent), (∀ m, a ≤ m → m < a + bs.length → s.revoked m = true) ∧ 0 < bs.length
      ∧ a % 128 + bs.length ≤ 128 ∧ s.extentAt a = some e := by
  refine ⟨⟨jobbed [] none, 0x10003FFFFFFF, [7], by decide, fun m h h' => tier_stands _ _ _ (by omega) (by simp at h'; omega)⟩,
    ⟨tiered false true, 0x10003FFFFFFF, [7], _, fun m h h' => ?_, by decide, by decide, rfl⟩⟩
  have : m = 0x10003FFFFFFF := by simp at h'; omega
  subst this
  decide +kernel

/-! ## Results the spec works out

Each test takes its words and its result from the spec: the rule named beside it. -/

/-- Slice 0 with vector registers `vs` holding a word in every lane and scalars `ss`. -/
def holding (vs : List (Nat × Word)) (ss : List (Nat × Word)) : Slice :=
  { vs.foldl (fun (sl : Slice) p => (List.range 4).foldl (fun (sl : Slice) l => sl.vset p.1 l p.2) sl) (slice 0) with sregs := ss }

/-- Whether an instruction completes on a slice that issues alone and leaves it as asked. -/
def leaves (i : Instr) (sl : Slice) (f : Slice → Bool) : Bool :=
  match exec i (one sl) with
  | .next t => (t.slice? 1 0).any f
  | .fault _ | .refused _ => false

/-- The lanes of `v4` of R216's example that lie in a crew of one, lane 2 outside the mask. -/
def lanes4 : Slice :=
  { ((((slice 0).vset 4 0 1).vset 4 1 2).vset 4 2 100).vset 4 3 4 with exec := 0b1011 }

/-- R161: the constant 0x12345678 in two words. -/
theorem test_movi : leaves (.movi (.s 7) 0x1678) (holding [] [(7, 5)]) (fun sl => sl.sget 7 == 0x1678) = true := by decide +kernel
theorem test_movhi : leaves (.movhi (.s 7) 0x48D1) (holding [] [(7, 0x1678)]) (fun sl => sl.sget 7 == 0x12345678) = true := by
  decide +kernel
/-- R196's example. -/
theorem test_bfe : leaves (.bfe (.v 8) (.v 2) (.v 3)) (holding [(2, 0xABCD1234), (3, 0x8C08)] []) (fun sl => sl.vget 8 3 == 0xFFFFFD12)
    = true := by decide +kernel
/-- R193: the difference is formed in 33 bits, and the sum wraps. -/
theorem test_isad : leaves (.isad (.v 8) (.v 2) (.v 3)) (holding [(8, 2), (2, 0x7FFFFFFF), (3, 0x80000000)] []) (fun sl => sl.vget 8 0 == 1)
    = true := by decide +kernel
/-- R195: the least integer. -/
theorem test_iabs : leaves (.iabs (.v 8) (.v 2)) (holding [(2, 0x80000000)] []) (fun sl => sl.vget 8 0 == 0x80000000) = true := by
  decide +kernel
/-- R164's example: the signalling and quiet NaN are marked, an infinity is not. -/
theorem test_fcls : leaves (.fcls (.s 9) (.v 3) (.s 10))
    { (((slice 0).vset 3 0 0x7F800001).vset 3 1 0x7FC00000).vset 3 2 0x7F800000 with sregs := [(10, 0x300)] } (fun sl => sl.sget 9 == 3)
    = true := by decide +kernel
/-- R116's example: the tree, with NX. -/
theorem test_redf : leaves (.redf (.v 6) (.v 4)) { (holding [(4, 0x33800000)] []).vset 4 0 0x3F800000 with exec := 15 }
    (fun sl => sl.vget 6 2 == 0x3F800001 && sl.fps == 16) = true := by decide +kernel
/-- R216's example with slice 0 alone. -/
theorem test_scani : leaves (.scani (.v 6) (.v 4) .zero) lanes4
    (fun sl => (List.range 4).map (sl.vget 6) == [1, 3, 0, 7]) = true := by decide +kernel
theorem test_redi : leaves (.redi (.v 7) (.v 4)) lanes4 (fun sl => (List.range 4).map (sl.vget 7) == [7, 7, 0, 7]) = true := by decide +kernel
theorem test_ballot : leaves (.ballot (.s 10) (.v 4)) lanes4 (fun sl => sl.sget 10 == 0x0B && sl.scc) = true := by decide +kernel
/-- The packing example of R206. -/
theorem test_pack_hi : leaves (.cvtBf16F32Hi (.v 5) (.v 1)) (holding [(1, 0x3F800000)] []) (fun sl => sl.vget 5 0 == 0x3F800000 && sl.fps == 0)
    = true := by decide +kernel
theorem test_pack_lo : leaves (.cvtBf16F32Lo (.v 5) (.v 2)) (holding [(2, 0x3F808000), (5, 0x3F800000)] [])
    (fun sl => sl.vget 5 0 == 0x3F803F80 && sl.fps == 16) = true := by decide +kernel
/-- The codes of the reading table and of the quantising example (R99, R106, R110, R111). -/
theorem test_read_l6 : leaves (.cvtF32L6 (.v 5) (.v 2) .zero) (holding [(2, 0x1E)] []) (fun sl => sl.vget 5 0 == 0x41350500) = true := by
  decide +kernel
theorem test_quantise_l6 : leaves (.cvtL6F32 (.v 5) (.v 2) .zero) (holding [(2, 0x3F0C1BC0)] []) (fun sl => sl.vget 5 0 == 0x0C) = true := by
  decide +kernel
theorem test_q_l6 : leaves (.cvtQL6 (.v 10) (.v 2) .zero) (holding [(2, 0x1E)] []) (fun sl => sl.vget 10 0 == 0x50500000 && sl.vget 11 0 == 0xB)
    = true := by decide +kernel
/-- R118: an exact quotient in the subnormals, and the root of −0. -/
theorem test_rcp : leaves (.rcp (.v 9) (.v 2)) (holding [(2, 0x7F000000)] []) (fun sl => sl.vget 9 0 == 0x00400000) = true := by decide +kernel
theorem test_sqrt : leaves (.sqrt (.v 9) (.v 2)) (holding [(2, 0x80000000)] []) (fun sl => sl.vget 9 0 == 0x80000000 && sl.fps == 0) = true := by
  decide +kernel
/-- R334: a step of the core with the sample `imad` at its PC multiplies and adds, modulo 2^32. -/
theorem test_step_imad :
    (match step { issuing imadSlice with
        teams := [team [{ holding [(2, 3), (8, 0xFFFFFFFF)] [(9, 0x55555555)] with longs := 0, code := [0x1020169B] }]] } with
     | .next t => (t.slice? 1 0).any (fun sl => sl.vget 8 1 == 0xFFFFFFFE)
     | .fault _ | .refused _ => false) = true := by decide +kernel
/-- R423, R446: after bring-up the package is READY. -/
theorem test_power_good : (match exec (.powerGood true 5) State.reset with
    | .next t => t.mgmt.st == 2 && t.mgmt.step == 7 && t.mgmt.fenced == 5
    | .fault _ | .refused _ => false) = true := by decide +kernel

end Sys2Proof.Tests
end

/-! SUPPORT. Words that change the slices of their sub-crew one after another: what such a change leaves, and the issue of a word
whose body is one. -/

namespace Sys2Proof.Machine

/-! ## Changing some slices of one team -/

/-- Nothing but the slices and sub-crews of team `u`, entry queues and the counter of names differs. -/
structure TeamFrame (u : Nat) (s t : State) : Prop where
  rest : t = s.withUnits t
  others : ∀ v, v ≠ u → t.team? v = s.team? v
  team : ∀ x, s.team? u = some x → ∃ y, t.team? u = some y ∧ y = { x with slices := y.slices, subs := y.subs }
  engines : ∀ c, (t.core c).engine = (s.core c).engine

/-- The slices `ms` of team `u` have become `g` of what they were, and nothing else but sub-crews, entry queues and the
counter of names differs. -/
structure MembersChanged (u : Nat) (ms : List Nat) (g : Slice → Slice) (s t : State) : Prop extends TeamFrame u s t where
  members : ∀ k ∈ ms, ∀ sl, s.slice? u k = some sl → t.slice? u k = some (g sl)
  slices : ∀ k, k ∉ ms → t.slice? u k = s.slice? u k

theorem TeamFrame.trans {u : Nat} {a b c : State} (h : TeamFrame u a b) (g : TeamFrame u b c) : TeamFrame u a c where
  rest := State.withUnits_trans h.rest g.rest
  others v hv := (g.others v hv).trans (h.others v hv)
  team x hx := by
    obtain ⟨y, hy, ey⟩ := h.team x hx
    obtain ⟨z, hz, ez⟩ := g.team y hy
    exact ⟨z, hz, by rw [ez, ey]⟩
  engines k := (g.engines k).trans (h.engines k)

theorem SubsOnly.membersChanged {u : Nat} {s t : State} (h : SubsOnly u s t) (g : Slice → Slice) : MembersChanged u [] g s t where
  rest := h.rest
  others := h.others
  team x hx := ⟨_, by rw [h.teams u, hx]; rfl, rfl⟩
  engines c := by rw [h.cores c]
  members k hk := absurd hk (List.not_mem_nil)
  slices k _ := h.slice? u k

theorem MembersChanged.append {u : Nat} {ms ns : List Nat} {g : Slice → Slice} {a b c : State} (h : MembersChanged u ms g a b)
    (h' : MembersChanged u ns g b c) (hd : ms.Disjoint ns) : MembersChanged u (ms ++ ns) g a c where
  toTeamFrame := h.toTeamFrame.trans h'.toTeamFrame
  members k hk sl hsl := by
    rcases List.mem_append.1 hk with hm | hn
    · rw [h'.slices k (hd hm)]; exact h.members k hm sl hsl
    · exact h'.members k hn sl (by rw [h.slices k (fun hm => hd hm hn)]; exact hsl)
  slices k hk := by
    rw [List.mem_append, not_or] at hk
    exact (h'.slices k hk.2).trans (h.slices k hk.1)

theorem MembersChanged.comp {u : Nat} {ms : List Nat} {f g : Slice → Slice} {a b c : State} (h : MembersChanged u ms f a b)
    (h' : MembersChanged u ms g b c) : MembersChanged u ms (g ∘ f) a c where
  toTeamFrame := h.toTeamFrame.trans h'.toTeamFrame
  members k hk sl hsl := h'.members k hk _ (h.members k hk sl hsl)
  slices k hk := (h'.slices k hk).trans (h.slices k hk)

theorem MembersChanged.subs {u : Nat} {ms : List Nat} {g : Slice → Slice} {a b c : State} (h : MembersChanged u ms g a b)
    (h' : SubsOnly u b c) : MembersChanged u ms g a c := by
  simpa using h.append (h'.membersChanged g) (List.disjoint_nil_right ms)

theorem MembersChanged.onMembers (s : State) (u : Nat) (ms : List Nat) (f : Team → Slice → Slice) (hf : ∀ x sl, (f x sl).idx = sl.idx)
    (x : Team) (hx : s.team? u = some x) :
    MembersChanged u ms (f x) s (s.setTeam u (fun t => t.onMembers ms (f t))) := by
  have hy : (s.setTeam u (fun t => t.onMembers ms (f t))).team? u = some (x.onMembers ms (f x)) := by
    rw [State.team?_setTeam_self s u (fun t => t.onMembers ms (f t)) (fun _ => rfl), hx]; rfl
  have hsl : ∀ k, (s.setTeam u (fun t => t.onMembers ms (f t))).slice? u k
      = (s.slice? u k).map (fun sl => if k ∈ ms then f x sl else sl) := fun k => by
    rw [State.slice?_eq _ u k _ hy, State.slice?_eq s u k x hx, Team.slice?_onMembers x ms k (f x) (hf x)]
  refine ⟨⟨rfl, fun v hv => State.team?_setTeam_ne s _ (fun _ => rfl) hv, fun z hz => ?_, fun _ => rfl⟩, fun k hk sl h => ?_, fun k hk => ?_⟩
  · rw [hx] at hz; cases hz
    exact ⟨_, hy, rfl⟩
  · rw [hsl, h]; simp [hk]
  · rw [hsl]; simp [hk]

theorem MembersChanged.setSlice {s : State} {u k : Nat} {f g : Slice → Slice} (hf : ∀ sl, sl.idx = k → (f sl).idx = k)
    (hg : ∀ sl, s.slice? u k = some sl → f sl = g sl) : MembersChanged u [k] g s (s.setSlice u k f) := by
  set f' : Slice → Slice := fun sl => if sl.idx = k then f sl else sl with hf'
  have hid : ∀ sl, (f' sl).idx = sl.idx := fun sl => by
    by_cases h : sl.idx = k
    · simp only [hf', if_pos h, hf sl h, h]
    · simp only [hf', if_neg h]
  have hset : ∀ t : Team, t.setSlice k f = t.setSlice k f' := fun t => by
    simp only [Team.setSlice, hf']
    congr 1
    refine List.map_congr_left fun sl _ => ?_
    by_cases h : sl.idx = k <;> simp [h]
  have hsl : ∀ j, (s.setSlice u k f).slice? u j = (s.slice? u j).map (fun sl => if j = k then f' sl else sl) := fun j => by
    simp only [State.slice?, State.setSlice, State.team?_setTeam_self s u _ (fun t => Team.setSlice_uid t k f)]
    cases s.team? u with
    | none => rfl
    | some x => simp only [Option.map_some, Option.bind_some, hset, Team.slice?_setSlice x k j f' hid]
  refine ⟨⟨rfl, fun v hv => State.team?_setTeam_ne s _ (fun t => Team.setSlice_uid t k f) hv, fun x hx => ⟨x.setSlice k f, ?_, rfl⟩, fun _ => rfl⟩,
    fun j hj sl h => ?_, fun j hj => ?_⟩
  · rw [State.setSlice, State.team?_setTeam_self s u _ (fun t => Team.setSlice_uid t k f), hx]; rfl
  · obtain rfl : j = k := by simpa using hj
    have hi : sl.idx = j := by
      obtain ⟨x, -, hxs⟩ := Option.bind_eq_some_iff.1 h
      exact Team.slice?_idx x j sl hxs
    rw [hsl, h]
    simp only [Option.map_some, if_true, hf', if_pos hi, hg sl h]
  · have hne : j ≠ k := by simpa using hj
    rw [hsl]; simp [hne]

/-- Slices changed one after another, each step being told what its slice holds. -/
theorem MembersChanged.foldl {u : Nat} {g : Slice → Slice} (step : State → Nat → State) (ms : List Nat) (hnd : ms.Nodup) (s : State)
    (h : ∀ k ∈ ms, ∃ sl, s.slice? u k = some sl ∧ ∀ t, t.slice? u k = some sl → MembersChanged u [k] g t (step t k)) :
    MembersChanged u ms g s (ms.foldl step s) := by
  induction ms generalizing s with
  | nil => exact (SubsOnly.refl u s).membersChanged g
  | cons k r ih =>
    rw [List.nodup_cons] at hnd
    obtain ⟨sl, hsl, hstep⟩ := h k (by simp)
    have hk := hstep s hsl
    refine hk.append (ih hnd.2 (step s k) fun m hm => ?_) (by simpa using hnd.1)
    obtain ⟨sm, hsm, hm'⟩ := h m (by simp [hm])
    exact ⟨sm, by rw [hk.slices m (by simpa using fun e : m = k => hnd.1 (e ▸ hm))]; exact hsm, hm'⟩

/-! ## The issue of a word that changes its slices -/

theorem Slice.advance_plain (sl : Slice) : Slice.Plain sl sl.advance := ⟨sl.advance_idx, sl.advance_ended, sl.advance_block⟩

theorem Slice.charged_advance_went (sl : Slice) : sl.WentOn sl.charged.advance := sl.advance_went _ rfl rfl rfl rfl rfl

theorem State.Executes.mayRun {s : State} {i : Instr} {p : At} (h : s.Executes i p) {k : Nat} (hk : k ∈ p.members) {x : Team}
    (hx : s.team? p.team = some x) {sl : Slice} (hsl : x.slice? k = some sl) : sl.MayRun i := by
  obtain ⟨sl', hsl', hrun, -⟩ := h.slices k hk
  rw [State.slice?_eq s p.team k x hx, hsl] at hsl'
  cases hsl'
  exact hrun

theorem State.Executes.formed {s : State} {i : Instr} {p : At} (h : s.Executes i p) : i.wf = true := by
  obtain ⟨k, hk⟩ := List.exists_mem_of_ne_nil _ h.nonempty
  obtain ⟨sl, -, hrun, -⟩ := h.slices k hk
  exact hrun.formed

theorem EachSlice.imp {s t : State} {p : At} {R R' : Team → Slice → Slice → Prop} (h : EachSlice s t p R)
    (hR : ∀ k ∈ p.members, ∀ x, s.team? p.team = some x → ∀ sl, x.slice? k = some sl → ∀ sl', R x sl sl' → R' x sl sl') :
    EachSlice s t p R' := fun k hk x hx sl hsl => by
  obtain ⟨sl', e, r⟩ := h k hk x hx sl hsl
  exact ⟨sl', e, hR k hk x hx sl hsl sl' r⟩

/-- A charge and a change of the slices of the sub-crew keep to the frame of a word. -/
theorem Charged.wordFrame {s z t : State} {i : Instr} {p : At} {g : Slice → Slice} (hc : Charged s z i p)
    (h : MembersChanged p.team p.members g z t) {x : Team} (hx : s.team? p.team = some x) : WordFrame s t i p := by
  have hrest : t = s.withUnits t := State.withUnits_trans hc.rest h.rest
  refine ⟨hrest, fun a => by rw [hrest]; rfl, fun u hu => (h.others u hu).trans (hc.others u hu), fun k hk => ?_, fun x' hx' => ?_,
    fun c => (h.engines c).trans (hc.engines c)⟩
  · rw [h.slices k hk, hc.slice? x hx, State.slice?_eq s p.team k x hx]
    simp [hk]
  · obtain ⟨y, hy, ey, -, en⟩ := hc.team x' hx'
    obtain ⟨w, hw, ew⟩ := h.team y hy
    exact ⟨w, hw, by rw [ew, ey], by rw [ew]; exact en⟩

/-- A word whose body changes the slices of its sub-crew, as the charge left them, by `g`. -/
theorem issue_changes {s : State} {i : Instr} {p : At} (h : s.Executes i p) {body : At → State → State} {g : Slice → Slice}
    (hp : ∀ sl, Slice.Plain sl (g sl))
    (hg : MembersChanged p.team p.members g (s.chargeWord p i) (body p (s.chargeWord p i))) :
    ∃ t, issue i body s = .next t ∧ WordFrame s t i p ∧ EachSlice s t p (fun _ sl sl' => sl' = g sl.charged) := by
  obtain ⟨x, hx⟩ := h.team
  have hc := s.chargeWord_charged i p
  have hz : ∀ k ∈ p.members, ∀ sl, x.slice? k = some sl → (s.chargeWord p i).slice? p.team k = some sl.charged :=
    fun k hk sl hsl => by rw [hc.slice? x hx, hsl]; simp [hk]
  -- one slice of the sub-crew still runs, so settling only parts sub-crews
  obtain ⟨k, hk⟩ := List.exists_mem_of_ne_nil _ h.nonempty
  obtain ⟨sl, hsl, hrun, -⟩ := h.slices k hk
  rw [State.slice?_eq s p.team k x hx] at hsl
  have hsub := hg.members k hk _ (hz k hk sl hsl)
  have hplain := hp sl.charged
  have ht : MembersChanged p.team p.members g (s.chargeWord p i) ((body p (s.chargeWord p i)).settle p.team) := by
    refine hg.subs ?_
    rw [State.settle_runs _ p.team k _ hsub (hplain.ended.trans hrun.live) (hplain.block.trans hrun.free)]
    exact State.regroup_subs _ _
  refine ⟨_, issue_executes h body, hc.wordFrame ht hx, fun k hk x' hx' sl hsl => ⟨_, ?_, rfl⟩⟩
  rw [hx] at hx'; cases hx'
  exact ht.members k hk _ (hz k hk sl hsl)

/-- The same of a word that works on one slice of its sub-crew after another. -/
theorem eachMember_changes {s : State} {i : Instr} {p : At} (h : s.Executes i p) {f : At → Nat → State → State} {g : Slice → Slice}
    (hp : ∀ sl, Slice.Plain sl (g sl))
    (hf : ∀ k ∈ p.members, ∀ sl, s.slice? p.team k = some sl → sl.MayRun i → ∀ t, t.slice? p.team k = some sl.charged →
      MembersChanged p.team [k] g t (f p k t)) :
    ∃ t, issue i (eachMember f) s = .next t ∧ WordFrame s t i p ∧ EachSlice s t p (fun _ sl sl' => sl' = g sl.charged) := by
  refine issue_changes h hp (MembersChanged.foldl _ p.members h.distinct _ fun k hk => ?_)
  obtain ⟨x, hx⟩ := h.team
  obtain ⟨sl, hsl, hrun, -⟩ := h.slices k hk
  refine ⟨sl.charged, ?_, hf k hk sl hsl hrun⟩
  rw [(s.chargeWord_charged i p).slice? x hx, ← State.slice?_eq s p.team k x hx, hsl]
  simp [hk]

end Sys2Proof.Machine

/-! PROOFS. The scalar class: what its functions compute, and the words that issue as them. -/

namespace Sys2Proof.Machine

/-! ## Values of the scalar class (R159 to R161) -/

theorem sccCarry_eq (a b : Word) : sccCarry a b = (a.setWidth 33 + b.setWidth 33).getLsbD 32 := by
  unfold sccCarry
  have ha := a.isLt
  have hb := b.isLt
  rw [BitVec.getLsbD, BitVec.toNat_add, BitVec.toNat_setWidth, BitVec.toNat_setWidth, Nat.testBit_eq_decide_div_mod_eq]
  congr 1
  apply propext
  omega

theorem add_eq_ofNat (a b : Word) : a + b = BitVec.ofNat 32 (a.toNat + b.toNat) := by
  rw [BitVec.ofNat_add]; simp

theorem sub_eq_ofInt (a b : Word) : a - b = BitVec.ofInt 32 (a.toInt - b.toInt) := by
  apply BitVec.eq_of_toInt_eq
  rw [BitVec.toInt_sub, BitVec.toInt_ofInt]

theorem mul_eq_ofInt (a b : Word) : a * b = BitVec.ofInt 32 (a.toInt * b.toInt) := by
  apply BitVec.eq_of_toInt_eq
  rw [BitVec.toInt_mul, BitVec.toInt_ofInt]

/-- A signed product of two words fits in 64 bits. -/
theorem toInt_signExtend_mul (a b : Word) : (a.signExtend 64 * b.signExtend 64).toInt = a.toInt * b.toInt := by
  rw [BitVec.toInt_mul, BitVec.toInt_signExtend_of_le (by decide), BitVec.toInt_signExtend_of_le (by decide)]
  have hlo : -2 ^ 62 ≤ a.toInt * b.toInt := BitVec.le_toInt_mul_toInt
  have hhi : a.toInt * b.toInt ≤ 2 ^ 62 := BitVec.toInt_mul_toInt_le
  apply Int.bmod_eq_of_le <;> omega

theorem sccMul_eq (a b : Word) : sccMul a b =
    (a.signExtend 64 * b.signExtend 64 != (BitVec.ofInt 32 (a.toInt * b.toInt)).signExtend 64) := by
  have hw : (a.signExtend 64 * b.signExtend 64 = (BitVec.ofInt 32 (a.toInt * b.toInt)).signExtend 64)
      ↔ a.toInt * b.toInt = (a.toInt * b.toInt).bmod (2 ^ 32) := by
    rw [← BitVec.toInt_inj, toInt_signExtend_mul, BitVec.toInt_signExtend_of_le (by decide), BitVec.toInt_ofInt]
  unfold sccMul
  rw [bne, Bool.eq_iff_iff]
  simp only [Bool.or_eq_true, decide_eq_true_eq, Bool.not_eq_true', beq_eq_false_iff_ne, ne_eq, hw]
  generalize a.toInt * b.toInt = x
  rw [Int.bmod_def]
  split <;> omega

theorem minI_eq (a b : Word) : minI a b = if a.slt b then a else b := by
  unfold minI
  rw [BitVec.slt_eq_decide]
  by_cases h : a.toInt < b.toInt
  · simp [h, Int.le_of_lt h]
  · by_cases he : a.toInt = b.toInt
    · simp [BitVec.eq_of_toInt_eq he]
    · simp [h, show ¬ a.toInt ≤ b.toInt by omega]

theorem maxI_eq (a b : Word) : maxI a b = if a.slt b then b else a := by
  unfold maxI
  rw [BitVec.slt_eq_decide]
  by_cases h : a.toInt < b.toInt
  · simp [h]
  · simp [h, Int.not_lt.1 h]

theorem minN_eq (a b : Word) : minN a b = if a.ult b then a else b := by
  unfold minN
  rw [BitVec.ult_eq_decide]
  by_cases h : a.toNat < b.toNat
  · simp [h, Nat.le_of_lt h]
  · by_cases he : a.toNat = b.toNat
    · simp [BitVec.eq_of_toNat_eq he]
    · simp [h, show ¬ a.toNat ≤ b.toNat by omega]

theorem maxN_eq (a b : Word) : maxN a b = if a.ult b then b else a := by
  unfold maxN
  rw [BitVec.ult_eq_decide]
  by_cases h : a.toNat < b.toNat
  · simp [h]
  · simp [h, Nat.not_lt.1 h]

theorem shamt_eq (b : Word) : shamt b = (b.extractLsb' 0 5).toNat := by simp [shamt]

theorem test_eq (c : Bool) : test c = (BitVec.ofNat 32 c.toNat, c) := by cases c <;> rfl

theorem add_signExtend_eq_ofInt (a : Word) (n : BitVec 11) : a + n.signExtend 32 = BitVec.ofInt 32 (a.toInt + n.toInt) := by
  apply BitVec.eq_of_toInt_eq
  rw [BitVec.toInt_add, BitVec.toInt_ofInt, BitVec.toInt_signExtend_of_le (by decide)]

/-- The high 18 bits given, the low 14 kept (R161). -/
theorem movhi_eq (n : BitVec 18) (x : Word) : n.setWidth 32 <<< 14 ||| (x &&& 0x3FFF#32) = n ++ x.extractLsb' 0 14 := by
  have hmask : ∀ j : Fin 32, (0x3FFF#32).getLsbD j.val = decide (j.val < 14) := by decide
  ext j hj
  have hm := hmask ⟨j, hj⟩
  simp only [BitVec.getLsbD_eq_getElem hj] at hm
  rw [BitVec.getElem_or, BitVec.getElem_and, BitVec.getElem_append, hm]
  by_cases h : j < 14
  · simp [h, BitVec.getLsbD_eq_getElem hj]
  · simp [h, BitVec.getLsbD_eq_getElem (show j - 14 < 18 by omega)]

/-! ## Scalar words (R158 to R160) -/

/-- The word `w` issues as the scalar function `g` of A and B (R158). -/
structure ScalarWord (w : VWord) (g : Word → Word → Word × Bool) : Prop where
  runs : ∀ d a b s, exec (w d a b) s = issue (w d a b) (perSlice (fun _ => scalar d a b g)) s
  formed : ∀ d a b, (w d a b).wf = (d.sdst && a.sread && b.sread)

theorem ScalarWord.of_eq {w : VWord} {f g : Word → Word → Word × Bool}
    (runs : ∀ d a b s, exec (w d a b) s = issue (w d a b) (perSlice (fun _ => scalar d a b f)) s)
    (formed : ∀ d a b, (w d a b).wf = (d.sdst && a.sread && b.sread)) (h : ∀ a b, f a b = g a b) : ScalarWord w g := by
  obtain rfl : f = g := funext₂ h
  exact ⟨runs, formed⟩

/-- Every SALU word issues as the function of its row (R159). -/
theorem saluWords_scalar : ∀ e ∈ saluWords, ScalarWord e.1 e.2 := by
  simp only [saluWords, List.forall_mem_cons, List.not_mem_nil, false_imp_iff, implies_true, and_true]
  refine ⟨?sadd, ?ssub, ?smul, ?sand, ?sor, ?sxor, ?sshl, ?sshr, ?ssar, ?smin, ?smax, ?snmin, ?snmax, ?scmpeq, ?scmplt, ?scmpnlt⟩
  case sadd => exact .of_eq (fun _ _ _ _ => rfl) (fun _ _ _ => rfl) fun a b => by rw [add_eq_ofNat, sccCarry_eq]
  case ssub => exact .of_eq (fun _ _ _ _ => rfl) (fun _ _ _ => rfl) fun a b => by rw [sub_eq_ofInt]; rfl
  case smul => exact .of_eq (fun _ _ _ _ => rfl) (fun _ _ _ => rfl) fun a b => by rw [mul_eq_ofInt, sccMul_eq]
  case sand | sor | sxor => exact .of_eq (fun _ _ _ _ => rfl) (fun _ _ _ => rfl) fun _ _ => rfl
  case sshl | sshr | ssar => exact .of_eq (fun _ _ _ _ => rfl) (fun _ _ _ => rfl) fun a b => by rw [shamt_eq]; rfl
  case smin => exact .of_eq (fun _ _ _ _ => rfl) (fun _ _ _ => rfl) fun a b => by rw [minI_eq]; rfl
  case smax => exact .of_eq (fun _ _ _ _ => rfl) (fun _ _ _ => rfl) fun a b => by rw [maxI_eq]; rfl
  case snmin => exact .of_eq (fun _ _ _ _ => rfl) (fun _ _ _ => rfl) fun a b => by rw [minN_eq]; rfl
  case snmax => exact .of_eq (fun _ _ _ _ => rfl) (fun _ _ _ => rfl) fun a b => by rw [maxN_eq]; rfl
  case scmpeq => exact .of_eq (fun _ _ _ _ => rfl) (fun _ _ _ => rfl) fun a b => by rw [test_eq, ← beq_eq_decide]
  case scmplt => exact .of_eq (fun _ _ _ _ => rfl) (fun _ _ _ => rfl) fun a b => by rw [test_eq, BitVec.slt_eq_decide]
  case scmpnlt => exact .of_eq (fun _ _ _ _ => rfl) (fun _ _ _ => rfl) fun a b => by rw [test_eq, BitVec.ult_eq_decide]

/-- `write_result` alone keeps SCC and FPS (R158). -/
theorem Slice.writeS_result (sl : Slice) {d : Opd} (w : Word) (hd : d.sdst = true) :
    sl.ScalarResult (sl.charged.writeS d w).advance d w sl.scc sl.fps := by
  refine sl.scalar_result d w _ _ hd _ ?_
  rw [(sl.writeS_write d w hd).2]
  rfl

/-- A word that runs a scalar function leaves its result and SCC (R158). -/
theorem scalar_effect {s : State} {i : Instr} {p : At} (h : s.Executes i p) {d a b : Opd} {g : Word → Word → Word × Bool}
    (hd : d.sdst = true) :
    ∃ t, issue i (perSlice (fun _ => scalar d a b g)) s = .next t ∧ WordFrame s t i p ∧ EachSlice s t p (fun _ sl sl' =>
      sl.ScalarResult sl' d (g (sl.readS a) (sl.readS b)).1 (g (sl.readS a) (sl.readS b)).2 sl.fps) := by
  obtain ⟨t, ht, hframe, heach⟩ := perSlice_effect h (fun _ => scalar d a b g) fun _ sl =>
    have hw := sl.writeS_plain d (g (sl.readS a) (sl.readS b)).1
    ⟨hw.idx, hw.ended, hw.block⟩
  refine ⟨t, ht, hframe, heach.imp fun k _ x _ sl _ sl' e => e ▸ ?_⟩
  refine sl.scalar_result d _ _ _ hd _ ?_
  simp only [scalar, Slice.charged_readS]
  rw [(sl.writeS_write d (g (sl.readS a) (sl.readS b)).1 hd).2]
  rfl

/-! ## Constants (R161) -/

theorem Slice.put_plain (sl : Slice) (c : Nat) (d : Opd) (f : Word → Word) : Slice.Plain sl (sl.put c d f) := by
  unfold Slice.put
  split
  · exact sl.vmap_plain d _
  · exact sl.writeS_plain d _

theorem Slice.put_of_vdst (sl : Slice) (c : Nat) {d : Opd} (f : Word → Word) (hd : d.vdst = true) :
    sl.put c d f = sl.vmap d (fun l => f (sl.read c d l)) := by
  cases d with
  | v n => rfl
  | zero => simp [Slice.put, Opd.isV, Slice.writeS, Slice.vmap, Slice.write]
  | s _ | exec | lane | slice | bc _ | role => simp [Opd.vdst] at hd

theorem Slice.put_of_sdst (sl : Slice) (c : Nat) {d : Opd} (f : Word → Word) (hd : d.sdst = true) :
    sl.put c d f = sl.writeS d (f (sl.readS d)) := by
  cases d with
  | v _ | lane | slice | bc _ | role => simp [Opd.sdst] at hd
  | s _ | zero | exec => rfl

/-- A word that puts a value in its destination writes a vector register lane by lane, a scalar once, and no SCC (R161). -/
theorem put_effect {s : State} {i : Instr} {p : At} (h : s.Executes i p) (d : Opd) (f : Word → Word) :
    ∃ t, issue i (perSlice (fun c sl => sl.put c d f)) s = .next t ∧ WordFrame s t i p ∧ EachSlice s t p (fun x sl sl' =>
      (d.vdst = true → sl.VectorResult sl' d (fun l => f (sl.read x.record.crewlog d l)) 0)
      ∧ (d.sdst = true → sl.ScalarResult sl' d (f (sl.readS d)) sl.scc sl.fps)) := by
  obtain ⟨t, ht, hframe, heach⟩ := perSlice_effect h (fun c sl => sl.put c d f) fun c sl => sl.put_plain c d f
  refine ⟨t, ht, hframe, heach.imp fun k _ x _ sl _ sl' e => e ▸ ⟨fun hd => ?_, fun hd => ?_⟩⟩
  · rw [Slice.put_of_vdst _ _ f hd]
    simpa using sl.vmap_result d fun l => f (sl.read x.record.crewlog d l)
  · rw [Slice.put_of_sdst _ _ f hd, Slice.charged_readS]
    exact sl.writeS_result _ hd

theorem exec_movi (d : Opd) (n : BitVec 18) (s : State) :
    exec (.movi d n) s = issue (.movi d n) (perSlice (fun c sl => sl.put c d (fun _ => n.signExtend 32))) s := rfl

theorem exec_movhi (d : Opd) (n : BitVec 18) (s : State) :
    exec (.movhi d n) s = issue (.movhi d n) (perSlice (fun c sl => sl.put c d (fun x => n ++ x.extractLsb' 0 14))) s := by
  rw [← funext (movhi_eq n)]
  rfl

/-- Settles O10: every SALU word and `saddi` issue as a scalar function, `movi` and `movhi` as a value put in D. -/
theorem scalarResults : Obligations.ScalarResults := by
  refine ⟨fun e he s p d a b h => ?salu, fun s p d a n h => ?saddi, ?mov⟩
  case salu =>
    have hw := saluWords_scalar e he
    have hd : d.sdst = true := by
      have hwf := h.formed
      simp only [hw.formed, Bool.and_eq_true] at hwf
      exact hwf.1.1
    rw [hw.runs]
    exact scalar_effect h hd
  case saddi =>
    have hd : d.sdst = true := (Bool.and_eq_true_iff.1 h.formed).1
    obtain ⟨t, ht, hframe, heach⟩ := scalar_effect (a := a) (b := .zero) (g := fun a _ => nz (a + n.signExtend 32)) h hd
    refine ⟨t, ht, hframe, heach.imp fun k _ x _ sl _ sl' hres => ?_⟩
    rw [add_signExtend_eq_ofInt] at hres
    exact hres
  case mov =>
    simp only [List.forall_mem_cons, List.not_mem_nil, false_imp_iff, implies_true, and_true, exec_movi, exec_movhi]
    exact ⟨fun s p d n h => put_effect h d fun _ => n.signExtend 32, fun s p d n h => put_effect h d fun x => n ++ x.extractLsb' 0 14⟩

end Sys2Proof.Machine

/-! PROOFS. The software traps: the vector to the supervisor handler, and the resumption point past the word. -/

namespace Sys2Proof.Machine

/-! ## The vector (R331, R336, R340) -/

theorem nget_foldl_bank (m : NMap 32) (v : Nat → Word) (n k : Nat) :
    nget ((List.range n).foldl (fun m i => nset m (16 + i) (v i)) m) k = if 16 ≤ k ∧ k < 16 + n then v (k - 16) else nget m k := by
  induction n with
  | zero => rw [if_neg (by omega)]; rfl
  | succ n ih =>
    rw [List.range_succ, List.foldl_append, List.foldl_cons, List.foldl_nil, nget_nset, ih]
    by_cases hk : 16 + n = k
    · rw [if_pos hk, if_pos (by omega), ← hk, Nat.add_sub_cancel_left]
    · rw [if_neg hk]
      by_cases hlt : 16 ≤ k ∧ k < 16 + n
      · rw [if_pos hlt, if_pos (by omega)]
      · rw [if_neg hlt, if_neg (by omega)]

theorem Slice.swapBank_sget (sl : Slice) (k : Nat) :
    sl.swapBank.sget k = if 16 ≤ k ∧ k < 24 then nget sl.bank k else sl.sget k := by
  simp only [Slice.sget, Slice.swapBank, nget_foldl_bank]
  split
  · next h => rw [Nat.add_sub_cancel' h.1]
  · rfl

theorem Slice.swapBank_bank (sl : Slice) {k : Nat} (h : 16 ≤ k ∧ k < 24) : nget sl.swapBank.bank k = sl.sget k := by
  simp only [Slice.sget, Slice.swapBank, nget_foldl_bank]
  rw [if_pos h, Nat.add_sub_cancel' h.1]

/-- `vector` is the entry of the supervisor handler, from any position. -/
theorem Slice.vector_vectored (sl a : Slice)
    (ha : a = { sl with hdr := a.hdr, ix := a.ix, opened := a.opened, code := a.code, conv := a.conv, cls := a.cls })
    (cause sub rhdr rix whdr wix : Nat) (flag : Option Nat) (hs : sub < 256) :
    sl.Vectored (a.vector cause sub rhdr rix whdr wix flag) cause sub rhdr rix whdr wix (flag.getD 0x1F) := by
  rw [ha]
  exact {
    sepc := by simp [Slice.vector, pcWord, Nat.shiftLeft_eq]
    scause := by simp [Slice.vector, Nat.shiftLeft_eq, Nat.mod_eq_of_lt hs, Slice.flanes]
    sfpc := by simp [Slice.vector, pcWord, Nat.shiftLeft_eq]
    banks := fun i hi => ⟨(Slice.swapBank_sget _ (16 + i)).trans (if_pos (by omega)), Slice.swapBank_bank _ (by omega)⟩
    low := fun n hn => (Slice.swapBank_sget _ n).trans (if_neg (by omega))
    scc := ⟨rfl, rfl⟩
    mode := rfl
    lane := fun h => by simp [Slice.vector, h]
    other := fun h => by
      have hl : (decide (0x10 ≤ cause) && decide (cause ≤ 0x17)) = false := by simpa using h
      simp [Slice.vector, hl]
    pc := ⟨rfl, rfl, rfl, rfl⟩
    rest := rfl }

/-! ## `trap` and `brk` (R176) -/

/-- A slice after `trap` or `brk`: it goes past the word, and is vectored from there. -/
def Slice.softTrapped (cause : Nat) (n : BitVec 7) (p : At) (sl : Slice) : Slice :=
  sl.advance.vector cause n.toNat sl.advance.hdr sl.advance.ix p.hdr p.ix none

theorem Slice.softTrapped_plain (cause : Nat) (n : BitVec 7) (p : At) (sl : Slice) : Slice.Plain sl (sl.softTrapped cause n p) :=
  ⟨sl.advance_idx, sl.advance_ended, sl.advance_block⟩

theorem State.trapAt_user (s : State) (u k cause sub rhdr rix whdr wix : Nat) (flag : Option Nat) {sl : Slice}
    (hsl : s.slice? u k = some sl) (ht : sl.thread = none) (hm : sl.mode = .user) :
    s.trapAt u k cause sub rhdr rix whdr wix flag = s.setSlice u k (fun sl => sl.vector cause sub rhdr rix whdr wix flag) := by
  simp [State.trapAt, hsl, ht, hm]

/-- A user slice takes a software trap (R176, R340). -/
theorem softTrap_changed (cause : Nat) (n : BitVec 7) (p : At) (k : Nat) (s : State) {sl : Slice} (hsl : s.slice? p.team k = some sl)
    (ht : sl.thread = none) (hm : sl.mode = .user) :
    MembersChanged p.team [k] (Slice.softTrapped cause n p) s (softTrap cause n p k s) := by
  have hadv : MembersChanged p.team [k] Slice.advance s (s.setSlice p.team k Slice.advance) :=
    .setSlice (fun sl h => by rw [sl.advance_idx, h]) fun _ _ => rfl
  have hsl' := hadv.members k (by simp) sl hsl
  have hvec : softTrap cause n p k s = (s.setSlice p.team k Slice.advance).setSlice p.team k
      (fun a => a.vector cause n.toNat sl.advance.hdr sl.advance.ix p.hdr p.ix none) := by
    simp only [softTrap, hsl']
    exact State.trapAt_user _ _ _ _ _ _ _ _ _ _ hsl' (by rw [Slice.advance_rest]; exact ht) (by rw [Slice.advance_rest]; exact hm)
  rw [hvec]
  refine hadv.comp (g := fun a => a.vector cause n.toNat a.hdr a.ix p.hdr p.ix none) (.setSlice (fun _ h => h) fun a ha => ?_)
  rw [hsl'] at ha; cases ha
  rfl

/-- A word that no handler thread and no supervisor may run, run by a slice (R185, R331). -/
theorem Slice.MayRun.user {sl : Slice} {i : Instr} (h : sl.MayRun i) (ht : i.threadMay = false) (hs : i.supNo = true) :
    sl.thread = none ∧ sl.mode = .user := by
  have hth : sl.thread = none := by
    cases hth : sl.thread with
    | none => rfl
    | some th => have := (h.handler th hth).2; simp [ht] at this
  refine ⟨hth, ?_⟩
  cases hm : sl.mode with
  | user => rfl
  | supervisor => have := h.allowed hth hm; simp [hs] at this

/-- A slice that has gone past a word and taken its trap is vectored with the next word as the resumption point. -/
theorem Slice.softTrapped_vectored (sl : Slice) (hth : sl.thread = none) (cause : Nat) (n : BitVec 7) (p : At) :
    ∃ hdr ix, (sl.ix < hdrLen sl.hw → hdr = sl.hdr ∧ ix = sl.ix + 1)
      ∧ (hdrLen sl.hw ≤ sl.ix → hdr = sl.hdr + 4 * (hdrLen sl.hw + 2) ∧ ix = 0)
      ∧ sl.Vectored (sl.charged.softTrapped cause n p) cause n.toNat hdr ix p.hdr p.ix 0x1F := by
  have hcharged : sl.charged = { sl with conv := false, cls := sl.roleCls } := by simp [Slice.charged, hth]
  refine ⟨sl.charged.advance.hdr, sl.charged.advance.ix, fun h => ?_, fun h => ?_, ?_⟩
  · obtain ⟨hhdr, hix, -⟩ := sl.charged_advance_went.inside h
    exact ⟨hhdr, hix⟩
  · obtain ⟨hhdr, hix, -⟩ := sl.charged_advance_went.past h
    exact ⟨hhdr, hix⟩
  · refine sl.vector_vectored sl.charged.advance ?_ cause n.toNat _ _ p.hdr p.ix none (by omega)
    rw [Slice.advance_rest, hcharged]

/-- A word whose effect is a software trap with cause `cause`. -/
theorem softTrap_effect {s : State} {i : Instr} {p : At} (h : s.Executes i p) (ht : i.threadMay = false) (hs : i.supNo = true)
    (cause : Nat) (n : BitVec 7) :
    ∃ t, issue i (eachMember (softTrap cause n)) s = .next t ∧ WordFrame s t i p ∧ EachSlice s t p (fun _ sl sl' =>
      ∃ hdr ix, (sl.ix < hdrLen sl.hw → hdr = sl.hdr ∧ ix = sl.ix + 1)
        ∧ (hdrLen sl.hw ≤ sl.ix → hdr = sl.hdr + 4 * (hdrLen sl.hw + 2) ∧ ix = 0)
        ∧ sl.Vectored sl' cause n.toNat hdr ix p.hdr p.ix 0x1F) := by
  obtain ⟨t, hnext, hframe, heach⟩ := eachMember_changes h (f := softTrap cause n) (Slice.softTrapped_plain cause n p)
    fun k _ sl _ hrun t hsl => by
      obtain ⟨hth, hm⟩ := hrun.user ht hs
      exact softTrap_changed cause n p k t hsl (by simp [Slice.charged, hth]) hm
  refine ⟨t, hnext, hframe, heach.imp fun k hk x hx sl hsl sl' e => e ▸ ?_⟩
  exact sl.softTrapped_vectored ((h.mayRun hk hx hsl).user ht hs).1 cause n p

/-- Settles O18: neither a handler thread nor supervisor mode may run `trap` or `brk`, so each slice vectors from the next word. -/
theorem softwareTrapEntry : Obligations.SoftwareTrapEntry := by
  simp only [Obligations.SoftwareTrapEntry, List.forall_mem_cons, List.not_mem_nil, false_imp_iff, implies_true, and_true]
  exact ⟨fun s p n h => softTrap_effect h rfl rfl 0x09 n, fun s p n h => softTrap_effect h rfl rfl 0x0A n⟩

end Sys2Proof.Machine

/-! PROOFS. `wnd`, `movt`, `movs`, `nop` and `yield`. -/

namespace Sys2Proof.Machine

/-! ## Past a word -/

@[simp] theorem Slice.advance_wb (sl : Slice) : sl.advance.wb = sl.wb := by rw [sl.advance_rest]
@[simp] theorem Slice.advance_fpc (sl : Slice) : sl.advance.fpc = sl.fpc := by rw [sl.advance_rest]
@[simp] theorem Slice.advance_fps (sl : Slice) : sl.advance.fps = sl.fps := by rw [sl.advance_rest]
@[simp] theorem Slice.advance_park (sl : Slice) : sl.advance.park = sl.park := by rw [sl.advance_rest]
@[simp] theorem Slice.advance_uiv (sl : Slice) : sl.advance.uiv = sl.uiv := by rw [sl.advance_rest]
@[simp] theorem Slice.advance_uisv (sl : Slice) : sl.advance.uisv = sl.uisv := by rw [sl.advance_rest]

/-! ## Masks as numbers -/

theorem testBit_maskOf (l : List Nat) (j : Nat) : (maskOf l).testBit j = l.any (· == j) := by
  have key : ∀ (l : List Nat) (m : Nat), (l.foldl (fun m i => m ||| 1 <<< i) m).testBit j = (m.testBit j || l.any (· == j)) := by
    intro l
    induction l with
    | nil => simp
    | cons a r ih =>
      intro m
      rw [List.foldl_cons, ih, Nat.testBit_or, List.any_cons, Nat.one_shiftLeft, Nat.testBit_two_pow, Bool.or_assoc]
      rfl
  simpa [maskOf] using key l 0

theorem Slice.flanes_bit (sl : Slice) {l : Nat} (hl : l < 4) :
    (BitVec.ofNat 4 sl.flanes).getLsbD l = sl.recs.any (fun r => r.lane == l) := by
  rw [BitVec.getLsbD_ofNat, decide_eq_true hl, Bool.true_and, Slice.flanes, testBit_maskOf, List.any_map]
  rfl

/-! ## Writing special indices (R57, R173, R179) -/

/-- A slice after `wnd`: past the word, with WB at A + 8 × B. -/
def Slice.windowed (a : Opd) (n : BitVec 6) (sl : Slice) : Slice :=
  { sl.advance with wb := (sl.readS a + BitVec.ofNat 32 (8 * n.toNat)).toNat }

theorem Slice.windowed_plain (a : Opd) (n : BitVec 6) (sl : Slice) : Slice.Plain sl (sl.windowed a n) :=
  ⟨sl.advance_idx, sl.advance_ended, sl.advance_block⟩

@[simp] theorem Slice.charged_alloc (sl : Slice) : sl.charged.alloc = sl.alloc := rfl

theorem windowOffset_eq (n : BitVec 6) : BitVec.ofNat 32 (8 * n.toNat) = 8 * n.setWidth 32 := by
  rw [BitVec.ofNat_mul]; simp

theorem wnd_effect {s : State} {p : At} {a : Opd} {n : BitVec 6} (h : s.Executes (.wnd a n) p)
    (hw : ∀ k ∈ p.members, ∀ sl, s.slice? p.team k = some sl →
      (sl.readS a + 8 * n.setWidth 32).toNat % 8 = 0 ∧ (sl.readS a + 8 * n.setWidth 32).toNat < 8 * sl.alloc) :
    ∃ t, exec (.wnd a n) s = .next t ∧ WordFrame s t (.wnd a n) p
      ∧ EachSlice s t p (fun _ sl sl' => sl' = sl.charged.windowed a n) := by
  refine eachMember_changes h (Slice.windowed_plain a n) fun k hk sl hsl _ t ht => ?_
  have hv := hw k hk sl hsl
  rw [← windowOffset_eq, ← Slice.charged_readS, ← Slice.charged_alloc] at hv
  simp only [ht]
  rw [if_pos hv]
  refine .setSlice (fun b hb => b.advance_idx.trans hb) fun b hb => ?_
  rw [ht] at hb; cases hb
  rfl

theorem Slice.windowed_result (sl : Slice) (a : Opd) (n : BitVec 6) (sl' : Slice) (h : sl' = sl.charged.windowed a n) :
    sl'.wb = (sl.readS a + 8 * n.setWidth 32).toNat ∧ sl.WentOn sl'
      ∧ sl' = { sl.charged with wb := sl'.wb, hdr := sl'.hdr, ix := sl'.ix, opened := sl'.opened, code := sl'.code } := by
  have hwent := sl.charged_advance_went
  rw [h]
  refine ⟨?_, ⟨hwent.inside, hwent.past⟩, ?_⟩
  · simp [Slice.windowed, windowOffset_eq]
  · conv_lhs => rw [Slice.windowed, Slice.advance_rest]
    rfl

/-- A slice after the word `a` is written to special index `n` (R56, R57). -/
structure Slice.SpecialWritten (sl r : Slice) (n : BitVec 7) (a : Word) : Prop where
  wb : r.wb = if n = 0 then a.toNat % 512 else sl.wb
  fpc : r.fpc = if n = 1 then a.setWidth 4 else sl.fpc
  fps : r.fps = if n = 2 then a.setWidth 5 else sl.fps
  park : r.park = if n = 3 then a.setWidth 4 ||| BitVec.ofNat 4 sl.flanes else sl.park
  uiv : r.uiv = if n = 5 then a &&& 0x03FFFFFD#32 else sl.uiv
  uisv : r.uisv = if n = 6 then a &&& 0xFFFFFFEF#32 else sl.uisv
  rest : r = { sl with wb := r.wb, fpc := r.fpc, fps := r.fps, park := r.park, uiv := r.uiv, uisv := r.uisv, conv := r.conv }

theorem Slice.setPark_rest (sl : Slice) (m : BitVec 4) : sl.setPark m = { sl with park := m, conv := (sl.setPark m).conv } := by
  unfold Slice.setPark
  simp only
  split <;> rfl

theorem Slice.setSpecial_written {sl r : Slice} {n : BitVec 7} {a : Word} (h : sl.setSpecial n.toNat a = some r) :
    sl.SpecialWritten r n a := by
  have hn : ∀ {m : BitVec 7}, n.toNat = m.toNat → n = m := BitVec.eq_of_toNat_eq
  unfold Slice.setSpecial at h
  split at h
  case h_1 e =>
    obtain rfl : n = 0 := hn e
    simp only at h
    split at h
    · cases h; exact ⟨rfl, rfl, rfl, rfl, rfl, rfl, rfl⟩
    · cases h
  case h_2 e =>
    obtain rfl : n = 1 := hn e
    cases h; exact ⟨rfl, rfl, rfl, rfl, rfl, rfl, rfl⟩
  case h_3 e =>
    obtain rfl : n = 2 := hn e
    cases h; exact ⟨rfl, rfl, rfl, rfl, rfl, rfl, rfl⟩
  case h_4 e =>
    obtain rfl : n = 3 := hn e
    cases h
    rw [Slice.setPark_rest]
    exact ⟨rfl, rfl, rfl, rfl, rfl, rfl, rfl⟩
  case h_5 e =>
    obtain rfl : n = 5 := hn e
    cases h; exact ⟨rfl, rfl, rfl, rfl, rfl, rfl, rfl⟩
  case h_6 e =>
    obtain rfl : n = 6 := hn e
    cases h; exact ⟨rfl, rfl, rfl, rfl, rfl, rfl, rfl⟩
  case h_7 h0 h1 h2 h3 h5 h6 =>
    cases h
    have hne : ∀ {m : BitVec 7}, n.toNat ≠ m.toNat → n ≠ m := fun h e => h (congrArg BitVec.toNat e)
    exact ⟨(if_neg (hne (m := 0) h0)).symm, (if_neg (hne (m := 1) h1)).symm, (if_neg (hne (m := 2) h2)).symm,
      (if_neg (hne (m := 3) h3)).symm, (if_neg (hne (m := 5) h5)).symm, (if_neg (hne (m := 6) h6)).symm, rfl⟩

/-- Only a window outside the allocation is not written (R179). -/
theorem Slice.setSpecial_isSome (sl : Slice) (i : Nat) (a : Word) (h : i = 0 → a.toNat % 8 = 0 ∧ a.toNat % 512 < 8 * sl.alloc) :
    ∃ r, sl.setSpecial i a = some r := by
  unfold Slice.setSpecial
  split
  case h_1 =>
    obtain ⟨h8, hlt⟩ := h rfl
    exact ⟨_, if_pos ⟨by omega, hlt⟩⟩
  all_goals exact ⟨_, rfl⟩

/-- A slice after `movt`: the special index written, and past the word. -/
def Slice.specialSet (a : Opd) (n : BitVec 7) (sl : Slice) : Slice := ((sl.setSpecial n.toNat (sl.readS a)).getD sl).advance

theorem Slice.specialSet_plain (a : Opd) (n : BitVec 7) (sl : Slice) : Slice.Plain sl (sl.specialSet a n) := by
  unfold Slice.specialSet
  cases h : sl.setSpecial n.toNat (sl.readS a) with
  | none => exact sl.advance_plain
  | some r =>
    have hr := (Slice.setSpecial_written h).rest
    exact ⟨r.advance_idx.trans (by rw [hr]), r.advance_ended.trans (by rw [hr]), r.advance_block.trans (by rw [hr])⟩

theorem movt_effect {s : State} {p : At} {a : Opd} {n : BitVec 7} (h : s.Executes (.movt a n) p)
    (hw : n = 0 → ∀ k ∈ p.members, ∀ sl, s.slice? p.team k = some sl →
      (sl.readS a).toNat % 8 = 0 ∧ (sl.readS a).toNat % 512 < 8 * sl.alloc) :
    ∃ t, exec (.movt a n) s = .next t ∧ WordFrame s t (.movt a n) p
      ∧ EachSlice s t p (fun _ sl sl' => ∃ r, sl.charged.setSpecial n.toNat (sl.readS a) = some r ∧ sl' = r.advance) := by
  have hsome : ∀ k ∈ p.members, ∀ sl, s.slice? p.team k = some sl → ∃ r, sl.charged.setSpecial n.toNat (sl.readS a) = some r :=
    fun k hk sl hsl => Slice.setSpecial_isSome _ _ _ fun hn => hw (BitVec.eq_of_toNat_eq hn) k hk sl hsl
  have heff : ∃ t, exec (.movt a n) s = .next t ∧ WordFrame s t (.movt a n) p
      ∧ EachSlice s t p (fun _ sl sl' => sl' = sl.charged.specialSet a n) := by
    refine eachMember_changes h (Slice.specialSet_plain a n) fun k hk sl hsl _ t ht => ?_
    obtain ⟨r, hr⟩ := hsome k hk sl hsl
    have hidx : r.idx = sl.idx := by rw [(Slice.setSpecial_written hr).rest]; rfl
    simp only [ht, Option.bind_some, Slice.charged_readS, hr]
    refine .setSlice (fun b hb => ?_) fun b hb => ?_
    · obtain ⟨x, -, hx⟩ := Option.bind_eq_some_iff.1 hsl
      rw [Slice.advance_idx, hidx, Team.slice?_idx x k sl hx]
    · rw [ht] at hb; cases hb
      simp only [Slice.specialSet, Slice.charged_readS, hr, Option.getD_some]
  obtain ⟨t, hnext, hframe, heach⟩ := heff
  refine ⟨t, hnext, hframe, heach.imp fun k hk x hx sl hsl sl' e => ?_⟩
  obtain ⟨r, hr⟩ := hsome k hk sl (by rw [State.slice?_eq s p.team k x hx]; exact hsl)
  exact ⟨r, hr, by rw [e, Slice.specialSet, Slice.charged_readS, hr]; rfl⟩

theorem uivMask_bit (a : Word) {j : Nat} (hj : j < 32) :
    (a &&& 0x03FFFFFD#32).getLsbD j = (((2 ≤ j && j < 26) || j == 0) && a.getLsbD j) := by
  have hmask : ∀ j : Fin 32, (0x03FFFFFD#32).getLsbD j.val = ((2 ≤ j.val && j.val < 26) || j.val == 0) := by decide
  rw [BitVec.getLsbD_and, hmask ⟨j, hj⟩, Bool.and_comm]

theorem uisvMask_bit (a : Word) {j : Nat} (hj : j < 32) : (a &&& 0xFFFFFFEF#32).getLsbD j = (j != 4 && a.getLsbD j) := by
  have hmask : ∀ j : Fin 32, (0xFFFFFFEF#32).getLsbD j.val = (j.val != 4) := by decide
  rw [BitVec.getLsbD_and, hmask ⟨j, hj⟩, Bool.and_comm]

theorem parkMask_bit (a : Word) (sl : Slice) {l : Nat} (hl : l < 4) :
    (a.setWidth 4 ||| BitVec.ofNat 4 sl.flanes).getLsbD l = (a.getLsbD l || sl.recs.any (fun r => r.lane == l)) := by
  rw [BitVec.getLsbD_or, sl.flanes_bit hl, BitVec.getLsbD_setWidth, decide_eq_true hl, Bool.true_and]

/-- Past the word, the slice has every field of R57 as the write left it. -/
theorem Slice.SpecialWritten.advance {sl r : Slice} {n : BitVec 7} {a : Word} (h : sl.charged.SpecialWritten r n a) :
    sl.WentOn r.advance ∧ r.advance = { sl.charged with
      wb := r.advance.wb, fpc := r.advance.fpc, fps := r.advance.fps, park := r.advance.park, uiv := r.advance.uiv,
      uisv := r.advance.uisv, conv := r.advance.conv, hdr := r.advance.hdr, ix := r.advance.ix, opened := r.advance.opened,
      code := r.advance.code } := by
  refine ⟨?_, ?_⟩
  · apply Slice.advance_went <;> rw [h.rest] <;> rfl
  · rw [Slice.advance_rest]
    simp only
    rw [h.rest]

/-! ## Reading special indices (R56, R178) -/

theorem State.lastInClass_team? (s : State) (u : Nat) (ms : List Nat) : (s.lastInClass u ms).team? u =
    (s.team? u).map (fun t => t.setSub (ms.headD 0) (fun b => { b with seq := s.fresh, wants := none, bad := [], accepted := none })) := by
  unfold State.lastInClass
  rw [State.setCore_team?]
  exact State.team?_setTeam_self s u _ fun t => Team.setSub_uid t _ _

theorem Team.setSub_members (t : Team) (k : Nat) (f : SubCrew → SubCrew) (hf : ∀ b, (f b).members = b.members) :
    (t.setSub k f).subs.map (·.members) = t.subs.map (·.members) := by
  simp only [Team.setSub, List.map_map]
  refine List.map_congr_left fun b _ => ?_
  simp only [Function.comp]
  split
  · exact hf b
  · rfl

/-- The charge of a word parts no sub-crew. -/
theorem State.chargeWord_members (s : State) (p : At) (i : Instr) {x y : Team} (hx : s.team? p.team = some x)
    (hy : (s.chargeWord p i).team? p.team = some y) : y.subs.map (·.members) = x.subs.map (·.members) := by
  have hid : ∀ c f (t : Team), ((t.addEnergy c).onMembers p.members f).uid = t.uid := fun c f t => by
    rw [Team.onMembers_uid, Team.addEnergy_rest]
  unfold State.chargeWord at hy
  rw [hx] at hy
  simp only at hy
  have hsub : ∀ c f k g, (∀ b, (g b).members = b.members) →
      ((((x.addEnergy c).onMembers p.members f).setSub k g).subs.map (·.members)) = x.subs.map (·.members) := fun c f k g hg => by
    rw [Team.setSub_members _ k g hg, Team.onMembers_subs, Team.addEnergy_rest]
  split at hy <;>
  · rw [State.setCore_team?, State.lastInClass_team?, State.team?_setTeam_self s p.team _ (hid _ _), hx] at hy
    cases hy
    exact hsub _ _ _ _ fun _ => rfl

theorem Team.sub?_members (t : Team) (k : Nat) :
    (t.sub? k).map (·.members) = (t.subs.map (·.members)).find? (fun ms => ms.contains k) := by
  rw [List.find?_map]
  rfl

/-- The charge of a word changes no special index. -/
theorem Team.special_charged {x y : Team} (hy : y = { x with slices := y.slices, subs := y.subs, energy := y.energy, esat := y.esat })
    (hm : y.subs.map (·.members) = x.subs.map (·.members)) (sl : Slice) (i : Nat) : y.special sl.charged i = x.special sl i := by
  have hr : y.record = x.record := by rw [hy]
  have hno : y.no = x.no := by rw [hy]
  have hpool : y.pool = x.pool := by rw [hy]
  have hcrew : y.crewMask sl.charged = x.crewMask sl := by
    have hs := y.sub?_members sl.idx
    rw [hm, ← x.sub?_members] at hs
    cases hth : sl.thread with
    | some th => simp [Team.crewMask, Slice.charged, hth]
    | none => simp [Team.crewMask, Slice.charged, hth, hs, hr]
  simp only [Team.special, hcrew, hr, hno, hpool, Slice.charged_wb, Slice.charged_fpc, Slice.charged_fps, Slice.charged_alloc]
  rfl

theorem Team.crewMask_bit (x : Team) (sl : Slice) (hth : sl.thread = none) {j : Nat} (hj : j < 32) : (x.crewMask sl).getLsbD j =
    (((x.sub? sl.idx).map (·.members)).getD [sl.idx]).any (fun m => m % 2 ^ x.record.crewlog == j) := by
  simp only [Team.crewMask, hth]
  rw [BitVec.getLsbD_ofNat, decide_eq_true hj, Bool.true_and, testBit_maskOf, List.any_map]
  rfl

theorem Team.special_reserved (x : Team) (sl : Slice) {i : Nat} (hi : 11 ≤ i) : x.special sl i = 0 := by
  unfold Team.special
  split
  case h_12 => rfl
  all_goals omega

theorem exec_movs (d : Opd) (n : BitVec 7) (s : State) : exec (.movs d n) s = issue (.movs d n) (fun p s =>
    s.setTeam p.team (fun t => t.onMembers p.members (fun sl => (sl.writeS d (t.special sl n.toNat)).advance))) s := rfl

theorem movs_effect {s : State} {p : At} {d : Opd} {n : BitVec 7} (h : s.Executes (.movs d n) p) :
    ∃ t, exec (.movs d n) s = .next t ∧ WordFrame s t (.movs d n) p
      ∧ EachSlice s t p (fun x sl sl' => sl.ScalarResult sl' d (x.special sl n.toNat) sl.scc sl.fps) := by
  obtain ⟨x, hx⟩ := h.team
  obtain ⟨y, hy, ey, -, -⟩ := (s.chargeWord_charged (.movs d n) p).team x hx
  have hplain : ∀ (t : Team) sl, Slice.Plain sl (sl.writeS d (t.special sl n.toNat)).advance := fun t sl =>
    have hw := sl.writeS_plain d (t.special sl n.toNat)
    ⟨(Slice.advance_idx _).trans hw.idx, (Slice.advance_ended _).trans hw.ended, (Slice.advance_block _).trans hw.block⟩
  have heff : ∃ t, exec (.movs d n) s = .next t ∧ WordFrame s t (.movs d n) p
      ∧ EachSlice s t p (fun _ sl sl' => sl' = (sl.charged.writeS d (y.special sl.charged n.toNat)).advance) := by
    rw [exec_movs]
    exact issue_changes h (hplain y) (MembersChanged.onMembers _ p.team p.members
      (fun t sl => (sl.writeS d (t.special sl n.toNat)).advance) (fun t sl => (hplain t sl).idx) y hy)
  obtain ⟨t, hnext, hframe, heach⟩ := heff
  refine ⟨t, hnext, hframe, heach.imp fun k _ x' hx' sl _ sl' e => ?_⟩
  rw [hx] at hx'; cases hx'
  rw [e, Team.special_charged ey (s.chargeWord_members p _ hx hy)]
  exact sl.writeS_result _ (show d.sdst = true from h.formed)

/-! ## `nop` and `yield` (R177) -/

theorem Slice.advance_result (sl sl' : Slice) (h : sl' = sl.charged.advance) :
    sl.WentOn sl' ∧ sl' = { sl.charged with hdr := sl'.hdr, ix := sl'.ix, opened := sl'.opened, code := sl'.code } := by
  subst h
  exact ⟨sl.charged_advance_went, Slice.advance_rest _⟩

theorem nop_effect {s : State} {p : At} (h : s.Executes .nop p) :
    ∃ t, exec .nop s = .next t ∧ WordFrame s t .nop p ∧ EachSlice s t p (fun _ sl sl' => sl' = sl.charged.advance) :=
  perSlice_effect h (fun _ sl => sl) fun _ _ => ⟨rfl, rfl, rfl⟩

theorem exec_yield (s : State) : exec .yield s = issue .yield (fun p s =>
    ((s.advanceAll p).setTeam p.team (fun t => t.setSub (p.members.headD 0) (fun b => { b with entry := false }))).askEntry p.team
      (p.members.headD 0)) s := rfl

/-- `yield` gives up the fetch entry of its sub-crew and asks for another: only sub-crews and entry queues move. -/
theorem yield_effect {s : State} {p : At} (h : s.Executes .yield p) :
    ∃ t, exec .yield s = .next t ∧ WordFrame s t .yield p ∧ EachSlice s t p (fun _ sl sl' => sl' = sl.charged.advance) := by
  obtain ⟨x, hx⟩ := h.team
  obtain ⟨y, hy, -⟩ := (s.chargeWord_charged .yield p).team x hx
  have hadv : MembersChanged p.team p.members Slice.advance (s.chargeWord p .yield) ((s.chargeWord p .yield).advanceAll p) :=
    .onMembers _ p.team p.members (fun _ sl => sl.advance) (fun _ sl => sl.advance_idx) y hy
  have hgive := hadv.subs (.setTeam _ p.team (fun t => t.setSub (p.members.headD 0) fun b => { b with entry := false })
    fun t => t.setSub_subs _ _)
  rw [exec_yield]
  exact issue_changes h Slice.advance_plain (hgive.subs (State.askEntry_subs _ _ _))

/-- Settles O17: each word changes the slices of its sub-crew one by one, by what R56 and R57 say of its special index. -/
theorem specialRegisterResults : Obligations.SpecialRegisterResults := by
  refine ⟨fun s p a n h hw => ?wnd, fun s p a n h hw => ?movt, fun s p d n h => ?movs, ?rest⟩
  case wnd =>
    obtain ⟨t, hnext, hframe, heach⟩ := wnd_effect h hw
    exact ⟨t, hnext, hframe, heach.imp fun k _ x _ sl _ sl' e => sl.windowed_result a n sl' e⟩
  case movt =>
    obtain ⟨t, hnext, hframe, heach⟩ := movt_effect h hw
    refine ⟨t, hnext, hframe, heach.imp fun k _ x _ sl _ sl' ⟨r, hr, e⟩ => ?_⟩
    have hset := Slice.setSpecial_written hr
    obtain ⟨hwent, hrest⟩ := hset.advance
    subst e
    refine ⟨hwent, fun h0 => ?wb, fun h0 => ?wbKept, ?fpc, ?fps, fun l hl => ?park, fun j hj => ?uiv, fun j hj => ?uisv, hrest⟩
    case wb => rw [Slice.advance_wb, hset.wb, if_pos h0]
    case wbKept => rw [Slice.advance_wb, hset.wb, if_neg h0, Slice.charged_wb]
    case fpc => rw [Slice.advance_fpc, hset.fpc, Slice.charged_fpc]
    case fps => rw [Slice.advance_fps, hset.fps, Slice.charged_fps]
    case park =>
      rw [Slice.advance_park, hset.park, apply_ite (BitVec.getLsbD · l), parkMask_bit _ _ hl]
      rfl
    case uiv =>
      rw [Slice.advance_uiv, hset.uiv, apply_ite (BitVec.getLsbD · j), uivMask_bit _ hj]
      rfl
    case uisv =>
      rw [Slice.advance_uisv, hset.uisv, apply_ite (BitVec.getLsbD · j), uisvMask_bit _ hj]
      rfl
  case movs =>
    obtain ⟨t, hnext, hframe, heach⟩ := movs_effect h
    refine ⟨t, hnext, hframe, heach.imp fun k _ x _ sl _ sl' hres => ⟨x.special sl n.toNat, hres, ?_⟩⟩
    refine ⟨by rintro rfl; rfl, by rintro rfl; rfl, by rintro rfl; rfl, by rintro rfl; rfl, ?_, ?_, by rintro rfl; rfl, by rintro rfl; rfl,
      by rintro rfl; rfl, by rintro rfl; rfl, ?_, ?_, x.special_reserved sl⟩
    · rintro rfl hth
      cases h4 : sl.thread with
      | none => simp [h4] at hth
      | some th => simp [Team.special, Team.crewMask, h4]
    · rintro rfl hth j hj
      exact x.crewMask_bit sl hth hj
    · rintro rfl
      simp [Team.special, Nat.shiftLeft_eq]
    · rintro rfl
      simp [Team.special, Nat.shiftLeft_eq]
  case rest =>
    rintro i (rfl | rfl) s p h
    · obtain ⟨t, hnext, hframe, heach⟩ := nop_effect h
      exact ⟨t, hnext, hframe, heach.imp fun k _ x _ sl _ sl' e => sl.advance_result sl' e⟩
    · obtain ⟨t, hnext, hframe, heach⟩ := yield_effect h
      exact ⟨t, hnext, hframe, heach.imp fun k _ x _ sl _ sl' e => sl.advance_result sl' e⟩

end Sys2Proof.Machine

/-! PROOFS. The integer classes: what their functions compute, and the words that issue as them lane by lane. -/

namespace Sys2Proof.Machine

/-! ## Values of IALU (R193) -/

theorem mul_eq_ofNat (a b : Word) : a * b = BitVec.ofNat 32 (a.toNat * b.toNat) := by
  rw [BitVec.ofNat_mul]; simp

theorem mulHigh_eq (a b : Word) : mulHigh a b = (a.signExtend 64 * b.signExtend 64).extractLsb' 32 32 := by
  have hlow := toInt_signExtend_mul a b
  unfold mulHigh
  generalize a.signExtend 64 * b.signExtend 64 = x at hlow ⊢
  rw [← hlow]
  apply BitVec.eq_of_toNat_eq
  have := x.isLt
  rw [BitVec.toNat_ofInt, BitVec.extractLsb'_toNat, Nat.shiftRight_eq_div_pow, BitVec.toInt_eq_toNat_cond]
  split <;> omega

theorem mulHighN_eq (a b : Word) : mulHighN a b = (a.setWidth 64 * b.setWidth 64).extractLsb' 32 32 := by
  apply BitVec.eq_of_toNat_eq
  have ha : a.toNat % 2 ^ 64 = a.toNat := Nat.mod_eq_of_lt (by omega)
  have hb : b.toNat % 2 ^ 64 = b.toNat := Nat.mod_eq_of_lt (by omega)
  rw [mulHighN, BitVec.toNat_ofNat, BitVec.extractLsb'_toNat, Nat.shiftRight_eq_div_pow, BitVec.toNat_mul, BitVec.toNat_setWidth,
    BitVec.toNat_setWidth, ha, hb]
  generalize a.toNat * b.toNat = x
  omega

theorem sumAbsDiff_eq (d a b : Word) : sumAbsDiff d a b = BitVec.ofInt 32 ((d.toNat : Int) + ((a.toInt - b.toInt).natAbs : Int)) := by
  rw [sumAbsDiff, ← Int.natCast_add, BitVec.ofInt_natCast, BitVec.ofNat_add, BitVec.ofNat_toNat, BitVec.setWidth_eq]

/-! ## Values of IBIT (R195, R196) -/

theorem cpopNatRec_eq_filter (a : Word) (n acc : Nat) :
    a.cpopNatRec n acc = acc + ((List.range n).filter (fun i => a.getLsbD i)).length := by
  induction n generalizing acc with
  | zero => simp
  | succ n ih =>
    rw [BitVec.cpopNatRec_succ, ih, List.range_succ, List.filter_append, List.length_append]
    cases h : a.getLsbD n <;> simp [h, Nat.add_assoc, Nat.add_comm 1]

theorem popCount_eq (a : Word) : popCount a = a.cpop := by
  rw [popCount, BitVec.cpop, cpopNatRec_eq_filter, Nat.zero_add]

/-- The leading zeros from bit `n` down, when no bit above it is looked at. -/
theorem clzAuxRec_eq_find (a : Word) (n : Nat) (hn : n < 32) :
    a.clzAuxRec n = BitVec.ofNat 32 (((List.range' (31 - n) (n + 1)).find? (fun i => a.getLsbD (31 - i))).getD 32) := by
  induction n with
  | zero =>
    rw [BitVec.clzAuxRec_zero]
    simp only [List.range'_one, List.find?_cons, List.find?_nil, Nat.reduceSub, Nat.sub_zero, Nat.zero_add, Nat.sub_self]
    cases a.getLsbD 0 <;> rfl
  | succ n ih =>
    have hrange : List.range' (31 - (n + 1)) (n + 1 + 1) = (31 - (n + 1)) :: List.range' (31 - n) (n + 1) := by
      rw [List.range'_succ, show 31 - (n + 1) + 1 = 31 - n by omega]
    rw [BitVec.clzAuxRec_succ, hrange, List.find?_cons, show 31 - (31 - (n + 1)) = n + 1 by omega, ih (by omega)]
    cases a.getLsbD (n + 1) <;> rfl

theorem leadingZeros_eq (a : Word) : leadingZeros a = a.clz := by
  rw [BitVec.clz, clzAuxRec_eq_find a _ (by decide), leadingZeros, findBelow, List.range_eq_range']

theorem trailingZeros_eq (a : Word) : trailingZeros a = a.ctz := by
  rw [BitVec.ctz, ← leadingZeros_eq, leadingZeros, trailingZeros]
  congr 2
  refine List.find?_congr fun i hi => ?_
  rw [BitVec.getLsbD_reverse, BitVec.getMsbD_eq_getLsbD]
  have hi' : i < 32 := List.mem_range.1 hi
  simp [show 31 - i < 32 by omega, show 31 - (31 - i) = i by omega]

theorem reverseBits_eq (a : Word) : reverseBits a = a.reverse := by
  apply BitVec.eq_of_getLsbD_eq
  intro j hj
  rw [reverseBits, BitVec.getLsbD_ofNat, testBit_maskOf, BitVec.getLsbD_reverse, BitVec.getMsbD_eq_getLsbD, decide_eq_true hj,
    Bool.true_and, Bool.true_and, Bool.eq_iff_iff]
  simp [hj]

theorem fieldOff_eq (b : Word) : fieldOff b = (b.extractLsb' 0 5).toNat := by simp [fieldOff]

theorem toNat_double (d a : Word) : d.toNat <<< 32 + a.toNat = (d ++ a).toNat := by
  rw [BitVec.toNat_append, Nat.shiftLeft_add_eq_or_of_lt a.isLt]

theorem funnelLeft_eq (d a : Word) (k : Nat) : funnelLeft d a k = ((d ++ a) <<< k).extractLsb' 32 32 := by
  rw [funnelLeft, toNat_double]
  apply BitVec.eq_of_toNat_eq
  rw [BitVec.toNat_ofNat, BitVec.extractLsb'_toNat, BitVec.toNat_shiftLeft, Nat.shiftRight_eq_div_pow, Nat.shiftRight_eq_div_pow]
  omega

theorem funnelRight_eq (a d : Word) (k : Nat) : funnelRight a d k = ((a ++ d) >>> k).extractLsb' 0 32 := by
  rw [funnelRight, toNat_double]
  apply BitVec.eq_of_toNat_eq
  simp

theorem rotl_eq (a : Word) {k : Nat} (hk : k < 32) : funnelLeft a a k = a.rotateLeft k := by
  rw [funnelLeft_eq]
  apply BitVec.eq_of_getLsbD_eq
  intro j hj
  rw [BitVec.getLsbD_extractLsb', BitVec.getLsbD_shiftLeft, BitVec.getLsbD_append, BitVec.getLsbD_rotateLeft_of_le hk]
  by_cases h : j < k
  · simp [h, show 32 + j < 64 by omega, show 32 + j - k < 32 by omega, show ¬ 32 + j < k by omega, show 32 - k + j = 32 + j - k by omega, hj]
  · simp [h, show 32 + j < 64 by omega, show ¬ 32 + j - k < 32 by omega, show ¬ 32 + j < k by omega, show 32 + j - k - 32 = j - k by omega, hj]

theorem ofNat_natAbs_eq_abs (a : Word) : BitVec.ofNat 32 a.toInt.natAbs = a.abs := by
  apply BitVec.eq_of_toNat_eq
  have hlt := a.isLt
  have habs : a.toInt.natAbs = a.abs.toNat := by
    rw [BitVec.toNat_abs, BitVec.toInt_eq_msb_cond]
    split <;> omega
  rw [BitVec.toNat_ofNat, habs, Nat.mod_eq_of_lt a.abs.isLt]

theorem mul_add_eq_ofNat (a b d : Word) : a * b + d = BitVec.ofNat 32 (a.toNat * b.toNat + d.toNat) := by
  rw [mul_eq_ofNat, BitVec.ofNat_add, BitVec.ofNat_toNat, BitVec.setWidth_eq]

/-- The ones of a field of `n` bits (R196). -/
theorem fieldOnes_eq {n : Nat} (hn : n ≤ 32) : (1#64 <<< n) - 1 = BitVec.ofNat 64 (2 ^ n - 1) := by
  have hlt : 2 ^ n ≤ 2 ^ 32 := Nat.pow_le_pow_right (by decide) hn
  have hpos : 0 < 2 ^ n := Nat.two_pow_pos n
  apply BitVec.eq_of_toNat_eq
  simp only [BitVec.toNat_sub, BitVec.toNat_shiftLeft, BitVec.ofNat_eq_ofNat, BitVec.toNat_ofNat, Nat.shiftLeft_eq, Nat.reducePow,
    Nat.reduceMod, one_mul]
  omega

theorem fieldOf_eq (b : Word) : fieldOf b = (fieldOff b, fieldWid b, BitVec.ofNat 64 (2 ^ fieldWid b - 1) <<< fieldOff b) := by
  have hw : fieldWid b ≤ 32 := by unfold fieldWid; omega
  have hwid : min (b.extractLsb' 8 6).toNat (32 - (b.extractLsb' 0 5).toNat) = fieldWid b := by
    rw [fieldWid, fieldOff_eq]; rfl
  simp only [fieldOf, hwid, fieldOnes_eq hw, fieldOff_eq]

theorem field_fits (b : Word) : fieldOff b + fieldWid b ≤ 32 := by
  have : fieldOff b < 32 := Nat.mod_lt _ (by decide)
  unfold fieldWid
  omega

theorem fieldInsert_eq (d a b : Word) : fieldInsert d a b = bfiOf d a b := by
  have hfit := field_fits b
  have hmask : (BitVec.ofNat 64 (2 ^ fieldWid b - 1) <<< fieldOff b).setWidth 32 = BitVec.ofNat 32 ((2 ^ fieldWid b - 1) <<< fieldOff b) := by
    apply BitVec.eq_of_getLsbD_eq
    intro j hj
    rw [BitVec.getLsbD_setWidth, BitVec.getLsbD_shiftLeft, BitVec.getLsbD_ofNat, BitVec.getLsbD_ofNat, Nat.testBit_shiftLeft]
    by_cases h : fieldOff b ≤ j
    · simp [hj, h, show j < 64 by omega, show j - fieldOff b < 64 by omega]
    · simp [h, show j < fieldOff b by omega]
  rw [bfiOf, fieldOf_eq, fieldInsert]
  simp only [hmask]

theorem fieldBits_eq (a : Word) {o n : Nat} (h : o + n ≤ 32) :
    (a.setWidth 64 &&& BitVec.ofNat 64 (2 ^ n - 1) <<< o) >>> o = BitVec.ofNat 64 ((a.toNat >>> o) % 2 ^ n) := by
  apply BitVec.eq_of_getLsbD_eq
  intro j hj
  rw [BitVec.getLsbD_ushiftRight, BitVec.getLsbD_and, BitVec.getLsbD_setWidth, BitVec.getLsbD_shiftLeft, BitVec.getLsbD_ofNat,
    BitVec.getLsbD_ofNat, Nat.testBit_two_pow_sub_one, Nat.testBit_mod_two_pow, Nat.testBit_shiftRight]
  by_cases hn : j < n
  · simp [hn, hj, show o + j < 64 by omega, BitVec.getLsbD]
  · simp [hn]

/-- The field `t` of `n` bits with its sign continued to the left (R196). -/
theorem fieldSigned_eq {t n : Nat} (ht : t < 2 ^ n) (hn : n ≤ 32) :
    (BitVec.ofNat 64 t ||| ~~~BitVec.ofNat 64 (2 ^ n - 1)).setWidth 32 = BitVec.ofInt 32 ((t : Int) - 2 ^ n) := by
  have hp : 2 ^ n ≤ 2 ^ 32 := Nat.pow_le_pow_right (by decide) hn
  have hhigh : 2 ^ 64 - 1 - (2 ^ n - 1) = 2 ^ n * (2 ^ (64 - n) - 1) := by
    rw [Nat.mul_sub, ← Nat.pow_add, show n + (64 - n) = 64 by omega]
    omega
  have hor : t ||| (2 ^ 64 - 1 - (2 ^ n - 1)) = 2 ^ 64 - 2 ^ n + t := by
    rw [Nat.or_comm, hhigh, ← Nat.two_pow_add_eq_or_of_lt ht, ← hhigh]
    omega
  have hcast : ((2 : Int) ^ n) = ((2 ^ n : Nat) : Int) := by norm_cast
  apply BitVec.eq_of_toNat_eq
  rw [BitVec.toNat_setWidth, BitVec.toNat_or, BitVec.toNat_not, BitVec.toNat_ofNat, BitVec.toNat_ofNat,
    Nat.mod_eq_of_lt (show t < 2 ^ 64 by omega), Nat.mod_eq_of_lt (show 2 ^ n - 1 < 2 ^ 64 by omega), hor, BitVec.toNat_ofInt, hcast]
  omega

theorem fieldExtract_eq (a b : Word) : fieldExtract a b = bfeOf a b := by
  have hfit := field_fits b
  rw [bfeOf, fieldOf_eq, fieldExtract]
  simp only
  by_cases h0 : fieldWid b = 0
  · simp [h0, Nat.mod_one]
  set t := (a.toNat >>> fieldOff b) % 2 ^ fieldWid b with hdef
  have ht : t < 2 ^ fieldWid b := Nat.mod_lt _ (Nat.two_pow_pos _)
  have ht32 : t < 2 ^ 32 := ht.trans_le (Nat.pow_le_pow_right (by decide) (by omega))
  have hsign : (BitVec.ofNat 64 t).getLsbD (fieldWid b - 1) = t.testBit (fieldWid b - 1) := by
    rw [BitVec.getLsbD_ofNat, decide_eq_true (by omega), Bool.true_and]
  have hplain : (BitVec.ofNat 64 t).setWidth 32 = BitVec.ofNat 32 t := by
    apply BitVec.eq_of_toNat_eq
    simp only [BitVec.toNat_setWidth, BitVec.toNat_ofNat]
    omega
  rw [if_neg h0, fieldOnes_eq (by omega), fieldBits_eq a hfit, hsign]
  by_cases hb : b.getLsbD 15 = true
  · by_cases hs : t.testBit (fieldWid b - 1) = true
    · rw [if_pos hb, if_pos ⟨h0, hs⟩, if_pos ⟨hb, hs⟩, fieldSigned_eq ht (by omega)]
    · rw [if_pos hb, if_neg fun h => hs h.2, if_neg fun h => hs h.2, hplain, BitVec.ofInt_natCast]
  · rw [if_neg hb, if_neg fun h => hb h.1, hplain]

/-! ## IALU and IBIT words (R193, R195, R196) -/

/-- The word `w` issues as the lane-by-lane function `g` of A, B and the prior D (R188). -/
def VecWord (w : VWord) (g : Word → Word → Word → Word) : Prop :=
  ∀ d a b s, exec (w d a b) s = issue (w d a b) (perSlice (vec d a b g)) s

theorem VecWord.of_eq {w : VWord} {f g : Word → Word → Word → Word} (runs : VecWord w f) (h : ∀ a b d, f a b d = g a b d) : VecWord w g := by
  obtain rfl : f = g := funext fun a => funext₂ (h a)
  exact runs

/-- A word of one operand, whose B is absent. -/
theorem VecWord.of_unary {w : VWord} {f g : Word → Word}
    (runs : ∀ d a b s, exec (w d a b) s = issue (w d a b) (perSlice (vec d a .zero (fun x _ _ => f x))) s) (h : ∀ a, f a = g a) :
    VecWord w (fun a _ _ => g a) := by
  obtain rfl : f = g := funext h
  exact runs

theorem VecWord.effect {w : VWord} {g : Word → Word → Word → Word} (hw : VecWord w g) {s : State} {p : At} {d a b : Opd}
    (h : s.Executes (w d a b) p) :
    ∃ t, exec (w d a b) s = .next t ∧ WordFrame s t (w d a b) p ∧ EachSlice s t p (fun x sl sl' =>
      let c := x.record.crewlog
      sl.VectorResult sl' d (fun l => g (sl.read c a l) (sl.read c b l) (sl.read c d l)) 0) := by
  obtain ⟨t, ht, hframe, heach⟩ := perSlice_effect h (vec d a b g) fun c sl => sl.vmap_plain d _
  refine ⟨t, (hw d a b s).trans ht, hframe, heach.imp fun k _ x _ sl _ sl' e => e ▸ ?_⟩
  simp only [vec, Slice.charged_read]
  exact sl.vmap_result d _

/-- Every IALU word issues as the function of its row (R193). -/
theorem ialuWords_vec : ∀ e ∈ ialuWords, VecWord e.1 e.2 := by
  simp only [ialuWords, List.forall_mem_cons, List.not_mem_nil, false_imp_iff, implies_true, and_true]
  refine ⟨?iadd, ?isub, ?imul, ?imulhi, ?nmulhi, ?imin, ?imax, ?nmin, ?nmax, ?and, ?or, ?xor, ?shl, ?shr, ?sar, ?isad⟩
  case iadd => exact .of_eq (fun _ _ _ _ => rfl) fun a b _ => add_eq_ofNat a b
  case isub => exact .of_eq (fun _ _ _ _ => rfl) fun a b _ => sub_eq_ofInt a b
  case imul => exact .of_eq (fun _ _ _ _ => rfl) fun a b _ => mul_eq_ofNat a b
  case imulhi => exact .of_eq (fun _ _ _ _ => rfl) fun a b _ => mulHigh_eq a b
  case nmulhi => exact .of_eq (fun _ _ _ _ => rfl) fun a b _ => mulHighN_eq a b
  case imin => exact .of_eq (fun _ _ _ _ => rfl) fun a b _ => minI_eq a b
  case imax => exact .of_eq (fun _ _ _ _ => rfl) fun a b _ => maxI_eq a b
  case nmin => exact .of_eq (fun _ _ _ _ => rfl) fun a b _ => minN_eq a b
  case nmax => exact .of_eq (fun _ _ _ _ => rfl) fun a b _ => maxN_eq a b
  case and | or | xor => exact fun _ _ _ _ => rfl
  case shl | shr | sar => exact .of_eq (fun _ _ _ _ => rfl) fun a b _ => by rw [shamt_eq]; rfl
  case isad => exact .of_eq (fun _ _ _ _ => rfl) fun a b d => sumAbsDiff_eq d a b

/-- Every IBIT word issues as the function of its row (R195, R196). -/
theorem ibitWords_vec : ∀ e ∈ ibitWords, VecWord e.1 e.2 := by
  simp only [ibitWords, List.forall_mem_cons, List.not_mem_nil, false_imp_iff, implies_true, and_true]
  refine ⟨?popc, ?clz, ?ctz, ?brev, ?bfe, ?bfi, ?fshl, ?fshr, ?rotl, ?iabs, ?ineg, ?imad⟩
  case popc => exact .of_unary (fun _ _ _ _ => rfl) popCount_eq
  case clz => exact .of_unary (fun _ _ _ _ => rfl) leadingZeros_eq
  case ctz => exact .of_unary (fun _ _ _ _ => rfl) trailingZeros_eq
  case brev => exact .of_unary (fun _ _ _ _ => rfl) reverseBits_eq
  case bfe => exact .of_eq (fun _ _ _ _ => rfl) fun a b _ => fieldExtract_eq a b
  case bfi => exact .of_eq (fun _ _ _ _ => rfl) fun a b d => fieldInsert_eq d a b
  case fshl => exact .of_eq (fun _ _ _ _ => rfl) fun a b d => by rw [funnelLeft_eq, shamt_eq]; rfl
  case fshr => exact .of_eq (fun _ _ _ _ => rfl) fun a b d => by rw [funnelRight_eq, shamt_eq]; rfl
  case rotl => exact .of_eq (fun _ _ _ _ => rfl) fun a b _ => by rw [shamt_eq, rotl_eq a (BitVec.isLt _)]
  case iabs => exact .of_unary (fun _ _ _ _ => rfl) ofNat_natAbs_eq_abs
  case ineg => exact .of_unary (fun _ _ _ _ => rfl) fun a => (BitVec.zero_sub a).symm
  case imad => exact .of_eq (fun _ _ _ _ => rfl) fun a b d => mul_add_eq_ofNat a b d

/-- Settles O1: every IALU and IBIT word issues as the function of its row, lane by lane. -/
theorem integerArithmeticResults : Obligations.IntegerArithmeticResults := fun e he _ _ _ _ _ h =>
  (List.mem_append.1 he |>.elim (ialuWords_vec e) (ibitWords_vec e)).effect h

end Sys2Proof.Machine

/-! PROOFS. The slice-scope moves: each lane takes its source from the lanes of its own slice. -/

namespace Sys2Proof.Machine

/-! ## Vector words (R188, R189) -/

/-- Only the lanes of the effective mask take part in a vector word (R188). -/
theorem Slice.vmap_congr (sl : Slice) (d : Opd) {f g : Nat → Word} (h : ∀ l, l < 4 → sl.on l = true → f l = g l) :
    sl.vmap d f = sl.vmap d g := by
  unfold Slice.vmap
  refine List.foldl_ext _ _ _ fun a l hl => ?_
  have hl4 : l < 4 := by simp at hl; omega
  by_cases ho : sl.on l = true
  · rw [if_pos ho, if_pos ho, h l hl4 ho]
  · rw [if_neg ho, if_neg ho]

/-! ## Slice scope (R217) -/

theorem Slice.laneAt_xlanes (sl : Slice) (c : Nat) (a b : Opd) {l : Nat} (hl : l < 4) :
    laneAt (sl.xlanes c a b) l = some { p := l, here := sl.on l, a := sl.read c a l, b := sl.read c b l } := by
  have hcases : l = 0 ∨ l = 1 ∨ l = 2 ∨ l = 3 := by omega
  rcases hcases with rfl | rfl | rfl | rfl <;> rfl

/-- The uniform B of a slice-scope word is that of the lowest lane in the mask (R212). -/
theorem Slice.lowB_xlanes (sl : Slice) (c : Nat) (a b : Opd) (h : sl.lanes ≠ []) :
    lowB (sl.xlanes c a b) = sl.read c b (sl.lanes.headD 0) := by
  have hfind : lowLane (sl.xlanes c a b)
      = (sl.lanes.head?).map (fun l => { p := l, here := sl.on l, a := sl.read c a l, b := sl.read c b l }) := by
    rw [lowLane, Slice.xlanes, List.find?_map, Slice.lanes, List.head?_filter]
    rfl
  obtain ⟨l, ls, hls⟩ := List.exists_cons_of_ne_nil h
  simp [lowB, hfind, hls]

theorem Slice.fromLane_xlanes (sl : Slice) (c : Nat) (a b : Opd) {l : Nat} (hl : l < 4) :
    fromLane (sl.xlanes c a b) l = if sl.on l then sl.read c a l else 0 := by
  rw [fromLane, sl.laneAt_xlanes c a b hl]

/-- The value that each lane of the effective mask takes from its source lane (R217). -/
theorem Slice.sliceMove_eq (sl : Slice) (c : Nat) (d a b : Opd) (pick : XLane → Word → Nat) :
    sliceMove d a b pick c sl = sl.vmap d (fun l =>
      let src := pick { p := l, here := sl.on l, a := sl.read c a l, b := sl.read c b l } (sl.read c b (sl.lanes.headD 0)) % 4
      if sl.on src then sl.read c a src else 0) := by
  refine sl.vmap_congr d fun l hl ho => ?_
  have hne : sl.lanes ≠ [] := List.ne_nil_of_mem (a := l) (List.mem_filter.2 ⟨by simp; omega, ho⟩)
  simp only [sl.laneAt_xlanes c a b hl, sl.lowB_xlanes c a b hne, sl.fromLane_xlanes c a b (Nat.mod_lt _ (by decide))]

/-- The word `w` issues as the slice-scope move that `pick` says, from the source lane that `src` says (R217). -/
structure SliceMoveWord (w : VWord) (pick : XLane → Word → Nat) (src : Nat → Word → Word → Nat) : Prop where
  runs : ∀ d a b s, exec (w d a b) s = issue (w d a b) (perSlice (sliceMove d a b pick)) s
  source : ∀ l here a b low, l < 4 → pick { p := l, here := here, a := a, b := b } low % 4 = src l b low

theorem toNat_mod_four (b : Word) : b.toNat % 4 = (b.extractLsb' 0 2).toNat := by simp

theorem xor_mod_four {l n : Nat} (hl : l < 4) (hn : n < 4) : (l ^^^ n) % 4 = l ^^^ n :=
  Nat.mod_eq_of_lt (Nat.xor_lt_two_pow (n := 2) hl hn)

theorem sshf_moves : SliceMoveWord .sshf (fun x _ => x.b.toNat) (fun _ b _ => (b.extractLsb' 0 2).toNat) :=
  ⟨fun _ _ _ _ => rfl, fun _ _ _ b _ _ => toNat_mod_four b⟩

theorem sshx_moves : SliceMoveWord .sshx (fun x _ => x.p ^^^ x.b.toNat % 4) (fun l b _ => l ^^^ (b.extractLsb' 0 2).toNat) :=
  ⟨fun _ _ _ _ => rfl, fun _ _ _ _ _ hl => by rw [xor_mod_four hl (Nat.mod_lt _ (by decide)), toNat_mod_four]⟩

theorem sbc_moves : SliceMoveWord .sbc (fun _ low => low.toNat) (fun _ _ low => (low.extractLsb' 0 2).toNat) :=
  ⟨fun _ _ _ _ => rfl, fun _ _ _ _ low _ => toNat_mod_four low⟩

theorem SliceMoveWord.effect {w : VWord} {pick : XLane → Word → Nat} {src : Nat → Word → Word → Nat} (hw : SliceMoveWord w pick src)
    {s : State} {p : At} {d a b : Opd} (h : s.Executes (w d a b) p) :
    ∃ t, exec (w d a b) s = .next t ∧ WordFrame s t (w d a b) p ∧ EachSlice s t p (fun x sl sl' =>
      let c := x.record.crewlog
      let low := sl.read c b (sl.lanes.headD 0)
      sl.VectorResult sl' d (fun l =>
        let q := src l (sl.read c b l) low
        if sl.on q then sl.read c a q else 0) 0) := by
  obtain ⟨t, ht, hframe, heach⟩ := perSlice_effect h (sliceMove d a b pick) fun c sl => sl.vmap_plain d _
  refine ⟨t, (hw.runs d a b s).trans ht, hframe, heach.imp fun k _ x _ sl _ sl' e => e ▸ ?_⟩
  set c := x.record.crewlog
  rw [Slice.sliceMove_eq, Slice.vmap_congr sl.charged d (g := fun l =>
    let q := src l (sl.read c b l) (sl.read c b (sl.lanes.headD 0))
    if sl.on q then sl.read c a q else 0) fun l hl _ => ?_]
  · exact sl.vmap_result d _
  · simp only [hw.source _ _ _ _ _ hl, Slice.charged_read, Slice.charged_lanes, Slice.charged_on]

/-- Settles O14: each slice-scope move takes its lane's source among the lanes of its own slice. -/
theorem sliceMoveResults : Obligations.SliceMoveResults := by
  simp only [Obligations.SliceMoveResults, List.forall_mem_cons, List.not_mem_nil, false_imp_iff, implies_true, and_true]
  exact ⟨fun s p d a b h => sshf_moves.effect h, fun s p d a b h => sshx_moves.effect h, fun s p d a b h => sbc_moves.effect h⟩

end Sys2Proof.Machine

/-! PROOFS. The votes: `ballot` in a crew of more lanes than its mask has bits. -/

namespace Sys2Proof.Machine

/-- Slice 8 of a crew of sixteen, all its lanes on. -/
def wideSlice : Slice := { placeSlice 0 with idx := 8 }

/-- A team whose record names crews of 2^4 slices, more than the two bits of R84 can, with that slice alone in it. -/
def wideTeam : Team :=
  { placeTeam 0 1 2 with
    record := { placeRecord with crewlog := 4 }
    slices := [wideSlice]
    subs := [{ members := [8], entry := true, stalled := false, joined := false, seq := 0, wants := none, bad := [], accepted := none }] }

/-- The package after reset with that team on core 0, its slice issuing. -/
def wideState : State := { State.reset with cur := some { team := 1, members := [8], bad := [] }, teams := [wideTeam] }

/-- Where the slice stands. -/
def widePlace : At := { team := 1, members := [8], hdr := 0, ix := 0, flag := some 0, energy := 0, esat := false }

theorem wideSlice_mayRun : wideSlice.MayRun (.ballot (.s 0) .exec) where
  live := rfl
  free := rfl
  formed := rfl
  mode h := absurd h (by decide)
  window := by decide
  handler th h := by cases h
  allowed _ h := by cases h
  sound := by decide

theorem wideState_executes : wideState.Executes (.ballot (.s 0) .exec) widePlace where
  issuing := by decide +kernel
  nonempty := by decide
  distinct := by decide
  slices k hk := by
    obtain rfl : k = 8 := by simpa [widePlace] using hk
    exact ⟨wideSlice, rfl, wideSlice_mayRun, fun _ => by decide +kernel, fun f _ _ => by
      rw [show wideSlice.flag f = 0 from rfl]
      decide⟩

theorem wideState_crewHere : wideState.CrewHere widePlace wideTeam := by
  refine .inr ⟨0, .user, by decide, by decide, fun k hk sl hsl => ?_, .inr ⟨by decide, by decide, by decide⟩⟩
  obtain rfl : k = 8 := by simpa [widePlace] using hk
  cases hsl
  exact ⟨rfl, rfl⟩

/-- Refutes O13: the statement bounds no crew, and in a crew of sixteen slices, which R84 cannot name but the state can hold, lane 32 is
present and its A is not 0, while the mask has no bit 32. -/
theorem not_crewVoteResults : ¬ Obligations.CrewVoteResults := by
  intro h
  obtain ⟨t, -, -, m, hm, -⟩ := h _ List.mem_cons_self wideState widePlace wideTeam (.s 0) .exec wideState_executes rfl wideState_crewHere
  have hvote : (decide (32 < wideTeam.crewN widePlace.members)
      && ((wideTeam.crewLane widePlace.members .exec .zero 32).map (fun v => v.1 != 0)).getD false) = true := by decide
  have hbit := hm 32
  rw [hvote, BitVec.getLsbD_of_ge m 32 (le_refl 32)] at hbit
  exact Bool.false_ne_true hbit

end Sys2Proof.Machine

/-! PROOFS. The lanes of a crew: those that a crew-scope word reads, in the order of their numbers (R13, R210 to R212). -/

namespace Sys2Proof.Machine

/-! ## Lanes in the order of their numbers -/

/-- The slices of a sub-crew stand in rising crew positions, every one of them inside the crew (R13, R210). -/
structure Team.Lined (x : Team) (ms : List Nat) : Prop where
  rising : (x.crewOfSlices ms).Pairwise (fun a b => a.pos x.record.crewlog < b.pos x.record.crewlog)
  within : ∀ sl ∈ x.crewOfSlices ms, 4 * sl.pos x.record.crewlog + 4 ≤ x.crewN ms

/-- Lane `l` of a slice as a crew-scope word reads it (R210, R212). -/
def Slice.xlane (c : Nat) (sl : Slice) (a b : Opd) (l : Nat) : XLane :=
  { p := 4 * sl.pos c + l, here := sl.on l && !sl.ended, a := sl.read c a l, b := sl.read c b l }

/-- Crew lane `q` as a crew-scope word reads it, when it is present (R210, R212). -/
def Team.present? (x : Team) (ms : List Nat) (a b : Opd) (q : Nat) : Option XLane :=
  (x.crewLane ms a b q).map (fun v => { p := q, here := true, a := v.1, b := v.2 })

theorem Team.xlanes_eq (x : Team) (ms : List Nat) (a b : Opd) :
    x.xlanes ms a b = (x.crewOfSlices ms).flatMap (fun sl => [0, 1, 2, 3].map (sl.xlane x.record.crewlog a b)) := rfl

theorem Team.xwidth_eq (x : Team) (ms : List Nat) : x.xwidth ms = x.crewN ms := by
  rw [Team.xwidth, Team.crewN, Team.crewOfSlices, List.any_filterMap]
  congr 3
  funext m
  cases x.slice? m <;> rfl

theorem Team.lowRm_eq (x : Team) (ms : List Nat) : x.lowRm ms = x.crewRm ms := rfl

section Lanes

variable {x : Team} {ms : List Nat} {a b : Opd}

theorem Team.mem_xlanes {e : XLane} :
    e ∈ x.xlanes ms a b ↔ ∃ sl ∈ x.crewOfSlices ms, ∃ l, l < 4 ∧ e = sl.xlane x.record.crewlog a b l := by
  rw [Team.xlanes_eq, List.mem_flatMap]
  refine exists_congr fun sl => and_congr_right fun _ => ?_
  rw [List.mem_map]
  refine exists_congr fun l => ?_
  have hl : l ∈ [0, 1, 2, 3] ↔ l < 4 := by simp; omega
  rw [hl, eq_comm (a := e)]

theorem Team.Lined.xlanes_rising (h : x.Lined ms) : (x.xlanes ms a b).Pairwise (fun e e' => e.p < e'.p) := by
  rw [Team.xlanes_eq, List.pairwise_flatMap]
  refine ⟨fun sl _ => ?_, h.rising.imp fun {sl sl'} hlt e he e' he' => ?_⟩
  · simp [Slice.xlane]
  · simp only [List.mem_map] at he he'
    obtain ⟨l, hl, rfl⟩ := he
    obtain ⟨l', -, rfl⟩ := he'
    have hl4 : l < 4 := by simp at hl; omega
    simp only [Slice.xlane]
    omega

/-- A crew lane has one number, and no other lane has it. -/
theorem Team.Lined.eq_of_p (h : x.Lined ms) {e e' : XLane} (he : e ∈ x.xlanes ms a b) (he' : e' ∈ x.xlanes ms a b) (hp : e.p = e'.p) :
    e = e' := by
  have hnd : ((x.xlanes ms a b).map (·.p)).Nodup := by
    rw [List.Nodup, List.pairwise_map]
    exact h.xlanes_rising.imp fun hlt => Nat.ne_of_lt hlt
  exact List.inj_on_of_nodup_map hnd he he' hp

theorem Team.Lined.p_lt (h : x.Lined ms) {e : XLane} (he : e ∈ x.xlanes ms a b) : e.p < x.crewN ms := by
  obtain ⟨sl, hsl, l, hl, rfl⟩ := Team.mem_xlanes.1 he
  have := h.within sl hsl
  simp only [Slice.xlane]
  omega

/-- A present lane of the spec is a lane of the model that is here. -/
theorem Team.mem_xlanes_of_crewLane {q : Nat} {v : Word × Word} (h : x.crewLane ms a b q = some v) :
    { p := q, here := true, a := v.1, b := v.2 : XLane } ∈ x.xlanes ms a b := by
  obtain ⟨sl, hsl, hv⟩ := List.exists_of_findSome?_eq_some h
  split at hv
  case isFalse => cases hv
  case isTrue hc =>
    obtain ⟨hpos, hon, hlive⟩ := hc
    cases hv
    refine Team.mem_xlanes.2 ⟨sl, hsl, q % 4, Nat.mod_lt _ (by decide), ?_⟩
    simp only [Slice.xlane, hon, hlive, hpos, Nat.div_add_mod, Bool.not_false, Bool.and_self]

theorem Team.Lined.crewLane_eq_some_iff (h : x.Lined ms) {q : Nat} {v : Word × Word} :
    x.crewLane ms a b q = some v ↔ { p := q, here := true, a := v.1, b := v.2 : XLane } ∈ x.xlanes ms a b := by
  refine ⟨Team.mem_xlanes_of_crewLane, fun he => ?_⟩
  cases hc : x.crewLane ms a b q with
  | some w =>
    have heq := h.eq_of_p he (Team.mem_xlanes_of_crewLane hc) rfl
    simp only [XLane.mk.injEq, true_and] at heq
    rw [Prod.ext heq.1 heq.2]
  | none =>
    obtain ⟨sl, hsl, l, hl, hxl⟩ := Team.mem_xlanes.1 he
    simp only [Slice.xlane, XLane.mk.injEq] at hxl
    obtain ⟨hq, hon, -, -⟩ := hxl
    have hnone := List.findSome?_eq_none_iff.1 hc sl hsl
    rw [eq_comm, Bool.and_eq_true, Bool.not_eq_true'] at hon
    rw [if_pos ⟨by omega, by rw [show q % 4 = l by omega]; exact hon.1, hon.2⟩] at hnone
    cases hnone

theorem Team.Lined.laneAt_of_mem (h : x.Lined ms) {e : XLane} (he : e ∈ x.xlanes ms a b) :
    laneAt (x.xlanes ms a b) e.p = some e := by
  cases hf : laneAt (x.xlanes ms a b) e.p with
  | none => exact absurd (List.find?_eq_none.1 hf e he) (by simp)
  | some e' =>
    have hp : e'.p = e.p := by simpa using List.find?_some hf
    rw [h.eq_of_p (List.mem_of_find?_eq_some hf) he hp]

/-- The lane that the model finds by its number, when it is here, is the present lane of the spec. -/
theorem Team.Lined.laneAt_filter (h : x.Lined ms) (q : Nat) :
    (laneAt (x.xlanes ms a b) q).filter (·.here) = x.present? ms a b q := by
  cases hc : x.crewLane ms a b q with
  | some v => rw [Team.present?, hc, h.laneAt_of_mem (h.crewLane_eq_some_iff.1 hc)]; rfl
  | none =>
    rw [Team.present?, hc, Option.map_none, Option.filter_eq_none_iff]
    intro e he hhere
    have hp : e.p = q := by simpa using List.find?_some he
    have hsome : x.crewLane ms a b q = some (e.a, e.b) := by
      refine h.crewLane_eq_some_iff.2 ?_
      have hmem := List.mem_of_find?_eq_some he
      obtain ⟨p, here, ea, eb⟩ := e
      simp only at hp hhere
      subst hp hhere
      exact hmem
    rw [hsome] at hc
    cases hc

/-- The present lanes below a number, in the order of their numbers. -/
theorem Team.Lined.present_below (h : x.Lined ms) (n : Nat) :
    (x.xlanes ms a b).filter (fun e => e.here && decide (e.p < n)) = (List.range n).filterMap (x.present? ms a b) := by
  have hp : ∀ {q e}, x.present? ms a b q = some e → e.p = q := fun {q e} he => by
    obtain ⟨v, -, rfl⟩ := Option.map_eq_some_iff.1 he
    rfl
  have hleft : ((x.xlanes ms a b).filter (fun e => e.here && decide (e.p < n))).Pairwise (fun e e' => e.p < e'.p) :=
    h.xlanes_rising.filter _
  have hright : ((List.range n).filterMap (x.present? ms a b)).Pairwise (fun e e' => e.p < e'.p) := by
    rw [List.pairwise_filterMap]
    refine List.pairwise_lt_range.imp fun {q q'} hlt e he e' he' => ?_
    rwa [hp he, hp he']
  have hnd : ∀ {l : List XLane}, l.Pairwise (fun e e' => e.p < e'.p) → l.Nodup := fun hl =>
    List.Pairwise.imp (fun {e e'} (hlt : e.p < e'.p) (he : e = e') => Nat.ne_of_lt hlt (congrArg XLane.p he)) hl
  refine ((List.perm_ext_iff_of_nodup (hnd hleft) (hnd hright)).2 fun e => ?_).eq_of_pairwise
    (fun e e' _ _ hlt hgt => absurd hlt (Nat.lt_asymm hgt)) hleft hright
  rw [List.mem_filter, List.mem_filterMap]
  constructor
  · rintro ⟨he, hcond⟩
    obtain ⟨hhere, hlt⟩ := Bool.and_eq_true_iff.1 hcond
    refine ⟨e.p, List.mem_range.2 (by simpa using hlt), ?_⟩
    rw [← h.laneAt_filter, h.laneAt_of_mem he, Option.filter_some, if_pos hhere]
  · rintro ⟨q, hq, he⟩
    have heq := hp he
    obtain ⟨v, hv, rfl⟩ := Option.map_eq_some_iff.1 he
    exact ⟨Team.mem_xlanes_of_crewLane hv, by simpa using List.mem_range.1 hq⟩

theorem Team.Lined.present_all (h : x.Lined ms) :
    (x.xlanes ms a b).filter (·.here) = (List.range (x.crewN ms)).filterMap (x.present? ms a b) := by
  rw [← h.present_below]
  refine List.filter_congr fun e he => ?_
  rw [decide_eq_true (h.p_lt he), Bool.and_true]

/-! ## What the words of the class take from the lanes (R212 to R216) -/

theorem Team.Lined.lowB_eq (h : x.Lined ms) : lowB (x.xlanes ms a b) = x.crewUniform ms a b := by
  rw [lowB, lowLane, ← List.head?_filter, h.present_all, List.head?_filterMap, Team.crewUniform, List.map_findSome?, List.map_findSome?]
  congr 2
  funext q
  rw [Function.comp_apply, Team.present?, Option.map_map]
  rfl

theorem Team.Lined.fromLane_eq (h : x.Lined ms) (q : Nat) :
    fromLane (x.xlanes ms a b) q = ((x.crewLane ms a b q).map (·.1)).getD 0 := by
  have hval : fromLane (x.xlanes ms a b) q = (((laneAt (x.xlanes ms a b) q).filter (·.here)).map (·.a)).getD 0 := by
    rw [fromLane]
    cases laneAt (x.xlanes ms a b) q with
    | none => rfl
    | some e =>
      rw [Option.filter_some]
      cases hh : e.here <;> simp [hh]
  rw [hval, h.laneAt_filter, Team.present?, Option.map_map]
  rfl

theorem Team.Lined.presentA_eq (h : x.Lined ms) : presentA (x.xlanes ms a b) = x.crewValues ms a b := by
  rw [presentA, h.present_all, List.map_filterMap, Team.crewValues]
  simp only [Team.present?, Option.map_map]
  rfl

end Lanes

end Sys2Proof.Machine

/-! PROOFS. The implicit join of a crew-scope word: the slices that arrive together leave it together (R22, R24, R25, R211). -/

namespace Sys2Proof.Machine

/-! ## Lists in rising order -/

theorem insertNat_above {k : Nat} {as : List Nat} (h : ∀ a ∈ as, a < k) : insertNat k as = as ++ [k] := by
  induction as with
  | nil => rfl
  | cons a r ih =>
    have ha : a < k := h a (by simp)
    rw [insertNat, if_neg (by omega), if_neg (by omega), ih fun b hb => h b (by simp [hb]), List.cons_append]

theorem sortNat_rising {ms : List Nat} (h : ms.Pairwise (· < ·)) : sortNat ms = ms := by
  have key : ∀ bs as : List Nat, (as ++ bs).Pairwise (· < ·) → bs.foldl (fun r a => insertNat a r) as = as ++ bs := by
    intro bs
    induction bs with
    | nil => simp
    | cons b r ih =>
      intro as has
      have hb : ∀ a ∈ as, a < b := fun a ha => (List.pairwise_append.1 has).2.2 a ha b (by simp)
      rw [List.foldl_cons, insertNat_above hb, ih _ (by simpa using has), List.append_assoc, List.singleton_append]
  exact key ms [] h

/-! ## The sub-crew that a completed join forms -/

/-- A change of sub-crews that keeps their slices and whether their join has completed keeps the sub-crew that is found. -/
theorem find?_joined_map (l : List SubCrew) (ms : List Nat) (f : SubCrew → SubCrew)
    (hf : ∀ b, (f b).members = b.members ∧ (f b).joined = b.joined) :
    ((l.map f).find? (fun b => b.joined && ms.any (fun m => b.members.contains m))).map (·.members)
      = (l.find? (fun b => b.joined && ms.any (fun m => b.members.contains m))).map (·.members) := by
  rw [List.find?_map, Option.map_map]
  have hp : ((fun b : SubCrew => b.joined && ms.any (fun m => b.members.contains m)) ∘ f)
      = fun b => b.joined && ms.any (fun m => b.members.contains m) := by
    funext b
    simp only [Function.comp_apply, (hf b).1, (hf b).2]
  rw [hp]
  congr 1
  funext b
  exact (hf b).1

/-- The slices of the sub-crew whose implicit join has completed (R24). -/
def State.gangedMembers (s : State) (p : At) : Option (List Nat) := (s.ganged p).map (·.members)

theorem State.gangedMembers_eq {s : State} {p : At} {x : Team} (hx : s.team? p.team = some x) :
    s.gangedMembers p = (x.subs.find? (fun b => b.joined && p.members.any (fun m => b.members.contains m))).map (·.members) := by
  rw [State.gangedMembers, State.ganged, hx, Option.bind_some]

theorem State.gangedMembers_setSub (s : State) (p : At) (k : Nat) (f : SubCrew → SubCrew)
    (hf : ∀ b, (f b).members = b.members ∧ (f b).joined = b.joined) :
    (s.setTeam p.team (fun t => t.setSub k f)).gangedMembers p = s.gangedMembers p := by
  cases hx : s.team? p.team with
  | none =>
    have hn : (s.setTeam p.team (fun t => t.setSub k f)).team? p.team = none := by
      rw [State.team?_setTeam_self s _ _ (fun t => t.setSub_uid k f), hx]; rfl
    simp only [State.gangedMembers, State.ganged, hx, hn]
  | some x =>
    have hy : (s.setTeam p.team (fun t => t.setSub k f)).team? p.team = some (x.setSub k f) := by
      rw [State.team?_setTeam_self s _ _ (fun t => t.setSub_uid k f), hx]; rfl
    rw [State.gangedMembers_eq hx, State.gangedMembers_eq hy, Team.setSub]
    refine find?_joined_map _ _ _ fun b => ?_
    split
    · exact hf b
    · exact ⟨rfl, rfl⟩

theorem State.gangedMembers_of_teams {s t : State} (p : At) (h : ∀ u, t.team? u = s.team? u) : t.gangedMembers p = s.gangedMembers p := by
  simp only [State.gangedMembers, State.ganged, h]

/-- Asking for an entry changes neither the slices of a sub-crew nor whether its join has completed. -/
theorem State.askEntry_gangedMembers (s : State) (p : At) (k : Nat) : (s.askEntry p.team k).gangedMembers p = s.gangedMembers p := by
  unfold State.askEntry
  split
  · rfl
  · split
    · rfl
    · simp only
      split
      · rfl
      · have hseq := s.gangedMembers_setSub p k (fun b => { b with seq := s.fresh }) fun _ => ⟨rfl, rfl⟩
        split
        · exact (State.gangedMembers_setSub _ p k (fun b => { b with entry := true }) fun _ => ⟨rfl, rfl⟩).trans hseq
        · exact (State.gangedMembers_of_teams p fun u => State.setCore_team? _ _ u _).trans hseq

end Sys2Proof.Machine

namespace Sys2Proof.Machine

/-! ## The slices of a crew that arrive together (R22) -/

/-- A slice that waits at the level of the implicit join (R21, R24). -/
def Slice.waiting (sl : Slice) : Slice := { sl with waitLevel := some 0, block := .join 0 }

/-- The live slices of the crew that starts at `crew` are those of `p`, all in one mode, and no entry of the crew is pending (R22, R211). -/
structure Team.AllHere (x : Team) (p : At) (crew : Nat) (mode : Mode) : Prop where
  crewOf : ∀ k ∈ p.members, x.crewOf k = crew
  rising : p.members.Pairwise (· < ·)
  slices : ∀ k ∈ p.members, ∃ sl, x.slice? k = some sl ∧ sl.mode = mode ∧ sl.ended = false
  expected : ∀ k ∈ x.expects crew 0, k ∈ p.members
  pending : ∀ e ∈ x.joins, e.crew ≠ crew

/-- The entry of the implicit join at the word of `p` after the slices `as` have arrived (R21, R24). -/
def Team.joinEnt (x : Team) (p : At) (crew : Nat) (mode : Mode) (as : List Nat) : JoinEnt :=
  { crew := crew, level := 0, xlane := true, sup := mode == .supervisor, hdr := p.hdr, ix := p.ix, expected := x.expects crew 0, arrived := as }

/-- The team after the slices `as` have arrived and wait (R22). -/
def Team.arrived (x : Team) (p : At) (crew : Nat) (mode : Mode) (as : List Nat) : Team :=
  { x with
    slices := x.slices.map (fun sl => if sl.idx ∈ as then sl.waiting else sl)
    joins := x.joins ++ if as = [] then [] else [x.joinEnt p crew mode as] }

/-- The team after slice `k` is entered among those that have arrived (R22). -/
def Team.entered (x : Team) (p : At) (crew : Nat) (mode : Mode) (as : List Nat) (k : Nat) (t : Team) : Team :=
  { t with joins := t.joins.filter (fun e => decide (e ≠ x.joinEnt p crew mode as)) ++ [x.joinEnt p crew mode (insertNat k as)] }

/-- The team after the deeper entries of a crew no longer expect slice `k` (R22). -/
def Team.discarded (crew k : Nat) (t : Team) : Team :=
  { t with joins := t.joins.map (fun e =>
      if e.crew = crew ∧ 1 ≤ e.level then { e with expected := e.expected.filter (· != k) } else e) }

@[simp] theorem Team.entered_uid (x : Team) (p : At) (crew : Nat) (mode : Mode) (as : List Nat) (k : Nat) (t : Team) :
    (x.entered p crew mode as k t).uid = t.uid := rfl

@[simp] theorem Team.discarded_uid (crew k : Nat) (t : Team) : (t.discarded crew k).uid = t.uid := rfl

theorem State.team?_setTeam_of {s : State} {u : Nat} {x : Team} (hx : s.team? u = some x) {f : Team → Team} (hf : ∀ t, (f t).uid = t.uid) :
    (s.setTeam u f).team? u = some (f x) := by
  rw [State.team?_setTeam_self s u f hf, hx, Option.map_some]

section Arrivals

variable {x : Team} {p : At} {crew : Nat} {mode : Mode}

theorem Team.AllHere.mem_expects (h : x.AllHere p crew mode) {k : Nat} (hk : k ∈ p.members) : k ∈ x.expects crew 0 := by
  obtain ⟨sl, hsl, -, hlive⟩ := h.slices k hk
  have hcrew := h.crewOf k hk
  refine List.mem_filter.2 ⟨?_, ?_⟩
  · rw [Team.crewSlices, List.mem_map]
    refine ⟨k % 2 ^ x.record.crewlog, List.mem_range.2 (Nat.mod_lt _ (Nat.two_pow_pos _)), ?_⟩
    rw [← hcrew, Team.crewOf, Nat.mul_comm, Nat.div_add_mod]
  · simp only [hsl, hlive]
    cases sl.waitLevel <;> rfl

theorem Team.arrived_nil (x : Team) : x.arrived p crew mode [] = x := by
  simp [Team.arrived]

theorem Team.arrived_slice? (x : Team) (as : List Nat) (k : Nat) :
    (x.arrived p crew mode as).slice? k = (x.slice? k).map (fun sl => if k ∈ as then sl.waiting else sl) :=
  find?_map_mem x.slices (·.idx) k as Slice.waiting fun _ => rfl

theorem Team.AllHere.find?_pending (h : x.AllHere p crew mode) (q : JoinEnt → Bool) :
    x.joins.find? (fun e => e.crew == crew && q e) = none := by
  refine List.find?_eq_none.2 fun e he => ?_
  simp [h.pending e he]

/-- The entry that an arriving slice finds, or makes. -/
theorem Team.AllHere.arrived_held (h : x.AllHere p crew mode) (as : List Nat) :
    (x.arrived p crew mode as).joins.find? (fun e => e.crew == crew && e.level == 0)
      = if as = [] then none else some (x.joinEnt p crew mode as) := by
  rw [Team.arrived, List.find?_append, h.find?_pending, Option.none_or]
  split
  · rfl
  · simp [Team.joinEnt]

theorem Team.AllHere.arrived_mode (h : x.AllHere p crew mode) (as : List Nat) {k : Nat} (hk : k ∈ p.members) :
    (((x.arrived p crew mode as).slice? k).map (fun sl => sl.mode == .supervisor)).getD false = (mode == .supervisor) := by
  obtain ⟨sl, hsl, rfl, -⟩ := h.slices k hk
  rw [x.arrived_slice?, hsl]
  by_cases hm : k ∈ as <;> simp [hm, Slice.waiting]

/-- An arrival at the implicit join enters the slice among those that have arrived, and the slice waits (R22). -/
theorem arriveJoin_eq (h : x.AllHere p crew mode) {as : List Nat} {s : State} (hs : s.team? p.team = some (x.arrived p crew mode as))
    {k : Nat} (hk : k ∈ p.members) :
    s.arriveJoin p k 0 true
      = some (((s.setTeam p.team (x.entered p crew mode as k)).setSlice p.team k Slice.waiting).discardJoins p.team k 1 p.members) := by
  have hcrew : (x.arrived p crew mode as).crewOf k = crew := h.crewOf k hk
  unfold State.arriveJoin
  rw [hs]
  simp only [hcrew, h.arrived_mode as hk, h.arrived_held as]
  by_cases has : as = []
  · subst has
    simp only [if_true, Option.getD_none, Bool.false_eq_true, if_false, x.arrived_nil]
    rfl
  · simp only [has, if_false, Option.getD_some, Team.joinEnt, bne_self_eq_false, Bool.or_self, Bool.false_eq_true]
    rfl

/-- Where the arrivals stand: the slices `as` wait, and nothing else of the state `z` but names has changed. -/
structure Arriving (x : Team) (p : At) (crew : Nat) (mode : Mode) (z : State) (as : List Nat) (s : State) : Prop where
  rest : s = z.withUnits s
  others : ∀ v, v ≠ p.team → s.team? v = z.team? v
  engines : ∀ c, (s.core c).engine = (z.core c).engine
  team : s.team? p.team = some (x.arrived p crew mode as)

theorem Team.AllHere.arrived_step (h : x.AllHere p crew mode) {as : List Nat} {k : Nat} (habove : ∀ a ∈ as, a < k) :
    ((x.entered p crew mode as k (x.arrived p crew mode as)).setSlice k Slice.waiting).discarded crew k = x.arrived p crew mode (as ++ [k]) := by
  have hne : ∀ e ∈ x.joins, decide (e ≠ x.joinEnt p crew mode as) = true := fun e he => decide_eq_true fun heq =>
    h.pending e he (heq ▸ rfl)
  have hfilter : (x.arrived p crew mode as).joins.filter (fun e => decide (e ≠ x.joinEnt p crew mode as)) = x.joins := by
    rw [Team.arrived, List.filter_append, List.filter_eq_self.2 hne]
    split <;> simp
  have hmap : (x.joins ++ [x.joinEnt p crew mode (as ++ [k])]).map (fun e =>
      if e.crew = crew ∧ 1 ≤ e.level then { e with expected := e.expected.filter (· != k) } else e)
      = x.joins ++ [x.joinEnt p crew mode (as ++ [k])] := by
    refine (List.map_congr_left fun e he => ?_).trans (List.map_id _)
    rcases List.mem_append.1 he with he | he
    · rw [if_neg fun hc => h.pending e he hc.1]; rfl
    · rw [List.mem_singleton.1 he, if_neg fun hc => absurd hc.2 (by simp [Team.joinEnt])]; rfl
  have hslices : (x.slices.map (fun sl => if sl.idx ∈ as then sl.waiting else sl)).map (fun sl => if sl.idx = k then sl.waiting else sl)
      = x.slices.map (fun sl => if sl.idx ∈ as ++ [k] then sl.waiting else sl) := by
    rw [List.map_map]
    refine List.map_congr_left fun sl _ => ?_
    by_cases ha : sl.idx ∈ as
    · simp only [Function.comp_apply, if_pos ha, if_pos (List.mem_append_left [k] ha)]
      split <;> rfl
    · simp only [Function.comp_apply, if_neg ha, List.mem_append, or_iff_right ha, List.mem_singleton]
  rw [Team.discarded, Team.setSlice, Team.entered, hfilter, insertNat_above habove]
  simp only [hmap]
  conv_rhs => rw [Team.arrived, if_neg (by simp), ← hslices]
  rfl

/-- One more arrival: the join completes if it was the last to come (R22, R25). -/
theorem Arriving.step (h : x.AllHere p crew mode) {z : State} {as : List Nat} {s : State} (hs : Arriving x p crew mode z as s) {k : Nat}
    (hk : k ∈ p.members) (habove : ∀ a ∈ as, a < k) :
    ∃ s', s.arriveJoin p k 0 true = some (s'.checkJoins p.team crew p.members) ∧ Arriving x p crew mode z (as ++ [k]) s' := by
  have h1 := State.team?_setTeam_of hs.team (f := x.entered p crew mode as k) fun _ => rfl
  set s1 := s.setTeam p.team (x.entered p crew mode as k) with hs1
  have h2 : (s1.setSlice p.team k Slice.waiting).team? p.team = _ := State.team?_setTeam_of h1 fun t => Team.setSlice_uid t k _
  set s2 := s1.setSlice p.team k Slice.waiting with hs2
  have hcrew : ((x.entered p crew mode as k (x.arrived p crew mode as)).setSlice k Slice.waiting).crewOf k = crew := h.crewOf k hk
  have hdisc : s2.discardJoins p.team k 1 p.members = (s2.setTeam p.team (Team.discarded crew k)).checkJoins p.team crew p.members := by
    rw [State.discardJoins, h2]
    simp only [hcrew]
    rfl
  refine ⟨s2.setTeam p.team (Team.discarded crew k), by rw [arriveJoin_eq h hs.team hk, hdisc], State.withUnits_trans hs.rest rfl, fun v hv => ?_,
    fun c => hs.engines c, ?_⟩
  · calc (s2.setTeam p.team (Team.discarded crew k)).team? v
        = s2.team? v := State.team?_setTeam_ne s2 _ (fun t => Team.discarded_uid crew k t) hv
      _ = s1.team? v := State.team?_setTeam_ne s1 _ (fun t => Team.setSlice_uid t k _) hv
      _ = s.team? v := State.team?_setTeam_ne s _ (fun t => Team.entered_uid x p crew mode as k t) hv
      _ = z.team? v := hs.others v hv
  · rw [State.team?_setTeam_of h2 (fun t => Team.discarded_uid crew k t), h.arrived_step habove]

/-- The entries of the crew that are complete: its own, once every slice of the crew has arrived (R25). -/
theorem Team.AllHere.due_eq (h : x.AllHere p crew mode) {as : List Nat} (has : as ≠ []) :
    (x.arrived p crew mode as).joins.filter (fun e => e.crew == crew && e.expected.all (fun m => e.arrived.contains m))
      = if (x.expects crew 0).all (fun m => as.contains m) then [x.joinEnt p crew mode as] else [] := by
  have hnone : x.joins.filter (fun e => e.crew == crew && e.expected.all (fun m => e.arrived.contains m)) = [] :=
    List.filter_eq_nil_iff.2 fun e he => by simp [h.pending e he]
  rw [Team.arrived, if_neg has, List.filter_append, hnone, List.nil_append, List.filter_singleton]
  simp only [Team.joinEnt, beq_self_eq_true, Bool.true_and, Bool.cond_eq_ite]

theorem Arriving.checkJoins_wait (h : x.AllHere p crew mode) {z : State} {as : List Nat} {s : State} (hs : Arriving x p crew mode z as s)
    (has : as ≠ []) {m : Nat} (hm : m ∈ p.members) (hout : m ∉ as) : s.checkJoins p.team crew p.members = s := by
  have hfalse : (x.expects crew 0).all (fun m => as.contains m) = false :=
    List.all_eq_false.2 ⟨m, h.mem_expects hm, by simpa using hout⟩
  rw [State.checkJoins, hs.team]
  simp only [h.due_eq has, hfalse, Bool.false_eq_true, if_false]
  rfl

theorem Arriving.checkJoins_complete (h : x.AllHere p crew mode) {z s : State} (hs : Arriving x p crew mode z p.members s)
    (hne : p.members ≠ []) :
    s.checkJoins p.team crew p.members = s.finishJoin p.team p.members (x.joinEnt p crew mode p.members) := by
  have htrue : (x.expects crew 0).all (fun m => p.members.contains m) = true :=
    List.all_eq_true.2 fun m hm => by simpa using h.expected m hm
  rw [State.checkJoins, hs.team]
  simp only [h.due_eq hne, htrue, if_true]
  rfl

/-- The arrivals one after another: the last of them completes the join (R22, R25). -/
theorem Arriving.foldl (h : x.AllHere p crew mode) {z : State} (bs : List Nat) {as : List Nat} {s : State} (hs : Arriving x p crew mode z as s)
    (hms : as ++ bs = p.members) (hbs : bs ≠ []) :
    ∃ s', Arriving x p crew mode z p.members s'
      ∧ bs.foldl (fun s k => (s.arriveJoin p k 0 true).getD (s.trapWord p k 0x06 0)) s
        = s'.finishJoin p.team p.members (x.joinEnt p crew mode p.members) := by
  induction bs generalizing as s with
  | nil => exact absurd rfl hbs
  | cons k r ih =>
    have hrise := hms ▸ h.rising
    have hk : k ∈ p.members := hms ▸ by simp
    obtain ⟨s', harr, hs'⟩ := hs.step h hk fun a ha => (List.pairwise_append.1 hrise).2.2 a ha k (by simp)
    have hms' : (as ++ [k]) ++ r = p.members := by rw [← hms]; simp
    rw [List.foldl_cons, harr, Option.getD_some]
    cases r with
    | nil =>
      rw [List.append_nil] at hms'
      rw [hms'] at hs'
      exact ⟨s', hs', hs'.checkJoins_complete h (hms' ▸ by simp)⟩
    | cons m r =>
      have hout : m ∉ as ++ [k] := fun hm =>
        Nat.lt_irrefl m ((List.pairwise_append.1 (hms'.symm ▸ h.rising)).2.2 m hm m (by simp))
      rw [hs'.checkJoins_wait h (by simp) (hms' ▸ by simp) hout]
      exact ih hs' hms' (by simp)

end Arrivals

end Sys2Proof.Machine

namespace Sys2Proof.Machine

/-! ## The end of the join (R25) -/

/-- The team after the entry `e` completes and its slices leave it, with the sub-crews `subs` (R25). -/
def Team.finished (e : JoinEnt) (subs : List SubCrew) (t : Team) : Team :=
  { t with
    joins := t.joins.filter (fun e' => decide (e' ≠ e))
    subs := subs
    slices := t.slices.map (fun sl => if e.arrived.contains sl.idx then sl.leaveJoin e.xlane else sl) }

@[simp] theorem Team.finished_uid (e : JoinEnt) (subs : List SubCrew) (t : Team) : (t.finished e subs).uid = t.uid := rfl

theorem Slice.leaveJoin_idx (sl : Slice) (xlane : Bool) : (sl.leaveJoin xlane).idx = sl.idx := by
  cases xlane
  · exact Slice.advance_idx _
  · rfl

theorem Team.finished_slice? (e : JoinEnt) (subs : List SubCrew) (t : Team) (k : Nat) :
    (t.finished e subs).slice? k = (t.slice? k).map (fun sl => if k ∈ e.arrived then sl.leaveJoin e.xlane else sl) := by
  rw [Team.slice?, Team.finished]
  simp only [List.contains_eq_mem, decide_eq_true_eq]
  exact find?_map_mem t.slices (·.idx) k e.arrived (·.leaveJoin e.xlane) fun sl => sl.leaveJoin_idx e.xlane

/-- A completed join makes one sub-crew of the slices that arrived, and leaves none of them in another (R25). -/
theorem finishJoin_eq {s : State} {u : Nat} {t : Team} (ht : s.team? u = some t) (cur : List Nat) (e : JoinEnt) :
    ∃ (left : List SubCrew) (new : SubCrew) (keep : Bool), (∀ b ∈ left, ∀ m ∈ e.arrived, m ∉ b.members)
      ∧ new.members = sortNat e.arrived ∧ new.joined = e.xlane
      ∧ s.finishJoin u cur e =
        if keep then { s.setTeam u (Team.finished e (left ++ [new])) with fresh := s.fresh + 1 }
        else ({ s.setTeam u (Team.finished e (left ++ [new])) with fresh := s.fresh + 1 } : State).askEntry u (new.members.headD 0) := by
  unfold State.finishJoin
  rw [ht]
  refine ⟨_, _, _, fun b hb m hm => ?_, rfl, rfl, rfl⟩
  obtain ⟨b', -, rfl⟩ := List.mem_map.1 (List.mem_of_mem_filter hb)
  simp [List.mem_filter, hm]

/-- The slice once it waits at no level (R25). -/
def Slice.unwaited (sl : Slice) : Slice := { sl with waitLevel := none }

theorem Slice.waiting_leaveJoin (sl : Slice) (h : sl.block = .none) : sl.waiting.leaveJoin true = sl.unwaited := by
  rw [Slice.leaveJoin, Slice.waiting, Slice.unwaited, if_pos rfl, h]

section Arrivals

variable {x : Team} {p : At} {crew : Nat} {mode : Mode}

theorem Team.AllHere.finished_joins (h : x.AllHere p crew mode) (hne : p.members ≠ []) :
    (x.arrived p crew mode p.members).joins.filter (fun e => decide (e ≠ x.joinEnt p crew mode p.members)) = x.joins := by
  have hkeep : ∀ e ∈ x.joins, decide (e ≠ x.joinEnt p crew mode p.members) = true := fun e he => decide_eq_true fun heq =>
    h.pending e he (heq ▸ rfl)
  rw [Team.arrived, if_neg hne, List.filter_append, List.filter_eq_self.2 hkeep]
  simp

/-- After the whole crew has arrived its slices run on, and form the sub-crew whose join has completed (R24, R25). -/
theorem Arriving.finishJoin (h : x.AllHere p crew mode) {z s : State} (hx : z.team? p.team = some x)
    (hs : Arriving x p crew mode z p.members s) (hne : p.members ≠ [])
    (hfree : ∀ k ∈ p.members, ∀ sl, x.slice? k = some sl → sl.block = .none) :
    MembersChanged p.team p.members Slice.unwaited z (s.finishJoin p.team p.members (x.joinEnt p crew mode p.members))
      ∧ (s.finishJoin p.team p.members (x.joinEnt p crew mode p.members)).gangedMembers p = some p.members := by
  obtain ⟨left, new, keep, hleft, hmem, hjoined, heq⟩ := finishJoin_eq hs.team p.members (x.joinEnt p crew mode p.members)
  set e := x.joinEnt p crew mode p.members with he
  set s1 : State := { s.setTeam p.team (Team.finished e (left ++ [new])) with fresh := s.fresh + 1 } with hs1
  have ht1 : s1.team? p.team = some ((x.arrived p crew mode p.members).finished e (left ++ [new])) :=
    State.team?_setTeam_of hs.team fun t => t.finished_uid e _
  have hnew : new.members = p.members := hmem.trans (sortNat_rising h.rising)
  have hganged : s1.gangedMembers p = some p.members := by
    have hnone : left.find? (fun b => b.joined && p.members.any (fun m => b.members.contains m)) = none := by
      refine List.find?_eq_none.2 fun b hb hc => ?_
      obtain ⟨m, hm, hin⟩ := List.any_eq_true.1 (Bool.and_eq_true_iff.1 hc).2
      exact hleft b hb m hm (by simpa using hin)
    have hsome : (new.joined && p.members.any (fun m => new.members.contains m)) = true := by
      obtain ⟨k, hk⟩ := List.exists_mem_of_ne_nil _ hne
      rw [hjoined, hnew, show e.xlane = true from rfl, Bool.true_and]
      exact List.any_eq_true.2 ⟨k, hk, by simpa using hk⟩
    rw [State.gangedMembers_eq ht1, Team.finished, List.find?_append, hnone, Option.none_or, List.find?_singleton, if_pos hsome, Option.map_some, hnew]
  have hslice : ∀ k, s1.slice? p.team k = (x.slice? k).map (fun sl =>
      if k ∈ p.members then sl.waiting.leaveJoin true else sl) := fun k => by
    rw [State.slice?_eq s1 _ k _ ht1, Team.finished_slice?, x.arrived_slice?, Option.map_map]
    congr 1
    funext sl
    by_cases hk : k ∈ p.members <;> simp [hk, he, Team.joinEnt]
  have hchanged : MembersChanged p.team p.members Slice.unwaited z s1 := by
    refine ⟨⟨State.withUnits_trans hs.rest rfl, fun v hv => ?_, fun y hy => ?_, hs.engines⟩, fun k hk sl hsl => ?_, fun k hk => ?_⟩
    · exact (State.team?_setTeam_ne s _ (fun t => t.finished_uid e _) hv).trans (hs.others v hv)
    · rw [hx] at hy; cases hy
      refine ⟨_, ht1, ?_⟩
      have hj := h.finished_joins hne
      simp only [Team.finished, hj, he]
      rfl
    · rw [State.slice?_eq z _ k x hx] at hsl
      rw [hslice, hsl, Option.map_some, if_pos hk, sl.waiting_leaveJoin (hfree k hk sl hsl)]
    · rw [hslice, State.slice?_eq z _ k x hx]
      simp [hk]
  rw [heq]
  cases keep with
  | true => exact ⟨hchanged, hganged⟩
  | false => exact ⟨hchanged.subs (State.askEntry_subs s1 _ _), (s1.askEntry_gangedMembers p _).trans hganged⟩

theorem foldl_unchanged {α β : Type} (f : α → β → α) (a : α) (l : List β) (h : ∀ b ∈ l, f a b = a) : l.foldl f a = a := by
  induction l with
  | nil => rfl
  | cons b r ih => rw [List.foldl_cons, h b (by simp), ih fun c hc => h c (by simp [hc])]

/-- A crew that arrives together at a crew-scope word goes straight through its implicit join (R22, R24, R25). -/
theorem arriveAll_completes (h : x.AllHere p crew mode) {z : State} (hx : z.team? p.team = some x) (hne : p.members ≠ [])
    (hfree : ∀ k ∈ p.members, ∀ sl, x.slice? k = some sl → sl.block = .none) :
    MembersChanged p.team p.members Slice.unwaited z (z.arriveAll p 0 true) ∧ (z.arriveAll p 0 true).gangedMembers p = some p.members := by
  have hstart : Arriving x p crew mode z [] z := ⟨rfl, fun _ _ => rfl, fun _ => rfl, by rw [x.arrived_nil, hx]⟩
  obtain ⟨s, hs, hfold⟩ := hstart.foldl h p.members (List.nil_append _) hne
  obtain ⟨hchanged, hganged⟩ := hs.finishJoin h hx hne hfree
  -- none of them is blocked, so none gives up its entry
  have hall : z.arriveAll p 0 true = s.finishJoin p.team p.members (x.joinEnt p crew mode p.members) := by
    rw [State.arriveAll]
    simp only [hfold]
    refine foldl_unchanged _ _ _ fun k hk => ?_
    obtain ⟨sl, hsl, -, -⟩ := h.slices k hk
    have hsl' := hchanged.members k hk sl (by rw [State.slice?_eq z _ k x hx]; exact hsl)
    simp only [hsl']
    rw [if_pos (show sl.unwaited.block = .none from hfree k hk sl hsl)]
  rw [hall]
  exact ⟨hchanged, hganged⟩

end Arrivals

end Sys2Proof.Machine

/-! PROOFS. The issue of a crew-scope word: how its join completes, what the word then finds, and what it leaves (R24, R211). -/

namespace Sys2Proof.Machine

/-! ## What a crew-scope word finds -/

/-- A slice as its crew-scope word finds it: an issue and a completed join have left its operands as they were (R25, R211). -/
structure Slice.Ready (sl r : Slice) : Prop where
  rest : r = { sl with conv := r.conv, cls := r.cls, thread := r.thread, waitLevel := none }
  thread : r.thread.isSome = sl.thread.isSome
  pos : ∀ c, r.pos c = sl.pos c
  read : ∀ c o l, r.read c o l = sl.read c o l

theorem Slice.unwaited_ready (sl : Slice) : sl.Ready sl.unwaited :=
  ⟨rfl, rfl, fun _ => rfl, fun _ o _ => by cases o <;> rfl⟩

theorem Slice.unwaited_of_none (sl : Slice) (h : sl.waitLevel = none) : sl.unwaited = sl := by
  rw [Slice.unwaited, ← h]

theorem Slice.charged_unwaited_ready (sl : Slice) : sl.Ready sl.charged.unwaited := by
  obtain ⟨-, -, hpos, hread⟩ := sl.charged.unwaited_ready
  refine ⟨rfl, ?_, fun c => (hpos c).trans (sl.charged_pos c), fun c o l => (hread c o l).trans (sl.charged_read c o l)⟩
  cases h : sl.thread <;> simp [Slice.unwaited, Slice.charged, h]

/-- A team whose slices `ms` have come to their crew-scope word, each as `g` gives it. -/
structure Team.Gathered (x y : Team) (ms : List Nat) (g : Slice → Slice) : Prop where
  record : y.record = x.record
  ready : ∀ sl : Slice, sl.Ready (g sl)
  slices : ∀ k ∈ ms, y.slice? k = (x.slice? k).map g

section Gathered

variable {x y : Team} {ms : List Nat} {g : Slice → Slice}

theorem Team.Gathered.crewOfSlices (h : x.Gathered y ms g) : y.crewOfSlices ms = (x.crewOfSlices ms).map g := by
  rw [Team.crewOfSlices, Team.crewOfSlices, List.map_filterMap]
  exact List.filterMap_congr h.slices

theorem Slice.Ready.eff {sl r : Slice} (h : sl.Ready r) : r.eff = sl.eff := by rw [h.rest]; rfl

theorem Slice.Ready.xlane {sl r : Slice} (h : sl.Ready r) (c : Nat) (a b : Opd) : r.xlane c a b = sl.xlane c a b := by
  have hended : r.ended = sl.ended := by rw [h.rest]
  funext l
  simp only [Slice.xlane, Slice.on, h.pos, h.read, h.eff, hended]

theorem Team.Gathered.xlanes (h : x.Gathered y ms g) (a b : Opd) : y.xlanes ms a b = x.xlanes ms a b := by
  rw [Team.xlanes_eq, Team.xlanes_eq, h.crewOfSlices, h.record, List.flatMap_map]
  simp only [(h.ready _).xlane]

theorem Team.Gathered.xwidth (h : x.Gathered y ms g) : y.xwidth ms = x.crewN ms := by
  rw [Team.xwidth_eq, Team.crewN, Team.crewN, h.crewOfSlices, h.record, List.any_map]
  congr 3
  funext sl
  exact (h.ready sl).thread

theorem Team.Gathered.lowRm (h : x.Gathered y ms g) : y.lowRm ms = x.crewRm ms := by
  have hfpc : ∀ sl, (g sl).fpc = sl.fpc := fun sl => by rw [(h.ready sl).rest]
  rw [Team.lowRm_eq, Team.crewRm, Team.crewRm, h.crewOfSlices, List.find?_map]
  have hp : ((fun sl : Slice => sl.eff != 0) ∘ g) = fun sl => sl.eff != 0 := by
    funext sl
    rw [Function.comp_apply, (h.ready sl).eff]
  rw [hp]
  cases (x.crewOfSlices ms).find? (fun sl => sl.eff != 0) with
  | none => rfl
  | some sl => simp only [Option.map_some, hfpc]

end Gathered

/-! ## What a crew-scope word leaves (R211) -/

/-- A slice past the crew-scope word that left it as `sl`, back in its role's class (R50, R211). -/
def Slice.gone (sl : Slice) : Slice := { sl.advance with cls := sl.roleCls }

theorem State.setTeam_setTeam (s : State) (u : Nat) (f g : Team → Team) (hf : ∀ t, (f t).uid = t.uid) :
    (s.setTeam u f).setTeam u g = s.setTeam u (fun t => g (f t)) := by
  simp only [State.setTeam, List.map_map]
  congr 1
  refine List.map_congr_left fun t _ => ?_
  by_cases h : t.uid = u
  · simp [h, hf]
  · simp [h]

theorem Team.onMembers_onMembers (t : Team) (ms : List Nat) (f g : Slice → Slice) (hf : ∀ sl, (f sl).idx = sl.idx) :
    (t.onMembers ms f).onMembers ms g = t.onMembers ms (fun sl => g (f sl)) := by
  simp only [Team.onMembers, List.map_map]
  congr 1
  refine List.map_congr_left fun sl _ => ?_
  by_cases h : sl.idx ∈ ms
  · simp [h, hf]
  · simp [h]

/-- A crew-scope form that gives each slice of the sub-crew its own new content, which it computes from the team (R213 to R216). -/
structure CrewForm (f : Team → List Nat → Team) (w : Team → List Nat → Slice → Slice) : Prop where
  each : ∀ t ms, f t ms = t.onMembers ms (w t ms)
  plain : ∀ t ms sl, Slice.Plain sl (w t ms sl)

theorem CrewForm.runCrew_changed {f : Team → List Nat → Team} {w : Team → List Nat → Slice → Slice} (hf : CrewForm f w) {s : State} {u : Nat}
    (ms : List Nat) {y : Team} (hy : s.team? u = some y) : MembersChanged u ms (fun sl => (w y ms sl).gone) s (runCrew f u ms s) := by
  have hidx : ∀ t sl, ((w t ms sl).gone).idx = sl.idx := fun t sl => by
    rw [Slice.gone]
    exact (Slice.advance_idx _).trans (hf.plain t ms sl).idx
  have hrun : runCrew f u ms s = (s.setTeam u (fun t => t.onMembers ms (fun sl => (w t ms sl).gone))).setTeam u
      (fun t => t.setSub (ms.headD 0) (fun b => { b with joined := false })) := by
    rw [State.setTeam_setTeam s u _ _ fun t => t.onMembers_uid ms _, runCrew]
    congr 1
    funext t
    rw [hf.each, Team.onMembers_onMembers t ms _ _ fun sl => (hf.plain t ms sl).idx]
    rfl
  rw [hrun]
  exact (MembersChanged.onMembers s u ms (fun t sl => (w t ms sl).gone) hidx y hy).subs (.setTeam _ u _ fun t => t.setSub_subs _ _)

/-! ## How the join of the word completes (R22, R24, R25) -/

theorem WordFrame.crewFrame {s t : State} {i : Instr} {p : At} (h : WordFrame s t i p) : CrewFrame s t p where
  rest := h.rest
  memory := h.memory
  teams := h.teams
  slices := h.slices
  team x hx := by
    obtain ⟨y, hy, ey, -⟩ := h.team x hx
    exact ⟨y, hy, ey⟩
  engines := h.engines

theorem MembersChanged.crewFrame {s t : State} {p : At} {g : Slice → Slice} (h : MembersChanged p.team p.members g s t) : CrewFrame s t p where
  rest := h.rest
  memory a := by rw [h.rest]; rfl
  teams := h.others
  slices := h.slices
  team x hx := by
    obtain ⟨y, hy, ey⟩ := h.team x hx
    exact ⟨y, hy, by rw [ey]⟩
  engines := h.engines

/-- Going to the back of the class changes no slice. -/
theorem State.lastInClass_changed (s : State) (u : Nat) (ms : List Nat) (g : Slice → Slice) : MembersChanged u [] g s (s.lastInClass u ms) where
  rest := State.withUnits_trans (b := { s.setTeam u _ with fresh := s.fresh + 1 }) rfl (State.setCore_units _ _ _)
  others v hv := by
    unfold State.lastInClass
    rw [State.setCore_team?]
    exact State.team?_setTeam_ne s _ (fun t => Team.setSub_uid t _ _) hv
  team x hx := ⟨_, by rw [State.lastInClass_team?, hx]; rfl, rfl⟩
  engines c := s.lastInClass_engine u ms c
  members k hk := absurd hk List.not_mem_nil
  slices k _ := by
    rw [State.slice?, State.slice?, State.lastInClass_team?]
    cases s.team? u <;> rfl

theorem issueWith_stops {i : Instr} {s : State} {p : At} (h : s.Executes i p) {pre : At → State → Option State} {body : At → State → State}
    {s' : State} (hpre : pre p s = some s') : issueWith i pre body s = .next (s'.settle p.team) := by
  obtain ⟨t, ht⟩ := h.team
  unfold issueWith
  rw [h.issuing]
  simp only [h.converge, h.refuse, ht, h.flagRoom ht, hpre, Bool.false_eq_true, if_false]

/-- The outcome of a crew-scope form whose slices, once gathered, are each changed by `w` (R211). -/
def CrewOutcome (i : Instr) (f : Team → List Nat → Team) (w : Team → List Nat → Slice → Slice) (s : State) (p : At) (x : Team) : Prop :=
  ∃ (t : State) (y : Team) (g : Slice → Slice), issueCrew i f s = .next t ∧ CrewFrame s t p ∧ x.Gathered y p.members g
    ∧ EachSlice s t p (fun _ sl sl' => sl' = (w y p.members (g sl)).gone)

section Issue

variable {s : State} {i : Instr} {p : At} {x : Team} {f : Team → List Nat → Team} {w : Team → List Nat → Slice → Slice}

/-- The word of a sub-crew whose join another event completed (R24). -/
theorem CrewForm.ganged_outcome (hf : CrewForm f w) (h : s.Executes i p) (hx : s.team? p.team = some x) {b : SubCrew} (hb : s.ganged p = some b)
    (hms : b.members = p.members) (hwait : ∀ k ∈ p.members, ∀ sl, x.slice? k = some sl → sl.waitLevel = none) : CrewOutcome i f w s p x := by
  have hpre : afterJoin f p s = some ((runCrew f p.team p.members s).lastInClass p.team p.members) := by
    rw [afterJoin, hb, Option.map_some, hms]
  have hrun := hf.runCrew_changed p.members hx
  have hchanged : MembersChanged p.team p.members (fun sl => (w x p.members sl).gone) s
      (((runCrew f p.team p.members s).lastInClass p.team p.members).settle p.team) := by
    have hlast := (hrun.append (State.lastInClass_changed _ p.team p.members _) (List.disjoint_nil_right _))
    rw [List.append_nil] at hlast
    refine hlast.subs ?_
    -- a slice of the sub-crew still runs, so settling only parts sub-crews
    obtain ⟨k, hk⟩ := List.exists_mem_of_ne_nil _ h.nonempty
    obtain ⟨sl, hsl, hmay, -⟩ := h.slices k hk
    have hplain := hf.plain x p.members sl
    rw [State.settle_runs _ p.team k _ (hlast.members k hk sl hsl)
      ((Slice.advance_ended _).trans (hplain.ended.trans hmay.live)) ((Slice.advance_block _).trans (hplain.block.trans hmay.free))]
    exact State.regroup_subs _ _
  refine ⟨_, x, Slice.unwaited, issueWith_stops h hpre, hchanged.crewFrame, ⟨rfl, Slice.unwaited_ready, fun k hk => ?_⟩, fun k hk x' hx' sl hsl => ?_⟩
  · obtain ⟨sl, hsl, -⟩ := h.slices k hk
    rw [State.slice?_eq s _ k x hx] at hsl
    rw [hsl, Option.map_some, sl.unwaited_of_none (hwait k hk sl hsl)]
  · rw [hx] at hx'; cases hx'
    refine ⟨_, hchanged.members k hk sl (by rw [State.slice?_eq s _ k x hx]; exact hsl), ?_⟩
    exact congrArg (fun r => (w x p.members r).gone) (sl.unwaited_of_none (hwait k hk sl hsl)).symm

/-- The word of a sub-crew whose join completes at its issue (R22, R25, R211). -/
theorem CrewForm.joined_outcome (hf : CrewForm f w) (h : s.Executes i p) (hx : s.team? p.team = some x) (hpre : s.ganged p = none) {z : State}
    (hz : MembersChanged p.team p.members Slice.unwaited (s.chargeWord p i) z)
    (hjoin : joinCrew f p (s.chargeWord p i) = runCrew f p.team p.members z) : CrewOutcome i f w s p x := by
  have hc := s.chargeWord_charged i p
  obtain ⟨y0, hy0, ey0, -⟩ := hc.team x hx
  obtain ⟨y, hy, ey⟩ := hz.team y0 hy0
  have hissue : issueCrew i f s = issue i (joinCrew f) s := by
    rw [issueCrew, issueWith_executes h _ _ (by rw [afterJoin, hpre]; rfl), issue_executes h]
  have hchanged : MembersChanged p.team p.members (fun sl => (w y p.members sl.unwaited).gone) (s.chargeWord p i)
      (joinCrew f p (s.chargeWord p i)) := hjoin ▸ hz.comp (hf.runCrew_changed p.members hy)
  obtain ⟨t, ht, hframe, heach⟩ := issue_changes h (g := fun sl => (w y p.members sl.unwaited).gone) (fun sl => by
    have hplain := hf.plain y p.members sl.unwaited
    exact ⟨(Slice.advance_idx _).trans hplain.idx, (Slice.advance_ended _).trans hplain.ended, (Slice.advance_block _).trans hplain.block⟩) hchanged
  refine ⟨t, y, fun sl => sl.charged.unwaited, hissue.trans ht, hframe.crewFrame, ⟨by rw [ey, ey0], Slice.charged_unwaited_ready, fun k hk => ?_⟩, heach⟩
  obtain ⟨sl, hsl, -⟩ := h.slices k hk
  rw [State.slice?_eq s _ k x hx] at hsl
  have hzk := hz.members k hk sl.charged (by rw [hc.slice? x hx, hsl]; simp [hk])
  rw [← State.slice?_eq z _ k y hy, hzk, hsl, Option.map_some]

/-- The charge of its word leaves a crew that stands at it all there. -/
theorem Team.AllHere.charged {y : Team} {crew : Nat} {mode : Mode} (h : x.AllHere p crew mode)
    (hy : y = { x with slices := y.slices, subs := y.subs, energy := y.energy, esat := y.esat })
    (hsl : ∀ k, y.slice? k = (x.slice? k).map (fun sl => if k ∈ p.members then sl.charged else sl)) : y.AllHere p crew mode := by
  have hrecord : y.record = x.record := by rw [hy]
  have hexp : y.expects crew 0 = x.expects crew 0 := by
    rw [Team.expects, Team.expects, show y.crewSlices crew = x.crewSlices crew by rw [Team.crewSlices, Team.crewSlices, hrecord]]
    refine List.filter_congr fun m _ => ?_
    rw [hsl]
    cases x.slice? m with
    | none => rfl
    | some sl =>
      by_cases hm : m ∈ p.members
      · rw [Option.map_some, if_pos hm]; rfl
      · rw [Option.map_some, if_neg hm]
  refine ⟨fun k hk => ?_, h.rising, fun k hk => ?_, by rw [hexp]; exact h.expected, ?_⟩
  · rw [Team.crewOf, hrecord]; exact h.crewOf k hk
  · obtain ⟨sl, hslk, hmode, hlive⟩ := h.slices k hk
    exact ⟨sl.charged, by rw [hsl, hslk, Option.map_some, if_pos hk], hmode, hlive⟩
  · rw [hy]; exact h.pending

theorem State.ganged_none (hx : s.team? p.team = some x) (h : ∀ b ∈ x.subs, b.joined = true → ∀ k ∈ p.members, k ∉ b.members) :
    s.ganged p = none := by
  rw [State.ganged, hx, Option.bind_some]
  refine List.find?_eq_none.2 fun b hb hc => ?_
  obtain ⟨hj, hany⟩ := Bool.and_eq_true_iff.1 hc
  obtain ⟨m, hm, hin⟩ := List.any_eq_true.1 hany
  exact h b hb hj m hm (by simpa using hin)

/-- In each of the three ways of `CrewHere` the word executes, with every slice of the sub-crew gathered (R24, R25, R211). -/
theorem CrewForm.outcome (hf : CrewForm f w) (h : s.Executes i p) (hx : s.team? p.team = some x) (hc : s.CrewHere p x) :
    CrewOutcome i f w s p x := by
  have hch := s.chargeWord_charged i p
  obtain ⟨y, hy, ey, -⟩ := hch.team x hx
  have hslice : ∀ k, (s.chargeWord p i).slice? p.team k = (x.slice? k).map (fun sl => if k ∈ p.members then sl.charged else sl) :=
    hch.slice? x hx
  rcases hc with ⟨k, sl, th, hone, hsl, hth, hwait, hsubs⟩ | ⟨crew, mode, hcrew, hrise, hplain, ⟨b, hb, hms, hwait⟩ | ⟨hexp, hjoins, hsubs⟩⟩
  case inl =>
    have hk : k ∈ p.members := by rw [hone]; exact List.mem_singleton_self k
    have hz : (s.chargeWord p i).slice? p.team k = some sl.charged := by rw [hslice, hsl, Option.map_some, if_pos hk]
    have hthread : (s.chargeWord p i).isThread p = true := by
      rw [State.isThread, hone, List.any_cons, hz]
      simp [Slice.charged, hth]
    refine hf.joined_outcome h hx (State.ganged_none hx fun b hb hj m hm => ?_) (z := s.chargeWord p i) ?_ (by rw [joinCrew, if_pos hthread])
    · rw [hone, List.mem_singleton] at hm
      exact hm ▸ hsubs b hb hj
    · refine ⟨((SubsOnly.refl p.team (s.chargeWord p i)).membersChanged Slice.unwaited).toTeamFrame, fun m hm sl' hsl' => ?_, fun _ _ => rfl⟩
      rw [hone, List.mem_singleton] at hm
      subst hm
      rw [hz] at hsl'
      cases hsl'
      rw [hz, sl.charged.unwaited_of_none hwait]
  case inr.inl => exact hf.ganged_outcome h hx hb hms hwait
  case inr.inr =>
    have hall : x.AllHere p crew mode := ⟨hcrew, hrise, fun k hk => by
      obtain ⟨sl, hsl, hmay, -⟩ := h.slices k hk
      rw [State.slice?_eq s _ k x hx] at hsl
      exact ⟨sl, hsl, (hplain k hk sl hsl).2, hmay.live⟩, hexp, hjoins⟩
    have hally := hall.charged ey fun k => by rw [← State.slice?_eq _ _ k y hy, hslice]
    have hfree : ∀ k ∈ p.members, ∀ sl, y.slice? k = some sl → sl.block = .none := fun k hk sl hsl => by
      obtain ⟨sl', hsl', hmay, -⟩ := h.slices k hk
      rw [State.slice?_eq s _ k x hx] at hsl'
      rw [← State.slice?_eq _ _ k y hy, hslice, hsl', Option.map_some, if_pos hk] at hsl
      cases hsl
      exact hmay.free
    have hthread : (s.chargeWord p i).isThread p = false := by
      rw [State.isThread, List.any_eq_false]
      intro k hk
      obtain ⟨sl, hsl, -⟩ := h.slices k hk
      rw [State.slice?_eq s _ k x hx] at hsl
      rw [hslice, hsl, Option.map_some, if_pos hk]
      simp [Slice.charged, (hplain k hk sl hsl).1]
    obtain ⟨hchanged, hganged⟩ := arriveAll_completes hally hy h.nonempty hfree
    obtain ⟨b, hb, hms⟩ := Option.map_eq_some_iff.1 hganged
    refine hf.joined_outcome h hx (State.ganged_none hx hsubs) hchanged ?_
    rw [joinCrew, hthread]
    simp only [Bool.false_eq_true, if_false, hb, hms]

end Issue

end Sys2Proof.Machine

/-! PROOFS. The crew-scope words that write a vector destination: moves, reductions and the scan (R213, R214, R216). -/

namespace Sys2Proof.Machine

/-! ## The lanes of a sub-crew that executes (R13, R210) -/

theorem State.CrewHere.lined {s : State} {p : At} {x : Team} (h : s.CrewHere p x) : x.Lined p.members := by
  rcases h with ⟨k, sl, th, hone, hsl, hth, -, -⟩ | ⟨crew, mode, hcrew, hrise, hplain, -⟩
  case inl =>
    have hcrewOf : x.crewOfSlices p.members = [sl] := by rw [Team.crewOfSlices, hone]; simp [hsl]
    refine ⟨by rw [hcrewOf]; exact List.pairwise_singleton _ _, fun sl' hsl' => ?_⟩
    rw [hcrewOf, List.mem_singleton] at hsl'
    subst hsl'
    rw [Team.crewN, hcrewOf, Slice.pos, hth]
    simp [hth]
  case inr =>
    have hpos : ∀ k ∈ p.members, ∀ sl, x.slice? k = some sl → crew + sl.pos x.record.crewlog = k := fun k hk sl hsl => by
      rw [Slice.pos, (hplain k hk sl hsl).1, ← hcrew k hk, Team.crewOf, x.slice?_idx k sl hsl, Nat.mul_comm, Nat.div_add_mod]
    have hmem : ∀ sl ∈ x.crewOfSlices p.members, sl.thread = none ∧ sl.pos x.record.crewlog < 2 ^ x.record.crewlog := fun sl hsl => by
      obtain ⟨k, hk, hslk⟩ := List.mem_filterMap.1 hsl
      have hth := (hplain k hk sl hslk).1
      refine ⟨hth, ?_⟩
      rw [Slice.pos, hth]
      exact Nat.mod_lt _ (Nat.two_pow_pos _)
    refine ⟨?_, fun sl hsl => ?_⟩
    · rw [Team.crewOfSlices, List.pairwise_filterMap]
      refine hrise.imp_of_mem fun {k k'} hk hk' hlt sl hsl sl' hsl' => ?_
      have := hpos k hk sl hsl
      have := hpos k' hk' sl' hsl'
      omega
    · have hany : (x.crewOfSlices p.members).any (fun sl => sl.thread.isSome) = false :=
        List.any_eq_false.2 fun sl hsl => by simp [(hmem sl hsl).1]
      rw [Team.crewN, hany]
      have := (hmem sl hsl).2
      simp only [Bool.false_eq_true, if_false]
      omega

/-! ## Writing a vector destination in every present lane (R213, R214) -/

/-- A slice after the present lanes of its crew write D, with the flags of the word (R214). -/
def Slice.crewWritten (c : Nat) (d : Opd) (val : Nat → Word) (fl : BitVec 5) (sl : Slice) : Slice :=
  { sl.vmap d (fun l => val (4 * sl.pos c + l)) with fps := if sl.eff = 0 then sl.fps else sl.fps ||| fl }

theorem Slice.crewWritten_plain (c : Nat) (d : Opd) (val : Nat → Word) (fl : BitVec 5) (sl : Slice) : Slice.Plain sl (sl.crewWritten c d val fl) := by
  have h := sl.vmap_plain d (fun l => val (4 * sl.pos c + l))
  exact ⟨h.idx, h.ended, h.block⟩

/-- A form that computes `val` for each crew lane, and flags `fl`, from its team, and writes them (R213, R214, R216). -/
theorem crewWrite_form (d : Opd) (val : Team → List Nat → Nat → Word) (fl : Team → List Nat → BitVec 5) :
    CrewForm (fun t ms => t.crewWrite ms d (val t ms) (fl t ms))
      (fun t ms => Slice.crewWritten t.record.crewlog d (val t ms) (fl t ms)) :=
  ⟨fun _ _ => rfl, fun t ms sl => sl.crewWritten_plain t.record.crewlog d (val t ms) (fl t ms)⟩

/-- What such a word leaves in a slice (R213, R214). -/
structure Slice.CrewWrote (sl sl' : Slice) (d : Opd) (val : Nat → Word) (fl : BitVec 5) : Prop where
  rest : sl.CrewRest sl'
  fps : sl'.fps = if sl.eff = 0 then sl.fps else sl.fps ||| fl
  sregs : sl'.sregs = sl.sregs
  exec : sl'.exec = sl.exec
  scc : sl'.scc = sl.scc
  received : sl.Received sl' d val

/-- The registers that a gathered slice receives are those of the slice as it was. -/
theorem Slice.Ready.received {sl r sl' : Slice} (h : sl.Ready r) {d : Opd} {val val' : Nat → Word} (hr : r.Received sl' d val)
    (hval : ∀ l, l < 4 → sl.on l = true → val l = val' l) : sl.Received sl' d val' := by
  have hwrites : ∀ n l, r.Writes d n l ↔ sl.Writes d n l := fun n l => by
    rw [Slice.Writes, Slice.Writes, Slice.on, Slice.on, h.eff, show r.wb = sl.wb by rw [h.rest]]
  have hget : ∀ n l, r.vget n l = sl.vget n l := fun n l => by rw [Slice.vget, Slice.vget, h.rest]
  intro n l hl
  obtain ⟨hin, hout⟩ := hr n l hl
  rw [hwrites] at hin hout
  exact ⟨fun hw => (hin hw).trans (hval l hl hw.2), fun hw => (hout hw).trans (hget n l)⟩

/-- A gathered slice in which a word has changed only registers, marks, masks and flags has gone on, and nothing else has changed (R25, R211). -/
theorem Slice.Ready.crewRest {sl r : Slice} (h : sl.Ready r) (hfree : sl.block = .none) {v : Slice}
    (hv : v = { r with vregs := v.vregs, marks := v.marks, sregs := v.sregs, smarred := v.smarred, exec := v.exec, scc := v.scc, fps := v.fps,
                       conv := v.conv }) : sl.CrewRest v.gone := by
  obtain ⟨conv, cls, thread, rfl⟩ : ∃ conv cls thread, r = { sl with conv := conv, cls := cls, thread := thread, waitLevel := none } :=
    ⟨_, _, _, h.rest⟩
  have hwent := sl.advance_went v (by rw [hv]) (by rw [hv]) (by rw [hv]) (by rw [hv]) (by rw [hv])
  have hadv := v.advance_rest
  refine ⟨⟨hwent.inside, hwent.past⟩, ?_⟩
  rw [Slice.gone, hadv, ← hfree]
  simp only
  rw [hv]

@[simp] theorem Slice.gone_fps (sl : Slice) : sl.gone.fps = sl.fps := sl.advance_fps
@[simp] theorem Slice.gone_sregs (sl : Slice) : sl.gone.sregs = sl.sregs := by rw [Slice.gone, sl.advance_rest]
@[simp] theorem Slice.gone_exec (sl : Slice) : sl.gone.exec = sl.exec := by rw [Slice.gone, sl.advance_rest]
@[simp] theorem Slice.gone_scc (sl : Slice) : sl.gone.scc = sl.scc := by rw [Slice.gone, sl.advance_rest]
@[simp] theorem Slice.gone_vget (sl : Slice) (n l : Nat) : sl.gone.vget n l = sl.vget n l := sl.advance_vget n l

theorem Slice.crewWritten_rest (c : Nat) (d : Opd) (val : Nat → Word) (fl : BitVec 5) (sl : Slice) :
    sl.crewWritten c d val fl = { sl with vregs := (sl.crewWritten c d val fl).vregs, marks := (sl.crewWritten c d val fl).marks,
                                          fps := if sl.eff = 0 then sl.fps else sl.fps ||| fl } := by
  rw [Slice.crewWritten, sl.vmap_rest d (fun l => val (4 * sl.pos c + l))]

/-- What a form that writes D in every present lane leaves in a gathered slice (R213, R214). -/
theorem Slice.Ready.crewWrote {sl r : Slice} (h : sl.Ready r) (hfree : sl.block = .none) (c : Nat) (d : Opd) {val : Nat → Word} {fl : BitVec 5}
    {val' : Nat → Word} (hval : ∀ l, l < 4 → sl.on l = true → val (4 * sl.pos c + l) = val' l) :
    sl.CrewWrote (r.crewWritten c d val fl).gone d val' fl := by
  have hrest := r.crewWritten_rest c d val fl
  set v := r.crewWritten c d val fl with hv
  refine ⟨h.crewRest hfree (by rw [hrest]), ?_, ?_, ?_, ?_, ?_⟩
  · rw [v.gone_fps, hrest, ← h.eff, h.rest]
  · rw [v.gone_sregs, hrest, h.rest]
  · rw [v.gone_exec, hrest, h.rest]
  · rw [v.gone_scc, hrest, h.rest]
  · refine h.received (val := fun l => val (4 * r.pos c + l)) (fun n l hl => ?_) (by simpa only [h.pos] using hval)
    rw [v.gone_vget]
    exact r.vmap_received d (fun l => val (4 * r.pos c + l)) n l hl

/-- A word whose form gives each present lane `val` and raises `fl`, when these depend on nothing but what gathering keeps (R211). -/
theorem crewWrite_effect {s : State} {i : Instr} {p : At} {x : Team} (h : s.Executes i p) (hx : s.team? p.team = some x) (hc : s.CrewHere p x)
    (d : Opd) {val : Team → List Nat → Nat → Word} {fl : Team → List Nat → BitVec 5} {val' : Slice → Nat → Word} {fl' : BitVec 5}
    (hval : ∀ y g, x.Gathered y p.members g → ∀ sl ∈ x.crewOfSlices p.members, ∀ l, l < 4 → sl.on l = true →
      val y p.members (4 * sl.pos x.record.crewlog + l) = val' sl l)
    (hfl : ∀ y g, x.Gathered y p.members g → fl y p.members = fl') :
    ∃ t, issueCrew i (fun t ms => t.crewWrite ms d (val t ms) (fl t ms)) s = .next t ∧ CrewFrame s t p
      ∧ EachSlice s t p (fun _ sl sl' => sl.CrewWrote sl' d (val' sl) fl') := by
  obtain ⟨t, y, g, ht, hframe, hgath, heach⟩ := (crewWrite_form d val fl).outcome h hx hc
  refine ⟨t, ht, hframe, heach.imp fun k hk x' hx' sl hsl sl' e => ?_⟩
  rw [hx] at hx'; cases hx'
  simp only [e, hfl y g hgath, hgath.record]
  exact (hgath.ready sl).crewWrote (h.mayRun hk hx hsl).free _ d (hval y g hgath sl (List.mem_filterMap.2 ⟨k, hk, hsl⟩))

/-- The same of a word that raises no flags. -/
theorem crewWrite_quiet {s : State} {i : Instr} {p : At} {x : Team} (h : s.Executes i p) (hx : s.team? p.team = some x) (hc : s.CrewHere p x)
    (d : Opd) {val : Team → List Nat → Nat → Word} {val' : Slice → Nat → Word}
    (hval : ∀ y g, x.Gathered y p.members g → ∀ sl ∈ x.crewOfSlices p.members, ∀ l, l < 4 → sl.on l = true →
      val y p.members (4 * sl.pos x.record.crewlog + l) = val' sl l) :
    ∃ t, issueCrew i (fun t ms => t.crewWrite ms d (val t ms) 0) s = .next t ∧ CrewFrame s t p
      ∧ EachSlice s t p (fun _ sl sl' => sl.CrewRest sl' ∧ sl'.fps = sl.fps ∧ sl'.sregs = sl.sregs ∧ sl'.exec = sl.exec ∧ sl'.scc = sl.scc
        ∧ sl.Received sl' d (val' sl)) := by
  obtain ⟨t, ht, hframe, heach⟩ := crewWrite_effect h hx hc d (fl := fun _ _ => 0) hval fun _ _ _ => rfl
  refine ⟨t, ht, hframe, heach.imp fun k _ x _ sl _ sl' w => ⟨w.rest, ?_, w.sregs, w.exec, w.scc, w.received⟩⟩
  rw [w.fps]
  simp

/-! ## Moves (R213) -/

/-- The word `w` issues as the crew-scope move of form number `form`, whose source lane is `src` of N, the lane, its B and the uniform B
(R213). -/
structure CrewMoveWord (w : VWord) (form : Nat) (src : Nat → Nat → Word → Word → Nat) : Prop where
  runs : ∀ d a b s, exec (w d a b) s = issueCrew (w d a b) (crewMove form d a b) s
  source : ∀ n e low, moveSrc form n e low = src n e.p e.b low

/-- Every crew-scope move issues as the move from its source lane (R213). -/
theorem crewSources_move : ∀ e ∈ crewSources, ∃ form, CrewMoveWord e.1 form e.2 := by
  simp only [crewSources, List.forall_mem_cons, List.not_mem_nil, false_imp_iff, implies_true, and_true]
  exact ⟨⟨0, fun _ _ _ _ => rfl, fun _ _ _ => rfl⟩, ⟨1, fun _ _ _ _ => rfl, fun _ _ _ => rfl⟩, ⟨2, fun _ _ _ _ => rfl, fun _ _ _ => rfl⟩,
    ⟨3, fun _ _ _ _ => rfl, fun _ _ _ => rfl⟩, ⟨4, fun _ _ _ _ => rfl, fun _ _ _ => rfl⟩⟩

theorem Team.Lined.laneAt_own {x : Team} {ms : List Nat} (h : x.Lined ms) (a b : Opd) {sl : Slice} (hsl : sl ∈ x.crewOfSlices ms) {l : Nat}
    (hl : l < 4) : laneAt (x.xlanes ms a b) (4 * sl.pos x.record.crewlog + l) = some (sl.xlane x.record.crewlog a b l) :=
  h.laneAt_of_mem (Team.mem_xlanes.2 ⟨sl, hsl, l, hl, rfl⟩)

/-- Settles O11: each present lane takes the A of the lane that its form names. -/
theorem crewMoveResults : Obligations.CrewMoveResults := by
  intro e he s p x d a b h hx hc
  obtain ⟨form, hw⟩ := crewSources_move e he
  rw [hw.runs]
  have hlined := hc.lined
  obtain ⟨t, ht, hframe, heach⟩ := crewWrite_quiet h hx hc d (val := fun t ms => movedTo form (t.xwidth ms) (t.xlanes ms a b))
    (val' := fun sl l =>
      let src := e.2 (x.crewN p.members) (4 * sl.pos x.record.crewlog + l) (sl.read x.record.crewlog b l) (x.crewUniform p.members a b)
      ((x.crewLane p.members a b src).map (·.1)).getD 0)
    fun y g hg sl hsl l hl _ => by
      rw [hg.xlanes, hg.xwidth, movedTo, hlined.laneAt_own a b hsl hl]
      simp only [hw.source, hlined.lowB_eq, hlined.fromLane_eq]
      rfl
  refine ⟨t, ht, hframe, heach.imp fun k _ x' hx' sl _ sl' w => ?_⟩
  rw [hx] at hx'; cases hx'
  exact w

end Sys2Proof.Machine

/-! PROOFS. Sums over the lanes of a crew: in any order, and by the binary32 tree (R116, R214, R216). -/

namespace Sys2Proof.Machine

/-! ## Wrapping sums (R214, R216) -/

theorem foldl_add_eq_sum (l : List Word) (w : Word) : l.foldl (· + ·) w = w + BitVec.ofNat 32 (l.map BitVec.toNat).sum := by
  induction l generalizing w with
  | nil => simp
  | cons a r ih => rw [List.foldl_cons, ih, List.map_cons, List.sum_cons, BitVec.ofNat_add, BitVec.ofNat_toNat, BitVec.setWidth_eq, BitVec.add_assoc]

theorem foldl_add_zero (l : List Word) : l.foldl (· + ·) 0 = BitVec.ofNat 32 (l.map BitVec.toNat).sum := by
  rw [foldl_add_eq_sum]
  exact BitVec.zero_add _

theorem Team.Lined.scanAt_eq {x : Team} {ms : List Nat} (h : x.Lined ms) (a b : Opd) (q : Nat) :
    scanAt (x.xlanes ms a b) q = BitVec.ofNat 32 (((List.range (if (x.crewUniform ms a b).getLsbD 0 then q else q + 1)).filterMap
      (fun j => (x.crewLane ms a b j).map (fun v => v.1.toNat))).sum) := by
  rw [scanAt, h.lowB_eq]
  simp only [h.present_below, foldl_add_zero, List.map_filterMap, Team.present?, Option.map_map]
  rfl

/-! ## The binary32 tree (R116) -/

/-- The sum of two nodes of the tree, with its flags: one that holds nothing adds nothing (R116). -/
def nodeSum (rm : Rm) : Option Nat → Option Nat → Option Nat × BitVec 5
  | some x, some y => ((f32.add rm (f32.decode x) (f32.decode y)).1, (f32.add rm (f32.decode x) (f32.decode y)).2)
  | some x, none => (some x, 0)
  | none, y => (y, 0)

theorem treeLevel_cons_cons (rm : Rm) (a b : Option Nat) (rest : List (Option Nat)) :
    treeLevel rm (a :: b :: rest) = ((nodeSum rm a b).1 :: (treeLevel rm rest).1, (nodeSum rm a b).2 ||| (treeLevel rm rest).2) := by
  cases a <;> cases b <;> simp [treeLevel, nodeSum]

theorem treeNode_succ (rm : Rm) (leaf : Nat → Option Nat) (k p : Nat) :
    treeNode rm leaf (k + 1) p =
      ((nodeSum rm (treeNode rm leaf k (2 * p)).1 (treeNode rm leaf k (2 * p + 1)).1).1,
        (treeNode rm leaf k (2 * p)).2 ||| (treeNode rm leaf k (2 * p + 1)).2
          ||| (nodeSum rm (treeNode rm leaf k (2 * p)).1 (treeNode rm leaf k (2 * p + 1)).1).2) := by
  rw [treeNode]
  cases (treeNode rm leaf k (2 * p)).1 <;> cases (treeNode rm leaf k (2 * p + 1)).1 <;> simp [nodeSum]

/-- The flags of some nodes together. -/
def orAll (l : List (BitVec 5)) : BitVec 5 := l.foldr (· ||| ·) 0

theorem orAll_cons (a : BitVec 5) (l : List (BitVec 5)) : orAll (a :: l) = a ||| orAll l := rfl

theorem orAll_zeros {α : Type} (l : List α) : orAll (l.map (fun _ => 0)) = 0 := by
  induction l with
  | nil => rfl
  | cons a r ih => rw [List.map_cons, orAll_cons, ih]; rfl

section Tree

variable (rm : Rm) (leaf : Nat → Option Nat)

/-- One level of the model's tree is the next level of nodes, and adds what those nodes raise. -/
theorem treeLevel_nodes (j m : Nat) : ∀ n,
    (treeLevel rm ((List.range' (2 * n) (2 * m)).map (fun p => (treeNode rm leaf j p).1))).1
        = (List.range' n m).map (fun p => (treeNode rm leaf (j + 1) p).1)
      ∧ orAll ((List.range' (2 * n) (2 * m)).map (fun p => (treeNode rm leaf j p).2))
          ||| (treeLevel rm ((List.range' (2 * n) (2 * m)).map (fun p => (treeNode rm leaf j p).1))).2
        = orAll ((List.range' n m).map (fun p => (treeNode rm leaf (j + 1) p).2)) := by
  induction m with
  | zero => exact fun n => by simp [treeLevel, orAll]
  | succ m ih =>
    intro n
    obtain ⟨hval, hflag⟩ := ih (n + 1)
    have hpair : List.range' (2 * n) (2 * (m + 1)) = 2 * n :: (2 * n + 1) :: List.range' (2 * (n + 1)) (2 * m) := by
      rw [show 2 * (m + 1) = 2 * m + 1 + 1 by omega, List.range'_succ, List.range'_succ]
      rfl
    simp only [hpair, List.range'_succ (s := n), List.map_cons, treeLevel_cons_cons, orAll_cons, treeNode_succ rm leaf j n, hval, true_and]
    rw [← hflag]
    ac_rfl

/-- The levels from `j` up lead to the node `k` levels above. -/
theorem treeRoot_nodes (k : Nat) : ∀ j, treeRoot rm k ((List.range (2 ^ k)).map (fun p => (treeNode rm leaf j p).1))
      (orAll ((List.range (2 ^ k)).map (fun p => (treeNode rm leaf j p).2)))
    = ([(treeNode rm leaf (j + k) 0).1], (treeNode rm leaf (j + k) 0).2) := by
  induction k with
  | zero =>
    intro j
    simp [treeRoot, orAll]
  | succ k ih =>
    intro j
    obtain ⟨hval, hflag⟩ := treeLevel_nodes rm leaf j (2 ^ k) 0
    rw [Nat.mul_zero] at hval hflag
    rw [Nat.pow_succ', List.range_eq_range', treeRoot]
    simp only [hval, hflag]
    rw [← List.range_eq_range', ih (j + 1), show j + 1 + k = j + (k + 1) by omega]

end Tree

theorem Team.crewN_two_pow (x : Team) (ms : List Nat) : x.crewN ms = 2 ^ (x.crewN ms).log2 := by
  have hpow : ∃ k, x.crewN ms = 2 ^ k := by
    rw [Team.crewN]
    split
    · exact ⟨2, rfl⟩
    · exact ⟨x.record.crewlog + 2, by rw [Nat.pow_add, Nat.mul_comm]⟩
  obtain ⟨k, hk⟩ := hpow
  rw [hk, Nat.log2_two_pow]

theorem f32_nanCode : f32.nanCode = 0x7FC00000 := by decide

/-- What a lane gives the tree: its A when it is here (R116). -/
def leafOf : Option XLane → Option Nat
  | some e => if e.here then some e.a.toNat else none
  | none => none

theorem leafOf_eq (o : Option XLane) : leafOf o = (o.filter (·.here)).map (fun e => e.a.toNat) := by
  cases o with
  | none => rfl
  | some e => cases hh : e.here <;> simp [leafOf, hh]

/-- `redf`: what the root of the tree holds, a NaN as the default NaN, and the flags (R116, R214). -/
def treeResult (root : Option Nat × BitVec 5) (vs : List Word) : Nat × BitVec 5 :=
  (if (f32.decode (root.1.getD 0)).isNan then f32.nanCode else root.1.getD 0, root.2 ||| snanFlag (vs.map (fun a => f32.decode a.toNat)))

theorem sumTree_leaves (rm : Rm) (n : Nat) (ls : List XLane) :
    sumTree rm n ls = treeResult
      (Prod.map (fun l => l.headD none) id (treeRoot rm n.log2 ((List.range n).map (fun p => leafOf (laneAt ls p))) 0)) (presentA ls) := rfl

theorem Team.crewTree_root (x : Team) (ms : List Nat) (a : Opd) (rm : Rm) :
    x.crewTree ms a rm = treeResult (treeNode rm (fun p => (x.crewLane ms a .zero p).map (fun v => v.1.toNat)) (x.crewN ms).log2 0)
      (x.crewValues ms a .zero) := by
  rw [Team.crewTree, treeResult, f32_nanCode]

/-- `redf` is the tree over the present lanes (R116, R214). -/
theorem Team.Lined.sumTree_eq {x : Team} {ms : List Nat} (h : x.Lined ms) (a : Opd) (rm : Rm) :
    sumTree rm (x.crewN ms) (x.xlanes ms a .zero) = x.crewTree ms a rm := by
  have hleaf : ∀ p, leafOf (laneAt (x.xlanes ms a .zero) p) = (x.crewLane ms a .zero p).map (fun v => v.1.toNat) := fun p => by
    rw [leafOf_eq, h.laneAt_filter, Team.present?, Option.map_map]
    rfl
  have hroot := treeRoot_nodes rm (fun p => (x.crewLane ms a .zero p).map (fun v => v.1.toNat)) (x.crewN ms).log2 0
  rw [← x.crewN_two_pow ms] at hroot
  simp only [treeNode, orAll_zeros, Nat.zero_add] at hroot
  rw [sumTree_leaves, x.crewTree_root, h.presentA_eq]
  simp only [hleaf, hroot]
  rfl

end Sys2Proof.Machine

/-! PROOFS. `redmx`: the greatest or least value of a crew, and the bitwise combinations (R201, R214). -/

namespace Sys2Proof.Machine

/-! ## The order of the values of a format (R90, R201) -/

/-- A value as an extended real; a NaN has none. -/
noncomputable def Fp.real : Fp → EReal
  | .nan _ => 0
  | .inf neg => if neg then ⊥ else ⊤
  | .num neg m e => (((if neg then -1 else 1) * (m : ℝ) * (2 : ℝ) ^ e : ℝ) : EReal)

theorem scaled_real {n : Bool} {m : Nat} {e c : Int} (h : c ≤ e) :
    ((scaled n m e c : Int) : ℝ) * (2 : ℝ) ^ c = (if n then -1 else 1) * (m : ℝ) * (2 : ℝ) ^ e := by
  have hpow : (2 : ℝ) ^ (e - c).toNat * (2 : ℝ) ^ c = (2 : ℝ) ^ e := by
    rw [← zpow_natCast, Int.toNat_of_nonneg (by omega), ← zpow_add₀ (by norm_num), Int.sub_add_cancel]
  have habs : ((m <<< (e - c).toNat : Nat) : ℝ) * (2 : ℝ) ^ c = m * (2 : ℝ) ^ e := by
    rw [Nat.shiftLeft_eq, ← hpow]
    push_cast
    ring
  cases n with
  | false => simpa only [scaled, Bool.false_eq_true, if_false, Int.cast_natCast, one_mul] using habs
  | true => simpa only [scaled, if_true, Int.cast_neg, Int.cast_natCast, neg_mul, one_mul, neg_inj] using habs

/-- The comparison of the model is that of the values. -/
theorem Fp.lt_iff {a b : Fp} (ha : a.isNan = false) (hb : b.isNan = false) : a.lt b = true ↔ a.real < b.real := by
  rcases a with s | na | ⟨na, ma, ea⟩
  · cases ha
  · rcases b with s | nb | ⟨nb, mb, eb⟩
    · cases hb
    · cases na <;> cases nb <;> simp [Fp.lt, Fp.real]
    · cases na <;> simp [Fp.lt, Fp.real, -EReal.coe_mul, EReal.bot_lt_coe]
  · rcases b with s | nb | ⟨nb, mb, eb⟩
    · cases hb
    · cases nb <;> simp [Fp.lt, Fp.real, -EReal.coe_mul, EReal.coe_lt_top]
    · have hpos : (0 : ℝ) < (2 : ℝ) ^ min ea eb := by positivity
      rw [Fp.lt, decide_eq_true_iff, Fp.real, Fp.real, EReal.coe_lt_coe_iff, ← scaled_real (min_le_left ea eb),
        ← scaled_real (min_le_right ea eb), mul_lt_mul_iff_left₀ hpos, Int.cast_lt]

theorem Fp.lt_eq_false_iff {a b : Fp} (ha : a.isNan = false) (hb : b.isNan = false) : a.lt b = false ↔ b.real ≤ a.real := by
  rw [← Bool.not_eq_true, Fp.lt_iff ha hb, not_lt]

/-! ## Reductions of a list (R214) -/

section Fold

variable {f : Word → Word → Word}

/-- A word that the reduction gives is one of the list, or of a kind that `f` may give otherwise. -/
theorem fold1_mem {Q : Word → Prop} (hf : ∀ a b, f a b = a ∨ f a b = b ∨ Q (f a b)) {l : List Word} (hl : l ≠ []) :
    fold1 f l ∈ l ∨ Q (fold1 f l) := by
  obtain ⟨w, r, rfl⟩ := List.exists_cons_of_ne_nil hl
  rw [fold1]
  clear hl
  induction r using List.reverseRecOn with
  | nil => exact .inl (List.mem_singleton_self w)
  | append_singleton r v ih =>
    rw [List.foldl_append, List.foldl_cons, List.foldl_nil]
    rcases hf (r.foldl f w) v with h | h | h
    · rw [h]
      exact ih.imp_left fun hm => List.mem_append_left [v] hm
    · rw [h]
      simp
    · exact .inr h

/-- What `f` bounds step by step, the reduction bounds for the whole list. -/
theorem fold1_bound {R : Word → Word → Prop} (hrefl : ∀ a, R a a) (htrans : ∀ a b c, R a b → R b c → R a c)
    (hf : ∀ a b, R a (f a b) ∧ R b (f a b)) {l : List Word} : ∀ v ∈ l, R v (fold1 f l) := by
  cases l with
  | nil => exact fun v hv => absurd hv List.not_mem_nil
  | cons w r =>
    rw [fold1]
    induction r using List.reverseRecOn with
    | nil => simpa using hrefl w
    | append_singleton r u ih =>
      intro v hv
      rw [List.foldl_append, List.foldl_cons, List.foldl_nil]
      rw [← List.cons_append, List.mem_append, List.mem_singleton] at hv
      rcases hv with hv | rfl
      · exact htrans _ _ _ (ih v hv) (hf _ _).1
      · exact (hf _ _).2

end Fold

/-- The greatest word of a list in an order of words. -/
theorem fold1_greatest {f : Word → Word → Word} {α : Type} [Preorder α] (key : Word → α)
    (hf : ∀ a b, (f a b = a ∧ key b ≤ key a) ∨ (f a b = b ∧ key a ≤ key b)) {l : List Word} (hl : l ≠ []) :
    fold1 f l ∈ l ∧ ∀ v ∈ l, key v ≤ key (fold1 f l) := by
  have hmem := fold1_mem (f := f) (Q := fun _ => False) (fun a b => (hf a b).imp And.left fun h => .inl h.1) hl
  refine ⟨hmem.resolve_right id, fold1_bound (R := fun a b => key a ≤ key b) (fun _ => le_rfl) (fun _ _ _ => le_trans) fun a b => ?_⟩
  rcases hf a b with ⟨he, hle⟩ | ⟨he, hle⟩ <;> simp [he, hle]

/-! ## The number forms (R201) -/

/-- The code that the model takes of two codes: the greater with `up`, else the lesser (R201). -/
def pick (up : Bool) (x y : Word) : Word := BitVec.ofNat 32 (f32.minmax up x.toNat y.toNat).1

/-- The code holds a number. -/
def IsNum (v : Word) : Prop := (f32.decode v.toNat).isNan = false

/-- The value of a code, in the order in which the number forms look for the greatest: that of the numbers with `up`, else its opposite. -/
noncomputable def rank (up : Bool) (v : Word) : EReal := if up then (f32.decode v.toNat).real else -(f32.decode v.toNat).real

/-- A code that serves for `x` in a reduction: a number of no lesser rank when `x` holds a number (R201). -/
def ServesFor (up : Bool) (x r : Word) : Prop := IsNum x → IsNum r ∧ rank up x ≤ rank up r

/-- Of two numbers the model takes the one that it finds the greater or the lesser; −0 stands below +0 (R201). -/
theorem minmax_of_nums {x y : Word} (hx : IsNum x) (hy : IsNum y) :
    ∃ less, (∀ up, pick up x y = if less == up then y else x)
      ∧ if less then (f32.decode x.toNat).real ≤ (f32.decode y.toNat).real else (f32.decode y.toNat).real ≤ (f32.decode x.toNat).real := by
  have hlt := Fp.lt_iff hx hy
  have hge := Fp.lt_eq_false_iff hx hy
  have hle := Fp.lt_eq_false_iff hy hx
  rw [IsNum] at hx hy
  set a := f32.decode x.toNat with ha
  set b := f32.decode y.toNat with hb
  refine ⟨a.lt b || (a.eqv b && a.isNeg && !b.isNeg), fun up => ?_, ?_⟩
  · simp only [pick, Fmt.minmax, ← ha, ← hb, hx, hy, Bool.and_self, Bool.false_eq_true, if_false]
    rw [apply_ite (BitVec.ofNat 32)]
    simp only [BitVec.ofNat_toNat, BitVec.setWidth_eq]
  · split
    case isTrue hless =>
      rcases Bool.or_eq_true_iff.1 hless with h | h
      · exact (hlt.1 h).le
      · simp only [Fp.eqv, Bool.and_eq_true, Bool.not_eq_true'] at h
        exact hle.1 h.1.1.2
    case isFalse hless =>
      rw [Bool.not_eq_true, Bool.or_eq_false_iff] at hless
      exact hge.1 hless.1

theorem pick_of_nums {up : Bool} {x y : Word} (hx : IsNum x) (hy : IsNum y) :
    (pick up x y = x ∧ rank up y ≤ rank up x) ∨ (pick up x y = y ∧ rank up x ≤ rank up y) := by
  obtain ⟨less, hpick, hle⟩ := minmax_of_nums hx hy
  rw [hpick]
  cases less with
  | false =>
    cases up with
    | false => exact .inr ⟨rfl, EReal.neg_le_neg_iff.2 hle⟩
    | true => exact .inl ⟨rfl, hle⟩
  | true =>
    cases up with
    | false => exact .inl ⟨rfl, EReal.neg_le_neg_iff.2 hle⟩
    | true => exact .inr ⟨rfl, hle⟩

theorem pick_left {up : Bool} {x y : Word} (hx : IsNum x) (hy : ¬ IsNum y) : pick up x y = x := by
  rw [IsNum] at hx hy
  simp [pick, Fmt.minmax, hx, hy]

theorem pick_right {up : Bool} {x y : Word} (hx : ¬ IsNum x) (hy : IsNum y) : pick up x y = y := by
  rw [IsNum] at hx hy
  simp [pick, Fmt.minmax, hx, hy]

theorem pick_serves (up : Bool) (x y : Word) : ServesFor up x (pick up x y) ∧ ServesFor up y (pick up x y) := by
  by_cases hx : IsNum x <;> by_cases hy : IsNum y
  · rcases pick_of_nums (up := up) hx hy with ⟨he, hle⟩ | ⟨he, hle⟩
    · rw [he]
      exact ⟨fun _ => ⟨hx, le_rfl⟩, fun _ => ⟨hx, hle⟩⟩
    · rw [he]
      exact ⟨fun _ => ⟨hy, hle⟩, fun _ => ⟨hy, le_rfl⟩⟩
  · exact ⟨fun _ => (pick_left (up := up) hx hy).symm ▸ ⟨hx, le_rfl⟩, fun h => absurd h hy⟩
  · exact ⟨fun h => absurd h hx, fun _ => (pick_right (up := up) hx hy).symm ▸ ⟨hy, le_rfl⟩⟩
  · exact ⟨fun h => absurd h hx, fun h => absurd h hy⟩

theorem pick_one_of (up : Bool) (x y : Word) : pick up x y = x ∨ pick up x y = y ∨ ¬ IsNum (pick up x y) := by
  by_cases hx : IsNum x <;> by_cases hy : IsNum y
  · exact (pick_of_nums hx hy).imp And.left fun h => .inl h.1
  · exact .inl (pick_left hx hy)
  · exact .inr (.inl (pick_right hx hy))
  · refine .inr (.inr ?_)
    rw [IsNum] at hx hy ⊢
    have hboth : pick up x y = 0x7FC00000 := by
      simp [pick, Fmt.minmax, hx, hy, f32_nanCode]
    rw [hboth]
    decide

/-- A number form of `redmx`: a NaN that remains becomes the default NaN (R201, R214). -/
def numReduce (up : Bool) (vs : List Word) : Word := if (f32.decode (fold1 (pick up) vs).toNat).isNan then 0x7FC00000 else fold1 (pick up) vs

theorem numReduce_of_num {up : Bool} {vs : List Word} {v : Word} (hv : v ∈ vs) (hn : IsNum v) :
    IsNum (numReduce up vs) ∧ numReduce up vs ∈ vs ∧ rank up v ≤ rank up (numReduce up vs) := by
  obtain ⟨hnum, hle⟩ := fold1_bound (R := ServesFor up) (fun _ h => ⟨h, le_rfl⟩)
    (fun a b c hab hbc h => ⟨(hbc (hab h).1).1, (hab h).2.trans (hbc (hab h).1).2⟩) (pick_serves up) v hv hn
  have heq : numReduce up vs = fold1 (pick up) vs := by
    rw [numReduce, hnum]
    rfl
  rw [heq]
  exact ⟨hnum, (fold1_mem (Q := fun r => ¬ IsNum r) (pick_one_of up) (List.ne_nil_of_mem hv)).resolve_right (not_not.2 hnum), hle⟩

theorem numReduce_of_no_num {up : Bool} {vs : List Word} (hvs : vs ≠ []) (h : ∀ v ∈ vs, ¬ IsNum v) : numReduce up vs = 0x7FC00000 := by
  have hnan : ¬ IsNum (fold1 (pick up) vs) := (fold1_mem (Q := fun r => ¬ IsNum r) (pick_one_of up) hvs).elim (h _) id
  rw [IsNum, Bool.not_eq_false] at hnan
  rw [numReduce, if_pos hnan]

/-! ## Bitwise combinations -/

theorem getLsbD_foldl_and (r : List Word) (w : Word) (j : Nat) :
    (r.foldl (· &&& ·) w).getLsbD j = true ↔ w.getLsbD j = true ∧ ∀ v ∈ r, v.getLsbD j = true := by
  induction r generalizing w with
  | nil => simp
  | cons a r ih => rw [List.foldl_cons, ih, BitVec.getLsbD_and, Bool.and_eq_true, and_assoc, List.forall_mem_cons]

theorem getLsbD_foldl_or (r : List Word) (w : Word) (j : Nat) :
    (r.foldl (· ||| ·) w).getLsbD j = true ↔ w.getLsbD j = true ∨ ∃ v ∈ r, v.getLsbD j = true := by
  induction r generalizing w with
  | nil => simp
  | cons a r ih => rw [List.foldl_cons, ih, BitVec.getLsbD_or, Bool.or_eq_true, or_assoc, List.exists_mem_cons_iff]

/-! ## `redmx` by its selector (R214) -/

/-- The word that `redmx` gives for a selector and the present lanes. -/
def reduced (sel : Nat) (vs : List Word) : Word := BitVec.ofNat 32 (reduceBy sel vs).1

theorem reduced_of_num (vs : List Word) : reduced 4 vs = numReduce true vs ∧ reduced 5 vs = numReduce false vs := by
  have hpush : ∀ up, BitVec.ofNat 32 (if (f32.decode (fold1 (pick up) vs).toNat).isNan then f32.nanCode else (fold1 (pick up) vs).toNat)
      = numReduce up vs := fun up => by
    rw [numReduce, apply_ite (BitVec.ofNat 32), BitVec.ofNat_toNat, BitVec.setWidth_eq, f32_nanCode]
    rfl
  exact ⟨hpush true, hpush false⟩

theorem reduceBy_flags {sel : Nat} (h : sel < 8) (vs : List Word) :
    (reduceBy sel vs).2 = if sel = 4 ∨ sel = 5 then snanFlag (vs.map (fun v => f32.decode v.toNat)) else 0 := by
  interval_cases sel <;> rfl

/-- `redmx` gives the greatest or least value, or the combination, of its selector (R214). -/
theorem reduced_maxResult {sel : Nat} (h : sel < 8) {vs : List Word} (hvs : vs ≠ []) : maxResult sel vs (reduced sel vs) := by
  have hword : ∀ f, BitVec.ofNat 32 (fold1 f vs).toNat = fold1 f vs := fun f => by rw [BitVec.ofNat_toNat, BitVec.setWidth_eq]
  obtain ⟨hup, hdown⟩ := reduced_of_num vs
  match sel, h with
  | 0, _ =>
    rw [reduced, reduceBy, hword]
    exact fold1_greatest BitVec.toInt (fun a b => by rw [maxI]; split <;> simp_all [le_of_lt]) hvs
  | 1, _ =>
    rw [reduced, reduceBy, hword]
    exact fold1_greatest (fun v => OrderDual.toDual v.toInt) (fun a b => by rw [minI]; split <;> simp_all [le_of_lt]) hvs
  | 2, _ =>
    rw [reduced, reduceBy, hword]
    exact fold1_greatest BitVec.toNat (fun a b => by rw [maxN]; split <;> simp_all [le_of_lt]) hvs
  | 3, _ =>
    rw [reduced, reduceBy, hword]
    exact fold1_greatest (fun v => OrderDual.toDual v.toNat) (fun a b => by rw [minN]; split <;> simp_all [le_of_lt]) hvs
  | 4, _ =>
    rw [hup]
    refine ⟨fun v hv hn => ?_, numReduce_of_no_num hvs⟩
    obtain ⟨hnum, hmem, hle⟩ := numReduce_of_num (up := true) hv hn
    exact ⟨hnum, hmem, (Fp.lt_eq_false_iff hnum hn).2 hle⟩
  | 5, _ =>
    rw [hdown]
    refine ⟨fun v hv hn => ?_, numReduce_of_no_num hvs⟩
    obtain ⟨hnum, hmem, hle⟩ := numReduce_of_num (up := false) hv hn
    exact ⟨hnum, hmem, (Fp.lt_eq_false_iff hn hnum).2 (EReal.neg_le_neg_iff.1 hle)⟩
  | 6, _ =>
    obtain ⟨w, r, rfl⟩ := List.exists_cons_of_ne_nil hvs
    intro j _
    rw [reduced, reduceBy, hword, fold1, getLsbD_foldl_and, List.forall_mem_cons]
  | 7, _ =>
    obtain ⟨w, r, rfl⟩ := List.exists_cons_of_ne_nil hvs
    intro j _
    rw [reduced, reduceBy, hword, fold1, getLsbD_foldl_or, List.exists_mem_cons_iff]
  | n + 8, h => exact absurd h (by omega)

/-! ## The words (R214, R216) -/

/-- A reduction whose result depends on nothing but what gathering keeps (R211, R214). -/
theorem crewReduce_effect {s : State} {i : Instr} {p : At} {x : Team} (h : s.Executes i p) (hx : s.team? p.team = some x) (hc : s.CrewHere p x)
    {d a b : Opd} {f : Team → List Nat → List XLane → Nat × BitVec 5} (hi : exec i s = issueCrew i (crewReduce d a b f) s) {r : Nat × BitVec 5}
    (hr : ∀ y g, x.Gathered y p.members g → f y p.members (x.xlanes p.members a b) = r) :
    ∃ t, exec i s = .next t ∧ CrewFrame s t p
      ∧ EachSlice s t p (fun _ sl sl' => sl.CrewWrote sl' d (fun _ => BitVec.ofNat 32 r.1) r.2) := by
  have hlanes : ∀ y g, x.Gathered y p.members g → f y p.members (y.xlanes p.members a b) = r := fun y g hg => by
    rw [hg.xlanes, hr y g hg]
  rw [hi]
  exact crewWrite_effect h hx hc d (val := fun t ms _ => BitVec.ofNat 32 (f t ms (t.xlanes ms a b)).1) (fl := fun t ms => (f t ms (t.xlanes ms a b)).2)
    (fun y g hg _ _ _ _ _ => by rw [hlanes y g hg]) (fun y g hg => by rw [hlanes y g hg])

theorem exec_redi (d a : Opd) (s : State) : exec (.redi d a) s = issueCrew (.redi d a)
    (crewReduce d a .zero (fun _ _ ls => (((presentA ls).foldl (· + ·) 0).toNat, 0))) s := rfl

theorem exec_redf (d a : Opd) (s : State) : exec (.redf d a) s = issueCrew (.redf d a)
    (crewReduce d a .zero (fun t ms ls => sumTree (t.lowRm ms) (t.xwidth ms) ls)) s := rfl

theorem exec_redmx (d a b : Opd) (s : State) : exec (.redmx d a b) s = issueCrew (.redmx d a b)
    (crewReduce d a b (fun _ _ ls => reduceBy ((lowB ls).toNat % 8) (presentA ls))) s := rfl

theorem exec_scani (d a b : Opd) (s : State) : exec (.scani d a b) s = issueCrew (.scani d a b)
    (fun t ms => t.crewWrite ms d (scanAt (t.xlanes ms a b)) 0) s := rfl

/-- Settles O12: the sum, the tree, the greatest or least value and the running sum over the present lanes. -/
theorem crewReduceResults : Obligations.CrewReduceResults := by
  refine ⟨fun s p x d a h hx hc => ?redi, fun s p x d a h hx hc => ?redf, fun s p x d a b h hx hc => ?redmx, fun s p x d a b h hx hc => ?scani⟩
  case redi =>
    obtain ⟨t, ht, hframe, heach⟩ := crewReduce_effect h hx hc (exec_redi d a s) (r := (((x.crewValues p.members a .zero).foldl (· + ·) 0).toNat, 0))
      fun y g _ => by rw [hc.lined.presentA_eq]
    refine ⟨t, ht, hframe, heach.imp fun k _ _ _ sl _ sl' w => ⟨w.rest, ?_, w.sregs, w.exec, w.scc, ?_⟩⟩
    · simpa using w.fps
    · simpa only [foldl_add_zero, BitVec.ofNat_toNat, BitVec.setWidth_eq] using w.received
  case redf =>
    obtain ⟨t, ht, hframe, heach⟩ := crewReduce_effect h hx hc (exec_redf d a s) (r := x.crewTree p.members a (x.crewRm p.members))
      fun y g hg => by rw [hg.lowRm, hg.xwidth, hc.lined.sumTree_eq]
    exact ⟨t, ht, hframe, heach.imp fun k _ _ _ sl _ sl' w => ⟨w.rest, w.fps, w.sregs, w.exec, w.scc, w.received⟩⟩
  case redmx =>
    have hlt : (x.crewUniform p.members a b).toNat % 8 < 8 := Nat.mod_lt _ (by decide)
    obtain ⟨t, ht, hframe, heach⟩ := crewReduce_effect h hx hc (exec_redmx d a b s)
      (r := reduceBy ((x.crewUniform p.members a b).toNat % 8) (x.crewValues p.members a b))
      fun y g _ => by rw [hc.lined.lowB_eq, hc.lined.presentA_eq]
    refine ⟨t, ht, hframe, _, _, reduced_maxResult hlt, reduceBy_flags hlt _, ?_⟩
    exact heach.imp fun k _ _ _ sl _ sl' w => ⟨w.rest, w.fps, w.sregs, w.exec, w.scc, w.received⟩
  case scani =>
    rw [exec_scani]
    obtain ⟨t, ht, hframe, heach⟩ := crewWrite_quiet h hx hc d (val := fun t ms => scanAt (t.xlanes ms a b))
      (val' := fun sl l => scanAt (x.xlanes p.members a b) (4 * sl.pos x.record.crewlog + l)) (fun y g hg sl _ l _ _ => by rw [hg.xlanes])
    refine ⟨t, ht, hframe, heach.imp fun k _ x' hx' sl _ sl' w => ?_⟩
    rw [hx] at hx'; cases hx'
    simpa only [hc.lined.scanAt_eq] using w

end Sys2Proof.Machine

/-! SUPPORT. Ordering points of a slice that has no memory operation outstanding, and words that such a slice sends to the cox. -/

namespace Sys2Proof.Machine

/-! ## Ordering points (R64, R139) -/

theorem State.acc?_mem {s : State} {id i : Nat} {op : PendOp} {a : Acc} {st : AccSt} (h : s.acc? id i = some (op, a, st)) : op ∈ s.pend := by
  obtain ⟨o, ho, hmap⟩ := Option.bind_eq_some_iff.1 h
  obtain ⟨e, -, he⟩ := Option.map_eq_some_iff.1 hmap
  cases he
  exact List.mem_of_find?_eq_some ho

/-- Forcing accesses of which no operation in flight holds any changes nothing. -/
theorem State.force_none (s : State) {sel : PendOp → Acc → Bool} (h : ∀ op ∈ s.pend, ∀ b, sel op b = false) : s.force sel = s := by
  refine List.foldl_fixed' (fun e => ?_) _
  split
  · next op a ps hacc => simp [h op (State.acc?_mem hacc) a]
  · rfl

theorem State.Idle.beq_and_eq_false {s : State} {u k : Nat} (h : s.Idle u k) {op : PendOp} (hop : op ∈ s.pend) :
    (op.team == u && op.slice == k) = false := by
  simpa using h op hop

theorem State.Idle.lateLeft_eq {s : State} {u k : Nat} (h : s.Idle u k) (fence : Bool) : s.lateLeft u k fence = false :=
  List.any_eq_false.2 fun op hop => by simp [h.beq_and_eq_false hop]

/-- An ordering point of such a slice moves instruction lines and the order of events only (R139, R151). -/
theorem State.Idle.orderPoint_eq {s : State} {u k : Nat} (h : s.Idle u k) {x : Team} (hx : s.team? u = some x) (fence : Bool) :
    ∃ lines hist, s.orderPoint u k fence = { s with ilines := lines, hist := hist } := by
  have hforce := s.force_none (sel := fun op b => op.team == u && op.slice == k && (fence || b.order != .unp))
    fun op hop b => by simp [h.beq_and_eq_false hop]
  simp only [State.orderPoint, hforce, hx]
  exact ⟨_, _, rfl⟩

theorem State.at?_cur {s : State} {p : At} (h : s.at? = some p) : ∃ c, s.cur = some c ∧ p.team = c.team ∧ p.members = c.members := by
  unfold State.at? at h
  split at h
  · cases h
  next c hc =>
  split at h
  · cases h
  split at h
  · cases h
  cases h
  exact ⟨c, hc, rfl, rfl⟩

section Alone

variable {s : State} {i : Instr} {p : At} {x : Team} {k : Nat} {sl : Slice}

theorem State.Alone.forceCur_eq (h : s.Alone i p x k sl) (hidle : s.Idle p.team k) (fence : Bool) : s.forceCur fence = s := by
  obtain ⟨c, hc, hteam, hmem⟩ := State.at?_cur h.executes.issuing
  simp only [State.forceCur, hc, ← hteam, ← hmem, h.one]
  exact s.force_none fun op hop b => by simpa using fun hu hk => absurd ⟨hu, hk⟩ (hidle op hop)

theorem State.Alone.lateWaits_none (h : s.Alone i p x k sl) (hidle : s.Idle p.team k) (fence : Bool) :
    lateWaits fence p s = none := by
  simp [lateWaits, h.one, hidle.lateLeft_eq fence]

/-- An ordering point that one slice with nothing outstanding executes by itself, and that nothing of its own stops. -/
theorem State.Alone.issuePoint_executes (h : s.Alone i p x k sl) (hidle : s.Idle p.team k) {fence : Bool} {pre : At → State → Option State}
    (hpre : pre p s = none) (f : At → Nat → State → State) :
    issuePoint i fence pre (eachMember f) s = .next ((f p k (s.chargeWord p i)).settle p.team) := by
  unfold issuePoint
  rw [h.forceCur_eq hidle, issueWith_executes h.executes _ _ (by rw [h.lateWaits_none hidle, hpre]; rfl), eachMember, h.one]
  rfl

/-- The home of a launch that is not moving makes no word of its teams wait (R34). -/
theorem homeWaits_none {L : Launch} (hx : s.team? p.team = some x) (hL : s.launch? x.launch = some L) (hmov : L.moving = false) :
    homeWaits p s = none := by
  simp [homeWaits, State.homeMoves, hx, hL, hmov]

/-! ## The charge of a word of one slice -/

theorem State.clock_le_setCore (s : State) (j c : Nat) {f : Core → Core} (hid : ∀ x, (f x).id = x.id) (hf : ∀ x, x.clock ≤ (f x).clock) :
    (s.core c).clock ≤ ((s.setCore j f).core c).clock := by
  rw [State.core_setCore s j c f hid]
  split
  · exact hf _
  · exact le_rfl

theorem State.clock_le_lastInClass (s : State) (u : Nat) (ms : List Nat) (c : Nat) :
    (s.core c).clock ≤ ((s.lastInClass u ms).core c).clock := by
  refine le_trans (le_of_eq ?_) (State.clock_le_setCore _ _ c ?_ ?_)
  · rfl
  · exact fun _ => rfl
  · exact fun _ => le_rfl

/-- The charge of a word never sets a clock back (R137). -/
theorem State.clock_le_chargeWord (s : State) (p : At) (i : Instr) (c : Nat) : (s.core c).clock ≤ ((s.chargeWord p i).core c).clock := by
  unfold State.chargeWord
  split
  · exact le_rfl
  · simp only
    split
    · refine (State.clock_le_lastInClass (s.setTeam p.team _) p.team p.members c).trans (State.clock_le_setCore _ _ _ ?_ fun y => ?_)
      · exact fun _ => rfl
      · dsimp only
        split <;> omega
    · refine (State.clock_le_lastInClass (s.setTeam p.team _) p.team p.members c).trans (State.clock_le_setCore _ _ _ ?_ ?_)
      · exact fun _ => rfl
      · exact fun y => Nat.le_succ y.clock

/-- What the word that slice `k` of team `x` executes by itself, with nothing outstanding, finds after its charge: its slice
charged, its team in its launch and on its core, and the launches as they were. -/
structure AfterCharge (s z : State) (u : Nat) (x : Team) (k : Nat) (sl : Slice) : Prop where
  team : ∃ y, z.team? u = some y ∧ y.launch = x.launch ∧ y.core = x.core
  slice : z.slice? u k = some sl.charged
  launches : z.launches = s.launches
  idle : z.Idle u k
  clock : (s.core x.core).clock ≤ (z.core x.core).clock

theorem State.Alone.afterCharge (h : s.Alone i p x k sl) (hidle : s.Idle p.team k) : AfterCharge s (s.chargeWord p i) p.team x k sl := by
  have hc := s.chargeWord_charged i p
  obtain ⟨y, hy, ey, -, -⟩ := hc.team x h.team
  refine ⟨⟨y, hy, by rw [ey], by rw [ey]⟩, ?_, by rw [hc.rest]; rfl, by rw [hc.rest]; exact hidle, s.clock_le_chargeWord p i _⟩
  rw [hc.slice? x h.team, h.slice]
  simp [h.one]

end Alone

/-! ## The cox (R31 to R35) -/

theorem State.team?_setSlice_self {s : State} {u : Nat} {x : Team} (hx : s.team? u = some x) (k : Nat) (f : Slice → Slice) :
    (s.setSlice u k f).team? u = some (x.setSlice k f) :=
  (State.team?_setTeam_self s u _ fun t => Team.setSlice_uid t k f).trans (by rw [hx]; rfl)

theorem State.setLaunch_launch? (s : State) (l m : Nat) (f : Launch → Launch) (hf : ∀ y, (f y).uid = y.uid) :
    (s.setLaunch l f).launch? m = (s.launch? m).map (fun y => if m = l then f y else y) :=
  find?_map_key s.launches (·.uid) m l f hf

theorem State.setLaunch_id (s : State) (l : Nat) : s.setLaunch l id = s := by
  simp [State.setLaunch]

theorem State.launch?_served {s t : State} {l : Nat} {f : Launch → Launch} (h : t.launches = (s.setLaunch l f).launches) {L : Launch}
    (hL : s.launch? l = some L) (hf : ∀ y, (f y).uid = y.uid) : t.launch? l = some (f L) := by
  rw [State.launch?, h, ← State.launch?, State.setLaunch_launch? s l l f hf, hL]
  simp

theorem State.launch?_uid {s : State} {l : Nat} {L : Launch} (h : s.launch? l = some L) : L.uid = l := by
  simpa using List.find?_some h

/-- A launch with a team that asks for no work is not exhausted (R35). -/
theorem State.exhausted_of_team {s : State} {u : Nat} {x : Team} (hx : s.team? u = some x) {L : Launch} (hl : x.launch = L.uid)
    (hw : L.waiters = []) : s.exhausted L = false := by
  have hmem : x ∈ s.teamsOf L.uid := List.mem_filter.2 ⟨List.mem_of_find?_eq_some hx, by simpa using hl⟩
  have hall : (s.teamsOf L.uid ++ s.savedOf L.uid).all (fun t => decide (t.hi ≤ t.lo) && L.waiters.contains t.uid) = false :=
    List.all_eq_false.2 ⟨x, List.mem_append_left _ hmem, by simp [hw]⟩
  rw [State.exhausted]
  simp only [hall, Bool.and_false, Bool.false_and]

/-- The cox has nothing to serve in a launch for which no team waits while one works. -/
theorem State.kick_idle {s : State} {l : Nat} {L : Launch} (hL : s.launch? l = some L) (hw : L.waiters = []) {u : Nat} {x : Team}
    (hx : s.team? u = some x) (hl : x.launch = l) : s.kick l = s := by
  have hex := State.exhausted_of_team hx (hl.trans (State.launch?_uid hL).symm) hw
  simp [State.kick, hL, hw, hex]

/-! ## What such a word leaves -/

/-- From `z` to `w` nothing but instruction lines, the order of events and the free choices used differs. -/
def OrderMoved (z w : State) : Prop := w = { z with ilines := w.ilines, hist := w.hist, nonce := w.nonce }

/-- From `z` to `w` slice `k` of team `u` has become `g` of what it was and launch `l` has become `f` of what it was, and nothing else
but what `OrderMoved` lets differ has changed. -/
def Served (z w : State) (u k : Nat) (g : Slice → Slice) (l : Nat) (f : Launch → Launch) : Prop :=
  OrderMoved ((z.setSlice u k g).setLaunch l f) w

theorem MembersChanged.elsewhere {u : Nat} {ms : List Nat} {g : Slice → Slice} {s t : State} (h : MembersChanged u ms g s t) :
    Elsewhere s t u ms where
  memory a := by rw [h.rest]; rfl
  teams := h.others
  slices := h.slices

theorem Elsewhere.trans {u : Nat} {ms : List Nat} {a b c : State} (h : Elsewhere a b u ms) (h' : Elsewhere b c u ms) : Elsewhere a c u ms where
  memory m := (h'.memory m).trans (h.memory m)
  teams v hv := (h'.teams v hv).trans (h.teams v hv)
  slices m hm := (h'.slices m hm).trans (h.slices m hm)

theorem Charged.elsewhere {s t : State} {i : Instr} {p : At} (h : Charged s t i p) {x : Team} (hx : s.team? p.team = some x) :
    Elsewhere s t p.team p.members where
  memory a := by rw [h.rest]; rfl
  teams := h.others
  slices m hm := by
    rw [h.slice? x hx, State.slice?_eq s p.team m x hx]
    simp [hm]

theorem Served.elsewhere {z w : State} {u k l : Nat} {g : Slice → Slice} {f : Launch → Launch} (h : Served z w u k g l f)
    (hg : ∀ sl, (g sl).idx = sl.idx) : Elsewhere z w u [k] ∧ ∀ sl, z.slice? u k = some sl → w.slice? u k = some (g sl) := by
  have hset : MembersChanged u [k] g z (z.setSlice u k g) := .setSlice (fun sl hsl => (hg sl).trans hsl) fun _ _ => rfl
  rw [Served, OrderMoved] at h
  exact ⟨⟨fun a => by rw [h]; rfl, fun v hv => by rw [h]; exact hset.others v hv, fun m hm => by rw [h]; exact hset.slices m hm⟩,
    fun sl hsl => by rw [h]; exact hset.members k (List.mem_singleton_self k) sl hsl⟩

theorem Served.launches {z w : State} {u k l : Nat} {g : Slice → Slice} {f : Launch → Launch} (h : Served z w u k g l f) :
    w.launches = (z.setLaunch l f).launches := by
  rw [Served, OrderMoved] at h
  rw [h]
  rfl

theorem OrderMoved.served {z v w : State} {u k l : Nat} {g : Slice → Slice} {f : Launch → Launch} (h : OrderMoved z v)
    (hs : Served v w u k g l f) : Served z w u k g l f := by
  rw [Served, OrderMoved] at hs ⊢
  rw [OrderMoved] at h
  rw [h] at hs
  exact hs

section AfterCharge

variable {s z : State} {u k : Nat} {x : Team} {sl : Slice} {L : Launch}

/-- The ordering point at the start of the word leaves what the word finds. -/
theorem AfterCharge.orderPoint (h : AfterCharge s z u x k sl) :
    ∃ v, z.orderPoint u k false = v ∧ OrderMoved z v ∧ AfterCharge s v u x k sl ∧ v.core x.core = z.core x.core := by
  obtain ⟨y, hy, hyl, hyc⟩ := h.team
  obtain ⟨lines, hist, hpoint⟩ := h.idle.orderPoint_eq hy false
  exact ⟨_, hpoint, rfl, ⟨⟨y, hy, hyl, hyc⟩, h.slice, h.launches, h.idle, h.clock⟩, rfl⟩

theorem AfterCharge.launch? (h : AfterCharge s z u x k sl) (hL : s.launch? x.launch = some L) : z.launch? x.launch = some L := by
  rw [← hL]
  simp only [State.launch?, h.launches]

/-- The slice and its launch being served, the cox has nothing more to do when no team waits. -/
theorem AfterCharge.served_kick (h : AfterCharge s z u x k sl) (hL : s.launch? x.launch = some L) (hw : L.waiters = []) {w : State}
    {g : Slice → Slice} {f : Launch → Launch} (hs : Served z w u k g x.launch f) (hid : ∀ y, (f y).uid = y.uid)
    (hwait : (f L).waiters = L.waiters) : Served z (w.kick x.launch) u k g x.launch f := by
  obtain ⟨y, hy, hyl, -⟩ := h.team
  have hlaunch : w.launch? x.launch = some (f L) := State.launch?_served hs.launches (h.launch? hL) hid
  have hteam : w.team? u = some (y.setSlice k g) := by
    rw [← State.team?_setSlice_self hy]
    rw [Served, OrderMoved] at hs
    rw [hs]
    rfl
  rw [State.kick_idle hlaunch (hwait.trans hw) hteam hyl]
  exact hs

end AfterCharge

/-- An ordering point of one slice with nothing outstanding, whose home stands still and whose body serves the slice and its launch. -/
theorem State.Alone.served {s : State} {i : Instr} {p : At} {x : Team} {k : Nat} {sl : Slice} (h : s.Alone i p x k sl) (hidle : s.Idle p.team k)
    {L : Launch} (hL : s.launch? x.launch = some L) (hmov : L.moving = false) {body : At → Nat → State → State} {g : Slice → Slice}
    {f : Launch → Launch} (hg : ∀ sl, Slice.Plain sl (g sl))
    (hbody : Served (s.chargeWord p i) (body p k (s.chargeWord p i)) p.team k g x.launch f) :
    ∃ t, issuePoint i false homeWaits (eachMember body) s = .next t ∧ Elsewhere s t p.team [k]
      ∧ t.slice? p.team k = some (g sl.charged) ∧ t.launches = (s.setLaunch x.launch f).launches := by
  have hcharged := h.afterCharge hidle
  obtain ⟨hframe, hslice⟩ := hbody.elsewhere fun sl => (hg sl).idx
  have hcharge := h.one ▸ (s.chargeWord_charged i p).elsewhere h.team
  have hrun := h.executes.mayRun (by simp [h.one]) h.team h.slice
  have hpart : SubsOnly p.team (body p k (s.chargeWord p i)) ((body p k (s.chargeWord p i)).settle p.team) := by
    rw [State.settle_runs _ p.team k _ (hslice _ hcharged.slice) ((hg _).ended.trans hrun.live) ((hg _).block.trans hrun.free)]
    exact State.regroup_subs _ _
  have hkept : Elsewhere (body p k (s.chargeWord p i)) ((body p k (s.chargeWord p i)).settle p.team) p.team [k] :=
    ⟨fun a => by rw [hpart.rest]; rfl, hpart.others, fun m _ => hpart.slice? _ _⟩
  refine ⟨_, h.issuePoint_executes hidle (homeWaits_none h.team hL hmov) body, (hcharge.trans hframe).trans hkept, ?_, ?_⟩
  · rw [hpart.slice?]
    exact hslice _ hcharged.slice
  · rw [hpart.rest]
    refine hbody.launches.trans ?_
    simp only [State.setLaunch, hcharged.launches]

end Sys2Proof.Machine

/-! PROOFS. Continuation records: `spawn` and `joinc` (R297 to R299). -/

namespace Sys2Proof.Machine

/-! ## Handles (R297) -/

/-- The handle that stands `i` places after `base` among the nonzero words, counted round. -/
def handleAt (base i : Nat) : Nat := 1 + (base + i) % (2 ^ 32 - 1)

theorem handleAt_lt (base i : Nat) : handleAt base i < 2 ^ 32 := by
  have := Nat.mod_lt (base + i) (show 2 ^ 32 - 1 > 0 by decide)
  unfold handleAt
  omega

theorem handleAt_ne_zero (base i : Nat) : handleAt base i ≠ 0 := by
  unfold handleAt
  omega

theorem handleAt_inj {base i j : Nat} (hi : i < 2 ^ 32 - 1) (hj : j < 2 ^ 32 - 1) (h : handleAt base i = handleAt base j) : i = j := by
  have hmod : i ≡ j [MOD 2 ^ 32 - 1] := Nat.ModEq.add_left_cancel' base (Nat.add_left_cancel h)
  exact hmod.eq_of_lt_of_lt hi hj

/-- Among more places than there are handles in `hs`, one is of a handle that is not in `hs`. -/
theorem exists_handleAt_not_mem (base : Nat) {hs : List Nat} (h : hs.length < 2 ^ 32 - 1) :
    ∃ i ∈ List.range (hs.length + 1), handleAt base i ∉ hs := by
  by_contra hall
  push Not at hall
  have hnodup : ((List.range (hs.length + 1)).map (handleAt base)).Nodup := by
    refine List.Nodup.map_on (fun i hi j hj => handleAt_inj ?_ ?_) List.nodup_range
    · have := List.mem_range.1 hi
      omega
    · have := List.mem_range.1 hj
      omega
  have hle := (hnodup.subperm (fun _ hm => List.forall_mem_map.2 hall _ hm)).length_le
  simp at hle

/-- A launch that has handles left gives a nonzero word that it has not issued (R297). -/
theorem State.newHandle_eq (s : State) {L : Launch} (h : L.handles.length < 2 ^ 32 - 1) :
    ∃ w : Word, w ≠ 0 ∧ w.toNat ∉ L.handles ∧ s.newHandle L = (w.toNat, { s with nonce := s.nonce + 1 }) := by
  obtain ⟨i, hi, hnew⟩ := exists_handleAt_not_mem (Config.choice s.nonce) h
  obtain ⟨j, hj⟩ : ∃ j, findBelow (L.handles.length + 1) (fun i => !L.handles.contains (handleAt (Config.choice s.nonce) i)) = some j :=
    Option.isSome_iff_exists.1 (List.find?_isSome.2 ⟨i, hi, by simpa using hnew⟩)
  have hval : (BitVec.ofNat 32 (handleAt (Config.choice s.nonce) j)).toNat = handleAt (Config.choice s.nonce) j := by
    rw [BitVec.toNat_ofNat]
    exact Nat.mod_eq_of_lt (handleAt_lt _ _)
  refine ⟨BitVec.ofNat 32 (handleAt (Config.choice s.nonce) j), fun h0 => ?_, ?_, ?_⟩
  · rw [h0] at hval
    exact handleAt_ne_zero _ _ hval.symm
  · rw [hval]
    simpa using List.find?_some hj
  · rw [hval]
    unfold handleAt at hj ⊢
    simp only [State.newHandle, hj]

/-! ## `spawn` (R298) -/

theorem Slice.pair_eq_pairOf (sl : Slice) (c : Nat) {a : Opd} (ha : a.plus 0 = a) (l : Nat) : sl.pair c a l = sl.pairOf c a l := by
  simp [Slice.pair, Slice.readN, Slice.pairOf, ha, Nat.shiftLeft_eq, Nat.mul_comm]

theorem Opd.plus_zero_of_sGroup {n : Nat} {a : Opd} (h : a.sGroup n = true) : a.plus 0 = a := by
  cases a with
  | s m => simp [Opd.plus]
  | v _ | zero | exec | lane | slice | bc _ | role => simp [Opd.sGroup] at h

theorem Opd.sdst_of_szero {d : Opd} (h : d.szero = true) : d.sdst = true := by
  cases d with
  | s _ | zero => rfl
  | v _ | exec | lane | slice | bc _ | role => exact absurd h Bool.false_ne_true

/-- A slice that has been answered `w` in D and `c` in SCC. -/
def Slice.answered (d : Opd) (w : Word) (c : Bool) (sl : Slice) : Slice := { (sl.writeS d w).advance with scc := c }

theorem Slice.answered_plain (d : Opd) (w : Word) (c : Bool) (sl : Slice) : Slice.Plain sl (sl.answered d w c) := by
  have h := sl.writeS_plain d w
  exact ⟨(Slice.advance_idx _).trans h.idx, (Slice.advance_ended _).trans h.ended, (Slice.advance_block _).trans h.block⟩

theorem Slice.answered_result (sl : Slice) {d : Opd} (w : Word) (c : Bool) (hd : d.sdst = true) :
    sl.ScalarResult (sl.charged.answered d w c) d w c sl.fps := by
  have hfps : (sl.charged.writeS d w).fps = sl.fps := by rw [(sl.writeS_write d w hd).2]; rfl
  have hcomm : sl.charged.answered d w c = { sl.charged.writeS d w with scc := c, fps := sl.fps }.advance := by
    unfold Slice.answered Slice.advance
    rw [← hfps]
    split <;> rfl
  rw [hcomm]
  exact sl.scalar_result d w _ _ hd _ rfl

/-- The record that a `spawn` of a slice makes with handle `w`, in a launch that is not cancelled (R298). -/
def Slice.record (a : Opd) (w : Word) (opno now : Nat) (sl : Slice) : Cont where
  frame := sl.pair 0 a 0
  codeoff := (sl.readS (a.plus 2)).toNat
  count := (sl.readS (a.plus 3)).toNat
  handle := w.toNat
  st := if (sl.readS (a.plus 3)).toNat = 0 then .ready else .pending
  readyseq := opno
  takenBy := 0
  time := now

/-- A launch to which a record is added (R297, R298). -/
def Launch.addRecord (c : Cont) (L : Launch) : Launch :=
  { L with handles := L.handles ++ [c.handle], opno := L.opno + 1, conts := L.conts ++ [c] }

theorem Launch.handles_left {L : Launch} {off : Nat} (h : L.spawnFails off = false) : L.handles.length < 2 ^ 32 - 1 := by
  simp only [Launch.spawnFails, Bool.or_eq_false_iff, decide_eq_false_iff_not] at h
  omega

theorem exec_spawn (d a : Opd) (s : State) :
    exec (.spawn d a) s = issuePoint (.spawn d a) false homeWaits (eachMember (spawnOne d a)) s := rfl

section Records

variable {s z : State} {p : At} {x : Team} {k : Nat} {sl : Slice} {L : Launch}

theorem spawnOne_fails (h : AfterCharge s z p.team x k sl) (hL : s.launch? x.launch = some L) (d : Opd) {a : Opd}
    (hfails : L.spawnFails (sl.readS (a.plus 2)).toNat = true) :
    Served z (spawnOne d a p k z) p.team k (Slice.answered d 0 false) x.launch id := by
  obtain ⟨v, hpoint, hmoved, hv, -⟩ := h.orderPoint
  obtain ⟨y, hy, hyl, -⟩ := hv.team
  refine hmoved.served ?_
  rw [Served, State.setLaunch_id]
  simp only [spawnOne, hpoint, hy, hv.slice, hyl, hv.launch? hL, Slice.charged_readS, hfails, if_true]
  rfl

theorem spawnOne_makes (h : AfterCharge s z p.team x k sl) (hL : s.launch? x.launch = some L) (hst : L.st ≠ .cancelled) (hw : L.waiters = [])
    (d : Opd) {a : Opd} (hmakes : L.spawnFails (sl.readS (a.plus 2)).toNat = false) :
    ∃ w : Word, w ≠ 0 ∧ w.toNat ∉ L.handles ∧ Served z (spawnOne d a p k z) p.team k (Slice.answered d w true) x.launch
      (Launch.addRecord (sl.record a w L.opno (z.core x.core).clock)) := by
  obtain ⟨v, hpoint, hmoved, hv, hcore⟩ := h.orderPoint
  obtain ⟨y, hy, hyl, hyc⟩ := hv.team
  obtain ⟨w, hw0, hnew, hhandle⟩ := v.newHandle_eq (Launch.handles_left hmakes)
  refine ⟨w, hw0, hnew, hmoved.served ?_⟩
  set r := ({ v with nonce := v.nonce + 1 }.setSlice p.team k (Slice.answered d w true)).setLaunch x.launch
    (Launch.addRecord (sl.record a w L.opno (z.core x.core).clock)) with hr
  have hlive : (if (sl.readS (a.plus 3)).toNat = 0 then ContSt.ready else .pending) ≠ .cancelled := by split <;> decide
  have hkick : spawnOne d a p k z = r.kick x.launch := by
    simp only [spawnOne, hpoint, hy, hv.slice, hyl, hv.launch? hL, Slice.charged_readS, Slice.charged_pair, hmakes, hhandle, hst, if_false,
      Bool.false_eq_true, hlive, BitVec.ofNat_toNat, BitVec.setWidth_eq, State.launch?_uid hL, hyc]
    rw [hr, ← hcore]
    rfl
  rw [hkick]
  exact hv.served_kick hL hw rfl (fun _ => rfl) rfl

/-! ## `joinc` (R299) -/

/-- A record of handle `h` after a `joinc` at `now` (R299). -/
def Cont.joined (h opno now : Nat) (c : Cont) : Cont := if c.handle = h then c.decrement opno now else c

theorem Cont.joined_eq (h opno now : Nat) (c : Cont) : c.joined h opno now =
    if c.handle = h ∧ c.st = .pending then
      { c with count := c.count - 1, st := if c.count ≤ 1 then .ready else .pending, readyseq := if c.count ≤ 1 then opno else c.readyseq,
               time := max c.time now }
    else c := by
  unfold Cont.joined Cont.decrement
  by_cases hh : c.handle = h
  · by_cases hp : c.st = .pending
    · by_cases hc : c.count ≤ 1
      · simp [hh, hp, hc, Nat.sub_eq_zero_of_le hc]
      · simp [hh, hp, hc]
    · simp [hh, hp]
  · simp [hh]

/-- A launch in which the records of handle `h` have been joined at `now` (R299). -/
def Launch.joined (h now : Nat) (L : Launch) : Launch := { L with opno := L.opno + 1, conts := L.conts.map (Cont.joined h L.opno now) }

/-- The effect of `joinc` in a slice, as `execJoinc` writes it. -/
def joincOne (a : Opd) (p : At) (k : Nat) (s : State) : State :=
  let s := (s.orderPoint p.team k false).setSlice p.team k Slice.advance
  match s.team? p.team, s.slice? p.team k with
  | some t, some sl => (s.setLaunch t.launch (Launch.joined (sl.readS a).toNat (s.core t.core).clock)).kick t.launch
  | _, _ => s

theorem exec_joinc (a : Opd) (s : State) : exec (.joinc a) s = issuePoint (.joinc a) false homeWaits (eachMember (joincOne a)) s := rfl

theorem Slice.advance_readS (sl : Slice) (o : Opd) : sl.advance.readS o = sl.readS o := by
  rw [Slice.advance_rest]
  rfl

theorem joincOne_serves (h : AfterCharge s z p.team x k sl) (hL : s.launch? x.launch = some L) (hw : L.waiters = []) (a : Opd) :
    Served z (joincOne a p k z) p.team k Slice.advance x.launch (Launch.joined (sl.readS a).toNat (z.core x.core).clock) := by
  obtain ⟨v, hpoint, hmoved, hv, hcore⟩ := h.orderPoint
  obtain ⟨y, hy, hyl, hyc⟩ := hv.team
  refine hmoved.served ?_
  have hteam := State.team?_setSlice_self hy k Slice.advance
  have hslice : (v.setSlice p.team k Slice.advance).slice? p.team k = some sl.charged.advance :=
    (MembersChanged.setSlice (fun m hm => m.advance_idx.trans hm) fun _ _ => rfl).members k (List.mem_singleton_self k) _ hv.slice
  set r := (v.setSlice p.team k Slice.advance).setLaunch x.launch (Launch.joined (sl.readS a).toNat (z.core x.core).clock) with hr
  have hkick : joincOne a p k z = r.kick x.launch := by
    simp only [joincOne, hpoint, hteam, hslice, Slice.advance_readS, Slice.charged_readS, Team.setSlice_launch, Team.setSlice_core, hyl, hyc]
    rw [hr, ← hcore]
    rfl
  rw [hkick]
  exact hv.served_kick hL hw rfl (fun _ => rfl) rfl

end Records

/-- Settles O37: the cox has nothing else to serve in a launch whose team works and for which none waits, so that each word leaves
its own record. -/
theorem continuationResults : Obligations.ContinuationResults := by
  refine ⟨fun s p x k sl d a L h hidle hL hmov hw hst => ?spawn, fun s p x k sl a L h hidle hL hmov hw => ?joinc⟩
  case spawn =>
    obtain ⟨hd, ha⟩ := Bool.and_eq_true_iff.1 (show (d.szero && a.sGroup 4) = true from h.executes.formed)
    have hresult := fun w c => sl.answered_result w c (Opd.sdst_of_szero hd)
    have hcharged := h.afterCharge hidle
    intro off cnt
    rw [exec_spawn]
    by_cases hfails : L.spawnFails off = true
    · obtain ⟨t, ht, hframe, hslice, hlaunches⟩ := h.served hidle hL hmov (Slice.answered_plain d 0 false) (spawnOne_fails hcharged hL d hfails)
      exact ⟨t, _, 0, ht, hframe, hslice, hresult 0 false, fun _ => ⟨rfl, by rw [hlaunches, State.setLaunch_id]⟩,
        fun hmakes => absurd (hfails.symm.trans hmakes) (by decide)⟩
    · have hmakes := Bool.eq_false_iff.2 hfails
      obtain ⟨w, hw0, hnew, hserved⟩ := spawnOne_makes hcharged hL hst hw d hmakes
      obtain ⟨t, ht, hframe, hslice, hlaunches⟩ := h.served hidle hL hmov (Slice.answered_plain d w true) hserved
      refine ⟨t, _, w, ht, hframe, hslice, ?_, fun hf => absurd hf hfails, fun _ => ⟨hw0, hnew, _, State.launch?_served hlaunches hL fun _ => rfl,
        _, hcharged.clock, ?_⟩⟩
      · rw [bne_iff_ne.2 hw0]
        exact hresult w true
      · rw [Launch.addRecord, Slice.record, Slice.pair_eq_pairOf _ _ (Opd.plus_zero_of_sGroup ha)]
  case joinc =>
    rw [exec_joinc]
    have hcharged := h.afterCharge hidle
    obtain ⟨t, ht, hframe, hslice, hlaunches⟩ := h.served hidle hL hmov Slice.advance_plain (joincOne_serves hcharged hL hw a)
    refine ⟨t, _, ht, hframe, hslice, sl.charged_advance_went, Slice.advance_rest _, _, _, State.launch?_served hlaunches hL fun _ => rfl, rfl,
      hcharged.clock, List.map_congr_left fun c _ => Cont.joined_eq _ _ _ c⟩

end Sys2Proof.Machine
